-- ==== Sys2Proof/Word.lean ====
section
/-! DEFINITION. Word.lean: the widths that Bowin computes in, and nothing else.

A register is 64 bits (R161), memory is addressed in bytes (R9), the slices and the L1 keep
128-byte lines of four 32-byte sectors (R76, R129), and a lane mask of a group has one bit for
each of at most 64 lanes (R2). -/

namespace Sys2Proof

/-- A 64-bit register value or address operand. -/
abbrev Word := BitVec 64

/-- One byte of memory. -/
abbrev Byte := BitVec 8

/-- The 128 bytes of a cache line, byte `i` at bits `[8i+7:8i]` (R9, R76). -/
abbrev Line := BitVec 1024

/-- One bit for each lane of a group (R2, R169). -/
abbrev Mask := BitVec 64

end Sys2Proof
end

