-- ==== Sys2Proof/Config.lean ====
section
/-! DEFINITION. Config.lean: what the specification fixes for the part in numbers, and the values it
leaves open.

The open values are opaque constants without a body: nothing can be proved of the value they give, so
a statement about the model holds whatever that value is. They are applied to the counter
`State.free`, which every use advances, or to the operands that they depend on. -/

namespace Sys2Proof.Config

/-! ## Free values -/

/-- A 64-bit value that the specification leaves open, one for each draw. -/
opaque freeWord : Nat → Word

/-- A choice among `n` alternatives that the specification leaves open (a victim way, R81 and R128;
old or new for a register in flight, R358; whether XRED combines lanes, R156). The result is used
modulo the number of alternatives. -/
opaque freeChoice : Nat → Nat

/-- The value of a transcendental function whose rounding interval the model's refinement does not
separate within its fuel (R230): function number, operand, format and mode codes. -/
opaque unseparated : Nat → Word → Nat → Nat → Word

/-- The random bytes of a signature's salt and of a key wrapping's seed (R421, R429), one for each draw. -/
opaque randomSalt : Nat → BitVec 512

/-! ## Questions whose answers the specification leaves to standards and manufacture (R416, R421, R434) -/

/-- The certified modulus in an endorsement certificate that chains to the Spanidon root (R421), if
the certificate does. -/
opaque certModulus : List Byte → Option (BitVec 4096)

/-- Whether a device, by its DEVID, is a member of the set whose hash is given (R434, R435): the specification does
not say how a witness learns it. -/
opaque memberUnder : BitVec 512 → BitVec 512 → Bool

/-- Whether a firmware image carries a valid signature (R416 step 2). -/
opaque firmwareVerifies : List Byte → Bool

/-! ## This device's secrets (R421) -/

/-- DSS, the device sealing secret. -/
opaque dss : BitVec 512
/-- FK, the HMAC key of the lineage region. -/
opaque fk : BitVec 512
/-- DIK's public modulus and its private exponent. -/
opaque dikModulus : BitVec 4096
opaque dikExponent : BitVec 4096
/-- WK's public modulus and its private exponent. -/
opaque wkModulus : BitVec 4096
opaque wkExponent : BitVec 4096
/-- The endorsement certificate kept in the configuration flash. -/
opaque certificate : List Byte
/-- SHA-512 of the verified firmware image. -/
opaque firmwareDigest : BitVec 512
/-- SHA-512 of the configuration flash maps. -/
opaque configDigest : BitVec 512

/-! ## Figures of the part -/

/-- Core cycles in a GT tick (R2, R10). -/
abbrev cyclesPerTick : Nat := 4
/-- Bytes of one HBM channel (R50, R71). -/
abbrev channelBytes : Nat := 0x60000000
/-- Clusters on one drag die (R2). -/
abbrev clustersPerDie : Nat := 16
/-- Cores in one cluster (R2). -/
abbrev coresPerCluster : Nat := 6
/-- Outstanding requests of one core (R135). -/
abbrev coreRequests : Nat := 1024
/-- Copy slots of one core (R118). -/
abbrev copySlots : Nat := 256
/-- Stream contexts of one core (R94). -/
abbrev streamContexts : Nat := 64
/-- Sets of a slice (R75). -/
abbrev sliceSets : Nat := 12288
/-- Ways of a slice (R75) and of the L1 (R128). -/
abbrev cacheWays : Nat := 16
/-- Entries of the eviction lease table (R80). -/
abbrev leaseTable : Nat := 1024
/-- Entries of a slice's snoop filter (R88). -/
abbrev snoopFilter : Nat := 16384
/-- Entries of the back-invalidate directory (R91). -/
abbrev biDirectory : Nat := 1048576
/-- Entries of a TLB block, and pointers of its walk cache (R59). -/
abbrev tlbEntries : Nat := 4096
abbrev walkCache : Nat := 256
/-- Operations that a matrix queue holds (R255). -/
abbrev matrixQueue : Nat := 8
/-- Bytes of a quarter's staging store (R243). -/
abbrev stagingBytes : Nat := 262144
/-- Entries of a team queue (R346). -/
abbrev teamQueue : Nat := 64
/-- Entries of a core's phaser unit and of a die's phaser engine (R292). -/
abbrev corePhasers : Nat := 256
abbrev diePhasers : Nat := 8192
/-- Reduction objects of a die, and of a launch (R311). -/
abbrev dieObjects : Nat := 1024
abbrev launchObjects : Nat := 256
/-- Entries of the lineage region (R433). -/
abbrev lineageEntries : Nat := 1024

end Sys2Proof.Config
end

