-- ==== Sys2Proof/Syntax.lean ====
section
/-! DEFINITION. Syntax.lean: the items of Bowin code and the device's events, as data.

`Instr` has one constructor for each row of the opcode table. The first part (to `pairedWord` and
`unassignedEncoding`) are items of code: they have encodings (R12 to R40) and carry their operands
decoded. The second part are the device's own indivisible steps: they have no encoding, and their
arguments say which object the step concerns. -/

namespace Sys2Proof

/-! ## Fields shared by many items -/

/-- The control field CTL of an item (R15). `setf = none` is SETF = 15. -/
structure Ctl where
  dist : BitVec 3
  wait : BitVec 12
  setf : Option (Fin 12)
  yld : Bool
deriving DecidableEq, Repr, Inhabited

/-- The guard field PRED: a predicate and whether it is negated (R22). -/
structure Guard where
  p : Fin 8
  neg : Bool
deriving DecidableEq, Repr, Inhabited

/-- The RET field of an S or P word: which source is retained (R18, R20). -/
inductive Retain where
  | none | a | b | c
deriving DecidableEq, Repr, Inhabited

/-- What every item of code carries beside its operands. C and L words have no RET field. -/
structure Hdr where
  ctl : Ctl
  guard : Guard
  ret : Retain
deriving DecidableEq, Repr, Inhabited

/-- A 10-bit operand field (R27). `reserved i` keeps an index that names nothing: reading or
writing it raises ILLEGAL_OPND when the item issues. -/
inductive Opnd where
  | v (n : Fin 768)
  | sq (n : Fin 16)
  | dp (n : Fin 4)
  | s (n : Fin 64)
  | laneid
  | ones
  | zero
  | reserved (i : BitVec 10)
deriving DecidableEq, Repr, Inhabited

/-- The type codes of R25. -/
inductive Ty where
  | none | f64 | f32 | bf16 | f16 | e4m3 | e5m2 | e2m1 | i8 | i16 | i32 | i64
  | n8 | n16 | n32 | n64 | f32x2 | bf16x4 | f16x4 | e4m3x8 | e5m2x8 | e2m1x16
  | i8x8 | i16x4 | i32x2 | n8x8 | n16x4 | n32x2
deriving DecidableEq, Repr, Inhabited

/-- The rounding codes of R26. -/
inductive Rnd where
  | rne | rtz | rdn | rup | rna | dyn
deriving DecidableEq, Repr, Inhabited

/-- The scopes of R141 and R273. -/
inductive Scope where
  | thr | grp | team | core | cpair | die | part | sys
deriving DecidableEq, Repr, Inhabited

/-- Conditions of ICMP (R212) and, with the last two, of FCMP (R224). -/
inductive Cond where
  | eq | ne | lt | le | gt | ge | un | ord
deriving DecidableEq, Repr, Inhabited

/-- Combining operations of SCAN and SRED (R166) and of RED (R153). -/
inductive COp where
  | add | min | max | and | or | xor
deriving DecidableEq, Repr, Inhabited

/-- Modes of SHFL and SHFLI (R166). -/
inductive ShMode where
  | idx | up | dn | xor
deriving DecidableEq, Repr, Inhabited

/-- Operations of VOTE (R170). -/
inductive VoteOp where
  | all | any | none | eq
deriving DecidableEq, Repr, Inhabited

/-- Operations of PLOP (R180). -/
inductive PlOp where
  | and | or | xor
deriving DecidableEq, Repr, Inhabited

/-- A possibly negated source predicate. -/
structure PSrc where
  p : Fin 8
  neg : Bool
deriving DecidableEq, Repr, Inhabited

/-- Cache hints of LD and ST (R141). -/
inductive CHint where
  | normal | strm | nl
deriving DecidableEq, Repr, Inhabited

/-- Ordering of CAS (R153). -/
inductive CasOrd where
  | none | acq | rel | ar
deriving DecidableEq, Repr, Inhabited

/-- Copy hints (R118). -/
inductive CpyHint where
  | none | strm | keep
deriving DecidableEq, Repr, Inhabited

/-- Modes of MSTA (R261). -/
inductive StaMode where
  | overwrite | add | xadd
deriving DecidableEq, Repr, Inhabited

/-- Phaser modes (R294); `none` is a group that is no member. -/
inductive PhMode where
  | none | sig | wait | sigwait
deriving DecidableEq, Repr, Inhabited

/-- Kinds of FENCE (R288). -/
inductive FenceKind where
  | acq | rel | ar
deriving DecidableEq, Repr, Inhabited

/-- Operations of CSRW (R378). -/
inductive CsrOp where
  | write | set | clr
deriving DecidableEq, Repr, Inhabited

/-- Values of GETID (R185), in the order of their SEL codes. -/
inductive IdSel where
  | lane | group | teamx | teamy | teamz | team | gtid | width | ngroup | nteam | core | quarter
deriving DecidableEq, Repr, Inhabited

/-- Forms of GRES (R312): a rounded result in D, or the whole sum in an accumulator. -/
inductive GresForm where
  | typed (ty : Ty) (rnd : Rnd) (d : Opnd)
  | whole (xa : Fin 8)
deriving DecidableEq, Repr, Inhabited

/-- Why an item's encoding raises ILLEGAL_OPC (R40). -/
inductive Reject where
  | tooShort | isHeader | reservedOpc
  | badField
deriving DecidableEq, Repr, Inhabited

/-- Registers that a host or management-core write reaches through REGISTER_WRITE: every
software-visible register that has no event of its own (R6). -/
inductive RegName where
  | regbase | asidbase | hostRange (i : Fin 8) (len : Bool) | hdmRange (i : Fin 4) (field : Fin 3)
  | maxprio (vf q : Nat) | qbase (vf q : Nat) | qctl (vf q : Nat)
  | rbase (vf r : Nat) | rctl (vf r : Nat)
  | ingotCtl | ingotArg (i : Fin 4)
  | readOnly
deriving DecidableEq, Repr, Inhabited

/-- The table's operations and events. -/
inductive Instr where
  -- class 0x000 control (R359, R378)
  | nopC (h : Hdr)
  | nopS (h : Hdr)
  | bra (h : Hdr) (off : BitVec 18)
  | brx (h : Hdr) (a : Opnd)
  | call (h : Hdr) (d : Opnd) (off : BitVec 18)
  | callx (h : Hdr) (d a : Opnd)
  | ret (h : Hdr) (d : Opnd)
  | exit (h : Hdr)
  | yield (h : Hdr)
  | tfence (h : Hdr)
  | trap (h : Hdr) (code : BitVec 18)
  | eret (h : Hdr)
  | brk (h : Hdr) (code : BitVec 18)
  | sleep (h : Hdr) (ticks : BitVec 18)
  -- class 0x040 integer (R207)
  | iaddS (h : Hdr) (ty : Ty) (sat : Bool) (d a b : Opnd)
  | iaddL (h : Hdr) (ty : Ty) (sat : Bool) (d a : Opnd) (imm : Word)
  | isubS (h : Hdr) (ty : Ty) (sat : Bool) (d a b : Opnd)
  | isubL (h : Hdr) (ty : Ty) (sat : Bool) (d a : Opnd) (imm : Word)
  | imulS (h : Hdr) (ty : Ty) (sat : Bool) (d a b : Opnd)
  | imulL (h : Hdr) (ty : Ty) (sat : Bool) (d a : Opnd) (imm : Word)
  | imulh (h : Hdr) (ty : Ty) (d a b : Opnd)
  | imad (h : Hdr) (ty : Ty) (d a b c : Opnd)
  | idiv (h : Hdr) (ty : Ty) (d a b : Opnd)
  | irem (h : Hdr) (ty : Ty) (d a b : Opnd)
  | iminS (h : Hdr) (ty : Ty) (d a b : Opnd)
  | iminL (h : Hdr) (ty : Ty) (d a : Opnd) (imm : Word)
  | imaxS (h : Hdr) (ty : Ty) (d a b : Opnd)
  | imaxL (h : Hdr) (ty : Ty) (d a : Opnd) (imm : Word)
  | iabs (h : Hdr) (ty : Ty) (sat : Bool) (d a : Opnd)
  | ineg (h : Hdr) (ty : Ty) (sat : Bool) (d a : Opnd)
  | icmpS (h : Hdr) (ty : Ty) (cond : Cond) (pd : Fin 8) (a b : Opnd)
  | icmpL (h : Hdr) (ty : Ty) (cond : Cond) (pd : Fin 8) (a : Opnd) (imm : Word)
  | leaS (h : Hdr) (ty : Ty) (sh : Fin 8) (d a b : Opnd)
  | leaL (h : Hdr) (ty : Ty) (d a : Opnd) (imm : Word)
  -- class 0x080 bits and packed integer (R214)
  | andS (h : Hdr) (ty : Ty) (d a b : Opnd)
  | andL (h : Hdr) (ty : Ty) (d a : Opnd) (imm : Word)
  | orS (h : Hdr) (ty : Ty) (d a b : Opnd)
  | orL (h : Hdr) (ty : Ty) (d a : Opnd) (imm : Word)
  | xorS (h : Hdr) (ty : Ty) (d a b : Opnd)
  | xorL (h : Hdr) (ty : Ty) (d a : Opnd) (imm : Word)
  | andnS (h : Hdr) (ty : Ty) (d a b : Opnd)
  | andnL (h : Hdr) (ty : Ty) (d a : Opnd) (imm : Word)
  | shlS (h : Hdr) (ty : Ty) (d a b : Opnd)
  | shlL (h : Hdr) (ty : Ty) (d a : Opnd) (imm : Word)
  | shrS (h : Hdr) (ty : Ty) (d a b : Opnd)
  | shrL (h : Hdr) (ty : Ty) (d a : Opnd) (imm : Word)
  | sarS (h : Hdr) (ty : Ty) (d a b : Opnd)
  | sarL (h : Hdr) (ty : Ty) (d a : Opnd) (imm : Word)
  | rotS (h : Hdr) (ty : Ty) (d a b : Opnd)
  | rotL (h : Hdr) (ty : Ty) (d a : Opnd) (imm : Word)
  | shf (h : Hdr) (ty : Ty) (left : Bool) (d a b c : Opnd)
  | bfx (h : Hdr) (ty : Ty) (d a b : Opnd)
  | bfi (h : Hdr) (ty : Ty) (d a b c : Opnd)
  | popc (h : Hdr) (ty : Ty) (d a : Opnd)
  | clz (h : Hdr) (ty : Ty) (d a : Opnd)
  | ctz (h : Hdr) (ty : Ty) (d a : Opnd)
  | brev (h : Hdr) (ty : Ty) (d a : Opnd)
  | padd (h : Hdr) (ty : Ty) (sat : Bool) (d a b : Opnd)
  | psub (h : Hdr) (ty : Ty) (sat : Bool) (d a b : Opnd)
  | pmul (h : Hdr) (ty : Ty) (sat : Bool) (d a b : Opnd)
  | pmin (h : Hdr) (ty : Ty) (d a b : Opnd)
  | pmax (h : Hdr) (ty : Ty) (d a b : Opnd)
  | idot4 (h : Hdr) (ua ub sat : Bool) (d a b c : Opnd)
  | idot2 (h : Hdr) (ua ub sat : Bool) (d a b c : Opnd)
  -- class 0x0C0 float (R221)
  | fadd (h : Hdr) (ty : Ty) (rnd : Rnd) (d a b : Opnd)
  | fsub (h : Hdr) (ty : Ty) (rnd : Rnd) (d a b : Opnd)
  | fmul (h : Hdr) (ty : Ty) (rnd : Rnd) (d a b : Opnd)
  | ffma (h : Hdr) (ty : Ty) (rnd : Rnd) (d a b c : Opnd)
  | fmin (h : Hdr) (ty : Ty) (d a b : Opnd)
  | fmax (h : Hdr) (ty : Ty) (d a b : Opnd)
  | fcmp (h : Hdr) (ty : Ty) (cond : Cond) (pd : Fin 8) (a b : Opnd)
  | fdot2 (h : Hdr) (sty : Ty) (rnd : Rnd) (d a b c : Opnd)
  | fscale (h : Hdr) (ty : Ty) (rnd : Rnd) (d a b : Opnd)
  | fclass (h : Hdr) (ty : Ty) (d a : Opnd)
  | frnd (h : Hdr) (ty : Ty) (rnd : Rnd) (d a : Opnd)
  -- class 0x100 special and conversion (R229)
  | frcp (h : Hdr) (ty : Ty) (rnd : Rnd) (d a : Opnd)
  | frsq (h : Hdr) (ty : Ty) (rnd : Rnd) (d a : Opnd)
  | fsqrt (h : Hdr) (ty : Ty) (rnd : Rnd) (d a : Opnd)
  | fdiv (h : Hdr) (ty : Ty) (rnd : Rnd) (d a b : Opnd)
  | fexp2 (h : Hdr) (ty : Ty) (rnd : Rnd) (d a : Opnd)
  | flog2 (h : Hdr) (ty : Ty) (rnd : Rnd) (d a : Opnd)
  | fsin (h : Hdr) (ty : Ty) (rnd : Rnd) (d a : Opnd)
  | fcos (h : Hdr) (ty : Ty) (rnd : Rnd) (d a : Opnd)
  | ftanh (h : Hdr) (ty : Ty) (rnd : Rnd) (d a : Opnd)
  | fcvt (h : Hdr) (ty sty : Ty) (rnd : Rnd) (nsat : Bool) (d a : Opnd)
  | f2i (h : Hdr) (ty sty : Ty) (rnd : Rnd) (d a : Opnd)
  | i2f (h : Hdr) (ty sty : Ty) (rnd : Rnd) (d a : Opnd)
  | fpack (h : Hdr) (ty sty : Ty) (rnd : Rnd) (nsat : Bool) (d a b : Opnd) (pos : BitVec 10)
  | funpk (h : Hdr) (ty sty : Ty) (rnd : Rnd) (d a b : Opnd) (pos : BitVec 10)
  -- class 0x140 exact accumulators (R236)
  | xclr (h : Hdr) (xa : Fin 8)
  | xadd (h : Hdr) (ty : Ty) (xa : Fin 8) (a : Opnd)
  | xmac (h : Hdr) (ty : Ty) (xa : Fin 8) (a b : Opnd)
  | xrnd (h : Hdr) (ty : Ty) (rnd : Rnd) (clr : Bool) (xa : Fin 8) (d : Opnd)
  | xmrg (h : Hdr) (xa xb : Fin 8)
  | xsave (h : Hdr) (xa : Fin 8) (a : Opnd)
  | xload (h : Hdr) (xa : Fin 8) (a : Opnd)
  -- class 0x180 cross-lane (R166)
  | shfl (h : Hdr) (wid : Fin 5) (mode : ShMode) (seg : Fin 11) (d a b : Opnd)
  | shfli (h : Hdr) (wid : Fin 5) (mode : ShMode) (seg : Fin 11) (d a : Opnd) (imm : BitVec 10)
  | bcast (h : Hdr) (wid : Fin 5) (first : Bool) (d a b : Opnd)
  | ballot (h : Hdr) (ps : PSrc) (d : Opnd)
  | vote (h : Hdr) (op : VoteOp) (pd : Fin 8) (ps : PSrc) (a : Opnd)
  | matchK (h : Hdr) (w32 rank : Bool) (d a : Opnd)
  | compact (h : Hdr) (ps : PSrc) (d a : Opnd)
  /-- `seg = none` is SEG = 15, head flags from B. -/
  | scan (h : Hdr) (op : COp) (ty : Ty) (rnd : Rnd) (excl : Bool) (seg : Option (Fin 11)) (d a b : Opnd)
  | sred (h : Hdr) (op : COp) (ty : Ty) (rnd : Rnd) (seg : Option (Fin 11)) (d a b : Opnd)
  | pcfg (h : Hdr) (wid : Fin 4) (pcn : Fin 8) (a : Opnd)
  | perm (h : Hdr) (pcn : Fin 8) (d a : Opnd)
  /-- The group count is `k + 2`, 2 to 8. -/
  | regroup (h : Hdr) (k : Fin 7) (d : Opnd)
  | regroupDeal (team set : Nat)
  | actmask (h : Hdr) (live : Bool) (d : Opnd)
  -- class 0x1C0 moves and predicates (R180)
  | mov (h : Hdr) (ty : Ty) (d a : Opnd)
  | movi (h : Hdr) (d : Opnd) (imm : BitVec 18)
  | movl (h : Hdr) (d : Opnd) (imm : Word)
  | sel (h : Hdr) (ps : PSrc) (d a b : Opnd)
  | plop (h : Hdr) (op : PlOp) (pd : Fin 8) (pa pb : PSrc)
  | pget (h : Hdr) (d : Opnd)
  | pput (h : Hdr) (msk : BitVec 7) (a : Opnd)
  | rand (h : Hdr) (ty : Ty) (d : Opnd)
  | getid (h : Hdr) (sel : IdSel) (d : Opnd)
  -- class 0x200 loads and stores (R141)
  | ldS (h : Hdr) (ty : Ty) (sc : Fin 4) (acq : Option Scope) (ch : CHint) (d a b : Opnd)
  | ldL (h : Hdr) (ty : Ty) (ch : CHint) (d a : Opnd) (imm : Word)
  | stS (h : Hdr) (ty : Ty) (sc : Fin 4) (rel : Option Scope) (ch : CHint) (d a b : Opnd)
  | stL (h : Hdr) (ty : Ty) (ch : CHint) (d a : Opnd) (imm : Word)
  | ldsS (h : Hdr) (ty : Ty) (sc : Fin 4) (d a b : Opnd)
  | ldsL (h : Hdr) (ty : Ty) (d a : Opnd) (imm : Word)
  | stsS (h : Hdr) (ty : Ty) (sc : Fin 4) (d a b : Opnd)
  | stsL (h : Hdr) (ty : Ty) (d a : Opnd) (imm : Word)
  | ldxS (h : Hdr) (ty : Ty) (sc : Fin 4) (d a b : Opnd)
  | ldxL (h : Hdr) (ty : Ty) (d a : Opnd) (imm : Word)
  | stxS (h : Hdr) (ty : Ty) (sc : Fin 4) (d a b : Opnd)
  | stxL (h : Hdr) (ty : Ty) (d a : Opnd) (imm : Word)
  | prefS (h : Hdr) (l2 res : Bool) (lc : Fin 4) (sc : Fin 4) (a b : Opnd)
  | prefL (h : Hdr) (l2 res : Bool) (lc : Fin 4) (a : Opnd) (imm : Word)
  /-- `rng = none` is LINV.ALL. -/
  | linv (h : Hdr) (pub : Bool) (rng : Option (Opnd × Opnd))
  -- class 0x240 memory-side updates (R153)
  | cas (h : Hdr) (ty : Ty) (sp : Bool) (ord : CasOrd) (sc : Scope) (d a b c : Opnd)
  | red (h : Hdr) (op : COp) (ty : Ty) (sp : Bool) (rel : Option Scope) (d a b : Opnd)
  | xred (h : Hdr) (cty sty : Ty) (sp : Bool) (a b : Opnd)
  | xfin (h : Hdr) (ty : Ty) (rnd : Rnd) (sp : Bool) (acq : Option Scope) (d a : Opnd)
  | boff (h : Hdr) (clr : Bool)
  -- class 0x280 streams and copies (R113)
  | sqcfg (h : Hdr) (qn : Fin 16) (sp : Bool) (a b : Opnd)
  | sqgo (h : Hdr) (qn : Fin 16)
  | sqstop (h : Hdr) (qn : Fin 16) (disc : Bool)
  | sqstat (h : Hdr) (qn : Fin 16) (clr : Bool) (d : Opnd)
  | cpy (h : Hdr) (ssp dsp : Bool) (hint : CpyHint) (a b c : Opnd)
  | cseal (h : Hdr) (d : Opnd)
  | cwait (h : Hdr) (n : Fin 16) (rel : Bool)
  | cpoll (h : Hdr) (n : Fin 16) (rel : Bool) (d : Opnd)
  -- class 0x2C0 matrix (R250)
  | mdecl (h : Hdr) (cv : Fin 8) (a : Opnd)
  | mdeclRel (h : Hdr) (cv : Fin 8)
  /-- K is `16 * (kbm1 + 1)`; `bs = some vS` is the block-scaled form. -/
  | mma (h : Hdr) (ty : Ty) (cv : Fin 8) (kbm1 : Fin 16) (a : Opnd) (bs : Option Opnd) (c : Opnd)
  | mldb (h : Hdr) (sp : Bool) (a b c : Opnd)
  | mzero (h : Hdr) (a : Opnd)
  | mdrn (h : Hdr) (ty : Ty) (rnd : Rnd) (dp : Fin 4) (tile : Fin 16) (p64 : Bool)
  | msta (h : Hdr) (ty : Ty) (rnd : Rnd) (mode : StaMode) (tile : Fin 16) (sp : Bool) (a b : Opnd)
  | mldc (h : Hdr) (ty : Ty) (tile : Fin 16) (sp : Bool) (a b : Opnd)
  | macq (h : Hdr) (pd : Fin 8) (a : Opnd)
  | mrel (h : Hdr)
  -- class 0x300 synchronisation (R299, R288, R312)
  | phreg (h : Hdr) (mode : PhMode) (a : Opnd)
  | phdrop (h : Hdr) (a : Opnd)
  | phsig (h : Hdr) (a : Opnd)
  | phwait (h : Hdr) (a : Opnd)
  | phnxt (h : Hdr) (a : Opnd)
  | phnxtSpec (h : Hdr) (a : Opnd)
  | phstat (h : Hdr) (d a : Opnd)
  | fence (h : Hdr) (kind : FenceKind) (sc : Scope)
  | gred (h : Hdr) (xa : Fin 8) (a : Opnd)
  | gres (h : Hdr) (form : GresForm) (a : Opnd)
  -- class 0x340 transactions (R339)
  | txb (h : Hdr) (d : Opnd)
  | txbOrd (h : Hdr) (d a : Opnd)
  | txe (h : Hdr) (last : Bool)
  | txa (h : Hdr) (code : BitVec 8)
  | txs (h : Hdr) (d : Opnd)
  -- class 0x380 system (R378, R85)
  | csrr (h : Hdr) (csrn : BitVec 8) (d : Opnd)
  | csrw (h : Hdr) (csrn : BitVec 8) (op : CsrOp) (d a : Opnd)
  /-- `rng = none` is ICINV.ALL. -/
  | icinv (h : Hdr) (rng : Option (Opnd × Opnd))
  | l2way (h : Hdr) (d a : Opnd)
  | l2wayQ (h : Hdr) (d : Opnd)
  | gettime (h : Hdr) (d : Opnd)
  | mbox (h : Hdr) (d a b : Opnd)
  | halt (h : Hdr) (code : BitVec 8)
  -- the P format (R20, R38): OPC7 codes are kept, a reserved one raises PAIR_RULE
  | pairedWord (h : Hdr) (op1 op2 : BitVec 7) (d1 a1 b1 d2 b2 : Opnd)
  -- an item whose encoding R40 rejects
  | unassignedEncoding (why : Reject)
  -- events: mailboxes and issue (R374, R352 to R361, R158, R15)
  | escalationPostDeferred (core : Nat)
  | mailboxReply (core slot : Nat) (val : Word)
  | mailboxControlClear (core slot : Nat) (full replied : Bool)
  | pcPromote (gid : Nat) (pc : Word)
  | agingPromote (gid : Nat)
  | yieldDemotionEnd (gid : Nat) (pc : Word)
  | sleepExpiry (gid lane : Nat)
  | parkExpiry (gid lane : Nat)
  | instructionComplete (gid op : Nat) (lanes : Mask)
  -- events: slices, memory and translation (R56 to R85)
  | sliceFillRequest (req : Nat)
  | evictionEntryDiscard (slice : Nat) (asid : BitVec 16) (line : Nat)
  | memoryFillReturn (slice : Nat) (asid : BitVec 16) (line : Nat)
  | fillReturn (req : Nat)
  | tlbWalk (slice : Nat) (asid : BitVec 16) (va : Word) (write : Bool)
  | adCompareSwap (slice : Nat) (asid : BitVec 16) (va : Word)
  | publicationArrive (id : Nat)
  | writeApply (slice id : Nat)
  | writeback (slice : Nat) (asid : BitVec 16) (line : Nat)
  | snapshotPoolRefill (part : Nat) (frames : List Nat)
  | releaseComplete (rel : Nat)
  | fenceMarker (rel die : Nat)
  | residencyProbe (probe : Nat)
  | crucibleCas (slice id : Nat)
  | crucibleRed (slice id : Nat)
  | crucibleXred (slice id : Nat)
  | crucibleXfin (slice id : Nat)
  | tileAddOnStore (slice id : Nat)
  | carvewWrite (part : Nat) (val : Word)
  | carveChangeComplete (part : Nat)
  | requestCounterWrite (part die chan which : Nat) (val : Word)
  -- events: host coherence (R87 to R91)
  | snpInv (hpa : Nat)
  | snpData (hpa : Nat)
  | snpCur (hpa : Nat)
  | cxlReadResponse (slice : Nat) (hpa : Nat) (data : BitVec 512) (own : Bool)
  | hostMemRead (hpa n : Nat)
  | hostMemWrite (hpa : Nat) (bytes : List Byte)
  | biResponse (pa : Nat)
  -- events: streams and copies (R96 to R123)
  | streamElementRequest (core : Nat)
  | streamReadReturn (core req : Nat)
  | streamWriteApplied (core ctx : Nat)
  | streamStopComplete (gid q : Nat)
  | copyComplete (core copy : Nat)
  -- events: matrix (R249 to R267)
  | matrixQueueEnter (core q cv : Nat)
  | mmaStart (core q : Nat)
  | mmaComplete (core q op : Nat)
  | matrixMemoryOpComplete (core q op : Nat)
  | drainRowMove (gid dp : Nat)
  | reservationRelease (core q : Nat)
  | claimantExpiry (core q : Nat)
  -- events: phasers and runner network (R296 to R314)
  | phaseEnd (inst : Nat)
  | specRollback (gid : Nat)
  | gredDeferredContribute (gid op : Nat)
  | gresResult (gid op : Nat)
  -- events: transactions (R319 to R336)
  | commitRound (gid : Nat)
  | commitLock (gid : Nat)
  | commitApply (gid : Nat)
  | commitUnlock (gid : Nat)
  | txAbort (gid lane : Nat)
  | txLimit (gid lane : Nat)
  | orderTokenPass (lid : Nat)
  | irrevocableTokenGrant (gid lane : Nat)
  -- events: command queues, launches, teams (R345 to R364, R406 to R414)
  | nopCommand (vf q : Nat)
  | launchCommand (vf q : Nat)
  | endCommand (vf q : Nat)
  | switchCommand (vf q : Nat)
  | malformedEntry (vf q : Nat)
  | qtailWrite (vf q : Nat) (val : BitVec 16)
  | dependenceCheck (part : Nat)
  | launchStart (lid : Nat)
  | teamDeal (lid : Nat)
  | teamPlace (core : Nat)
  | teamSteal (thief : Nat)
  | teamEnd (team : Nat)
  | recordWriteDeferred (vf ring : Nat)
  | rheadWrite (vf ring : Nat) (val : BitVec 17)
  | ringInterrupt (vf ring : Nat)
  | contextSwitch (core : Nat)
  | contextRestore (core : Nat)
  | quantumExpiry (core : Nat)
  -- events: reliability (R387 to R401)
  | patrolScrub (die chan : Nat)
  | assayRunComplete (team : Nat)
  | assaycfgWrite (part : Nat) (val : Word)
  | healthClear (val : Word)
  | partitionCreate (first logn : Nat)
  | partitionTeardown (part : Nat)
  | registerWrite (part : Nat) (reg : RegName) (val : Word)
  -- events: start-up and power (R90, R416 to R420)
  | deviceReset
  | slicePowerGate (slice : Nat)
  | coldStart (ok : Bool) (modules : Nat)
  | warmStart (ok : Bool) (modules : Nat)
  | startTimeout
  | recoveryMode
  | recoveryImageLoad (image : List Byte)
  | powerThrottle (core q cycles : Nat)
  -- events: sealed checkpoints (R421 to R440)
  | nonce
  | report
  | seal
  | sealfin
  | wrap
  | restore
  | restorefin
  | witnessSeal
  | witnessClaim
  | witnessRelease
  | witnessQuery
  | imextWrite (off : Nat) (bytes : List Byte)
  | lineageErase
  -- events: other devices and slice power (R311, R419, R90)
  | runnerRemoteContribution (lid obj : Nat) (val : BitVec 4280) (st : BitVec 8) (count : BitVec 32) (round : BitVec 16)
  | remoteMemoryMove (part pa : Nat) (bytes : List Byte)
  | slicePowerRestore (slice : Nat)
deriving DecidableEq, Repr, Inhabited

end Sys2Proof
end

