-- ==== Sys2Proof/Machine/State.lean ====
section
/-! DEFINITION. State.lean: everything the specification gives the machine, as plain data.

The device is one `State`: its part and flash, the partitions, launches, teams and groups with their
threads, the cores and quarters they run on, the slices, translation blocks and memories below, the
requests in flight between them, and the host's side. Sparse stores are lists of numbered entries in
rising order (`NMap`), in which an entry equal to the default is not listed. -/

namespace Sys2Proof.Machine

/-- A sparse store: entries in strictly rising order of their number. -/
abbrev NMap (α : Type) := List (Nat × α)

/-! ## Outcomes other than a next state -/

/-- Why the machine stops. -/
inductive Fault where
  /-- Raised by the host events on an address outside every window that R91 and R405 configure: the
  specification gives such an access no effect. Safe: the machine stops. -/
  | unmappedHostAccess (hpa : Nat)
deriving DecidableEq, Repr, Inhabited

/-- Why an instruction has no meaning in a state. -/
inductive Refusal where
  /-- The instruction has no meaning in the model yet. Safe: the machine stops. -/
  | notModelled (mnemonic : String)
  /-- An item of code was executed with no issuing group: `step` never does so. Safe. -/
  | noIssuingGroup
deriving DecidableEq, Repr, Inhabited

/-! ## Causes (R365, R366) -/

/-- The causes, each with the code XCAUSE reports. -/
inductive CauseCode where
  | illegalOpc | illegalOpnd | pairRule | priv | notHeader | fetch | misalign | prot | elastic | lease
  | scratch | stream | arith | swtrap | brk | phaser | matrix | cap | double | uncorr | placement
deriving DecidableEq, Repr, Inhabited

/-- One cause with what it reports (R366, R369, R372). -/
structure Cause where
  code : CauseCode
  addr : Word := 0
  lane : Nat := 0
  wr : Bool := false
  sub : Nat := 0
  qn : Nat := 0
  sq : Bool := false
  cp : Bool := false
  mx : Bool := false
  idx : Nat := 0
  /-- The matrix operation that it stopped (R263). -/
  op : Nat := 0
deriving DecidableEq, Repr, Inhabited

/-! ## Threads (R160, R162, R164, R185) -/

/-- Whether a thread exists and still runs. -/
inductive TStatus where
  | absent | running | exited
deriving DecidableEq, Repr, Inhabited

/-- Why a running thread belongs to no population (R353). -/
inductive Wait where
  | none
  /-- At the reconvergence target `a` (R355). -/
  | recon (a : Word)
  /-- Parked by BOFF until a core cycle (R158), or by SLEEP until a GT tick (R361). -/
  | park (cycle : Nat)
  | sleep (gt : Nat)
  /-- At TXB until its instruction completes (R340), or at TXE (R324). -/
  | txb (op : Nat)
  | txe (op : Nat) (last : Bool)
  /-- At REGROUP with K (R179). -/
  | regroup (k : Nat) (d : Opnd)
  /-- Executed PHNXT.SPEC, and its group has not fully arrived or not resolved (R303). -/
  | spec (op : Nat)
  /-- Aborting: until the instructions it issued in the transaction have completed (R319). -/
  | aborting
deriving DecidableEq, Repr, Inhabited

/-- A read record of a transaction or of a speculation (R136, R304, R318). -/
structure ReadRec where
  scr : Bool
  sector : Nat
  ver : BitVec 48
  hash : Word
  byval : Bool
deriving DecidableEq, Repr, Inhabited

/-- A write record (R136, R304, R318): 32 bytes of data and their mask, and whether a word of it is
poisoned (R390). -/
structure WriteRec where
  scr : Bool
  sector : Nat
  data : BitVec 256
  mask : BitVec 32
  poison : Bool := false
deriving DecidableEq, Repr, Inhabited

/-- The block a thread is in (R34): its header's address, the first address after it, and the register
that the preceding instruction of the block retains (R36 rule 5). ERET to an XPC that a CSRW has changed names no
block: its thread is in an open block, whose two addresses are the same, and which ends at the next header
(log entry 60). -/
structure Block where
  start : Word
  stop : Word
  retained : Option (Fin 768)
deriving DecidableEq, Repr, Inhabited

/-- What a retried TXB does (R333). -/
inductive Retry where
  | none | again | fails
deriving DecidableEq, Repr, Inhabited

/-- The transaction state of a thread (R317 to R319, R323, R337, R343). Undo entries lie in scratchpad;
`undo` counts them. -/
structure Tx where
  active : Bool
  ord : Bool
  irrev : Bool
  index : Nat
  cause : Nat
  code : Nat
  aborts : Nat
  conf : Nat
  /-- The last transaction committed, so the next TXB clears ABORTS and CONF. -/
  committed : Bool
  retry : Retry
  reads : List ReadRec
  writes : List WriteRec
  undo : Nat
  items : Nat
  /-- Checkpoint (R319): PC and block of the TXB, predicates, draw counter, batch, records. -/
  ckPc : Word
  ckBlock : Option Block
  ckP : BitVec 7
  ckDraw : Word
  ckBatch : BitVec 4
  ckRecon : List Word
  /-- Commits of the thread, and whether TXE.LAST has committed (R337). -/
  commits : Nat
  lastDone : Bool
  /-- The number of its TXB: the instructions from it on were issued in the transaction (R319). -/
  firstOp : Nat
  /-- Waits at TXB for the partition's irrevocable token, or has it and waits for a release (R336). -/
  wants : Option (Option Nat)
  /-- Its stores to OUT ranges, as address and data, for the assay signature (R398). -/
  sts : List (Word × Word)
deriving DecidableEq, Repr, Inhabited

/-- One thread: its program counter, registers and state (R164). -/
structure Thread where
  status : TStatus
  pc : Word
  block : Option Block
  wait : Wait
  v : NMap Word
  p : BitVec 7
  draw : Word
  lfsr : BitVec 32
  bexp : Nat
  batch : BitVec 4
  gtid : Word
  /-- Reconvergence records, top first (R355). -/
  recon : List Word
  /-- Local phase for each phaser entry (R294). -/
  lp : NMap Nat
  /-- Registers whose word is poisoned (R390). -/
  poison : List Nat
  tx : Tx
deriving DecidableEq, Repr, Inhabited

/-! ## Instructions in flight (R15, R357, R358) -/

/-- Where a result goes. -/
inductive Dest where
  | v (lane n : Nat)
  | s (n : Nat)
  | p (lane i : Nat)
deriving DecidableEq, Repr, Inhabited

/-- A write that an instruction in flight has still to make. -/
structure RegWrite where
  lane : Nat
  dest : Dest
  val : Word
deriving DecidableEq, Repr, Inhabited

/-- One lane's access to memory in flight: bytes `[va, va + n)`, those already taken, and the request
awaited for the rest. -/
structure LaneAcc where
  lane : Nat
  va : Nat
  n : Nat
  ty : Ty
  data : Word
  taken : BitVec 8
  req : Option Nat
  /-- A read record that the fill completes (R304, R318): the bytes of the sector that were dirty at the
  lookup, and their mask. -/
  fix : Option (BitVec 256 × BitVec 32)
deriving DecidableEq, Repr, Inhabited

/-- What an instruction in flight still waits for, beside the passing of its latency. -/
inductive OpKind where
  /-- Nothing: its result is known. -/
  | ready
  /-- A load: the lanes whose bytes have not all arrived (R144). -/
  | load (d : Opnd) (accs : List LaneAcc)
  /-- Operations on their way to a slice that must be applied (R135, R148, R152); the lanes' results come
  with them. -/
  | applied (d : Opnd) (ids : List Nat)
  /-- A release (R133, R145, R288). -/
  | release (rel : Nat)
  /-- Earlier items' accesses that a fence or acquire waits for (R288), then perhaps a release. -/
  | fence (kind : FenceKind) (scope : Scope) (rel : Option Nat) (earlier : List Nat)
  /-- The item waits for its SQSTOP to drain (R116). -/
  | sqstop (q : Nat)
  /-- The descriptor of the SQCFG at the operation's address on its way: its address, its bytes so far, whether one came
  poisoned, and the reads that have not arrived (R114). -/
  | descr (base : Nat) (got : BitVec 512) (bad : Bool) (accs : List LaneAcc)
  /-- CWAIT for the copies of a batch (R121). -/
  | batch (copies : List Nat)
  /-- Matrix operations of its quarter (R256 to R261), or a signature of convergence register cv (R255). -/
  | matrix (ops : List Nat)
  | signature (cv : Nat)
  /-- MREL (R267). -/
  | mrel
  /-- MDECL in flight on cv with the members it has read, or MDECL.REL (R248). -/
  | mdecl (cv : Nat) (rel : Bool) (members : List (Nat × Mask))
  /-- PCFG in flight with the set it has read (R177). -/
  | pcfg (pcn : Nat) (wid : Nat) (set : BitVec 4352)
  /-- Phaser waits: the releases of the signals, and the lanes' waits: until PH ≥ the phase given, or
  in a WAIT member (`none`) until PH > LP (R295, R301). -/
  | phaser (inst : Nat) (spec : Bool) (rels : List Nat) (waits : List (Nat × Option Nat))
  /-- GRED accepted for the next round (R313), GRES waiting for a round (R314). -/
  | gred (obj : Nat) (round : Nat) (count : Nat) (val : BitVec 4280) (st : BitVec 8)
  | gres (obj : Nat) (round : Nat) (ty : Ty) (rnd : Rnd) (d : Opnd) (xa : Option Nat)
  /-- TXB waiting for the irrevocable token and its release (R336), TXE waiting for its lanes. -/
  | txb
  | txe
  /-- CSRW at its completion (R382). -/
  | csrw (n : Nat) (op : CsrOp) (v : Word) (d : Opnd)
  /-- LINV.PUB: its publications that have still to be sent (R150). -/
  | sending (ids : List Nat)
  /-- L2WAY (R85). -/
  | l2way (wnew : Nat) (d : Opnd)
  /-- MBOX in slot (R385). -/
  | mbox (slot : Nat) (d : Opnd)
  /-- REGROUP waiting for its set. -/
  | regroup
  /-- SCAN or SRED in its combining steps: how many it makes, in how many cycles; and once a context switch has stopped it,
  the steps made (its PROGIDX) and the cycles left. Its result depends on the values that it read at issue, and is held
  in the operation's writes (R175). -/
  | scan (steps cycles : Nat) (stopped : Option (Nat × Nat))
  /-- An exact-unit item: the accumulators change in issue order, at issue (R237). -/
  | exact
  /-- A D-unit item: the unit completes a group's in issue order (R205). -/
  | div
deriving DecidableEq, Repr, Inhabited

/-- The later accesses of its lanes that an instruction in flight holds back (R145, R152, R282, R288):
those that write, all, those of scratchpad, or those that overlap bytes of it that it has still to perform. -/
inductive Holds where
  | none | stores | all | scratch
  | bytes (own : List (Nat × Nat × Nat))
deriving DecidableEq, Repr, Inhabited

/-- What a FENCE waits for of an instruction in flight: a load of memory, scratchpad or carved storage, or an update that
returns a value (R288). -/
inductive Track where
  | none | load | update
deriving DecidableEq, Repr, Inhabited

/-- An instruction that has issued and not completed. -/
structure Op where
  id : Nat
  pc : Word
  setf : Option (Fin 12)
  /-- The cycle at whose start the result takes effect, for a fixed latency (R357); for a variable one
  the earliest cycle. -/
  due : Nat
  fixed : Bool
  /-- Lanes that executed it, and those that have not completed. -/
  lanes : Mask
  left : Mask
  writes : List RegWrite
  fflags : BitVec 7
  /-- TFENCE waits for it (R379). -/
  setsFlags : Bool
  kind : OpKind
  holds : Holds
  track : Track := .none
deriving DecidableEq, Repr, Inhabited

/-- A fault found after its instruction's issue, to be raised on a later item of the group: on one that
waits on flag `flag`, or with none on the next item of its family (R110, R249, R263, R313). -/
structure Deferred where
  flag : Option (Fin 12)
  family : Nat
  qn : Nat
  op : Nat
  cause : Cause
deriving DecidableEq, Repr, Inhabited

/-! ## Streams and copies (R94 to R123) -/

/-- STATE of a stream queue, with SQSTAT's codes (R98). -/
inductive QState where
  | unbound | held | running | done | faulted | stopping
deriving DecidableEq, Repr, Inhabited

/-- An entry that the engine has reserved and not completed (R96): lanes still to be read or written. -/
structure QEntry where
  k : Nat
  todo : Mask
  flight : Mask
  /-- Lanes whose element is delivered with VALID = 1 (R102, R103). -/
  valid : Mask
  /-- Indices: lanes to read, being read, and the values known (R103). -/
  itodo : Mask
  iflight : Mask
  idx : NMap Nat
  /-- Lanes whose index came as a poisoned word (R391). -/
  bad : Mask
  /-- Its writes not yet applied (R96). -/
  pubs : List Nat
deriving DecidableEq, Repr, Inhabited

/-- One stream queue of a group (R95). -/
structure Queue where
  st : QState
  desc : BitVec 512
  qbase : Nat
  logd : Nat
  free : Nat
  filled : Nat
  pos : Nat
  oob : Bool
  valid : NMap Mask
  /-- The engine's next entry to reserve and read, and the entries being read. -/
  next : Nat
  entries : List QEntry
  /-- The engine's next entry to write or to hand on as indices, and the entries being written. -/
  wnext : Nat
  outs : List QEntry
  /-- Entries whose indices have been taken from the index queue, until they are complete: an entry that is reserved
  again keeps them (R103, R109, R125). -/
  taken : List QEntry
  /-- Entries below it that the engine has not yet handled are skipped (R111). -/
  skipTo : Nat
  /-- The pages that its element addresses have entered (R105). -/
  pages : List Nat
  ctx : Option Nat
  stopOp : Option Nat
  disc : Bool
  /-- The stored fault of a FAULTED queue, its entry in `idx` (R109, R110). -/
  fault : Option Cause
deriving DecidableEq, Repr, Inhabited

/-- One copy of the copy engine (R118 to R123). -/
structure Copy where
  id : Nat
  gid : Nat
  lane : Nat
  batch : BitVec 4
  src : Nat
  dst : Nat
  len : Nat
  ssp : Bool
  dsp : Bool
  hint : CpyHint
  /-- Bytes whose write has been applied. -/
  done : Nat
  /-- The line read under way, and the bytes and writes of the present chunk that are under way. -/
  req : Option Nat
  chunk : Nat
  pubs : List Nat
  /-- The bytes of the chunk that have been read and wait for the write's turn at the port (R108). -/
  held : Option Nat
  stopped : Option Cause
  /-- The bytes written of the destination's present unit of 8, for the assay signature (R398). -/
  unit : Word
  /-- Pages that its source and its destination entered last (.KEEP, R118). -/
  spage : Option Nat
  dpage : Option Nat
deriving DecidableEq, Repr, Inhabited

/-! ## Groups -/

/-- A permute configuration (R176): its bits and WID. -/
structure PermCfg where
  bits : BitVec 4352
  wid : Nat
deriving DecidableEq, Repr, Inhabited

/-- A drain port (R264): ACTIVE or IDLE. -/
structure Drain where
  active : Bool
  ty : Ty
  rnd : Rnd
  p64 : Bool
  /-- Rows moved into the buffer and rows read, of 64, and the buffered rows: their values by lane, their
  flags, and the lanes whose value is poisoned (R391). -/
  moved : Nat
  taken : Nat
  rows : List (List Word × BitVec 7 × Mask)
deriving DecidableEq, Repr, Inhabited

/-- A group's speculation on a phaser instance (R303 to R310). -/
inductive SpecState where
  | none | arriving | speculating | stalled | validating
deriving DecidableEq, Repr, Inhabited

/-- What speculation keeps (R304). -/
structure Spec where
  st : SpecState
  inst : Nat
  arrived : Mask
  reads : List ReadRec
  writes : List WriteRec
  /-- Undo entries in scratchpad, by lane. -/
  undo : NMap Nat
  savedP : NMap (BitVec 7)
  savedS : NMap Word
  savedDraw : NMap Word
  savedRecon : NMap (List Word)
  resume : NMap (Word × Option Block)
  /-- In VALIDATING: the read records that have still to be checked, and whether one has failed (R306). -/
  checks : List ReadRec
  failed : Bool
  /-- Rolling back: waits for the instructions issued in speculation (R308). -/
  rollback : Bool
  firstOp : Nat
  /-- Its stores to OUT ranges, for the assay signature (R398). -/
  sts : List (Word × Word)
deriving DecidableEq, Repr, Inhabited

/-- How an escalated group is held (R374, R375, R458). -/
inductive Held where
  | none
  /-- No slot is free yet: the record waits. -/
  | unposted
  /-- Posted in a slot; no reply yet. -/
  | posted (slot : Nat)
  /-- Stopped for good: its launch is being ended (R376). -/
  | stopped
deriving DecidableEq, Repr, Inhabited

/-- A commit round of a group (R324 to R331). -/
inductive RoundStage where
  | idle | releasing | locking | validating | applying | unlocking
deriving DecidableEq, Repr, Inhabited

/-- The round's lanes in priority order, its release, the locks still to take or the sectors still to
apply, the records still to check with the lanes that failed, and its stamp. -/
structure Round where
  stage : RoundStage
  ordered : Bool
  lanes : List Nat
  rel : Nat
  todo : List (Bool × Nat)
  checks : List (Nat × ReadRec)
  failed : List Nat
  ts : Nat
deriving DecidableEq, Repr, Inhabited

/-- One group (R2, R164). -/
structure Group where
  team : Nat
  gidx : Nat
  core : Nat
  quarter : Nat
  slot : Nat
  /-- The half-quarter of a width-16 group: lanes 16 to 31 when 1 (R348). -/
  half : Nat
  width : Nat
  resident : Bool
  /-- GT of the team's placement (R352), and how often YIELD demoted the group (R361). -/
  placed : Nat
  demoted : Nat
  threads : List Thread
  s : NMap Word
  xa : NMap (BitVec 4288)
  /-- Uniform registers and accumulators that hold a poisoned word (R390). -/
  sPoison : List Nat
  xaPoison : List Nat
  pcfg : NMap PermCfg
  flags : NMap Nat
  fflags : BitVec 7
  ftrapen : BitVec 7
  rmode : BitVec 3
  txcfg : BitVec 2
  xpc : Word
  xfirst : Word
  xaddr : Word
  xcause : BitVec 8
  xstat : BitVec 22
  xvec : Word
  xscratch : Word
  progidx : BitVec 32
  priv : Bool
  handler : Mask
  /-- Where the handler population's threads return to, and the blocks that they return into (R34, R381). -/
  xblocks : NMap (Word × Option Block)
  /-- The operation named by R372 that ERET hands IDX to. -/
  resumes : Option Cause
  held : Held
  heldCause : Option Cause
  queues : NMap Queue
  drains : NMap Drain
  /-- Issue state: the last issue's cycle (R351), YLD (R352), cycles ready and not picked, promotions
  (R356), and the lanes whose PC YIELD has demoted, with the issue cycles since (R361). -/
  lastIssue : Option Nat
  /-- The core cycle before which nothing issues: its placement, or the entry of its handler (R348, R366). -/
  notBefore : Nat
  /-- The last issue of an earlier cycle: two items that issue together count as one (R354). -/
  prevIssue : Option Nat
  yld : Bool
  waiting : Nat
  counts : NMap Nat
  promoted : List Word
  lowPcs : List (Mask × Nat)
  /-- Lines that the group's instruction buffer holds, with their poisoned sectors (R289). -/
  ibuf : List (Nat × Line × BitVec 4)
  /-- Operand buffer (R31): the registers that the items of the last issue cycle retained, with the lanes
  whose value it holds; and those of the issue cycle before, from which an item that issues in the same cycle
  as another is served. -/
  obuf : List (Nat × Mask)
  obufPrev : List (Nat × Mask)
  ops : List Op
  nextOp : Nat
  /-- The registers written in the present core cycle, each with the instruction that wrote it and its lowest executing
  lane (R163, R358). -/
  landed : List (Dest × Nat × Nat)
  /-- Dies whose links have carried the group's publications since its last fence marker (R281). -/
  links : List Nat
  deferred : List Deferred
  spec : Spec
  round : Round
deriving DecidableEq, Repr, Inhabited

/-! ## Teams and launches -/

/-- States of a team-queue entry (R347). -/
inductive TeamState where
  | undealt | queued | placing | running | saved | ending | done
deriving DecidableEq, Repr, Inhabited

/-- A lock or hold on a sector (R326, R327, R336): `lane` is 64 for a commit round's. -/
structure Lock where
  asid : Nat
  sector : Nat
  gid : Nat
  lane : Nat
  write : Bool
  irrev : Bool
deriving DecidableEq, Repr, Inhabited

/-- One team. -/
structure Team where
  lid : Nat
  index : Nat
  st : TeamState
  core : Nat
  pair : Bool
  groups : List Nat
  /-- The scratchpad's place in the core's pool, and its bytes by position (R127, R138). -/
  base : Nat
  farBase : Nat
  scratch : NMap Byte
  scratchPoison : List Nat
  /-- Locks and holds on its scratchpad sectors (R326, R336). -/
  locks : List Lock
  /-- By quarter on which it has groups, its first physical tile and window word there (R244, R348). -/
  tile0 : NMap Nat
  row0 : NMap Nat
  /-- The regroup sets that have begun, each under the index of the group that arrived first: the indices of its members,
  of which it takes those that belong to no earlier set (R179, log entry 71). -/
  regroups : NMap (List Nat)
  /-- Step of R350, and its release. -/
  endStep : Nat
  endRel : Option Nat
  /-- Assay: a signature, whether this is a second or third run of another team (R398). -/
  sig : Word
  rerunOf : Option Nat
  runs : List (Nat × Word)
  verdict : Option Nat
deriving DecidableEq, Repr, Inhabited

/-- A range of a launch (R64). -/
structure Range where
  base : Nat
  pages : Nat
  rd : Bool
  wr : Bool
  ex : Bool
  snap : Bool
  inp : Bool
  out : Bool
  elastic : Bool
deriving DecidableEq, Repr, Inhabited

/-- Where a launch stands (R345, R376, R413). -/
inductive LaunchState where
  | waiting | starting | running | ending | recorded | finished
deriving DecidableEq, Repr, Inhabited

/-- One launch. -/
structure Launch where
  part : Nat
  vf : Nat
  queue : Nat
  /-- Acceptance order (R266, R407). -/
  order : Nat
  desc : BitVec 2048
  prio : Nat
  st : LaunchState
  status : Nat
  detail : Nat
  aux : Nat
  /-- First cause delivered, and how many (R415). -/
  cause : Nat
  fcount : Nat
  depMet : List Bool
  depFail : Bool
  ranges : List Range
  regions : NMap Nat
  slices : List (BitVec 512 × Word)
  args : NMap Word
  teams : List Nat
  nextDeal : Nat
  nextCore : Nat
  pins : List Nat
  snaps : List (Nat × Nat)
  unrepl : Bool
  replay : Nat
  /-- Order token: NEXT, and the group that holds it (R330). -/
  next : Nat
  token : Option Nat
  tdone : Nat
  assay : Nat
  phaserTable : List (BitVec 1024)
  /-- Pages that residency set-up still waits for (R65). -/
  pending : List Nat
  /-- The management core has been asked for snapshot frames (R70). -/
  snapAsk : Bool
  /-- Copy-before-write is armed on its SNAP ranges (R65). -/
  armed : Bool
  /-- It holds its phaser-engine entries and reduction objects (R292, R311). -/
  holds : Bool
  /-- It is being stopped to be rolled back (R394). -/
  rolling : Bool
  /-- It has executed a CAS (R397). -/
  cas : Bool
  /-- A second or third run of a sampled team: the launch it repeats (R398). -/
  shadow : Option Nat
deriving DecidableEq, Repr, Inhabited

/-! ## Phasers and the runner network -/

/-- A member group of a phaser instance (R294, R297). -/
structure Member where
  gid : Nat
  mode : PhMode
  /-- Pending change: `some none` is a drop. -/
  pend : Option PhMode
deriving DecidableEq, Repr, Inhabited

/-- A phaser instance (R292). -/
structure Phaser where
  lid : Nat
  idx : Nat
  scope : Scope
  team : Nat
  die : Nat
  ph : Nat
  guards : List (Nat × Nat)
  members : List Member
  /-- Groups that are members and have not started (R294). -/
  unstarted : Nat
  /-- The releases that signals have made: group, release, phase. -/
  unreleased : List (Nat × Nat × Nat)
  /-- The cycle at which the end of the present phase, which is certain, becomes observable (R296). -/
  due : Option Nat
deriving DecidableEq, Repr, Inhabited

/-- A reduction object (R311). -/
structure RunObj where
  round : BitVec 16
  count : BitVec 32
  got : Nat
  sum : BitVec 4280
  st : BitVec 8
  result : Option (BitVec 4280 × BitVec 8)
  joined : Bool
deriving DecidableEq, Repr, Inhabited

/-! ## Cores and quarters -/

/-- An L1 line (R129). -/
structure L1Line where
  asid : Nat
  line : Nat
  stop : Nat
  sv : BitVec 4
  dm : BitVec 128
  lc : Nat
  data : Line
  vers : List (BitVec 48)
  /-- Sectors whose clean bytes were poisoned when they were filled, and words poisoned here (R390). -/
  poison : BitVec 4
  wordPoison : BitVec 16
  lid : Nat
  /-- First in eviction order (.STRM, R144, R146). -/
  first : Bool
deriving DecidableEq, Repr, Inhabited

/-- A mailbox record (R374). -/
structure MboxRec where
  kind : Nat
  cause : Nat
  orig : Nat
  slot : Nat
  quarter : Nat
  core : Nat
  asid : Nat
  w1 : Word
  w2 : Word
  w3 : Word
deriving DecidableEq, Repr, Inhabited

/-- Who waits for a slot's reply. -/
inductive Waiter where
  | nobody
  | group (gid : Nat)
  | mbox (gid op : Nat)
  | request (gid : Option Nat) (slice asid page : Nat) (lid : Nat)
  | hint (asid page : Nat)
deriving DecidableEq, Repr, Inhabited

/-- A mailbox slot (R374). -/
structure Slot where
  record : MboxRec
  reply : Word
  full : Bool
  replied : Bool
  waiter : Waiter
deriving DecidableEq, Repr, Inhabited

/-- States of a convergence register (R246). -/
inductive CvState where
  | free | declared | signing
deriving DecidableEq, Repr, Inhabited

/-- A signature: group, lane, its instruction, flag, control word and staged rows. -/
structure Signature where
  gid : Nat
  lane : Nat
  op : Nat
  ctl : Word
  /-- The words of its rows, row by row, and of their scales. -/
  rows : List Word
  scales : List Word
  /-- Its control word has been checked (R249 rule 6). -/
  checked : Bool
  /-- A word of its rows in the staging store is poisoned (R390). -/
  poison : Bool := false
deriving DecidableEq, Repr, Inhabited

/-- A convergence register (R246). -/
structure CvReg where
  st : CvState
  team : Nat
  members : List (Nat × Mask)
  ty : Ty
  kb : Nat
  bs : Bool
  signed : List Signature
  /-- The round's completion order, when the set is complete and waits for queue space (R249 rule 7). -/
  complete : Option Nat
  /-- The round completes with no effect: the check of a passed lead failed (R249 rule 6). -/
  void : Bool
deriving DecidableEq, Repr, Inhabited

/-- Operations of the matrix queue (R258). -/
inductive MatKind where
  /-- `old`: the values that each window word it reads has had since its start, but for its present one (R257). -/
  | mma (ty : Ty) (kb : Nat) (bs : Bool) (ctl : Word) (signed : List Signature)
      (members : List (Nat × Mask)) (old : NMap (List Word))
  | mzero
  | mldc (ty : Ty) (sp : Bool) (a st : Word)
  | msta (ty : Ty) (rnd : Rnd) (mode : StaMode) (sp : Bool) (a st : Word)
  | mdrn (dp : Nat)
  | mldb (sp : Bool) (a st : Word) (row nw : Nat)
deriving DecidableEq, Repr, Inhabited

/-- An operation in the queue: its tile or pair (physical), its instruction and its progress (R270):
the row or column, the bytes of it handled, and the read and the writes under way. -/
structure MatOp where
  id : Nat
  team : Nat
  gid : Nat
  op : Nat
  tiles : List Nat
  kind : MatKind
  running : Bool
  start : Nat
  prog : Nat
  off : Nat
  req : Option Nat
  pubs : List Nat
  stopped : Option Cause
  fflags : BitVec 7
deriving DecidableEq, Repr, Inhabited

/-- One quarter: its matrix unit and issue stage (R243, R204, R205, R352). -/
structure Quarter where
  /-- Cells of tile t, row i, column j at 4096 t + 64 i + j (R245); a team's reserved tiles are 16
  and up. -/
  cells : NMap (BitVec 32)
  /-- Word w of bank j at 1024 j + w (R86). -/
  bplane : NMap Word
  /-- Cells and B-plane words that are poisoned (R390); a word of accumulator memory is two cells. -/
  cellPoison : List Nat
  bPoison : List Nat
  cvs : NMap CvReg
  /-- The operation queue: the first eight. Operations after those are of an MZERO that names more tiles than the queue had
  entries free; they enter as it empties, before any other's (R243, R259, log entry 74). -/
  ops : List MatOp
  /-- MLDB transfers under way, outside the queue (R256). -/
  loads : List MatOp
  nextOp : Nat
  /-- MACQ's reservation: team and tiles; the claimant, and the GT tick of its last MACQ (R266). -/
  reserved : Option (Nat × Nat)
  claimant : Option (Nat × Nat)
  /-- Cycles until which the issue stage, a lane unit, the D unit and the exact unit are held. -/
  issueFree : Nat
  unitFree : NMap Nat
  /-- The cycle of the last pick, and the items that issued in it: group, PC, issue class and unit. -/
  pickCycle : Option Nat
  picked : List (Nat × Word × Nat × Nat)
deriving DecidableEq, Repr, Inhabited

/-- A saved context of a core or a core pair (R362, R363): its teams, and by core the scratchpad pool and
the log ways, and by quarter the matrix unit's state. `out`: saved by the switch under way, for others. -/
structure Saved where
  teams : List Nat
  pair : Bool
  out : Bool
  pools : NMap (Nat × Nat)
  quarters : NMap Quarter
deriving DecidableEq, Repr, Inhabited

/-- One core. -/
structure Core where
  /-- Recorded as mapped out since start-up (R8, R400). -/
  mappedOut : Bool
  /-- Scratchpad pool in bytes (R127) and log ways (R136). -/
  pool : Nat
  logWays : Nat
  l1 : List L1Line
  /-- Instruction lines by ASID and line: the bytes, and the sectors that were poisoned. -/
  icache : List (Nat × Nat × Line × BitVec 4)
  prefdrop : Word
  slots : NMap Slot
  /-- Records that wait for a slot, oldest first (R374). -/
  unposted : List (MboxRec × Waiter)
  queues : NMap (List Nat)
  saved : List Saved
  /-- QUANTUM (R364): LEN and the GT tick at which LEFT began to count. -/
  qlen : Nat
  qstart : Nat
  /-- A context switch is under way (R363): 1 while the core stops and drains, 2 where its pair's other core does so with
  it, 9 once it is saved and waits for the incoming context; or asked for by the host (R408). -/
  switching : Nat
  switchAsked : Bool
  copies : List Copy
  /-- Round-robin place of the line port, and the cycle of its last request (R108). -/
  rr : Nat
  portCycle : Option Nat
  /-- The carved size in bytes as the core holds it (R143). -/
  carved : Nat
  /-- By quarter, the core cycle up to which power control withholds issue (R420). -/
  throttle : NMap Nat
  /-- The core cycle from which the scratchpad banks are free (R139). -/
  banks : Nat := 0
deriving DecidableEq, Repr, Inhabited

/-! ## Requests in flight -/

/-- Who reads a line. -/
inductive Reader where
  /-- A fill of the L1 for a load of a lane (R131); its line first in eviction order or not. -/
  | l1 (gid : Nat) (pc : Word) (lane : Nat) (first : Bool)
  /-- A read at the slice that takes no lease, for an .NL load or a system-scope acquire (R144, R145). -/
  | noAlloc (gid : Nat) (pc : Word) (lane : Nat)
  /-- A read of an irrevocable lane: no dirty byte is used, and the sector is read-held (R336). -/
  | irrev (gid : Nat) (pc : Word) (lane : Nat) (sector : Nat)
  /-- A prefetch into the L1 or the slice only (R149), or a primed line (R105): never fails. -/
  | prefetch (l2 : Bool)
  /-- PREF.RES: only the walk is made (R149). -/
  | walk
  /-- An instruction fetch, whose bytes were taken when it was sent: the slice fills the line (R276, R289). The
  group, the item's address and its lowest lane, or none for the prefetch that a header asks for (R33, R458). -/
  | fetch (by_ : Option (Nat × Word × Nat))
  | stream (gid q : Nat)
  | copy (id : Nat)
  | matrix (core q op : Nat)
deriving DecidableEq, Repr, Inhabited

/-- Where a read request stands. -/
inductive ReqStage where
  | sent
  | waiting
  | answered (data : Line) (stop : Nat) (lc : Nat) (vers : List (BitVec 48)) (poison : BitVec 4)
deriving DecidableEq, Repr, Inhabited

/-- A read request of one line (R131, R135). -/
structure Request where
  core : Nat
  part : Nat
  lid : Nat
  asid : Nat
  line : Nat
  lc : Nat
  hintFirst : Bool
  reader : Reader
  stage : ReqStage
  /-- The lanes of PREF whose hint it serves (R69). -/
  hints : Nat := 0
  /-- The publications of its core with lower numbers that reach its line are applied before it is answered: those sent
  before it or before a load that joined it (R132). -/
  after : Nat := 0
deriving DecidableEq, Repr, Inhabited

/-- Operations that arrive at a slice (R82). -/
inductive SliceKind where
  /-- Bytes under a mask within one line: a publication, or a write of the bellows, a copy, MSTA. -/
  | write (data : Line) (mask : BitVec 128)
  | cas (ty : Ty) (expect new : Word) (lane : Nat)
  | red (op : COp) (ty : Ty) (val : Word) (lane : Nat)
  | xred (cell : Ty) (src : Ty) (vals : List Word)
  | xfin (ty : Ty) (rnd : Rnd) (lane : Nat)
  /-- Elements of a tile added on store: to FP32 values, or into exact cells of 64 bytes (R261). -/
  | tileAdd (exact : Bool) (vals : List (BitVec 32))
  | stx (data : Word) (n : Nat)
  | ldx (n : Nat) (lane : Nat) (ty : Ty)
deriving DecidableEq, Repr, Inhabited

/-- Who sent it. -/
inductive Sender where
  | release (gid rel : Nat)
  | early (gid : Nat)
  | item (gid op : Nat) (lane : Nat)
  | stream (gid q : Nat) (k : Nat)
  | copy (gid id : Nat)
  | matrix (gid core q op : Nat)
deriving DecidableEq, Repr, Inhabited

/-- Where an operation on its way to a slice stands. -/
inductive PubStage where
  /-- Of a .REL form whose release has not completed (R152 step 6). -/
  | held
  | travelling | queued
deriving DecidableEq, Repr, Inhabited

/-- An operation on its way to, or waiting at, a slice (R78, R133, R152). -/
structure Pub where
  core : Nat
  part : Nat
  lid : Nat
  asid : Nat
  va : Nat
  kind : SliceKind
  sender : Sender
  stage : PubStage
  /-- An SP form, applied at the team's scratchpad (R152). -/
  sp : Bool
  /-- Its place in the order of sending. -/
  seq : Nat
  /-- The slice inserts the line first in eviction order (R118). -/
  first : Bool
  /-- Poison that its data carry: the sectors of the line that it writes, or, not 0, a word of its operand
  (R390). -/
  poison : BitVec 4 := 0
deriving DecidableEq, Repr, Inhabited

/-- What follows a release (R145, R152, R288, R295, R326, R336, R350). -/
inductive RelCont where
  | nothing
  /-- ST.REL: its own bytes, as address, value and length, in lane order. -/
  | store (op : Nat) (lid : Nat) (first : Bool) (data : List (Nat × Word × Nat))
  /-- A .REL update: its operations, held until then. -/
  | updates (pubs : List Nat)
deriving DecidableEq, Repr, Inhabited

/-- Where a release stands (R133). -/
inductive RelStage where
  | waiting | sent | own
deriving DecidableEq, Repr, Inhabited

/-- A release (R133, R280, R281). -/
structure Release where
  core : Nat
  gid : Nat
  /-- Whether it publishes: a scope of core pair or wider (R133, R273). -/
  publishes : Bool
  /-- Guarded ranges; `none` publishes everything (R285). -/
  guards : Option (List (Nat × Nat))
  stage : RelStage
  /-- Publications it waits for, and dies whose fence marker is unanswered. -/
  pubs : List Nat
  markers : List Nat
  /-- The place of its fence markers in the order of sending. -/
  mark : Nat
  cont : RelCont
deriving DecidableEq, Repr, Inhabited

/-- Whether a page is resident: R67 check 5. A pinned page whose entry no longer serves is a lease break
(R66). -/
inductive Resident where
  | yes | no | lease | placement
deriving DecidableEq, Repr, Inhabited

/-- A residency probe of a store or update at `pc` (R68, R262). -/
structure Probe where
  core : Nat
  gid : Nat
  pc : Word
  lid : Nat
  page : Nat
  answered : Option Resident
deriving DecidableEq, Repr, Inhabited

/-! ## Slices, translation and memory -/

/-- CXL.cache states of a host half (R87). -/
inductive Mesi where
  | i | s | e | m
deriving DecidableEq, Repr, Inhabited

/-- A line of a slice (R76). -/
structure L2Line where
  asid : Nat
  line : Nat
  way : Nat
  lc : Nat
  wok : Bool
  expiry : Nat
  /-- EXP was restored from an entry of the eviction lease table at the fill (R80). -/
  noFloor : Bool
  valid : BitVec 4
  dirty : BitVec 4
  vers : List (BitVec 48)
  data : Line
  poison : BitVec 4
  place : Nat
  sa : Bool
  pa : Nat
  half0 : Mesi
  half1 : Mesi
  /-- A CXL read outstanding for each half: RdOwn when `some true`, RdShared when `some false` (R87). -/
  ask0 : Option Bool
  ask1 : Option Bool
  /-- Bytes written to a half in state S and kept for the merge (R92). -/
  merge : BitVec 128
  /-- The cycle until which the crucible holds the half against snoops (R93). -/
  hold : Nat
  /-- First in eviction order (R100, R118), and whose fill it was. -/
  first : Bool
  lid : Nat
deriving DecidableEq, Repr, Inhabited

/-- A line fill under way in a slice: its stage of translation and memory access. -/
structure Miss where
  asid : Nat
  line : Nat
  lid : Nat
  /-- Translated to this PA and entry, or not yet. -/
  pa : Option Nat
  lc : Nat
  wok : Bool
  place : Nat
  sa : Bool
  /-- Walk failed and was escalated: 0 no, else the cause's code (R458). -/
  failed : Nat
  write : Bool
  /-- Only the translation is needed: a write of whole sectors validates them without a fill (R76). -/
  nofill : Bool
  first : Bool
  /-- Only the walk is made, for PREF.RES (R149). -/
  walkOnly : Bool
deriving DecidableEq, Repr, Inhabited

/-- One L2 slice, numbered by its cluster (R75). -/
structure Slice where
  lines : List L2Line
  misses : List Miss
  /-- Read requests and operations that have arrived and wait, in order of arrival (R78, R458). -/
  waiting : List Nat
  /-- Eviction lease table (R80) and floors. -/
  leases : List (Nat × Nat × Nat)
  floor : Nat
  floor0 : Nat
  locks : List Lock
  /-- Cycle until which the crucible is occupied (R82). -/
  busy : Nat
  gated : Bool
deriving DecidableEq, Repr, Inhabited

/-- A TLB entry (R59). -/
structure TlbEntry where
  part : Nat
  asid : Nat
  page : Nat
  large : Bool
  entry : Word
  entryPa : Nat
deriving DecidableEq, Repr, Inhabited

/-- A walk-cache pointer (R59): the level read, its index prefix and the frame. -/
structure WalkPtr where
  part : Nat
  asid : Nat
  level : Nat
  index : Nat
  entry : Word
  entryPa : Nat
deriving DecidableEq, Repr, Inhabited

/-- An A/D update under way in a block (R62). -/
structure AdUpdate where
  part : Nat
  asid : Nat
  va : Nat
  entryPa : Nat
  old : Word
  new : Word
  tries : Nat
  large : Bool
  slice : Nat
deriving DecidableEq, Repr, Inhabited

/-- One TLB block (R59). -/
structure TlbBlock where
  entries : List TlbEntry
  walks : List WalkPtr
  updates : List AdUpdate
deriving DecidableEq, Repr, Inhabited

/-! ## Partitions, queues and rings -/

/-- A command queue (R406). -/
structure CmdQueue where
  qbase : Word
  logn : Nat
  maxprio : Nat
  en : Bool
  head : Nat
  tail : Nat
  /-- A LAUNCH entry read and waiting to be accepted: the order of its reading, and its address (R413). -/
  pending : Option (Nat × Nat)
deriving DecidableEq, Repr, Inhabited

/-- An event ring (R413). -/
structure Ring where
  rbase : Word
  logn : Nat
  cnt : Nat
  ticks : Nat
  vec : Nat
  rhead : Nat
  rtail : Nat
  pend : Nat
  first : Nat
  held : List (BitVec 256)
  /-- The launches whose records are held, in the same order; `none` for a malformed entry's. -/
  heldOf : List (Option Nat)
deriving DecidableEq, Repr, Inhabited

/-- One virtual function's queues and rings. -/
structure Func where
  queues : NMap CmdQueue
  rings : NMap Ring
deriving DecidableEq, Repr, Inhabited

/-- One partition. -/
structure Partition where
  first : Nat
  logn : Nat
  regbase : Word
  asidbase : Word
  /-- Host ranges: base and length in 64 KiB units (R405). -/
  hostRanges : NMap (Nat × Nat)
  /-- HDM ranges: partition PA, length in bytes and host physical address (R405). -/
  hdmRanges : NMap (Nat × Nat × Nat)
  ways : Nat
  /-- A carve change under way: the new w and who waits for it (R85). -/
  carveQueue : List (Nat × Option (Nat × Nat))
  carveBusy : Bool
  carved : NMap Byte
  carvedVer : NMap (BitVec 48)
  /-- Poisoned words of carved storage, by offset in 8 bytes; a poisoned sector is four of them (R390). -/
  carvedPoison : List Nat
  rate : Nat
  seed : BitVec 32
  alfsr : BitVec 32
  funcs : NMap Func
  rrq : Nat
  pool : List Nat
  pmeas : BitVec 512
  nonce : BitVec 256
  nextOrder : Nat
  irrevToken : Option (Nat × Nat)
  /-- Quiesced by SEAL: queues are not read (R425). -/
  quiesced : Bool
  /-- Pending launches withdrawn by a seal or restored from an ingot: descriptor, VF index, queue. -/
  pending : List (BitVec 2048 × Nat × Nat)
  /-- A teardown waits for the seal to end (R389). -/
  tearing : Bool
  /-- The dependence words of waiting launches are to be read again (R412). -/
  recheck : Bool
deriving DecidableEq, Repr, Inhabited

/-! ## The device -/

/-- The parts (R3). -/
inductive Variant where
  | xb4 | xb4s | xb2
deriving DecidableEq, Repr, Inhabited

/-- States of a lineage entry (R425, R433, R435). -/
inductive LinState where
  | pending | sealed | claimed
deriving DecidableEq, Repr, Inhabited

/-- A lineage entry (R433). -/
structure Lineage where
  l : BitVec 128
  r : Nat
  st : LinState
  digest : BitVec 512
  holder : BitVec 512
  prior : BitVec 512
  setHash : BitVec 512
deriving DecidableEq, Repr, Inhabited

/-- The configuration flash (R3 to R5, R401, R416 to R418, R433). -/
structure Flash where
  mappedOut : List Nat
  replace : Bool
  failedWarm : Nat
  failedCold : Nat
  temps : NMap Nat
  trained : NMap Nat
  allTorn : Bool
  lineage : List Lineage
  writeCount : Nat
  rolledBack : Bool
deriving DecidableEq, Repr, Inhabited

/-- Where start-up stands (R416 to R418). -/
inductive Power where
  | down | running | failed | recovery
deriving DecidableEq, Repr, Inhabited

/-- An ingot whose seal or claim is open: its partition, lineage, counter value, co-signature count, digest,
members, and the members' identity keys by DEVID. -/
structure Bond where
  part : Nat
  l : BitVec 128
  n : Nat
  k : Nat
  digest : BitVec 512
  members : List (BitVec 512)
  keys : List (BitVec 512 × BitVec 4096)
deriving DecidableEq, Repr, Inhabited

/-- The ingot engine (R423 to R440). -/
structure Ingot where
  op : Nat
  partid : Nat
  busy : Bool
  status : Nat
  stop : Bool
  endrun : Bool
  args : NMap Word
  ires : Word
  imext : BitVec 512
  /-- The operation that runs, its partition, and how far a SEAL has come: 0 its checks, 1 quiescing, 2
  flushing. -/
  runOp : Nat
  runPart : Nat
  stage : Nat
  /-- An open seal with its targets (DEVID and wrapping key), its destination and capacity, and the bytes
  written; an open claim. -/
  sealing : Option Bond
  targets : List (BitVec 512 × BitVec 4096)
  dest : Nat
  capacity : Nat
  pos : Nat
  claim : Option Bond
deriving DecidableEq, Repr, Inhabited

/-- What the device says to the outside. -/
inductive HostMsg where
  | snoop (hpa : Nat) (response : String) (data : Option (BitVec 512)) (poison : Bool)
  | readData (hpa : Nat) (bytes : List Byte) (poison : Bool)
  | written (hpa : Nat)
  | bisnp (pa : Nat) (inv : Bool)
  | cacheWrite (hpa : Nat) (data : Option (BitVec 512))
  | interrupt (vf : Nat) (vec : Nat)
  | event (core : Nat)
  | i3c (core : Nat)
  | registerRead (val : Word)
  /-- Bytes that a management core has loaded (R273). -/
  | loaded (pa : Nat) (bytes : List Byte)
  | cxlRead (hpa : Nat) (own : Bool)
deriving DecidableEq, Repr, Inhabited

/-- Accesses of the host that have arrived and wait (R78, R89, R91). -/
inductive HostOp where
  | snpInv (hpa : Nat)
  | snpData (hpa : Nat)
  | snpCur (hpa : Nat)
  | read (hpa n : Nat)
  | write (hpa : Nat) (bytes : List Byte)
  /-- A request for ownership of a half, without a write (R91). -/
  | own (hpa : Nat)
deriving DecidableEq, Repr, Inhabited

/-- An agent that reads and writes memory at the slices on its own (R60, R273, R287, R419). -/
inductive SysAgent where
  /-- The command processor and the team dispatcher of the partition. -/
  | command
  /-- The management core of a cluster. -/
  | manager (cluster : Nat)
  /-- Another device. -/
  | device
deriving DecidableEq, Repr, Inhabited

/-- What such an agent does. -/
inductive SysJob where
  /-- Bytes are stored; after a done word the dependences are read again (R412). -/
  | bytes (bs : List Byte) (recheck : Bool)
  /-- A bit of a byte is set (R396). -/
  | bit (k : Nat)
  /-- A record is written to a ring, for a launch or for none (R413). -/
  | record (vf ring : Nat) (rec : BitVec 256) (of : Option Nat)
  | load
deriving DecidableEq, Repr, Inhabited

/-- An access of such an agent: where it lies, once it has reached the slices, and the operations that it has found
there before it (R78). -/
structure SysOp where
  agent : SysAgent
  part : Nat
  pa : Nat
  n : Nat
  job : SysJob
  arrived : Bool
  before : List Nat
deriving DecidableEq, Repr, Inhabited

/-- A soft error that is found (R390): one that the check code corrects, or a place where it cannot. -/
inductive SoftError where
  | corrected
  /-- A register of a lane, a uniform register, an exact accumulator. -/
  | vector (gid lane n : Nat)
  | uniform (gid n : Nat)
  | accumulator (gid n : Nat)
  /-- The word of accumulator memory that holds a cell, a B-plane word, a signature of a round in the
  staging store. -/
  | cell (quarter k : Nat)
  | bplane (quarter k : Nat)
  | staging (quarter cv k : Nat)
  /-- The scratchpad word at an offset of a team. -/
  | scratch (team off : Nat)
  /-- A word of an L1 line, a line of the instruction cache, a write record in the log ways. -/
  | l1 (core asid line word : Nat)
  | instr (core asid line : Nat)
  | log (gid lane k : Nat)
  /-- The operand of an operation in a crucible's buffer, a sector of a slice, of carved storage, of HBM. -/
  | buffer (pub : Nat)
  | slice (slice asid line sector : Nat)
  | carved (part sector : Nat)
  | hbm (sector : Nat) (correctable : Bool)
deriving DecidableEq, Repr, Inhabited

/-- A register of a management core's or the host's register space, or one whose address the specification does not
give (R53, R55, R73, R84, R374, R397, R401, R405, R406, R413, R423). -/
inductive RegRef where
  /-- The register at an address of the space of a cluster's management core. -/
  | manager (cluster a : Nat)
  /-- The register at an offset in the BAR of a virtual function. -/
  | func (vf off : Nat)
  /-- The register at an offset in BAR 0 of the physical function, or HEALTH, which it reads too. -/
  | physical (off : Nat)
  | health
  /-- A partition configuration register. -/
  | config (part : Nat) (reg : RegName)
  | carvew (part : Nat)
  | assaycfg (part : Nat)
deriving DecidableEq, Repr, Inhabited

/-- A step that the schedule names. -/
inductive Action where
  /-- A core cycle passes; a quarter picks; an event comes about; a soft error is found. -/
  | tick
  | pick (core quarter : Nat)
  | event (i : Instr)
  | soft (e : SoftError)
  /-- A register is read or written: by a management core, by the host. -/
  | readReg (r : RegRef)
  | writeReg (r : RegRef) (val : Word)
  /-- A management core loads from or stores to memory of its partition (R60, R68, R273). -/
  | load (cluster pa n : Nat)
  | store (cluster pa : Nat) (bytes : List Byte)
  /-- The host asks for ownership of a half of an exposed frame (R91). -/
  | own (hpa : Nat)
  /-- The host runtime joins a launch's reduction object with other devices (R311). -/
  | join (lid obj : Nat)
  /-- An instruction line is evicted from a core; some of its parcels come anew; a group's instruction buffer takes a line
  of its core's, or gives it up (R289, R290). -/
  | evict (core asid line : Nat)
  | refill (core asid line : Nat) (parcels : BitVec 32)
  | keep (gid line : Nat)
  | forget (gid line : Nat)
deriving DecidableEq, Repr, Inhabited

/-- The item that is issuing: its group, address, length in bytes and active lanes (R160). -/
structure Issue where
  gid : Nat
  pc : Word
  len : Nat
  act : Mask
deriving DecidableEq, Repr, Inhabited

/-- The machine. -/
structure State where
  variant : Variant
  flash : Flash
  power : Power
  /-- Marked ready on CXL.io (R416). -/
  ready : Bool
  modules : Nat
  /-- The firmware image that was loaded in recovery mode and verified (R418). -/
  recoveryImage : Option (List Byte)
  /-- Core cycles since reset; GT is a quarter of it (R2). -/
  cycle : Nat
  /-- Draws made from the free values: the model's own field. -/
  free : Nat
  /-- Who moves next: the model's own field. -/
  agenda : List Action
  issuing : Option Issue
  nextId : Nat
  parts : NMap Partition
  launches : NMap Launch
  teams : NMap Team
  groups : NMap Group
  cores : NMap Core
  quarters : NMap Quarter
  slices : NMap Slice
  blocks : NMap TlbBlock
  requests : NMap Request
  pubs : NMap Pub
  releases : NMap Release
  probes : NMap Probe
  phasers : NMap Phaser
  objects : NMap RunObj
  /-- Fence counters of the die switches: publications of a group in a die (R281). -/
  fences : NMap Nat
  hbm : NMap Byte
  hbmPoison : List Nat
  hbmCorrectable : List Nat
  hostMem : NMap Byte
  /-- Accesses of the host that wait, in order of arrival; and for a write or an invalidation among them the
  operations that had arrived at the slices on its lines before it, and that it waits for (R78). -/
  hostOps : List HostOp
  hostBefore : List (HostOp × List Nat)
  /-- Accesses of the command processor, the management cores and other devices that are not made yet; of each agent the
  first has reached the slices (R78, R273, R287). -/
  sysOps : List SysOp
  /-- The back-invalidate directory, least recently used first (R91): the 64-byte half of HBM, its host
  half, owned or shared. -/
  biDir : List (Nat × Nat × Bool)
  /-- Back-invalidate requests unanswered: the host half, and whether it is to be invalidated. -/
  biWait : List (Nat × Bool)
  localReq : NMap Word
  remoteReq : NMap Word
  hostReq : NMap Word
  cecnt : Nat
  uecnt : Nat
  assaymis : Nat
  ingot : Ingot
  toHost : List HostMsg
deriving DecidableEq, Repr, Inhabited

/-- The machine right after reset (R90, R416): the power has come up and start-up has not run, so that
no partition, launch, team or group exists, every object holds its initial value, and no memory is
listed. The flash of a new part lists no mapped-out core, no counter and no lineage (R401, R433). -/
def State.reset : State :=
  { variant := .xb4, flash := default, power := .down, ready := false, modules := 0
    recoveryImage := none, cycle := 0, free := 0, agenda := [], issuing := none, nextId := 0
    parts := [], launches := [], teams := [], groups := [], cores := [], quarters := [], slices := []
    blocks := [], requests := [], pubs := [], releases := [], probes := [], phasers := []
    objects := [], fences := [], hbm := [], hbmPoison := [], hbmCorrectable := [], hostMem := []
    hostOps := [], hostBefore := [], sysOps := [], biDir := [], biWait := [], localReq := [], remoteReq := [], hostReq := []
    cecnt := 0, uecnt := 0, assaymis := 0, ingot := default, toHost := [] }

end Sys2Proof.Machine
end

