-- ==== Sys2Proof/Machine/Maps.lean ====
section
/-! DEFINITION. Maps.lean: sparse stores, masks, byte order and the bit-field helpers that every other
file of the machine uses. -/

namespace Sys2Proof.Machine

/-! ## Sparse stores -/

/-- The entry numbered `k`. -/
def mapFind {α : Type} : NMap α → Nat → Option α
  | [], _ => none
  | (j, x) :: m, k => if j = k then some x else mapFind m k

/-- The entry numbered `k`, or the default. -/
def mapGet {α : Type} (d : α) (m : NMap α) (k : Nat) : α := (mapFind m k).getD d

/-- Writes the entry numbered `k`, keeping the numbers rising. -/
def mapPut {α : Type} : NMap α → Nat → α → NMap α
  | [], k, x => [(k, x)]
  | (j, y) :: m, k, x =>
    if k < j then (k, x) :: (j, y) :: m
    else if k = j then (k, x) :: m
    else (j, y) :: mapPut m k x

/-- Removes the entry numbered `k`. -/
def mapErase {α : Type} : NMap α → Nat → NMap α
  | [], _ => []
  | (j, y) :: m, k => if j = k then m else (j, y) :: mapErase m k

/-- Writes `x` at `k` of a store whose unlisted entries read as `d`: writing `d` removes the entry, so
that equal stores are equal lists. -/
def mapSet {α : Type} [DecidableEq α] (d : α) (m : NMap α) (k : Nat) (x : α) : NMap α :=
  if x = d then mapErase m k else mapPut m k x

/-- Changes the entry numbered `k`, if it is listed. -/
def mapMod {α : Type} : NMap α → Nat → (α → α) → NMap α
  | [], _, _ => []
  | (j, y) :: m, k, f => if j = k then (j, f y) :: m else (j, y) :: mapMod m k f

/-- The numbers listed. -/
def mapKeys {α : Type} (m : NMap α) : List Nat := m.map (·.1)

/-- The canonical form of a store whose unlisted entries read as `d`: numbers strictly rising from
`lo`, and no entry equal to `d`. -/
def canonFrom {α : Type} [DecidableEq α] (d : α) : Nat → NMap α → Bool
  | _, [] => true
  | lo, (k, x) :: m => decide (lo ≤ k) && decide (x ≠ d) && canonFrom d (k + 1) m

/-! ## Byte memories -/

/-- A memory: bytes by address, in the host's form of a cell. -/
abbrev Memory := List Host.Cell

/-- The form every memory keeps: addresses strictly rising, no entry equal to what an unlisted address
reads as. -/
def Memory.wf (m : Memory) : Bool := canonFrom (0 : Byte) 0 m

/-- What an address that is not listed reads as: HBM is scrubbed to zero at start-up (R416 step 4) and
at teardown (R389 step 6); carved storage and scratchpad read zero when they are made (R84). -/
abbrev unlisted : Byte := 0

/-- One byte. -/
def memRead (m : Memory) (a : Nat) : Byte := mapGet unlisted m a

/-- Writes one byte, keeping the canonical form. -/
def memWrite (m : Memory) (a : Nat) (b : Byte) : Memory := mapSet unlisted m a b

/-- `n` bytes from `a`, little-endian (R9). -/
def memReadLE (m : Memory) (a : Nat) : Nat → Nat
  | 0 => 0
  | n + 1 => (memRead m a).toNat + 256 * memReadLE m (a + 1) n

/-- Writes the low `n` bytes of `x` from `a`, little-endian (R9). -/
def memWriteLE (m : Memory) (a : Nat) : Nat → Nat → Memory
  | 0, _ => m
  | n + 1, x => memWriteLE (memWrite m a (BitVec.ofNat 8 x)) (a + 1) n (x / 256)

/-- Writes a list of bytes. -/
def memWriteBytes (m : Memory) (a : Nat) : List Byte → Memory
  | [] => m
  | b :: bs => memWriteBytes (memWrite m a b) (a + 1) bs

/-- `n` bytes as a list. -/
def memReadBytes (m : Memory) (a : Nat) : Nat → List Byte
  | 0 => []
  | n + 1 => memRead m a :: memReadBytes m (a + 1) n

/-- Writes `n` zero bytes: removes every entry of `[a, a + n)`. -/
def memZero (m : Memory) (a n : Nat) : Memory := m.filter fun c => !(a ≤ c.1 && c.1 < a + n)

/-! ## Bit fields -/

/-- Bits `[lo + w - 1 : lo]` of a number. -/
def bits (x lo w : Nat) : Nat := (x >>> lo) % 2 ^ w

/-- Sign extension of the low `w` bits to 64 bits. -/
def sextW (w : Nat) (x : Word) : Word := BitVec.signExtend 64 (BitVec.setWidth w x)

/-- Zero extension of the low `w` bits. -/
def zextW (w : Nat) (x : Word) : Word := BitVec.setWidth 64 (BitVec.setWidth w x)

/-- `x` with bits `[lo + w - 1 : lo]` replaced by the low `w` bits of `y`. -/
def insertBits {n : Nat} (x : BitVec n) (lo w : Nat) (y : Nat) : BitVec n :=
  let m : BitVec n := BitVec.ofNat n ((2 ^ w - 1) <<< lo)
  (x &&& ~~~m) ||| BitVec.ofNat n ((y % 2 ^ w) <<< lo)

/-- Bit `i` of a mask. -/
def hasBit {n : Nat} (m : BitVec n) (i : Nat) : Bool := m.getLsbD i

/-- A mask with bit `i` alone. -/
def bitMask (n i : Nat) : BitVec n := BitVec.ofNat n (1 <<< i)

/-- The mask with bit `i` for each listed `i`. -/
def maskOf (n : Nat) : List Nat → BitVec n
  | [] => 0
  | i :: is => bitMask n i ||| maskOf n is

/-- The lanes of a mask below `w`, ascending. -/
def lanesOf (w : Nat) (m : Mask) : List Nat := (List.range w).filter fun i => hasBit m i

/-- The number of lanes of a mask. -/
def popMask (m : Mask) : Nat := (lanesOf 64 m).length

/-- The mask of lanes below `w` for which `f` holds. -/
def maskWhere (w : Nat) (f : Nat → Bool) : Mask := maskOf 64 ((List.range w).filter f)

/-- The bytes of a number, little-endian. -/
def natBytes : Nat → Nat → List Byte
  | 0, _ => []
  | n + 1, x => BitVec.ofNat 8 x :: natBytes n (x / 256)

/-- The number of a list of bytes, little-endian. -/
def bytesNat : List Byte → Nat
  | [] => 0
  | b :: bs => b.toNat + 256 * bytesNat bs

/-- Byte `i` of a line. -/
def lineByte (d : Line) (i : Nat) : Byte := d.extractLsb' (8 * i) 8

/-- `n` bytes of a line from byte `i`. -/
def lineRead (d : Line) (i n : Nat) : Nat := bits d.toNat (8 * i) (8 * n)

/-- A line mask (one bit a byte) spread to the line's bits. -/
def spread (m : BitVec 128) : Line :=
  (List.range 128).foldl (fun acc i =>
    if hasBit m i then acc ||| BitVec.ofNat 1024 (0xFF <<< (8 * i)) else acc) 0

/-- `d` with the bytes of `x` under the mask. -/
def mergeLine (d x : Line) (m : BitVec 128) : Line :=
  let k := spread m
  (d &&& ~~~k) ||| (x &&& k)

/-- The sector mask of a byte mask: bit `i` when a byte of sector `i` is named. -/
def sectorsOf (m : BitVec 128) : BitVec 4 :=
  maskOf 4 ((List.range 4).filter fun i => bits m.toNat (32 * i) 32 ≠ 0)

/-- The byte mask of whole sectors. -/
def bytesOfSectors (m : BitVec 4) : BitVec 128 :=
  (List.range 4).foldl (fun acc i =>
    if hasBit m i then acc ||| BitVec.ofNat 128 (0xFFFFFFFF <<< (32 * i)) else acc) 0

/-- The byte mask of `n` bytes from byte `i`. -/
def byteRange (i n : Nat) : BitVec 128 := BitVec.ofNat 128 ((2 ^ n - 1) <<< i)

/-! ## Lists -/

/-- Replaces element `i`. -/
def listSet {α : Type} : List α → Nat → α → List α
  | [], _, _ => []
  | _ :: xs, 0, y => y :: xs
  | x :: xs, i + 1, y => x :: listSet xs i y

/-- Changes element `i`. -/
def listMod {α : Type} : List α → Nat → (α → α) → List α
  | [], _, _ => []
  | x :: xs, 0, f => f x :: xs
  | x :: xs, i + 1, f => x :: listMod xs i f

/-- Removes repeats, keeping the first of each. -/
def dedup {α : Type} [BEq α] : List α → List α
  | [] => []
  | x :: xs => x :: (dedup xs).filter fun y => !(y == x)

/-- The least element by a key. -/
def minBy {α : Type} (key : α → Nat) : List α → Option α
  | [] => none
  | x :: xs =>
    match minBy key xs with
    | none => some x
    | some y => if key x ≤ key y then some x else some y

/-- The base-2 logarithm, rounded down, of a positive number. -/
def log2 (x : Nat) : Nat := Nat.log2 x

/-- Rounds up to a multiple. -/
def roundUp (x m : Nat) : Nat := (x + m - 1) / m * m

/-! ## The mixing function of R184 and R327 -/

/-- mix(z) of R327, which RAND's last three lines also compute (R184). -/
def mix (z : Word) : Word :=
  let z := (z ^^^ (z >>> 30)) * 0xBF58476D1CE4E5B9#64
  let z := (z ^^^ (z >>> 27)) * 0x94D049BB133111EB#64
  z ^^^ (z >>> 31)

/-- The sector hash of 32 bytes (R327). -/
def sectorHash (d : BitVec 256) : Word :=
  [0, 1, 2, 3].foldl (fun h i => mix (h ^^^ d.extractLsb' (64 * i) 64)) 0x243F6A8885A308D3#64

/-- One step of the LFSR of R158. -/
def lfsrStep (x : BitVec 32) : BitVec 32 :=
  let y := x >>> 1
  if x.getLsbD 0 then y ^^^ 0x80200003#32 else y

/-- The LFSR after `n` steps. -/
def lfsrSteps : Nat → BitVec 32 → BitVec 32
  | 0, x => x
  | n + 1, x => lfsrSteps n (lfsrStep x)

end Sys2Proof.Machine
end

