-- ==== Sys2Proof/Machine/Crypto.lean ====
section
/-! DEFINITION. Crypto.lean: the primitives that the specification names by their standards, for start-up and sealed
checkpoints (R416, R421, R427, R429, R433, R437, R438).

PRESUMED: the specification names SHA-512, HMAC, HKDF, AES-256-GCM, RSASSA-PSS, RSAES-OAEP and MGF1 and does not
describe them; they are written here from their published standards. -/

namespace Sys2Proof.Machine

/-- The bytes of a number, the most significant first. -/
def beBytes (n x : Nat) : List Byte := (natBytes n x).reverse
/-- The number of some bytes, the most significant first. -/
def beNat (b : List Byte) : Nat := bytesNat b.reverse

/-- Pieces of `n` elements, at most `fuel` of them. -/
def pieces {α : Type} (n : Nat) : Nat → List α → List (List α)
  | 0, _ => []
  | fuel + 1, xs => if xs.isEmpty then [] else xs.take n :: pieces n fuel (xs.drop n)

/-- Byte by byte exclusive or, as far as the shorter goes. -/
def xorBytes (a b : List Byte) : List Byte := a.zipWith (· ^^^ ·) b

/-! ## SHA-512 and what is built on it -/

/-- The round constants of SHA-512. -/
def shaK : List Word :=
  [0x428A2F98D728AE22#64, 0x7137449123EF65CD#64, 0xB5C0FBCFEC4D3B2F#64, 0xE9B5DBA58189DBBC#64,
      0x3956C25BF348B538#64, 0x59F111F1B605D019#64, 0x923F82A4AF194F9B#64, 0xAB1C5ED5DA6D8118#64]
  ++ [0xD807AA98A3030242#64, 0x12835B0145706FBE#64, 0x243185BE4EE4B28C#64, 0x550C7DC3D5FFB4E2#64,
      0x72BE5D74F27B896F#64, 0x80DEB1FE3B1696B1#64, 0x9BDC06A725C71235#64, 0xC19BF174CF692694#64]
  ++ [0xE49B69C19EF14AD2#64, 0xEFBE4786384F25E3#64, 0x0FC19DC68B8CD5B5#64, 0x240CA1CC77AC9C65#64,
      0x2DE92C6F592B0275#64, 0x4A7484AA6EA6E483#64, 0x5CB0A9DCBD41FBD4#64, 0x76F988DA831153B5#64]
  ++ [0x983E5152EE66DFAB#64, 0xA831C66D2DB43210#64, 0xB00327C898FB213F#64, 0xBF597FC7BEEF0EE4#64,
      0xC6E00BF33DA88FC2#64, 0xD5A79147930AA725#64, 0x06CA6351E003826F#64, 0x142929670A0E6E70#64]
  ++ [0x27B70A8546D22FFC#64, 0x2E1B21385C26C926#64, 0x4D2C6DFC5AC42AED#64, 0x53380D139D95B3DF#64,
      0x650A73548BAF63DE#64, 0x766A0ABB3C77B2A8#64, 0x81C2C92E47EDAEE6#64, 0x92722C851482353B#64]
  ++ [0xA2BFE8A14CF10364#64, 0xA81A664BBC423001#64, 0xC24B8B70D0F89791#64, 0xC76C51A30654BE30#64,
      0xD192E819D6EF5218#64, 0xD69906245565A910#64, 0xF40E35855771202A#64, 0x106AA07032BBD1B8#64]
  ++ [0x19A4C116B8D2D0C8#64, 0x1E376C085141AB53#64, 0x2748774CDF8EEB99#64, 0x34B0BCB5E19B48A8#64,
      0x391C0CB3C5C95A63#64, 0x4ED8AA4AE3418ACB#64, 0x5B9CCA4F7763E373#64, 0x682E6FF3D6B2B8A3#64]
  ++ [0x748F82EE5DEFB2FC#64, 0x78A5636F43172F60#64, 0x84C87814A1F0AB72#64, 0x8CC702081A6439EC#64,
      0x90BEFFFA23631E28#64, 0xA4506CEBDE82BDE9#64, 0xBEF9A3F7B2C67915#64, 0xC67178F2E372532B#64]
  ++ [0xCA273ECEEA26619C#64, 0xD186B8C721C0C207#64, 0xEADA7DD6CDE0EB1E#64, 0xF57D4F7FEE6ED178#64,
      0x06F067AA72176FBA#64, 0x0A637DC5A2C898A6#64, 0x113F9804BEF90DAE#64, 0x1B710B35131C471B#64]
  ++ [0x28DB77F523047D84#64, 0x32CAAB7B40C72493#64, 0x3C9EBE0A15C9BEBC#64, 0x431D67C49C100D4C#64,
      0x4CC5D4BECB3E42B6#64, 0x597F299CFC657E2A#64, 0x5FCB6FAB3AD6FAEC#64, 0x6C44198C4A475817#64]

/-- The initial value of SHA-512. -/
def shaInit : List Word :=
  [0x6A09E667F3BCC908#64, 0xBB67AE8584CAA73B#64, 0x3C6EF372FE94F82B#64, 0xA54FF53A5F1D36F1#64,
   0x510E527FADE682D1#64, 0x9B05688C2B3E6C1F#64, 0x1F83D9ABFB41BD6B#64, 0x5BE0CD19137E2179#64]

/-- A message with its padding. -/
def shaPad (m : List Byte) : List Byte :=
  m ++ (0x80 : Byte) :: List.replicate ((239 - m.length % 128) % 128) 0 ++ beBytes 16 (8 * m.length)

/-- The message schedule from its last 16 words. -/
def shaSchedule : Nat → List Word → List Word
  | 0, _ => []
  | n + 1, w =>
    let a := w.getD 1 0
    let b := w.getD 14 0
    let s0 := a.rotateRight 1 ^^^ a.rotateRight 8 ^^^ a >>> 7
    let s1 := b.rotateRight 19 ^^^ b.rotateRight 61 ^^^ b >>> 6
    w.getD 0 0 :: shaSchedule n (w.drop 1 ++ [w.getD 0 0 + s0 + w.getD 9 0 + s1])

/-- One round, with the sum of its constant and its schedule word. -/
def shaRound (v : List Word) (kw : Word) : List Word :=
  let a := v.getD 0 0
  let b := v.getD 1 0
  let c := v.getD 2 0
  let e := v.getD 4 0
  let f := v.getD 5 0
  let g := v.getD 6 0
  let t1 := v.getD 7 0 + (e.rotateRight 14 ^^^ e.rotateRight 18 ^^^ e.rotateRight 41) + (e &&& f ^^^ ~~~e &&& g) + kw
  let t2 := (a.rotateRight 28 ^^^ a.rotateRight 34 ^^^ a.rotateRight 39) + (a &&& b ^^^ a &&& c ^^^ b &&& c)
  [t1 + t2, a, b, c, v.getD 3 0 + t1, e, f, g]

/-- The compression of one block of 128 bytes. -/
def shaBlock (h : List Word) (block : List Byte) : List Word :=
  let w := (pieces 8 16 block).map fun b => BitVec.ofNat 64 (beNat b)
  h.zipWith (· + ·) ((shaK.zipWith (· + ·) (shaSchedule 80 w)).foldl shaRound h)

/-- The 64 bytes of a SHA-512 digest. -/
def sha512Bytes (m : List Byte) : List Byte :=
  let p := shaPad m
  ((pieces 128 (p.length / 128) p).foldl shaBlock shaInit).flatMap fun x => beBytes 8 x.toNat

/-- SHA-512, its digest as the number of its byte sequence (R421). -/
def sha512 (m : List Byte) : BitVec 512 := BitVec.ofNat 512 (bytesNat (sha512Bytes m))

/-- HMAC-SHA-512. -/
def hmacSha512 (key m : List Byte) : List Byte :=
  let k := if key.length > 128 then sha512Bytes key else key
  let k := k ++ List.replicate (128 - k.length) 0
  sha512Bytes (k.map (· ^^^ 0x5C) ++ sha512Bytes (k.map (· ^^^ 0x36) ++ m))

/-- HKDF-SHA-512 with salt, input keying material and info, 32 bytes out (R427). -/
def hkdf (salt ikm : BitVec 512) (info : List Byte) : BitVec 256 :=
  let prk := hmacSha512 (natBytes 64 salt.toNat) (natBytes 64 ikm.toNat)
  BitVec.ofNat 256 (bytesNat ((hmacSha512 prk (info ++ [1])).take 32))

/-- MGF1-SHA-512: `n` bytes of mask. -/
def mgf1 (seed : List Byte) (n : Nat) : List Byte :=
  ((List.range ((n + 63) / 64)).flatMap fun i => sha512Bytes (seed ++ beBytes 4 i)).take n

/-! ## AES-256-GCM (R427) -/

/-- Twice a byte in the field of AES. -/
def aesDouble (a : Byte) : Byte := if hasBit a 7 then a <<< 1 ^^^ 0x1B else a <<< 1

/-- The product of two bytes in the field of AES. -/
def aesMul (a b : Byte) : Byte :=
  ((List.range 8).foldl (fun (r, x) i => (if hasBit b i then r ^^^ x else r, aesDouble x)) ((0 : Byte), a)).1

/-- The S-box: the inverse, then the affine map. -/
def aesSbox (a : Byte) : Byte :=
  let sq := fun x => aesMul x x
  let inv := (List.range 6).foldl (fun r _ => aesMul (sq r) a) a
  let x := sq inv
  x ^^^ x.rotateLeft 1 ^^^ x.rotateLeft 2 ^^^ x.rotateLeft 3 ^^^ x.rotateLeft 4 ^^^ 0x63

/-- The round keys' words that follow, from the last eight words: `i` counts the words made. -/
def aesExpand : Nat → Nat → Byte → List (List Byte) → List (List Byte)
  | 0, _, _, _ => []
  | n + 1, i, rc, w =>
    let last := w.getD 7 []
    let t :=
      if i % 8 = 0 then xorBytes ((last.drop 1 ++ last.take 1).map aesSbox) [rc, 0, 0, 0]
      else if i % 8 = 4 then last.map aesSbox
      else last
    let x := xorBytes (w.getD 0 []) t
    x :: aesExpand n (i + 1) (if i % 8 = 0 then aesDouble rc else rc) (w.drop 1 ++ [x])

/-- The fifteen round keys of 16 bytes. -/
def aesKeys (key : List Byte) : List (List Byte) :=
  let w := pieces 4 8 key
  pieces 16 15 (w ++ aesExpand 52 8 1 w).flatten

/-- SubBytes and ShiftRows of a state of 16 bytes, column by column. -/
def aesShift (st : List Byte) : List Byte :=
  let b := st.map aesSbox
  (List.range 16).map fun i => b.getD ((i + 4 * (i % 4)) % 16) 0

/-- MixColumns. -/
def aesMix (st : List Byte) : List Byte :=
  (pieces 4 4 st).flatMap fun c =>
    (List.range 4).map fun i =>
      let g := fun j => c.getD ((i + j) % 4) 0
      aesMul (g 0) 2 ^^^ aesMul (g 1) 3 ^^^ g 2 ^^^ g 3

/-- The rounds after the first key has been added. -/
def aesRounds : List (List Byte) → List Byte → List Byte
  | [], st => st
  | [k], st => xorBytes (aesShift st) k
  | k :: ks, st => aesRounds ks (xorBytes (aesMix (aesShift st)) k)

/-- AES-256 of one block under expanded keys. -/
def aesBlock (keys : List (List Byte)) (b : List Byte) : List Byte :=
  aesRounds (keys.drop 1) (xorBytes b (keys.headD []))

/-- The product of two blocks in the field of GCM. -/
def ghashMul (x y : BitVec 128) : BitVec 128 :=
  ((List.range 128).foldl (fun (z, v) i =>
    (if hasBit x (127 - i) then z ^^^ v else z,
      if hasBit v 0 then v >>> 1 ^^^ (0xE1#128 <<< 120) else v >>> 1)) (0#128, y)).1

/-- Bytes filled up with zeros to whole blocks. -/
def gcmPad (b : List Byte) : List Byte := b ++ List.replicate ((16 - b.length % 16) % 16) 0

/-- GHASH of additional data and ciphertext. -/
def ghash (h : BitVec 128) (aad text : List Byte) : BitVec 128 :=
  let all := gcmPad aad ++ gcmPad text ++ beBytes 8 (8 * aad.length) ++ beBytes 8 (8 * text.length)
  (pieces 16 (all.length / 16) all).foldl (fun y b => ghashMul (y ^^^ BitVec.ofNat 128 (beNat b)) h) 0

/-- The key stream's block `i` for an IV of 12 bytes. -/
def gcmStream (keys : List (List Byte)) (iv : List Byte) (i : Nat) : List Byte := aesBlock keys (iv ++ beBytes 4 i)

/-- Encryption and decryption in counter mode. -/
def gcmCrypt (keys : List (List Byte)) (iv text : List Byte) : List Byte :=
  ((pieces 16 ((text.length + 15) / 16) text).zipIdx.map fun e => xorBytes e.1 (gcmStream keys iv (e.2 + 2))).flatten

/-- The tag of a ciphertext. -/
def gcmTag (keys : List (List Byte)) (iv aad text : List Byte) : BitVec 128 :=
  let h := BitVec.ofNat 128 (beNat (aesBlock keys (List.replicate 16 0)))
  BitVec.ofNat 128 (bytesNat (xorBytes (beBytes 16 (ghash h aad text).toNat) (gcmStream keys iv 1)))

/-- AES-256-GCM encryption: key, IV, AAD, plaintext; ciphertext and tag, the tag as the number of its bytes. -/
def gcmSeal (key : BitVec 256) (iv : BitVec 96) (aad text : List Byte) : List Byte × BitVec 128 :=
  let keys := aesKeys (natBytes 32 key.toNat)
  let i := natBytes 12 iv.toNat
  let c := gcmCrypt keys i text
  (c, gcmTag keys i aad c)

/-- AES-256-GCM decryption: the plaintext if the tag verifies. -/
def gcmOpen (key : BitVec 256) (iv : BitVec 96) (aad text : List Byte) (tag : BitVec 128) : Option (List Byte) :=
  let keys := aesKeys (natBytes 32 key.toNat)
  let i := natBytes 12 iv.toNat
  if gcmTag keys i aad text = tag then some (gcmCrypt keys i text) else none

/-! ## RSA (R421, R429) -/

/-- `b` to the power `e` modulo `n`, for an exponent of at most the given number of bits. -/
def powMod (n : Nat) : Nat → Nat → Nat → Nat
  | 0, _, _ => 1 % n
  | k + 1, b, e =>
    let r := powMod n k (b * b % n) (e / 2)
    if e % 2 = 1 then b * r % n else r

/-- Both public exponents (R421). -/
abbrev rsaPublic : Nat := 65537

/-- The hash that a PSS signature carries: of eight zero bytes, the message's digest and the salt. -/
def pssHash (m salt : List Byte) : List Byte := sha512Bytes (List.replicate 8 0 ++ sha512Bytes m ++ salt)

/-- A message encoded for PSS with a salt of 64 bytes, for a modulus of 4,096 bits. -/
def pssEncode (m salt : List Byte) : List Byte :=
  let h := pssHash m salt
  let db := xorBytes (List.replicate 382 0 ++ (1 : Byte) :: salt) (mgf1 h 447)
  (db.headD 0 &&& 0x7F) :: db.drop 1 ++ h ++ [0xBC]

/-- Whether an encoded message is one of `m`. -/
def pssMatches (m em : List Byte) : Bool :=
  let h := (em.drop 447).take 64
  let db := xorBytes (em.take 447) (mgf1 h 447)
  let db := (db.headD 0 &&& 0x7F) :: db.drop 1
  em.drop 511 == [0xBC] && !hasBit (em.headD 0) 7 && (db.take 382).all (· = 0) && db.getD 382 0 == 1
    && h == pssHash m (db.drop 383)

/-- RSASSA-PSS under a modulus and a private exponent, with a salt (R421). -/
def pssSign (n d : BitVec 4096) (m : List Byte) (salt : BitVec 512) : BitVec 4096 :=
  BitVec.ofNat 4096 (powMod n.toNat 4096 (beNat (pssEncode m (natBytes 64 salt.toNat))) d.toNat)

/-- Whether a PSS signature verifies under a modulus (R421, R438). -/
def pssVerify (n : BitVec 4096) (m : List Byte) (sig : BitVec 4096) : Bool :=
  sig.toNat < n.toNat && pssMatches m (beBytes 512 (powMod n.toNat 17 sig.toNat rsaPublic))

/-- A key of 32 bytes encoded for OAEP with a label and a seed of 64 bytes. -/
def oaepEncode (label key seed : List Byte) : List Byte :=
  let db := xorBytes (sha512Bytes label ++ List.replicate 350 0 ++ (1 : Byte) :: key) (mgf1 seed 447)
  (0 : Byte) :: xorBytes seed (mgf1 db 64) ++ db

/-- The key of 32 bytes in an OAEP encoding with a label. -/
def oaepDecode (label em : List Byte) : Option (List Byte) :=
  let db := em.drop 65
  let seed := xorBytes ((em.drop 1).take 64) (mgf1 db 64)
  let db := xorBytes db (mgf1 seed 447)
  if em.headD 1 == 0 && db.take 64 == sha512Bytes label && (db.drop 64).take 350 == List.replicate 350 0
      && db.getD 414 0 == 1 then some (db.drop 415)
  else none

/-- RSAES-OAEP of an image key under a public modulus, with a label and a seed (R429). -/
def oaepWrap (n : BitVec 4096) (label : List Byte) (key : BitVec 256) (seed : BitVec 512) : BitVec 4096 :=
  BitVec.ofNat 4096
    (powMod n.toNat 17 (beNat (oaepEncode label (natBytes 32 key.toNat) (natBytes 64 seed.toNat))) rsaPublic)

/-- RSAES-OAEP opened with a private exponent: the image key, if the wrapped one is well formed. -/
def oaepUnwrap (n d : BitVec 4096) (label : List Byte) (c : BitVec 4096) : Option (BitVec 256) :=
  if n.toNat ≤ c.toNat then none
  else (oaepDecode label (beBytes 512 (powMod n.toNat 4096 c.toNat d.toNat))).map fun k => BitVec.ofNat 256 (bytesNat k)

end Sys2Proof.Machine
end

