-- ==== Sys2Proof/WellFormed.lean ====
section
/-! DEFINITION. WellFormed.lean: which items of code have an encoding.

`Instr.wf` gathers every condition that R40 makes ILLEGAL_OPC and that depends on the encoding
alone: the types, rounding suffixes and field values each instruction accepts, unused fields being
zero (R21), and RET naming a used source in v0 to v767 (R31). An operand field that the form does
not use is written as `Opnd.v 0`, whose index is 0. Events have no encoding and no condition. -/

namespace Sys2Proof

/-! ## Types (R25) -/

/-- Element width in bits and element count. `Ty.none` has none; it is given as 64 × 1 because the
instructions that accept it act on whole registers. -/
def Ty.elem : Ty → Nat × Nat
  | .none => (64, 1) | .f64 => (64, 1) | .f32 => (32, 1) | .bf16 => (16, 1) | .f16 => (16, 1)
  | .e4m3 => (8, 1) | .e5m2 => (8, 1) | .e2m1 => (4, 1)
  | .i8 => (8, 1) | .i16 => (16, 1) | .i32 => (32, 1) | .i64 => (64, 1)
  | .n8 => (8, 1) | .n16 => (16, 1) | .n32 => (32, 1) | .n64 => (64, 1)
  | .f32x2 => (32, 2) | .bf16x4 => (16, 4) | .f16x4 => (16, 4) | .e4m3x8 => (8, 8)
  | .e5m2x8 => (8, 8) | .e2m1x16 => (4, 16) | .i8x8 => (8, 8) | .i16x4 => (16, 4)
  | .i32x2 => (32, 2) | .n8x8 => (8, 8) | .n16x4 => (16, 4) | .n32x2 => (32, 2)

/-- Element width in bits. -/
def Ty.w (t : Ty) : Nat := t.elem.1
/-- Elements in a register. -/
def Ty.k (t : Ty) : Nat := t.elem.2

/-- Signed integer types (R192). -/
def Ty.signed : Ty → Bool
  | .i8 | .i16 | .i32 | .i64 | .i8x8 | .i16x4 | .i32x2 => true
  | _ => false

/-- Scalar integer types, codes 0x08 to 0x0F (R207). -/
def Ty.isInt : Ty → Bool
  | .i8 | .i16 | .i32 | .i64 | .n8 | .n16 | .n32 | .n64 => true
  | _ => false

/-- Packed integer types of R214. -/
def Ty.isPInt : Ty → Bool
  | .i8x8 | .i16x4 | .i32x2 | .n8x8 | .n16x4 | .n32x2 => true
  | _ => false

/-- The float types of R221. -/
def Ty.isFloat : Ty → Bool
  | .f64 | .f32 | .bf16 | .f16 | .f32x2 | .bf16x4 | .f16x4 => true
  | _ => false

/-- The scalar float types of R221. -/
def Ty.isSFloat : Ty → Bool
  | .f64 | .f32 | .bf16 | .f16 => true
  | _ => false

/-- Formats that FCVT converts (R229). -/
def Ty.isCvt : Ty → Bool
  | .f64 | .f32 | .bf16 | .f16 | .e5m2 | .e4m3 | .e2m1 => true
  | _ => false

/-- Block-scaled packed formats of FPACK and FUNPK (R229). -/
def Ty.isBlk : Ty → Bool
  | .e4m3x8 | .e5m2x8 | .e2m1x16 => true
  | _ => false

/-- Wide formats of FPACK and FUNPK (R229). -/
def Ty.isWide : Ty → Bool
  | .f32 | .f32x2 | .bf16x4 | .f16x4 => true
  | _ => false

/-- Types of loads and stores: element bits times count is 8, 16, 32 or 64 (R142). -/
def Ty.isMem : Ty → Bool
  | .none | .e2m1 => false
  | t => t.w * t.k == 8 || t.w * t.k == 16 || t.w * t.k == 32 || t.w * t.k == 64

/-- No suffix or .N64 (R207, R214). -/
def Ty.isN64 : Ty → Bool
  | .none | .n64 => true
  | _ => false

/-- Types of SCAN and SRED (R173). -/
def Ty.isScan (t : Ty) : Bool := t.isInt || t.isPInt || t.isFloat

/-- Types of XADD (R236). -/
def Ty.isXadd : Ty → Bool
  | .f64 | .f32 | .f32x2 | .bf16 | .bf16x4 | .f16 | .f16x4 => true
  | _ => false

/-- Types of CAS and RED (R154, R155). -/
def Ty.isUpd : Ty → Bool
  | .i32 | .i64 | .n32 | .n64 => true
  | _ => false

/-- Types of MMA, with whether BS may be 0 and may be 1 (R251). -/
def Ty.mmaBs : Ty → Option (Bool × Bool)
  | .e2m1x16 => some (false, true)
  | .e4m3x8 | .e5m2x8 => some (true, true)
  | .i8x8 | .n8x8 | .bf16x4 | .f16x4 | .f32x2 | .f64 => some (true, false)
  | _ => .none

/-! ## Operands -/

/-- Index of an operand in the 10-bit space of R27. -/
def Opnd.idx : Opnd → BitVec 10
  | .v n => BitVec.ofNat 10 n
  | .sq n => BitVec.ofNat 10 (768 + n)
  | .dp n => BitVec.ofNat 10 (784 + n)
  | .s n => BitVec.ofNat 10 (832 + n)
  | .laneid => 1016#10
  | .ones => 1017#10
  | .zero => 1023#10
  | .reserved i => i

/-- The operand that an index names (R27). -/
def Opnd.ofIdx (i : BitVec 10) : Opnd :=
  let n := i.toNat
  if h : n < 768 then .v ⟨n, h⟩
  else if h : n - 768 < 16 then .sq ⟨n - 768, h⟩
  else if h : n - 784 < 4 then .dp ⟨n - 784, h⟩
  else if n < 832 then .reserved i
  else if h : n - 832 < 64 then .s ⟨n - 832, h⟩
  else if n = 1016 then .laneid
  else if n = 1017 then .ones
  else if n = 1023 then .zero
  else .reserved i

/-- The index is one that names this operand; it fails only for a `reserved` index that in truth
names something. -/
def Opnd.ok (o : Opnd) : Bool := Opnd.ofIdx o.idx == o

/-- A vector register. -/
def Opnd.isV : Opnd → Bool
  | .v _ => true
  | _ => false

/-- The zero index, which an unused operand field holds (R21). -/
def Opnd.unused (o : Opnd) : Bool := o == .v 0

/-- A predicate operand that is not used: PS and NEG zero (R170). -/
def PSrc.unused (p : PSrc) : Bool := p.p == 0 && !p.neg

/-- RET for an item whose A, B and C fields hold the given sources; `none` is a field that holds
no source (R31). -/
def retOk (r : Retain) (a b c : Option Opnd) : Bool :=
  match r with
  | .none => true
  | .a => a.any Opnd.isV
  | .b => b.any Opnd.isV
  | .c => c.any Opnd.isV

/-- CSR numbers that R377 assigns. -/
def csrAssigned (n : BitVec 8) : Bool :=
  [0x00, 0x01, 0x02, 0x10, 0x11, 0x12, 0x13, 0x14, 0x15, 0x16, 0x18, 0x20, 0x21, 0x30, 0x40, 0x41,
    0x50, 0x51].contains n.toNat

/-- POS limit of FPACK and FUNPK: `(pos + 1) × part ≤ whole` (R234, R235). -/
def posOk (pos : BitVec 10) (part whole : Nat) : Bool := (pos.toNat + 1) * part ≤ whole

/-- No RET: C and L words, and the S words whose description makes RET zero. -/
def noRet (h : Hdr) : Bool := h.ret == .none

/-! ## Shapes of operand fields -/

/-- An S word with sources A and B. -/
def wfAB (h : Hdr) (d a b : Opnd) : Bool :=
  d.ok && a.ok && b.ok && retOk h.ret (some a) (some b) none
/-- An S word with source A. -/
def wfA (h : Hdr) (d a : Opnd) : Bool := d.ok && a.ok && retOk h.ret (some a) none none
/-- An S word with sources A, B and C. -/
def wfABC (h : Hdr) (d a b c : Opnd) : Bool :=
  d.ok && a.ok && b.ok && c.ok && retOk h.ret (some a) (some b) (some c)
/-- An L word with source A. -/
def wfL (h : Hdr) (d a : Opnd) : Bool := d.ok && a.ok && noRet h
/-- An item with only a destination or a single field D. -/
def wfD (h : Hdr) (d : Opnd) : Bool := d.ok && noRet h

/-- Scope is .THR, code 0, when no ordering bit is set (R153). -/
def casOk (o : CasOrd) (s : Scope) : Bool := o != .none || s == .thr

/-- Rounding is accepted on the types that MSTA converts, and must be absent elsewhere (R261). -/
def mstaOk (ty : Ty) (rnd : Rnd) (mode : StaMode) : Bool :=
  match mode with
  | .overwrite =>
    match ty with
    | .bf16 | .f16 => true
    | .f32 | .i32 | .f64 => rnd == .rne
    | _ => false
  | _ => ty == .f32 && rnd == .rne

/-- Combinations of TYPE and P64 that R265 gives a meaning. -/
def mdrnOk (ty : Ty) (p64 : Bool) : Bool :=
  match ty with
  | .f64 | .f32x2 | .bf16x4 | .f16x4 => true
  | .i64 | .i32x2 => !p64
  | _ => false

/-- The items of code that have an encoding; true of every event. -/
def Instr.wf : Instr → Bool
  | .nopC h | .exit h | .yield h | .tfence h | .eret h => noRet h
  | .nopS h => noRet h
  | .bra h _ | .trap h _ | .brk h _ | .sleep h _ => noRet h
  | .brx h a => a.ok && noRet h
  | .call h d _ | .ret h d => wfD h d
  | .callx h d a => d.ok && a.ok && noRet h
  | .iaddS h ty _ d a b | .isubS h ty _ d a b | .imulS h ty _ d a b => ty.isInt && wfAB h d a b
  | .iaddL h ty _ d a _ | .isubL h ty _ d a _ | .imulL h ty _ d a _ => ty.isInt && wfL h d a
  | .imulh h ty d a b => ty.isUpd && wfAB h d a b
  | .imad h ty d a b c => ty.isInt && wfABC h d a b c
  | .idiv h ty d a b | .irem h ty d a b => ty.isInt && wfAB h d a b
  | .iminS h ty d a b | .imaxS h ty d a b => ty.isInt && wfAB h d a b
  | .iminL h ty d a _ | .imaxL h ty d a _ => ty.isInt && wfL h d a
  | .iabs h ty _ d a | .ineg h ty _ d a => ty.isInt && ty.signed && wfA h d a
  | .icmpS h ty c _ a b => ty.isInt && c != .un && c != .ord && wfAB h (.v 0) a b
  | .icmpL h ty c _ a _ => ty.isInt && c != .un && c != .ord && wfL h (.v 0) a
  | .leaS h ty _ d a b => ty.isN64 && wfAB h d a b
  | .leaL h ty d a _ => ty.isN64 && wfL h d a
  | .andS h ty d a b | .orS h ty d a b | .xorS h ty d a b | .andnS h ty d a b =>
    ty.isN64 && wfAB h d a b
  | .andL h ty d a _ | .orL h ty d a _ | .xorL h ty d a _ | .andnL h ty d a _ =>
    ty.isN64 && wfL h d a
  | .shlS h ty d a b | .shrS h ty d a b | .rotS h ty d a b =>
    (ty == .n32 || ty == .n64) && wfAB h d a b
  | .shlL h ty d a _ | .shrL h ty d a _ | .rotL h ty d a _ => (ty == .n32 || ty == .n64) && wfL h d a
  | .sarS h ty d a b => (ty == .i32 || ty == .i64) && wfAB h d a b
  | .sarL h ty d a _ => (ty == .i32 || ty == .i64) && wfL h d a
  | .shf h ty _ d a b c => (ty == .n32 || ty == .n64) && wfABC h d a b c
  | .bfx h ty d a b => (ty == .i64 || ty == .n64) && wfAB h d a b
  | .bfi h ty d a b c => ty.isN64 && wfABC h d a b c
  | .popc h ty d a | .clz h ty d a | .ctz h ty d a | .brev h ty d a =>
    (ty == .n32 || ty == .n64) && wfA h d a
  | .padd h ty _ d a b | .psub h ty _ d a b | .pmul h ty _ d a b => ty.isPInt && wfAB h d a b
  | .pmin h ty d a b | .pmax h ty d a b => ty.isPInt && wfAB h d a b
  | .idot4 h _ _ _ d a b c | .idot2 h _ _ _ d a b c => wfABC h d a b c
  | .fadd h ty _ d a b | .fsub h ty _ d a b | .fmul h ty _ d a b => ty.isFloat && wfAB h d a b
  | .ffma h ty _ d a b c => ty.isFloat && wfABC h d a b c
  | .fmin h ty d a b | .fmax h ty d a b => ty.isFloat && wfAB h d a b
  | .fcmp h ty _ _ a b => ty.isSFloat && wfAB h (.v 0) a b
  | .fdot2 h sty _ d a b c => (sty == .bf16x4 || sty == .f16x4) && wfABC h d a b c
  | .fscale h ty _ d a b => ty.isFloat && wfAB h d a b
  | .fclass h ty d a => ty.isSFloat && wfA h d a
  | .frnd h ty _ d a => ty.isFloat && wfA h d a
  | .frcp h ty _ d a | .frsq h ty _ d a | .fsqrt h ty _ d a | .fexp2 h ty _ d a
  | .flog2 h ty _ d a | .fsin h ty _ d a | .fcos h ty _ d a | .ftanh h ty _ d a =>
    ty.isFloat && wfA h d a
  | .fdiv h ty _ d a b => ty.isFloat && wfAB h d a b
  | .fcvt h ty sty _ nsat d a =>
    ty.isCvt && sty.isCvt && (!nsat || ty == .e5m2 || ty == .e4m3) && wfA h d a
  | .f2i h ty sty _ d a => ty.isInt && sty.isSFloat && wfA h d a
  | .i2f h ty sty _ d a => ty.isSFloat && sty.isInt && wfA h d a
  | .fpack h ty sty _ nsat d a b pos =>
    ty.isBlk && sty.isWide && (!nsat || ty == .e5m2x8 || ty == .e4m3x8) && posOk pos sty.k ty.k &&
      wfAB h d a b
  | .funpk h ty sty _ d a b pos => ty.isWide && sty.isBlk && posOk pos ty.k sty.k && wfAB h d a b
  | .xclr h _ | .xmrg h _ _ => noRet h
  | .xadd h ty _ a => ty.isXadd && wfA h (.v 0) a
  | .xmac h ty _ a b => (ty.isXadd || ty.isBlk) && wfAB h (.v 0) a b
  | .xrnd h ty _ _ _ d => ty.isSFloat && wfD h d
  | .xsave h _ a | .xload h _ a => wfA h (.v 0) a
  | .shfl h _ _ _ d a b | .bcast h _ _ d a b => wfAB h d a b
  | .shfli h _ _ _ d a _ => wfA h d a
  | .ballot h _ d => wfD h d
  | .vote h op _ ps a =>
    if op == .eq then ps.unused && wfA h (.v 0) a else a.unused && noRet h
  | .matchK h _ _ d a | .compact h _ d a | .perm h _ d a => wfA h d a
  | .scan h op ty rnd _ seg d a b | .sred h op ty rnd seg d a b =>
    ty.isScan && (!ty.isFloat || (op != .and && op != .or && op != .xor)) &&
      (ty.isFloat || rnd == .rne) && d.ok && a.ok && b.ok &&
      (if seg.isNone then retOk h.ret (some a) (some b) none
       else b.unused && retOk h.ret (some a) none none)
  | .pcfg h _ _ a => wfA h (.v 0) a
  | .regroup h _ d | .actmask h _ d => wfD h d
  | .mov h ty d a => ty.isN64 && wfA h d a
  | .movi h d _ | .movl h d _ | .pget h d | .getid h _ d => wfD h d
  | .sel h _ d a b => wfAB h d a b
  | .plop h _ _ _ _ => noRet h
  | .pput h _ a => wfA h (.v 0) a
  | .rand h ty d => (ty.isN64 || ty == .f64 || ty == .f32) && wfD h d
  | .ldS h ty _ _ _ d a b => ty.isMem && wfAB h d a b
  | .ldL h ty _ d a _ => ty.isMem && wfL h d a
  | .stS h ty _ _ ch d a b => ty.isMem && ch != .nl && wfAB h d a b
  | .stL h ty ch d a _ => ty.isMem && ch != .nl && wfL h d a
  | .ldsS h ty _ d a b | .stsS h ty _ d a b | .ldxS h ty _ d a b | .stxS h ty _ d a b =>
    ty.isMem && wfAB h d a b
  | .ldsL h ty d a _ | .stsL h ty d a _ | .ldxL h ty d a _ | .stxL h ty d a _ => ty.isMem && wfL h d a
  | .prefS h l2 res _ _ a b => !(l2 && res) && wfAB h (.v 0) a b
  | .prefL h l2 res _ a _ => !(l2 && res) && wfL h (.v 0) a
  | .linv h _ rng | .icinv h rng =>
    match rng with
    | some (a, b) => wfAB h (.v 0) a b
    | none => noRet h
  | .cas h ty _ ord sc d a b c => ty.isUpd && casOk ord sc && wfABC h d a b c
  | .red h _ ty _ _ d a b => ty.isUpd && wfAB h d a b
  | .xred h cty sty _ a b =>
    ((cty == .f32 && sty == .none) || (cty == .f64 && (sty == .none || sty == .f32))) &&
      wfAB h (.v 0) a b
  | .xfin h ty _ _ _ d a => (ty == .f32 || ty == .f64) && wfA h d a
  | .boff h _ | .sqgo h _ | .sqstop h _ _ | .cwait h _ _ | .mdeclRel h _ | .mrel h => noRet h
  | .sqcfg h _ _ a b => wfAB h (.v 0) a b
  | .sqstat h _ _ d | .cseal h d | .cpoll h _ _ d => wfD h d
  | .cpy h _ _ _ a b c => wfABC h (.v 0) a b c
  | .mdecl h _ a | .mzero h a | .macq h _ a => wfA h (.v 0) a
  | .mma h ty _ _ a bs c =>
    match ty.mmaBs, bs with
    | some (no, _), none => no && a.ok && c.ok && retOk h.ret (some a) none (some c)
    | some (_, yes), some b => yes && wfABC h (.v 0) a b c
    | none, _ => false
  | .mldb h _ a b c => wfABC h (.v 0) a b c
  | .mdrn h ty _ _ _ p64 => mdrnOk ty p64 && noRet h
  | .msta h ty rnd mode _ _ a b => mstaOk ty rnd mode && wfAB h (.v 0) a b
  | .mldc h ty _ _ a b =>
    (ty == .f32 || ty == .i32 || ty == .bf16 || ty == .f16 || ty == .f64) && wfAB h (.v 0) a b
  | .phreg h mode a => mode != .none && wfA h (.v 0) a
  | .phdrop h a | .phsig h a | .phwait h a | .phnxt h a | .phnxtSpec h a => wfA h (.v 0) a
  | .phstat h d a => wfA h d a
  | .fence h _ _ => noRet h
  | .gred h _ a => wfA h (.v 0) a
  | .gres h form a =>
    match form with
    | .typed ty _ d => ty.isSFloat && wfA h d a
    | .whole _ => wfA h (.v 0) a
  | .txb h d | .txs h d => wfD h d
  | .txbOrd h d a => wfA h d a
  | .txe h _ | .txa h _ | .halt h _ => noRet h
  | .csrr h n d => csrAssigned n && wfD h d
  | .csrw h n _ d a => csrAssigned n && wfA h d a
  | .l2way h d a => wfA h d a
  | .l2wayQ h d | .gettime h d => wfD h d
  | .mbox h d a b => wfAB h d a b
  | .pairedWord h _ _ d1 a1 b1 d2 b2 =>
    d1.ok && a1.ok && b1.ok && d2.ok && b2.ok && retOk h.ret (some a1) (some b1) none
  | .unassignedEncoding _ => false
  | _ => true

end Sys2Proof
end

