-- ==== Sys2Proof/Decode.lean ====
section
/-! DEFINITION. Decode.lean: from bytes to an item of code, and back.

The four formats are cut into their fields exactly as R12 and R17 to R20 draw them. `parseC`,
`parseS`, `parseL` and `parseP` read an instruction from the fields that its description uses.
`encode` writes the fields of an instruction, every unused field zero (R21). An item decodes when
the instruction read from it is well formed and its encoding is the item itself, so a non-zero
unused bit, a reserved value and a badly formed field are all refused (R40). -/

namespace Sys2Proof

/-! ## Codes of the field values -/

/-- TYPE code (R25). -/
def Ty.code : Ty → Nat
  | .none => 0x00 | .f64 => 0x01 | .f32 => 0x02 | .bf16 => 0x03 | .f16 => 0x04 | .e4m3 => 0x05
  | .e5m2 => 0x06 | .e2m1 => 0x07 | .i8 => 0x08 | .i16 => 0x09 | .i32 => 0x0A | .i64 => 0x0B
  | .n8 => 0x0C | .n16 => 0x0D | .n32 => 0x0E | .n64 => 0x0F | .f32x2 => 0x12 | .bf16x4 => 0x13
  | .f16x4 => 0x14 | .e4m3x8 => 0x15 | .e5m2x8 => 0x16 | .e2m1x16 => 0x17 | .i8x8 => 0x18
  | .i16x4 => 0x19 | .i32x2 => 0x1A | .n8x8 => 0x1C | .n16x4 => 0x1D | .n32x2 => 0x1E

/-- The type of a TYPE code; codes not listed are reserved (R25). -/
def Ty.ofCode : Nat → Option Ty
  | 0x00 => some .none | 0x01 => some .f64 | 0x02 => some .f32 | 0x03 => some .bf16
  | 0x04 => some .f16 | 0x05 => some .e4m3 | 0x06 => some .e5m2 | 0x07 => some .e2m1
  | 0x08 => some .i8 | 0x09 => some .i16 | 0x0A => some .i32 | 0x0B => some .i64
  | 0x0C => some .n8 | 0x0D => some .n16 | 0x0E => some .n32 | 0x0F => some .n64
  | 0x12 => some .f32x2 | 0x13 => some .bf16x4 | 0x14 => some .f16x4 | 0x15 => some .e4m3x8
  | 0x16 => some .e5m2x8 | 0x17 => some .e2m1x16 | 0x18 => some .i8x8 | 0x19 => some .i16x4
  | 0x1A => some .i32x2 | 0x1C => some .n8x8 | 0x1D => some .n16x4 | 0x1E => some .n32x2
  | _ => Option.none

/-- RND code (R26). -/
def Rnd.code : Rnd → Nat
  | .rne => 0 | .rtz => 1 | .rdn => 2 | .rup => 3 | .rna => 4 | .dyn => 5

/-- The mode of an RND code; 6 and 7 are reserved (R26). -/
def Rnd.ofCode : Nat → Option Rnd
  | 0 => some .rne | 1 => some .rtz | 2 => some .rdn | 3 => some .rup | 4 => some .rna
  | 5 => some .dyn | _ => none

/-- SCOPE code (R141). -/
def Scope.code : Scope → Nat
  | .thr => 0 | .grp => 1 | .team => 2 | .core => 3 | .cpair => 4 | .die => 5 | .part => 6 | .sys => 7

/-- The scope of a 3-bit code (R141). -/
def Scope.ofCode (n : Nat) : Scope :=
  if n = 0 then .thr else if n = 1 then .grp else if n = 2 then .team else if n = 3 then .core
  else if n = 4 then .cpair else if n = 5 then .die else if n = 6 then .part else .sys

/-- COND code (R212, R224). -/
def Cond.code : Cond → Nat
  | .eq => 0 | .ne => 1 | .lt => 2 | .le => 3 | .gt => 4 | .ge => 5 | .un => 6 | .ord => 7

/-- The condition of a 3-bit code (R212, R224). -/
def Cond.ofCode (n : Nat) : Cond :=
  if n = 0 then .eq else if n = 1 then .ne else if n = 2 then .lt else if n = 3 then .le
  else if n = 4 then .gt else if n = 5 then .ge else if n = 6 then .un else .ord

/-- OP code of SCAN, SRED and RED (R153, R166). -/
def COp.code : COp → Nat
  | .add => 0 | .min => 1 | .max => 2 | .and => 3 | .or => 4 | .xor => 5

/-- The combining operation of a code; 6 and 7 are reserved (R153, R166). -/
def COp.ofCode : Nat → Option COp
  | 0 => some .add | 1 => some .min | 2 => some .max | 3 => some .and | 4 => some .or
  | 5 => some .xor | _ => none

/-- MODE code of SHFL and SHFLI (R166). -/
def ShMode.code : ShMode → Nat
  | .idx => 0 | .up => 1 | .dn => 2 | .xor => 3

/-- The shuffle mode of a 2-bit code (R166). -/
def ShMode.ofCode (n : Nat) : ShMode :=
  if n = 0 then .idx else if n = 1 then .up else if n = 2 then .dn else .xor

/-- OP code of VOTE (R166). -/
def VoteOp.code : VoteOp → Nat
  | .all => 0 | .any => 1 | .none => 2 | .eq => 3

/-- The vote of a 2-bit code (R166). -/
def VoteOp.ofCode (n : Nat) : VoteOp :=
  if n = 0 then .all else if n = 1 then .any else if n = 2 then .none else .eq

/-- OP code of PLOP (R180). -/
def PlOp.code : PlOp → Nat
  | .and => 0 | .or => 1 | .xor => 2

/-- The predicate operation of a code; 3 is reserved (R180). -/
def PlOp.ofCode : Nat → Option PlOp
  | 0 => some .and | 1 => some .or | 2 => some .xor | _ => none

/-- CH code (R141). -/
def CHint.code : CHint → Nat
  | .normal => 0 | .strm => 1 | .nl => 2

/-- The cache hint of a code; 3 is reserved (R141). -/
def CHint.ofCode : Nat → Option CHint
  | 0 => some .normal | 1 => some .strm | 2 => some .nl | _ => none

/-- ORD code of CAS (R153). -/
def CasOrd.code : CasOrd → Nat
  | .none => 0 | .acq => 1 | .rel => 2 | .ar => 3

/-- The ordering of a 2-bit code (R153). -/
def CasOrd.ofCode (n : Nat) : CasOrd :=
  if n = 0 then .none else if n = 1 then .acq else if n = 2 then .rel else .ar

/-- HINT code of CPY (R118). -/
def CpyHint.code : CpyHint → Nat
  | .none => 0 | .strm => 1 | .keep => 2

/-- The copy hint of a code; 3 is reserved (R118). -/
def CpyHint.ofCode : Nat → Option CpyHint
  | 0 => some .none | 1 => some .strm | 2 => some .keep | _ => Option.none

/-- MODE code of MSTA (R261). -/
def StaMode.code : StaMode → Nat
  | .overwrite => 0 | .add => 1 | .xadd => 2

/-- The store mode of a code; 3 is reserved (R261). -/
def StaMode.ofCode : Nat → Option StaMode
  | 0 => some .overwrite | 1 => some .add | 2 => some .xadd | _ => none

/-- MODE code of PHREG (R299); 0 is reserved and stands for no mode. -/
def PhMode.code : PhMode → Nat
  | .none => 0 | .sig => 1 | .wait => 2 | .sigwait => 3

/-- The phaser mode of a 2-bit code (R299, R302). -/
def PhMode.ofCode (n : Nat) : PhMode :=
  if n = 1 then .sig else if n = 2 then .wait else if n = 3 then .sigwait else .none

/-- KIND code of FENCE (R288). -/
def FenceKind.code : FenceKind → Nat
  | .acq => 1 | .rel => 2 | .ar => 3

/-- The fence of a code; 0 is reserved (R288). -/
def FenceKind.ofCode : Nat → Option FenceKind
  | 1 => some .acq | 2 => some .rel | 3 => some .ar | _ => none

/-- OP code of CSRW (R378). -/
def CsrOp.code : CsrOp → Nat
  | .write => 0 | .set => 1 | .clr => 2

/-- The CSRW operation of a code; 3 is reserved (R378). -/
def CsrOp.ofCode : Nat → Option CsrOp
  | 0 => some .write | 1 => some .set | 2 => some .clr | _ => none

/-- SEL code of GETID (R185). -/
def IdSel.code : IdSel → Nat
  | .lane => 0 | .group => 1 | .teamx => 2 | .teamy => 3 | .teamz => 4 | .team => 5 | .gtid => 6
  | .width => 7 | .ngroup => 8 | .nteam => 9 | .core => 10 | .quarter => 11

/-- The coordinate of a code; 12 to 15 are reserved (R185). -/
def IdSel.ofCode : Nat → Option IdSel
  | 0 => some .lane | 1 => some .group | 2 => some .teamx | 3 => some .teamy | 4 => some .teamz
  | 5 => some .team | 6 => some .gtid | 7 => some .width | 8 => some .ngroup | 9 => some .nteam
  | 10 => some .core | 11 => some .quarter | _ => none

/-- RET code (R18). -/
def Retain.code : Retain → Nat
  | .none => 0 | .a => 1 | .b => 2 | .c => 3

/-- The retained source of a 2-bit code (R18). -/
def Retain.ofCode (n : Nat) : Retain :=
  if n = 0 then .none else if n = 1 then .a else if n = 2 then .b else .c

/-! ## Control, guard and formats -/

/-- CTL as the bits [21:2] of an item (R15). -/
def Ctl.bits (c : Ctl) : BitVec 20 :=
  BitVec.ofNat 20 (c.dist.toNat + c.wait.toNat * 8 +
    (match c.setf with | some f => f.val | none => 15) * 32768 + c.yld.toNat * 524288)

/-- CTL from bits [21:2]; SETF values 12 to 14 are reserved (R15, R16). -/
def Ctl.ofBits (b : BitVec 20) : Option Ctl :=
  let n := b.toNat
  let f := n / 32768 % 16
  let setf : Option (Option (Fin 12)) :=
    if h : f < 12 then some (some ⟨f, h⟩) else if f = 15 then some none else none
  setf.map fun sf => ⟨b.extractLsb' 0 3, b.extractLsb' 3 12, sf, n / 524288 == 1⟩

/-- PRED (R22). -/
def Guard.bits (g : Guard) : BitVec 4 := BitVec.ofNat 4 (g.p.val + g.neg.toNat * 8)

/-- The guard of PRED (R22). -/
def Guard.ofBits (b : BitVec 4) : Guard := ⟨Fin.ofNat 8 b.toNat, b.toNat / 8 == 1⟩

/-- Fields of a C word (R17). -/
structure CWord where
  ctl : BitVec 20
  opc : BitVec 10
  pred : BitVec 4
  d : BitVec 10
  imm : BitVec 18
deriving DecidableEq, Repr

/-- Fields of an S word (R18). -/
structure SWord where
  ctl : BitVec 20
  opc : BitVec 10
  pred : BitVec 4
  ret : BitVec 2
  d : BitVec 10
  a : BitVec 10
  b : BitVec 10
  c : BitVec 10
  mod : BitVec 17
deriving DecidableEq, Repr

/-- Fields of an L word (R19). -/
structure LWord where
  ctl : BitVec 20
  opc : BitVec 10
  pred : BitVec 4
  d : BitVec 10
  a : BitVec 10
  mod : BitVec 8
  imm : Word
deriving DecidableEq, Repr

/-- Fields of a P word (R20); `top` is bits [95:93]. -/
structure PWord where
  ctl : BitVec 20
  pred : BitVec 4
  ret : BitVec 2
  opc1 : BitVec 7
  d1 : BitVec 10
  a1 : BitVec 10
  b1 : BitVec 10
  opc2 : BitVec 7
  d2 : BitVec 10
  b2 : BitVec 10
  top : BitVec 3
deriving DecidableEq, Repr

/-- An item cut into its format's fields, or the 64 bits of a block header (R12). -/
inductive Raw where
  | c (w : CWord)
  | s (w : SWord)
  | l (w : LWord)
  | p (w : PWord)
  | h (bits : BitVec 64)
deriving DecidableEq, Repr

/-- Length in parcels of the item whose parcel 0 is given (R12). -/
def parcelsOf (p0 : BitVec 32) : Nat :=
  let len := p0.toNat % 4
  if len = 0 then 2 else if len = 1 then 3 else if len = 2 then 4 else 2

/-- The fields of the item whose value is `v` (R12, R17 to R20, R32). -/
def Raw.ofBits (v : BitVec 128) : Raw :=
  let len := v.toNat % 4
  if len = 0 then
    .c ⟨v.extractLsb' 2 20, v.extractLsb' 22 10, v.extractLsb' 32 4, v.extractLsb' 36 10,
      v.extractLsb' 46 18⟩
  else if len = 1 then
    if v.getLsbD 22 then
      .p ⟨v.extractLsb' 2 20, v.extractLsb' 23 4, v.extractLsb' 27 2, v.extractLsb' 29 7,
        v.extractLsb' 36 10, v.extractLsb' 46 10, v.extractLsb' 56 10, v.extractLsb' 66 7,
        v.extractLsb' 73 10, v.extractLsb' 83 10, v.extractLsb' 93 3⟩
    else
      .s ⟨v.extractLsb' 2 20, v.extractLsb' 23 10, v.extractLsb' 33 4, v.extractLsb' 37 2,
        v.extractLsb' 39 10, v.extractLsb' 49 10, v.extractLsb' 59 10, v.extractLsb' 69 10,
        v.extractLsb' 79 17⟩
  else if len = 2 then
    .l ⟨v.extractLsb' 2 20, v.extractLsb' 22 10, v.extractLsb' 32 4, v.extractLsb' 36 10,
      v.extractLsb' 46 10, v.extractLsb' 56 8, v.extractLsb' 64 64⟩
  else .h (v.extractLsb' 0 64)

/-- The value of an item, in the low bits of 128 (R17 to R20). -/
def Raw.toBits : Raw → BitVec 128
  | .c w => (w.imm ++ w.d ++ w.pred ++ w.opc ++ w.ctl ++ 0b00#2).zeroExtend 128
  | .s w => (w.mod ++ w.c ++ w.b ++ w.a ++ w.d ++ w.ret ++ w.pred ++ w.opc ++ 0#1 ++ w.ctl ++
      0b01#2).zeroExtend 128
  | .l w => w.imm ++ w.mod ++ w.a ++ w.d ++ w.pred ++ w.opc ++ w.ctl ++ 0b10#2
  | .p w => (w.top ++ w.b2 ++ w.d2 ++ w.opc2 ++ w.b1 ++ w.a1 ++ w.d1 ++ w.opc1 ++ w.ret ++ w.pred ++
      1#1 ++ w.ctl ++ 0b01#2).zeroExtend 128
  | .h b => b.zeroExtend 128

/-- Length of an item in parcels (R12). -/
def Raw.parcels : Raw → Nat
  | .c _ => 2
  | .s _ => 3
  | .l _ => 4
  | .p _ => 3
  | .h _ => 2

/-! ## Encoding -/

/-- A C word of operation `opc`. -/
def cw (opc : Nat) (h : Hdr) (d : Opnd) (imm : BitVec 18) : Option Raw :=
  some (.c ⟨h.ctl.bits, BitVec.ofNat 10 opc, h.guard.bits, d.idx, imm⟩)

/-- An S word of operation `opc` whose D field holds any 10 bits. -/
def swd (opc : Nat) (h : Hdr) (d : BitVec 10) (a b c : Opnd) (mod : Nat) : Option Raw :=
  some (.s ⟨h.ctl.bits, BitVec.ofNat 10 opc, h.guard.bits, BitVec.ofNat 2 h.ret.code, d, a.idx,
    b.idx, c.idx, BitVec.ofNat 17 mod⟩)

/-- An S word of operation `opc`. -/
def sw (opc : Nat) (h : Hdr) (d a b c : Opnd) (mod : Nat) : Option Raw := swd opc h d.idx a b c mod

/-- An S word whose C field is an immediate (R166, R229). -/
def swi (opc : Nat) (h : Hdr) (d a b : Opnd) (c : BitVec 10) (mod : Nat) : Option Raw :=
  some (.s ⟨h.ctl.bits, BitVec.ofNat 10 opc, h.guard.bits, BitVec.ofNat 2 h.ret.code, d.idx, a.idx,
    b.idx, c, BitVec.ofNat 17 mod⟩)

/-- An L word of operation `opc` whose D field holds any 10 bits. -/
def lwd (opc : Nat) (h : Hdr) (d : BitVec 10) (a : Opnd) (mod : Nat) (imm : Word) : Option Raw :=
  some (.l ⟨h.ctl.bits, BitVec.ofNat 10 opc, h.guard.bits, d, a.idx, BitVec.ofNat 8 mod, imm⟩)

/-- An L word of operation `opc`. -/
def lw (opc : Nat) (h : Hdr) (d a : Opnd) (mod : Nat) (imm : Word) : Option Raw :=
  lwd opc h d.idx a mod imm

/-- The operand field that an instruction does not use (R21). -/
def o0 : Opnd := .v 0

/-- D of ICMP and FCMP: the predicate in [2:0] and COND in [5:3] (R212, R224). -/
def condField (pd : Fin 8) (c : Cond) : BitVec 10 := BitVec.ofNat 10 (pd.val + c.code * 8)

/-- One flag bit at a place of MOD. -/
def bitAt (b : Bool) (i : Nat) : Nat := b.toNat * 2 ^ i

/-- PS in [2:0] and NEG in [3] (R166, R180). -/
def psMod (p : PSrc) : Nat := p.p.val + bitAt p.neg 3

/-- SEG of SCAN and SRED; 15 is head flags (R166). -/
def segCode : Option (Fin 11) → Nat
  | some s => s.val
  | none => 15

/-- ORD in bit `i` and SCOPE in the three bits above it, zero without ordering (R141, R153). -/
def ordMod (s : Option Scope) (i : Nat) : Nat :=
  match s with
  | some s => 2 ^ i + s.code * 2 ^ (i + 1)
  | none => 0

/-- An S word with an optional range of base and length; without one, bit 0 (ALL) is set (R150,
R383). -/
def rngWord (opc : Nat) (h : Hdr) (rng : Option (Opnd × Opnd)) (mod : Nat) : Option Raw :=
  match rng with
  | some (a, b) => sw opc h o0 a b o0 mod
  | none => sw opc h o0 o0 o0 o0 (mod + 1)

/-- The encoding of an item of code; events have none. -/
def encode : Instr → Option Raw
  | .nopC h => cw 0x000 h o0 0
  | .nopS h => sw 0x000 h o0 o0 o0 o0 0
  | .bra h off => cw 0x001 h o0 off
  | .brx h a => sw 0x002 h o0 a o0 o0 0
  | .call h d off => cw 0x003 h d off
  | .callx h d a => sw 0x004 h d a o0 o0 0
  | .ret h d => cw 0x005 h d 0
  | .exit h => cw 0x006 h o0 0
  | .yield h => cw 0x007 h o0 0
  | .tfence h => cw 0x008 h o0 0
  | .eret h => cw 0x00A h o0 0
  | .trap h x => cw 0x009 h o0 x
  | .brk h x => cw 0x00B h o0 x
  | .sleep h x => cw 0x00C h o0 x
  | .iaddS h ty sat d a b => sw 0x040 h d a b o0 (ty.code + bitAt sat 9)
  | .iaddL h ty sat d a imm => lw 0x040 h d a (ty.code + bitAt sat 6) imm
  | .isubS h ty sat d a b => sw 0x041 h d a b o0 (ty.code + bitAt sat 9)
  | .isubL h ty sat d a imm => lw 0x041 h d a (ty.code + bitAt sat 6) imm
  | .imulS h ty sat d a b => sw 0x042 h d a b o0 (ty.code + bitAt sat 9)
  | .imulL h ty sat d a imm => lw 0x042 h d a (ty.code + bitAt sat 6) imm
  | .imulh h ty d a b => sw 0x043 h d a b o0 ty.code
  | .imad h ty d a b c => sw 0x044 h d a b c ty.code
  | .idiv h ty d a b => sw 0x045 h d a b o0 ty.code
  | .irem h ty d a b => sw 0x046 h d a b o0 ty.code
  | .iminS h ty d a b => sw 0x047 h d a b o0 ty.code
  | .iminL h ty d a imm => lw 0x047 h d a ty.code imm
  | .imaxS h ty d a b => sw 0x048 h d a b o0 ty.code
  | .imaxL h ty d a imm => lw 0x048 h d a ty.code imm
  | .iabs h ty sat d a => sw 0x049 h d a o0 o0 (ty.code + bitAt sat 9)
  | .ineg h ty sat d a => sw 0x04A h d a o0 o0 (ty.code + bitAt sat 9)
  | .icmpS h ty c pd a b => swd 0x04B h (condField pd c) a b o0 ty.code
  | .icmpL h ty c pd a imm => lwd 0x04B h (condField pd c) a ty.code imm
  | .leaS h ty sh d a b => sw 0x04C h d a b o0 (ty.code + sh.val * 512)
  | .leaL h ty d a imm => lw 0x04C h d a ty.code imm
  | .andS h ty d a b => sw 0x080 h d a b o0 ty.code
  | .andL h ty d a imm => lw 0x080 h d a ty.code imm
  | .orS h ty d a b => sw 0x081 h d a b o0 ty.code
  | .orL h ty d a imm => lw 0x081 h d a ty.code imm
  | .xorS h ty d a b => sw 0x082 h d a b o0 ty.code
  | .xorL h ty d a imm => lw 0x082 h d a ty.code imm
  | .andnS h ty d a b => sw 0x083 h d a b o0 ty.code
  | .andnL h ty d a imm => lw 0x083 h d a ty.code imm
  | .shlS h ty d a b => sw 0x084 h d a b o0 ty.code
  | .shlL h ty d a imm => lw 0x084 h d a ty.code imm
  | .shrS h ty d a b => sw 0x085 h d a b o0 ty.code
  | .shrL h ty d a imm => lw 0x085 h d a ty.code imm
  | .sarS h ty d a b => sw 0x086 h d a b o0 ty.code
  | .sarL h ty d a imm => lw 0x086 h d a ty.code imm
  | .rotS h ty d a b => sw 0x087 h d a b o0 ty.code
  | .rotL h ty d a imm => lw 0x087 h d a ty.code imm
  | .shf h ty left d a b c => sw 0x088 h d a b c (ty.code + bitAt left 9)
  | .bfx h ty d a b => sw 0x089 h d a b o0 ty.code
  | .bfi h ty d a b c => sw 0x08A h d a b c ty.code
  | .popc h ty d a => sw 0x08B h d a o0 o0 ty.code
  | .clz h ty d a => sw 0x08C h d a o0 o0 ty.code
  | .ctz h ty d a => sw 0x08D h d a o0 o0 ty.code
  | .brev h ty d a => sw 0x08E h d a o0 o0 ty.code
  | .padd h ty sat d a b => sw 0x08F h d a b o0 (ty.code + bitAt sat 9)
  | .psub h ty sat d a b => sw 0x090 h d a b o0 (ty.code + bitAt sat 9)
  | .pmul h ty sat d a b => sw 0x091 h d a b o0 (ty.code + bitAt sat 9)
  | .pmin h ty d a b => sw 0x092 h d a b o0 ty.code
  | .pmax h ty d a b => sw 0x093 h d a b o0 ty.code
  | .idot4 h ua ub sat d a b c => sw 0x094 h d a b c (Ty.i32x2.code + bitAt ua 9 + bitAt ub 10 + bitAt sat 11)
  | .idot2 h ua ub sat d a b c => sw 0x095 h d a b c (Ty.i32x2.code + bitAt ua 9 + bitAt ub 10 + bitAt sat 11)
  | .fadd h ty rnd d a b => sw 0x0C0 h d a b o0 (ty.code + rnd.code * 64)
  | .fsub h ty rnd d a b => sw 0x0C1 h d a b o0 (ty.code + rnd.code * 64)
  | .fmul h ty rnd d a b => sw 0x0C2 h d a b o0 (ty.code + rnd.code * 64)
  | .fscale h ty rnd d a b => sw 0x0C8 h d a b o0 (ty.code + rnd.code * 64)
  | .fdiv h ty rnd d a b => sw 0x103 h d a b o0 (ty.code + rnd.code * 64)
  | .ffma h ty rnd d a b c => sw 0x0C3 h d a b c (ty.code + rnd.code * 64)
  | .fmin h ty d a b => sw 0x0C4 h d a b o0 ty.code
  | .fmax h ty d a b => sw 0x0C5 h d a b o0 ty.code
  | .fcmp h ty c pd a b => swd 0x0C6 h (condField pd c) a b o0 ty.code
  | .fdot2 h sty rnd d a b c => sw 0x0C7 h d a b c (Ty.f32x2.code + rnd.code * 64 + sty.code * 512)
  | .fclass h ty d a => sw 0x0C9 h d a o0 o0 ty.code
  | .frnd h ty rnd d a => sw 0x0CA h d a o0 o0 (ty.code + rnd.code * 64)
  | .frcp h ty rnd d a => sw 0x100 h d a o0 o0 (ty.code + rnd.code * 64)
  | .frsq h ty rnd d a => sw 0x101 h d a o0 o0 (ty.code + rnd.code * 64)
  | .fsqrt h ty rnd d a => sw 0x102 h d a o0 o0 (ty.code + rnd.code * 64)
  | .fexp2 h ty rnd d a => sw 0x104 h d a o0 o0 (ty.code + rnd.code * 64)
  | .flog2 h ty rnd d a => sw 0x105 h d a o0 o0 (ty.code + rnd.code * 64)
  | .fsin h ty rnd d a => sw 0x106 h d a o0 o0 (ty.code + rnd.code * 64)
  | .fcos h ty rnd d a => sw 0x107 h d a o0 o0 (ty.code + rnd.code * 64)
  | .ftanh h ty rnd d a => sw 0x108 h d a o0 o0 (ty.code + rnd.code * 64)
  | .fcvt h ty sty rnd nsat d a => sw 0x109 h d a o0 o0 (ty.code + rnd.code * 64 + sty.code * 512 + bitAt nsat 15)
  | .f2i h ty sty rnd d a => sw 0x10A h d a o0 o0 (ty.code + rnd.code * 64 + sty.code * 512)
  | .i2f h ty sty rnd d a => sw 0x10B h d a o0 o0 (ty.code + rnd.code * 64 + sty.code * 512)
  | .fpack h ty sty rnd nsat d a b pos => swi 0x10C h d a b pos (ty.code + rnd.code * 64 + sty.code * 512 + bitAt nsat 15)
  | .funpk h ty sty rnd d a b pos => swi 0x10D h d a b pos (ty.code + rnd.code * 64 + sty.code * 512)
  | .xclr h xa => sw 0x140 h o0 o0 o0 o0 (xa.val * 512)
  | .xadd h ty xa a => sw 0x141 h o0 a o0 o0 (ty.code + xa.val * 512)
  | .xmac h ty xa a b => sw 0x142 h o0 a b o0 (ty.code + xa.val * 512)
  | .xrnd h ty rnd clr xa d => sw 0x143 h d o0 o0 o0 (ty.code + rnd.code * 64 + xa.val * 512 + bitAt clr 12)
  | .xmrg h xa xb => sw 0x144 h o0 o0 o0 o0 (xa.val * 512 + xb.val * 4096)
  | .xsave h xa a => sw 0x145 h o0 a o0 o0 (xa.val * 512)
  | .xload h xa a => sw 0x146 h o0 a o0 o0 (xa.val * 512)
  | .shfl h wid mode seg d a b => sw 0x180 h d a b o0 (wid.val + mode.code * 512 + seg.val * 2048)
  | .shfli h wid mode seg d a imm => swi 0x181 h d a o0 imm (wid.val + mode.code * 512 + seg.val * 2048)
  | .bcast h wid first d a b => sw 0x182 h d a b o0 (wid.val + bitAt first 9)
  | .ballot h ps d => sw 0x183 h d o0 o0 o0 (psMod ps)
  | .vote h op pd ps a => sw 0x184 h o0 a o0 o0 (pd.val + ps.p.val * 8 + bitAt ps.neg 9 + op.code * 1024)
  | .matchK h w32 rank d a => sw 0x185 h d a o0 o0 (bitAt w32 0 + bitAt rank 9)
  | .compact h ps d a => sw 0x186 h d a o0 o0 (psMod ps)
  | .scan h op ty rnd excl seg d a b => sw 0x187 h d a b o0 (ty.code + rnd.code * 64 + op.code * 512 + bitAt excl 12 + segCode seg * 8192)
  | .sred h op ty rnd seg d a b => sw 0x188 h d a b o0 (ty.code + rnd.code * 64 + op.code * 512 + segCode seg * 8192)
  | .pcfg h wid pcn a => sw 0x189 h o0 a o0 o0 (wid.val + pcn.val * 512)
  | .perm h pcn d a => sw 0x18A h d a o0 o0 (pcn.val * 512)
  | .regroup h k d => sw 0x18B h d o0 o0 o0 (k.val + 2)
  | .actmask h live d => sw 0x18C h d o0 o0 o0 (bitAt live 0)
  | .mov h ty d a => sw 0x1C0 h d a o0 o0 ty.code
  | .movi h d imm => cw 0x1C1 h d imm
  | .movl h d imm => lw 0x1C2 h d o0 0 imm
  | .sel h ps d a b => sw 0x1C3 h d a b o0 (psMod ps)
  | .plop h op pd pa pb => sw 0x1C4 h o0 o0 o0 o0 (pd.val + pa.p.val * 8 + bitAt pa.neg 9 + pb.p.val * 1024 + bitAt pb.neg 13 + op.code * 16384)
  | .pget h d => sw 0x1C5 h d o0 o0 o0 0
  | .pput h msk a => sw 0x1C6 h o0 a o0 o0 (msk.toNat * 512)
  | .rand h ty d => sw 0x1C7 h d o0 o0 o0 ty.code
  | .getid h sel d => sw 0x1C8 h d o0 o0 o0 sel.code
  | .ldS h ty sc acq ch d a b => sw 0x200 h d a b o0 (ty.code + sc.val * 512 + ordMod acq 11 + ch.code * 32768)
  | .ldL h ty ch d a imm => lw 0x200 h d a (ty.code + ch.code * 64) imm
  | .stS h ty sc rel ch d a b => sw 0x201 h d a b o0 (ty.code + sc.val * 512 + ordMod rel 11 + ch.code * 32768)
  | .stL h ty ch d a imm => lw 0x201 h d a (ty.code + ch.code * 64) imm
  | .ldsS h ty sc d a b => sw 0x202 h d a b o0 (ty.code + sc.val * 512)
  | .ldsL h ty d a imm => lw 0x202 h d a ty.code imm
  | .stsS h ty sc d a b => sw 0x203 h d a b o0 (ty.code + sc.val * 512)
  | .stsL h ty d a imm => lw 0x203 h d a ty.code imm
  | .ldxS h ty sc d a b => sw 0x204 h d a b o0 (ty.code + sc.val * 512)
  | .ldxL h ty d a imm => lw 0x204 h d a ty.code imm
  | .stxS h ty sc d a b => sw 0x205 h d a b o0 (ty.code + sc.val * 512)
  | .stxL h ty d a imm => lw 0x205 h d a ty.code imm
  | .prefS h l2 res lc sc a b => sw 0x206 h o0 a b o0 (sc.val * 512 + bitAt l2 11 + bitAt res 12 + lc.val * 8192)
  | .prefL h l2 res lc a imm => lw 0x206 h o0 a (bitAt l2 0 + bitAt res 1 + lc.val * 4) imm
  | .linv h pub rng => rngWord 0x207 h rng (bitAt pub 1)
  | .cas h ty sp ord sc d a b c => sw 0x240 h d a b c (ty.code + bitAt sp 9 + ord.code * 1024 + sc.code * 4096)
  | .red h op ty sp rel d a b => sw 0x241 h d a b o0 (ty.code + bitAt sp 9 + ordMod rel 10 + op.code * 16384)
  | .xred h cty sty sp a b => sw 0x242 h o0 a b o0 (cty.code + sty.code * 512 + bitAt sp 15)
  | .xfin h ty rnd sp acq d a => sw 0x243 h d a o0 o0 (ty.code + rnd.code * 64 + bitAt sp 9 + ordMod acq 10)
  | .boff h clr => sw 0x244 h o0 o0 o0 o0 (bitAt clr 0)
  | .sqcfg h qn sp a b => sw 0x280 h o0 a b o0 (qn.val + bitAt sp 4)
  | .sqgo h qn => sw 0x281 h o0 o0 o0 o0 qn.val
  | .sqstop h qn disc => sw 0x282 h o0 o0 o0 o0 (qn.val + bitAt disc 4)
  | .sqstat h qn clr d => sw 0x283 h d o0 o0 o0 (qn.val + bitAt clr 4)
  | .cpy h ssp dsp hint a b c => sw 0x284 h o0 a b c (bitAt ssp 0 + bitAt dsp 1 + hint.code * 4)
  | .cseal h d => sw 0x285 h d o0 o0 o0 0
  | .cwait h n rel => sw 0x286 h o0 o0 o0 o0 (n.val + bitAt rel 4)
  | .cpoll h n rel d => sw 0x287 h d o0 o0 o0 (n.val + bitAt rel 4)
  | .mdecl h cv a => sw 0x2C0 h o0 a o0 o0 (cv.val * 512)
  | .mdeclRel h cv => sw 0x2C0 h o0 o0 o0 o0 (cv.val * 512 + 4096)
  | .mma h ty cv kbm1 a bs c => sw 0x2C1 h o0 a (bs.getD o0) c (ty.code + cv.val * 512 + kbm1.val * 4096 + bitAt bs.isSome 16)
  | .mldb h sp a b c => sw 0x2C2 h o0 a b c (bitAt sp 15)
  | .mzero h a => sw 0x2C3 h o0 a o0 o0 0
  | .mdrn h ty rnd dp tile p64 => sw 0x2C4 h o0 o0 o0 o0 (ty.code + rnd.code * 64 + dp.val * 512 + tile.val * 2048 + bitAt p64 15)
  | .msta h ty rnd mode tile sp a b => sw 0x2C5 h o0 a b o0 (ty.code + rnd.code * 64 + mode.code * 512 + tile.val * 2048 + bitAt sp 15)
  | .mldc h ty tile sp a b => sw 0x2C6 h o0 a b o0 (ty.code + tile.val * 2048 + bitAt sp 15)
  | .macq h pd a => sw 0x2C7 h o0 a o0 o0 (pd.val * 512)
  | .mrel h => sw 0x2C8 h o0 o0 o0 o0 0
  | .phreg h mode a => sw 0x300 h o0 a o0 o0 mode.code
  | .phdrop h a => sw 0x301 h o0 a o0 o0 0
  | .phsig h a => sw 0x302 h o0 a o0 o0 0
  | .phwait h a => sw 0x303 h o0 a o0 o0 0
  | .phnxt h a => sw 0x304 h o0 a o0 o0 0
  | .phnxtSpec h a => sw 0x304 h o0 a o0 o0 1
  | .phstat h d a => sw 0x305 h d a o0 o0 0
  | .fence h kind sc => sw 0x306 h o0 o0 o0 o0 (kind.code * 512 + sc.code * 4096)
  | .gred h xa a => sw 0x307 h o0 a o0 o0 (xa.val * 512)
  | .gres h (.typed ty rnd d) a => sw 0x308 h d a o0 o0 (ty.code + rnd.code * 64)
  | .gres h (.whole xa) a => sw 0x308 h o0 a o0 o0 (xa.val * 512 + 4096)
  | .txb h d => sw 0x340 h d o0 o0 o0 0
  | .txbOrd h d a => sw 0x340 h d a o0 o0 1
  | .txe h last => sw 0x341 h o0 o0 o0 o0 (bitAt last 0)
  | .txa h code => cw 0x342 h o0 (code.zeroExtend 18)
  | .txs h d => sw 0x343 h d o0 o0 o0 0
  | .csrr h n d => sw 0x380 h d o0 o0 o0 (n.toNat * 512)
  | .csrw h n op d a => sw 0x381 h d a o0 o0 (op.code + n.toNat * 512)
  | .icinv h rng => rngWord 0x382 h rng 0
  | .l2way h d a => sw 0x383 h d a o0 o0 0
  | .l2wayQ h d => sw 0x383 h d o0 o0 o0 1
  | .gettime h d => sw 0x384 h d o0 o0 o0 0
  | .mbox h d a b => sw 0x385 h d a b o0 0
  | .halt h code => cw 0x386 h o0 (code.zeroExtend 18)
  | .pairedWord h op1 op2 d1 a1 b1 d2 b2 => some (.p ⟨h.ctl.bits, h.guard.bits, BitVec.ofNat 2 h.ret.code, op1, d1.idx, a1.idx,
      b1.idx, op2, d2.idx, b2.idx, 0⟩)
  | _ => none

/-! ## Parsing -/

/-- A value below `n`, if it is. -/
def fin? (n : Nat) (x : Nat) : Option (Fin n) := if h : x < n then some ⟨x, h⟩ else none

/-- Bits `[lo + w - 1 : lo]` of a number. -/
def fld (x lo w : Nat) : Nat := x / 2 ^ lo % 2 ^ w

/-- The instruction of a C word (R39). -/
def parseC (w : CWord) : Option Instr :=
  (Ctl.ofBits w.ctl).bind fun ctl =>
  let h : Hdr := ⟨ctl, Guard.ofBits w.pred, .none⟩
  let d := Opnd.ofIdx w.d
  match w.opc.toNat with
  | 0x000 => some (.nopC h)
  | 0x001 => some (.bra h w.imm)
  | 0x003 => some (.call h d w.imm)
  | 0x005 => some (.ret h d)
  | 0x006 => some (.exit h)
  | 0x007 => some (.yield h)
  | 0x008 => some (.tfence h)
  | 0x009 => some (.trap h w.imm)
  | 0x00A => some (.eret h)
  | 0x00B => some (.brk h w.imm)
  | 0x00C => some (.sleep h w.imm)
  | 0x1C1 => some (.movi h d w.imm)
  | 0x342 => some (.txa h (w.imm.extractLsb' 0 8))
  | 0x386 => some (.halt h (w.imm.extractLsb' 0 8))
  | _ => none

/-- The fields that the parsers of S words share. -/
structure SFields where
  h : Hdr
  d : Opnd
  a : Opnd
  b : Opnd
  c : Opnd
  w : SWord

/-- MOD17 bits `[lo + n - 1 : lo]` (R18). -/
def SFields.m (f : SFields) (lo n : Nat) : Nat := fld f.w.mod.toNat lo n
/-- A 3-bit MOD17 field. -/
def SFields.f8 (f : SFields) (lo : Nat) : Fin 8 := Fin.ofNat 8 (f.m lo 3)
/-- A 4-bit MOD17 field. -/
def SFields.f16 (f : SFields) (lo : Nat) : Fin 16 := Fin.ofNat 16 (f.m lo 4)
/-- TYPE, MOD17[5:0] (R24). -/
def SFields.t (f : SFields) : Option Ty := Ty.ofCode (f.m 0 6)
/-- TYPE and RND (R24). -/
def SFields.tr (f : SFields) (k : Ty → Rnd → Instr) : Option Instr :=
  f.t.bind fun ty => (Rnd.ofCode (f.m 6 3)).map fun rnd => k ty rnd
/-- TYPE, the second type in MOD17[14:9], and RND (R24). -/
def SFields.t2r (f : SFields) (k : Ty → Ty → Rnd → Instr) : Option Instr :=
  f.t.bind fun ty => (Ty.ofCode (f.m 9 6)).bind fun sty =>
    (Rnd.ofCode (f.m 6 3)).map fun rnd => k ty sty rnd
/-- PS and NEG in MOD17[3:0] (R166). -/
def SFields.ps (f : SFields) : PSrc := ⟨f.f8 0, f.m 3 1 == 1⟩
/-- An ordering bit with its SCOPE above it (R141, R153). -/
def SFields.ord? (f : SFields) (i : Nat) : Option Scope :=
  if f.m i 1 == 1 then some (Scope.ofCode (f.m (i + 1) 3)) else none
/-- SEG of SCAN and SRED (R166). -/
def SFields.seg? (f : SFields) : Option (Option (Fin 11)) :=
  if f.m 13 4 == 15 then some none else (fin? 11 (f.m 13 4)).map some
/-- The predicate of ICMP and FCMP (R212). -/
def SFields.pd (f : SFields) : Fin 8 := Fin.ofNat 8 f.w.d.toNat
/-- The condition of ICMP and FCMP (R212, R224). -/
def SFields.cond (f : SFields) : Cond := Cond.ofCode (f.w.d.toNat / 8 % 8)

/-- S words of class 0x000 (R39). -/
def parseControl (f : SFields) : Option Instr :=
  match f.w.opc.toNat with
  | 0x000 => some (.nopS f.h)
  | 0x002 => some (.brx f.h f.a)
  | 0x004 => some (.callx f.h f.d f.a)
  | _ => none

/-- S words of class 0x040 (R39). -/
def parseInteger (f : SFields) : Option Instr :=
  match f.w.opc.toNat with
  | 0x040 => f.t.map fun ty => .iaddS f.h ty (f.m 9 1 == 1) f.d f.a f.b
  | 0x041 => f.t.map fun ty => .isubS f.h ty (f.m 9 1 == 1) f.d f.a f.b
  | 0x042 => f.t.map fun ty => .imulS f.h ty (f.m 9 1 == 1) f.d f.a f.b
  | 0x043 => f.t.map fun ty => .imulh f.h ty f.d f.a f.b
  | 0x044 => f.t.map fun ty => .imad f.h ty f.d f.a f.b f.c
  | 0x045 => f.t.map fun ty => .idiv f.h ty f.d f.a f.b
  | 0x046 => f.t.map fun ty => .irem f.h ty f.d f.a f.b
  | 0x047 => f.t.map fun ty => .iminS f.h ty f.d f.a f.b
  | 0x048 => f.t.map fun ty => .imaxS f.h ty f.d f.a f.b
  | 0x049 => f.t.map fun ty => .iabs f.h ty (f.m 9 1 == 1) f.d f.a
  | 0x04A => f.t.map fun ty => .ineg f.h ty (f.m 9 1 == 1) f.d f.a
  | 0x04B => f.t.map fun ty => .icmpS f.h ty f.cond f.pd f.a f.b
  | 0x04C => f.t.map fun ty => .leaS f.h ty (Fin.ofNat 8 (f.m 9 3)) f.d f.a f.b
  | _ => none

/-- S words of class 0x080 (R39). -/
def parseBits (f : SFields) : Option Instr :=
  match f.w.opc.toNat with
  | 0x080 => f.t.map fun ty => .andS f.h ty f.d f.a f.b
  | 0x081 => f.t.map fun ty => .orS f.h ty f.d f.a f.b
  | 0x082 => f.t.map fun ty => .xorS f.h ty f.d f.a f.b
  | 0x083 => f.t.map fun ty => .andnS f.h ty f.d f.a f.b
  | 0x084 => f.t.map fun ty => .shlS f.h ty f.d f.a f.b
  | 0x085 => f.t.map fun ty => .shrS f.h ty f.d f.a f.b
  | 0x086 => f.t.map fun ty => .sarS f.h ty f.d f.a f.b
  | 0x087 => f.t.map fun ty => .rotS f.h ty f.d f.a f.b
  | 0x088 => f.t.map fun ty => .shf f.h ty (f.m 9 1 == 1) f.d f.a f.b f.c
  | 0x089 => f.t.map fun ty => .bfx f.h ty f.d f.a f.b
  | 0x08A => f.t.map fun ty => .bfi f.h ty f.d f.a f.b f.c
  | 0x08B => f.t.map fun ty => .popc f.h ty f.d f.a
  | 0x08C => f.t.map fun ty => .clz f.h ty f.d f.a
  | 0x08D => f.t.map fun ty => .ctz f.h ty f.d f.a
  | 0x08E => f.t.map fun ty => .brev f.h ty f.d f.a
  | 0x08F => f.t.map fun ty => .padd f.h ty (f.m 9 1 == 1) f.d f.a f.b
  | 0x090 => f.t.map fun ty => .psub f.h ty (f.m 9 1 == 1) f.d f.a f.b
  | 0x091 => f.t.map fun ty => .pmul f.h ty (f.m 9 1 == 1) f.d f.a f.b
  | 0x092 => f.t.map fun ty => .pmin f.h ty f.d f.a f.b
  | 0x093 => f.t.map fun ty => .pmax f.h ty f.d f.a f.b
  | 0x094 => some (.idot4 f.h (f.m 9 1 == 1) (f.m 10 1 == 1) (f.m 11 1 == 1) f.d f.a f.b f.c)
  | 0x095 => some (.idot2 f.h (f.m 9 1 == 1) (f.m 10 1 == 1) (f.m 11 1 == 1) f.d f.a f.b f.c)
  | _ => none

/-- S words of class 0x0C0 (R39). -/
def parseFloat (f : SFields) : Option Instr :=
  match f.w.opc.toNat with
  | 0x0C0 => f.tr fun ty rnd => .fadd f.h ty rnd f.d f.a f.b
  | 0x0C1 => f.tr fun ty rnd => .fsub f.h ty rnd f.d f.a f.b
  | 0x0C2 => f.tr fun ty rnd => .fmul f.h ty rnd f.d f.a f.b
  | 0x0C3 => f.tr fun ty rnd => .ffma f.h ty rnd f.d f.a f.b f.c
  | 0x0C4 => f.t.map fun ty => .fmin f.h ty f.d f.a f.b
  | 0x0C5 => f.t.map fun ty => .fmax f.h ty f.d f.a f.b
  | 0x0C6 => f.t.map fun ty => .fcmp f.h ty f.cond f.pd f.a f.b
  | 0x0C7 => f.t2r fun _ sty rnd => .fdot2 f.h sty rnd f.d f.a f.b f.c
  | 0x0C8 => f.tr fun ty rnd => .fscale f.h ty rnd f.d f.a f.b
  | 0x0C9 => f.t.map fun ty => .fclass f.h ty f.d f.a
  | 0x0CA => f.tr fun ty rnd => .frnd f.h ty rnd f.d f.a
  | _ => none

/-- S words of class 0x100 (R39). -/
def parseSpecial (f : SFields) : Option Instr :=
  match f.w.opc.toNat with
  | 0x100 => f.tr fun ty rnd => .frcp f.h ty rnd f.d f.a
  | 0x101 => f.tr fun ty rnd => .frsq f.h ty rnd f.d f.a
  | 0x102 => f.tr fun ty rnd => .fsqrt f.h ty rnd f.d f.a
  | 0x103 => f.tr fun ty rnd => .fdiv f.h ty rnd f.d f.a f.b
  | 0x104 => f.tr fun ty rnd => .fexp2 f.h ty rnd f.d f.a
  | 0x105 => f.tr fun ty rnd => .flog2 f.h ty rnd f.d f.a
  | 0x106 => f.tr fun ty rnd => .fsin f.h ty rnd f.d f.a
  | 0x107 => f.tr fun ty rnd => .fcos f.h ty rnd f.d f.a
  | 0x108 => f.tr fun ty rnd => .ftanh f.h ty rnd f.d f.a
  | 0x109 => f.t2r fun ty sty rnd => .fcvt f.h ty sty rnd (f.m 15 1 == 1) f.d f.a
  | 0x10A => f.t2r fun ty sty rnd => .f2i f.h ty sty rnd f.d f.a
  | 0x10B => f.t2r fun ty sty rnd => .i2f f.h ty sty rnd f.d f.a
  | 0x10C => f.t2r fun ty sty rnd => .fpack f.h ty sty rnd (f.m 15 1 == 1) f.d f.a f.b f.w.c
  | 0x10D => f.t2r fun ty sty rnd => .funpk f.h ty sty rnd f.d f.a f.b f.w.c
  | _ => none

/-- S words of class 0x140 (R39). -/
def parseExact (f : SFields) : Option Instr :=
  match f.w.opc.toNat with
  | 0x140 => some (.xclr f.h (f.f8 9))
  | 0x141 => f.t.map fun ty => .xadd f.h ty (f.f8 9) f.a
  | 0x142 => f.t.map fun ty => .xmac f.h ty (f.f8 9) f.a f.b
  | 0x143 => f.tr fun ty rnd => .xrnd f.h ty rnd (f.m 12 1 == 1) (f.f8 9) f.d
  | 0x144 => some (.xmrg f.h (f.f8 9) (f.f8 12))
  | 0x145 => some (.xsave f.h (f.f8 9) f.a)
  | 0x146 => some (.xload f.h (f.f8 9) f.a)
  | _ => none

/-- S words of class 0x180 (R39). -/
def parseLanes (f : SFields) : Option Instr :=
  match f.w.opc.toNat with
  | 0x180 => (fin? 5 (f.m 0 3)).bind fun wid => (fin? 11 (f.m 11 4)).map fun seg => .shfl f.h wid (ShMode.ofCode (f.m 9 2)) seg f.d f.a f.b
  | 0x181 => (fin? 5 (f.m 0 3)).bind fun wid => (fin? 11 (f.m 11 4)).map fun seg => .shfli f.h wid (ShMode.ofCode (f.m 9 2)) seg f.d f.a f.w.c
  | 0x182 => (fin? 5 (f.m 0 3)).map fun wid => .bcast f.h wid (f.m 9 1 == 1) f.d f.a f.b
  | 0x183 => some (.ballot f.h f.ps f.d)
  | 0x184 => some (.vote f.h (VoteOp.ofCode (f.m 10 2)) (f.f8 0) ⟨f.f8 3, f.m 9 1 == 1⟩ f.a)
  | 0x185 => some (.matchK f.h (f.m 0 1 == 1) (f.m 9 1 == 1) f.d f.a)
  | 0x186 => some (.compact f.h f.ps f.d f.a)
  | 0x187 => f.seg?.bind fun seg => (COp.ofCode (f.m 9 3)).bind fun op => f.tr fun ty rnd => .scan f.h op ty rnd (f.m 12 1 == 1) seg f.d f.a f.b
  | 0x188 => f.seg?.bind fun seg => (COp.ofCode (f.m 9 3)).bind fun op => f.tr fun ty rnd => .sred f.h op ty rnd seg f.d f.a f.b
  | 0x189 => (fin? 4 (f.m 0 3)).map fun wid => .pcfg f.h wid (f.f8 9) f.a
  | 0x18A => some (.perm f.h (f.f8 9) f.d f.a)
  | 0x18B => if f.m 0 4 < 2 then none else (fin? 7 (f.m 0 4 - 2)).map fun k => .regroup f.h k f.d
  | 0x18C => some (.actmask f.h (f.m 0 1 == 1) f.d)
  | _ => none

/-- S words of class 0x1C0 (R39). -/
def parseMoves (f : SFields) : Option Instr :=
  match f.w.opc.toNat with
  | 0x1C0 => f.t.map fun ty => .mov f.h ty f.d f.a
  | 0x1C3 => some (.sel f.h f.ps f.d f.a f.b)
  | 0x1C4 => (PlOp.ofCode (f.m 14 2)).map fun op => .plop f.h op (f.f8 0) ⟨f.f8 3, f.m 9 1 == 1⟩ ⟨f.f8 10, f.m 13 1 == 1⟩
  | 0x1C5 => some (.pget f.h f.d)
  | 0x1C6 => some (.pput f.h (BitVec.ofNat 7 (f.m 9 7)) f.a)
  | 0x1C7 => f.t.map fun ty => .rand f.h ty f.d
  | 0x1C8 => (IdSel.ofCode (f.m 0 4)).map fun sel => .getid f.h sel f.d
  | _ => none

/-- S words of class 0x200 (R39). -/
def parseMemory (f : SFields) : Option Instr :=
  match f.w.opc.toNat with
  | 0x200 => (CHint.ofCode (f.m 15 2)).bind fun ch => f.t.map fun ty => .ldS f.h ty (Fin.ofNat 4 (f.m 9 2)) (f.ord? 11) ch f.d f.a f.b
  | 0x201 => (CHint.ofCode (f.m 15 2)).bind fun ch => f.t.map fun ty => .stS f.h ty (Fin.ofNat 4 (f.m 9 2)) (f.ord? 11) ch f.d f.a f.b
  | 0x202 => f.t.map fun ty => .ldsS f.h ty (Fin.ofNat 4 (f.m 9 2)) f.d f.a f.b
  | 0x203 => f.t.map fun ty => .stsS f.h ty (Fin.ofNat 4 (f.m 9 2)) f.d f.a f.b
  | 0x204 => f.t.map fun ty => .ldxS f.h ty (Fin.ofNat 4 (f.m 9 2)) f.d f.a f.b
  | 0x205 => f.t.map fun ty => .stxS f.h ty (Fin.ofNat 4 (f.m 9 2)) f.d f.a f.b
  | 0x206 => some (.prefS f.h (f.m 11 1 == 1) (f.m 12 1 == 1) (Fin.ofNat 4 (f.m 13 2)) (Fin.ofNat 4 (f.m 9 2)) f.a f.b)
  | 0x207 => some (.linv f.h (f.m 1 1 == 1) (if f.m 0 1 == 1 then none else some (f.a, f.b)))
  | _ => none

/-- S words of class 0x240 (R39). -/
def parseUpdates (f : SFields) : Option Instr :=
  match f.w.opc.toNat with
  | 0x240 => f.t.map fun ty => .cas f.h ty (f.m 9 1 == 1) (CasOrd.ofCode (f.m 10 2)) (Scope.ofCode (f.m 12 3)) f.d f.a f.b f.c
  | 0x241 => (COp.ofCode (f.m 14 3)).bind fun op => f.t.map fun ty => .red f.h op ty (f.m 9 1 == 1) (f.ord? 10) f.d f.a f.b
  | 0x242 => f.t.bind fun ty => (Ty.ofCode (f.m 9 6)).map fun sty => .xred f.h ty sty (f.m 15 1 == 1) f.a f.b
  | 0x243 => f.tr fun ty rnd => .xfin f.h ty rnd (f.m 9 1 == 1) (f.ord? 10) f.d f.a
  | 0x244 => some (.boff f.h (f.m 0 1 == 1))
  | _ => none

/-- S words of class 0x280 (R39). -/
def parseStreams (f : SFields) : Option Instr :=
  match f.w.opc.toNat with
  | 0x280 => some (.sqcfg f.h (f.f16 0) (f.m 4 1 == 1) f.a f.b)
  | 0x281 => some (.sqgo f.h (f.f16 0))
  | 0x282 => some (.sqstop f.h (f.f16 0) (f.m 4 1 == 1))
  | 0x283 => some (.sqstat f.h (f.f16 0) (f.m 4 1 == 1) f.d)
  | 0x284 => (CpyHint.ofCode (f.m 2 2)).map fun hint => .cpy f.h (f.m 0 1 == 1) (f.m 1 1 == 1) hint f.a f.b f.c
  | 0x285 => some (.cseal f.h f.d)
  | 0x286 => some (.cwait f.h (f.f16 0) (f.m 4 1 == 1))
  | 0x287 => some (.cpoll f.h (f.f16 0) (f.m 4 1 == 1) f.d)
  | _ => none

/-- S words of class 0x2C0 (R39). -/
def parseMatrix (f : SFields) : Option Instr :=
  match f.w.opc.toNat with
  | 0x2C0 => some (if f.m 12 1 == 1 then .mdeclRel f.h (f.f8 9) else .mdecl f.h (f.f8 9) f.a)
  | 0x2C1 => f.t.map fun ty => .mma f.h ty (f.f8 9) (f.f16 12) f.a (if f.m 16 1 == 1 then some f.b else none) f.c
  | 0x2C2 => some (.mldb f.h (f.m 15 1 == 1) f.a f.b f.c)
  | 0x2C3 => some (.mzero f.h f.a)
  | 0x2C4 => f.tr fun ty rnd => .mdrn f.h ty rnd (Fin.ofNat 4 (f.m 9 2)) (f.f16 11) (f.m 15 1 == 1)
  | 0x2C5 => (StaMode.ofCode (f.m 9 2)).bind fun mode => f.tr fun ty rnd => .msta f.h ty rnd mode (f.f16 11) (f.m 15 1 == 1) f.a f.b
  | 0x2C6 => f.t.map fun ty => .mldc f.h ty (f.f16 11) (f.m 15 1 == 1) f.a f.b
  | 0x2C7 => some (.macq f.h (f.f8 9) f.a)
  | 0x2C8 => some (.mrel f.h)
  | _ => none

/-- S words of class 0x300 (R39). -/
def parseSync (f : SFields) : Option Instr :=
  match f.w.opc.toNat with
  | 0x300 => some (.phreg f.h (PhMode.ofCode (f.m 0 2)) f.a)
  | 0x301 => some (.phdrop f.h f.a)
  | 0x302 => some (.phsig f.h f.a)
  | 0x303 => some (.phwait f.h f.a)
  | 0x304 => some (if f.m 0 1 == 1 then .phnxtSpec f.h f.a else .phnxt f.h f.a)
  | 0x305 => some (.phstat f.h f.d f.a)
  | 0x306 => (FenceKind.ofCode (f.m 9 2)).map fun k => .fence f.h k (Scope.ofCode (f.m 12 3))
  | 0x307 => some (.gred f.h (f.f8 9) f.a)
  | 0x308 => if f.m 12 1 == 1 then some (.gres f.h (.whole (f.f8 9)) f.a) else f.tr fun ty rnd => .gres f.h (.typed ty rnd f.d) f.a
  | _ => none

/-- S words of class 0x340 (R39). -/
def parseTx (f : SFields) : Option Instr :=
  match f.w.opc.toNat with
  | 0x340 => some (if f.m 0 1 == 1 then .txbOrd f.h f.d f.a else .txb f.h f.d)
  | 0x341 => some (.txe f.h (f.m 0 1 == 1))
  | 0x343 => some (.txs f.h f.d)
  | _ => none

/-- S words of class 0x380 (R39). -/
def parseSystem (f : SFields) : Option Instr :=
  match f.w.opc.toNat with
  | 0x380 => some (.csrr f.h (BitVec.ofNat 8 (f.m 9 8)) f.d)
  | 0x381 => (CsrOp.ofCode (f.m 0 2)).map fun op => .csrw f.h (BitVec.ofNat 8 (f.m 9 8)) op f.d f.a
  | 0x382 => some (.icinv f.h (if f.m 0 1 == 1 then none else some (f.a, f.b)))
  | 0x383 => some (if f.m 0 1 == 1 then .l2wayQ f.h f.d else .l2way f.h f.d f.a)
  | 0x384 => some (.gettime f.h f.d)
  | 0x385 => some (.mbox f.h f.d f.a f.b)
  | _ => none

/-- The instruction of an S word (R39): OPC[9:6] is the class. -/
def parseS (w : SWord) : Option Instr :=
  (Ctl.ofBits w.ctl).bind fun ctl =>
  let f : SFields := ⟨⟨ctl, Guard.ofBits w.pred, Retain.ofCode w.ret.toNat⟩, Opnd.ofIdx w.d,
    Opnd.ofIdx w.a, Opnd.ofIdx w.b, Opnd.ofIdx w.c, w⟩
  match w.opc.toNat / 64 with
  | 0 => parseControl f
  | 1 => parseInteger f
  | 2 => parseBits f
  | 3 => parseFloat f
  | 4 => parseSpecial f
  | 5 => parseExact f
  | 6 => parseLanes f
  | 7 => parseMoves f
  | 8 => parseMemory f
  | 9 => parseUpdates f
  | 10 => parseStreams f
  | 11 => parseMatrix f
  | 12 => parseSync f
  | 13 => parseTx f
  | 14 => parseSystem f
  | _ => none

/-- The instruction of an L word (R39). -/
def parseL (w : LWord) : Option Instr :=
  (Ctl.ofBits w.ctl).bind fun ctl =>
  let h : Hdr := ⟨ctl, Guard.ofBits w.pred, .none⟩
  let d := Opnd.ofIdx w.d
  let a := Opnd.ofIdx w.a
  let m : Nat → Nat → Nat := fld w.mod.toNat
  let t := Ty.ofCode (m 0 6)
  let pd := Fin.ofNat 8 w.d.toNat
  let cond := Cond.ofCode (w.d.toNat / 8 % 8)
  match w.opc.toNat with
  | 0x040 => t.map fun ty => .iaddL h ty (m 6 1 == 1) d a w.imm
  | 0x041 => t.map fun ty => .isubL h ty (m 6 1 == 1) d a w.imm
  | 0x042 => t.map fun ty => .imulL h ty (m 6 1 == 1) d a w.imm
  | 0x047 => t.map fun ty => .iminL h ty d a w.imm
  | 0x048 => t.map fun ty => .imaxL h ty d a w.imm
  | 0x04B => t.map fun ty => .icmpL h ty cond pd a w.imm
  | 0x04C => t.map fun ty => .leaL h ty d a w.imm
  | 0x080 => t.map fun ty => .andL h ty d a w.imm
  | 0x081 => t.map fun ty => .orL h ty d a w.imm
  | 0x082 => t.map fun ty => .xorL h ty d a w.imm
  | 0x083 => t.map fun ty => .andnL h ty d a w.imm
  | 0x084 => t.map fun ty => .shlL h ty d a w.imm
  | 0x085 => t.map fun ty => .shrL h ty d a w.imm
  | 0x086 => t.map fun ty => .sarL h ty d a w.imm
  | 0x087 => t.map fun ty => .rotL h ty d a w.imm
  | 0x1C2 => some (.movl h d w.imm)
  | 0x200 => (CHint.ofCode (m 6 2)).bind fun ch => t.map fun ty => .ldL h ty ch d a w.imm
  | 0x201 => (CHint.ofCode (m 6 2)).bind fun ch => t.map fun ty => .stL h ty ch d a w.imm
  | 0x202 => t.map fun ty => .ldsL h ty d a w.imm
  | 0x203 => t.map fun ty => .stsL h ty d a w.imm
  | 0x204 => t.map fun ty => .ldxL h ty d a w.imm
  | 0x205 => t.map fun ty => .stxL h ty d a w.imm
  | 0x206 => some (.prefL h (m 0 1 == 1) (m 1 1 == 1) (Fin.ofNat 4 (m 2 2)) a w.imm)
  | _ => none

/-- The paired word of a P word (R20). -/
def parseP (w : PWord) : Option Instr :=
  (Ctl.ofBits w.ctl).map fun ctl =>
    .pairedWord ⟨ctl, Guard.ofBits w.pred, Retain.ofCode w.ret.toNat⟩ w.opc1 w.opc2 (Opnd.ofIdx w.d1)
      (Opnd.ofIdx w.a1) (Opnd.ofIdx w.b1) (Opnd.ofIdx w.d2) (Opnd.ofIdx w.b2)

/-- The instruction that an item's used fields name. -/
def parse : Raw → Option Instr
  | .c w => parseC w
  | .s w => parseS w
  | .l w => parseL w
  | .p w => parseP w
  | .h _ => none

/-! ## Decoding -/

/-- Whether R39 assigns an OPC in the format of this item. -/
def opcKnown : Raw → Bool
  | .c w => [0x000, 0x001, 0x003, 0x005, 0x006, 0x007, 0x008, 0x009, 0x00A, 0x00B, 0x00C, 0x1C1,
      0x342, 0x386].contains w.opc.toNat
  | .s w => let o := w.opc.toNat
    o == 0x000 || o == 0x002 || o == 0x004 || (0x040 ≤ o && o ≤ 0x04C) || (0x080 ≤ o && o ≤ 0x095) ||
      (0x0C0 ≤ o && o ≤ 0x0CA) || (0x100 ≤ o && o ≤ 0x10D) || (0x140 ≤ o && o ≤ 0x146) ||
      (0x180 ≤ o && o ≤ 0x18C) || (0x1C0 ≤ o && o ≤ 0x1C8 && o != 0x1C1 && o != 0x1C2) ||
      (0x200 ≤ o && o ≤ 0x207) || (0x240 ≤ o && o ≤ 0x244) || (0x280 ≤ o && o ≤ 0x287) ||
      (0x2C0 ≤ o && o ≤ 0x2C8) || (0x300 ≤ o && o ≤ 0x308) || o == 0x340 || o == 0x341 ||
      o == 0x343 || (0x380 ≤ o && o ≤ 0x385)
  | .l w => [0x040, 0x041, 0x042, 0x047, 0x048, 0x04B, 0x04C, 0x080, 0x081, 0x082, 0x083, 0x084,
      0x085, 0x086, 0x087, 0x1C2, 0x200, 0x201, 0x202, 0x203, 0x204, 0x205, 0x206].contains
      w.opc.toNat
  | .p _ => true
  | .h _ => false

/-- Why an item that does not decode is refused (R40). -/
def whyNot (r : Raw) : Reject :=
  match r with
  | .h _ => .isHeader
  | r => if opcKnown r then .badField else .reservedOpc

/-- The instruction of an item, or why its encoding raises ILLEGAL_OPC (R21, R40). -/
def decode (r : Raw) : Except Reject Instr :=
  match parse r with
  | some i => if i.wf && encode i == some r then .ok i else .error (whyNot r)
  | none => .error (whyNot r)

/-- The value of little-endian bytes (R9). -/
def leValue : List Byte → Nat
  | [] => 0
  | b :: bs => b.toNat + 256 * leValue bs

/-- The `n` low bytes of a value, lowest first (R9). -/
def leBytes : Nat → Nat → List Byte
  | 0, _ => []
  | n + 1, x => BitVec.ofNat 8 x :: leBytes n (x / 256)

/-- Decoding of the item at the front of some bytes, with the bytes after it (R12). -/
def decodeBytes (bs : List Byte) : Except Reject (Instr × List Byte) :=
  let p0 := BitVec.ofNat 32 (leValue (bs.take 4))
  let n := 4 * parcelsOf p0
  if bs.length < n then .error .tooShort
  else
    match decode (Raw.ofBits (BitVec.ofNat 128 (leValue (bs.take n)))) with
    | .ok i => .ok (i, bs.drop n)
    | .error r => .error r

/-- The bytes in memory of an item's encoding (R9, R12). -/
def encodeBytes (i : Instr) : Option (List Byte) :=
  (encode i).map fun r => leBytes (4 * r.parcels) r.toBits.toNat

/-- What the decoder reads from an item whose bits are `w`, every bit from `nbits` up zero. -/
def decodeTableWord (nbits w : Nat) : Option Instr :=
  match decodeBytes (leBytes 16 (w % 2 ^ nbits)) with
  | .ok (i, _) => some i
  | .error _ => none

/-- A block header (R32). -/
structure Header where
  kind : BitVec 2
  blen : BitVec 10
  live : BitVec 10
  reconv : BitVec 24
  pfh : BitVec 8
  top : BitVec 8
deriving DecidableEq, Repr, Inhabited

/-- The register that an item's RET names, from its encoding alone (R18, R20, R31). -/
def retOf (v : BitVec 128) : Option (Fin 768) :=
  let reg := fun (o : BitVec 10) =>
    match Opnd.ofIdx o with
    | .v n => some n
    | _ => none
  let pick := fun (ret : BitVec 2) (a b c : BitVec 10) =>
    match Retain.ofCode ret.toNat with
    | .none => none
    | .a => reg a
    | .b => reg b
    | .c => reg c
  match Raw.ofBits v with
  | .s w => pick w.ret w.a w.b w.c
  | .p w => pick w.ret w.a1 w.b1 w.b1
  | _ => none

/-- The header whose 64 bits are `b` (R32). -/
def Header.ofBits (b : BitVec 64) : Header :=
  ⟨b.extractLsb' 2 2, b.extractLsb' 4 10, b.extractLsb' 14 10, b.extractLsb' 24 24,
    b.extractLsb' 48 8, b.extractLsb' 56 8⟩

/-- R33: a header that does not raise ILLEGAL_OPC when a thread enters it. -/
def Header.ok (h : Header) : Bool :=
  h.kind != 3 && 2 ≤ h.blen.toNat && h.live.toNat ≤ 768 && h.top == 0

end Sys2Proof
end

