-- ==== Sys2Proof/Machine/Access.lean ====
section
/-! DEFINITION. Access.lean: the objects of the state by number, and what one object tells of another:
a group's team, launch and partition; a core's cluster and die; the fields of a launch descriptor. -/

namespace Sys2Proof.Machine

/-! ## Time (R2, R10) -/

/-- Global time: one tick in four core cycles. -/
def gtOf (s : State) : Nat := s.cycle / Config.cyclesPerTick % 2 ^ 64

/-! ## Objects -/

def grpAt (s : State) (g : Nat) : Group := mapGet default s.groups g
def putGrp (s : State) (g : Nat) (x : Group) : State := { s with groups := mapPut s.groups g x }
def modGrp (s : State) (g : Nat) (f : Group → Group) : State := putGrp s g (f (grpAt s g))

def teamAt (s : State) (t : Nat) : Team := mapGet default s.teams t
def modTeam (s : State) (t : Nat) (f : Team → Team) : State :=
  { s with teams := mapPut s.teams t (f (teamAt s t)) }

def launchAt (s : State) (l : Nat) : Launch := mapGet default s.launches l
def modLaunch (s : State) (l : Nat) (f : Launch → Launch) : State :=
  { s with launches := mapPut s.launches l (f (launchAt s l)) }

def partAt (s : State) (p : Nat) : Partition := mapGet default s.parts p
def modPart (s : State) (p : Nat) (f : Partition → Partition) : State :=
  { s with parts := mapPut s.parts p (f (partAt s p)) }

def coreAt (s : State) (c : Nat) : Core := mapGet default s.cores c
def modCore (s : State) (c : Nat) (f : Core → Core) : State :=
  { s with cores := mapPut s.cores c (f (coreAt s c)) }

/-- Quarter `q` of core `c`. -/
def quartNo (c q : Nat) : Nat := 4 * c + q
def quartAt (s : State) (n : Nat) : Quarter := mapGet default s.quarters n
def modQuart (s : State) (n : Nat) (f : Quarter → Quarter) : State :=
  { s with quarters := mapPut s.quarters n (f (quartAt s n)) }

def sliceAt (s : State) (n : Nat) : Slice := mapGet default s.slices n
def modSlice (s : State) (n : Nat) (f : Slice → Slice) : State :=
  { s with slices := mapPut s.slices n (f (sliceAt s n)) }

def blockAt (s : State) (n : Nat) : TlbBlock := mapGet default s.blocks n
def modBlock (s : State) (n : Nat) (f : TlbBlock → TlbBlock) : State :=
  { s with blocks := mapPut s.blocks n (f (blockAt s n)) }

def phaserAt (s : State) (n : Nat) : Phaser := mapGet default s.phasers n
def modPhaser (s : State) (n : Nat) (f : Phaser → Phaser) : State :=
  { s with phasers := mapPut s.phasers n (f (phaserAt s n)) }

/-- A number no object has yet. -/
def freshId (s : State) : Nat × State := (s.nextId, { s with nextId := s.nextId + 1 })

/-- A choice the specification leaves open, below `n` (a free value). -/
def freeChoice (s : State) (n : Nat) : Nat × State :=
  (Config.freeChoice s.free % n, { s with free := s.free + 1 })

/-- A word the specification leaves open (a free value). -/
def freeWord (s : State) : Word × State := (Config.freeWord s.free, { s with free := s.free + 1 })

/-! ## The part (R3, R4) -/

/-- Drag dies. -/
def Variant.dies : Variant → Nat
  | .xb4 | .xb4s => 4
  | .xb2 => 2

/-- VARIANT of CAP0. -/
def Variant.code : Variant → Nat
  | .xb4 => 1
  | .xb4s => 2
  | .xb2 => 3

/-- Whether the scale-out ports, the assay unit and FP64 exact accumulation are present (R3). -/
def Variant.scaleout : Variant → Bool
  | .xb4 => true
  | _ => false
def Variant.assay : Variant → Bool
  | .xb4s => false
  | _ => true
def Variant.xf64 : Variant → Bool
  | .xb2 => false
  | _ => true

/-- Clusters and cores of the package. -/
def Variant.clusters (v : Variant) : Nat := v.dies * Config.clustersPerDie
def Variant.cores (v : Variant) : Nat := v.clusters * Config.coresPerCluster

/-! ## Places (R2, R71, R387) -/

def clusterOf (core : Nat) : Nat := core / Config.coresPerCluster
def dieOf (cluster : Nat) : Nat := cluster / Config.clustersPerDie
def coreDie (core : Nat) : Nat := dieOf (clusterOf core)

/-- Clusters of a partition. -/
def Partition.count (p : Partition) : Nat := 2 ^ p.logn
def Partition.clusters (p : Partition) : List Nat := (List.range p.count).map (p.first + ·)
def Partition.cores (p : Partition) : List Nat :=
  (List.range (p.count * Config.coresPerCluster)).map (p.first * Config.coresPerCluster + ·)

/-- The drag dies that hold clusters of a partition, ascending. -/
def Partition.dies (p : Partition) : List Nat := dedup (p.clusters.map dieOf)

/-- Cd: the partition's clusters on die `d` (R50). -/
def Partition.onDie (p : Partition) (d : Nat) : List Nat := p.clusters.filter fun c => dieOf c = d

/-- The partition that holds a cluster. -/
def partOfCluster (s : State) (c : Nat) : Option Nat :=
  (s.parts.find? fun e => e.2.clusters.contains c).map (·.1)

/-- The cores a partition may use: not mapped out in the flash or since start-up (R8, R346, R400). -/
def coreEnabled (s : State) (c : Nat) : Bool :=
  !s.flash.mappedOut.contains c && !(coreAt s c).mappedOut
def enabledCores (s : State) (p : Partition) : List Nat := p.cores.filter (coreEnabled s)

/-! ## Descriptor fields (R410) -/

/-- Bits `[hi : lo]` of the 64-bit word at byte `off` of a descriptor. -/
def Launch.fieldOf (d : BitVec 2048) (off lo w : Nat) : Nat := bits d.toNat (8 * off + lo) w

def Launch.code (l : Launch) : Nat := Launch.fieldOf l.desc 0 0 64
def Launch.argsVa (l : Launch) : Nat := Launch.fieldOf l.desc 8 0 64
def Launch.rangesVa (l : Launch) : Nat := Launch.fieldOf l.desc 16 0 64
def Launch.sliceVa (l : Launch) : Nat := Launch.fieldOf l.desc 24 0 64
def Launch.phasersVa (l : Launch) : Nat := Launch.fieldOf l.desc 32 0 64
def Launch.xvec (l : Launch) : Nat := Launch.fieldOf l.desc 40 0 64
def Launch.key (l : Launch) : Nat := Launch.fieldOf l.desc 48 0 64
def Launch.bitmap (l : Launch) : Nat := Launch.fieldOf l.desc 56 0 64
def Launch.donea (l : Launch) : Nat := Launch.fieldOf l.desc 64 0 64
def Launch.donev (l : Launch) : Nat := Launch.fieldOf l.desc 72 0 64
def Launch.depa (l : Launch) (i : Nat) : Nat := Launch.fieldOf l.desc (80 + 16 * i) 0 64
def Launch.depv (l : Launch) (i : Nat) : Nat := Launch.fieldOf l.desc (88 + 16 * i) 0 64
def Launch.teamx (l : Launch) : Nat := Launch.fieldOf l.desc 144 0 16
def Launch.teamy (l : Launch) : Nat := Launch.fieldOf l.desc 144 16 16
def Launch.teamz (l : Launch) : Nat := Launch.fieldOf l.desc 144 32 16
def Launch.ngroup (l : Launch) : Nat := Launch.fieldOf l.desc 144 48 8
def Launch.widthCode (l : Launch) : Nat := Launch.fieldOf l.desc 144 56 2
def Launch.width (l : Launch) : Nat := 16 * 2 ^ l.widthCode
def Launch.regs (l : Launch) : Nat := Launch.fieldOf l.desc 152 0 10
def Launch.scratch (l : Launch) : Nat := Launch.fieldOf l.desc 152 10 20
def Launch.txr (l : Launch) : Nat := Launch.fieldOf l.desc 152 30 6
def Launch.txw (l : Launch) : Nat := Launch.fieldOf l.desc 152 36 5
def Launch.atiles (l : Launch) : Nat := Launch.fieldOf l.desc 152 41 5
def Launch.brows (l : Launch) : Nat := Launch.fieldOf l.desc 152 46 11
def Launch.nrange (l : Launch) : Nat := Launch.fieldOf l.desc 160 0 6
def Launch.nslice (l : Launch) : Nat := Launch.fieldOf l.desc 160 6 5
def Launch.nph (l : Launch) : Nat := Launch.fieldOf l.desc 160 11 4
def Launch.prioField (l : Launch) : Nat := Launch.fieldOf l.desc 160 15 3
def Launch.snapOn (l : Launch) : Bool := Launch.fieldOf l.desc 160 18 1 = 1
def Launch.det (l : Launch) : Bool := Launch.fieldOf l.desc 160 19 1 = 1
def Launch.isPair (l : Launch) : Bool := Launch.fieldOf l.desc 160 20 1 = 1
def Launch.ndep (l : Launch) : Nat := Launch.fieldOf l.desc 160 21 3
def Launch.asid (l : Launch) : Nat := Launch.fieldOf l.desc 160 24 16
def Launch.ring (l : Launch) : Nat := Launch.fieldOf l.desc 160 40 2
def Launch.quantum (l : Launch) : Nat := Launch.fieldOf l.desc 168 0 32
def Launch.tag (l : Launch) : Nat := Launch.fieldOf l.desc 168 32 32
def Launch.nteams (l : Launch) : Nat := l.teamx * l.teamy * l.teamz

/-! ## A group's surroundings -/

/-- A team's first physical tile and window word on a quarter (R244). -/
def Team.tileBase (t : Team) (n : Nat) : Nat := mapGet 0 t.tile0 n
def Team.rowBase (t : Team) (n : Nat) : Nat := mapGet 0 t.row0 n


def teamOf (s : State) (g : Nat) : Team := teamAt s (grpAt s g).team
def lidOf (s : State) (g : Nat) : Nat := (teamOf s g).lid
def launchOf (s : State) (g : Nat) : Launch := launchAt s (lidOf s g)
def asidOf (s : State) (g : Nat) : Nat := (launchOf s g).asid
def partOf (s : State) (g : Nat) : Partition := partAt s (launchOf s g).part

/-- The quarter that a group runs on. -/
def Group.quart (g : Group) : Nat := quartNo g.core g.quarter

/-- Lane `l`'s thread. -/
def Group.thread (g : Group) (l : Nat) : Thread := g.threads.getD l default
def Group.modThread (g : Group) (l : Nat) (f : Thread → Thread) : Group :=
  { g with threads := listMod g.threads l f }
def modThread (s : State) (g l : Nat) (f : Thread → Thread) : State :=
  modGrp s g (Group.modThread · l f)

/-- Changes the thread of every lane of a mask. -/
def Group.modLanes (g : Group) (m : Mask) (f : Nat → Thread → Thread) : Group :=
  { g with threads := g.threads.mapIdx fun l t => if hasBit m l then f l t else t }

/-- Lanes whose thread has started and not exited (R169). -/
def Group.live (g : Group) : Mask := maskWhere g.width fun l => (g.thread l).status == .running

/-- Lanes with an open transaction. -/
def Group.txLanes (g : Group) : Mask :=
  maskWhere g.width fun l => (g.thread l).status == .running && (g.thread l).tx.active

/-- Lanes a pick may find at address `pc` (R160, R353): running, at `pc`, waiting for nothing, and in
privileged mode of the handler population (R368). -/
def Group.activeAt (g : Group) (pc : Word) : Mask :=
  maskWhere g.width fun l =>
    let t := g.thread l
    t.status == .running && t.wait == .none && t.pc == pc && (!g.priv || hasBit g.handler l)

/-- A stream queue and a drain port of a group. -/
def Group.queue (g : Group) (q : Nat) : Queue := mapGet default g.queues q
def Group.modQueue (g : Group) (q : Nat) (f : Queue → Queue) : Group :=
  { g with queues := mapPut g.queues q (f (g.queue q)) }
def Group.drain (g : Group) (d : Nat) : Drain := mapGet default g.drains d
def Group.modDrain (g : Group) (d : Nat) (f : Drain → Drain) : Group :=
  { g with drains := mapPut g.drains d (f (g.drain d)) }

/-- Completion flag `f`. -/
def Group.flag (g : Group) (f : Nat) : Nat := mapGet 0 g.flags f

/-! ## Capability registers (R4, R5) -/

/-- The cores recorded as mapped out at the last start-up: CORES and PCORES count a core mapped out
later until the next start-up (R8). -/
def mappedAtStart (s : State) : List Nat :=
  s.flash.mappedOut.filter fun c => !(coreAt s c).mappedOut

/-- CAP0. The flash's per-die enable maps and repair maps have no content in the specification: here every core of the part
is enabled but those that are mapped out (R4; DESIGN CHOICE, log entry 77). -/
def cap0 (s : State) : Word :=
  let v := s.variant
  BitVec.ofNat 64 (2 ^ v.dies - 1 + (2 ^ (2 * v.dies) - 1) * 2 ^ 4 + v.clusters * 2 ^ 12
    + (v.cores - (mappedAtStart s).length) * 2 ^ 19 + v.scaleout.toNat * 2 ^ 32
    + v.assay.toNat * 2 ^ 33 + v.xf64.toNat * 2 ^ 34 + 3 * 2 ^ 36 + v.code * 2 ^ 40)

/-- CAP1 of a partition, for a launch submitted through virtual function `vfidx` of it. -/
def cap1 (s : State) (part vfidx : Nat) : Word :=
  let p := partAt s part
  let cores := (p.cores.filter fun c => !(mappedAtStart s).contains c).length
  BitVec.ofNat 64 (p.count + p.logn * 2 ^ 7 + (maskOf 4 p.dies).toNat * 2 ^ 10 + cores * 2 ^ 14
    + part * 2 ^ 23 + vfidx * 2 ^ 29)

end Sys2Proof.Machine
end

