-- ==== Sys2Proof/Machine/Translate.lean ====
section
/-! DEFINITION. Translate.lean: physical addresses, channels and slices, page entries and the
three-level walk (R50, R51, R55 to R58, R66, R72, R74, R75). -/

namespace Sys2Proof.Machine

/-- The XOR of the `w`-bit fields of a 52-bit `x` from bit `lo` upwards that lie wholly below bit 52
(the loops of R51 and R72). -/
def xorFields (x lo w : Nat) : Nat :=
  if w = 0 then 0 else ((List.range ((52 - lo) / w)).map fun j => bits x (lo + w * j) w).foldl Nat.xor 0

/-- The XOR of the `w`-bit fields from bit 7, the short top field zero-extended (R74). -/
def xorLineFields (va w : Nat) : Nat :=
  if w = 0 then 0
  else ((List.range ((45 + w - 1) / w)).map fun j =>
    bits (va % 2 ^ 52) (7 + w * j) (min w (52 - (7 + w * j)))).foldl Nat.xor 0

/-! ## Physical addresses -/

/-- Where a byte of a partition's physical address space lives. -/
inductive Home where
  /-- Byte of HBM: global channel times channel bytes plus offset. -/
  | hbm (a : Nat)
  | carved (off : Nat)
  | host (hpa : Nat)
deriving DecidableEq, Repr, Inhabited

/-- Bytes of HBM that `n` clusters hold (R50). -/
def backedBytes (n : Nat) : Nat := n * 4 * Config.channelBytes

/-- The HBM byte at die-local offset `o` of die `d` (R72). -/
def dieHome (p : Partition) (d o : Nat) : Nat :=
  let cs := p.onDie d
  let c := log2 (4 * cs.length)
  let ch := xorFields o 8 c
  let off := bits o (8 + c) 44 * 256 + o % 256
  let cluster := cs.getD (ch / 4) 0
  (64 * d + 4 * (cluster % Config.clustersPerDie) + ch % 4) * Config.channelBytes + off

/-- The die and die-local offset of a striped address (R51). -/
def stripe (p : Partition) (pa : Nat) : Nat × Nat :=
  let ds := p.dies
  let m := log2 ds.length
  let k := xorFields pa 12 m
  (ds.getD k 0, bits pa (12 + m) 40 * 4096 + pa % 4096)

/-- An entry of the carve queue that changes nothing: L2WAY.Q (R85). -/
abbrev carveQuery : Nat := 16

/-- Bytes of carved storage of a partition (R84). -/
def carvedBytes (p : Partition) : Nat := p.ways * 0x180000 * p.count

/-- Whether a host physical address lies in a host range of the partition (R50, R405). -/
def inHostRange (p : Partition) (hpa : Nat) : Bool :=
  p.hostRanges.any fun e => e.2.1 * 65536 ≤ hpa && hpa < (e.2.1 + e.2.2) * 65536

/-- The backed byte at a partition physical address, if it is backed (R50). -/
def homeOf (p : Partition) (pa : Nat) : Option Home :=
  let w := pa / 2 ^ 40
  if w = 0 then
    if pa < backedBytes p.count then
      let (d, o) := stripe p pa
      some (.hbm (dieHome p d o))
    else none
  else if w ≤ 4 then
    let d := w - 1
    let o := pa % 2 ^ 40
    if o < backedBytes (p.onDie d).length then some (.hbm (dieHome p d o)) else none
  else if w = 5 then
    let o := pa % 2 ^ 40
    if o < carvedBytes p then some (.carved o) else none
  else if 2 ^ 51 ≤ pa && pa < 2 ^ 52 then
    let h := pa - 2 ^ 51
    if inHostRange p h then some (.host h) else none
  else none

/-- The global channel of a byte of HBM, and its die. -/
def chanOf (a : Nat) : Nat := a / Config.channelBytes
def hbmDie (a : Nat) : Nat := chanOf a / 64

/-- One byte at a home. -/
def homeRead (s : State) (part : Nat) : Home → Byte
  | .hbm a => memRead s.hbm a
  | .carved o => memRead (partAt s part).carved o
  | .host h => memRead s.hostMem h

def homeWrite (s : State) (part : Nat) (b : Byte) : Home → State
  | .hbm a => { s with hbm := memWrite s.hbm a b }
  | .carved o => modPart s part fun p => { p with carved := memWrite p.carved o b }
  | .host h => { s with hostMem := memWrite s.hostMem h b }

/-- The home `i` bytes on from another, within one granule. -/
def Home.plus (h : Home) (i : Nat) : Home :=
  match h with
  | .hbm a => .hbm (a + i)
  | .carved o => .carved (o + i)
  | .host x => .host (x + i)

/-- `n` bytes at a home, little-endian. -/
def homeReadLE (s : State) (part : Nat) (h : Home) : Nat → Nat
  | 0 => 0
  | n + 1 => (homeRead s part h).toNat + 256 * homeReadLE s part (h.plus 1) n

def homeWriteLE (s : State) (part : Nat) (h : Home) : Nat → Nat → State
  | 0, _ => s
  | n + 1, x => homeWriteLE (homeWrite s part (BitVec.ofNat 8 x) h) part (h.plus 1) n (x / 256)

/-- Writes the bytes named by a mask (bit `i` of `m` for byte `i`) of a little-endian value. -/
def homeWriteMask (s : State) (part : Nat) (h : Home) (x m : Nat) : Nat → Nat → State
  | _, 0 => s
  | i, n + 1 =>
    let s := if bits m i 1 = 1 then homeWrite s part (BitVec.ofNat 8 (bits x (8 * i) 8)) (h.plus i) else s
    homeWriteMask s part h x m (i + 1) n

/-- `n` bytes at a physical address that is a multiple of `n`; `none` outside the backed windows. -/
def paRead (s : State) (part pa n : Nat) : Option Nat :=
  (homeOf (partAt s part) pa).map fun h => homeReadLE s part h n

/-- `n` bytes at a physical address of any alignment, byte by byte. -/
def paReadBytes (s : State) (part pa : Nat) : Nat → List Byte
  | 0 => []
  | n + 1 =>
    ((homeOf (partAt s part) pa).map (homeRead s part)).getD 0 :: paReadBytes s part (pa + 1) n

def paWriteBytes (s : State) (part pa : Nat) : List Byte → State
  | [] => s
  | b :: bs =>
    let s := match homeOf (partAt s part) pa with
      | some h => homeWrite s part b h
      | none => s
    paWriteBytes s part (pa + 1) bs

/-! ## Slices -/

/-- The slice set a region code names, in die-major order (R53). -/
def sliceList (p : Partition) (code : Nat) : List Nat :=
  if 4 ≤ code && code ≤ 7 && !(p.onDie (code - 4)).isEmpty then p.onDie (code - 4) else p.clusters

/-- The slice of a line (R74). -/
def sliceFor (p : Partition) (code asid va : Nat) : Nat :=
  let l := sliceList p code
  let n := log2 l.length
  l.getD (Nat.xor (asid % 2 ^ n) (xorLineFields va n)) 0

/-- A line's set in its slice (R75) and in an L1 of `sets` sets (R128). -/
def sliceSet (asid line : Nat) : Nat := Nat.xor line asid % Config.sliceSets
def l1Set (sets asid line : Nat) : Nat := if sets = 0 then 0 else Nat.xor line asid % sets

/-- The region code that a launch holds for an address (R54). -/
def regionCode (l : Launch) (va : Nat) : Nat := mapGet 0 l.regions (bits va 30 22)

/-- The region code of the table itself: code i in byte i/2, low nibble when i is even (R53). Where REGBASE lies outside what
is backed the specification gives no code: here 0 (DESIGN CHOICE, log entry 80). -/
def tableCode (s : State) (part va : Nat) : Nat :=
  let i := bits va 30 22
  let p := partAt s part
  match paRead s part (p.regbase.toNat + i / 2) 1 with
  | some b => bits b (4 * (i % 2)) 4
  | none => 0

/-- The slice that an access of a launch goes to. -/
def sliceOf (s : State) (lid asid va : Nat) : Nat :=
  let l := launchAt s lid
  sliceFor (partAt s l.part) (regionCode l va) asid va

/-- The slice and die of an offset in carved storage (R84). -/
def carvedSlice (p : Partition) (off : Nat) : Nat := p.clusters.getD (off / 128 % p.count) 0

/-! ## Page entries (R57) -/

def pteV (e : Nat) : Bool := bits e 0 1 = 1
def pteR (e : Nat) : Bool := bits e 1 1 = 1
def pteW (e : Nat) : Bool := bits e 2 1 = 1
def pteX (e : Nat) : Bool := bits e 3 1 = 1
def pteA (e : Nat) : Bool := bits e 4 1 = 1
def pteD (e : Nat) : Bool := bits e 5 1 = 1
def ptePlace (e : Nat) : Nat := bits e 6 3
def pteDie (e : Nat) : Nat := bits e 9 2
def pteLc (e : Nat) : Nat := if ptePlace e = 2 then 0 else bits e 11 2
/-- SNAP: the specification gives the bit no effect of its own; copy-before-write goes by the launch's ranges (R57, R70;
DEDUCED, log entry 79). -/
def pteSnap (e : Nat) : Bool := bits e 13 1 = 1
def pteSa (e : Nat) : Bool := bits e 14 1 = 1
def pteGlobal (e : Nat) : Bool := bits e 15 1 = 1
def pteFrame (e : Nat) : Nat := bits e 16 36
def pteLeaf (e : Nat) : Bool := pteR e || pteW e || pteX e

/-- Whether ranges, each a base and an end, cover `[a, b)` between them: from `a` on, each step goes to the end of
a range that holds where it stands. -/
def coveredBy (rs : List (Nat × Nat)) (b : Nat) : Nat → Nat → Bool
  | 0, a => b ≤ a
  | n + 1, a =>
    b ≤ a ||
    match rs.find? fun r => r.1 ≤ a && a < r.2 with
    | some r => coveredBy rs b n r.2
    | none => false

/-- Whether `[pa, pa + size)` lies wholly in the backed part of the window that PLACE (and DIE) name. -/
def backedIn (p : Partition) (place die pa size : Nat) : Bool :=
  if place = 0 then pa + size ≤ backedBytes p.count
  else if place = 1 then
    pa / 2 ^ 40 = die + 1 && pa % 2 ^ 40 + size ≤ backedBytes (p.onDie die).length
  else if place = 2 then
    2 ^ 51 ≤ pa && coveredBy (p.hostRanges.map fun e => (e.2.1 * 65536, (e.2.1 + e.2.2) * 65536))
      (pa - 2 ^ 51 + size) p.hostRanges.length (pa - 2 ^ 51)
  else
    pa / 2 ^ 40 = 5 && pa % 2 ^ 40 + size ≤ carvedBytes p

/-- Whether an address lies in the backed striped or die-local window. -/
def backedHbm (p : Partition) (pa : Nat) : Bool :=
  match homeOf p pa with
  | some (.hbm _) => true
  | _ => false

/-- Whether a leaf breaks a condition of R58, for a page of `size` bytes. -/
def leafBad (p : Partition) (e size : Nat) : Bool :=
  bits e 52 12 ≠ 0 || (pteW e && !pteR e) || 4 ≤ ptePlace e
  || (pteDie e ≠ 0 && ptePlace e ≠ 1) || (ptePlace e = 1 && (p.onDie (pteDie e)).isEmpty)
  || (size ≠ 65536 && bits (pteFrame e) 0 12 ≠ 0)
  || !backedIn p (ptePlace e) (pteDie e) (pteFrame e * 65536) size

/-- Whether a pointer breaks a condition of R58: bits [15:4] and [63:52] zero, frame backed. -/
def pointerBad (p : Partition) (e : Nat) : Bool :=
  bits e 4 12 ≠ 0 || bits e 52 12 ≠ 0 || !backedHbm p (pteFrame e * 65536)

/-- How a walk ends (R56 to R58). -/
inductive Walk where
  | leaf (pa entry entryPa : Nat) (large : Bool)
  | absent (entryPa : Nat)
  | placement
deriving DecidableEq, Repr, Inhabited

/-- Reads a table entry; the walker reads memory at the home controller and no slice (R56, R62). -/
def readEntry (s : State) (part pa : Nat) : Option Nat :=
  if backedHbm (partAt s part) pa then paRead s part pa 8 else none

/-- The walk of R56 from the level C table. -/
def walkC (s : State) (part va frame : Nat) : Walk :=
  let pa := frame * 65536 + 8 * bits va 16 12
  match readEntry s part pa with
  | none => .placement
  | some e =>
    if !pteV e then .absent pa
    else if !pteLeaf e then .placement
    else if leafBad (partAt s part) e 65536 then .placement
    else .leaf (pteFrame e * 65536 + va % 65536) e pa false

def walkB (s : State) (part va frame : Nat) : Walk :=
  let pa := frame * 65536 + 8 * bits va 28 12
  match readEntry s part pa with
  | none => .placement
  | some e =>
    if !pteV e then .absent pa
    else if pteLeaf e then
      if leafBad (partAt s part) e (2 ^ 28) then .placement
      else .leaf (pteFrame e * 65536 + va % 2 ^ 28) e pa true
    else if pointerBad (partAt s part) e then .placement
    else walkC s part va (pteFrame e)

def walkA (s : State) (part va frame : Nat) : Walk :=
  let pa := frame * 65536 + 8 * bits va 40 12
  match readEntry s part pa with
  | none => .placement
  | some e =>
    if !pteV e then .absent pa
    else if pteLeaf e then .placement
    else if pointerBad (partAt s part) e then .placement
    else walkB s part va (pteFrame e)

/-- The ASID table's entry of an ASID, if its address is backed (R55, R58). -/
def asidEntry (s : State) (part asid : Nat) : Option Nat :=
  readEntry s part ((partAt s part).asidbase.toNat + 8 * asid)

/-- Whether a root is malformed (R58). -/
def rootBad (p : Partition) (e : Nat) : Bool :=
  bits e 1 15 ≠ 0 || bits e 52 12 ≠ 0 || !pteV e || !backedHbm p (pteFrame e * 65536)

/-- The whole walk of R56. -/
def walk (s : State) (part asid va : Nat) : Walk :=
  match asidEntry s part asid with
  | none => .placement
  | some e => if rootBad (partAt s part) e then .placement else walkA s part va (pteFrame e)

/-- The entries that a walk reads, in order, each with its address (R56). -/
def walkTrace (s : State) (part asid va : Nat) : List (Nat × Nat) :=
  let p := partAt s part
  let at_ := fun (frame lo : Nat) => frame * 65536 + 8 * bits va lo 12
  let read := fun (pa : Nat) => (readEntry s part pa).getD 0
  let ptr := fun (e : Nat) => pteV e && !pteLeaf e && !pointerBad p e
  let r := p.asidbase.toNat + 8 * asid
  match readEntry s part r with
  | none => []
  | some e0 =>
    if rootBad p e0 then [(r, e0)]
    else
      let a := at_ (pteFrame e0) 40
      let e1 := read a
      if !ptr e1 then [(r, e0), (a, e1)]
      else
        let b := at_ (pteFrame e1) 28
        let e2 := read b
        if !ptr e2 then [(r, e0), (a, e1), (b, e2)]
        else
          let c := at_ (pteFrame e2) 16
          [(r, e0), (a, e1), (b, e2), (c, read c)]

/-! ## Ranges (R64, R67) -/

def Range.stop (r : Range) : Nat := r.base + 65536 * r.pages
def Range.has (r : Range) (va : Nat) : Bool := r.base ≤ va && va < r.stop

/-- The launch's range that holds an address. -/
def rangeOf (l : Launch) (va : Nat) : Option Range := l.ranges.find? (·.has va)

def pageOf (va : Nat) : Nat := va / 65536

def residency (s : State) (lid asid va : Nat) : Resident :=
  let l := launchAt s lid
  match walk s l.part asid va with
  | .leaf .. => .yes
  | .absent _ => if l.pins.contains (pageOf va) then .lease else .no
  | .placement => .placement

/-- Pins a page that a walk of the launch has found resident (R65). -/
def pinPage (s : State) (lid page : Nat) : State :=
  if (launchAt s lid).pins.contains page then s
  else modLaunch s lid fun l => { l with pins := page :: l.pins }

/-- Check 5 of R67 for a page, given what the walk found. -/
def residentCause : Resident → Option CauseCode
  | .yes => none
  | .no => some .elastic
  | .lease => some .lease
  | .placement => some .placement

end Sys2Proof.Machine
end

