-- ==== Sys2Proof/Machine/Ops.lean ====
section
/-! DEFINITION. Ops.lean: the named operations over registers, scratchpad, instruction lines and
mailboxes; taking a cause and returning from one (R365 to R375, R381); entering blocks and
reconvergence (R33 to R35, R355). -/

namespace Sys2Proof.Machine

/-! ## Registers (R28, R162, R163) -/

/-- A vector register of a thread: 0 when nothing has been written (R164). -/
def readV (t : Thread) (n : Nat) : Word := mapGet 0 t.v n
def writeV (t : Thread) (n : Nat) (x : Word) : Thread := { t with v := mapSet 0 t.v n x }

/-- A uniform register of a group. -/
def readS (g : Group) (n : Nat) : Word := mapGet 0 g.s n
def writeS (g : Group) (n : Nat) (x : Word) : Group := { g with s := mapSet 0 g.s n x }

/-- A predicate: p7 reads 1 (R162). -/
def readP (t : Thread) (i : Nat) : Bool := if i = 7 then true else hasBit t.p i
/-- A write to p7 is discarded (R162). -/
def writeP (t : Thread) (i : Nat) (b : Bool) : Thread :=
  if i = 7 then t
  else { t with p := if b then t.p ||| bitMask 7 i else t.p &&& ~~~(bitMask 7 i) }

/-- What an operand buffer keeps once a lane's register is written (R31). -/
def dropKept (kept : List (Nat × Mask)) (n l : Nat) : List (Nat × Mask) :=
  kept.map fun e => if e.1 = n then (e.1, e.2 &&& ~~~(bitMask 64 l)) else e

/-- Makes one register write; the operand buffer drops a lane's value when its register is written
(R31). -/
def applyWrite (g : Group) (w : RegWrite) : Group :=
  match w.dest with
  | .v l n =>
    let g := g.modThread l fun t => writeV { t with poison := t.poison.filter (· ≠ n) } n w.val
    { g with obuf := dropKept g.obuf n l, obufPrev := dropKept g.obufPrev n l }
  | .s n => writeS { g with sPoison := g.sPoison.filter (· ≠ n) } n w.val
  | .p l i => g.modThread l fun t => writeP t i (hasBit w.val 0)

/-- Makes writes in order. -/
def applyWrites (g : Group) (ws : List RegWrite) : Group := ws.foldl applyWrite g

/-- Whether a write that another instruction has made in the same core cycle stays: in sN that of the lower lowest executing
lane, in vN and pN that of the instruction issued later (R163, R358). -/
def staysBefore (g : Group) (op low : Nat) (d : Dest) : Bool :=
  g.landed.any fun e => e.1 = d &&
    match d with
    | .s _ => if e.2.2 = low then decide (op < e.2.1) else decide (e.2.2 < low)
    | _ => decide (op < e.2.1)

/-- Whether a group is past PHNXT.SPEC and its speculation has not been resolved (R303, R310). -/
def Group.speculative (g : Group) : Bool :=
  g.spec.st = .speculating || g.spec.st = .stalled || g.spec.st = .validating

/-- A write to a predicate or a uniform register, of an instruction issued before the speculation, enters what a rollback
restores: only the speculation's own writes are undone (R304, R308; log entry 73). -/
def keepWrite (op : Nat) (w : RegWrite) (g : Group) : Group :=
  if !g.speculative || g.spec.firstOp ≤ op then g
  else
    match w.dest with
    | .v _ _ => g
    | .s n => { g with spec := { g.spec with savedS := mapSet 0 g.spec.savedS n w.val } }
    | .p l i =>
      let t : Thread := writeP { (default : Thread) with p := mapGet 0 g.spec.savedP l } i (hasBit w.val 0)
      { g with spec := { g.spec with savedP := mapPut g.spec.savedP l t.p } }

/-- A write of an instruction takes effect, unless one made in the same core cycle stays. -/
def landWrite (op low : Nat) (g : Group) (w : RegWrite) : Group :=
  if staysBefore g op low w.dest then g
  else
    { applyWrite (keepWrite op w g) w with landed := (w.dest, op, low) :: g.landed.filter fun e => e.1 ≠ w.dest }

/-! ## Completion flags (R15) -/

/-- Increments a flag at issue. -/
def raiseFlag (g : Group) : Option (Fin 12) → Group
  | none => g
  | some f => { g with flags := mapSet 0 g.flags f.val (g.flag f.val + 1) }

/-- Decrements a flag at completion. -/
def dropFlag (g : Group) : Option (Fin 12) → Group
  | none => g
  | some f => { g with flags := mapSet 0 g.flags f.val (g.flag f.val - 1) }

/-! ## Scratchpad (R138) -/

/-- Bytes of a pair team's near half (R138). -/
def nearBytes (pair : Bool) (size : Nat) : Nat :=
  if pair then min size (256 * ((size + 511) / 512)) else size

/-- The position of a scratchpad offset, if it lies in the team's scratchpad (R138). -/
def scratchPos (l : Launch) (off : Nat) : Option Nat :=
  let h := nearBytes l.isPair l.scratch
  if off < h then some off
  else if l.isPair && 0x80000 ≤ off && off < 0x80000 + (l.scratch - h) then some (h + (off - 0x80000))
  else none

/-- The offset of a position. -/
def scratchOff (l : Launch) (pos : Nat) : Nat :=
  let h := nearBytes l.isPair l.scratch
  if pos < h then pos else 0x80000 + (pos - h)

/-- Whether all `n` bytes from an offset lie in the team's scratchpad. -/
def scratchHas (l : Launch) (off n : Nat) : Bool :=
  n = 0 ||
  match scratchPos l off, scratchPos l (off + n - 1) with
  | some a, some b => b = a + n - 1 && decide (off + n ≤ 2 ^ 64)
  | _, _ => false

/-- `n` bytes of a team's scratchpad from an offset. -/
def scratchRead (s : State) (team off n : Nat) : Nat :=
  let t := teamAt s team
  memReadLE t.scratch ((scratchPos (launchAt s t.lid) off).getD off) n

/-- Writes `n` bytes; the bytes written hold no poison any more (R391). -/
def scratchWrite (s : State) (team off n x : Nat) : State :=
  let t := teamAt s team
  let pos := (scratchPos (launchAt s t.lid) off).getD off
  modTeam s team fun t' =>
    { t' with scratch := memWriteLE t'.scratch pos n x
              scratchPoison := t'.scratchPoison.filter fun p => !(pos ≤ p && decide (p < pos + n)) }

/-- Whether a word of the scratchpad that `n` bytes from an offset touch is poisoned (R390); poison is
listed by byte, and a byte of a word poisons all of it. -/
def scratchBad (s : State) (team off n : Nat) : Bool :=
  let t := teamAt s team
  let pos := (scratchPos (launchAt s t.lid) off).getD off
  t.scratchPoison.any fun p => pos / 8 ≤ p / 8 && decide (p / 8 ≤ (pos + n - 1) / 8) && decide (0 < n)

/-- Writes the bytes of a 32-byte sector named by a mask. -/
def scratchWriteMask (s : State) (team off : Nat) (data : BitVec 256) (mask : BitVec 32) : State :=
  (List.range 32).foldl (fun s i =>
    if hasBit mask i then scratchWrite s team (off + i) 1 (bits data.toNat (8 * i) 8) else s) s

/-! ## Lines as the slices hold them now (R106, R276) -/

/-- A line of a slice. -/
def findL2 (sl : Slice) (asid line : Nat) : Option L2Line :=
  sl.lines.find? fun x => x.asid = asid && x.line = line

/-- The 128 bytes of memory behind a line at a physical address, 0 where nothing is backed (R85). -/
def memLine (s : State) (part pa : Nat) : Line :=
  match homeOf (partAt s part) pa with
  | some h => BitVec.ofNat 1024 (homeReadLE s part h 128)
  | none => 0

/-- The bytes of a line at its slice, and below it where a sector is not valid there; `none` when the
line does not translate. -/
def lineNow (s : State) (lid asid line : Nat) : Option Line :=
  let part := (launchAt s lid).part
  let sl := sliceAt s (sliceOf s lid asid (line * 128))
  match findL2 sl asid line with
  | some x =>
    if x.valid = 0xF#4 then some x.data
    else
      match walk s part asid (line * 128) with
      | .leaf pa .. => some (mergeLine (memLine s part pa) x.data (bytesOfSectors x.valid))
      | _ => none
  | none =>
    match walk s part asid (line * 128) with
    | .leaf pa .. => some (memLine s part pa)
    | _ => none

/-! ## Poison below the slices (R390) -/

/-- The poisoned sectors of the 128 bytes of memory at a physical address. -/
def memPoison (s : State) (part pa : Nat) : BitVec 4 :=
  match homeOf (partAt s part) pa with
  | some (.hbm a) => maskOf 4 ((List.range 4).filter fun i => s.hbmPoison.contains (a / 128 * 4 + i))
  | some (.carved o) =>
    maskOf 4 ((List.range 4).filter fun i => (partAt s part).carvedPoison.any fun w => w / 4 = o / 128 * 4 + i)
  | _ => 0

/-- The poisoned sectors of a line as it is now: at its slice, and below it where a sector is not valid
there. -/
def linePoison (s : State) (lid asid line : Nat) : BitVec 4 :=
  let part := (launchAt s lid).part
  let below : BitVec 4 := match walk s part asid (line * 128) with
    | .leaf pa .. => memPoison s part pa
    | _ => 0
  match findL2 (sliceAt s (sliceOf s lid asid (line * 128))) asid line with
  | some x => (x.poison &&& x.valid) ||| (below &&& ~~~x.valid)
  | none => below

/-! ## Instruction fetch (R14, R289, R391) -/

/-- Checks 1, 3 and 4 of R67 for the fetch of a parcel: PROT above 2^52, FETCH outside every range, PROT without
EX. -/
def fetchRange (l : Launch) (va : Nat) : Option CauseCode :=
  if 2 ^ 52 ≤ va then some .prot
  else
    match rangeOf l va with
    | none => some .fetch
    | some r => if r.ex then none else some .prot

/-- Whether the slice of a line holds all of it. -/
def wholeAtSlice (s : State) (lid asid line : Nat) : Bool :=
  match findL2 (sliceAt s (sliceOf s lid asid (line * 128))) asid line with
  | some x => x.valid = 0xF#4
  | none => false

/-- Whether an address lies in an ELASTIC range of a launch. -/
def inElastic (l : Launch) (va : Nat) : Bool :=
  match rangeOf l va with
  | some r => r.elastic
  | none => false

/-- What a fetch finds that misses the core's instruction lines. In an ELASTIC range its walk decides on residency
(check 5 of R67, R68); in any other range a line that is not whole at its slice is translated there, where an entry
that is not valid or denies X is a lease break, and a bad walk PLACEMENT (R66, R458). -/
def fetchWalk (s : State) (lid : Nat) (va : Nat) : Option CauseCode :=
  let l := launchAt s lid
  let denied : Option CauseCode := match walk s l.part l.asid va with
    | .leaf _ e _ _ => if pteX e then none else some .lease
    | .absent _ => some .lease
    | .placement => some .placement
  if inElastic l va then residentCause (residency s lid l.asid va) <|> denied
  else if wholeAtSlice s lid l.asid (va / 128) then none else denied

/-- The cause that the fetch of a parcel raises, of a line that the core does not hold (R14, R67, R458). -/
def fetchCause (s : State) (lid : Nat) (va : Nat) : Option CauseCode :=
  fetchRange (launchAt s lid) va <|> fetchWalk s lid va

/-- The instruction line a core holds, and its poisoned sectors. -/
def cachedLine (c : Core) (asid line : Nat) : Option (Line × BitVec 4) :=
  (c.icache.find? fun e => e.1 = asid && e.2.1 = line).map (·.2.2)

/-- Puts an instruction line in the place of the one a core holds. -/
def putInstr (c : Core) (asid line : Nat) (d : Line) (poison : BitVec 4) : Core :=
  { c with icache := (asid, line, d, poison) :: c.icache.filter fun e => !(e.1 = asid && e.2.1 = line) }

/-- Whether a request is a fetch, of an item or for a header's prefetch. -/
def Reader.isFetch : Reader → Bool
  | .fetch _ => true
  | _ => false

/-- The read of a fetch at the slice, where the line is not whole there: the slice translates it and fills
it (R56, R62, R276). -/
def sendFetch (s : State) (core lid asid line : Nat) (who : Option (Nat × Word × Nat)) : State :=
  if wholeAtSlice s lid asid line ||
      s.requests.any fun e => e.2.asid = asid && e.2.line = line && e.2.reader.isFetch then s
  else
    let (id, s) := freshId s
    let r : Request :=
      { core := core, part := (launchAt s lid).part, lid := lid, asid := asid, line := line, lc := 0
        hintFirst := false, reader := .fetch who, stage := .sent }
    { s with requests := mapPut s.requests id r }

/-- Brings the instruction line of an address into a core, if it may be fetched and is not held; the page of an
ELASTIC range that the walk has found resident is pinned (R65). A line that came poisoned is read again, so that the
item goes on once its bytes have been rewritten (R392). -/
def fillInstr (s : State) (core lid va : Nat) (who : Option (Nat × Word × Nat)) : State :=
  let asid := (launchAt s lid).asid
  let line := va / 128
  if ((cachedLine (coreAt s core) asid line).map (·.2)) = some 0 || (fetchCause s lid va).isSome then s
  else
    match lineNow s lid asid line with
    | some d =>
      let s' := modCore (sendFetch s core lid asid line who) core fun c =>
        putInstr c asid line d (linePoison s lid asid line)
      if inElastic (launchAt s lid) va then pinPage s' lid (pageOf va) else s'
    | none => s

/-- The instruction line that a group fetches from: of its instruction buffer, else of its core (R289). -/
def groupLine (s : State) (g line : Nat) : Option (Line × BitVec 4) :=
  match (grpAt s g).ibuf.find? fun e => e.1 = line with
  | some e => some e.2
  | none => cachedLine (coreAt s (grpAt s g).core) (asidOf s g) line

/-- The parcel at an address, from the instruction lines that a group fetches from, or the cause of its fetch: that of
R67, or UNCORR for a poisoned sector (R14, R391). A line held is fetched without a walk; the range check is made on every
fetch (R67). -/
def parcelAt (s : State) (g va : Nat) : Except Cause Nat :=
  let lid := lidOf s g
  let l := launchAt s lid
  let fails := fun (c : CauseCode) => (Except.error { code := c, addr := BitVec.ofNat 64 va } : Except Cause Nat)
  match fetchRange l va with
  | some c => fails c
  | none =>
    match groupLine s g (va / 128) with
    | some (d, poison) =>
      if hasBit poison (va % 128 / 32) then fails .uncorr else .ok (lineRead d (va % 128) 4)
    | none => fails ((fetchWalk s lid va).getD .fetch)

/-- Fills the lines of the item at an address, for the item at `pc` whose lowest lane is `l` (R458). -/
def fetchFor (s : State) (g : Nat) (pc : Word) (l va : Nat) : State :=
  let core := (grpAt s g).core
  let lid := lidOf s g
  let s := fillInstr s core lid va (some (g, pc, l))
  fillInstr s core lid (va + 15) (some (g, pc, l))

/-- Fills the lines of the item at an address, for the lanes that stand there. -/
def fetchLines (s : State) (g : Nat) (va : Nat) : State :=
  let pc := BitVec.ofNat 64 va
  fetchFor s g pc ((lanesOf (grpAt s g).width ((grpAt s g).activeAt pc)).headD 0) va

/-- The first `n` parcels of an item, or the cause of the first that cannot be fetched (R14). -/
def parcels (s : State) (g va : Nat) : Nat → Except Cause (List Nat)
  | 0 => .ok []
  | n + 1 =>
    match parcelAt s g va with
    | .error c => .error c
    | .ok p =>
      match parcels s g (va + 4) n with
      | .error a => .error a
      | .ok ps => .ok (p :: ps)

/-- The value of parcels, the first lowest (R12). -/
def parcelValue : List Nat → Nat
  | [] => 0
  | p :: ps => p + 2 ^ 32 * parcelValue ps

/-- The item at an address: its parcels' value and number, or the cause of its fetch. -/
def fetchItem (s : State) (g : Nat) (va : Nat) : Except Cause (Nat × Nat) :=
  match parcelAt s g va with
  | .error c => .error c
  | .ok p0 =>
    let n := parcelsOf (BitVec.ofNat 32 p0)
    match parcels s g va n with
    | .error a => .error a
    | .ok ps => .ok (parcelValue ps, n)

/-! ## Mailboxes (R374) -/

/-- XCAUSE's code of a cause (R366). -/
def CauseCode.num : CauseCode → Nat
  | .illegalOpc => 0x01 | .illegalOpnd => 0x02 | .pairRule => 0x03 | .priv => 0x04
  | .notHeader => 0x05 | .fetch => 0x06 | .misalign => 0x07 | .prot => 0x08 | .elastic => 0x09
  | .lease => 0x0A | .scratch => 0x0B | .stream => 0x0C | .arith => 0x0D | .swtrap => 0x0E
  | .brk => 0x0F | .phaser => 0x10 | .matrix => 0x11 | .cap => 0x12 | .double => 0x13
  | .uncorr => 0x14 | .placement => 0x16

/-- The causes that are escalated (R365). -/
def CauseCode.escalated : CauseCode → Bool
  | .lease | .placement | .uncorr | .double => true
  | _ => false

/-- What XSTAT holds of a cause: of UNCORR the lane alone, of LEASE and PLACEMENT the lane and WR (R366). -/
def Cause.reported (c : Cause) : Cause :=
  match c.code with
  | .uncorr => { c with sub := 0, qn := 0, sq := false, cp := false, mx := false, wr := false }
  | .lease | .placement => { c with sub := 0, qn := 0, sq := false, cp := false, mx := false }
  | _ => c

/-- XSTAT for a cause (R369). -/
def Cause.xstat (c : Cause) : BitVec 22 :=
  let c := c.reported
  BitVec.ofNat 22 (c.sub % 256 + c.qn % 16 * 2 ^ 8 + c.sq.toNat * 2 ^ 12 + c.cp.toNat * 2 ^ 13
    + c.mx.toNat * 2 ^ 14 + c.wr.toNat * 2 ^ 15 + c.lane % 64 * 2 ^ 16)

/-- A mailbox slot of a core. -/
def slotAt (c : Core) (n : Nat) : Slot := mapGet default c.slots n

/-- The first of the listed slots that is not full. -/
def freeSlot (c : Core) (ns : List Nat) : Option Nat := ns.find? fun n => !(slotAt c n).full

/-- Posts a record in a slot: sets FULL and clears REPLIED (R374). -/
def fillSlot (c : Core) (n : Nat) (r : MboxRec) (w : Waiter) : Core :=
  let x : Slot :=
    { record := r, reply := (slotAt c n).reply, full := true, replied := false, waiter := w }
  { c with slots := mapPut c.slots n x }

/-- Posts an escalation in slot 0 or 1, or keeps it until one is free (R374). -/
def postEscalation (s : State) (core : Nat) (r : MboxRec) (w : Waiter) : State :=
  let c := coreAt s core
  match freeSlot c [0, 1] with
  | some n =>
    let s := modCore s core fun c => fillSlot c n r w
    match w with
    | .group g => modGrp s g fun x => { x with held := .posted n }
    | .request (some g) .. => modGrp s g fun x => { x with held := .posted n }
    | _ => s
  | none =>
    let s := modCore s core fun c => { c with unposted := c.unposted ++ [(r, w)] }
    match w with
    | .group g => modGrp s g fun x => { x with held := .unposted }
    | .request (some g) .. => modGrp s g fun x => { x with held := .unposted }
    | _ => s

/-- Counts a delivered cause in its launch's record (R415). -/
def countCause (s : State) (lid : Nat) (c : CauseCode) : State :=
  modLaunch s lid fun l =>
    { l with cause := if l.fcount = 0 then c.num else l.cause, fcount := min (l.fcount + 1) 255 }

/-- Escalates a cause of a group: the group is held from the raising item on (R374). -/
def escalate (s : State) (gid : Nat) (pc : Word) (c : Cause) (orig : Nat) : State :=
  let g := grpAt s gid
  let r : MboxRec :=
    { kind := 0x80, cause := c.code.num, orig := orig, slot := g.slot, quarter := g.quarter,
      core := g.core % Config.coresPerCluster, asid := asidOf s gid, w1 := pc,
      w2 := c.addr, w3 := c.xstat.setWidth 64 }
  let s := modGrp s gid fun g => { g with heldCause := some c }
  let s := if c.code = .uncorr then { s with uecnt := min (s.uecnt + 1) 255 } else s
  let s := countCause s (lidOf s gid) c.code
  postEscalation s g.core r (.group gid)

/-- A record that no group raised carries CORE = 7 (R374). -/
def escalateFree (s : State) (core : Nat) (kind cause asid : Nat) (w2 : Word) (w : Waiter) : State :=
  postEscalation s core
    { kind := kind, cause := cause, orig := 0, slot := 0, quarter := 0, core := 7, asid := asid,
      w1 := 0, w2 := w2, w3 := 0 } w

/-- A walk that serves no instruction and meets a condition of R58 posts a record with CORE = 7 (R374). -/
def postBadWalk (s : State) (core lid asid va : Nat) : State :=
  if residency s lid asid va = .placement then
    escalateFree s core 0x80 CauseCode.placement.num asid (BitVec.ofNat 64 va) .nobody
  else s

/-- Drops hint lanes and, for a page of an ELASTIC range that is not resident, posts one residency hint
in slot 2 or 3 unless one is outstanding for the page (R69). It carries CORE = 7, QUARTER = 0 and GROUP = 0, whoever
sent the hint; R374 leaves these open for a hint (DESIGN CHOICE, log entry 63). -/
def dropHint (s : State) (core lid asid va lanes : Nat) : State :=
  let s := modCore s core fun c => { c with prefdrop := c.prefdrop + BitVec.ofNat 64 lanes }
  if inElastic (launchAt s lid) va && residency s lid asid va = .no then
    let c := coreAt s core
    let page := pageOf va
    let out := [2, 3].any fun n => (slotAt c n).full && (slotAt c n).waiter = .hint asid page
    if out then s
    else
      match freeSlot c [2, 3] with
      | none => s
      | some n =>
        let r : MboxRec :=
          { kind := 0x81, cause := 0, orig := 0, slot := 0, quarter := 0, core := 7, asid := asid,
            w1 := 0, w2 := BitVec.ofNat 64 (page * 65536), w3 := 0 }
        modCore s core fun c => fillSlot c n r (.hint asid page)
  else s

/-! ## Block headers (R33 to R35) -/

/-- The header that a thread entering a block at `va` finds, or the cause its entry raises (R33, R34
rule 1, R35). A RECONV target that cannot be fetched raises the cause of its fetch at the entered header, with XADDR
the target; R35 names no cause for it (DESIGN CHOICE, log entry 61). -/
def headerAt (s : State) (g : Nat) (va : Nat) : Except Cause Header :=
  if va % 4 ≠ 0 then .error { code := .misalign, addr := BitVec.ofNat 64 va }
  else
    match fetchItem s g va with
    | .error c => .error c
    | .ok (v, _) =>
      if v % 4 ≠ 3 then .error { code := .notHeader, addr := BitVec.ofNat 64 va }
      else
        let h := Header.ofBits (BitVec.ofNat 64 v)
        if !h.ok then .error { code := .illegalOpc }
        else if h.reconv = 0 then .ok h
        else
          let target := (BitVec.ofNat 64 va + 4 * BitVec.signExtend 64 h.reconv).toNat
          match parcelAt (fetchFor s g (BitVec.ofNat 64 va) 0 target) g target with
          | .error c => .error c
          | .ok p =>
            if p % 4 ≠ 3 then .error { code := .notHeader, addr := BitVec.ofNat 64 target }
            else .ok h

/-- A thread's entry into a block whose header has been checked (R355): it pops the record at the top
of its stack if that is this header, and waits; it pushes the block's RECONV unless it is at the top;
the push onto eight records discards the oldest. A block of two parcels holds no instruction: the thread then
stands before the header after it (R34 rule 1). -/
def enterBlock (t : Thread) (va : Word) (h : Header) : Thread :=
  let b : Block := ⟨va, va + 4 * BitVec.ofNat 64 h.blen.toNat, none⟩
  let (recon, waits) := match t.recon with
    | r :: rs => if r = va then (rs, true) else (t.recon, false)
    | [] => ([], false)
  let recon :=
    if h.reconv = 0 then recon
    else
      let target := va + 4 * BitVec.signExtend 64 h.reconv
      if recon.head? = some target then recon else (target :: recon).take 8
  { t with
    pc := va + 8
    block := if h.blen = 2 then none else some b
    recon := recon
    wait := if waits then .recon va else t.wait }

/-- Whether a thread other than that of lane `l` holds a record of an address (R355). -/
def holdsRecon (g : Group) (l : Nat) (a : Word) : Bool :=
  (List.range g.threads.length).any fun k =>
    k ≠ l && (g.thread k).status == .running && (g.thread k).recon.contains a

/-- Ends every reconvergence wait whose address no other thread of the group holds any more (R355). -/
def releaseRecon (g : Group) : Group :=
  { g with threads := g.threads.mapIdx fun l t =>
      match t.wait with
      | .recon a => if holdsRecon g l a then t else { t with wait := .none }
      | _ => t }

/-- Whether a block is open: its thread came into it by ERET, and its extent is not known (R34, R381). -/
def Block.isOpen (b : Block) : Bool := b.start = b.stop

/-- Whether a thread stands before an item that may be a header it has to enter. -/
def mustEnter (g : Group) (l : Nat) : Bool :=
  let t := g.thread l
  t.status == .running && t.wait == .none && (t.block.isNone || t.block.any Block.isOpen) &&
    (!g.priv || hasBit g.handler l)

/-- Whether the item at an address is a header, which ends an open block (R34 rule 1, R381). -/
def isHeader (s : State) (g va : Nat) : Bool :=
  match fetchItem s g va with
  | .ok (v, _) => v % 4 = 3
  | .error _ => false

/-- Prefetches up to `n` instruction lines after a block's last line, stopping at the first that may
not be fetched: that hint is dropped and counted, and a bad walk posts a record that no group raised (R33, R69,
R374). -/
def prefetchInstr (s : State) (core lid va : Nat) : Nat → State
  | 0 => s
  | n + 1 =>
    let l := launchAt s lid
    let held := (cachedLine (coreAt s core) l.asid (va / 128)).isSome
    match fetchRange l va, if held then none else fetchWalk s lid va with
    | none, none => prefetchInstr (fillInstr s core lid va none) core lid (va + 128) n
    | none, some _ => dropHint (postBadWalk s core lid l.asid va) core lid l.asid va 1
    | some _, _ => dropHint s core lid l.asid va 1

/-- One lane enters the block it stands before, and the next if that one is empty, up to a bound, if the entry raises
no cause. -/
def enterLane (s : State) (g l : Nat) : Nat → State
  | 0 => s
  | n + 1 =>
    if mustEnter (grpAt s g) l then
      let va := ((grpAt s g).thread l).pc
      let s := fetchLines s g va.toNat
      if ((grpAt s g).thread l).block.isSome && !isHeader s g va.toNat then s
      else
        match headerAt s g va.toNat with
        | .error _ => s
        | .ok h =>
          let s := if h.reconv = 0 then s
            else fetchFor s g va l (va + 4 * BitVec.signExtend 64 h.reconv).toNat
          let s := modThread s g l fun t => enterBlock t va h
          let s := prefetchInstr s (grpAt s g).core (lidOf s g)
            ((va.toNat + 4 * h.blen.toNat - 1) / 128 * 128 + 128) h.pfh.toNat
          enterLane s g l n
    else s

/-- Headers that a thread passes in one core cycle at the most (log entry 62). -/
abbrev headerRun : Nat := 64

/-- Every lane that stands before a header enters it; then the reconvergence waits that have no holder
left end (R34 rule 1, R355). -/
def enterBlocks (s : State) (g : Nat) : State :=
  let s := (List.range (grpAt s g).width).foldl (fun s l => enterLane s g l headerRun) s
  modGrp s g releaseRecon

/-- Moves a thread to a target, before whose header it then stands. -/
def jumpTo (t : Thread) (target : Word) : Thread := { t with pc := target, block := none }

/-- Moves a thread past an item: within its block, or to the header after it (R34 rule 1). -/
def advance (t : Thread) (next : Word) (retained : Option (Fin 768)) : Thread :=
  match t.block with
  | some b =>
    if next = b.stop then { t with pc := next, block := none }
    else { t with pc := next, block := some { b with retained := retained } }
  | none => { t with pc := next }

/-! ## Aborting a transactional lane (R319, R322, R333) -/

/-- Marks a transactional lane as aborting for a cause, the first that it meets: it stops until its instructions have completed,
and the TX_ABORT step then restores it. An irrevocable lane's holds go with that step. -/
def abortLane (s : State) (g l cause code : Nat) : State :=
  modThread s g l fun t =>
    if t.tx.active && t.wait ≠ .aborting then { t with wait := .aborting, tx := { t.tx with cause := cause, code := code } }
    else t

/-- Aborts the transactional lanes of a mask. -/
def abortLanes (s : State) (g : Nat) (m : Mask) (cause code : Nat) : State :=
  (lanesOf (grpAt s g).width m).foldl (fun s l => abortLane s g l cause code) s

/-! ## Taking a cause (R365 to R371) -/

/-- Whether XVEC is not 0 and the item there is a header of KIND 0b01 that can be fetched and passes R33 (R370). -/
def handlerOk (s : State) (g : Nat) (xvec : Word) : Bool :=
  decide (xvec ≠ 0) && decide (xvec.toNat % 4 = 0) &&
  match fetchItem s g xvec.toNat with
  | .error _ => false
  | .ok (v, _) =>
    let h := Header.ofBits (BitVec.ofNat 64 v)
    decide (v % 4 = 3) && h.ok && h.kind == 1

/-- Core cycles from an item that raises a cause to the first of its handler (R366). -/
abbrev trapCycles : Nat := 20

/-- Trap entry (R368): banks XFIRST, XPC, XADDR, XCAUSE, XSTAT and PROGIDX, enters privileged mode and
sends the handler population to XVEC; a bad handler entry escalates as DOUBLE (R370). -/
def enterTrap (s : State) (i : Issue) (xpc : Word) (c : Cause) : State :=
  let s := countCause s (lidOf s i.gid) c.code
  let s := modGrp s i.gid fun g =>
    { g with
      xfirst := i.pc
      xpc := xpc
      xaddr := c.addr
      xcause := BitVec.ofNat 8 c.code.num
      xstat := c.xstat
      progidx := BitVec.ofNat 32 c.idx
      priv := true
      notBefore := s.cycle + trapCycles
      handler := i.act
      xblocks := (lanesOf g.width i.act).map fun l => (l, (xpc, (g.thread l).block))
      resumes := if c.sq || c.cp || c.mx then some c else none }
  let s := modGrp s i.gid fun g => g.modLanes i.act fun _ t => jumpTo t g.xvec
  let xvec := (grpAt s i.gid).xvec
  let s := fetchLines s i.gid xvec.toNat
  if handlerOk s i.gid xvec then enterBlocks s i.gid
  else escalate s i.gid i.pc { code := .double } c.code.num

/-- An item that a speculating group may not issue, or whose fault it does not raise, stops the group until the barrier
resolves (R305, R310). -/
def stallSpec (s : State) (gid : Nat) : State :=
  modGrp s gid fun g =>
    { g with spec := if g.spec.st = .speculating then { g.spec with st := .stalled } else g.spec }

/-- Delivers a cause on the group, or escalates it (R365, R368, R371). -/
def deliver (s : State) (i : Issue) (xpc : Word) (c : Cause) : State :=
  let g := grpAt s i.gid
  if c.code.escalated then escalate s i.gid i.pc c 0
  else if g.speculative then stallSpec s i.gid
  else if g.priv then escalate s i.gid i.pc { code := .double } c.code.num
  else enterTrap s i xpc c

/-- Whether a cause is escalated even in a transactional lane (R322). -/
def CauseCode.pastTx (c : CauseCode) : Bool := c = .placement || c = .uncorr || c = .double

/-- A fault of an item, found in decoding it or fetching it (R365): transactional lanes of its population abort with FAULT
first (R322); the cause is raised for the others, if any, with XPC the item itself. -/
def raiseFault (s : State) (i : Issue) (c : Cause) : State :=
  let tx := i.act &&& (grpAt s i.gid).txLanes
  if c.code.pastTx then deliver s i i.pc c
  else
    let s := abortLanes s i.gid tx 4 c.code.num
    let rest := i.act &&& ~~~tx
    if rest = 0 then s else deliver s { i with act := rest } i.pc c

/-- A fault that executing lanes of an item meet: those that are transactional abort with FAULT; it is raised for the lanes
of the population that are not transactional, if one of them executes (R322, R371). -/
def raiseLanes (s : State) (i : Issue) (ex : Mask) (c : Cause) : State :=
  let tx := (grpAt s i.gid).txLanes
  if c.code.pastTx then deliver s i i.pc c
  else
    let s := abortLanes s i.gid (ex &&& tx) 4 c.code.num
    if ex &&& ~~~tx = 0 then s else deliver s { i with act := i.act &&& ~~~tx } i.pc c

/-- An item counts in a thread's transaction, but not its own TXB (R323). -/
def countItem (t : Thread) : Thread :=
  let opens : Bool := match t.wait with
    | .txb _ => true
    | _ => false
  if t.tx.active && !opens then { t with tx := { t.tx with items := t.tx.items + 1 } } else t

/-- A trap of an item (R365): the item completes and XPC is the item after it. An executing transactional lane aborts
with FAULT; no transactional lane is trapped (R322, R371). -/
def raiseTrap (s : State) (i : Issue) (ex : Mask) (c : Cause) : State :=
  let g := grpAt s i.gid
  let tx := g.txLanes
  let s := abortLanes s i.gid (ex &&& tx) 4 c.code.num
  let next := i.pc + BitVec.ofNat 64 i.len
  let trapped : Bool := ex &&& ~~~tx ≠ 0
  if trapped && (g.priv || g.speculative) then
    deliver s { i with act := i.act &&& ~~~tx } next c
  else
    let s := modGrp s i.gid fun g => g.modLanes (i.act &&& ~~~(ex &&& tx)) fun _ t => advance (countItem t) next none
    if trapped then deliver s { i with act := i.act &&& ~~~tx } next c else s

/-- The register that the item before an address retains, of a block whose instructions begin at `va`: found by
reading the items in order (R36 rule 5). -/
def retainedBefore (s : State) (gid : Nat) (pc : Nat) : Nat → Nat → Option (Fin 768)
  | 0, _ => none
  | n + 1, va =>
    match fetchItem (fetchLines s gid va) gid va with
    | .ok (v, k) =>
      if va + 4 * k = pc then retOf (BitVec.ofNat 128 v)
      else if va + 4 * k < pc then retainedBefore s gid pc n (va + 4 * k) else none
    | .error _ => none

/-- The block that a handler thread resumes in at XPC: that in which it was, where XPC stands as the trap left it;
the same, with what the instruction before XPC retains, where a CSRW has moved XPC within it; at its end, and at a
header, none; else an open block (R34, R36, R381; log entry 60). -/
def resumeBlock (s : State) (gid l : Nat) (xpc : Word) : Option Block :=
  let e : Word × Option Block := mapGet (0, none) (grpAt s gid).xblocks l
  if e.1 = xpc then e.2
  else
    match e.2 with
    | some b =>
      if b.start.toNat + 8 ≤ xpc.toNat && xpc.toNat < b.stop.toNat then
        let n := (b.stop.toNat - b.start.toNat) / 4
        some { b with retained := retainedBefore s gid xpc.toNat n (b.start.toNat + 8) }
      else if xpc = b.stop then none
      else some ⟨xpc, xpc, none⟩
    | none => some ⟨xpc, xpc, none⟩

/-- Return from privileged mode (R381): the handler population resumes at XPC inside its block, and the group's
other threads become eligible again. -/
def returnFromTrap (s : State) (gid : Nat) : State :=
  let s' := fetchLines s gid (grpAt s gid).xpc.toNat
  let s := modGrp s' gid fun g =>
    let pc := g.xpc
    let g := g.modLanes g.handler fun l t =>
      if t.status == .running then { t with pc := pc, block := resumeBlock s' gid l pc } else t
    { g with priv := false, handler := 0, xblocks := [], resumes := none }
  enterBlocks s gid

end Sys2Proof.Machine
end

