-- ==== Sys2Proof/Machine/Flags.lean ====
section
/-! DEFINITION. Flags.lean: FFLAGS, RMODE and the flags that operations raise (R196 to R199). -/

namespace Sys2Proof.Machine

/-- The seven sticky flags (R197). -/
abbrev FF := BitVec 7

/-- No flag. -/
def ffNone : FF := 0#7
def ffNV : FF := 1#7
def ffDZ : FF := 2#7
def ffOF : FF := 4#7
def ffUF : FF := 8#7
def ffNX : FF := 16#7
def ffIDZ : FF := 32#7
def ffXOF : FF := 64#7

/-- A flag if a condition holds. -/
def ffIf (b : Bool) (f : FF) : FF := if b then f else 0#7

/-- The union of flags. -/
def ffAll (fs : List FF) : FF := fs.foldl (· ||| ·) 0#7

/-- The mode that an RND code selects in a group: .DYN takes RMODE (R26, R199). -/
def modeOf (g : Group) : Rnd → Rnd
  | .dyn =>
    match g.rmode.toNat with
    | 0 => .rne
    | 1 => .rtz
    | 2 => .rdn
    | 3 => .rup
    | _ => .rna
  | r => r

/-- A write to RMODE: codes 5, 6 and 7 leave the mode unchanged (R196). -/
def writeRmode (old : BitVec 3) (x : Word) : BitVec 3 :=
  let n := x.setWidth 3
  if n.toNat ≤ 4 then n else old

end Sys2Proof.Machine
end

