-- ==== Sys2Proof/Machine/Operands.lean ====
section
/-! DEFINITION. Operands.lean: operand reads and writes, streams and drain ports as operands, and the
issue of one item: its conditions (R351), its causes in the order of R41, its executing lanes (R22,
R160), its control field (R15, R16) and the record of its results (R357). -/

namespace Sys2Proof.Machine

/-! ## Classes (R204, R354) -/

/-- Issue classes (R354). -/
inductive IssueClass where
  | lane | xlane | exact | div | mem | ctrl | other | paired
deriving DecidableEq, Repr, Inhabited

/-- Unit classes, with the cycles that an issue holds the unit (R204). -/
inductive UnitClass where
  | none | a | m | m2 | f | f64 | d32 | d64 | x | ls
deriving DecidableEq, Repr, Inhabited

/-- Families that a fault found later is raised on when its flag is 15 (R110, R249, R263, R313). -/
inductive Family where
  | none | matrix | runner
deriving DecidableEq, Repr, Inhabited

/-- What the issue stage knows of an item from its encoding. -/
structure Item where
  hdr : Hdr
  cls : IssueClass
  /-- An encoding that R40 rejects. -/
  illegal : Bool := false
  unit : UnitClass := .none
  /-- Fixed latency, or `none` for a variable one (R357). -/
  lat : Option Nat := none
  /-- Cycles that a variable one takes at the least. -/
  least : Nat := 1
  srcs : List Opnd := []
  dsts : List Opnd := []
  /-- The destination must name v, s or zero. -/
  dstVs : Bool := false
  /-- No source may name sq or dp. -/
  noStream : Bool := false
  /-- An operand limit of the instruction is broken. -/
  badOpnd : Bool := false
  privileged : Bool := false
  /-- Needs FP64 exact accumulation (R7). -/
  needsXf64 : Bool := false
  /-- Breaks R36 (rules 1 to 4). -/
  badPair : Bool := false
  /-- The vector registers a P word reads (R36 rule 5). -/
  pairRegs : List Nat := []
  /-- UNSUPPORTED in a transaction (R321). -/
  txBad : Bool := false
  /-- Held back while the group speculates (R305). -/
  specHold : Bool := false
  /-- Makes a memory or scratchpad access (R282, R288), and writes memory or scratchpad. -/
  access : Bool := false
  writesMem : Bool := false
  /-- Makes a scratchpad access, which is performed in program order (R140). -/
  scratch : Bool := false
  /-- What a FENCE waits for of it (R288). -/
  track : Track := .none
  /-- TFENCE waits for it (R379). -/
  setsFlags : Bool := false
  family : Family := .none
  /-- Queue it names otherwise than as an operand. -/
  queue : Option Nat := none
  /-- A thread whose guard is false ends, as if by EXIT (R179). -/
  guardExit : Bool := false
  /-- The exact accumulators it names (R237). -/
  xas : List Nat := []
  /-- It overwrites the accumulator it names and does not read it. -/
  xaFresh : Bool := false
  /-- Its register reads take no operand-bank cycles: it is of another format than S, or MMA (R30, R255). -/
  noBanks : Bool := false
  /-- A scheduler condition of its own does not hold: the item does not issue (R351). -/
  hold : Bool := false
deriving DecidableEq, Repr, Inhabited

/-! ## Streams as operands (R96, R97, R99) -/

/-- KIND of a stream descriptor (R100). -/
def Queue.kind (q : Queue) : Nat := bits q.desc.toNat 0 3
def Queue.esize (q : Queue) : Nat := 2 ^ bits q.desc.toNat 3 2
def Queue.isrc (q : Queue) : Nat := bits q.desc.toNat 6 2
def Queue.iq (q : Queue) : Nat := bits q.desc.toNat 8 4
def Queue.depth (q : Queue) : Nat := 2 ^ q.logd
/-- COUNT0 to COUNT3, and N (R102). -/
def Queue.count (q : Queue) (i : Nat) : Nat := bits q.desc.toNat (192 + 20 * i) 20
def Queue.total (q : Queue) : Nat := q.count 0 * q.count 1 * q.count 2 * q.count 3
/-- Entries of the stream for a group width. -/
def Queue.entriesOf (q : Queue) (width : Nat) : Nat := (q.total + width - 1) / width
def Queue.isLoad (q : Queue) : Bool := q.kind = 0 || q.kind = 2
def Queue.isOut (q : Queue) : Bool := q.kind = 1 || q.kind = 3 || q.kind = 5
def Queue.bound (q : Queue) : Bool := q.st != .unbound

/-- The scratchpad offset of lane `l`'s element of entry `k` (R95). -/
def Queue.elemOff (q : Queue) (width k l : Nat) : Nat := q.qbase + k % q.depth * width * 8 + 8 * l

/-- Whether a queue is the index source of another bound queue of the group (R99, ENGINE). -/
def isIndexSource (g : Group) (n : Nat) : Bool :=
  g.queues.any fun e => e.1 ≠ n && e.2.bound && e.2.isrc = 1 && e.2.iq = n

/-- What a stream operand does at issue. -/
inductive StreamUse where
  | ready | waits
  | raises (c : Cause)
deriving DecidableEq, Repr, Inhabited

def streamCause (sub qn : Nat) : StreamUse := .raises { code := .stream, sub := sub, qn := qn }

/-- A pop of queue `n` (R96, R99, R109); of a feed queue that is an index source both DIRECTION and ENGINE speak, and
ENGINE is raised (log entry 70). -/
def popUse (g : Group) (n : Nat) : StreamUse :=
  let q := g.queue n
  if !q.bound then streamCause 1 n
  else if !q.isLoad then
    if q.kind = 5 && isIndexSource g n then streamCause 9 n else streamCause 2 n
  else if isIndexSource g n then streamCause 9 n
  else if 0 < q.filled && q.st ≠ .stopping then .ready
  else
    match q.st, q.fault with
    | .done, _ => streamCause 3 n
    | .faulted, some c => if q.pos = c.idx then .raises c else .waits
    | _, _ => .waits

/-- The fault of a queue that waited for a later item has been handled, or gives way to another (R110). -/
def forgetFault (g : Group) (qn : Nat) : Group :=
  { g with deferred := g.deferred.filter fun d => !(d.family = 3 && d.qn = qn) }

/-- A push to queue `n` (R96, R99, R110): log entry 70 for the order of its causes. -/
def pushUse (g : Group) (n : Nat) : StreamUse :=
  let q := g.queue n
  if !q.bound then streamCause 1 n
  else if !q.isOut then streamCause 2 n
  else if q.entriesOf g.width ≤ q.pos then streamCause 3 n
  else
    match q.st, q.fault with
    | .faulted, some c => .raises c
    | .stopping, _ => .waits
    | _, _ => if 0 < q.free then .ready else .waits

/-- A read of drain port `n`: a row is buffered, the port waits, or it is IDLE (R265). -/
def drainUse (g : Group) (n : Nat) : StreamUse :=
  let d := g.drain n
  if !d.active then .raises { code := .matrix, sub := 9 }
  else if d.rows.isEmpty then .waits else .ready

/-- The uses of an item's stream and drain operands. -/
def usesOf (g : Group) (it : Item) : List StreamUse :=
  (dedup it.srcs).filterMap (fun o =>
    match o with
    | .sq n => some (popUse g n.val)
    | .dp n => some (drainUse g n.val)
    | _ => none) ++
  it.dsts.filterMap fun o =>
    match o with
    | .sq n => some (pushUse g n.val)
    | _ => none

/-- Whether an item names a stream queue or a drain port. -/
def namesStream (it : Item) : Bool :=
  (it.srcs ++ it.dsts).any fun o =>
    match o with
    | .sq _ => true
    | .dp _ => true
    | _ => false

/-! ## Operand values (R27, R28) -/

/-- The value of a source in lane `l`. -/
def readOpnd (s : State) (gid l : Nat) (o : Opnd) : Word :=
  let g := grpAt s gid
  match o with
  | .v n => readV (g.thread l) n.val
  | .s n => readS g n.val
  | .laneid => BitVec.ofNat 64 l
  | .ones => BitVec.allOnes 64
  | .zero => 0
  | .reserved _ => 0
  | .sq n =>
    let q := g.queue n.val
    if hasBit (mapGet 0 q.valid (q.pos % q.depth)) l then
      BitVec.ofNat 64 (scratchRead s g.team (q.elemOff g.width q.pos l) 8)
    else 0
  | .dp n =>
    match (g.drain n.val).rows with
    | r :: _ => r.1.getD l 0
    | [] => 0

/-- The lowest executing lane. -/
def lowLane (g : Group) (ex : Mask) : Nat := (lanesOf g.width ex).headD 0

/-- The scalar source of an item: the value in the lowest executing lane (R378). -/
def scalarOf (s : State) (gid : Nat) (ex : Mask) (o : Opnd) : Word :=
  match lanesOf (grpAt s gid).width ex with
  | l :: _ => readOpnd s gid l o
  | [] => 0

/-- Pops a stream entry or takes a drained row, once for the item (R28, R97, R265). -/
def consume (s : State) (gid : Nat) (o : Opnd) : State :=
  match o with
  | .sq n =>
    modGrp s gid fun g => g.modQueue n.val fun q =>
      { q with filled := q.filled - 1, free := q.free + 1, pos := q.pos + 1 }
  | .dp n =>
    modGrp s gid fun g =>
      match (g.drain n.val).rows with
      | r :: rs =>
        let g := g.modDrain n.val fun d =>
          let t := d.taken + 1
          { d with rows := rs, taken := t, active := t ≠ 64 }
        { g with fflags := g.fflags ||| r.2.1 }
      | [] => g
  | _ => s

/-- Consumes every stream and drain source of an item. -/
def consumeAll (s : State) (gid : Nat) (it : Item) : State :=
  (dedup it.srcs).foldl (fun s o => consume s gid o) s

/-- Pushes an entry: VALID exactly in the executing lanes, each element the low ESIZE bytes of the
lane's value (R97). -/
def pushEntry (s : State) (gid n : Nat) (ex : Mask) (vals : List (Nat × Word)) : State :=
  let g := grpAt s gid
  let q := g.queue n
  let s := vals.foldl (fun s e =>
    let x := bits e.2.toNat 0 (8 * q.esize)
    scratchWrite s g.team (q.elemOff g.width q.pos e.1) 8 x) s
  modGrp s gid fun g => g.modQueue n fun q =>
    { q with valid := mapPut q.valid (q.pos % q.depth) ex, free := q.free - 1,
             filled := q.filled + 1, pos := q.pos + 1 }

/-! ## Operand limits (R27, R29) -/

/-- Whether a source operand raises ILLEGAL_OPND. -/
def badSource (regs : Nat) (noStream : Bool) : Opnd → Bool
  | .v n => regs ≤ n.val
  | .reserved _ => true
  | .sq _ => noStream
  | .dp _ => noStream
  | _ => false

/-- Whether a destination operand raises ILLEGAL_OPND. -/
def badDest (regs : Nat) (onlyVs : Bool) : Opnd → Bool
  | .v n => regs ≤ n.val
  | .s _ => false
  | .zero => false
  | .sq _ => onlyVs
  | .dp _ => true
  | .laneid => true
  | .ones => true
  | .reserved _ => true

/-- Decode-time causes in the order of R41: ILLEGAL_OPC, CAP, PAIR_RULE, ILLEGAL_OPND, PRIV. -/
def decodeCause (s : State) (gid : Nat) (it : Item) (pairBad : Bool) : Option Cause :=
  let regs := (launchOf s gid).regs
  if it.illegal then some { code := .illegalOpc }
  else if it.needsXf64 && !s.variant.xf64 then some { code := .cap }
  else if it.badPair || pairBad then some { code := .pairRule }
  else if it.badOpnd || it.srcs.any (badSource regs it.noStream)
      || it.dsts.any (badDest regs it.dstVs) then some { code := .illegalOpnd }
  else if it.privileged && !(grpAt s gid).priv then some { code := .priv }
  else none

/-! ## Executing lanes -/

/-- The executing lanes of an item: active lanes whose guard holds (R22). -/
def execLanes (g : Group) (act : Mask) (h : Hdr) : Mask :=
  maskWhere g.width fun l =>
    hasBit act l && (readP (g.thread l) h.guard.p.val != h.guard.neg)

/-! ## Undo entries (R304, R317, R319) -/

/-- Offset of undo entry `i` of lane `l` in its group's undo area: 32 entries of 10 bytes for each lane,
the register's number in 2 bytes and its old value in 8. -/
def undoPos (s : State) (gid l i : Nat) : Option Nat :=
  let g := grpAt s gid
  let u := 320 * g.width
  let size := (launchOf s gid).scratch
  if (g.gidx + 1) * u ≤ size then some (size - (g.gidx + 1) * u + 320 * l + 10 * i) else none

/-- The registers that a lane's first `n` undo entries save, with their values. -/
def undoEntries (s : State) (gid l n : Nat) : List (Nat × Word) :=
  (List.range n).filterMap fun i =>
    (undoPos s gid l i).map fun pos =>
      let t := teamOf s gid
      (memReadLE t.scratch pos 2, BitVec.ofNat 64 (memReadLE t.scratch (pos + 2) 8))

/-- Writes undo entry `i` of a lane: register `r` and its present value. -/
def writeUndo (s : State) (gid l i r : Nat) : State :=
  match undoPos s gid l i with
  | some pos =>
    let x := readV ((grpAt s gid).thread l) r
    modTeam s (grpAt s gid).team fun t =>
      { t with scratch := memWriteLE (memWriteLE t.scratch pos 2 r) (pos + 2) 8 x.toNat }
  | none => s

/-- The vector registers that an item writes. -/
def vDests (it : Item) : List Nat :=
  dedup (it.dsts.filterMap fun o =>
    match o with
    | .v n => some n.val
    | _ => none)

/-- Saves the registers that an item is about to write in a transactional lane; a lane whose undo area
is missing or full aborts with CAPACITY (R319, R340). Answers the lanes that may go on. -/
def saveTxUndo (s : State) (gid : Nat) (regs : List Nat) : List Nat → State × List Nat
  | [] => (s, [])
  | l :: ls =>
    let t := (grpAt s gid).thread l
    let saved := (undoEntries s gid l t.tx.undo).map (·.1)
    let new := regs.filter fun r => !saved.contains r
    if !t.tx.active || new.isEmpty then
      let (s, ok) := saveTxUndo s gid regs ls
      (s, l :: ok)
    else if (undoPos s gid l 0).isNone || 32 < t.tx.undo + new.length then
      saveTxUndo (abortLane s gid l 3 0) gid regs ls
    else
      let s := (new.zipIdx).foldl (fun s e => writeUndo s gid l (t.tx.undo + e.2) e.1) s
      let s := modThread s gid l fun t => { t with tx := { t.tx with undo := t.tx.undo + new.length } }
      let (s, ok) := saveTxUndo s gid regs ls
      (s, l :: ok)

/-- The undo entries that a speculating group still needs for a write, by lane (R304). -/
def specNeeds (s : State) (gid : Nat) (regs : List Nat) (l : Nat) : List Nat :=
  let n := mapGet 0 (grpAt s gid).spec.undo l
  let saved := (undoEntries s gid l n).map (·.1)
  regs.filter fun r => !saved.contains r

/-- Whether every lane has room for them. -/
def specRoom (s : State) (gid : Nat) (regs : List Nat) (lanes : List Nat) : Bool :=
  lanes.all fun l => mapGet 0 (grpAt s gid).spec.undo l + (specNeeds s gid regs l).length ≤ 32

def saveSpecUndo (s : State) (gid : Nat) (regs : List Nat) (lanes : List Nat) : State :=
  lanes.foldl (fun s l =>
    let n := mapGet 0 (grpAt s gid).spec.undo l
    let new := specNeeds s gid regs l
    let s := (new.zipIdx).foldl (fun s e => writeUndo s gid l (n + e.2) e.1) s
    modGrp s gid fun g => { g with spec := { g.spec with undo := mapPut g.spec.undo l (n + new.length) } }) s

/-! ## Locks (R326, R327, R336) -/

/-- Whether a lock or hold of another blocks an access: a commit's write lock blocks every access, a read-hold and an
irrevocable lane's lock those that write. An irrevocable lane passes its own. -/
def lockBlocks (ls : List Lock) (asid sector gid lane : Nat) (wr : Bool) : Bool :=
  ls.any fun k => k.asid = asid && k.sector = sector && !(k.irrev && k.gid = gid && k.lane = lane) &&
    (wr || (k.write && !k.irrev))

/-- Whether some scratchpad access of the lanes, of `n` bytes each, is blocked at the banks. -/
def scratchBlocked (s : State) (gid n : Nat) (wr : Bool) (as : List (Nat × Nat)) : Bool :=
  let ls := (teamOf s gid).locks
  !ls.isEmpty && as.any fun e =>
    (List.range ((e.2 + n - 1) / 32 - e.2 / 32 + 1)).any fun i => lockBlocks ls 0 (e.2 / 32 + i) gid e.1 wr

/-! ## The scratchpad banks (R138, R139) -/

/-- Whether an offset lies in the half that is on the other core of the group's pair. -/
def farOffset (s : State) (gid off : Nat) : Bool :=
  let g := grpAt s gid
  decide (0x80000 ≤ off) != decide (g.core ≠ (teamAt s g.team).core)

/-- Core cycles that accesses of `n` bytes occupy the banks: the most distinct 8-byte words that they reach in any one. -/
def bankLoad (n : Nat) (as : List Nat) : Nat :=
  let words := dedup (as.flatMap fun a => (List.range ((a + n - 1) / 8 - a / 8 + 1)).map (a / 8 + ·))
  ((List.range 32).map fun b => (words.filter fun w => w % 32 = b).length).foldl max 0

/-- The banks of a core are held for `c` cycles, from when they are free: the cycles that this adds to an access. -/
def takeBanks (s : State) (core c : Nat) : State × Nat :=
  if c = 0 then (s, 0)
  else
    let start := max s.cycle (coreAt s core).banks
    (modCore s core fun k => { k with banks := start + c }, start + c - 1 - s.cycle)

/-- A group's access enters the banks of its own core and of its pair's other core, for the cycles given. -/
def enterBanks (s : State) (gid near far : Nat) : State × Nat :=
  let g := grpAt s gid
  let a := takeBanks s g.core near
  let b := takeBanks a.1 (if g.core % 2 = 0 then g.core + 1 else g.core - 1) far
  (b.1, max a.2 b.2)

/-- Cycles that a scratchpad access takes at the least: more when a lane reaches the half on the other core
of the pair (R138, and the table at R139). -/
def scratchLatency (s : State) (gid : Nat) (nats : List (Nat × Nat)) : Nat :=
  if nats.any fun e => farOffset s gid e.2 then 36 else 20

/-- The accesses of lanes enter the banks, each half for the cycles that `load` gives its offsets: the cycles that the item
takes at the least. -/
def bankAccess (s : State) (gid : Nat) (load : List Nat → Nat) (nats : List (Nat × Nat)) : State × Nat :=
  let far := nats.filter fun e => farOffset s gid e.2
  let near := nats.filter fun e => !farOffset s gid e.2
  let r := enterBanks s gid (load (near.map (·.2))) (load (far.map (·.2)))
  (r.1, scratchLatency s gid nats + r.2)

/-- One access of a whole block of scratchpad, which holds the banks for `c` cycles. -/
def blockAccess (s : State) (gid c off : Nat) : State × Nat := bankAccess s gid (fun as => if as.isEmpty then 0 else c) [(0, off)]

/-- Whether a pop or push of an item meets a locked sector of its queue's buffer (R326). -/
def streamBlocked (s : State) (gid : Nat) (it : Item) (ex : Mask) : Bool :=
  let g := grpAt s gid
  let meets := fun (wr : Bool) (o : Opnd) =>
    match o with
    | .sq n =>
      let q := g.queue n.val
      scratchBlocked s gid 8 wr ((lanesOf g.width ex).map fun l => (l, q.elemOff g.width q.pos l))
    | _ => false
  it.srcs.any (meets false) || it.dsts.any (meets true)

/-! ## Issue conditions (R351) -/

/-- The cycle from which DIST counts: two items that issue in one cycle count as one issue. -/
def distFrom (s : State) (g : Group) : Option Nat :=
  if g.lastIssue = some s.cycle then g.prevIssue else g.lastIssue

/-- The number of a unit of a quarter; the lane units of its two half-quarters are apart. -/
def unitKey (u : UnitClass) (half : Nat) : Nat :=
  match u with
  | .none | .a => 0 + 10 * half
  | .m | .m2 => 1 + 10 * half
  | .f => 2 + 10 * half
  | .f64 => 3 + 10 * half
  | .d32 | .d64 => 4
  | .x => 5
  | .ls => 6

/-- Core cycles that one issue holds its unit (R204, R205, R237): the D unit takes ceil(e / r), and for
the exact unit and the load-store unit (R137) the item gives its cycles. -/
def unitHold (u : UnitClass) (elements : Nat) : Nat :=
  match u with
  | .m2 => 2
  | .d32 => (elements + 15) / 16
  | .d64 => (elements + 3) / 4
  | .x | .ls => max 1 elements
  | _ => 1

/-- The units that an item of a group takes: a group wider than a half-quarter takes the lane units of both. -/
def unitKeys (u : UnitClass) (g : Group) : List Nat :=
  if g.width = 16 then [unitKey u g.half] else dedup [unitKey u 0, unitKey u 1]

/-- Whether a unit takes issues one after the other, those of one cycle too: the D, exact and load-store units of a
quarter (R137, R205, R237). -/
def UnitClass.serial : UnitClass → Bool
  | .d32 | .d64 | .x | .ls => true
  | _ => false

/-- The cycle to which an item's issue holds a unit, free from cycle `free` on; a width-64 group's counts from its second
issue cycle (R204). -/
def unitUntil (u : UnitClass) (cycle free elements wide : Nat) : Nat :=
  if u.serial then max (cycle + wide) free + unitHold u elements
  else max free (cycle + wide + unitHold u elements)

/-- The descriptor read of an SQCFG that the group is executing (R114). -/
def Group.descr (g : Group) : Option Op := g.ops.find? fun o =>
  match o.kind with
  | .descr .. => true
  | _ => false

/-- Whether an SQCFG at another address is reading its descriptor. -/
def descrElsewhere (g : Group) (pc : Word) : Bool := g.descr.any fun o => o.pc ≠ pc

/-- Whether the group may issue anything: resident, its team placed, not held by an escalation, not stalled in
speculation (R305, R374). -/
def groupFree (s : State) (g : Group) : Bool :=
  g.resident && decide (g.notBefore ≤ s.cycle) && (teamAt s g.team).st ≠ .placing && g.held = .none && g.spec.st ≠ .stalled &&
    g.spec.st ≠ .validating && !g.spec.rollback

/-- Earlier instructions whose acquire or fence holds a later access of a lane (R145, R282, R288). -/
def heldAccess (g : Group) (it : Item) (ex : Mask) : Bool :=
  let pushes := it.dsts.any fun o =>
    match o with
    | .sq _ => true
    | _ => false
  (it.access || namesStream it) && g.ops.any fun o =>
    (o.left &&& ex ≠ 0) &&
    match o.holds with
    | .all => true
    | .stores => it.writesMem || pushes
    | .scratch => it.scratch
    | .none => false
    | .bytes _ => false

/-- Whether a GRES.X in flight has still to write an accumulator that the item names (R237, R314). -/
def heldAcc (g : Group) (it : Item) : Bool :=
  g.ops.any fun o =>
    match o.kind with
    | .gres _ _ _ _ _ (some n) => it.xas.contains n
    | _ => false

/-- DIST, the held flags and the flag that SETF names (R15, R351). -/
def distOk (s : State) (g : Group) (c : Ctl) : Bool :=
  match distFrom s g with
  | some last => last + max c.dist.toNat 1 ≤ s.cycle
  | none => true

def waitOk (g : Group) (c : Ctl) : Bool :=
  (List.range 12).all fun f => !(hasBit c.wait f) || g.flag f = 0

def setfOk (g : Group) (c : Ctl) : Bool :=
  match c.setf with
  | some f => g.flag f.val ≤ 62
  | none => true

/-- The number of an issue class. -/
def IssueClass.num : IssueClass → Nat
  | .lane => 0 | .xlane => 1 | .exact => 2 | .div => 3 | .mem => 4 | .ctrl => 5 | .other => 6
  | .paired => 7

/-- The items that the quarter has issued in this cycle. -/
def pickedNow (s : State) (q : Quarter) : List (Nat × Word × Nat × Nat) :=
  if q.pickCycle = some s.cycle then q.picked else []

/-- Whether a further item may issue in a cycle in which the quarter has issued some (R352 to R354):
one of a width-16 group of the other half-quarter, or a second of the same group, from another PC,
when both are of one class marked for dual issue. -/
def dualOk (s : State) (gid : Nat) (it : Item) : Bool :=
  let g := grpAt s gid
  let now := pickedNow s (quartAt s g.quart)
  let mine := now.filter fun e => e.1 = gid
  match mine with
  | [] => now.all fun e => let o := grpAt s e.1; o.width = 16 && g.width = 16 && o.half ≠ g.half
  | [e] => it.cls.num ≤ 2 && e.2.2.1 = it.cls.num
  | _ => false

/-- Whether the lane units, the issue stage and power control let the item issue (R204, R352, R420).
A unit that the group's other PC took in this cycle serves other lanes (R354). -/
def unitOk (s : State) (gid : Nat) (it : Item) : Bool :=
  let g := grpAt s gid
  let q := quartAt s g.quart
  let k := unitKey it.unit g.half
  let shared := (pickedNow s q).any fun e => e.1 = gid && e.2.2.2 = k && it.cls.num ≤ 2
  (!(pickedNow s q).isEmpty || q.issueFree ≤ s.cycle) && dualOk s gid it &&
  (it.unit = .none || shared || (unitKeys it.unit g).all fun k => mapGet 0 q.unitFree k ≤ s.cycle) &&
  mapGet 0 (coreAt s g.core).throttle g.quarter ≤ s.cycle

/-- Whether the registers a P word reads, without the one retained by the preceding instruction of the
block, fall in one bank (R36 rule 5). -/
def pairBanksBad (g : Group) (act : Mask) (it : Item) : Bool :=
  let kept : Option Nat :=
    match lanesOf g.width act with
    | l :: _ => ((g.thread l).block.bind (·.retained)).map (·.val)
    | [] => none
  let rs := it.pairRegs.filter fun r => some r ≠ kept
  (List.range 8).any fun b => 2 ≤ (rs.filter fun r => r % 8 = b).length

/-- Whether lane `l` finds a poisoned value in a source: a register, a stream entry, a drained row. -/
def poisonedOpnd (s : State) (gid l : Nat) (o : Opnd) : Bool :=
  let g := grpAt s gid
  match o with
  | .v n => (g.thread l).poison.contains n.val
  | .s n => g.sPoison.contains n.val
  | .sq n =>
    let q := g.queue n.val
    hasBit (mapGet 0 q.valid (q.pos % q.depth)) l && scratchBad s g.team (q.elemOff g.width q.pos l) 8
  | .dp n =>
    match (g.drain n.val).rows with
    | r :: _ => hasBit r.2.2 l
    | [] => false
  | _ => false

/-- The first executing lane that reads a poisoned value, from a source or from an accumulator that the
item uses (R391); the address consumed is that of a stream entry in scratchpad, and 0 of a register. -/
def poisonRead (s : State) (gid : Nat) (it : Item) (ex : Mask) : Option Cause :=
  let g := grpAt s gid
  let addr := fun (l : Nat) => (it.srcs.find? (poisonedOpnd s gid l)).map fun o =>
    match o with
    | .sq n =>
      let q := g.queue n.val
      BitVec.ofNat 64 (q.elemOff g.width q.pos l)
    | _ => 0
  ((lanesOf g.width ex).find? fun l =>
    (addr l).isSome || (!it.xaFresh && it.xas.any g.xaPoison.contains)).map fun l =>
      { code := .uncorr, addr := (addr l).getD 0, lane := l }

/-- A fault found after its own instruction's issue that this item has to raise (R110, R249, R263,
R313). -/
def deferredFor (g : Group) (it : Item) : Option Deferred :=
  g.deferred.find? fun d =>
    match d.flag with
    | some f => hasBit it.hdr.ctl.wait f.val
    | none =>
      (d.family = 1 && it.family = .matrix) || (d.family = 2 && it.family = .runner) ||
      (d.family = 3 &&
        (it.queue = some d.qn || (it.srcs ++ it.dsts).any fun o =>
          match o with
          | .sq n => n.val = d.qn
          | _ => false))

/-! ## Issue cost (R30, R31) -/

/-- Whether the operand buffer serves a register to the executing lanes of an item that issues now: one of those
retained in the group's last issue cycle before this one, in every lane (R31). -/
def servedNow (s : State) (g : Group) (ex : Mask) (n : Nat) : Bool :=
  (if g.lastIssue = some s.cycle then g.obufPrev else g.obuf).any fun e => e.1 = n && ex &&& ~~~e.2 = 0

/-- The distinct vector registers an item reads, without those served from the operand buffer. -/
def bankReads (s : State) (g : Group) (it : Item) (ex : Mask) : List Nat :=
  dedup (it.srcs.filterMap fun o =>
    match o with
    | .v n => if servedNow s g ex n.val then none else some n.val
    | _ => none)

/-- Extra issue cycles: one less than the most distinct registers read from any one bank. -/
def bankCost (rs : List Nat) : Nat :=
  ((List.range 8).map fun b => (rs.filter fun r => r % 8 = b).length).foldl max 1 - 1

/-- The register that RET names (R31). -/
def retainedReg (h : Hdr) (srcs : List Opnd) : Option (Fin 768) :=
  let o := match h.ret with
    | .none => none
    | .a => srcs[0]?
    | .b => srcs[1]?
    | .c => srcs[2]?
  match o with
  | some (.v n) => some n
  | _ => none

/-! ## What an item's body answers -/

/-- The effect of an item that issues: the writes of its result, flags, what it still waits for, the
lanes that transfer, and extra issue cycles. -/
structure Effect where
  writes : List RegWrite := []
  fflags : FF := 0#7
  kind : OpKind := .ready
  /-- Later accesses that it holds back until it completes. -/
  holds : Holds := .none
  /-- A latency that replaces the item's. -/
  lat : Option Nat := none
  /-- Cycles that an instruction of variable latency takes at the least. -/
  least : Nat := 1
  jumps : Option (List (Nat × Word)) := none
  extra : Nat := 0
  /-- Lane-elements computed, for the D unit (R205). -/
  elements : Nat := 0
  /-- The lanes that took part, when the body has aborted some (R322). -/
  ran : Option Mask := none
  /-- The body has set every active lane's PC itself (R381). -/
  stay : Bool := false
  /-- TFENCE waits for it, as it turns out at issue (R379). -/
  setsFlags : Bool := false
  /-- The item demotes its threads' PC (R361). -/
  yields : Bool := false
deriving DecidableEq, Repr, Inhabited

/-- What a body answers: it is not ready, it raises a fault or a trap, or it takes effect. `begun` is an
access that has sent residency probes and is not accepted before their answer (R68). `laneFault`
is a fault of an access, found lane by lane: the body has aborted the transactional lanes that
failed (R322), and the cause is raised for the lanes that are not transactional. -/
inductive Body where
  | wait
  | begun (s : State)
  | fault (c : Cause)
  | laneFault (c : Cause) (s : State)
  | trap (c : Cause)
  | done (e : Effect) (s : State)

/-- What `exec` answers. -/
abbrev Out := Host.Outcome State Fault Refusal

/-- The item does not issue in this cycle: nothing changes, and no item is issuing. -/
def notIssued (s : State) : Out := .next { s with issuing := none }

/-- Counts an issue cycle against the group's other PCs, but in privileged mode not against those outside the handler
population (R368), and clears the count of the PC that issued (R356, R361); a PC demoted by YIELD is so until another PC
of the group issues. -/
def countPcs (s : State) (g : Group) (pc : Word) : Group :=
  let pcs := dedup ((g.threads.filter fun t => t.status == .running &&
    (t.wait == .none || match t.wait with | .recon _ => true | _ => false)).map (·.pc))
  let again := g.lastIssue = some s.cycle
  let kept := fun (p : Word) => g.priv && !(List.range g.width).any fun l =>
    hasBit g.handler l && (g.thread l).pc = p
  let counts := pcs.foldl (fun m p =>
    if p = pc then mapErase m p.toNat
    else if again || kept p then m
    else mapPut m p.toNat (mapGet 0 m p.toNat + 1)) (mapErase g.counts pc.toNat)
  { g with
    counts := counts.filter fun e => pcs.any fun p => p.toNat = e.1
    promoted := g.promoted.filter (· ≠ pc)
    lowPcs := (g.lowPcs.filter fun e => e.1 &&& g.activeAt pc ≠ 0).map fun e =>
      (e.1, if again then e.2 else e.2 + 1) }

/-- Ends a thread: it leaves every population and drops its reconvergence records (R361). -/
def endThread (t : Thread) : Thread := { t with status := .exited, recon := [], wait := .none }

/-- Whether an operand is a drain port. -/
def Opnd.isDrain : Opnd → Bool
  | .dp _ => true
  | _ => false

/-- Items of one transaction (R323). -/
abbrev txItems : Nat := 65536

/-- Lanes that have issued the last item that a transaction may abort with LIMIT (R323). -/
def abortLimit (s : State) (gid : Nat) (m : Mask) : State :=
  let g := grpAt s gid
  abortLanes s gid (maskWhere g.width fun l => hasBit m l && decide (txItems ≤ (g.thread l).tx.items)) 5 0

/-- Notes an item among those that its quarter has issued in this cycle. -/
def notePick (s : State) (i : Issue) (it : Item) : State :=
  let g := grpAt s i.gid
  modQuart s g.quart fun q =>
    { q with
      picked := pickedNow s q ++ [(i.gid, i.pc, it.cls.num, unitKey it.unit g.half)]
      pickCycle := some s.cycle }

/-- The record of an issued item: its flag rises, its result is pending, its lanes move on, and the
issue stage notes the issue (R15, R16, R352, R354, R357). -/
def finishIssue (s : State) (i : Issue) (it : Item) (ex : Mask) (e : Effect) : State :=
  let g := grpAt s i.gid
  let wide := if g.width = 64 then 1 else 0
  let lat := if ex = 0 then it.lat.getD 1 else (e.lat <|> it.lat).getD (max it.least e.least)
  let op : Op :=
    { id := g.nextOp, pc := i.pc, setf := it.hdr.ctl.setf, due := s.cycle + wide + lat
      fixed := ex = 0 || it.lat.isSome || e.lat.isSome, lanes := ex, left := ex, writes := e.writes
      fflags := e.fflags, setsFlags := (it.setsFlags || e.setsFlags || it.srcs.any Opnd.isDrain) && ex ≠ 0
      kind := e.kind, holds := e.holds, track := it.track }
  let cost := (if it.noBanks then 0 else bankCost (bankReads s g it ex)) + e.extra
  let next := i.pc + BitVec.ofNat 64 i.len
  let ret := retainedReg it.hdr it.srcs
  let s := modGrp s i.gid fun g =>
    let g := countPcs s g i.pc
    let g := raiseFlag g it.hdr.ctl.setf
    let g := if e.yields then { g with lowPcs := g.lowPcs ++ [(i.act, 0)] } else g
    let g := if it.guardExit then
        g.modLanes (i.act &&& ~~~ex) fun _ t => if t.wait = .aborting then t else endThread t
      else g
    let g := if e.stay then g else g.modLanes i.act fun l t =>
      let t := countItem t
      match e.jumps with
      | some js => if (js.any fun j => j.1 = l) then jumpTo t (mapGet next js l) else advance t next ret
      | none => advance t next ret
    { g with
      ops := g.ops ++ [op]
      nextOp := g.nextOp + 1
      prevIssue := if g.lastIssue = some s.cycle then g.prevIssue else g.lastIssue
      lastIssue := some s.cycle
      yld := it.hdr.ctl.yld
      waiting := 0
      obuf := (if g.lastIssue = some s.cycle then g.obuf else []) ++ (ret.map fun n => (n.val, ex)).toList
      obufPrev := if g.lastIssue = some s.cycle then g.obufPrev else g.obuf }
  let s := modQuart s g.quart fun q =>
    { q with
      issueFree := max q.issueFree (s.cycle + cost + (if g.width = 64 then 2 else 0))
      unitFree := if it.unit = .none || ex = 0 then q.unitFree
        else (unitKeys it.unit g).foldl (fun m k =>
          mapPut m k (unitUntil it.unit s.cycle (mapGet 0 m k) e.elements wide)) q.unitFree }
  enterBlocks (abortLimit (notePick s i it) i.gid i.act) i.gid

/-- Raises a cause found in decoding an item; the issue stage notes the item's class (R353, R367). -/
def raiseItem (s : State) (i : Issue) (it : Item) (c : Cause) : State :=
  raiseFault (notePick s i it) i c

/-- Raises a cause that the executing lanes of an item meet. -/
def raiseExec (s : State) (i : Issue) (it : Item) (ex : Mask) (c : Cause) : State :=
  raiseLanes (notePick s i it) i ex c

/-- A fault that waited for a later item is raised on it; it waits on where the cause is not delivered on the group: in
speculation, and in privileged mode, where DOUBLE takes its place (R368, R371). -/
def takeDeferred (g : Group) (d : Deferred) : Group :=
  if !d.cause.code.escalated && (g.priv || g.speculative) then g
  else { g with deferred := g.deferred.filter (· ≠ d) }

/-- The item that is issuing, and its group. -/
def issueOf (s : State) : Issue := s.issuing.getD default
def issuingGroup (s : State) : Group := grpAt s (issueOf s).gid

/-- Issues one item: conditions, causes, executing lanes, body, record. -/
def runItem (it : Item) (body : Issue → Mask → State → Body) (s : State) : Out :=
  match s.issuing with
  | none => .refused .noIssuingGroup
  | some i =>
    let g := grpAt s i.gid
    if !groupFree s g || descrElsewhere g i.pc || !distOk s g it.hdr.ctl then notIssued s
    else
      match deferredFor g it with
      | some d =>
        match decodeCause s i.gid it (pairBanksBad g i.act it) with
        | some c => .next (raiseItem s i it c)
        | none => .next (raiseItem (modGrp s i.gid fun g => takeDeferred g d) i it d.cause)
      | none =>
        if it.hold || heldAcc g it || !waitOk g it.hdr.ctl || !setfOk g it.hdr.ctl || !unitOk s i.gid it then
          notIssued s
        else
          match decodeCause s i.gid it (pairBanksBad g i.act it) with
          | some c => .next (raiseItem s i it c)
          | none =>
            let all := execLanes g i.act it.hdr
            let bad := if it.guardExit then i.act &&& g.txLanes
              else if it.txBad || namesStream it then all &&& g.txLanes else 0
            let s1 := abortLanes s i.gid bad 9 0
            let ex := all &&& ~~~bad
            if (g.spec.st = .speculating) && (it.specHold || namesStream it ||
                !specRoom s i.gid (vDests it) (lanesOf g.width ex)) then .next (stallSpec s i.gid)
            else if heldAccess g it ex then notIssued s
            else
              let uses := if ex = 0 then [] else usesOf g it
              match uses.findSome? fun u => match u with | .raises c => some c | _ => none with
              | some c => .next (raiseExec s1 i it all c)
              | none =>
                if uses.any (· == .waits) || streamBlocked s i.gid it ex then notIssued s
                else
                  let regs := vDests it
                  let (s2, ok) := saveTxUndo s1 i.gid regs (lanesOf g.width ex)
                  let ex := maskOf 64 ok
                  let s2 := if g.spec.st = .speculating then
                      saveSpecUndo s2 i.gid regs (lanesOf g.width ex) else s2
                  if ex = 0 then .next (finishIssue s2 i it 0 {})
                  else
                    match poisonRead s i.gid it ex with
                    | some c => .next (raiseExec s1 i it all c)
                    | none =>
                    match body i ex s2 with
                    | .wait => notIssued s
                    | .begun s3 => .next s3
                    | .fault c => .next (raiseExec s1 i it all c)
                    | .laneFault c s3 =>
                      .next (deliver (notePick s3 i it) { i with act := i.act &&& ~~~g.txLanes } i.pc c)
                    | .trap c => .next (raiseTrap (notePick s1 i it) i all c)
                    | .done e s3 => .next (finishIssue s3 i it (e.ran.getD ex) e)

/-! ## Checks by lane (R322, R367) -/

/-- A lane's failed check: the lane, the check's place in the instruction's order, and the cause. -/
abbrev Fail := Nat × Nat × Cause

/-- The failed check that is reported: the earliest in order, in the lowest lane. -/
def firstFail (fs : List Fail) : Option Cause :=
  (minBy (fun f => 64 * f.2.1 + f.1) fs).map fun f => f.2.2

/-- The failed check of a memory instruction: the first in the lowest failing lane (R67, R143). -/
def lowestFail (fs : List Fail) : Option Cause :=
  (minBy (fun f => 64 * f.1 + f.2.1) fs).map fun f => f.2.2

/-- Aborts with FAULT the transactional lanes that failed a check, for a cause that is not escalated
past R322. Answers the lanes aborted and the failures left. -/
def splitFails (s : State) (gid : Nat) (fs : List Fail) : State × Mask × List Fail :=
  let tx := (grpAt s gid).txLanes
  let aborts : Fail → Bool := fun f =>
    hasBit tx f.1 && f.2.2.code ≠ .placement && f.2.2.code ≠ .uncorr
  let gone := fs.filter aborts
  (gone.foldl (fun s f => abortLane s gid f.1 4 f.2.2.code.num) s, maskOf 64 (gone.map (·.1)),
    fs.filter fun f => !aborts f)

/-- Goes on with an item after its checks: the failing transactional lanes abort; a failure left is
raised; the lanes left take effect. -/
def checked (i : Issue) (ex : Mask) (s : State) (fs : List Fail)
    (pick : List Fail → Option Cause) (k : Mask → State → Body) : Body :=
  let (s, gone, rest) := splitFails s i.gid fs
  match pick rest with
  | some c => .laneFault c s
  | none =>
    let ex := ex &&& ~~~gone
    if ex = 0 then .done { ran := some 0 } s
    else
      match k ex s with
      | .done e s => .done { e with ran := e.ran <|> some ex } s
      | b => b

/-! ## Results by lane -/

/-- The writes of a result to a destination: each executing lane's own register, or for sN the lowest
executing lane's value (R28). -/
def destWrites (d : Opnd) (vals : List (Nat × Word)) : List RegWrite :=
  match d with
  | .v n => vals.map fun e => ⟨e.1, .v e.1 n.val, e.2⟩
  | .s n =>
    match vals with
    | e :: _ => [⟨e.1, .s n.val, e.2⟩]
    | [] => []
  | _ => []

/-- Pushes a result to a stream destination at issue; other destinations wait for the latency. -/
def pushDest (s : State) (gid : Nat) (ex : Mask) (d : Opnd) (vals : List (Nat × Word)) : State :=
  match d with
  | .sq n => pushEntry s gid n.val ex vals
  | _ => s

/-- The values of sources in a lane. -/
def lanSrcs (s : State) (gid l : Nat) (os : List Opnd) : List Word := os.map (readOpnd s gid l)

/-- The body of an item whose lanes compute one result each from their sources. -/
def laneBody (it : Item) (d : Opnd) (k : Nat) (f : Group → Nat → List Word → Word × FF)
    (i : Issue) (ex : Mask) (s : State) : Body :=
  let g := grpAt s i.gid
  let rs := (lanesOf g.width ex).map fun l => (l, f g l (lanSrcs s i.gid l it.srcs))
  let vals := rs.map fun e => (e.1, e.2.1)
  let s := consumeAll s i.gid it
  let s := pushDest s i.gid ex d vals
  .done { writes := destWrites d vals, fflags := ffAll (rs.map fun e => e.2.2),
          elements := k * rs.length } s

/-- The body of an item whose lanes compute a predicate. -/
def predBody (it : Item) (pd : Fin 8) (f : Group → Nat → List Word → Bool × FF)
    (i : Issue) (ex : Mask) (s : State) : Body :=
  let g := grpAt s i.gid
  let rs := (lanesOf g.width ex).map fun l => (l, f g l (lanSrcs s i.gid l it.srcs))
  let s := consumeAll s i.gid it
  .done { writes := rs.map fun e => ⟨e.1, .p e.1 pd.val, if e.2.1 then 1 else 0⟩,
          fflags := ffAll (rs.map fun e => e.2.2) } s

end Sys2Proof.Machine
end

