-- ==== Sys2Proof/Machine/Complete.lean ====
section
/-! DEFINITION. Complete.lean: the completion of instructions in flight and the passing of a core cycle
(R15, R198, R357, R358). -/

namespace Sys2Proof.Machine

/-- The instruction in flight of a number. -/
def opOf (g : Group) (n : Nat) : Option Op := g.ops.find? fun o => o.id = n

/-- Changes an instruction in flight. -/
def modOp (g : Group) (n : Nat) (f : Op → Op) : Group :=
  { g with ops := g.ops.map fun o => if o.id = n then f o else o }

/-- The writes of an instruction for the lanes of a mask. -/
def writesFor (o : Op) (m : Mask) : List RegWrite := o.writes.filter fun w => hasBit m w.lane

/-- An instruction completes in the lanes of a mask: their writes take effect; when no lane is left its
FFLAGS are set and its SETF flag falls (R15, R198). -/
def completeOp (g : Group) (o : Op) (m : Mask) : Group :=
  let g := (writesFor o m).foldl (landWrite o.id ((lanesOf 64 o.lanes).headD 0)) g
  let left := o.left &&& ~~~m
  if left = 0 then
    dropFlag { g with fflags := g.fflags ||| o.fflags, ops := g.ops.filter (·.id ≠ o.id) } o.setf
  else modOp g o.id fun o => { o with left := left, writes := o.writes.filter fun w => hasBit left w.lane }

/-- An instruction completes in every lane it has left. -/
def completeAll (g : Group) (o : Op) : Group := completeOp g o o.left

/-- The fixed-latency instructions of a group whose results take effect at the start of a cycle, in
issue order (R357, R358). -/
def matureGroup (cycle : Nat) (g : Group) : Group :=
  let g := { g with landed := [] }
  (g.ops.filter fun o => o.fixed && o.due ≤ cycle).foldl completeAll g

/-- One core cycle passes. -/
def tickCycle (s : State) : State :=
  let c := s.cycle + 1
  { s with cycle := c, groups := s.groups.map fun e => (e.1, matureGroup c e.2) }

/-- The earlier instructions of a group that are in flight in some lane of a mask. -/
def flightIn (g : Group) (m : Mask) : List Op := g.ops.filter fun o => o.left &&& m ≠ 0

end Sys2Proof.Machine
end

