-- ==== Sys2Proof/Machine/Number.lean ====
section
/-! DEFINITION. Number.lean: the number formats, the rounding function, and the exact formats (R187 to
R195, R200 to R202). -/

namespace Sys2Proof.Machine

/-! ## Formats (R187) -/

/-- The floating-point formats. -/
inductive Fmt where
  | f64 | f32 | f16 | bf16 | e5m2 | e4m3 | e2m1
deriving DecidableEq, Repr, Inhabited

/-- Fraction bits. -/
def Fmt.mbits : Fmt → Nat
  | .f64 => 52 | .f32 => 23 | .f16 => 10 | .bf16 => 7 | .e5m2 => 2 | .e4m3 => 3 | .e2m1 => 1

/-- Exponent bits. -/
def Fmt.ebits : Fmt → Nat
  | .f64 => 11 | .f32 => 8 | .f16 => 5 | .bf16 => 8 | .e5m2 => 5 | .e4m3 => 4 | .e2m1 => 2

/-- Bits in all. -/
def Fmt.size (f : Fmt) : Nat := 1 + f.ebits + f.mbits

def Fmt.bias (f : Fmt) : Nat := 2 ^ (f.ebits - 1) - 1

/-- Precision, and the exponent of the smallest normal. -/
def Fmt.p (f : Fmt) : Nat := f.mbits + 1
def Fmt.emin (f : Fmt) : Int := 1 - (f.bias : Int)

/-- The encodings without sign of the largest finite value, infinity, and the canonical NaN (R189). -/
def Fmt.maxBits : Fmt → Nat
  | .e4m3 => 0x7E
  | .e2m1 => 7
  | f => (2 ^ f.ebits - 1) * 2 ^ f.mbits - 1
def Fmt.infBits (f : Fmt) : Nat := (2 ^ f.ebits - 1) * 2 ^ f.mbits
def Fmt.nanBits : Fmt → Nat
  | .f64 => 0x7FF8000000000000 | .f32 => 0x7FC00000 | .f16 => 0x7E00 | .bf16 => 0x7FC0
  | .e5m2 => 0x7E | .e4m3 => 0x7F | .e2m1 => 0

/-- An encoding with its sign. -/
def Fmt.signed (f : Fmt) (neg : Bool) (b : Nat) : Nat := if neg then b + 2 ^ (f.size - 1) else b

/-- The format of a type's elements. -/
def fmtOf : Ty → Fmt
  | .f64 => .f64
  | .bf16 | .bf16x4 => .bf16
  | .f16 | .f16x4 => .f16
  | .e4m3 | .e4m3x8 => .e4m3
  | .e5m2 | .e5m2x8 => .e5m2
  | .e2m1 | .e2m1x16 => .e2m1
  | _ => .f32

/-! ## Values (R188, R189) -/

/-- A value: a NaN, an infinity, or (-1)^neg × m × 2^e exactly. -/
inductive FVal where
  | nan (signalling : Bool)
  | inf (neg : Bool)
  | fin (neg : Bool) (m : Nat) (e : Int)
deriving DecidableEq, Repr, Inhabited

/-- The value of an encoding. -/
def Fmt.value (f : Fmt) (x : Nat) : FVal :=
  let neg := bits x (f.size - 1) 1 = 1
  let ef := bits x f.mbits f.ebits
  let m := bits x 0 f.mbits
  let special := ef = 2 ^ f.ebits - 1
  if f = .e4m3 && special && m = 7 then .nan false
  else if f ≠ .e4m3 && f ≠ .e2m1 && special then
    if m = 0 then .inf neg else .nan (bits m (f.mbits - 1) 1 = 0)
  else if ef = 0 then .fin neg m (f.emin - f.mbits)
  else .fin neg (m + 2 ^ f.mbits) ((ef : Int) - f.bias - f.mbits)

def FVal.isNan : FVal → Bool
  | .nan _ => true
  | _ => false
def FVal.isSig : FVal → Bool
  | .nan s => s
  | _ => false
def FVal.isInf : FVal → Bool
  | .inf _ => true
  | _ => false
def FVal.isZero : FVal → Bool
  | .fin _ m _ => m = 0
  | _ => false
def FVal.neg : FVal → Bool
  | .nan _ => false
  | .inf n => n
  | .fin n _ _ => n
def FVal.negate : FVal → FVal
  | .nan s => .nan s
  | .inf n => .inf !n
  | .fin n m e => .fin (!n) m e

/-- NV for the signalling NaNs among some values. -/
def sigFlags (xs : List FVal) : FF := ffIf (xs.any (·.isSig)) ffNV

/-! ## Rounding (R193, R194) -/

/-- The column of R194 that an overflow takes. -/
inductive Ovf where
  | inf | nan4 | sat
deriving DecidableEq, Repr, Inhabited

/-- The overflow result: encoding with sign. -/
def Fmt.overflow (f : Fmt) (o : Ovf) (m : Rnd) (neg : Bool) : Nat :=
  let toMax : Bool :=
    match o, m with
    | .sat, _ => true
    | _, .rtz => true
    | _, .rdn => !neg
    | _, .rup => neg
    | _, _ => false
  if toMax then f.signed neg f.maxBits
  else if o = .nan4 then f.nanBits
  else f.signed neg f.infBits

/-- Whether a remainder `rem` of `2^k` (with more below it when `sticky`) rounds the magnitude up. -/
def roundsUp (m : Rnd) (neg odd : Bool) (rem k : Nat) (sticky : Bool) : Bool :=
  let inexact := rem ≠ 0 || sticky
  let twice := 2 * rem
  let gt := 2 ^ k < twice || (twice = 2 ^ k && sticky)
  let tie := twice = 2 ^ k && !sticky
  match m with
  | .rtz => false
  | .rdn => neg && inexact
  | .rup => !neg && inexact
  | .rna => gt || tie
  | .rne => gt || (tie && odd)
  | .dyn => false

/-- round((-1)^neg × x, mode, fmt) for x = m × 2^e, or when `sticky` for some x strictly between
m × 2^e and (m + 1) × 2^e; `m` is not zero. Answers the encoding and the flags. -/
def Fmt.round (f : Fmt) (o : Ovf) (mode : Rnd) (neg : Bool) (m : Nat) (e : Int) (sticky : Bool) :
    Nat × FF :=
  let top : Int := (log2 m : Int) + e
  let ee := max top f.emin
  let qe := ee - (f.p - 1 : Nat)
  let k := (qe - e).toNat
  let n := if e ≤ qe then m >>> k else m <<< (e - qe).toNat
  let rem := if e ≤ qe then m % 2 ^ k else 0
  let up := roundsUp mode neg (n % 2 = 1) rem k sticky
  let b := (ee - f.emin).toNat * 2 ^ f.mbits + n + up.toNat
  let inexact := rem ≠ 0 || sticky
  if f.maxBits < b then (f.overflow o mode neg, ffOF ||| ffNX)
  else (f.signed neg b, ffIf inexact ffNX ||| ffIf (inexact && decide (top < f.emin)) ffUF)

/-- Rounds a finite value; a zero keeps its sign. -/
def Fmt.roundFin (f : Fmt) (o : Ovf) (mode : Rnd) (neg : Bool) (m : Nat) (e : Int) : Nat × FF :=
  if m = 0 then (f.signed neg 0, 0) else f.round o mode neg m e false

/-- Converts a value to a format (R195, R231). -/
def Fmt.convert (f : Fmt) (o : Ovf) (mode : Rnd) (x : FVal) : Nat × FF :=
  match x with
  | .nan s => (f.nanBits, ffIf (s || f = .e2m1) ffNV)
  | .inf n =>
    match o with
    | .inf => (f.signed n f.infBits, 0)
    | .nan4 => (f.nanBits, 0)
    | .sat => (f.signed n f.maxBits, ffOF ||| ffNX)
  | .fin n m e => f.roundFin o mode n m e

/-- The column of R194 for a conversion to a format, with NSAT or without. -/
def Fmt.ovf (f : Fmt) (nsat : Bool) : Ovf :=
  match f with
  | .e5m2 => if nsat then .inf else .sat
  | .e4m3 => if nsat then .nan4 else .sat
  | .e2m1 => .sat
  | _ => .inf

/-! ## Exact sums and products -/

/-- (-1)^neg × m as an integer. -/
def signedInt (neg : Bool) (m : Nat) : Int := if neg then -(m : Int) else m

/-- The least exponent among finite terms. -/
def leastExp : List FVal → Int
  | [] => 0
  | .fin _ _ e :: xs => if xs.isEmpty then e else min e (leastExp xs)
  | _ :: xs => leastExp xs

/-- The exact sum of the finite terms, in units of 2^e. -/
def sumAt (e : Int) : List FVal → Int
  | [] => 0
  | .fin n m e' :: xs => signedInt n (m <<< (e' - e).toNat) + sumAt e xs
  | _ :: xs => sumAt e xs

/-- The product of two values that are no NaN; `none` for 0 × ∞. -/
def mulVal : FVal → FVal → Option FVal
  | .fin a m e, .fin b n d => some (.fin (a != b) (m * n) (e + d))
  | .inf a, y => if y.isZero then none else some (.inf (a != y.neg))
  | x, .inf b => if x.isZero then none else some (.inf (x.neg != b))
  | _, _ => some (.nan false)

/-- The sign of an exact zero sum: the terms' own when they are all zeros of one sign, else + but under
RDN (R222). -/
def zeroSign (mode : Rnd) (terms : List FVal) : Bool :=
  if terms.all fun t => t.isZero && t.neg then true
  else if terms.all fun t => t.isZero && !t.neg then false
  else mode = .rdn

/-- The sum of terms rounded once (R222). `terms` is `none` when a product was invalid; `srcs` are the
sources, whose NaNs come first. -/
def Fmt.sum (f : Fmt) (mode : Rnd) (srcs : List FVal) (terms : Option (List FVal)) : Nat × FF :=
  if srcs.any (·.isNan) then (f.nanBits, sigFlags srcs)
  else
    match terms with
    | none => (f.nanBits, ffNV)
    | some ts =>
      let pos := ts.any fun t => t.isInf && !t.neg
      let neg := ts.any fun t => t.isInf && t.neg
      if pos && neg then (f.nanBits, ffNV)
      else if pos then (f.signed false f.infBits, 0)
      else if neg then (f.signed true f.infBits, 0)
      else
        let e := leastExp ts
        let z := sumAt e ts
        if z = 0 then (f.signed (zeroSign mode ts) 0, 0)
        else f.round .inf mode (decide (z < 0)) z.natAbs e false

/-! ## Elements -/

/-- Element `i` of width `w` of a register. -/
def elemOf (w : Nat) (x : Word) (i : Nat) : Nat := bits x.toNat (w * i) w

/-- A register of `k` elements of width `w`, with the union of their flags. -/
def packElems (w k : Nat) (f : Nat → Nat × FF) : Word × FF :=
  let rs := (List.range k).map fun i => (i, f i)
  (BitVec.ofNat 64 ((rs.map fun r => (r.2.1 % 2 ^ w) <<< (w * r.1)).foldl Nat.lor 0),
    ffAll (rs.map fun r => r.2.2))

/-! ## Exact formats (R200 to R202) -/

/-- Value bits and scale of an exact format. -/
structure ExactFmt where
  vbits : Nat
  scale : Nat
deriving DecidableEq, Repr, Inhabited

/-- The exact accumulator, and the cells of FP32 and FP64. -/
def exactXa : ExactFmt := ⟨4280, 2148⟩
def exactF32 : ExactFmt := ⟨504, 149⟩
def exactF64 : ExactFmt := ⟨3064, 1074⟩

/-- The signed value of the value bits. -/
def ExactFmt.toInt (x : ExactFmt) (v : Nat) : Int :=
  if v < 2 ^ (x.vbits - 1) then v else (v : Int) - (2 ^ x.vbits : Nat)

/-- Adds an exact integer to the value bits; GOVF when the true sum leaves their range (R201). -/
def ExactFmt.add (x : ExactFmt) (v st : Nat) (t : Int) : Nat × Nat :=
  let sum := x.toInt v + t
  let lim : Int := (2 ^ (x.vbits - 1) : Nat)
  let out := decide (sum < -lim) || decide (lim ≤ sum)
  ((sum % (2 ^ x.vbits : Nat)).toNat, if out then st ||| 8 else st)

/-- Rounds an exact value to a format (R202). -/
def ExactFmt.roundTo (x : ExactFmt) (f : Fmt) (mode : Rnd) (v st : Nat) : Nat × FF :=
  if bits st 0 1 = 1 then (f.nanBits, 0)
  else if bits st 1 2 = 3 then (f.nanBits, ffNV)
  else if bits st 1 1 = 1 then (f.signed false f.infBits, 0)
  else if bits st 2 1 = 1 then (f.signed true f.infBits, 0)
  else
    let z := x.toInt v
    if bits st 3 1 = 1 then (f.overflow .inf mode (decide (z < 0)), ffAll [ffOF, ffNX, ffXOF])
    else if z = 0 then (f.signed (mode = .rdn) 0, 0)
    else f.round .inf mode (decide (z < 0)) z.natAbs (-(x.scale : Int)) false

/-- What the terms of one addition give: status bits, their exact sum in units of 2^-scale, and flags. -/
structure Terms where
  st : Nat
  sum : Int
  fflags : FF
deriving DecidableEq, Repr, Inhabited

/-- Adds one term to those gathered: `x`, or `x × y` (R238). -/
def Terms.push (ef : ExactFmt) (a : Terms) (x : FVal) (y : Option FVal) : Terms :=
  let srcs := x :: y.toList
  if srcs.any (·.isNan) then { a with st := a.st ||| 1, fflags := a.fflags ||| sigFlags srcs }
  else
    match (match y with | none => some x | some y => mulVal x y) with
    | none => { a with st := a.st ||| 1, fflags := a.fflags ||| ffNV }
    | some (.inf false) => { a with st := a.st ||| 2 }
    | some (.inf true) => { a with st := a.st ||| 4 }
    | some (.fin n m e) => { a with sum := a.sum + signedInt n (m <<< (e + ef.scale).toNat) }
    | some (.nan _) => { a with st := a.st ||| 1 }

/-- An exact accumulator's value and status. -/
def xaValue (x : BitVec 4288) : Nat := x.toNat % 2 ^ 4280
def xaStatus (x : BitVec 4288) : Nat := x.toNat / 2 ^ 4280 % 16
def xaMake (v st : Nat) : BitVec 4288 := BitVec.ofNat 4288 (v + st % 16 * 2 ^ 4280)

/-- Adds gathered terms to an accumulator in one addition (R201, R238). -/
def xaAdd (x : BitVec 4288) (t : Terms) : BitVec 4288 :=
  let (v, st) := exactXa.add (xaValue x) (xaStatus x ||| t.st) t.sum
  xaMake v st

end Sys2Proof.Machine
end

