-- ==== Sys2Proof/Machine/Integer.lean ====
section
/-! DEFINITION. Integer.lean: the integer instructions of class 0x040 (R203 to R213). -/

namespace Sys2Proof.Machine

/-! ## Lane arithmetic (R203) -/

/-- An item of lane arithmetic. -/
def laneItem (h : Hdr) (u : UnitClass) (lat : Option Nat) (srcs : List Opnd) (d : Opnd) : Item :=
  { hdr := h, cls := if u = .d32 || u = .d64 then .div else .lane, unit := u, lat := lat, srcs := srcs
    dsts := [d], setsFlags := true }

/-- A division (R205, R210). -/
def divisionItem (h : Hdr) (ty : Ty) (a b d : Opnd) : Item :=
  { laneItem h (if ty.w = 64 then .d64 else .d32) none [a, b] d with least := if ty.w = 64 then 48 else 24 }

/-- An item of unit A. -/
def aItem (h : Hdr) (srcs : List Opnd) (d : Opnd) : Item := laneItem h .a (some 4) srcs d

/-- A lane's source `i`. -/
def src (xs : List Word) (i : Nat) : Word := xs.getD i 0

/-- Runs an item whose lanes each compute a result and flags from their sources. -/
def runLanes (it : Item) (d : Opnd) (k : Nat) (f : Group → List Word → Word × FF) (s : State) : Out :=
  runItem it (laneBody it d k fun g _ xs => f g xs) s

/-- Runs an item whose lanes each compute a result and no flag. -/
def runPure (it : Item) (d : Opnd) (f : List Word → Word) (s : State) : Out :=
  runLanes it d 1 (fun _ xs => (f xs, 0)) s

/-- Runs an item whose lanes each compute a predicate. -/
def runPred (it : Item) (pd : Fin 8) (f : Group → List Word → Bool × FF) (s : State) : Out :=
  runItem it (predBody it pd fun g _ xs => f g xs) s

/-! ## Integer values (R161, R192) -/

/-- A `w`-bit value as an integer. -/
def intOf (signed : Bool) (w n : Nat) : Int :=
  if signed && 2 ^ (w - 1) ≤ n then (n : Int) - (2 ^ w : Nat) else n

/-- The low element of a register at a scalar type. -/
def readInt (ty : Ty) (x : Word) : Int := intOf ty.signed ty.w (bits x.toNat 0 ty.w)

/-- The least and the greatest value of `w` bits. -/
def lowest (signed : Bool) (w : Nat) : Int := if signed then -((2 ^ (w - 1) : Nat) : Int) else 0
def highest (signed : Bool) (w : Nat) : Int := ((if signed then 2 ^ (w - 1) else 2 ^ w : Nat) : Int) - 1

/-- An exact integer brought into `w` bits: clamped, or wrapped. -/
def narrow (signed sat : Bool) (w : Nat) (t : Int) : Nat :=
  let t := if sat then min (max t (lowest signed w)) (highest signed w) else t
  (t % (2 ^ w : Nat)).toNat

/-- `w` bits extended to a register as the type asks (R161). -/
def extend (ty : Ty) (n : Nat) : Word :=
  if ty.signed then sextW ty.w (BitVec.ofNat 64 n) else zextW ty.w (BitVec.ofNat 64 n)

/-- An exact integer as a result of a scalar type (R208). -/
def intResult (ty : Ty) (sat : Bool) (t : Int) : Word := extend ty (narrow ty.signed sat ty.w t)

/-! ## The operations -/

/-- IADD, ISUB, IMUL: an exact integer operation, wrapped or saturated (R208). -/
def intOp (f : Int → Int → Int) (ty : Ty) (sat : Bool) (a b : Word) : Word :=
  intResult ty sat (f (readInt ty a) (readInt ty b))

/-- x × y + z, wrapped (R208). -/
def imadOp (ty : Ty) (a b c : Word) : Word :=
  intResult ty false (readInt ty a * readInt ty b + readInt ty c)

/-- The high half of the double-width product (R209). -/
def imulhOp (ty : Ty) (a b : Word) : Word :=
  intResult ty false ((readInt ty a * readInt ty b) / (2 ^ ty.w : Nat))

/-- The quotient rounded towards zero (R210). -/
def idivOp (ty : Ty) (a b : Word) : Word × FF :=
  let y := readInt ty b
  if y = 0 then (intResult ty false (-1), ffIDZ) else (intResult ty false (Int.tdiv (readInt ty a) y), 0)

/-- The remainder, with the sign of the dividend (R210). -/
def iremOp (ty : Ty) (a b : Word) : Word × FF :=
  let y := readInt ty b
  if y = 0 then (intResult ty false (readInt ty a), ffIDZ)
  else (intResult ty false (Int.tmod (readInt ty a) y), 0)

/-- Whether a condition holds of two integers (R212). -/
def condInt (c : Cond) (x y : Int) : Bool :=
  match c with
  | .eq => x = y
  | .ne => x ≠ y
  | .lt => x < y
  | .le => x ≤ y
  | .gt => y < x
  | .ge => y ≤ x
  | .un | .ord => false

/-- a + (b << SH) (R213). -/
def leaOp (sh : Nat) (a b : Word) : Word := a + (b <<< sh)

/-- Unit M, held twice as long for 64-bit types (R204). -/
def mUnit (ty : Ty) : UnitClass := if ty.w = 64 then .m2 else .m

/-- The D unit for a result of this width (R205). -/
def dUnit (w : Nat) : UnitClass := if w = 64 then .d64 else .d32

/-- Runs a D-unit item: its results come when the unit completes it (R205). -/
def runDiv (it : Item) (d : Opnd) (k : Nat) (f : Group → List Word → Word × FF) (s : State) : Out :=
  runItem it (fun i ex s =>
    match laneBody it d k (fun g _ xs => f g xs) i ex s with
    | .done e s => .done { e with kind := .div } s
    | b => b) s

/-! ## The instructions -/

/-- IADD, S form (R208). -/
def execIaddS (h : Hdr) (ty : Ty) (sat : Bool) (d a b : Opnd) (s : State) : Out :=
  runPure (aItem h [a, b] d) d (fun xs => intOp (· + ·) ty sat (src xs 0) (src xs 1)) s
/-- IADD, L form: IMM64 stands in the place of B (R207). -/
def execIaddL (h : Hdr) (ty : Ty) (sat : Bool) (d a : Opnd) (imm : Word) (s : State) : Out :=
  runPure (aItem h [a] d) d (fun xs => intOp (· + ·) ty sat (src xs 0) imm) s
/-- ISUB, S form (R208). -/
def execIsubS (h : Hdr) (ty : Ty) (sat : Bool) (d a b : Opnd) (s : State) : Out :=
  runPure (aItem h [a, b] d) d (fun xs => intOp (· - ·) ty sat (src xs 0) (src xs 1)) s
/-- ISUB, L form (R207, R208). -/
def execIsubL (h : Hdr) (ty : Ty) (sat : Bool) (d a : Opnd) (imm : Word) (s : State) : Out :=
  runPure (aItem h [a] d) d (fun xs => intOp (· - ·) ty sat (src xs 0) imm) s
/-- IMUL, S form (R208). -/
def execImulS (h : Hdr) (ty : Ty) (sat : Bool) (d a b : Opnd) (s : State) : Out :=
  runPure (laneItem h (mUnit ty) (some 4) [a, b] d) d
    (fun xs => intOp (· * ·) ty sat (src xs 0) (src xs 1)) s
/-- IMUL, L form (R207, R208). -/
def execImulL (h : Hdr) (ty : Ty) (sat : Bool) (d a : Opnd) (imm : Word) (s : State) : Out :=
  runPure (laneItem h (mUnit ty) (some 4) [a] d) d (fun xs => intOp (· * ·) ty sat (src xs 0) imm) s
/-- IMULH (R209). -/
def execImulh (h : Hdr) (ty : Ty) (d a b : Opnd) (s : State) : Out :=
  runPure (laneItem h (mUnit ty) (some 4) [a, b] d) d
    (fun xs => imulhOp ty (src xs 0) (src xs 1)) s
/-- IMAD (R208). -/
def execImad (h : Hdr) (ty : Ty) (d a b c : Opnd) (s : State) : Out :=
  runPure (laneItem h (mUnit ty) (some 4) [a, b, c] d) d
    (fun xs => imadOp ty (src xs 0) (src xs 1) (src xs 2)) s
/-- IDIV (R210). -/
def execIdiv (h : Hdr) (ty : Ty) (d a b : Opnd) (s : State) : Out :=
  runDiv (divisionItem h ty a b d) d 1 (fun _ xs => idivOp ty (src xs 0) (src xs 1)) s
/-- IREM (R210). -/
def execIrem (h : Hdr) (ty : Ty) (d a b : Opnd) (s : State) : Out :=
  runDiv (divisionItem h ty a b d) d 1 (fun _ xs => iremOp ty (src xs 0) (src xs 1)) s
/-- IMIN, S form (R211). -/
def execIminS (h : Hdr) (ty : Ty) (d a b : Opnd) (s : State) : Out :=
  runPure (aItem h [a, b] d) d (fun xs => intOp min ty false (src xs 0) (src xs 1)) s
/-- IMIN, L form (R207, R211). -/
def execIminL (h : Hdr) (ty : Ty) (d a : Opnd) (imm : Word) (s : State) : Out :=
  runPure (aItem h [a] d) d (fun xs => intOp min ty false (src xs 0) imm) s
/-- IMAX, S form (R211). -/
def execImaxS (h : Hdr) (ty : Ty) (d a b : Opnd) (s : State) : Out :=
  runPure (aItem h [a, b] d) d (fun xs => intOp max ty false (src xs 0) (src xs 1)) s
/-- IMAX, L form (R207, R211). -/
def execImaxL (h : Hdr) (ty : Ty) (d a : Opnd) (imm : Word) (s : State) : Out :=
  runPure (aItem h [a] d) d (fun xs => intOp max ty false (src xs 0) imm) s
/-- IABS: the lowest value gives itself, or with SAT the highest (R211). -/
def execIabs (h : Hdr) (ty : Ty) (sat : Bool) (d a : Opnd) (s : State) : Out :=
  runPure (aItem h [a] d) d (fun xs => intResult ty sat ((readInt ty (src xs 0)).natAbs : Int)) s
/-- INEG (R211). -/
def execIneg (h : Hdr) (ty : Ty) (sat : Bool) (d a : Opnd) (s : State) : Out :=
  runPure (aItem h [a] d) d (fun xs => intResult ty sat (-(readInt ty (src xs 0)))) s

/-- An item of unit A that writes a predicate. -/
def predItem (h : Hdr) (u : UnitClass) (srcs : List Opnd) : Item :=
  { hdr := h, cls := .lane, unit := u, lat := some 4, srcs := srcs, setsFlags := true }

/-- ICMP, S form (R212). -/
def execIcmpS (h : Hdr) (ty : Ty) (cond : Cond) (pd : Fin 8) (a b : Opnd) (s : State) : Out :=
  runPred (predItem h .a [a, b]) pd
    (fun _ xs => (condInt cond (readInt ty (src xs 0)) (readInt ty (src xs 1)), 0)) s
/-- ICMP, L form: y is the low w bits of IMM64 (R212). -/
def execIcmpL (h : Hdr) (ty : Ty) (cond : Cond) (pd : Fin 8) (a : Opnd) (imm : Word) (s : State) : Out :=
  runPred (predItem h .a [a]) pd
    (fun _ xs => (condInt cond (readInt ty (src xs 0)) (readInt ty imm), 0)) s
/-- LEA, S form (R213). -/
def execLeaS (h : Hdr) (_ : Ty) (sh : Fin 8) (d a b : Opnd) (s : State) : Out :=
  runPure (aItem h [a, b] d) d (fun xs => leaOp sh.val (src xs 0) (src xs 1)) s
/-- LEA, L form (R213). -/
def execLeaL (h : Hdr) (_ : Ty) (d a : Opnd) (imm : Word) (s : State) : Out :=
  runPure (aItem h [a] d) d (fun xs => leaOp 0 (src xs 0) imm) s

end Sys2Proof.Machine
end

