-- ==== Sys2Proof/Machine/Float.lean ====
section
/-! DEFINITION. Float.lean: the floating-point instructions of class 0x0C0 (R221 to R228). -/

namespace Sys2Proof.Machine

/-! ## Elementwise operations -/

/-- An operation on the encodings of corresponding elements, in a format and mode. -/
abbrev ElemFn := Fmt → Rnd → List Nat → Nat × FF

/-- Applies it to every element of the type. -/
def floatElems (ty : Ty) (m : Rnd) (f : ElemFn) (xs : List Word) : Word × FF :=
  packElems ty.w ty.k fun i => f (fmtOf ty) m (xs.map fun x => elemOf ty.w x i)

/-- An operation on values. -/
def onValues (f : Fmt → Rnd → List FVal → Nat × FF) : ElemFn := fun ft m xs => f ft m (xs.map ft.value)

/-- Value `i` of a list. -/
def val (xs : List FVal) (i : Nat) : FVal := xs.getD i (.nan false)

/-- a + b, a - b, a × b, a × b + c, rounded once (R222). -/
def faddFn : ElemFn := onValues fun f m xs => f.sum m xs (some xs)
def fsubFn : ElemFn := onValues fun f m xs => f.sum m xs (some [val xs 0, (val xs 1).negate])
def fmulFn : ElemFn := onValues fun f m xs =>
  f.sum m xs ((mulVal (val xs 0) (val xs 1)).map fun p => [p])
def ffmaFn : ElemFn := onValues fun f m xs =>
  f.sum m xs ((mulVal (val xs 0) (val xs 1)).map fun p => [p, val xs 2])

/-! ## Comparison (R223, R224) -/

/-- A number that orders the encodings that are not NaN: +0 and -0 alike. -/
def orderKey (f : Fmt) (x : Nat) : Int := signedInt (bits x (f.size - 1) 1 = 1) (bits x 0 (f.size - 1))

/-- FMIN, or FMAX when `larger`. -/
def fminFn (larger : Bool) : ElemFn := fun f _ xs =>
  let a := xs.getD 0 0
  let b := xs.getD 1 0
  let va := f.value a
  let vb := f.value b
  let nv := sigFlags [va, vb]
  if va.isNan && vb.isNan then (f.nanBits, nv)
  else if va.isNan then (b, nv)
  else if vb.isNan then (a, nv)
  else if va.isZero && vb.isZero then
    (f.signed (if larger then va.neg && vb.neg else va.neg || vb.neg) 0, 0)
  else
    let aFirst := decide (orderKey f a ≤ orderKey f b)
    (if aFirst = larger then b else a, 0)

/-- FCMP on scalar encodings. -/
def fcmpFn (c : Cond) (f : Fmt) (a b : Nat) : Bool × FF :=
  let va := f.value a
  let vb := f.value b
  let relational := c = .lt || c = .le || c = .gt || c = .ge
  if va.isNan || vb.isNan then
    (c = .ne || c = .un, ffIf (relational || va.isSig || vb.isSig) ffNV)
  else if c = .ord then (true, 0)
  else (condInt c (orderKey f a) (orderKey f b), 0)

/-! ## FDOT2, FSCALE, FCLASS, FRND (R225 to R228) -/

/-- One element of FDOT2: c + a0 × b0 + a1 × b1, rounded once to FP32. -/
def fdot2Fn (m : Rnd) (c a0 b0 a1 b1 : FVal) : Nat × FF :=
  Fmt.f32.sum m [c, a0, b0, a1, b1]
    ((mulVal a0 b0).bind fun p => (mulVal a1 b1).map fun q => [c, p, q])

def fdot2Op (sty : Ty) (m : Rnd) (a b c : Word) : Word × FF :=
  let v := fun (x : Word) i => (fmtOf sty).value (elemOf 16 x i)
  packElems 32 2 fun j =>
    fdot2Fn m (Fmt.f32.value (elemOf 32 c j)) (v a (2 * j)) (v b (2 * j)) (v a (2 * j + 1))
      (v b (2 * j + 1))

/-- a × 2^n, rounded: exponents beyond ±8,192 overflow or underflow alike. -/
def fscaleFn : ElemFn := fun f m xs =>
  let n := intOf true f.size (xs.getD 1 0)
  match f.value (xs.getD 0 0) with
  | .nan s => (f.nanBits, ffIf s ffNV)
  | .inf neg => (f.signed neg f.infBits, 0)
  | .fin neg mm e => f.roundFin .inf m neg mm (e + max (-8192) (min 8192 n))

/-- The class mask. -/
def fclassOp (f : Fmt) (x : Nat) : Nat :=
  match f.value x with
  | .nan s => if s then 2 ^ 8 else 2 ^ 9
  | .inf neg => if neg then 2 ^ 0 else 2 ^ 7
  | .fin neg m _ =>
    if m = 0 then if neg then 2 ^ 3 else 2 ^ 4
    else if m < 2 ^ f.mbits then if neg then 2 ^ 2 else 2 ^ 5
    else if neg then 2 ^ 1 else 2 ^ 6

/-- A magnitude m × 2^e rounded to an integer, and whether it changed (R193 with q = 1). -/
def roundInt (m : Rnd) (neg : Bool) (mm : Nat) (e : Int) : Nat × Bool :=
  if 0 ≤ e then (mm <<< e.toNat, false)
  else
    let k := (-e).toNat
    let n := mm >>> k
    let rem := mm % 2 ^ k
    (n + (roundsUp m neg (n % 2 = 1) rem k false).toNat, rem ≠ 0)

def frndFn : ElemFn := fun f m xs =>
  match f.value (xs.getD 0 0) with
  | .nan s => (f.nanBits, ffIf s ffNV)
  | .inf neg => (f.signed neg f.infBits, 0)
  | .fin neg mm e =>
    let (n, inexact) := roundInt m neg mm e
    ((f.roundFin .inf m neg n 0).1, ffIf inexact ffNX)

/-! ## The instructions -/

/-- An item of unit F. -/
def fItem (h : Hdr) (srcs : List Opnd) (d : Opnd) : Item := laneItem h .f (some 4) srcs d
/-- An item of unit F, or F64 for .F64. -/
def f64Item (h : Hdr) (ty : Ty) (srcs : List Opnd) (d : Opnd) : Item :=
  if ty = .f64 then laneItem h .f64 (some 6) srcs d else fItem h srcs d

/-- Runs an elementwise floating-point item in the mode of RND. -/
def runFloat (it : Item) (ty : Ty) (rnd : Rnd) (d : Opnd) (f : ElemFn) (s : State) : Out :=
  runLanes it d ty.k (fun g xs => floatElems ty (modeOf g rnd) f xs) s

/-- FADD (R222). -/
def execFadd (h : Hdr) (ty : Ty) (rnd : Rnd) (d a b : Opnd) (s : State) : Out :=
  runFloat (f64Item h ty [a, b] d) ty rnd d faddFn s
/-- FSUB (R222). -/
def execFsub (h : Hdr) (ty : Ty) (rnd : Rnd) (d a b : Opnd) (s : State) : Out :=
  runFloat (f64Item h ty [a, b] d) ty rnd d fsubFn s
/-- FMUL (R222). -/
def execFmul (h : Hdr) (ty : Ty) (rnd : Rnd) (d a b : Opnd) (s : State) : Out :=
  runFloat (f64Item h ty [a, b] d) ty rnd d fmulFn s
/-- FFMA (R222). -/
def execFfma (h : Hdr) (ty : Ty) (rnd : Rnd) (d a b c : Opnd) (s : State) : Out :=
  runFloat (f64Item h ty [a, b, c] d) ty rnd d ffmaFn s
/-- FMIN (R223). -/
def execFmin (h : Hdr) (ty : Ty) (d a b : Opnd) (s : State) : Out :=
  runFloat (fItem h [a, b] d) ty .rne d (fminFn false) s
/-- FMAX (R223). -/
def execFmax (h : Hdr) (ty : Ty) (d a b : Opnd) (s : State) : Out :=
  runFloat (fItem h [a, b] d) ty .rne d (fminFn true) s
/-- FCMP (R224). -/
def execFcmp (h : Hdr) (ty : Ty) (cond : Cond) (pd : Fin 8) (a b : Opnd) (s : State) : Out :=
  runPred (predItem h .f [a, b]) pd
    (fun _ xs => fcmpFn cond (fmtOf ty) (elemOf ty.w (src xs 0) 0) (elemOf ty.w (src xs 1) 0)) s
/-- FDOT2 (R225). -/
def execFdot2 (h : Hdr) (sty : Ty) (rnd : Rnd) (d a b c : Opnd) (s : State) : Out :=
  runLanes (fItem h [a, b, c] d) d 2
    (fun g xs => fdot2Op sty (modeOf g rnd) (src xs 0) (src xs 1) (src xs 2)) s
/-- FSCALE (R226). -/
def execFscale (h : Hdr) (ty : Ty) (rnd : Rnd) (d a b : Opnd) (s : State) : Out :=
  runFloat (fItem h [a, b] d) ty rnd d fscaleFn s
/-- FCLASS (R227). -/
def execFclass (h : Hdr) (ty : Ty) (d a : Opnd) (s : State) : Out :=
  runPure (fItem h [a] d) d (fun xs => BitVec.ofNat 64 (fclassOp (fmtOf ty) (elemOf ty.w (src xs 0) 0))) s
/-- FRND (R228). -/
def execFrnd (h : Hdr) (ty : Ty) (rnd : Rnd) (d a : Opnd) (s : State) : Out :=
  runFloat (fItem h [a] d) ty rnd d frndFn s

end Sys2Proof.Machine
end

