-- ==== Sys2Proof/Machine/Lanes.lean ====
section
/-! DEFINITION. Lanes.lean: the cross-lane instructions of class 0x180 (R165 to R179). -/

namespace Sys2Proof.Machine

/-! ## Vectors of a group (R161) -/

/-- An item of class XLANE. -/
def xlItem (h : Hdr) (lat : Nat) (srcs : List Opnd) (d : Opnd) : Item :=
  { hdr := h, cls := .xlane, lat := some lat, srcs := srcs, dsts := [d], dstVs := true }

/-- Element width of a WID code (R161). -/
def widW (wid : Nat) : Nat := 64 / 2 ^ wid

/-- Runs an item that computes a word for each executing lane from the executing lanes' sources. -/
def runCross (it : Item) (d : Opnd)
    (f : Group → Mask → (Nat → Word) → (Nat → Word) → Nat → Word) (s : State) : Out :=
  runItem it (fun i ex s =>
    let g := grpAt s i.gid
    let a : Nat → Word := fun l => readOpnd s i.gid l (it.srcs.getD 0 .zero)
    let b : Nat → Word := fun l => readOpnd s i.gid l (it.srcs.getD 1 .zero)
    let vals := (lanesOf g.width ex).map fun l => (l, f g ex a b l)
    .done { writes := destWrites d vals } (consumeAll s i.gid it)) s

/-! ## SHFL and SHFLI (R167) -/

/-- Segment length: the whole vector, or min(n, 2^SEG). -/
def segLen (n seg : Nat) : Nat := if seg = 0 then n else min n (2 ^ seg)

/-- The source element of element `e` of its lane's `i`th. -/
def shflTarget (mode : ShMode) (len e i q : Nat) : Option Nat :=
  let base := e - e % len
  let t : Int :=
    match mode with
    | .idx => ((base + (q + i) % len : Nat) : Int)
    | .up => (e : Int) - q
    | .dn => (e : Int) + q
    | .xor => ((base + Nat.xor (e - base) q : Nat) : Int)
  if (base : Int) ≤ t && t < (base + len : Nat) then some t.toNat else none

/-- The result of one lane. -/
def shflLane (wid : Nat) (mode : ShMode) (seg : Nat) (g : Group) (ex : Mask) (a : Nat → Word)
    (q l : Nat) : Word :=
  let w := widW wid
  let k := 2 ^ wid
  let len := segLen (g.width * k) seg
  (packElems w k fun i =>
    match shflTarget mode len (l * k + i) i q with
    | some t => if hasBit ex (t / k) then (elemOf w (a (t / k)) (t % k), 0) else (elemOf w (a l) i, 0)
    | none => (elemOf w (a l) i, 0)).1

/-- SHFL (R167). -/
def execShfl (h : Hdr) (wid : Fin 5) (mode : ShMode) (seg : Fin 11) (d a b : Opnd) (s : State) : Out :=
  runCross (xlItem h 8 [a, b] d) d
    (fun g ex x y l => shflLane wid.val mode seg.val g ex x (y l).toNat l) s
/-- SHFLI (R167). -/
def execShfli (h : Hdr) (wid : Fin 5) (mode : ShMode) (seg : Fin 11) (d a : Opnd) (imm : BitVec 10)
    (s : State) : Out :=
  runCross (xlItem h 8 [a] d) d
    (fun g ex x _ l => shflLane wid.val mode seg.val g ex x imm.toNat l) s

/-! ## BCAST, BALLOT, ACTMASK, VOTE (R168 to R170) -/

/-- BCAST of one lane. -/
def bcastLane (wid : Nat) (first : Bool) (g : Group) (ex : Mask) (a b : Nat → Word) (l : Nat) : Word :=
  let w := widW wid
  let k := 2 ^ wid
  let f := lowLane g ex
  let e0 := if first then f * k + (b f).toNat % k else (b f).toNat % (g.width * k)
  if hasBit ex (e0 / k) then (packElems w k fun _ => (elemOf w (a (e0 / k)) (e0 % k), 0)).1 else a l

/-- BCAST (R168). -/
def execBcast (h : Hdr) (wid : Fin 5) (first : Bool) (d a b : Opnd) (s : State) : Out :=
  runCross (xlItem h 8 [a, b] d) d (fun g ex x y l => bcastLane wid.val first g ex x y l) s

/-- A possibly negated source predicate in a lane. -/
def predHolds (g : Group) (p : PSrc) (l : Nat) : Bool := readP (g.thread l) p.p.val != p.neg

/-- The executing lanes in which a predicate holds. -/
def predLanes (g : Group) (ex : Mask) (p : PSrc) : Mask :=
  maskWhere g.width fun l => hasBit ex l && predHolds g p l

/-- BALLOT (R169). -/
def execBallot (h : Hdr) (ps : PSrc) (d : Opnd) (s : State) : Out :=
  runCross (xlItem h 8 [] d) d (fun g ex _ _ _ => predLanes g ex ps) s
/-- ACTMASK (R169). -/
def execActmask (h : Hdr) (live : Bool) (d : Opnd) (s : State) : Out :=
  runCross (xlItem h 8 [] d) d (fun g ex _ _ _ => if live then g.live else ex) s

/-- The value of a vote over the executing lanes (R170). -/
def voteValue (op : VoteOp) (g : Group) (ex : Mask) (ps : PSrc) (a : Nat → Word) : Bool :=
  let hold := predLanes g ex ps
  match op with
  | .all => hold = ex
  | .any => hold ≠ 0
  | .none => hold = 0
  | .eq => (lanesOf g.width ex).all fun l => a l = a (lowLane g ex)

/-- VOTE writes pD in every executing lane (R170). -/
def execVote (h : Hdr) (op : VoteOp) (pd : Fin 8) (ps : PSrc) (a : Opnd) (s : State) : Out :=
  let it : Item := { hdr := h, cls := .xlane, lat := some 8, srcs := if op = .eq then [a] else [] }
  runItem it (fun i ex s =>
    let g := grpAt s i.gid
    let v := voteValue op g ex ps fun l => readOpnd s i.gid l a
    .done { writes := (lanesOf g.width ex).map fun l => ⟨l, .p l pd.val, if v then 1 else 0⟩ }
      (consumeAll s i.gid it)) s

/-! ## MATCH and COMPACT (R171, R172) -/

/-- The executing lanes whose key equals lane `l`'s. -/
def matchMask (w32 : Bool) (g : Group) (ex : Mask) (a : Nat → Word) (l : Nat) : Mask :=
  let key := fun j => if w32 then zextW 32 (a j) else a j
  maskWhere g.width fun j => hasBit ex j && key j = key l

/-- MATCH (R171). -/
def execMatchK (h : Hdr) (w32 rank : Bool) (d a : Opnd) (s : State) : Out :=
  runCross (xlItem h 8 [a] d) d (fun g ex x _ l =>
    let m := matchMask w32 g ex x l
    if rank then BitVec.ofNat 64 (lanesOf l m).length else m) s

/-- COMPACT of one lane: the value of the selected lane of the same rank, or 0. -/
def compactLane (ps : PSrc) (g : Group) (ex : Mask) (a : Nat → Word) (l : Nat) : Word :=
  match (lanesOf g.width (predLanes g ex ps))[(lanesOf l ex).length]? with
  | some j => a j
  | none => 0

/-- COMPACT (R172). -/
def execCompact (h : Hdr) (ps : PSrc) (d a : Opnd) (s : State) : Out :=
  runCross (xlItem h 8 [a] d) d (fun g ex x _ l => compactLane ps g ex x l) s

/-! ## SCAN and SRED (R173, R174) -/

/-- The combination of two elements, with its flags. -/
def combine (op : COp) (ty : Ty) (m : Rnd) (a b : Nat) : Nat × FF :=
  if ty.isFloat then
    match op with
    | .add => faddFn (fmtOf ty) m [a, b]
    | .min => fminFn false (fmtOf ty) m [a, b]
    | _ => fminFn true (fmtOf ty) m [a, b]
  else
    let i := intOf ty.signed ty.w
    match op with
    | .add => (narrow ty.signed false ty.w (i a + i b), 0)
    | .min => (if i b < i a then b else a, 0)
    | .max => (if i a < i b then b else a, 0)
    | .and => (Nat.land a b, 0)
    | .or => (Nat.lor a b, 0)
    | .xor => (Nat.xor a b, 0)

/-- The first element of an exclusive scan. -/
def identityOf (op : COp) (ty : Ty) : Nat :=
  if ty.isFloat then
    match op with
    | .add => 0
    | .min => (fmtOf ty).infBits
    | _ => (fmtOf ty).signed true (fmtOf ty).infBits
  else
    match op with
    | .min => narrow ty.signed false ty.w (highest ty.signed ty.w)
    | .max => narrow ty.signed false ty.w (lowest ty.signed ty.w)
    | .and => 2 ^ ty.w - 1
    | _ => 0

/-- One combining step at distance `d`: y[j] := y[j-d] ⊕ y[j] for every j ≥ d at once. -/
def scanStep (f : Nat → Nat → Nat × FF) (d : Nat) (y : List Nat) : List Nat × FF :=
  let rs := (y.zip (y.drop d)).map fun e => f e.1 e.2
  (y.take d ++ rs.map (·.1), ffAll (rs.map (·.2)))

/-- The inclusive scan, doubling the distance. -/
def scanList (f : Nat → Nat → Nat × FF) : Nat → Nat → List Nat → FF → List Nat × FF
  | 0, _, y, ff => (y, ff)
  | k + 1, d, y, ff =>
    if d < y.length then
      let (y, g) := scanStep f d y
      scanList f k (2 * d) y (ff ||| g)
    else (y, ff)

/-- One level of the tree: neighbours combined, an unpaired last entry unchanged. -/
def pairUp (f : Nat → Nat → Nat × FF) : List Nat → List Nat × FF
  | a :: b :: xs =>
    let (r, g) := f a b
    let (rs, h) := pairUp f xs
    (r :: rs, g ||| h)
  | xs => (xs, 0)

/-- The total of a list by the tree. -/
def reduceList (f : Nat → Nat → Nat × FF) : Nat → List Nat → FF → Nat × FF
  | 0, t, ff => (t.headD 0, ff)
  | k + 1, t, ff =>
    if 1 < t.length then
      let (t, g) := pairUp f t
      reduceList f k t (ff ||| g)
    else (t.headD 0, ff)

/-- Splits a list where a flag starts a segment. -/
def splitSegs {α : Type} (starts : α → Bool) : List α → List (List α)
  | [] => []
  | x :: xs =>
    match splitSegs starts xs with
    | [] => [[x]]
    | s :: ss =>
      match s with
      | [] => [x] :: ss
      | y :: _ => if starts y then [x] :: s :: ss else (x :: s) :: ss

/-- Segment numbers of elements in ascending order, as lists of elements: by length, or from head flags
(R174). -/
def segments (g : Group) (ex : Mask) (k : Nat) (seg : Option (Fin 11)) (b : Nat → Word) :
    List (List Nat) :=
  let es := (lanesOf g.width ex).flatMap fun l => (List.range k).map fun i => l * k + i
  match seg with
  | some n =>
    let len := segLen (g.width * k) n.val
    (List.range (g.width * k / len)).map fun j => es.filter fun e => e / len = j
  | none => splitSegs (fun e => e % k = 0 && hasBit (b (e / k)) 0) es

/-- What a segment's elements become, with flags. -/
def scanSeg (sred excl : Bool) (op : COp) (ty : Ty) (m : Rnd) (x : List Nat) : List Nat × FF :=
  let f := combine op ty m
  if sred then
    let (t, ff) := reduceList f 12 x 0
    (x.map fun _ => t, ff)
  else
    let (y, ff) := scanList f 12 1 x 0
    (if excl then identityOf op ty :: y.dropLast else y, ff)

/-- Combining steps over segments of which the longest has `n` elements: one for each distance below it, or for each level
of the tree (R174, R175). -/
def combineSteps (n : Nat) : Nat := if n ≤ 1 then 0 else log2 (n - 1) + 1

/-- A lane's word from its elements, extended for a scalar type. -/
def elemsWord (ty : Ty) (f : Nat → Nat) : Word :=
  if ty.k = 1 then extend ty (f 0) else (packElems ty.w ty.k fun i => (f i, 0)).1

/-- SCAN, SRED. -/
def scanBody (it : Item) (sred : Bool) (op : COp) (ty : Ty) (rnd : Rnd) (excl : Bool)
    (seg : Option (Fin 11)) (d a b : Opnd) (i : Issue) (ex : Mask) (s : State) : Body :=
  let g := grpAt s i.gid
  let m := modeOf g rnd
  let rs := (segments g ex ty.k seg fun l => readOpnd s i.gid l b).map fun es =>
    let (ys, ff) := scanSeg sred excl op ty m
      (es.map fun e => elemOf ty.w (readOpnd s i.gid (e / ty.k) a) (e % ty.k))
    (es.zip ys, ff)
  let table : NMap Nat := rs.flatMap (·.1)
  let vals := (lanesOf g.width ex).map fun l => (l, elemsWord ty fun j => mapGet 0 table (l * ty.k + j))
  .done { writes := destWrites d vals, fflags := ffAll (rs.map (·.2))
          kind := .scan (combineSteps ((rs.map (·.1.length)).foldl max 0)) (it.lat.getD 0) none } (consumeAll s i.gid it)

/-- The item of SCAN and SRED: B is a source with head flags only (R165, R166). -/
def scanItem (h : Hdr) (ty : Ty) (seg : Option (Fin 11)) (d a b : Opnd) : Item :=
  { xlItem h (if ty.isFloat then 16 else 8) (if seg.isNone then [a, b] else [a]) d with
    setsFlags := true }

/-- SCAN (R173). -/
def execScan (h : Hdr) (op : COp) (ty : Ty) (rnd : Rnd) (excl : Bool) (seg : Option (Fin 11))
    (d a b : Opnd) (s : State) : Out :=
  let it := scanItem h ty seg d a b
  runItem it (scanBody it false op ty rnd excl seg d a b) s
/-- SRED (R173). -/
def execSred (h : Hdr) (op : COp) (ty : Ty) (rnd : Rnd) (seg : Option (Fin 11)) (d a b : Opnd)
    (s : State) : Out :=
  let it := scanItem h ty seg d a b
  runItem it (scanBody it true op ty rnd false seg d a b) s

/-! ## Permutes (R176 to R178) -/

/-- The Beneš network of 2^m ports over a list of control bits: the ports' elements and the bits left. -/
def benes {α : Type} : Nat → List α → List Bool → List α × List Bool
  | 0, x, c => (x, c)
  | m + 1, x, c =>
    if m = 0 then
      match x with
      | [x0, x1] => (if c.headD false then [x1, x0] else [x0, x1], c.drop 1)
      | _ => (x, c)
    else
      let h := 2 ^ m
      let (u, v) := splitPairs x (c.take h)
      let (u, c) := benes m u (c.drop h)
      let (v, c) := benes m v c
      (joinPairs u v (c.take h), c.drop h)
where
  /-- The input stage: each pair goes straight or crossed to the two halves. -/
  splitPairs : List α → List Bool → List α × List α
    | a :: b :: xs, c =>
      let (u, v) := splitPairs xs (c.drop 1)
      if c.headD false then (b :: u, a :: v) else (a :: u, b :: v)
    | _, _ => ([], [])
  /-- The output stage. -/
  joinPairs : List α → List α → List Bool → List α
    | a :: us, b :: vs, c =>
      (if c.headD false then [b, a] else [a, b]) ++ joinPairs us vs (c.drop 1)
    | _, _, _ => []

/-- Bytes of a control set for 2^m ports: ceil(T(m) / 64) × 8. -/
def benesBytes (m : Nat) : Nat := ((2 * m - 1) * 2 ^ (m - 1) + 63) / 64 * 8

/-- The scratchpad operand of an access of the lowest executing lane. -/
def lowOffset (s : State) (gid : Nat) (ex : Mask) (a : Opnd) (n : Nat) : Except Cause Nat :=
  let off := (scalarOf s gid ex a).toNat
  let c : Cause :=
    { code := .misalign, addr := BitVec.ofNat 64 off, lane := lowLane (grpAt s gid) ex }
  if off % 8 ≠ 0 then .error c
  else if !scratchHas (launchOf s gid) off n then .error { c with code := .scratch }
  else if scratchBad s (grpAt s gid).team off n then .error { c with code := .uncorr }
  else .ok off

/-- PCFG reads a set from scratchpad; at completion it replaces pcN. -/
def pcfgBody (it : Item) (wid : Fin 4) (pcn : Fin 8) (a : Opnd) (i : Issue) (ex : Mask) (s : State) :
    Body :=
  let g := grpAt s i.gid
  let n := benesBytes (log2 (g.width * 2 ^ wid.val))
  match lowOffset s i.gid ex a n with
  | .error c => .fault c
  | .ok off =>
    if scratchBlocked s i.gid n false [(lowLane g ex, off)] then .wait
    else
      let set := BitVec.ofNat 4352 (scratchRead s g.team off n)
      let r := blockAccess (consumeAll s i.gid it) i.gid ((n + 255) / 256) off
      .done { kind := .pcfg pcn.val wid.val set, least := r.2 } r.1

/-- PCFG (R177). -/
def execPcfg (h : Hdr) (wid : Fin 4) (pcn : Fin 8) (a : Opnd) (s : State) : Out :=
  let it : Item := 
    { hdr := h, cls := .other, srcs := [a], txBad := true, specHold := true, access := true, scratch := true
      track := .load }
  runItem it (pcfgBody it wid pcn a) s

/-- The group's vector permuted through a configuration (R178). -/
def permVector (cfg : PermCfg) (g : Group) (ex : Mask) (a : Nat → Word) : List Nat :=
  let w := widW cfg.wid
  let k := 2 ^ cfg.wid
  let n := g.width * k
  let m := log2 n
  let x := (List.range n).map fun e => if hasBit ex (e / k) then elemOf w (a (e / k)) (e % k) else 0
  (benes m x ((List.range ((2 * m - 1) * 2 ^ (m - 1))).map fun i => hasBit cfg.bits i)).1

/-- A configuration whose switch bits each come from the one or the other set, and whose WID comes from either:
which is a free value (R178). -/
def mixPerm (a b : PermCfg) (s : State) : PermCfg × State :=
  let m : BitVec 4352 := (List.range 68).foldl
    (fun m i => m ||| ((Config.freeWord (s.free + i)).setWidth 4352 <<< (64 * i))) 0
  let wid := if hasBit (Config.freeWord (s.free + 68)) 0 then b.wid else a.wid
  (⟨(a.bits &&& ~~~m) ||| (b.bits &&& m), wid⟩, { s with free := s.free + 69 })

/-- The sets that incomplete PCFGs to pcN of a group have read, in issue order. -/
def pcfgInFlight (g : Group) (pcn : Nat) : List PermCfg :=
  g.ops.filterMap fun o =>
    match o.kind with
    | .pcfg n wid set => if n = pcn then some ⟨set, wid⟩ else none
    | _ => none

/-- The configuration that a PERM uses: pcN, and while PCFGs to it are incomplete, switch bits of the old set and
of the new ones (R178). -/
def permCfg (s : State) (gid pcn : Nat) : PermCfg × State :=
  (pcfgInFlight (grpAt s gid) pcn).foldl (fun (p : PermCfg × State) c => mixPerm p.1 c p.2)
    (mapGet default (grpAt s gid).pcfg pcn, s)

/-- PERM (R178). -/
def execPerm (h : Hdr) (pcn : Fin 8) (d a : Opnd) (s : State) : Out :=
  let it : Item :=
    { hdr := h, cls := .other, srcs := [a], dsts := [d], dstVs := true, txBad := true, least := 24 }
  runItem it (fun i ex s =>
    let g := grpAt s i.gid
    let cfg := (permCfg s i.gid pcn.val).1
    let y := permVector cfg g ex fun l => readOpnd s i.gid l a
    let k := 2 ^ cfg.wid
    let vals := (lanesOf g.width ex).map fun l =>
      (l, (packElems (widW cfg.wid) k fun j => (y.getD (l * k + j) 0, 0)).1)
    let r := enterBanks (consumeAll (permCfg s i.gid pcn.val).2 i.gid it) i.gid (2 * ((8 * g.width + 255) / 256)) 0
    .done { writes := destWrites d vals, least := 24 + r.2 } r.1) s

/-! ## Regrouping (R179) -/

/-- The regroup set that holds a group index, if it has begun: the index of its first arrival, and its members. -/
def regroupSet (t : Team) (gidx : Nat) : Option (Nat × List Nat) :=
  t.regroups.find? fun e => e.2.contains gidx

/-- The members of the set that a group begins with K: those indices of its K that are in no set yet. -/
def newSet (t : Team) (gidx k : Nat) : List Nat :=
  ((List.range k).map (gidx / k * k + ·)).filter fun x => (regroupSet t x).isNone

/-- REGROUP: the executing threads arrive and wait; the first arrival of a set gives its K. -/
def regroupBody (k : Nat) (d : Opnd) (i : Issue) (ex : Mask) (s : State) : Body :=
  let g := grpAt s i.gid
  let s := match regroupSet (teamAt s g.team) g.gidx with
    | some _ => s
    | none => modTeam s g.team fun t => { t with regroups := mapPut t.regroups g.gidx (newSet t g.gidx k) }
  .done { kind := .regroup }
    (modGrp s i.gid fun g => g.modLanes ex fun _ t => { t with wait := .regroup k d })

/-- The existing members of a regroup set, in ascending order of group index. -/
def regroupMembers (s : State) (team : Nat) (set : List Nat) : List Nat :=
  (teamAt s team).groups.filter fun gid => set.contains (grpAt s gid).gidx

def waitsRegroup (t : Thread) : Bool :=
  match t.wait with
  | .regroup _ _ => true
  | _ => false

/-- Whether a member has arrived with everything it issued complete, REGROUP itself apart, and every
copy of its arrived threads complete. -/
def regroupReady (s : State) (gid : Nat) : Bool :=
  let g := grpAt s gid
  (g.threads.all fun t => t.status ≠ .running || waitsRegroup t) &&
  (g.ops.all fun o => o.kind = .regroup) &&
  !((coreAt s g.core).copies.any fun c => c.gid = gid && waitsRegroup (g.thread c.lane))

/-- A survivor: its thread and the operand that receives the count. -/
def survivors (s : State) (members : List Nat) : List (Thread × Opnd) :=
  members.flatMap fun gid => (grpAt s gid).threads.filterMap fun t =>
    match t.status, t.wait with
    | .running, .regroup _ d => some (t, d)
    | _, _ => none

/-- A thread in its new place: registers from LIVE on are zero, and reconvergence records are gone. -/
def movedThread (live : Nat) (t : Thread) : Thread :=
  { t with v := t.v.filter fun e => e.1 < live, wait := .none, block := none, recon := []
           poison := t.poison.filter (· < live) }

/-- The registers that move with a thread: LIVE of the header that follows its REGROUP, which it stands at. -/
def liveOf (s : State) (gid : Nat) (t : Thread) : Nat :=
  let regs := (launchOf s gid).regs
  match fetchItem (fetchLines s gid t.pc.toNat) gid t.pc.toNat with
  | .ok (v, _) => if v % 4 = 3 then min (Header.ofBits (BitVec.ofNat 64 v)).live.toNat regs else regs
  | .error _ => regs

/-- Deals the survivors to one member: its lanes, the writes of the count, and its REGROUP complete. -/
def dealTo (s : State) (gid count : Nat) (ts : List (Thread × Opnd)) : State :=
  let s := modGrp s gid fun g =>
    let threads := (List.range g.width).map fun l =>
      match ts[l]? with
      | some (t, _) => movedThread (liveOf s gid t) t
      | none => endThread (g.thread l)
    let g := { g with threads := threads }
    let g := (ts.zipIdx).foldl (fun g e =>
      applyWrites g (destWrites e.1.2 [(e.2, BitVec.ofNat 64 count)])) g
    (g.ops.filter fun o => o.kind = .regroup).foldl completeAll g
  enterBlocks s gid

/-- The set of a team that began with group `set` is dealt, once every member has arrived and is ready; the move goes
through the banks at 256 bytes a cycle in each direction. -/
def regroupDeal (s : State) (team set : Nat) : Option State :=
  match mapFind (teamAt s team).regroups set with
  | none => none
  | some members =>
    let ms := regroupMembers s team members
    if !(ms.all (regroupReady s)) then none
    else
      let ts := survivors s ms
      let width := (launchAt s (teamAt s team).lid).width
      let gid := ms.headD 0
      let moved := (ts.map fun t => 8 * liveOf s gid t.1).foldl (· + ·) 0
      let s := modTeam s team fun t => { t with regroups := mapErase t.regroups set }
      let s := (enterBanks s gid ((moved + 255) / 256 * 2) 0).1
      some ((ms.zipIdx).foldl (fun s e => dealTo s e.1 ts.length ((ts.drop (e.2 * width)).take width)) s)

end Sys2Proof.Machine
end

