-- ==== Sys2Proof/Machine/Control.lean ====
section
/-! DEFINITION. Control.lean: the instructions of class 0x000 (R359 to R361, R379, R380), except EXIT and ERET. -/

namespace Sys2Proof.Machine

/-- An item of class 0x000. -/
def ctrlItem (h : Hdr) : Item := { hdr := h, cls := .ctrl, lat := some 1 }

/-- An item with no effect apart from CTL (R361). -/
def nopBody (_ : Issue) (_ : Mask) (s : State) : Body := .done {} s

/-! ## Transfers (R360) -/

/-- The cause of a target that cannot be fetched: FETCH for what fails R67 or R14; a late translation that fails
outside the ELASTIC ranges (R458), and a poisoned word (R391), are escalated (R360; log entry 64). -/
def targetCause (l : Launch) (target : Word) (c : CauseCode) : CauseCode :=
  if c = .uncorr || ((c = .lease || c = .placement) && !inElastic l target.toNat) then c else .fetch

/-- The check that a target of a lane fails, in R360's order; the item at `pc` transfers. -/
def targetFail (s : State) (gid : Nat) (pc : Word) (lane : Nat) (target : Word) : Option (Nat × Cause) :=
  if target.toNat % 4 ≠ 0 then some (0, { code := .misalign, addr := target })
  else
    match fetchItem (fetchFor s gid pc lane target.toNat) gid target.toNat with
    | .error c => some (1, { code := targetCause (launchOf s gid) target c.code, addr := target })
    | .ok (v, _) => if v % 4 ≠ 3 then some (2, { code := .notHeader, addr := target }) else none

/-- The cause that a transfer reports: the first check that any lane fails, with the lowest target that
fails it; and, for a cause that reports one, the lowest lane that fails (R366, R367). -/
def firstTarget (fs : List Fail) : Option Cause :=
  match minBy (fun f => f.2.1) fs with
  | none => none
  | some f =>
    let same := fs.filter fun e => e.2.1 = f.2.1
    let lane := (same.map (·.1)).foldl min 63
    (minBy (fun e => e.2.2.addr.toNat) same).map fun e =>
      if e.2.2.code = .fetch || e.2.2.code = .notHeader then e.2.2 else { e.2.2 with lane := lane }

/-- Transfers every executing lane to its target, once every target has been checked; a link register
takes the address of the item that follows, at once. -/
def transferBody (link : Option Opnd) (target : Issue → Nat → State → Word)
    (i : Issue) (ex : Mask) (s : State) : Body :=
  let ts := (lanesOf (grpAt s i.gid).width ex).map fun l => (l, target i l s)
  let fs := ts.filterMap fun t => (targetFail s i.gid i.pc t.1 t.2).map fun f => (t.1, f)
  checked i ex s fs firstTarget fun ex s =>
    let next := i.pc + BitVec.ofNat 64 i.len
    let ts := ts.filter fun t => hasBit ex t.1
    let s := match link with
      | some d => modGrp s i.gid fun g => applyWrites g (destWrites d (ts.map fun t => (t.1, next)))
      | none => s
    let s := ts.foldl (fun s t => fetchFor s i.gid i.pc t.1 t.2.toNat) s
    .done { jumps := some ts } s

/-- The target of BRA and CALL: the item's address plus four times the signed offset, mod 2^64. -/
def relTarget (off : BitVec 18) (i : Issue) (_ : Nat) (_ : State) : Word :=
  i.pc + 4 * BitVec.signExtend 64 off

/-- The target of BRX, CALLX and RET: the operand's value. -/
def absTarget (a : Opnd) (i : Issue) (l : Nat) (s : State) : Word := readOpnd s i.gid l a

/-- Whether an operand names v0 to v767, or s0 to s63. -/
def isV : Opnd → Bool
  | .v _ => true
  | _ => false
def isVs : Opnd → Bool
  | .v _ => true
  | .s _ => true
  | _ => false

/-- BRA (R360). -/
def execBra (h : Hdr) (off : BitVec 18) (s : State) : Out :=
  runItem (ctrlItem h) (transferBody none (relTarget off)) s

/-- BRX (R360). -/
def execBrx (h : Hdr) (a : Opnd) (s : State) : Out :=
  runItem { ctrlItem h with srcs := [a], noStream := true } (transferBody none (absTarget a)) s

/-- CALL (R360). -/
def execCall (h : Hdr) (d : Opnd) (off : BitVec 18) (s : State) : Out :=
  runItem { ctrlItem h with dsts := [d], badOpnd := !isV d } (transferBody (some d) (relTarget off)) s

/-- CALLX (R360). -/
def execCallx (h : Hdr) (d a : Opnd) (s : State) : Out :=
  runItem { ctrlItem h with srcs := [a], dsts := [d], noStream := true, badOpnd := !isV d }
    (transferBody (some d) (absTarget a)) s

/-- RET: D is read (R360). -/
def execRet (h : Hdr) (d : Opnd) (s : State) : Out :=
  runItem { ctrlItem h with srcs := [d], badOpnd := !isVs d } (transferBody none (absTarget d)) s

/-! ## The others (R361) -/

/-- NOP in the C format. -/
def execNopC (h : Hdr) (s : State) : Out := runItem (ctrlItem h) nopBody s
/-- NOP in the S format. -/
def execNopS (h : Hdr) (s : State) : Out := runItem (ctrlItem h) nopBody s

/-- The fault that the EXIT of a group's last thread raises: one found after its instruction's issue, or
that of an outbound queue that has faulted (R110, R249, R263, R313). -/
def exitFault (g : Group) (ex : Mask) : Option (Cause × Group) :=
  if g.live &&& ~~~ex ≠ 0 then none
  else
    match g.deferred with
    | d :: _ => some (d.cause, takeDeferred g d)
    | [] =>
      (g.queues.findSome? fun e => if !e.2.isLoad && e.2.st = .faulted then e.2.fault else none).map
        fun c => (c, g)

/-- EXIT ends every executing thread. -/
def exitBody (i : Issue) (ex : Mask) (s : State) : Body :=
  match exitFault (grpAt s i.gid) ex with
  | some (c, g) => .laneFault c (putGrp s i.gid g)
  | none => .done {} (modGrp s i.gid fun g => g.modLanes ex fun _ t => endThread t)

/-- YIELD: the group's age becomes younger than that of every other group of the quarter, and the
executing threads' PC is ranked below the group's others. -/
def yieldBody (i : Issue) (_ : Mask) (s : State) : Body :=
  let n := (grpAt s i.gid).quart
  let peers := (s.groups.filter fun e => e.2.resident && e.2.quart = n).map (·.2)
  let placed := (peers.map (·.placed)).foldl max (gtOf s)
  let demoted := (peers.map (·.demoted)).foldl max 0 + 1
  .done { yields := true } (modGrp s i.gid fun g => { g with placed := placed, demoted := demoted })

/-- YIELD (R361). -/
def execYield (h : Hdr) (s : State) : Out := runItem (ctrlItem h) yieldBody s

/-- SLEEP parks each executing thread until GT reaches its deadline; 0 ticks park none. -/
def sleepBody (ticks : BitVec 18) (i : Issue) (ex : Mask) (s : State) : Body :=
  if ticks = 0 then .done {} s
  else .done {} (modGrp s i.gid fun g =>
    g.modLanes ex fun _ t => { t with wait := .sleep (gtOf s + ticks.toNat) })

/-- SLEEP (R361). -/
def execSleep (h : Hdr) (ticks : BitVec 18) (s : State) : Out :=
  runItem { ctrlItem h with txBad := true } (sleepBody ticks) s

/-! ## TFENCE, TRAP, BRK (R379, R380) -/

/-- TFENCE raises ARITH when FFLAGS and FTRAPEN share a set bit. -/
def tfenceBody (i : Issue) (_ : Mask) (s : State) : Body :=
  let g := grpAt s i.gid
  let common := g.fflags &&& g.ftrapen
  if common ≠ 0 then .trap { code := .arith, sub := common.toNat } else .done {} s

/-- TFENCE: it waits for every earlier item that can set a flag. -/
def execTfence (h : Hdr) (s : State) : Out :=
  runItem { ctrlItem h with hold := (issuingGroup s).ops.any (·.setsFlags) } tfenceBody s

/-- TRAP (R380). -/
def execTrap (h : Hdr) (code : BitVec 18) (s : State) : Out :=
  runItem { ctrlItem h with txBad := true, specHold := true }
    (fun _ _ _ => .trap { code := .swtrap, addr := code.setWidth 64 }) s

/-- BRK (R380). -/
def execBrk (h : Hdr) (code : BitVec 18) (s : State) : Out :=
  runItem { ctrlItem h with txBad := true }
    (fun _ _ _ => .trap { code := .brk, addr := code.setWidth 64 }) s

/-! ## Items that do not decode -/

/-- An item whose encoding R40 rejects: its control field is where every format has it, with no flag where SETF names
none (R15 to R20). -/
def illegalItem (s : State) : Item :=
  let i := issueOf s
  let v := match fetchItem s i.gid i.pc.toNat with
    | .ok (v, _) => v
    | .error _ => 0
  let b : BitVec 20 := BitVec.ofNat 20 (v / 4)
  let ctl := (Ctl.ofBits b).getD ⟨b.extractLsb' 0 3, b.extractLsb' 3 12, none, false⟩
  { hdr := ⟨ctl, ⟨7, false⟩, .none⟩, cls := .other, illegal := true }

/-- It raises ILLEGAL_OPC at its issue, whatever its guard (R40, R41). -/
def execUnassignedEncoding (_ : Reject) (s : State) : Out :=
  runItem (illegalItem s) (fun _ _ _ => .fault { code := .illegalOpc }) s

end Sys2Proof.Machine
end

