-- ==== Sys2Proof/Machine/L1.lean ====
section
/-! DEFINITION. L1.lean: a core's L1, its publications and releases, and its outstanding requests (R127 to
R136, R273, R280, R281, R285). -/

namespace Sys2Proof.Machine

/-! ## Lines -/

def findL1 (c : Core) (asid line : Nat) : Option L1Line :=
  c.l1.find? fun x => x.asid = asid && x.line = line

/-- Changes the line of a tag in a core. -/
def modL1 (s : State) (core asid line : Nat) (f : L1Line → L1Line) : State :=
  modCore s core fun c =>
    { c with l1 := c.l1.map fun x => if x.asid = asid && x.line = line then f x else x }

def dropL1 (s : State) (core asid line : Nat) : State :=
  modCore s core fun c => { c with l1 := c.l1.filter fun x => !(x.asid = asid && x.line = line) }

/-- The L1's sets (R128). -/
def Core.sets (c : Core) : Nat := (524288 - c.pool) / 2048

/-- Sector `i` of a line. -/
def sectorData (d : Line) (i : Nat) : BitVec 256 := d.extractLsb' (256 * i) 256

/-- Whether a clean byte of a sector may be used now: the sector is valid and GT < END (R130). -/
def cleanNow (s : State) (x : L1Line) (sector : Nat) : Bool :=
  hasBit x.sv sector && decide (gtOf s < x.stop)

/-- The bytes of `[off, off + n)` of a line as the L1 gives them, and the mask of those it gives: dirty
ones, and those of a sector usable now (R130). -/
def l1Bytes (s : State) (core asid va n : Nat) : Nat × BitVec 8 :=
  match findL1 (coreAt s core) asid (va / 128) with
  | none => (0, 0)
  | some x =>
    let off := va % 128
    let m := if cleanNow s x (off / 32) then BitVec.ofNat 8 (2 ^ n - 1)
      else BitVec.ofNat 8 (bits x.dm.toNat off n)
    (lineRead x.data off n, m)

/-- The dirty bytes of a 32-byte sector in a core's cache ways, with their mask (R304, R318). -/
def dirtySector (s : State) (core asid sector : Nat) : BitVec 256 × BitVec 32 :=
  match findL1 (coreAt s core) asid (sector / 4) with
  | none => (0, 0)
  | some x => (sectorData x.data (sector % 4), BitVec.ofNat 32 (bits x.dm.toNat (32 * (sector % 4)) 32))

/-- `d` with the bytes of `x` under a mask of 32. -/
def mergeSector (d x : BitVec 256) (m : BitVec 32) : BitVec 256 :=
  (mergeLine (d.setWidth 1024) (x.setWidth 1024) (m.setWidth 128)).setWidth 256

/-- The clean bytes of a sector usable now, and their VER. -/
def cleanSector (s : State) (core asid sector : Nat) : Option (BitVec 256 × BitVec 48) :=
  match findL1 (coreAt s core) asid (sector / 4) with
  | none => none
  | some x =>
    if cleanNow s x (sector % 4) then
      some (sectorData x.data (sector % 4), x.vers.getD (sector % 4) 0)
    else none

/-! ## Requests outstanding (R135) -/

/-- The entry that an operation on its way holds together with others: an LDX or STX holds one for each distinct
line, any other operation its own. -/
def Pub.entry (id : Nat) (p : Pub) : Nat × Nat × Nat × Nat :=
  match p.kind, p.sender with
  | .stx .., .item g op _ => (1, g, op, p.va / 128)
  | .ldx .., .item g op _ => (1, g, op, p.va / 128)
  | _, _ => (0, id, 0, 0)

/-- Requests that hold entries of a core and were sent before number `id`. -/
def entriesBefore (s : State) (core id : Nat) : Nat :=
  (s.requests.filter fun e => e.2.core = core && decide (e.1 < id) && !e.2.reader.isFetch).length +
  (dedup ((s.pubs.filter fun e => e.2.core = core && decide (e.2.seq < id) && e.2.stage ≠ .held && !e.2.sp).map
    fun e => e.2.entry e.1)).length +
  (s.probes.filter fun e => e.2.core = core && e.2.answered.isNone && decide (e.1 < id)).length

/-- Entries of a core that are free. -/
def freeEntries (s : State) (core : Nat) : Nat := Config.coreRequests - entriesBefore s core s.nextId

/-- Whether a request sent without a count at issue has an entry: the core's earlier ones fill fewer than
all. -/
def hasEntry (s : State) (core id : Nat) : Bool := decide (entriesBefore s core id < Config.coreRequests)

/-- Sends a read request of a line. -/
def addRequest (s : State) (r : Request) : State × Nat :=
  let (id, s) := freshId s
  ({ s with requests := mapPut s.requests id r }, id)

/-- Whether a request fills the L1. -/
def Reader.fills : Reader → Bool
  | .l1 .. => true
  | .prefetch l2 => !l2
  | _ => false

/-- The outstanding fill of a line in a core. -/
def fillOut (s : State) (core asid line : Nat) : Option Nat :=
  (s.requests.find? fun e =>
    e.2.core = core && e.2.asid = asid && e.2.line = line && e.2.reader.fills).map (·.1)

/-- Whether an operation carries stores of a core's L1 to a line. -/
def storesTo (core asid line : Nat) (p : Pub) : Bool :=
  p.core = core && p.asid = asid && p.va / 128 = line && !p.sp &&
  match p.sender with
  | .release .. => true
  | .early _ => true
  | _ => false

/-- The outstanding fill that a miss may join (R131): one that its slice has not answered, or that it has answered with
a lease that has not ended, while no store of the core's that has left the L1 is still on its way to the line: the value
is then the latest at the lookup (R132, R276). -/
def joinable (s : State) (core asid line : Nat) : Option Nat :=
  (s.requests.find? fun e =>
    e.2.core = core && e.2.asid = asid && e.2.line = line && e.2.reader.fills &&
    match e.2.stage with
    | .answered _ stop _ _ _ => decide (gtOf s < stop) && !s.pubs.any fun p => storesTo core asid line p.2
    | _ => true).map (·.1)

/-! ## Publications (R133, R134) -/

/-- Changes a group that is still there. -/
def modGrpIf (s : State) (g : Nat) (f : Group → Group) : State :=
  if (mapFind s.groups g).isSome then modGrp s g f else s


/-- The words of a line that a byte mask touches, and those that it covers whole. -/
def wordsOf (m : BitVec 128) : BitVec 16 :=
  maskOf 16 ((List.range 16).filter fun w => bits m.toNat (8 * w) 8 ≠ 0)
def wholeWords (m : BitVec 128) : BitVec 16 :=
  maskOf 16 ((List.range 16).filter fun w => bits m.toNat (8 * w) 8 = 0xFF)

/-- The sectors of a line whose bytes under a mask hold a poisoned word. -/
def L1Line.badSectors (x : L1Line) (m : BitVec 128) : BitVec 4 :=
  let bad := x.wordPoison &&& wordsOf m
  maskOf 4 ((List.range 4).filter fun i => bits bad.toNat (4 * i) 4 ≠ 0)

/-- The group that an operation belongs to. -/
def Sender.group : Sender → Option Nat
  | .release g _ => some g
  | .early g => some g
  | .item g _ _ => some g
  | .stream g _ _ => some g
  | .copy g _ => some g
  | .matrix g _ _ _ => some g

/-- Whether it carries stores of an L1. -/
def Sender.publishes : Sender → Bool
  | .release _ _ => true
  | .early _ => true
  | _ => false

/-- The group whose fence counters count it: they count publications only (R281). -/
def Sender.counted (x : Sender) : Option Nat := if x.publishes then x.group else none

/-- The slice an operation goes to: by hash of its address, or in carved storage (R74, R84). -/
def pubSlice (s : State) (p : Pub) : Nat :=
  match p.kind with
  | .stx .. => carvedSlice (partAt s p.part) p.va
  | .ldx .. => carvedSlice (partAt s p.part) p.va
  | _ => sliceOf s p.lid p.asid p.va

/-- Notes the die whose link carries a group's operation, when it is not the core's own (R281). -/
def noteLink (s : State) (p : Pub) : State :=
  let d := dieOf (pubSlice s p)
  if d = coreDie p.core then s
  else
    match p.sender.counted with
    | some g => modGrpIf s g fun g => { g with links := dedup (d :: g.links) }
    | none => s

/-- Adds an operation on its way. -/
def addPub (s : State) (p : Pub) : State × Nat :=
  let (id, s) := freshId s
  let s := { s with pubs := mapPut s.pubs id { p with seq := id } }
  (if p.stage = .travelling then noteLink s p else s, id)

/-- Sends bytes of a line as publications, one for each sector (R133 step 2). -/
def publishBytes (s : State) (core : Nat) (x : L1Line) (m : BitVec 128) (snd : Sender) :
    State × List Nat :=
  (List.range 4).foldl (fun acc i =>
    let sm := m &&& bytesOfSectors (bitMask 4 i)
    if sm = 0 then acc
    else
      let (s, id) := addPub acc.1
        { core := core, part := (launchAt s x.lid).part, lid := x.lid, asid := x.asid
          va := x.line * 128 + 32 * i, kind := .write x.data sm, sender := snd, stage := .travelling
          sp := false, seq := 0, first := x.first, poison := x.badSectors sm }
      (s, acc.2 ++ [id])) (s, [])

/-- Takes the dirty bytes of a line that a mask names: clears their DM bits and publishes them. -/
def takeBytes (s : State) (core : Nat) (x : L1Line) (m : BitVec 128) (snd : Sender) :
    State × List Nat :=
  let m := m &&& x.dm
  let s := modL1 s core x.asid x.line fun x =>
    { x with dm := x.dm &&& ~~~m, wordPoison := x.wordPoison &&& ~~~(wordsOf m) }
  publishBytes s core x m snd

/-- Evicts a line: its dirty bytes are published first (R134). -/
def evictL1 (s : State) (core gid : Nat) (x : L1Line) : State :=
  dropL1 (takeBytes s core x (BitVec.allOnes 128) (.early gid)).1 core x.asid x.line

/-- Evicts every line of a core (R127, R136). -/
def flushL1 (s : State) (core gid : Nat) : State :=
  ((coreAt s core).l1).foldl (fun s x => evictL1 s core gid x) s

/-- The cache-way lines of the set of a line. -/
def setLines (c : Core) (asid line : Nat) : List L1Line :=
  let k := l1Set c.sets asid line
  c.l1.filter fun x => l1Set c.sets x.asid x.line = k

/-- Makes a cache way free for a line: the line is held already, a way is empty, or a victim without a
fill outstanding leaves, one marked by .STRM first; which one is open (R128). -/
def makeRoom (s : State) (core gid asid line : Nat) : Option State :=
  let c := coreAt s core
  let ls := setLines c asid line
  if (findL1 c asid line).isSome || ls.length < Config.cacheWays - c.logWays then some s
  else
    let vs := ls.filter fun x => (fillOut s core x.asid x.line).isNone
    let vs := if vs.any (·.first) then vs.filter (·.first) else vs
    if vs.isEmpty then none
    else
      let (k, s) := freeChoice s vs.length
      some (evictL1 s core gid (vs.getD k default))

/-- Whether a launch is a repeated run (R398). -/
def repeats (s : State) (lid : Nat) : Bool := (launchAt s lid).shadow.isSome

/-- Performs a store at the L1 (R132). Bytes that wait there of a repeated run and of another launch are not
mixed: the earlier ones are published. The store allocates the line without a fill, writes the bytes and sets their
dirty bits; `none` when no way can be had now. -/
def storeL1 (s : State) (core gid lid va n : Nat) (x : Nat) (strm : Bool) : Option State :=
  let asid := (launchAt s lid).asid
  let line := va / 128
  (makeRoom s core gid asid line).map fun s =>
    let s := match findL1 (coreAt s core) asid line with
      | some x =>
        if x.dm ≠ 0 && x.lid ≠ lid && (repeats s x.lid || repeats s lid) then
          (takeBytes s core x (BitVec.allOnes 128) (.early gid)).1
        else s
      | none => s
    let s := if (findL1 (coreAt s core) asid line).isSome then s
      else modCore s core fun c =>
        { c with l1 := c.l1 ++ [{ (default : L1Line) with asid := asid, line := line, lid := lid, first := strm }] }
    let m := byteRange (va % 128) n
    modL1 s core asid line fun l =>
      { l with data := mergeLine l.data (BitVec.ofNat 1024 (x <<< (8 * (va % 128)))) m
               dm := l.dm ||| m, lid := lid, wordPoison := l.wordPoison &&& ~~~(wholeWords m) }

/-- Sets the order of eviction of a line (R144, R146). -/
def markFirst (s : State) (core asid line : Nat) : State :=
  modL1 s core asid line fun x => { x with first := true }

/-! ## Releases (R133, R273, R280, R281, R285) -/

/-- Whether a release at a scope publishes: core pair or wider, and team scope on a core pair. -/
def publishesAt (l : Launch) (sc : Scope) : Bool := 4 ≤ sc.code || (sc = .team && l.isPair)

/-- The bytes of a line that guarded ranges name. -/
def guardMask (gs : Option (List (Nat × Nat))) (line : Nat) : BitVec 128 :=
  match gs with
  | none => BitVec.allOnes 128
  | some rs => maskOf 128 ((List.range 128).filter fun i =>
      rs.any fun r => r.1 ≤ line * 128 + i && line * 128 + i < r.2)

/-- Takes every dirty byte of a core that the guards name, for a release (R133 step 2, R285). Guarded
ranges are addresses of the group's ASID. -/
def takeDirty (s : State) (core gid rel : Nat) (gs : Option (List (Nat × Nat))) : State × List Nat :=
  ((coreAt s core).l1).foldl (fun acc x =>
    if gs.isSome && x.asid ≠ asidOf s gid then acc
    else
      let (s, ids) := takeBytes acc.1 core x (guardMask gs x.line) (.release gid rel)
      (s, acc.2 ++ ids)) (s, [])

/-- The operations a release waits for before its step 2: every publication the core has sent, and the
updates and STX that lanes of the group issued earlier (R133 step 1, R280). -/
def earlierPubs (s : State) (core gid : Nat) (lanes : Mask) : List Nat :=
  (s.pubs.filter fun e =>
    match e.2.sender with
    | .item g _ l => g = gid && hasBit lanes l
    | snd => e.2.core = core && snd.publishes).map (·.1)

/-- Begins a release: its first stage. -/
def startRelease (s : State) (core gid : Nat) (lanes : Mask) (publishes : Bool)
    (gs : Option (List (Nat × Nat))) (cont : RelCont) (but : List Nat) : State × Nat :=
  let ids := (earlierPubs s core gid lanes).filter fun n => !but.contains n
  let ids := if publishes then ids
    else ids.filter fun n => ((mapFind s.pubs n).map fun p => !p.sender.publishes).getD false
  let (id, s) := freshId s
  let r : Release :=
    { core := core, gid := gid, publishes := publishes, guards := gs, stage := .waiting, pubs := ids
      markers := [], mark := 0, cont := cont }
  ({ s with releases := mapPut s.releases id r }, id)

/-- Whether every listed operation has been applied. -/
def allApplied (s : State) (ids : List Nat) : Bool := ids.all fun n => (mapFind s.pubs n).isNone

/-- The sectors an operation touches, as a line and a byte mask each. -/
def Pub.touched (p : Pub) : List (Nat × BitVec 128) :=
  let span := fun (n : Nat) => (List.range ((n + 127) / 128)).map fun i =>
    (p.va / 128 + i, if n ≤ 128 then bytesOfSectors (sectorsOf (byteRange (p.va % 128) n))
      else BitVec.allOnes 128)
  match p.kind with
  | .write _ m => [(p.va / 128, bytesOfSectors (sectorsOf m))]
  | .cas ty .. => span (ty.w / 8)
  | .red _ ty .. => span (ty.w / 8)
  | .xred cell .. => span (if cell = .f32 then 64 else 384)
  | .xfin ty .. => span (if ty = .f32 then 64 else 384)
  | .tileAdd exact vs => span (if exact then 64 * vs.length else 4 * vs.length)
  | .stx _ n => span n
  | .ldx n .. => span n

/-- Sends an update that has waited or is new: the dirty bytes of the sectors it touches are published
before it (R152 step 3). -/
def sendUpdate (s : State) (id : Nat) : State :=
  match mapFind s.pubs id with
  | none => s
  | some p =>
    let gid := p.sender.group.getD 0
    let s := if p.sp then s
      else p.touched.foldl (fun s t =>
        match findL1 (coreAt s p.core) p.asid t.1 with
        | some x => (takeBytes s p.core x t.2 (.early gid)).1
        | none => s) s
    let (seq, s) := freshId s
    let s := { s with pubs := mapPut s.pubs id { p with stage := PubStage.travelling, seq := seq } }
    if p.sp then s else noteLink s p

/-- Performs the own bytes of an ST.REL at the L1, in lane order; `none` when no way can be had now. -/
def storeOwn (s : State) (core gid lid : Nat) (first : Bool) : List (Nat × Word × Nat) → Option State
  | [] => some s
  | (va, x, n) :: ds =>
    match storeL1 s core gid lid va n (bits x.toNat 0 (8 * n)) first with
    | some s => storeOwn s core gid lid first ds
    | none => none

/-- The bytes of the words of a line that a mask touches: an aligned store lies in one word (R278). -/
def wordBytes (m : BitVec 128) : BitVec 128 :=
  maskOf 128 ((List.range 128).filter fun i => hasBit (wordsOf m) (i / 8))

/-- Publishes those own bytes of an ST.REL that are still dirty, with every other dirty byte of their words, so that no
store is taken in part (R278), and answers what must be applied: these, and the publications of the same lines that are on
their way already. -/
def publishOwn (s : State) (core gid rel lid : Nat) (data : List (Nat × Word × Nat)) :
    State × List Nat :=
  let asid := (launchAt s lid).asid
  let lines := dedup (data.map fun d => d.1 / 128)
  let sent := (s.pubs.filter fun e =>
    e.2.core = core && e.2.asid = asid && lines.contains (e.2.va / 128) && e.2.sender.publishes).map (·.1)
  let (s, ids) := lines.foldl (fun acc line =>
    match findL1 (coreAt acc.1 core) asid line with
    | some x =>
      let m := data.foldl (fun m d => if d.1 / 128 = line then m ||| byteRange (d.1 % 128) d.2.2 else m)
        (0 : BitVec 128)
      let (s, ids) := takeBytes acc.1 core x (wordBytes m) (.release gid rel)
      (s, acc.2 ++ ids)
    | none => acc) (s, ([] : List Nat))
  (s, sent ++ ids)

def setRelease (s : State) (id : Nat) (r : Release) : State :=
  { s with releases := mapPut s.releases id r }
def endRelease (s : State) (id : Nat) : State := { s with releases := mapErase s.releases id }

/-- A release whose step 2 publications have been applied goes on: it sends its held updates, or publishes
its own bytes, or is complete (R145, R152 step 6). -/
def afterRelease (s : State) (id : Nat) (r : Release) : State :=
  match r.cont with
  | .nothing => endRelease s id
  | .updates pubs => pubs.foldl sendUpdate (endRelease s id)
  | .store _ lid _ data =>
    let (s, ids) := publishOwn s r.core r.gid id lid data
    setRelease s id { r with stage := .own, pubs := ids }

/-- Whether an earlier release of the core has still to take its bytes, or an ST.REL that has performed its own has still to
publish them: a later release takes bytes after it, so that it misses none that happen before it (R280, R295). -/
def releaseBefore (s : State) (id : Nat) (r : Release) : Bool :=
  s.releases.any fun e => decide (e.1 < id) && e.2.core = r.core && e.2.publishes &&
    match e.2.stage, e.2.cont with
    | .waiting, _ => true
    | .sent, .store .. => true
    | _, _ => false

/-- The publications of a core that are on their way: bytes that have left the L1 and that a release publishes (R134,
R280). -/
def underWay (s : State) (core : Nat) : List Nat :=
  (s.pubs.filter fun e => e.2.core = core && e.2.sender.publishes).map (·.1)

/-- The next stage of a release, if what it waits for has come about (R133, R280, R281). One with guarded ranges waits after
its step 2 for its own publications only (R285). -/
def advanceRelease (s : State) (id : Nat) : Option State :=
  match mapFind s.releases id with
  | none => none
  | some r =>
    if !allApplied s r.pubs then none
    else
      match r.stage with
      | .waiting =>
        if !r.publishes then some (afterRelease s id r)
        else if releaseBefore s id r then none
        else
          let before := if r.guards.isSome then [] else underWay s r.core
          let (s, ids) := takeDirty s r.core r.gid id r.guards
          let ids := before ++ ids
          let marks := (grpAt s r.gid).links
          let s := modGrpIf s r.gid fun g => { g with links := [] }
          let s := setRelease s id { r with stage := .sent, pubs := ids, markers := marks, mark := s.nextId }
          match r.cont with
          | .store op lid strm data =>
            (storeOwn s r.core r.gid lid strm data).map fun s =>
              modGrpIf s r.gid fun g => modOp g op fun o => { o with holds := .none }
          | _ => some s
      | .sent => if r.markers.isEmpty then some (afterRelease s id r) else none
      | .own => some (endRelease s id)

/-- Advances a release as far as it goes at once. -/
def runRelease (s : State) (id : Nat) : State :=
  (List.range 4).foldl (fun s _ => (advanceRelease s id).getD s) s

/-- Begins a release and takes it as far as it goes at once. -/
def beginRelease (s : State) (core gid : Nat) (lanes : Mask) (publishes : Bool)
    (gs : Option (List (Nat × Nat))) (cont : RelCont) (but : List Nat) : State × Nat :=
  let (s, id) := startRelease s core gid lanes publishes gs cont but
  (runRelease s id, id)

/-- Whether a release has completed. -/
def released (s : State) (id : Nat) : Bool := (mapFind s.releases id).isNone

end Sys2Proof.Machine
end

