-- ==== Sys2Proof/Machine/Ending.lean ====
section
/-! DEFINITION. Ending.lean: ending a launch: its groups stop, its transactions abort, its speculation is
undone, and its record is set (R376, R393, R415). -/

namespace Sys2Proof.Machine

/-- Statuses of a completion record (R415). -/
abbrev stOk : Nat := 0
abbrev stPartial : Nat := 1
abbrev stFailed : Nat := 2
abbrev stEnded : Nat := 3
abbrev stHalted : Nat := 4
abbrev stTorn : Nat := 5
abbrev stRejected : Nat := 6

/-- Whether a launch has been accepted and its record is not yet due. -/
def Launch.incomplete (l : Launch) : Bool :=
  match l.st with
  | .waiting | .starting | .running => true
  | _ => false

/-- Drops the locks and holds of a group, of one lane or (with 64) of its commit round. -/
def dropLocks (s : State) (gid : Nat) (own : Lock → Bool) : State :=
  let keep := fun (k : Lock) => !(k.gid = gid && own k)
  { s with
    slices := s.slices.map fun e => (e.1, { e.2 with locks := e.2.locks.filter keep })
    teams := s.teams.map fun e => (e.1, { e.2 with locks := e.2.locks.filter keep }) }

/-- Gives back the irrevocable token that a lane of a group holds (R336). -/
def dropToken (s : State) (gid : Nat) (lane : Nat → Bool) : State :=
  { s with parts := s.parts.map fun e =>
      match e.2.irrevToken with
      | some (g, l) => if g = gid && lane l then (e.1, { e.2 with irrevToken := none }) else e
      | none => e }

/-- A thread's transaction as nothing open: records discarded. -/
def closeTx (t : Thread) : Thread :=
  { t with tx := { t.tx with active := false, irrev := false, reads := [], writes := [], undo := 0
                             items := 0, wants := none, sts := [] } }

/-- Stops a group for good: no thread of it is picked again; its transactions and its speculation are
discarded with their locks (R376). -/
def stopGroup (s : State) (gid : Nat) : State :=
  let s := dropToken (dropLocks s gid fun _ => true) gid fun _ => true
  modGrp s gid fun g =>
    { g with held := .stopped, heldCause := none, threads := g.threads.map closeTx
             spec := default, round := default }

/-- The groups of a launch that exist. -/
def launchGroups (s : State) (lid : Nat) : List Nat :=
  (s.groups.filter fun e => (teamAt s e.2.team).lid = lid).map (·.1)

/-- The groups of a launch stop at once, so that no item issues again, and its queued teams are DONE. What
the groups have in flight goes on; each team then ends (R376). -/
def stopTeams (s : State) (lid : Nat) : State :=
  let s := modLaunch s lid fun l => { l with st := .ending }
  let s := (launchGroups s lid).foldl stopGroup s
  { s with teams := s.teams.map fun e =>
      if e.2.lid = lid && (e.2.st = .undealt || e.2.st = .queued) then
        (e.1, { e.2 with st := TeamState.done })
      else e }

/-- The repeated runs of a launch's teams that go on (R398). -/
def shadowsOf (s : State) (lid : Nat) : List Nat :=
  (s.launches.filter fun e => e.2.shadow = some lid && e.2.incomplete).map (·.1)

/-- Ends a launch that is incomplete, with its teams' repeated runs: its record will report this status. -/
def endLaunch (s : State) (lid status detail cause aux : Nat) : State :=
  if !(launchAt s lid).incomplete then s
  else
    let s := modLaunch s lid fun l =>
      { l with status := status, detail := detail, aux := aux
               cause := if cause = 0 then l.cause else cause }
    stopTeams ((shadowsOf s lid).foldl stopTeams s) lid

/-- A fault that arises after the last thread's EXIT ends the launch, and its record reports the cause (R110, R123, R263,
R313, R376); of a poisoned value the consumption counts (R391). -/
def lateFault (s : State) (lid : Nat) (c : CauseCode) : State :=
  endLaunch (if c = .uncorr then { s with uecnt := min (s.uecnt + 1) 255 } else s) lid stEnded 4 c.num 0

/-- UNCORR found by an operation after its issue, of the family of items 1 for the matrix unit's and else
0: raised on the item that R263 names (R391). -/
def deferPoison (s : State) (gid op family lane va : Nat) : State :=
  if (mapFind s.groups gid).isSome && (grpAt s gid).live = 0 then lateFault s (lidOf s gid) .uncorr
  else
    modGrpIf s gid fun g =>
      let d : Deferred :=
        { flag := (opOf g op).bind (·.setf), family := family, qn := 0, op := op
          cause := { code := .uncorr, addr := BitVec.ofNat 64 va, lane := lane } }
      { g with deferred := g.deferred ++ [d] }

/-- Marks a launch unreplayable (R393). -/
def markUnreplayable (s : State) (lid : Nat) : State := modLaunch s lid fun l => { l with unrepl := true }

end Sys2Proof.Machine
end

