-- ==== Sys2Proof/Machine/Approx.lean ====
section
/-! DEFINITION. Approx.lean: correctly rounded division, roots, powers, logarithms, sines and hyperbolic
tangents (R230).

Quotients and roots are computed in integers with a sticky remainder. The transcendental functions are
bracketed by integer intervals at a working precision that grows until both ends round alike; a value
that the last precision does not separate is a free value of Config. -/

namespace Sys2Proof.Machine

/-! ## Square roots of integers -/

/-- floor(√n) for n < 4^k, bit by bit from bit k - 1. -/
def isqrtFrom (n : Nat) : Nat → Nat → Nat
  | 0, r => r
  | k + 1, r => if (r + 2 ^ k) * (r + 2 ^ k) ≤ n then isqrtFrom n k (r + 2 ^ k) else isqrtFrom n k r

/-- floor(√n). -/
def isqrt (n : Nat) : Nat := isqrtFrom n (log2 n / 2 + 1) 0

/-! ## Quotients and roots, with a sticky remainder: m × 2^e, and whether more lies below -/

/-- A positive magnitude: m × 2^e, or with the flag something strictly between it and the next. -/
structure Mag where
  m : Nat
  e : Int
  sticky : Bool
deriving DecidableEq, Repr, Inhabited

def divMag (m : Nat) (e : Int) (n : Nat) (d : Int) : Mag :=
  let x := m <<< 130
  ⟨x / n, e - d - 130, x % n ≠ 0⟩

/-- The square root of m × 2^e, m not zero. -/
def sqrtMag (m : Nat) (e : Int) : Mag :=
  let odd := e % 2 ≠ 0
  let x := (if odd then 2 * m else m) <<< 200
  let e := if odd then e - 1 else e
  let r := isqrt x
  ⟨r, e / 2 - 100, r * r ≠ x⟩

/-- The reciprocal of the square root of m × 2^e, m not zero. -/
def rsqrtMag (m : Nat) (e : Int) : Mag :=
  let odd := e % 2 ≠ 0
  let m := if odd then 2 * m else m
  let e := if odd then e - 1 else e
  let r := isqrt (2 ^ 300 / m)
  ⟨r, -(e / 2) - 150, r * r * m ≠ 2 ^ 300⟩

/-! ## Intervals at 2^-p -/

/-- A real number between lo and hi, in units of 2^-p. -/
structure Iv where
  lo : Nat
  hi : Nat
deriving DecidableEq, Repr, Inhabited

def Iv.add (a b : Iv) : Iv := ⟨a.lo + b.lo, a.hi + b.hi⟩
def Iv.sub (a b : Iv) : Iv := ⟨a.lo - b.hi, a.hi - b.lo⟩
def Iv.mul (p : Nat) (a b : Iv) : Iv := ⟨(a.lo * b.lo) >>> p, ((a.hi * b.hi) >>> p) + 1⟩
def Iv.divN (a : Iv) (n : Nat) : Iv := ⟨a.lo / n, a.hi / n + 1⟩
def Iv.div (p : Nat) (a b : Iv) : Iv := ⟨(a.lo <<< p) / b.hi, (a.hi <<< p) / b.lo + 1⟩
/-- Widens the upper end, for the tail of a series bounded by twice its next term. -/
def Iv.tail (a t : Iv) : Iv := ⟨a.lo, a.hi + 2 * t.hi + 1⟩
/-- The number n / d. -/
def Iv.ratio (p n d : Nat) : Iv := ⟨(n <<< p) / d, (n <<< p) / d + 1⟩

/-- Gathers `k` terms of a series from number `j`: term `j` is `t / coef j`, added to the first sum or,
when `minus j`, to the second; `next j t` is the following `t`. Answers both sums and the first `t` left
out. -/
def gather (next : Nat → Iv → Iv) (coef : Nat → Nat) (minus : Nat → Bool) :
    Nat → Nat → Iv → Iv → Iv → Iv × Iv × Iv
  | 0, _, t, a, b => (a, b, t)
  | k + 1, j, t, a, b =>
    let x := t.divN (coef j)
    if minus j then gather next coef minus k (j + 1) (next j t) a (b.add x)
    else gather next coef minus k (j + 1) (next j t) (a.add x) b

/-- The value of a series whose terms at least halve. -/
def series (next : Nat → Iv → Iv) (coef : Nat → Nat) (minus : Nat → Bool) (k : Nat) (t : Iv) : Iv :=
  let (a, b, r) := gather next coef minus k 0 t ⟨0, 0⟩ ⟨0, 0⟩
  (a.tail r).sub (b.tail r)

def never (_ : Nat) : Bool := false
def oddTerm (j : Nat) : Bool := j % 2 = 1
def oddCoef (j : Nat) : Nat := 2 * j + 1
def oneCoef (_ : Nat) : Nat := 1

/-- 2 atanh(n / d) = ln((d + n) / (d - n)), for n / d at most 1/3. -/
def atanh2 (p n d : Nat) : Iv :=
  let z := Iv.ratio p n d
  let z2 := z.mul p z
  let r := series (fun _ t => t.mul p z2) oddCoef never (p / 3 + 8) z
  ⟨2 * r.lo, 2 * r.hi⟩

/-- ln 2. -/
def ln2 (p : Nat) : Iv := atanh2 p 1 3

/-- atan(1 / d), d at least 5. -/
def atanInv (p d : Nat) : Iv :=
  series (fun _ t => t.divN (d * d)) oddCoef oddTerm (p / 4 + 8) (Iv.ratio p 1 d)

/-- π = 16 atan(1/5) - 4 atan(1/239). -/
def piIv (p : Nat) : Iv :=
  let a := atanInv p 5
  let b := atanInv p 239
  Iv.sub ⟨16 * a.lo, 16 * a.hi⟩ ⟨4 * b.lo, 4 * b.hi⟩

/-- e^y for y below 1. -/
def expIv (p : Nat) (y : Iv) : Iv :=
  series (fun j t => (t.mul p y).divN (j + 1)) oneCoef never (p / 4 + 20) ⟨2 ^ p, 2 ^ p⟩

/-- sin x and cos x for x below 1. -/
def sinIv (p : Nat) (x : Iv) : Iv :=
  let x2 := x.mul p x
  series (fun j t => (t.mul p x2).divN ((2 * j + 2) * (2 * j + 3))) oneCoef oddTerm (p / 6 + 20) x
def cosIv (p : Nat) (x : Iv) : Iv :=
  let x2 := x.mul p x
  series (fun j t => (t.mul p x2).divN ((2 * j + 1) * (2 * j + 2))) oneCoef oddTerm (p / 6 + 20)
    ⟨2 ^ p, 2 ^ p⟩

/-! ## What a transcendental function gives -/

/-- A result: exact, or a positive magnitude strictly between two ends in units of 2^e, one for each
precision. -/
inductive Approx where
  /-- A value that is exact or known to be just above m × 2^e. -/
  | mag (neg : Bool) (x : Mag)
  /-- Strictly between lo × 2^e and hi × 2^e. -/
  | between (neg : Bool) (lo hi : Nat) (e : Int)
deriving DecidableEq, Repr, Inhabited

/-- Rounds an approximation; `none` when its ends round differently. -/
def Approx.round (f : Fmt) (mode : Rnd) : Approx → Option (Nat × FF)
  | .mag neg x => some (f.round .inf mode neg x.m x.e x.sticky)
  | .between neg lo hi e =>
    if lo = 0 || hi ≤ lo then none
    else
      let a := f.round .inf mode neg lo e true
      let b := f.round .inf mode neg (hi - 1) e true
      if a = b then some a else none

/-- The working precisions, and the free value for what they do not separate. -/
def precisions : List Nat := [128, 256, 512, 1024, 1536]

def refine (f : Fmt) (mode : Rnd) (g : Nat → Approx) : List Nat → Option (Nat × FF)
  | [] => none
  | p :: ps =>
    match (g p).round f mode with
    | some r => some r
    | none => refine f mode g ps

/-- The rounded value of a function: number `fn`, source encoding `x`. -/
def roundFn (fn : Nat) (f : Fmt) (mode : Rnd) (x : Nat) (g : Nat → Approx) : Nat × FF :=
  match refine f mode g precisions with
  | some r => r
  | none =>
    ((Config.unseparated fn (BitVec.ofNat 64 x) f.size (match mode with
      | .rne => 0 | .rtz => 1 | .rdn => 2 | .rup => 3 | .rna => 4 | .dyn => 5)).toNat % 2 ^ f.size,
     ffNX)

/-! ## The functions, on (-1)^neg × m × 2^e with m not zero -/

/-- Just above and just below one. -/
def aboveOne : Mag := ⟨2 ^ 200, -200, true⟩
def belowOne : Mag := ⟨2 ^ 200 - 1, -200, true⟩

/-- Whether the magnitude is below 2^k. -/
def smaller (m : Nat) (e : Int) (k : Int) : Bool := decide ((log2 m : Int) + e < k)

/-- The integer part and the fraction of m × 2^e, the fraction as n / 2^d. -/
def splitInt (m : Nat) (e : Int) : Nat × Nat × Nat :=
  if 0 ≤ e then (m <<< e.toNat, 0, 0)
  else
    let d := (-e).toNat
    (m >>> d, m % 2 ^ d, d)

/-- 2^a. -/
def exp2Fn (neg : Bool) (m : Nat) (e : Int) (p : Nat) : Approx :=
  if smaller m e (-240) then .mag false (if neg then belowOne else aboveOne)
  else if !smaller m e 12 then .mag false (if neg then ⟨1, -5000, true⟩ else ⟨1, 5000, true⟩)
  else
    let (n, f, d) := splitInt m e
    if f = 0 then .mag false ⟨1, if neg then -(n : Int) else n, false⟩
    else
      let (n, f) := if neg then (-(n : Int) - 1, 2 ^ d - f) else ((n : Int), f)
      let r := expIv p ((Iv.ratio p f (2 ^ d)).mul p (ln2 p))
      .between false r.lo r.hi (n - p)

/-- log2 a, for a positive and not 1. -/
def log2Fn (m : Nat) (e : Int) (p : Nat) : Approx :=
  let k := log2 m
  let n : Int := (k : Int) + e
  if m = 2 ^ k then .mag (decide (n < 0)) ⟨n.natAbs, 0, false⟩
  else
    -- a = 2^n × m / 2^k; halve the second factor when it is 3/2 or more
    let big := 3 * 2 ^ k ≤ 2 * m
    let n := if big then n + 1 else n
    let d := if big then 2 ^ (k + 1) else 2 ^ k
    let l := (if big then atanh2 p (d - m) (d + m) else atanh2 p (m - d) (m + d)).div p (ln2 p)
    let base := n.natAbs <<< p
    if n = 0 then .between big l.lo l.hi (-(p : Int))
    else if big = decide (n < 0) then .between (decide (n < 0)) (base + l.lo) (base + l.hi) (-(p : Int))
    else .between (decide (n < 0)) (base - l.hi) (base - l.lo) (-(p : Int))

/-- sin(π a) or cos(π a) from the quadrant q and g / 2^d, the fraction of 2a, not both giving zero. -/
def circle (cosine : Bool) (q g d p : Nat) : Approx :=
  let neg := if cosine then q = 1 || q = 2 else 2 ≤ q
  let useCos := cosine != (q % 2 = 1)
  if g = 0 then .mag neg ⟨1, 0, false⟩
  else
    let far := 2 ^ d < 2 * g
    let g := if far then 2 ^ d - g else g
    let pi := piIv p
    let x : Iv := ⟨(pi.lo * g) >>> (d + 1), ((pi.hi * g) >>> (d + 1)) + 1⟩
    let r := if useCos != far then cosIv p x else sinIv p x
    .between neg r.lo r.hi (-(p : Int))

/-- The quadrant of m × 2^e half-turns, and the fraction of twice it. -/
def quadrant (neg : Bool) (m : Nat) (e : Int) : Nat × Nat × Nat :=
  if 1 ≤ e then (0, 0, 0)
  else
    let d := (-e).toNat
    let r := m % 2 ^ (d + 1)
    let r := if neg && r ≠ 0 then 2 ^ (d + 1) - r else r
    (2 * r / 2 ^ d, 2 * r % 2 ^ d, d)

/-- sin(π a); `none` for an exact zero. -/
def sinFn (neg : Bool) (m : Nat) (e : Int) (p : Nat) : Option Approx :=
  if smaller m e (-110) then
    let pi := piIv p
    some (.between neg (m * pi.lo - ((m * pi.hi) >>> 200) - 1) (m * pi.hi) (e - p))
  else
    let (q, g, d) := quadrant neg m e
    if g = 0 && q % 2 = 0 then none else some (circle false q g d p)

/-- cos(π a); `none` for an exact zero. -/
def cosFn (neg : Bool) (m : Nat) (e : Int) (p : Nat) : Option Approx :=
  if smaller m e (-110) then some (.mag false belowOne)
  else
    let (q, g, d) := quadrant neg m e
    if g = 0 && q % 2 = 1 then none else some (circle true q g d p)

/-- tanh a. -/
def tanhFn (neg : Bool) (m : Nat) (e : Int) (p : Nat) : Approx :=
  if smaller m e (-110) then .mag neg ⟨(m <<< 150) - 1, e - 150, true⟩
  else if !smaller m e 7 then .mag neg belowOne
  else
    -- e^(2a) = 2^n e^r with 2a = n ln 2 + r
    let l := ln2 p
    let y : Iv :=
      if 0 ≤ e then ⟨(m <<< (e.toNat + 1)) <<< p, (m <<< (e.toNat + 1)) <<< p⟩
      else Iv.ratio p (2 * m) (2 ^ (-e).toNat)
    let n := y.lo / l.hi
    let r := expIv p (y.sub ⟨n * l.lo, n * l.hi⟩)
    let t : Iv := ⟨(r.lo <<< n) + 2 ^ p, (r.hi <<< n) + 2 ^ p⟩
    let u := Iv.div p ⟨2 ^ (p + 1), 2 ^ (p + 1)⟩ t
    .between neg (2 ^ p - u.hi) (2 ^ p - u.lo) (-(p : Int))

end Sys2Proof.Machine
end

