-- ==== Sys2Proof/Machine/Special.lean ====
section
/-! DEFINITION. Special.lean: the special functions and conversions of class 0x100 (R229 to R235). -/

namespace Sys2Proof.Machine

/-! ## The nine functions (R230) -/

/-- A signed infinity or zero, and the canonical NaN with NV. -/
def infRes (f : Fmt) (neg : Bool) : Nat × FF := (f.signed neg f.infBits, 0)
def zeroRes (f : Fmt) (neg : Bool) : Nat × FF := (f.signed neg 0, 0)
def nanRes (f : Fmt) : Nat × FF := (f.nanBits, ffNV)
def oneRes (f : Fmt) (neg : Bool) : Nat × FF := (f.round .inf .rne neg 1 0 false)

/-- Rounds a magnitude with its sign. -/
def magRes (f : Fmt) (m : Rnd) (neg : Bool) (x : Mag) : Nat × FF := f.round .inf m neg x.m x.e x.sticky

/-- FDIV. -/
def fdivFn : ElemFn := onValues fun f m xs =>
  let a := val xs 0
  let b := val xs 1
  let neg := a.neg != b.neg
  if a.isNan || b.isNan then (f.nanBits, sigFlags xs)
  else
    match a, b with
    | .inf _, .inf _ => nanRes f
    | .inf _, _ => infRes f neg
    | _, .inf _ => zeroRes f neg
    | .fin _ n e, .fin _ k d =>
      if k = 0 then if n = 0 then nanRes f else (f.signed neg f.infBits, ffDZ)
      else if n = 0 then zeroRes f neg
      else magRes f m neg (divMag n e k d)
    | _, _ => nanRes f

/-- FRCP, FSQRT and FRSQ. -/
def frcpFn : ElemFn := fun f m xs =>
  match f.value (xs.getD 0 0) with
  | .nan s => (f.nanBits, ffIf s ffNV)
  | .inf neg => zeroRes f neg
  | .fin neg n e => if n = 0 then (f.signed neg f.infBits, ffDZ) else magRes f m neg (divMag 1 0 n e)
def fsqrtFn : ElemFn := fun f m xs =>
  match f.value (xs.getD 0 0) with
  | .nan s => (f.nanBits, ffIf s ffNV)
  | .inf neg => if neg then nanRes f else infRes f false
  | .fin neg n e =>
    if n = 0 then zeroRes f neg else if neg then nanRes f else magRes f m false (sqrtMag n e)
def frsqFn : ElemFn := fun f m xs =>
  match f.value (xs.getD 0 0) with
  | .nan s => (f.nanBits, ffIf s ffNV)
  | .inf neg => if neg then nanRes f else zeroRes f false
  | .fin neg n e =>
    if n = 0 then (f.signed neg f.infBits, ffDZ)
    else if neg then nanRes f else magRes f m false (rsqrtMag n e)

/-- FEXP2 and FLOG2. -/
def fexp2Fn : ElemFn := fun f m xs =>
  let x := xs.getD 0 0
  match f.value x with
  | .nan s => (f.nanBits, ffIf s ffNV)
  | .inf neg => if neg then zeroRes f false else infRes f false
  | .fin neg n e => if n = 0 then oneRes f false else roundFn 0 f m x (exp2Fn neg n e)
def flog2Fn : ElemFn := fun f m xs =>
  let x := xs.getD 0 0
  match f.value x with
  | .nan s => (f.nanBits, ffIf s ffNV)
  | .inf neg => if neg then nanRes f else infRes f false
  | .fin neg n e =>
    if n = 0 then (f.signed true f.infBits, ffDZ)
    else if neg then nanRes f
    else if n = 2 ^ log2 n && (log2 n : Int) + e = 0 then zeroRes f false
    else roundFn 1 f m x (log2Fn n e)

/-- FSIN and FCOS, on half-turns. -/
def fsinFn : ElemFn := fun f m xs =>
  let x := xs.getD 0 0
  match f.value x with
  | .nan s => (f.nanBits, ffIf s ffNV)
  | .inf _ => nanRes f
  | .fin neg n e =>
    if n = 0 || (sinFn neg n e 0).isNone then zeroRes f neg
    else roundFn 2 f m x fun p => (sinFn neg n e p).getD default
def fcosFn : ElemFn := fun f m xs =>
  let x := xs.getD 0 0
  match f.value x with
  | .nan s => (f.nanBits, ffIf s ffNV)
  | .inf _ => nanRes f
  | .fin neg n e =>
    if n = 0 then oneRes f false
    else if (cosFn neg n e 0).isNone then zeroRes f false
    else roundFn 3 f m x fun p => (cosFn neg n e p).getD default

/-- FTANH. -/
def ftanhFn : ElemFn := fun f m xs =>
  let x := xs.getD 0 0
  match f.value x with
  | .nan s => (f.nanBits, ffIf s ffNV)
  | .inf neg => oneRes f neg
  | .fin neg n e => if n = 0 then zeroRes f neg else roundFn 4 f m x (tanhFn neg n e)

/-- Runs a special function in the D unit (R205). -/
def runSpecial (h : Hdr) (ty : Ty) (rnd : Rnd) (srcs : List Opnd) (d : Opnd) (f : ElemFn) (s : State) :
    Out :=
  runDiv { laneItem h (dUnit ty.w) none srcs d with least := if ty.w = 64 then 44 else 18 } d ty.k
    (fun g xs => floatElems ty (modeOf g rnd) f xs) s

/-- FRCP (R230). -/
def execFrcp (h : Hdr) (ty : Ty) (rnd : Rnd) (d a : Opnd) (s : State) : Out :=
  runSpecial h ty rnd [a] d frcpFn s
/-- FRSQ (R230). -/
def execFrsq (h : Hdr) (ty : Ty) (rnd : Rnd) (d a : Opnd) (s : State) : Out :=
  runSpecial h ty rnd [a] d frsqFn s
/-- FSQRT (R230). -/
def execFsqrt (h : Hdr) (ty : Ty) (rnd : Rnd) (d a : Opnd) (s : State) : Out :=
  runSpecial h ty rnd [a] d fsqrtFn s
/-- FDIV (R230). -/
def execFdiv (h : Hdr) (ty : Ty) (rnd : Rnd) (d a b : Opnd) (s : State) : Out :=
  runSpecial h ty rnd [a, b] d fdivFn s
/-- FEXP2 (R230). -/
def execFexp2 (h : Hdr) (ty : Ty) (rnd : Rnd) (d a : Opnd) (s : State) : Out :=
  runSpecial h ty rnd [a] d fexp2Fn s
/-- FLOG2 (R230). -/
def execFlog2 (h : Hdr) (ty : Ty) (rnd : Rnd) (d a : Opnd) (s : State) : Out :=
  runSpecial h ty rnd [a] d flog2Fn s
/-- FSIN (R230). -/
def execFsin (h : Hdr) (ty : Ty) (rnd : Rnd) (d a : Opnd) (s : State) : Out :=
  runSpecial h ty rnd [a] d fsinFn s
/-- FCOS (R230). -/
def execFcos (h : Hdr) (ty : Ty) (rnd : Rnd) (d a : Opnd) (s : State) : Out :=
  runSpecial h ty rnd [a] d fcosFn s
/-- FTANH (R230). -/
def execFtanh (h : Hdr) (ty : Ty) (rnd : Rnd) (d a : Opnd) (s : State) : Out :=
  runSpecial h ty rnd [a] d ftanhFn s

/-! ## Conversions (R231 to R233) -/

/-- FCVT of a scalar encoding. -/
def fcvtOp (f g : Fmt) (nsat : Bool) (m : Rnd) (x : Nat) : Nat × FF :=
  f.convert (f.ovf nsat) m (g.value x)

/-- F2I (R232). -/
def f2iOp (ty : Ty) (g : Fmt) (m : Rnd) (x : Nat) : Word × FF :=
  let lo := lowest ty.signed ty.w
  let hi := highest ty.signed ty.w
  match g.value x with
  | .nan _ => (0, ffNV)
  | .inf neg => (intResult ty false (if neg then lo else hi), ffNV)
  | .fin neg n e =>
    let (k, inexact) := roundInt m neg n e
    let t := signedInt neg k
    if hi < t then (intResult ty false hi, ffNV)
    else if t < lo then (intResult ty false lo, ffNV)
    else (intResult ty false t, ffIf inexact ffNX)

/-- I2F (R233). -/
def i2fOp (f : Fmt) (ty : Ty) (m : Rnd) (x : Word) : Nat × FF :=
  let t := readInt ty x
  f.roundFin .inf m (decide (t < 0)) t.natAbs 0

/-- FCVT (R231). -/
def execFcvt (h : Hdr) (ty sty : Ty) (rnd : Rnd) (nsat : Bool) (d a : Opnd) (s : State) : Out :=
  runLanes (fItem h [a] d) d 1 (fun g xs =>
    let r := fcvtOp (fmtOf ty) (fmtOf sty) nsat (modeOf g rnd) (elemOf sty.w (src xs 0) 0)
    (BitVec.ofNat 64 r.1, r.2)) s
/-- F2I (R232). -/
def execF2i (h : Hdr) (ty sty : Ty) (rnd : Rnd) (d a : Opnd) (s : State) : Out :=
  runLanes (fItem h [a] d) d 1
    (fun g xs => f2iOp ty (fmtOf sty) (modeOf g rnd) (elemOf sty.w (src xs 0) 0)) s
/-- I2F (R233). -/
def execI2f (h : Hdr) (ty sty : Ty) (rnd : Rnd) (d a : Opnd) (s : State) : Out :=
  runLanes (fItem h [a] d) d 1 (fun g xs =>
    let r := i2fOp (fmtOf ty) sty (modeOf g rnd) (src xs 0)
    (BitVec.ofNat 64 r.1, r.2)) s

/-! ## Block scales (R191, R234, R235) -/

/-- A value under a scale byte: scale 0xFF makes a quiet NaN, and E5M2 infinities stay infinite. -/
def scaled (s : Nat) (x : FVal) : FVal :=
  if s = 0xFF then .nan x.isSig
  else
    match x with
    | .fin n m e => .fin n m (e + s - 127)
    | y => y

/-- The inverse scale, by which FPACK divides. -/
def unscaled (s : Nat) (x : FVal) : FVal :=
  match x with
  | .fin n m e => .fin n m (e + 127 - s)
  | y => y

/-- One element of FPACK; a signalling NaN sets NV under a NaN scale too (R189). -/
def fpackElem (f g : Fmt) (nsat : Bool) (m : Rnd) (s x : Nat) : Nat × FF :=
  if s = 0xFF then (f.nanBits, ffIf (f = .e2m1) ffNV ||| sigFlags [g.value x])
  else f.convert (f.ovf nsat) m (unscaled s (g.value x))

/-- FPACK of one lane: the elements of A into elements POS × k_s onwards of the old D. -/
def fpackOp (ty sty : Ty) (nsat : Bool) (m : Rnd) (pos : Nat) (old a b : Word) : Word × FF :=
  packElems ty.w ty.k fun e =>
    if pos * sty.k ≤ e && e < pos * sty.k + sty.k then
      fpackElem (fmtOf ty) (fmtOf sty) nsat m (elemOf 8 b (e / 8)) (elemOf sty.w a (e - pos * sty.k))
    else (elemOf ty.w old e, 0)

/-- FUNPK of one lane. -/
def funpkOp (ty sty : Ty) (m : Rnd) (pos : Nat) (a b : Word) : Word × FF :=
  packElems ty.w ty.k fun i =>
    let e := pos * ty.k + i
    let x := (fmtOf sty).value (elemOf sty.w a e)
    match scaled (elemOf 8 b (e / 8)) x with
    | .nan _ => ((fmtOf ty).nanBits, ffIf x.isSig ffNV)
    | y => (fmtOf ty).convert .inf m y

/-- FPACK: D is read as the merge source (R234). -/
def execFpack (h : Hdr) (ty sty : Ty) (rnd : Rnd) (nsat : Bool) (d a b : Opnd) (pos : BitVec 10)
    (s : State) : Out :=
  runLanes (fItem h [a, b, d] d) d 1
    (fun g xs => fpackOp ty sty nsat (modeOf g rnd) pos.toNat (src xs 2) (src xs 0) (src xs 1)) s
/-- FUNPK (R235). -/
def execFunpk (h : Hdr) (ty sty : Ty) (rnd : Rnd) (d a b : Opnd) (pos : BitVec 10) (s : State) : Out :=
  runLanes (fItem h [a, b] d) d 1
    (fun g xs => funpkOp ty sty (modeOf g rnd) pos.toNat (src xs 0) (src xs 1)) s

end Sys2Proof.Machine
end

