-- ==== Sys2Proof/Machine/Assay.lean ====
section
/-! DEFINITION. Assay.lean: eligibility for assay and the signature of a team's run (R397, R398). -/

namespace Sys2Proof.Machine

/-- Whether an entry of a phaser table defines a .DIE or .PART phaser (R291). -/
def widePhaser (d : BitVec 1024) : Bool := bits d.toNat 0 1 = 1 && decide (5 ≤ bits d.toNat 1 3)

/-- Whether a launch is eligible for assay (R397). -/
def assayEligible (s : State) (l : Launch) : Bool :=
  s.variant.assay && !l.cas && (l.ranges.all fun r => r.inp || r.out) && !l.phaserTable.any widePhaser
  && decide (2 ≤ (partAt s l.part).count)

/-- Whether a write of a launch at an address contributes to its team's signature (R398). -/
def signs (s : State) (lid va : Nat) : Bool :=
  let l := launchAt s lid
  (match rangeOf l va with
  | some r => r.out
  | none => false) && assayEligible s l

/-- One contribution to a signature: address, data and kind (R398). -/
def sigTerm (a x : Word) (k : Nat) : Word := mix (mix (a ^^^ BitVec.ofNat 64 (k <<< 52)) ^^^ x)

/-- A team contributes what it writes at an address, if that counts. -/
def sign (s : State) (team a : Nat) (x : Word) (k : Nat) : State :=
  if signs s (teamAt s team).lid a then
    modTeam s team fun t => { t with sig := t.sig + sigTerm (BitVec.ofNat 64 a) x k }
  else s

/-- Contributions of one kind, in order. -/
def signAll (s : State) (team k : Nat) (xs : List (Nat × Word)) : State :=
  xs.foldl (fun s e => sign s team e.1 e.2 k) s

/-- Stores that a transaction or a speculation has kept until its commit. -/
def signStores (s : State) (team : Nat) (xs : List (Word × Word)) : State :=
  signAll s team 1 (xs.map fun e => (e.1.toNat, e.2))

/-- The bytes of a copy go to its destination: each aligned unit of 8 that is complete contributes, and the
last one of the copy. Answers the bytes of the unit that is not complete. -/
def signCopy (team stop : Nat) : Nat → Nat → Nat → Word → State → State × Word
  | 0, _, _, unit, s => (s, unit)
  | n + 1, a, x, unit, s =>
    let unit := unit ||| BitVec.ofNat 64 (x % 256 * 2 ^ (8 * (a % 8)))
    if a % 8 = 7 || a + 1 = stop then
      signCopy team stop n (a + 1) (x / 256) 0 (sign s team (a / 8 * 8) unit 5)
    else signCopy team stop n (a + 1) (x / 256) unit s

/-- Whether a launch is a repeated run, whose applications to memory are not made (R398). -/
def isShadow (s : State) (lid : Nat) : Bool := (launchAt s lid).shadow.isSome

end Sys2Proof.Machine
end

