-- ==== Sys2Proof/Machine/Memory.lean ====
section
/-! DEFINITION. Memory.lean: loads and stores of memory, scratchpad and carved storage, prefetches and
LINV, class 0x200 (R67, R68, R129 to R151), with the records of transactions and speculation (R304, R318,
R336). -/

namespace Sys2Proof.Machine

/-! ## Checks of an access (R67, R143) -/

/-- Steps 1 to 4 of R67 for an access of `n` bytes at a multiple of `al`. -/
def rangeCheck (l : Launch) (a : Word) (n al : Nat) (rd wr : Bool) : Option CauseCode :=
  let va := a.toNat
  if 2 ^ 52 ≤ va then some .prot
  else if va % al ≠ 0 then some .misalign
  else
    match rangeOf l va, rangeOf l (va + n - 1) with
    | some r, some r' =>
      if (rd && !(r.rd && r'.rd)) || (wr && !(r.wr && r'.wr)) then some .prot else none
    | _, _ => some .lease

/-- The pages of an ELASTIC range that an access reaches. -/
def elasticPages (l : Launch) (va n : Nat) : List Nat :=
  (dedup [pageOf va, pageOf (va + n - 1)]).filter fun p =>
    match rangeOf l (max va (p * 65536)) with
    | some r => r.elastic
    | none => false

/-- A fail of a lane, with the address and the direction that its cause reports. -/
def laneFail (l order : Nat) (code : CauseCode) (a : Word) (wr : Bool) : Fail :=
  (l, order, { code := code, addr := a, lane := l, wr := wr })

/-- Whether the line of an address is in the core's L1 under a lease that has not expired (R68). -/
def leasedHere (s : State) (core asid va : Nat) : Bool :=
  match findL1 (coreAt s core) asid (va / 128) with
  | some x => decide (gtOf s < x.stop)
  | none => false

/-- The probe that an item of a group has out for a page (R68). -/
def probeOf (s : State) (gid : Nat) (pc : Word) (page : Nat) : Option Probe :=
  (s.probes.find? fun e => e.2.gid = gid && e.2.pc = pc && e.2.page = page).map (·.2)

/-- Sends a probe for each page that has none. -/
def sendProbes (s : State) (i : Issue) (pages : List Nat) : State :=
  let core := (grpAt s i.gid).core
  let lid := lidOf s i.gid
  pages.foldl (fun s p =>
    if (probeOf s i.gid i.pc p).isSome then s
    else
      let (id, s) := freshId s
      { s with probes := mapPut s.probes id ⟨core, i.gid, i.pc, lid, p, none⟩ }) s

def clearProbes (s : State) (i : Issue) : State :=
  { s with probes := s.probes.filter fun e => !(e.2.gid = i.gid && e.2.pc = i.pc) }

/-- Goes on with a store or update once the probes of its pages are answered: with a probe still to send
it has begun; with one unanswered it waits; then the answers are its last check, whose cause tells whether the item
writes (R68, R152 step 2). -/
def probed (i : Issue) (ex : Mask) (s : State) (pages : List (Nat × Word × Nat)) (wr : Bool) (fs : List Fail)
    (k : Mask → State → Body) : Body :=
  let ps := dedup (pages.map (·.2.2))
  if ps.any fun p => (probeOf s i.gid i.pc p).isNone then .begun (sendProbes s i ps)
  else if ps.any fun p => ((probeOf s i.gid i.pc p).bind (·.answered)).isNone then .wait
  else
    let bad := pages.filterMap fun e =>
      ((probeOf s i.gid i.pc e.2.2).bind (·.answered)).bind fun r =>
        (residentCause r).map fun c => laneFail e.1 5 c e.2.1 wr
    checked i ex (clearProbes s i) (fs ++ bad) lowestFail k

/-! ## Records of transactions and speculation (R304, R318) -/

/-- The bytes of a write record at an offset of its sector, and the mask of those it holds. -/
def logBytes (ws : List WriteRec) (scr : Bool) (a n : Nat) : Nat × BitVec 8 :=
  match ws.find? fun w => w.scr = scr && w.sector = a / 32 with
  | some w => (bits w.data.toNat (8 * (a % 32)) (8 * n), BitVec.ofNat 8 (bits w.mask.toNat (a % 32) n))
  | none => (0, 0)

/-- Merges a store into write records: the record of its sector, or a new one at the end. -/
def logStore (ws : List WriteRec) (scr : Bool) (a n x : Nat) : List WriteRec :=
  let m : BitVec 32 := BitVec.ofNat 32 ((2 ^ n - 1) <<< (a % 32))
  let d : BitVec 256 := BitVec.ofNat 256 ((x % 2 ^ (8 * n)) <<< (8 * (a % 32)))
  if ws.any fun w => w.scr = scr && w.sector = a / 32 then
    ws.map fun w => if w.scr = scr && w.sector = a / 32 then
      { w with data := mergeSector w.data d m, mask := w.mask ||| m } else w
  else ws ++ [{ scr := scr, sector := a / 32, data := d, mask := m }]

def hasWrite (ws : List WriteRec) (scr : Bool) (sector : Nat) : Bool :=
  ws.any fun w => w.scr = scr && w.sector = sector
def hasRead (rs : List ReadRec) (scr : Bool) (sector : Nat) : Bool :=
  rs.any fun r => r.scr = scr && r.sector = sector

/-- Merges bytes of two sources under the mask of the first. -/
def overBytes (n : Nat) (a : Nat) (m : BitVec 8) (b : Nat) : Nat :=
  (List.range n).foldl (fun acc i =>
    acc + (if hasBit m i then bits a (8 * i) 8 else bits b (8 * i) 8) * 2 ^ (8 * i)) 0

/-- The mask of `n` bytes. -/
def fullMask (n : Nat) : BitVec 8 := BitVec.ofNat 8 (2 ^ n - 1)

/-- Whether a group runs in speculation. -/
def Group.speculates (g : Group) : Bool := g.spec.st = .speculating

/-- Changes a thread's records, or its group's while it speculates. -/
def addReadRec (s : State) (gid l : Nat) (r : ReadRec) : State :=
  if (grpAt s gid).speculates then
    modGrp s gid fun g => { g with spec := { g.spec with reads := g.spec.reads ++ [r] } }
  else modThread s gid l fun t => { t with tx := { t.tx with reads := t.tx.reads ++ [r] } }

/-! ## Loads of memory (R130, R131, R144, R145) -/

/-- A loaded value at its type: only .I8, .I16 and .I32 are sign-extended (R142). -/
def loadExt (ty : Ty) (n x : Nat) : Word :=
  match ty with
  | .i8 | .i16 | .i32 => sextW (8 * n) (BitVec.ofNat 64 x)
  | _ => BitVec.ofNat 64 (x % 2 ^ (8 * n))

/-- Bytes of an access of a type (R142). -/
def bytesOf (ty : Ty) : Nat := ty.w * ty.k / 8

/-- The write of one lane's result: sN takes the lowest executing lane's (R144). -/
def resultWrite (d : Opnd) (lowest lane : Nat) (x : Word) : List RegWrite :=
  match d with
  | .v n => [⟨lane, .v lane n.val, x⟩]
  | .s n => if lane = lowest then [⟨lane, .s n.val, x⟩] else []
  | _ => []

/-- What a load knows of how it reads. -/
structure LoadHow where
  lid : Nat
  core : Nat
  pc : Word
  /-- Read at the slice, no lease (.NL, LD.ACQ.SYS). -/
  atSlice : Bool
  strm : Bool
deriving Repr, Inhabited

/-- The request that fills a missing line: one outstanding that the load joins, which then waits for the stores that
have left the L1 before it, or a new one (R131, R132). -/
def fillRequest (s : State) (h : LoadHow) (gid lane line : Nat) : State × Nat :=
  let l := launchAt s h.lid
  match joinable s h.core l.asid line with
  | some id => ({ s with requests := mapMod s.requests id fun r => { r with after := s.nextId } }, id)
  | none => addRequest s
      { core := h.core, part := l.part, lid := h.lid, asid := l.asid, line := line, lc := 0
        hintFirst := false, reader := .l1 gid h.pc lane h.strm, stage := .sent }

/-- The request of a read at the slice: shared by the lanes of the item that read one line. -/
def sliceRequest (s : State) (h : LoadHow) (gid lane line : Nat) : State × Nat :=
  let l := launchAt s h.lid
  let same := s.requests.find? fun e =>
    e.2.core = h.core && e.2.asid = l.asid && e.2.line = line && e.2.stage = .sent &&
    match e.2.reader with
    | .noAlloc g p _ => g = gid && p = h.pc
    | _ => false
  match same with
  | some e => (s, e.1)
  | none => addRequest s
      { core := h.core, part := l.part, lid := h.lid, asid := l.asid, line := line, lc := 0
        hintFirst := h.strm, reader := .noAlloc gid h.pc lane, stage := .sent }

/-- The read record that a load adds, if it adds one (R304, R318): complete when the L1 gives the whole
sector, else completed by the fill. -/
def newRecord (s : State) (gid l asid va : Nat) (covered irrev : Bool) (core : Nat) :
    State × Option (BitVec 256 × BitVec 32) :=
  let g := grpAt s gid
  let t := g.thread l
  let sector := va / 32
  let needs := if g.speculates then !hasRead g.spec.reads false sector
    else t.tx.active && !covered && !hasRead t.tx.reads false sector
  if !needs then (s, none)
  else if irrev then (addReadRec s gid l ⟨false, sector, 0, 0, false⟩, some (0, 0))
  else
    let (dd, dm) := dirtySector s core asid sector
    match cleanSector s core asid sector with
    | some (cd, ver) =>
      (addReadRec s gid l
        { scr := false, sector := sector, ver := if dm = 0 then ver else 0
          hash := sectorHash (mergeSector cd dd dm), byval := dm ≠ 0 }, none)
    | none =>
      if dm = BitVec.allOnes 32 then
        (addReadRec s gid l ⟨false, sector, 0, sectorHash dd, true⟩, none)
      else (addReadRec s gid l ⟨false, sector, 0, 0, dm ≠ 0⟩, some (dd, dm))

/-- One lane's read: its bytes from the lane's or group's write records, then from the L1, and a request
for the rest. -/
def loadLane (h : LoadHow) (gid : Nat) (ty : Ty) (s : State) (l va : Nat) : State × LaneAcc :=
  let g := grpAt s gid
  let t := g.thread l
  let n := bytesOf ty
  let asid := (launchAt s h.lid).asid
  let log := if g.speculates then logBytes g.spec.writes false va n
    else if t.tx.active then logBytes t.tx.writes false va n else (0, 0)
  let covered := log.2 = fullMask n
  let irrev := t.tx.active && t.tx.irrev
  let (s, fix) := newRecord s gid l asid va covered irrev h.core
  let l1 := if irrev then (0, 0)
    else
      let b := l1Bytes s h.core asid va n
      if h.atSlice then
        (b.1, match findL1 (coreAt s h.core) asid (va / 128) with
          | some x => BitVec.ofNat 8 (bits x.dm.toNat (va % 128) n)
          | none => 0)
      else b
  let data := overBytes n log.1 log.2 l1.1
  let taken := log.2 ||| l1.2
  let acc : LaneAcc := ⟨l, va, n, ty, BitVec.ofNat 64 data, taken, none, fix⟩
  if taken = fullMask n && fix.isNone then (s, acc)
  else if irrev then
    let (s, id) := addRequest s
      { core := h.core, part := (launchAt s h.lid).part, lid := h.lid, asid := asid, line := va / 128
        lc := 0, hintFirst := false, reader := .irrev gid h.pc l (va / 32), stage := .sent }
    (s, { acc with req := some id })
  else
    let (s, id) := if h.atSlice then sliceRequest s h gid l (va / 128)
      else fillRequest s h gid l (va / 128)
    (s, { acc with req := some id })

/-- The reads of the lanes, in ascending order. -/
def loadLanes (h : LoadHow) (gid : Nat) (ty : Ty) : State → List (Nat × Nat) → State × List LaneAcc
  | s, [] => (s, [])
  | s, (l, va) :: ls =>
    let (s, a) := loadLane h gid ty s l va
    let (s, as) := loadLanes h gid ty s ls
    (s, a :: as)

/-- Lanes of a transaction that would need one record more than the launch's budget (R318). -/
def readOverflow (s : State) (gid : Nat) (scr : Bool) (n : Nat) (as : List (Nat × Nat)) : List Nat :=
  let g := grpAt s gid
  let budget := (launchOf s gid).txr
  (as.filter fun e =>
    let t := g.thread e.1
    t.tx.active && (logBytes t.tx.writes scr e.2 n).2 ≠ fullMask n
      && !hasRead t.tx.reads scr (e.2 / 32) && budget ≤ t.tx.reads.length).map (·.1)

/-- Whether the group's read log has room for the sectors that a load adds (R304, R305). -/
def specReadRoom (s : State) (gid : Nat) (as : List (Nat × Nat)) : Bool :=
  let g := grpAt s gid
  let new := (dedup (as.map fun e => e.2 / 32)).filter fun x => !hasRead g.spec.reads false x
  g.spec.reads.length + new.length ≤ (launchOf s gid).txr * g.width

/-- Aborts lanes with CAPACITY and takes them out of a mask. -/
def abortCapacity (s : State) (gid : Nat) (ls : List Nat) (ex : Mask) : State × Mask :=
  (ls.foldl (fun s l => abortLane s gid l 3 0) s, ex &&& ~~~(maskOf 64 ls))

/-- The distinct lines that lanes reach: the entries that an access of them needs (R135). -/
def linesOf (as : List (Nat × Nat)) : Nat := (dedup (as.map fun e => e.2 / 128)).length

/-- Whether an access finds too few free entries for the lines that its executing lanes reach (R135). -/
def shortOf (s : State) (core : Nat) (as : List (Nat × Word)) : Bool :=
  decide (freeEntries s core < linesOf (as.map fun e => (e.1, e.2.toNat)))

/-- Whether an ST.REL of a lane has still to perform its own bytes (R145). -/
def ownUnperformed (g : Group) (ex : Mask) : Bool :=
  g.ops.any fun o =>
    match o.holds with
    | .bytes own => own.any fun b => hasBit ex b.1
    | _ => false

/-- Whether bytes of an access are held by an ST.REL of the same lane that has not performed them
(R145). -/
def ownHeld (g : Group) (as : List (Nat × Nat)) (n : Nat) : Bool :=
  g.ops.any fun o =>
    match o.holds with
    | .bytes own => own.any fun b => as.any fun a =>
        a.1 = b.1 && a.2 < b.2.1 + b.2.2 && b.2.1 < a.2 + n
    | _ => false

/-- Distinct sectors over four: the cycles that an access holds the load-store unit (R137). -/
def coalesced (as : List (Nat × Nat)) : Nat := ((dedup (as.map fun a => a.2 / 32)).length + 3) / 4

/-- The lanes whose first byte the L1 would take from a poisoned sector or word (R391). -/
def poisonHit (s : State) (core asid : Nat) (as : List (Nat × Nat)) : List Fail :=
  as.filterMap fun a =>
    match findL1 (coreAt s core) asid (a.2 / 128) with
    | some x =>
      let clean := cleanNow s x (a.2 % 128 / 32)
      if (hasBit x.poison (a.2 % 128 / 32) && clean) ||
          (hasBit x.wordPoison (a.2 % 128 / 8) && (clean || hasBit x.dm (a.2 % 128))) then
        some (laneFail a.1 9 .uncorr (BitVec.ofNat 64 a.2) false)
      else none
    | none => none

/-- Whether every byte of an access hits the L1. -/
def hitsL1 (s : State) (core asid va n : Nat) : Bool := (l1Bytes s core asid va n).2 = fullMask n

/-- The fails of a load's lanes. -/
def loadFails (s : State) (lid core n : Nat) (as : List (Nat × Word)) : List Fail :=
  let l := launchAt s lid
  as.filterMap fun e =>
    match rangeCheck l e.2 n n true false with
    | some c => some (laneFail e.1 0 c e.2 false)
    | none =>
      let va := e.2.toNat
      if hitsL1 s core l.asid va n then none
      else
        (elasticPages l va n).findSome? fun p =>
          (residentCause (residency s lid l.asid (p * 65536))).map fun c => laneFail e.1 5 c e.2 false

/-- Pins the ELASTIC pages that a load's walks have found resident. -/
def pinLoads (s : State) (lid n : Nat) (as : List (Nat × Nat)) : State :=
  as.foldl (fun s e => (elasticPages (launchAt s lid) e.2 n).foldl (fun s p => pinPage s lid p) s) s

/-- Cycles from issue to the result of a load that hits the L1 (the table at R139). -/
abbrev l1Latency : Nat := 28

/-- Cycles from issue to the result of an access to slices: more when one is on another die (the table at R139). -/
def sliceLatency (s : State) (lid core : Nat) (as : List (Nat × Nat)) : Nat :=
  let asid := (launchAt s lid).asid
  if as.any fun e => dieOf (sliceOf s lid asid e.2) ≠ coreDie core then 330 else 190

/-- The body of LD. -/
def ldBody (it : Item) (ty : Ty) (acq : Option Scope) (ch : CHint) (d : Opnd)
    (addr : State → Nat → Nat → Word) (i : Issue) (ex : Mask) (s : State) : Body :=
  let g := grpAt s i.gid
  let n := bytesOf ty
  let as := (lanesOf g.width ex).map fun l => (l, addr s i.gid l)
  let lid := lidOf s i.gid
  let asid := (launchAt s lid).asid
  let fs := loadFails s lid g.core n as
  let nats := as.map fun e => (e.1, e.2.toNat)
  let fs := if fs.isEmpty then poisonHit s g.core asid nats else fs
  if shortOf s g.core as then .wait
  else checked i ex s fs lowestFail fun ex s =>
    let s := consumeAll s i.gid it
    let nats := nats.filter fun e => hasBit ex e.1
    let (s, ex') := abortCapacity s i.gid (readOverflow s i.gid false n nats) ex
    let nats := nats.filter fun e => hasBit ex' e.1
    if ownHeld g nats n || (g.speculates && !specReadRoom s i.gid nats) then .wait
    else
      let s := pinLoads s lid n nats
      let h : LoadHow := ⟨lid, g.core, i.pc, ch = .nl || acq = some .sys, ch = .strm⟩
      let (s, accs) := loadLanes h i.gid ty s nats
      let (done, todo) := accs.partition fun a => a.req.isNone
      let lowest := (lanesOf 64 ex').headD 0
      .done
        { writes := done.flatMap fun a => resultWrite d lowest a.lane (loadExt ty n a.data.toNat)
          least := if todo.isEmpty then l1Latency else sliceLatency s lid g.core (todo.map fun a => (a.lane, a.va))
          kind := .load d todo, holds := if acq.isSome then .all else .none
          elements := coalesced nats, ran := some ex' } s

/-- An item of class 0x200. -/
def memItem (h : Hdr) (srcs dsts : List Opnd) : Item :=
  { hdr := h, cls := .mem, srcs := srcs, dsts := dsts, dstVs := true, access := true }

/-- The address of an S form: the base plus the index shifted by SCALE (R142). -/
def addrS (a b : Opnd) (sc : Nat) (s : State) (gid l : Nat) : Word :=
  readOpnd s gid l a + (readOpnd s gid l b <<< sc)

/-- The address of an L form: the base plus the immediate (R142). -/
def addrL (a : Opnd) (imm : Word) (s : State) (gid l : Nat) : Word := readOpnd s gid l a + imm

/-- LD, S form (R144, R145). -/
def execLdS (h : Hdr) (ty : Ty) (sc : Fin 4) (acq : Option Scope) (ch : CHint) (d a b : Opnd)
    (s : State) : Out :=
  let it := { memItem h [a, b] [d] with unit := .ls, txBad := acq.isSome, specHold := acq.isSome, track := .load }
  runItem it (ldBody it ty acq ch d (addrS a b sc.val)) s
/-- LD, L form. -/
def execLdL (h : Hdr) (ty : Ty) (ch : CHint) (d a : Opnd) (imm : Word) (s : State) : Out :=
  let it := { memItem h [a] [d] with unit := .ls, track := .load }
  runItem it (ldBody it ty none ch d (addrL a imm)) s

/-! ## Stores to memory (R132, R145, R146) -/

/-- The pages that a store's or update's lanes have to probe: ELASTIC pages of lines that are not leased
here (R68). -/
def probePages (s : State) (lid core n : Nat) (as : List (Nat × Word)) : List (Nat × Word × Nat) :=
  let l := launchAt s lid
  as.flatMap fun e =>
    if leasedHere s core l.asid e.2.toNat then []
    else (elasticPages l e.2.toNat n).map fun p => (e.1, e.2, p)

/-- The fails of a store's or update's lanes by steps 1 to 4 of R67. -/
def storeFails (l : Launch) (n al : Nat) (rd wr : Bool) (as : List (Nat × Word)) : List Fail :=
  as.filterMap fun e => (rangeCheck l e.2 n al rd wr).map fun c => laneFail e.1 0 c e.2 wr

/-- Lanes of a transaction whose store would need one record more than the budget (R318). -/
def writeOverflow (s : State) (gid : Nat) (scr : Bool) (as : List (Nat × Nat)) : List Nat :=
  let g := grpAt s gid
  let budget := (launchOf s gid).txw
  (as.filter fun e =>
    let t := g.thread e.1
    t.tx.active && !hasWrite t.tx.writes scr (e.2 / 32) && budget ≤ t.tx.writes.length).map (·.1)

/-- Whether the group's write log has room for the sectors of a store (R304, R305). -/
def specWriteRoom (s : State) (gid : Nat) (as : List (Nat × Nat)) : Bool :=
  let g := grpAt s gid
  let new := (dedup (as.map fun e => e.2 / 32)).filter fun x => !hasWrite g.spec.writes false x
  g.spec.writes.length + new.length ≤ (launchOf s gid).txw * g.width

/-- Takes a lock of an irrevocable lane on a memory sector, if no other's lock or hold stands there
(R336). -/
def lockSector (s : State) (gid l lid sector : Nat) (wr : Bool) : Option State :=
  let asid := (launchAt s lid).asid
  let sl := sliceOf s lid asid (sector * 32)
  let ls := (sliceAt s sl).locks
  if lockBlocks ls asid sector gid l wr then none
  else if ls.any fun k => k.asid = asid && k.sector = sector && k.gid = gid && k.lane = l && k.write = wr then
    some s
  else some (modSlice s sl fun x => { x with locks := x.locks ++ [⟨asid, sector, gid, l, wr, true⟩] })

/-- One lane's store: into its write record, its group's, or the L1. What it contributes to the assay
signature is kept with a record, and counts at its commit (R398). -/
def storeLane (lid core gid : Nat) (strm : Bool) (s : State) (l va n : Nat) (x : Word) : Option State :=
  let g := grpAt s gid
  let t := g.thread l
  let x : Word := BitVec.ofNat 64 (bits x.toNat 0 (8 * n))
  let sts : List (Word × Word) := if signs s lid va then [(BitVec.ofNat 64 va, x)] else []
  if t.tx.active then
    let s? := if t.tx.irrev then lockSector s gid l lid (va / 32) true else some s
    s?.map fun s => modThread s gid l fun t =>
      { t with tx := { t.tx with
          writes := logStore t.tx.writes false va n x.toNat, sts := t.tx.sts ++ sts } }
  else if g.speculates then
    some (modGrp s gid fun g =>
      { g with spec := { g.spec with
          writes := logStore g.spec.writes false va n x.toNat, sts := g.spec.sts ++ sts } })
  else
    (storeL1 s core gid lid va n x.toNat strm).map fun s =>
      let s := signStores s g.team sts
      if strm then markFirst s core (launchAt s lid).asid (va / 128) else s

/-- The stores of the lanes in ascending order, so that the highest lane's byte stays (R137). -/
def storeLanes (lid core gid n : Nat) (strm : Bool) : State → List (Nat × Nat × Word) → Option State
  | s, [] => some s
  | s, (l, va, x) :: ls =>
    (storeLane lid core gid strm s l va n x).bind fun s => storeLanes lid core gid n strm s ls

/-- The effect of an ST.REL that publishes: its release begins (R145). It holds the load-store unit as any ST (R137). -/
def storeRelease (i : Issue) (ex : Mask) (s : State) (lid n : Nat) (strm : Bool)
    (xs : List (Nat × Nat × Word)) : Body :=
  let g := grpAt s i.gid
  let data := xs.map fun e => (e.2.1, e.2.2, n)
  let s := signAll s g.team 1 (xs.map fun e => (e.2.1, BitVec.ofNat 64 (bits e.2.2.toNat 0 (8 * n))))
  let (s, rel) := beginRelease s g.core i.gid ex true none (.store g.nextOp lid strm data) []
  let waits : Bool := match mapFind s.releases rel with
    | some r => r.stage = RelStage.waiting
    | none => false
  .done
    { kind := .release rel, elements := coalesced (xs.map fun e => (e.1, e.2.1))
      holds := if waits then .bytes (xs.map fun e => (e.1, e.2.1, n)) else .none } s

/-- The body of ST. -/
def stBody (it : Item) (ty : Ty) (rel : Option Scope) (ch : CHint) (d : Opnd)
    (addr : State → Nat → Nat → Word) (i : Issue) (ex : Mask) (s : State) : Body :=
  let g := grpAt s i.gid
  let n := bytesOf ty
  let lid := lidOf s i.gid
  let l := launchAt s lid
  let as := (lanesOf g.width ex).map fun l => (l, addr s i.gid l)
  let vals := (lanesOf g.width ex).map fun l => (l, (addr s i.gid l).toNat, readOpnd s i.gid l d)
  let fs := storeFails l n n false true as
  let ok := as.filter fun e => fs.all fun f => f.1 ≠ e.1
  if shortOf s g.core as then .wait
  else probed i ex s (probePages s lid g.core n ok) true fs fun ex s =>
    let s := consumeAll s i.gid it
    let nats := (vals.filter fun e => hasBit ex e.1).map fun e => (e.1, e.2.1)
    let (s, ex') := abortCapacity s i.gid (writeOverflow s i.gid false nats) ex
    let vals := vals.filter fun e => hasBit ex' e.1
    let nats := vals.map fun e => (e.1, e.2.1)
    if ownHeld g nats n || (rel.isSome && ownUnperformed g ex') || (g.speculates && !specWriteRoom s i.gid nats) then .wait
    else if (match rel with | some sc => publishesAt l sc | none => false) then
      storeRelease i ex' s lid n (ch = .strm) vals
    else
      match storeLanes lid g.core i.gid n (ch = .strm) s vals with
      | some s => .done { elements := coalesced nats, ran := some ex' } s
      | none => .wait

/-- ST, S form (R145, R146). -/
def execStS (h : Hdr) (ty : Ty) (sc : Fin 4) (rel : Option Scope) (ch : CHint) (d a b : Opnd)
    (s : State) : Out :=
  let it := { memItem h [a, b, d] [] with
    unit := .ls, writesMem := true, txBad := rel.isSome, specHold := rel.isSome }
  runItem it (stBody it ty rel ch d (addrS a b sc.val)) s
/-- ST, L form. -/
def execStL (h : Hdr) (ty : Ty) (ch : CHint) (d a : Opnd) (imm : Word) (s : State) : Out :=
  let it := { memItem h [a, d] [] with unit := .ls, writesMem := true, noBanks := true }
  runItem it (stBody it ty none ch d (addrL a imm)) s

/-! ## Scratchpad (R138 to R140, R147) -/

/-- MISALIGN, then SCRATCH (R143). -/
def scratchFails (l : Launch) (n al : Nat) (wr : Bool) (as : List (Nat × Word)) : List Fail :=
  as.filterMap fun e =>
    if e.2.toNat % al ≠ 0 then some (laneFail e.1 0 .misalign e.2 wr)
    else if scratchHas l e.2.toNat n then none else some (laneFail e.1 1 .scratch e.2 wr)

/-- Poisoned words of the scratchpad that a lane reads (R391). -/
def scratchPoisoned (s : State) (gid n : Nat) (as : List (Nat × Word)) : List Fail :=
  as.filterMap fun e =>
    if scratchBad s (grpAt s gid).team e.2.toNat n then some (laneFail e.1 9 .uncorr e.2 false) else none

/-- The 32 bytes of a scratchpad sector. -/
def scratchSector (s : State) (team sector : Nat) : BitVec 256 :=
  BitVec.ofNat 256 (bytesNat ((List.range 32).map fun i =>
    BitVec.ofNat 8 (scratchRead s team (32 * sector + i) 1)))

/-- Takes a lock of an irrevocable lane on a scratchpad sector (R336). -/
def lockScratch (s : State) (gid l sector : Nat) (wr : Bool) : State :=
  modTeam s (grpAt s gid).team fun t =>
    if t.locks.any fun k => k.sector = sector && k.gid = gid && k.lane = l && k.write = wr then t
    else { t with locks := t.locks ++ [⟨0, sector, gid, l, wr, true⟩] }

/-- One lane's scratchpad read, with its read record inside a transaction (R318). -/
def ldsLane (gid n : Nat) (s : State) (l a : Nat) : State × Nat :=
  let g := grpAt s gid
  let t := g.thread l
  let bank := scratchRead s g.team a n
  if t.tx.active then
    let log := logBytes t.tx.writes true a n
    let covered := log.2 = fullMask n
    let s := if covered || hasRead t.tx.reads true (a / 32) then s
      else
        let s := addReadRec s gid l ⟨true, a / 32, 0, sectorHash (scratchSector s g.team (a / 32)), false⟩
        if t.tx.irrev then lockScratch s gid l (a / 32) false else s
    (s, overBytes n log.1 log.2 bank)
  else (s, bank)

def ldsLanes (gid n : Nat) : State → List (Nat × Nat) → State × List (Nat × Nat)
  | s, [] => (s, [])
  | s, (l, a) :: ls =>
    let (s, x) := ldsLane gid n s l a
    let (s, xs) := ldsLanes gid n s ls
    (s, (l, x) :: xs)

/-- The body of LDS; a lane that takes every byte from its write records reaches no bank (R318). -/
def ldsBody (it : Item) (ty : Ty) (d : Opnd) (addr : State → Nat → Nat → Word)
    (i : Issue) (ex : Mask) (s : State) : Body :=
  let g := grpAt s i.gid
  let n := bytesOf ty
  let as := (lanesOf g.width ex).map fun l => (l, addr s i.gid l)
  let fs := scratchFails (launchOf s i.gid) n n false as
  let fs := if fs.isEmpty then scratchPoisoned s i.gid n as else fs
  checked i ex s fs lowestFail fun ex s =>
    let s := consumeAll s i.gid it
    let nats := (as.filter fun e => hasBit ex e.1).map fun e => (e.1, e.2.toNat)
    let (s, ex') := abortCapacity s i.gid (readOverflow s i.gid true n nats) ex
    let nats := nats.filter fun e => hasBit ex' e.1
    let bank := nats.filter fun e =>
      let t := (grpAt s i.gid).thread e.1
      !(t.tx.active && (logBytes t.tx.writes true e.2 n).2 = fullMask n)
    if scratchBlocked s i.gid n false bank then .wait
    else
      let (s, xs) := ldsLanes i.gid n s nats
      let r := bankAccess s i.gid (bankLoad n) bank
      .done
        { writes := destWrites d (xs.map fun e => (e.1, loadExt ty n e.2)), ran := some ex', least := r.2 } r.1

/-- LDS (R147). -/
def execLdsS (h : Hdr) (ty : Ty) (sc : Fin 4) (d a b : Opnd) (s : State) : Out :=
  let it := { memItem h [a, b] [d] with specHold := true, scratch := true, track := .load }
  runItem it (ldsBody it ty d (addrS a b sc.val)) s
/-- LDS, L form. -/
def execLdsL (h : Hdr) (ty : Ty) (d a : Opnd) (imm : Word) (s : State) : Out :=
  let it := { memItem h [a] [d] with specHold := true, scratch := true, track := .load }
  runItem it (ldsBody it ty d (addrL a imm)) s

/-- One lane's scratchpad store. -/
def stsLane (gid n : Nat) (s : State) (l a : Nat) (x : Word) : State :=
  let g := grpAt s gid
  let t := g.thread l
  if t.tx.active then
    let s := if t.tx.irrev then lockScratch s gid l (a / 32) true else s
    modThread s gid l fun t =>
      { t with tx := { t.tx with writes := logStore t.tx.writes true a n x.toNat } }
  else scratchWrite s g.team a n (bits x.toNat 0 (8 * n))

/-- The body of STS; a lane's store into its write records reaches no bank, but an irrevocable lane locks the sector
(R318, R336). -/
def stsBody (it : Item) (ty : Ty) (d : Opnd) (addr : State → Nat → Nat → Word)
    (i : Issue) (ex : Mask) (s : State) : Body :=
  let g := grpAt s i.gid
  let n := bytesOf ty
  let as := (lanesOf g.width ex).map fun l => (l, addr s i.gid l)
  let vals := (lanesOf g.width ex).map fun l => (l, (addr s i.gid l).toNat, readOpnd s i.gid l d)
  checked i ex s (scratchFails (launchOf s i.gid) n n true as) lowestFail fun ex s =>
    let s := consumeAll s i.gid it
    let nats := (vals.filter fun e => hasBit ex e.1).map fun e => (e.1, e.2.1)
    let (s, ex') := abortCapacity s i.gid (writeOverflow s i.gid true nats) ex
    let vals := vals.filter fun e => hasBit ex' e.1
    let nats := vals.map fun e => (e.1, e.2.1)
    let bank := nats.filter fun e =>
      let t := (grpAt s i.gid).thread e.1
      !t.tx.active || t.tx.irrev
    if scratchBlocked s i.gid n true bank then .wait
    else
      let r := bankAccess s i.gid (bankLoad n)
        (bank.filter fun e => !((grpAt s i.gid).thread e.1).tx.active)
      .done { ran := some ex', least := r.2 } (vals.foldl (fun s e => stsLane i.gid n s e.1 e.2.1 e.2.2) r.1)

/-- STS (R147). -/
def execStsS (h : Hdr) (ty : Ty) (sc : Fin 4) (d a b : Opnd) (s : State) : Out :=
  let it := { memItem h [a, b, d] [] with specHold := true, writesMem := true, scratch := true }
  runItem it (stsBody it ty d (addrS a b sc.val)) s
/-- STS, L form. -/
def execStsL (h : Hdr) (ty : Ty) (d a : Opnd) (imm : Word) (s : State) : Out :=
  let it := { memItem h [a, d] [] with specHold := true, writesMem := true, scratch := true, noBanks := true }
  runItem it (stsBody it ty d (addrL a imm)) s

/-! ## Carved storage (R148) -/

/-- MISALIGN, then PROT at or above the carved size as the core holds it (R143). -/
def carvedFails (size n : Nat) (wr : Bool) (as : List (Nat × Word)) : List Fail :=
  as.filterMap fun e =>
    if e.2.toNat % n ≠ 0 then some (laneFail e.1 0 .misalign e.2 wr)
    else if e.2.toNat + n ≤ size then none else some (laneFail e.1 1 .prot e.2 wr)

/-- Sends one operation for each lane, in ascending order; answers their numbers. -/
def sendItems (s : State) (i : Issue) (op : Nat) (kinds : List (Nat × Nat × SliceKind)) : State × List Nat :=
  let g := grpAt s i.gid
  let lid := lidOf s i.gid
  let l := launchAt s lid
  kinds.foldl (fun acc e =>
    let (s, id) := addPub acc.1
      { core := g.core, part := l.part, lid := lid, asid := l.asid, va := e.2.1, kind := e.2.2
        sender := .item i.gid op e.1, stage := .travelling, sp := false, seq := 0, first := false }
    (s, acc.2 ++ [id])) (s, [])

/-- The body of LDX and STX. -/
def carvedBody (it : Item) (ty : Ty) (d : Opnd) (store : Bool) (addr : State → Nat → Nat → Word)
    (i : Issue) (ex : Mask) (s : State) : Body :=
  let g := grpAt s i.gid
  let n := bytesOf ty
  let as := (lanesOf g.width ex).map fun l => (l, addr s i.gid l)
  let kind := fun l => if store then SliceKind.stx (readOpnd s i.gid l d) n else .ldx n l ty
  let kinds := as.map fun e => (e.1, e.2.toNat, kind e.1)
  if shortOf s g.core as then .wait
  else checked i ex s (carvedFails (coreAt s g.core).carved n store as) lowestFail fun ex s =>
    let s := consumeAll s i.gid it
    let (s, ids) := sendItems s i g.nextOp (kinds.filter fun e => hasBit ex e.1)
    .done { kind := .applied (if store then .zero else d) ids } s

/-- An item of LDX or STX. -/
def carvedItem (h : Hdr) (srcs dsts : List Opnd) (store : Bool) : Item :=
  { memItem h srcs dsts with
    txBad := true, specHold := true, writesMem := store, track := if store then .none else .load }

/-- LDX (R148). -/
def execLdxS (h : Hdr) (ty : Ty) (sc : Fin 4) (d a b : Opnd) (s : State) : Out :=
  let it := carvedItem h [a, b] [d] false
  runItem it (carvedBody it ty d false (addrS a b sc.val)) s
/-- LDX, L form. -/
def execLdxL (h : Hdr) (ty : Ty) (d a : Opnd) (imm : Word) (s : State) : Out :=
  let it := carvedItem h [a] [d] false
  runItem it (carvedBody it ty d false (addrL a imm)) s
/-- STX (R148). -/
def execStxS (h : Hdr) (ty : Ty) (sc : Fin 4) (d a b : Opnd) (s : State) : Out :=
  let it := carvedItem h [a, b, d] [] true
  runItem it (carvedBody it ty d true (addrS a b sc.val)) s
/-- STX, L form. -/
def execStxL (h : Hdr) (ty : Ty) (d a : Opnd) (imm : Word) (s : State) : Out :=
  let it := { carvedItem h [a, d] [] true with noBanks := true }
  runItem it (carvedBody it ty d true (addrL a imm)) s

/-! ## Prefetch (R149, R69) -/

/-- Whether a hint passes the checks of R67 and its walk would succeed with a right to read. -/
def hintOk (s : State) (lid : Nat) (a : Word) : Bool :=
  let l := launchAt s lid
  (rangeCheck l a 1 1 true false).isNone &&
  match walk s l.part l.asid a.toNat with
  | .leaf _ e _ _ => pteR e
  | _ => false

/-- A hint of one lane that fails is dropped and counted; where the checks passed and its walk met a condition of R58,
a record that no group raised is posted (R69, R374). -/
def dropBadHint (s : State) (core lid : Nat) (a : Word) : State :=
  let l := launchAt s lid
  let s := if (rangeCheck l a 1 1 true false).isNone then postBadWalk s core lid l.asid a.toNat else s
  dropHint s core lid l.asid a.toNat 1

/-- Counts hint lanes on the prefetch of a line that is on its way for them (R69). -/
def noteHint (s : State) (core asid line : Nat) (reader : Reader) (hints : Nat) : State :=
  { s with requests := s.requests.map fun e =>
      if e.2.core = core && e.2.asid = asid && e.2.line = line && e.2.reader = reader then
        (e.1, { e.2 with hints := e.2.hints + hints })
      else e }

/-- Sends a prefetch of a line under a lease class for hint lanes, unless the line is at hand or on its way. -/
def prefetchLine (s : State) (core lid va lc : Nat) (l2 : Bool) (hints : Nat) : State :=
  let l := launchAt s lid
  let line := va / 128
  let there := match findL1 (coreAt s core) l.asid line with
    | some x => (List.range 4).all fun i => cleanNow s x i
    | none => false
  let out := s.requests.any fun e =>
    e.2.core = core && e.2.asid = l.asid && e.2.line = line &&
      (if l2 then e.2.reader = .prefetch true else e.2.reader.fills)
  if !l2 && there then s
  else if out then noteHint s core l.asid line (.prefetch l2) hints
  else (addRequest s
    { core := core, part := l.part, lid := lid, asid := l.asid, line := line, lc := lc
      hintFirst := false, reader := .prefetch l2, stage := .sent, hints := hints }).1

/-- The walk that PREF.RES makes of a line's page, for hint lanes: at its slice, with no line filled (R149). -/
def walkLine (s : State) (core lid va hints : Nat) : State :=
  let l := launchAt s lid
  let line := va / 128
  if s.requests.any fun e =>
      e.2.core = core && e.2.asid = l.asid && e.2.line = line && e.2.reader = .walk then
    noteHint s core l.asid line .walk hints
  else (addRequest s
    { core := core, part := l.part, lid := lid, asid := l.asid, line := line, lc := 0
      hintFirst := false, reader := .walk, stage := .sent, hints := hints }).1

/-- The body of PREF: lane by lane, a hint that fails is dropped and counted. -/
def prefBody (it : Item) (l2 res : Bool) (lc : Nat) (addr : State → Nat → Nat → Word)
    (i : Issue) (ex : Mask) (s : State) : Body :=
  let g := grpAt s i.gid
  let lid := lidOf s i.gid
  let as := (lanesOf g.width ex).map fun l => (l, addr s i.gid l)
  let s := consumeAll s i.gid it
  if shortOf s g.core as then .wait
  else
    .done { lat := some 1 } (as.foldl (fun s e =>
      if !hintOk s lid e.2 then dropBadHint s g.core lid e.2
      else if res then walkLine s g.core lid e.2.toNat 1
      else prefetchLine s g.core lid e.2.toNat lc l2 1) s)

/-- PREF (R149). -/
def execPrefS (h : Hdr) (l2 res : Bool) (lc : Fin 4) (sc : Fin 4) (a b : Opnd) (s : State) : Out :=
  let it := { memItem h [a, b] [] with access := false, lat := some 1 }
  runItem it (prefBody it l2 res lc.val (addrS a b sc.val)) s
/-- PREF, L form. -/
def execPrefL (h : Hdr) (l2 res : Bool) (lc : Fin 4) (a : Opnd) (imm : Word) (s : State) : Out :=
  let it := { memItem h [a] [] with access := false, lat := some 1 }
  runItem it (prefBody it l2 res lc.val (addrL a imm)) s

/-! ## LINV (R150) -/

/-- The ranges that LINV names: one in each lane, or everything. -/
def linvRanges (s : State) (gid : Nat) (ls : List Nat) : Option (Opnd × Opnd) → List (Nat × Nat)
  | none => [(0, 2 ^ 52)]
  | some (a, b) => ls.map fun l =>
      let lo := (readOpnd s gid l a).toNat
      (lo, min (2 ^ 52) (lo + min (2 ^ 24) (readOpnd s gid l b).toNat))

/-- LINV on one line: with PUB its dirty bytes are published and it is dropped; without, its sectors
become invalid and dirty bytes stay. Answers the publications. -/
def linvLine (core gid : Nat) (pub : Bool) (acc : State × List Nat) (x : L1Line) : State × List Nat :=
  let (s, ids) := acc
  if pub then
    let (s, new) := takeBytes s core x (BitVec.allOnes 128) (.early gid)
    (dropL1 s core x.asid x.line, ids ++ new)
  else if x.dm = 0 then (dropL1 s core x.asid x.line, ids)
  else (modL1 s core x.asid x.line fun x => { x with sv := 0, poison := 0 }, ids)

/-- LINV (R150). -/
def execLinv (h : Hdr) (pub : Bool) (rng : Option (Opnd × Opnd)) (s : State) : Out :=
  let srcs := match rng with
    | some (a, b) => [a, b]
    | none => []
  let it := { memItem h srcs [] with txBad := true, specHold := true }
  runItem it (fun i ex s =>
    let g := grpAt s i.gid
    let rs := linvRanges s i.gid (lanesOf g.width ex) rng
    let s := consumeAll s i.gid it
    let hit := ((coreAt s g.core).l1).filter fun x => x.asid = asidOf s i.gid &&
      rs.any fun r => r.1 < r.2 && x.line * 128 < r.2 && r.1 < x.line * 128 + 128
    let (s, ids) := hit.foldl (linvLine g.core i.gid pub) (s, [])
    .done { kind := if pub then .sending ids else .ready } s) s

end Sys2Proof.Machine
end

