-- ==== Sys2Proof/Machine/Stream.lean ====
section
/-! DEFINITION. Stream.lean: stream queues and the copy engine as instructions see them, class 0x280 (R94 to
R101, R114 to R123). -/

namespace Sys2Proof.Machine

/-! ## Descriptors (R100, R101) -/

/-- Bits of a descriptor. -/
def dBits (d : BitVec 512) (lo w : Nat) : Nat := bits d.toNat lo w

/-- A descriptor's conditions that need nothing but itself and its queue's number (R101). -/
def descMalformed (d : BitVec 512) (qn : Nat) : Bool :=
  let kind := dBits d 0 3
  let isrc := dBits d 6 2
  let indirect := kind = 2 || kind = 3
  dBits d 23 9 ≠ 0 || dBits d 116 12 ≠ 0 || dBits d 180 12 ≠ 0 || 6 ≤ kind || isrc = 3
  || dBits d 17 2 = 3 || (!indirect && isrc ≠ 0) || (indirect && isrc = 0)
  || (isrc = 1 && dBits d 8 4 = qn) || (dBits d 21 1 = 1 && kind ≠ 0 && kind ≠ 2)

/-- QBASE, log2 of the depth, HOLD and QSEL of a binding word (R114). -/
def bindQbase (b : Nat) : Nat := bits b 0 20
def bindDepth (b : Nat) : Nat := bits b 20 4
def bindHold (b : Nat) : Bool := bits b 24 1 = 1
def bindQsel (b : Nat) : Nat := bits b 26 4

/-- Whether a binding word is malformed, but for its QSEL (R101). -/
def bindMalformed (b : Nat) : Bool :=
  bits b 25 1 ≠ 0 || bits b 30 34 ≠ 0 || bindDepth b < 1 || 8 < bindDepth b || bindQbase b % 256 ≠ 0

/-- Bytes of a queue's buffer (R95). -/
def bufferBytes (b width : Nat) : Nat := 2 ^ bindDepth b * width * 8

/-- Whether two spans of scratchpad offsets meet. -/
def spansMeet (a n b m : Nat) : Bool := a < b + m && b < a + n

/-- Whether a new index source is not one that the group has free: bound with kind load or feed, and no
other queue's source (R101). -/
def badSourceQueue (g : Group) (d : BitVec 512) (qn : Nat) : Bool :=
  dBits d 6 2 = 1 &&
  (let iq := dBits d 8 4
   let q := g.queue iq
   !q.bound || (q.kind ≠ 0 && q.kind ≠ 5) ||
     g.queues.any fun e => e.1 ≠ qn && e.2.bound && e.2.isrc = 1 && e.2.iq = iq)

/-- Contexts in use on a core (R94, R98). -/
def usedContexts (s : State) (core : Nat) : List Nat :=
  (s.groups.filter fun e => e.2.core = core && e.2.resident).flatMap fun e =>
    e.2.queues.filterMap fun q => q.2.ctx

/-- A free context of a core. -/
def freeContext (s : State) (core : Nat) : Option Nat :=
  let used := usedContexts s core
  (List.range Config.streamContexts).find? fun n => !used.contains n

/-- A freshly bound queue (R98, R114): HELD, RUNNING, or DONE when the stream has no element. -/
def newQueue (d : BitVec 512) (b : Nat) (ctx : Nat) : Queue :=
  let q : Queue :=
    { (default : Queue) with
      desc := d, qbase := bindQbase b, logd := bindDepth b, free := 2 ^ bindDepth b, ctx := some ctx }
  if bindHold b then { q with st := .held }
  else if q.total = 0 then { q with st := .done, ctx := none }
  else { q with st := .running }

/-! ## SQCFG, SQGO, SQSTOP, SQSTAT (R114 to R117) -/

/-- Reads a descriptor from scratchpad, or the fault of its load (R114). -/
def readDescSp (s : State) (gid lane : Nat) (a : Word) : Except Cause (BitVec 512) :=
  let g := grpAt s gid
  let cause := fun (c : CauseCode) => Except.error { code := c, addr := a, lane := lane }
  if a.toNat % 8 ≠ 0 then cause .misalign
  else if !scratchHas (launchOf s gid) a.toNat 64 then cause .scratch
  else if scratchBad s g.team a.toNat 64 then cause .uncorr
  else .ok (BitVec.ofNat 512 (scratchRead s g.team a.toNat 64))

/-- The checks of a descriptor's 64-byte load from memory (R67, R68). -/
def descFault (s : State) (gid : Nat) (a : Word) : Option CauseCode :=
  let lid := lidOf s gid
  let l := launchAt s lid
  match rangeCheck l a 64 8 true false with
  | some c => some c
  | none =>
    let here := (List.range 8).all fun i => hitsL1 s (grpAt s gid).core l.asid (a.toNat + 8 * i) 8
    if here then none
    else (elasticPages l a.toNat 64).findSome? fun p => residentCause (residency s lid l.asid (p * 65536))

/-- The descriptor's parts of 8 bytes, each with its address. -/
def descParts (lane a : Nat) : List (Nat × Nat) := (List.range 8).map fun i => (lane, a + 8 * i)

/-- Bytes of a descriptor as parts of it arrive. -/
def descBytes (base : Nat) (as : List LaneAcc) : BitVec 512 :=
  as.foldl (fun d a => d ||| BitVec.ofNat 512 (a.data.toNat <<< (8 * (a.va - base)))) 0

/-- SQCFG begins its 64-byte load: what the L1 gives it takes, and for the rest it sends requests, as an LD would; until
the load is complete the group issues nothing (R114). -/
def beginDesc (s : State) (i : Issue) (lane : Nat) (a : Nat) : State :=
  let lid := lidOf s i.gid
  let core := (grpAt s i.gid).core
  let bad := !(poisonHit s core (asidOf s i.gid) (descParts lane a)).isEmpty
  let (s, accs) := loadLanes ⟨lid, core, i.pc, false, false⟩ i.gid .n64 (pinLoads s lid 64 [(lane, a)]) (descParts lane a)
  let (done, todo) := accs.partition fun x => x.req.isNone
  modGrp s i.gid fun g =>
    let o : Op :=
      { id := g.nextOp, pc := i.pc, setf := none, due := s.cycle + l1Latency, fixed := false, lanes := bitMask 64 lane
        left := bitMask 64 lane, writes := [], fflags := 0, setsFlags := false, kind := .descr a (descBytes a done) bad todo
        holds := .none }
    { g with ops := g.ops ++ [o], nextOp := g.nextOp + 1 }

/-- What SQCFG has of its descriptor. -/
inductive DescRead where
  | waits
  | begins (s : State)
  | fails (c : Cause) (s : State)
  | has (d : BitVec 512) (s : State)

/-- SQCFG reads its descriptor: from scratchpad at once, from memory by a load that it begins and then waits for. -/
def readDesc (s : State) (i : Issue) (sp : Bool) (lane : Nat) (a : Word) : DescRead :=
  let g := grpAt s i.gid
  let cause := fun (c : CauseCode) => ({ code := c, addr := a, lane := lane } : Cause)
  if sp then
    match readDescSp s i.gid lane a with
    | .error c => .fails c s
    | .ok d => if scratchBlocked s i.gid 64 false [(lane, a.toNat)] then .waits else .has d s
  else
    match g.descr with
    | some o =>
      match o.kind with
      | .descr _ got bad [] =>
        let t := putGrp s i.gid { g with ops := g.ops.filter (·.id ≠ o.id) }
        if s.cycle < o.due then .waits
        else if bad then .fails (cause .uncorr) t
        else .has got t
      | _ => .waits
    | none =>
      match descFault s i.gid a with
      | some c => .fails (cause c) s
      | none =>
        if ownHeld g (descParts lane a.toNat) 8 || freeEntries s g.core < 2 then .waits
        else .begins (beginDesc s i lane a.toNat)

/-- A STREAM cause. -/
def streamFault (sub qn : Nat) : Cause := { code := .stream, sub := sub, qn := qn }

/-- SQCFG's checks after the descriptor is read, in order (R114). -/
def bindFault (s : State) (gid qn : Nat) (d : BitVec 512) (b lane : Nat) : Option Cause :=
  let g := grpAt s gid
  let q := g.queue qn
  if q.bound && !(q.st = .done && q.filled = 0) then some (streamFault 4 qn)
  else if descMalformed d qn || bindMalformed b || bindQsel b ≠ 0 || badSourceQueue g d qn then
    some (streamFault 6 qn)
  else if !scratchHas (launchOf s gid) (bindQbase b) (bufferBytes b g.width) then
    some { code := .scratch, addr := BitVec.ofNat 64 (bindQbase b), lane := lane }
  else if g.queues.any fun e => e.1 ≠ qn && e.2.bound &&
      spansMeet (bindQbase b) (bufferBytes b g.width) e.2.qbase (e.2.depth * g.width * 8) then
    some (streamFault 7 qn)
  else if (freeContext s g.core).isNone then some (streamFault 5 qn)
  else none

/-- An item of class 0x280. -/
def sqItem (h : Hdr) (srcs dsts : List Opnd) (qn : Option Nat) : Item :=
  { hdr := h, cls := .mem, srcs := srcs, dsts := dsts, dstVs := true, noStream := true, txBad := true
    specHold := true, access := true, queue := qn }

/-- SQCFG (R114). -/
def execSqcfg (h : Hdr) (qn : Fin 16) (sp : Bool) (a b : Opnd) (s : State) : Out :=
  runItem (sqItem h [a, b] [] (some qn.val)) (fun i ex s =>
    let lane := (lanesOf (grpAt s i.gid).width ex).headD 0
    match readDesc s i sp lane (scalarOf s i.gid ex a) with
    | .waits => .wait
    | .begins s => .begun s
    | .fails c s => .laneFault c s
    | .has d s =>
      let w := (scalarOf s i.gid ex b).toNat
      match bindFault s i.gid qn.val d w lane, freeContext s (grpAt s i.gid).core with
      | some c, _ => .laneFault c s
      | none, some ctx => .done {} (modGrp s i.gid fun g => g.modQueue qn.val fun _ => newQueue d w ctx)
      | none, none => .laneFault (streamFault 5 qn.val) s) s

/-- SQGO (R115). -/
def execSqgo (h : Hdr) (qn : Fin 16) (s : State) : Out :=
  runItem (sqItem h [] [] (some qn.val)) (fun i _ s =>
    let q := (grpAt s i.gid).queue qn.val
    if !q.bound then .fault (streamFault 1 qn.val)
    else .done {} (modGrp s i.gid fun g => g.modQueue qn.val fun q =>
      if q.st ≠ .held then q
      else if q.total = 0 then { q with st := .done, ctx := none }
      else { q with st := .running })) s

/-- A queue enters STOPPING (R116): a load queue drops what it has not requested; with DISC an outbound
queue drops what the engine has not taken. -/
def stopQueue (q : Queue) (op : Nat) (disc : Bool) : Queue :=
  let drop := fun (e : QEntry) => { e with todo := 0, itodo := 0 }
  { q with
    st := .stopping, stopOp := some op, disc := disc
    entries := if q.isLoad || q.kind = 4 then q.entries.map drop else q.entries
    filled := if q.isOut && disc then q.outs.length else q.filled }

/-- SQSTOP (R116). -/
def execSqstop (h : Hdr) (qn : Fin 16) (disc : Bool) (s : State) : Out :=
  runItem (sqItem h [] [] (some qn.val)) (fun i _ s =>
    let g := grpAt s i.gid
    let q := g.queue qn.val
    if !q.bound then .done {} s
    else
      match (if q.st = .faulted && !q.isLoad then q.fault else none) with
      | some c => .fault c
      | none =>
        .done { kind := .sqstop qn.val }
          (modGrp s i.gid fun g => g.modQueue qn.val fun q => stopQueue q g.nextOp disc)) s

/-- SQSTAT's code of a state (R98). -/
def QState.num : QState → Nat
  | .unbound => 0 | .held => 1 | .running => 2 | .done => 3 | .faulted => 4 | .stopping => 5

/-- SQSTAT's word (R117). -/
def sqstatWord (q : Queue) : Word :=
  BitVec.ofNat 64 (q.filled % 512 + q.free % 512 * 2 ^ 9 + q.st.num * 2 ^ 18 + q.oob.toNat * 2 ^ 21
    + q.pos % 2 ^ 32 * 2 ^ 32)

/-- SQSTAT (R117). -/
def execSqstat (h : Hdr) (qn : Fin 16) (clr : Bool) (d : Opnd) (s : State) : Out :=
  runItem { sqItem h [] [d] (some qn.val) with lat := some 4 } (fun i ex s =>
    let g := grpAt s i.gid
    let w := sqstatWord (g.queue qn.val)
    let s := if clr then
        modGrp s i.gid fun g => if (g.queue qn.val).oob then g.modQueue qn.val fun q => { q with oob := false } else g
      else s
    .done { writes := destWrites d ((lanesOf g.width ex).map fun l => (l, w)) } s) s

/-! ## Copies (R118 to R123) -/

/-- Whether every byte of `[va, va + n)` lies in ranges, and in ranges with a right. -/
def coverFrom (l : Launch) (ok : Range → Bool) : Nat → Nat → Nat → Bool
  | 0, _, n => n = 0
  | fuel + 1, va, n =>
    n = 0 ||
    match rangeOf l va with
    | some r => ok r && coverFrom l ok fuel r.stop (va + n - r.stop)
    | none => false

/-- R67 steps 1, 3 and 4 for an address range. -/
def spanCheck (l : Launch) (a : Word) (n : Nat) (wr : Bool) : Option CauseCode :=
  let va := a.toNat
  let fuel := l.ranges.length + 1
  if 2 ^ 52 ≤ va then some .prot
  else if !coverFrom l (fun _ => true) fuel va n then some .lease
  else if !coverFrom l (fun r => if wr then r.wr else r.rd) fuel va n then some .prot
  else none

/-- One lane's copy: source, destination, length. -/
abbrev CopyArgs := Nat × Word × Word × Word

/-- CPY's checks of a lane, in order (R118). -/
def copyFail (l : Launch) (ssp dsp : Bool) (c : CopyArgs) : Option Fail :=
  let (lane, src, dst, len) := c
  let n := len.toNat
  if 2 ^ 24 < n then some (lane, 0, streamFault 8 0)
  else
    let srcBad := if ssp then none else spanCheck l src n false
    let dstBad := if dsp then none else spanCheck l dst n true
    match srcBad, dstBad with
    | some e, _ => some (laneFail lane 1 e src false)
    | none, some e => some (laneFail lane 2 e dst true)
    | none, none =>
      if ssp && !scratchHas l src.toNat n then some (laneFail lane 3 .scratch src false)
      else if dsp && !scratchHas l dst.toNat n then some (laneFail lane 3 .scratch dst true)
      else none

/-- CPY (R118). -/
def execCpy (h : Hdr) (ssp dsp : Bool) (hint : CpyHint) (a b c : Opnd) (s : State) : Out :=
  runItem { sqItem h [a, b, c] [] none with writesMem := true } (fun i ex s =>
    let g := grpAt s i.gid
    let args : List CopyArgs := (lanesOf g.width ex).map fun l =>
      (l, readOpnd s i.gid l a, readOpnd s i.gid l b, readOpnd s i.gid l c)
    match lowestFail (args.filterMap (copyFail (launchOf s i.gid) ssp dsp)) with
    | some c => .fault c
    | none =>
      let real := args.filter fun x => x.2.2.2 ≠ 0
      if Config.copySlots < (coreAt s g.core).copies.length + real.length then .wait
      else
        .done {} (real.foldl (fun s x =>
          let (id, s) := freshId s
          let y : Copy :=
            { id := id, gid := i.gid, lane := x.1, batch := (g.thread x.1).batch, src := x.2.1.toNat
              dst := x.2.2.1.toNat, len := x.2.2.2.toNat, ssp := ssp, dsp := dsp, hint := hint, done := 0
              req := none, chunk := 0, pubs := [], held := none, stopped := none, unit := 0, spage := none, dpage := none }
          modCore s g.core fun c => { c with copies := c.copies ++ [y] }) s)) s

/-- The copies of a lane's batch that are incomplete. -/
def batchCopies (s : State) (gid l : Nat) (b : BitVec 4) : List Copy :=
  (coreAt s (grpAt s gid).core).copies.filter fun c => c.gid = gid && c.lane = l && c.batch = b

/-- The fault of a stopped copy among those that an item covers, lowest lane first (R123). -/
def stoppedFault (cs : List Copy) : Option Cause :=
  (minBy (fun (c : Copy) => c.lane) (cs.filter (·.stopped.isSome))).bind (·.stopped)

/-- CSEAL (R120). -/
def execCseal (h : Hdr) (d : Opnd) (s : State) : Out :=
  runItem (sqItem h [] [d] none) (fun i ex s =>
    let g := grpAt s i.gid
    let ls := lanesOf g.width ex
    let next := ls.flatMap fun l => batchCopies s i.gid l ((g.thread l).batch + 1)
    if next.any (·.stopped.isNone) then .wait
    else
      match stoppedFault next with
      | some c => .fault c
      | none =>
        .done { writes := destWrites d (ls.map fun l => (l, (g.thread l).batch.setWidth 64)) }
          (modGrp s i.gid fun g => g.modLanes ex fun _ t => { t with batch := t.batch + 1 })) s

/-- The batch that CWAIT and CPOLL name in a lane (R121). -/
def batchOf (t : Thread) (n : Nat) (rel : Bool) : BitVec 4 :=
  if rel then t.batch - 1 - BitVec.ofNat 4 n else BitVec.ofNat 4 n

/-- CWAIT (R121, R123). -/
def execCwait (h : Hdr) (n : Fin 16) (rel : Bool) (s : State) : Out :=
  runItem (sqItem h [] [] none) (fun i ex s =>
    let g := grpAt s i.gid
    let cs := (lanesOf g.width ex).flatMap fun l => batchCopies s i.gid l (batchOf (g.thread l) n.val rel)
    match stoppedFault cs with
    | some c => .fault c
    | none => .done { kind := .batch (cs.map (·.id)) } s) s

/-- CPOLL (R122). -/
def execCpoll (h : Hdr) (n : Fin 16) (rel : Bool) (d : Opnd) (s : State) : Out :=
  runItem { sqItem h [] [d] none with lat := some 4 } (fun i ex s =>
    let g := grpAt s i.gid
    let vals := (lanesOf g.width ex).map fun l =>
      let cs := batchCopies s i.gid l (batchOf (g.thread l) n.val rel)
      (l, (if cs.isEmpty then 1 else if cs.any (·.stopped.isSome) then 2 else 0 : Word))
    .done { writes := destWrites d vals } s) s

end Sys2Proof.Machine
end

