-- ==== Sys2Proof/Machine/Update.lean ====
section
/-! DEFINITION. Update.lean: the memory-side updates and back-off, class 0x240 (R152 to R159). -/

namespace Sys2Proof.Machine

/-! ## What an update does to its bytes -/

/-- An old value as the instruction returns it: .I32 sign-extended, else zero-extended (R154). -/
def oldValue (ty : Ty) (w : Nat) : Word :=
  if ty = .i32 then sextW 32 (BitVec.ofNat 64 w) else BitVec.ofNat 64 w

/-- The bytes that CAS writes, if the comparison succeeds (R154). -/
def casApply (ty : Ty) (w : Nat) (expect new : Word) : Option Nat :=
  let b := 8 * bytesOf ty
  if w = expect.toNat % 2 ^ b then some (new.toNat % 2 ^ b) else none

/-- A number of `b` bits as a signed integer. -/
def asSigned (b x : Nat) : Int := if x < 2 ^ (b - 1) then x else (x : Int) - (2 ^ b : Nat)

/-- RED's operation (R155). -/
def redApply (op : COp) (ty : Ty) (w x : Nat) : Nat :=
  let b := 8 * bytesOf ty
  let x := x % 2 ^ b
  let less := fun (p q : Nat) =>
    if ty.signed then decide (asSigned b p < asSigned b q) else decide (p < q)
  match op with
  | .add => (w + x) % 2 ^ b
  | .min => if less x w then x else w
  | .max => if less w x then x else w
  | .and => w &&& x
  | .or => w ||| x
  | .xor => w ^^^ x

/-- Bytes of an exact cell: 63 or 383 of value, then the status byte (R82, R200). -/
def cellBytes (ty : Ty) : Nat := if ty = .f32 then 64 else 384
def cellFmt (ty : Ty) : ExactFmt := if ty = .f32 then exactF32 else exactF64
/-- The alignment of a cell (R82). -/
def cellAlign (ty : Ty) : Nat := if ty = .f32 then 64 else 128

/-- XRED of one value into a cell's bytes (R156). -/
def cellAdd (cell src : Ty) (c : Nat) (x : Word) : Nat :=
  let f := cellFmt cell
  let v := c % 2 ^ f.vbits
  let st := bits c f.vbits 8
  let ty := if src = .none then cell else src
  let t := (⟨0, 0, 0⟩ : Terms).push f ((fmtOf ty).value (x.toNat % 2 ^ ty.w)) none
  let (v, st) := if t.st = 0 then f.add v st t.sum else (v, st ||| t.st)
  v + (st % 16) * 2 ^ f.vbits

/-- XFIN's rounding of a cell (R157). -/
def cellRound (ty : Ty) (m : Rnd) (c : Nat) : Nat × FF :=
  let f := cellFmt ty
  f.roundTo (fmtOf ty) m (c % 2 ^ f.vbits) (bits c f.vbits 8)

/-! ## Items in flight -/

/-- An operation of an item has been applied: it leaves, with its result and flags (R152 step 7). -/
def finishItem (s : State) (id : Nat) (p : Pub) (lane : Nat) (res : Option Word) (ff : FF) : State :=
  let s := { s with pubs := mapErase s.pubs id }
  match p.sender with
  | .item gid op _ => modGrpIf s gid fun g => modOp g op fun o =>
      match o.kind with
      | .applied d ids =>
        let lowest := (lanesOf 64 o.lanes).headD 0
        let ws := match res with
          | some x => resultWrite d lowest lane x
          | none => []
        { o with kind := .applied d (ids.filter (· ≠ id)), writes := o.writes ++ ws
                 fflags := o.fflags ||| ff }
      | _ => o
  | _ => s

/-- A successful CAS resets its lane's back-off exponent (R154). -/
def clearBackoff (s : State) (gid lane : Nat) : State :=
  modGrpIf s gid fun g => g.modThread lane fun t => { t with bexp := 0 }

/-- The result of an SP form at the bank: the lane, the value returned, the flags. -/
def spApply (s : State) (gid : Nat) (a : Nat) (k : SliceKind) : State × Option (Nat × Word × FF) :=
  let team := (grpAt s gid).team
  match k with
  | .cas ty e n lane =>
    let w := scratchRead s team a (bytesOf ty)
    match casApply ty w e n with
    | some x =>
      (clearBackoff (scratchWrite s team a (bytesOf ty) x) gid lane,
        some (lane, oldValue ty w, 0))
    | none => (s, some (lane, oldValue ty w, 0))
  | .red op ty v lane =>
    let w := scratchRead s team a (bytesOf ty)
    (scratchWrite s team a (bytesOf ty) (redApply op ty w v.toNat), some (lane, oldValue ty w, 0))
  | .xred cell src vs =>
    let c := scratchRead s team a (cellBytes cell)
    (scratchWrite s team a (cellBytes cell) (vs.foldl (cellAdd cell src) c), none)
  | .xfin ty rnd lane =>
    let r := cellRound ty rnd (scratchRead s team a (cellBytes ty))
    (s, some (lane, BitVec.ofNat 64 r.1, r.2))
  | _ => (s, none)

/-- The bytes an update reaches. -/
def updateBytes : SliceKind → Nat
  | .cas ty .. => bytesOf ty
  | .red _ ty .. => bytesOf ty
  | .xred cell .. => cellBytes cell
  | .xfin ty .. => cellBytes ty
  | _ => 0

/-- Core cycles that the operation of an SP form holds the banks (R152 step 5). -/
def bankCycles : SliceKind → Nat
  | .xred cell .. => if cell = .f32 then 2 else 12
  | .xfin ty .. => if ty = .f32 then 2 else 12
  | _ => 1

/-- The SP forms of an item, in ascending lane order (R152 step 5): the writes and flags they return. -/
def spApplyAll (gid : Nat) (d : Opnd) (lowest : Nat) :
    State → List (Nat × Nat × SliceKind) → State × List RegWrite × FF
  | s, [] => (s, [], 0)
  | s, (_, a, k) :: ks =>
    let (s, r) := spApply s gid a k
    let (s, ws, ff) := spApplyAll gid d lowest s ks
    match r with
    | some (l, x, f) => (s, resultWrite d lowest l x ++ ws, f ||| ff)
    | none => (s, ws, ff)

/-- Adds a lane's values to the operation of another lane of its XRED. -/
def joinCell (lane : Nat) (vs : List Word) (e : Nat × Nat × SliceKind) : Nat × Nat × SliceKind :=
  match e with
  | (l, a, .xred c r us) => if l = lane then (l, a, .xred c r (us ++ vs)) else e
  | e => e

/-- Joins lanes of one XRED that name the same cell, where the core joins them: for each further lane it is open whether it
joins one of the operations on its cell, and which (R156). -/
def joinCells : State → List (Nat × Nat × SliceKind) → List (Nat × Nat × SliceKind) →
    State × List (Nat × Nat × SliceKind)
  | s, acc, [] => (s, acc)
  | s, acc, (l, a, .xred c r vs) :: ks =>
    let same := (acc.filter fun e => e.2.1 = a).map (·.1)
    if same.isEmpty then joinCells s (acc ++ [(l, a, .xred c r vs)]) ks
    else
      let (x, s) := freeChoice s (same.length + 1)
      if x = 0 then joinCells s (acc ++ [(l, a, .xred c r vs)]) ks
      else joinCells s (acc.map (joinCell (same.getD (x - 1) 0) vs)) ks
  | s, acc, k :: ks => joinCells s (acc ++ [k]) ks

/-- What an update instruction is. -/
structure UpdateHow where
  sp : Bool
  acq : Bool
  rel : Option Scope
  n : Nat
  al : Nat
  /-- Reads only (XFIN). -/
  rd : Bool
  d : Opnd
deriving Repr, Inhabited

/-- What an update contributes to the assay signature: each lane's operand of RED or XRED in memory; a CAS, of
scratchpad too, makes the launch ineligible (R397, R398). -/
def signUpdate (sp : Bool) (lid team : Nat) (s : State) (e : Nat × Nat × SliceKind) : State :=
  match e.2.2 with
  | .red _ ty x _ => if sp then s else sign s team e.2.1 (zextW ty.w x) 2
  | .xred _ src vs => if sp then s else vs.foldl (fun s x => sign s team e.2.1 (zextW src.w x) 2) s
  | .cas .. => modLaunch s lid fun l => { l with cas := true }
  | _ => s

/-- The sectors that an operation of `n` bytes touches. -/
def sectorsAt (a n : Nat) : List Nat := (List.range ((a + n - 1) / 32 - a / 32 + 1)).map (a / 32 + ·)

/-- Whether an earlier update of a lane, held behind its release, touches a sector of a later one: the two are applied in
program order (R277). -/
def heldUpdate (s : State) (gid n : Nat) (sp : Bool) (as : List (Nat × Nat)) : Bool :=
  s.pubs.any fun e =>
    let p := e.2
    let held : Bool := p.stage = PubStage.held
    held && p.sp = sp &&
    match p.sender with
    | .item g _ l => g = gid && as.any fun a => a.1 = l &&
        (sectorsAt p.va (updateBytes p.kind)).any fun x => (sectorsAt a.2 n).contains x
    | _ => false

/-- An update's operations as they leave: held behind a release (a .REL form), or sent at once after the
dirty bytes they touch (R152 steps 3 and 6). -/
def issueUpdates (s : State) (i : Issue) (ex : Mask) (u : UpdateHow) (ks : List (Nat × Nat × SliceKind)) :
    State × List Nat :=
  let g := grpAt s i.gid
  let lid := lidOf s i.gid
  let l := launchAt s lid
  let (s, ids) := ks.foldl (fun acc e =>
    let (s, id) := addPub acc.1
      { core := g.core, part := l.part, lid := lid, asid := l.asid, va := e.2.1, kind := e.2.2
        sender := .item i.gid g.nextOp e.1, stage := .held, sp := u.sp, seq := 0, first := false }
    (s, acc.2 ++ [id])) (s, ([] : List Nat))
  match u.rel with
  | some sc => ((beginRelease s g.core i.gid ex (publishesAt l sc) none (.updates ids) ids).1, ids)
  | none => (ids.foldl sendUpdate s, ids)

/-- The body of an update. -/
def updateBody (it : Item) (u : UpdateHow) (addr : Opnd) (kind : State → Nat → Nat → SliceKind)
    (i : Issue) (ex : Mask) (s : State) : Body :=
  let g := grpAt s i.gid
  let lid := lidOf s i.gid
  let l := launchAt s lid
  let ls := lanesOf g.width ex
  let as := ls.map fun l => (l, readOpnd s i.gid l addr)
  let ks := ls.map fun l => (l, (readOpnd s i.gid l addr).toNat, kind s i.gid l)
  let go := fun (ex : Mask) (s : State) =>
    let s := consumeAll s i.gid it
    let (s, ks) := joinCells s [] (ks.filter fun e => hasBit ex e.1)
    let ats := ks.map fun e => (e.1, e.2.1)
    let sectors := ats.map fun e => (e.1, e.2 / 32 * 32)
    if heldUpdate s i.gid u.n u.sp ats || (!u.sp && ownHeld g sectors (max 32 u.n)) then Body.wait
    else if u.sp && u.rel.isNone then
      if scratchBlocked s i.gid u.n (!u.rd) ats then .wait
      else
        let s := ks.foldl (signUpdate true lid g.team) s
        let (s, ws, ff) := spApplyAll i.gid u.d ((lanesOf 64 ex).headD 0) s ks
        let each := ((ks.map fun k => bankCycles k.2.2).headD 0)
        let r := bankAccess s i.gid (fun as => each * as.length) ats
        .done { writes := ws, fflags := ff, least := r.2, holds := if u.acq then .all else .none } r.1
    else
      let s := ks.foldl (signUpdate u.sp lid g.team) s
      let (s, ids) := issueUpdates s i ex u ks
      let least := if u.sp then scratchLatency s i.gid ats else sliceLatency s lid g.core ats
      .done
        { kind := .applied u.d ids, least := least
          holds := if u.acq then .all else if u.sp then .scratch else .none } s
  if u.sp then
    let fs := scratchFails l u.n u.al (!u.rd) as
    checked i ex s (if fs.isEmpty && u.rel.isNone then scratchPoisoned s i.gid u.n as else fs) lowestFail go
  else
    let fs := storeFails l u.n u.al u.rd (!u.rd) as
    let ok := as.filter fun e => fs.all fun f => f.1 ≠ e.1
    if freeEntries s g.core < ls.length then .wait
    else probed i ex s (probePages s lid g.core u.n ok) (!u.rd) fs go

/-- An item of class 0x240. -/
def updItem (h : Hdr) (srcs dsts : List Opnd) (wr sp : Bool) : Item :=
  { memItem h srcs dsts with
    txBad := true, specHold := true, writesMem := wr, scratch := sp
    track := if dsts.any (· ≠ .zero) then .update else .none }

/-- CAS (R154). -/
def execCas (h : Hdr) (ty : Ty) (sp : Bool) (ord : CasOrd) (sc : Scope) (d a b c : Opnd)
    (s : State) : Out :=
  let it := updItem h [a, b, c] [d] true sp
  let u : UpdateHow :=
    { sp := sp, acq := ord = .acq || ord = .ar, rel := if ord = .rel || ord = .ar then some sc else none
      n := bytesOf ty, al := bytesOf ty, rd := false, d := d }
  runItem it (updateBody it u a fun s gid l => .cas ty (readOpnd s gid l b) (readOpnd s gid l c) l) s

/-- RED (R155). -/
def execRed (h : Hdr) (op : COp) (ty : Ty) (sp : Bool) (rel : Option Scope) (d a b : Opnd)
    (s : State) : Out :=
  let it := updItem h [a, b] [d] true sp
  let u : UpdateHow :=
    { sp := sp, acq := false, rel := rel, n := bytesOf ty, al := bytesOf ty, rd := false, d := d }
  runItem it (updateBody it u a fun s gid l => .red op ty (readOpnd s gid l b) l) s

/-- XRED (R156). -/
def execXred (h : Hdr) (cty sty : Ty) (sp : Bool) (a b : Opnd) (s : State) : Out :=
  let it := updItem h [a, b] [] true sp
  let u : UpdateHow :=
    { sp := sp, acq := false, rel := none, n := cellBytes cty, al := cellAlign cty, rd := false
      d := .zero }
  runItem it (updateBody it u a fun s gid l => .xred cty sty [readOpnd s gid l b]) s

/-- XFIN (R157). -/
def execXfin (h : Hdr) (ty : Ty) (rnd : Rnd) (sp : Bool) (acq : Option Scope) (d a : Opnd)
    (s : State) : Out :=
  let it := { updItem h [a] [d] false sp with setsFlags := true }
  let u : UpdateHow :=
    { sp := sp, acq := acq.isSome, rel := none, n := cellBytes ty, al := cellAlign ty, rd := true, d := d }
  runItem it (updateBody it u a fun s gid l => .xfin ty (modeOf (grpAt s gid) rnd) l) s

/-! ## Back-off (R158) -/

/-- A thread's back-off draw: 32 steps of its LFSR, then a park of 1 to 16 × 2^bexp cycles. -/
def backoff (cycle : Nat) (t : Thread) : Thread :=
  let x := lfsrSteps 32 t.lfsr
  { t with
    lfsr := x
    bexp := min (t.bexp + 1) 8
    wait := .park (cycle + 1 + x.toNat % (16 * 2 ^ t.bexp)) }

/-- BOFF (R158). -/
def execBoff (h : Hdr) (clr : Bool) (s : State) : Out :=
  runItem { hdr := h, cls := .mem, lat := some 1, txBad := true } (fun i ex s =>
    .done {} (modGrp s i.gid fun g => g.modLanes ex fun _ t =>
      if clr then { t with bexp := 0 } else backoff s.cycle t)) s

end Sys2Proof.Machine
end

