-- ==== Sys2Proof/Machine/Matrix.lean ====
section
/-! DEFINITION. Matrix.lean: the matrix unit, class 0x2C0, and its events (R243 to R272). -/

namespace Sys2Proof.Machine

/-- A MATRIX cause (R269). -/
def matrixFault (sub : Nat) : Cause := { code := .matrix, sub := sub }

/-! ## What a team owns on a quarter (R244, R266) -/

/-- The extra tiles that a team has reserved on a quarter. -/
def reservedTiles (s : State) (n team : Nat) : Nat :=
  match (quartAt s n).reserved with
  | some (t, k) => if t = team then k else 0
  | none => 0

/-- The physical tile of a team's tile: native ones follow its base, reserved ones are 16 and up. -/
def physTile (s : State) (n team tile : Nat) : Option Nat :=
  let native := (launchAt s (teamAt s team).lid).atiles
  if tile < native then some ((teamAt s team).tileBase n + tile)
  else if tile < native + reservedTiles s n team then some (16 + (tile - native))
  else none

/-- The physical tile or pair that an operation of a team names; `none` when it may not (R245). -/
def physTiles (s : State) (n team tile : Nat) (pair : Bool) : Option (List Nat) :=
  if !pair then (physTile s n team tile).map fun t => [t]
  else if tile % 2 = 1 then none
  else
    match physTile s n team tile, physTile s n team (tile + 1) with
    | some a, some b => some [a, b]
    | _, _ => none

/-- Cell (i, j) of a physical tile. -/
def cellAt (q : Quarter) (t i j : Nat) : BitVec 32 := mapGet 0 q.cells (4096 * t + 64 * i + j)
def setCell (q : Quarter) (t i j : Nat) (x : BitVec 32) : Quarter :=
  let k := 4096 * t + 64 * i + j
  { q with cells := mapSet 0 q.cells k x, cellPoison := q.cellPoison.filter (· ≠ k) }
/-- Zeroes a tile. -/
def zeroTile (q : Quarter) (t : Nat) : Quarter :=
  { q with cells := q.cells.filter fun e => e.1 / 4096 ≠ t
           cellPoison := q.cellPoison.filter fun k => k / 4096 ≠ t }
/-- Whether a word of row `i` of one of some tiles is poisoned (R390). -/
def rowBad (q : Quarter) (ts : List Nat) (i : Nat) : Bool :=
  q.cellPoison.any fun k => ts.contains (k / 4096) && k / 64 % 64 = i
/-- Whether a word of one of some tiles is poisoned. -/
def tileBad (q : Quarter) (ts : List Nat) : Bool := q.cellPoison.any fun k => ts.contains (k / 4096)

/-- An element of a tile or pair: 32 bits, or 64 of a pair (R245). -/
def elemAt (q : Quarter) (ts : List Nat) (i j : Nat) : Nat :=
  match ts with
  | [a, b] => (cellAt q a i j).toNat + (cellAt q b i j).toNat * 2 ^ 32
  | a :: _ => (cellAt q a i j).toNat
  | [] => 0
def setElem (q : Quarter) (ts : List Nat) (i j x : Nat) : Quarter :=
  match ts with
  | [a, b] => setCell (setCell q a i j (BitVec.ofNat 32 x)) b i j (BitVec.ofNat 32 (x / 2 ^ 32))
  | a :: _ => setCell q a i j (BitVec.ofNat 32 x)
  | [] => q

/-- Whether two operations name a common tile. -/
def tilesMeet (a b : List Nat) : Bool := a.any b.contains

/-- The operations in the queue (R243). -/
def Quarter.queued (q : Quarter) : List MatOp := q.ops.take Config.matrixQueue

/-- Whether it is an operation's turn: it is in the queue, and no earlier one there names a tile of it (R258). -/
def matTurn (q : Quarter) (id : Nat) : Bool :=
  match q.queued.find? fun o => o.id = id with
  | some o => (q.ops.takeWhile fun x => x.id ≠ id).all fun x => !tilesMeet x.tiles o.tiles
  | none => false

def modMatOp (q : Quarter) (id : Nat) (f : MatOp → MatOp) : Quarter :=
  let g := fun (o : MatOp) => if o.id = id then f o else o
  { q with ops := q.ops.map g, loads := q.loads.map g }
def dropMatOp (q : Quarter) (id : Nat) : Quarter :=
  { q with ops := q.ops.filter fun o => o.id ≠ id, loads := q.loads.filter fun o => o.id ≠ id }
def matOpAt (q : Quarter) (id : Nat) : Option MatOp := (q.ops ++ q.loads).find? fun o => o.id = id

/-! ## Convergence sets (R246 to R249) -/

def cvAt (q : Quarter) (n : Nat) : CvReg := mapGet default q.cvs n
def modCv (q : Quarter) (n : Nat) (f : CvReg → CvReg) : Quarter :=
  { q with cvs := mapPut q.cvs n (f (cvAt q n)) }

/-- The signers of a set in their numbering (R249 rule 4). -/
def signersOf (ms : List (Nat × Mask)) : List (Nat × Nat) :=
  ms.flatMap fun m => (lanesOf 64 m.2).map fun l => (m.1, l)

/-- The signature of a signer in the current round. -/
def signatureOf (c : CvReg) (x : Nat × Nat) : Option Signature :=
  c.signed.find? fun y => y.gid = x.1 && y.lane = x.2

/-- Whether a signer's thread has exited. -/
def signerGone (s : State) (x : Nat × Nat) : Bool :=
  !(((grpAt s x.1).thread x.2).status == .running)

/-- Whether every signer has signed the round or exited. -/
def allSigned (s : State) (c : CvReg) : Bool :=
  (signersOf c.members).all fun x => (signatureOf c x).isSome || signerGone s x

/-- The lead signer: the lowest-numbered whose thread has not exited without signing (R249 rule 6). -/
def leadOf (s : State) (c : CvReg) : Option (Nat × Nat) :=
  (signersOf c.members).find? fun x => (signatureOf c x).isSome || !signerGone s x

/-- A member of a declaration: its group index, whether it is valid, and its mask (R247). -/
def declMember (x i : Nat) : Nat × Bool × Nat :=
  (bits x (8 * i) 7, bits x (8 * i + 7) 1 = 1, bits x (64 + 64 * i) 64)

/-- The members that a declaration gives; `none` when it is malformed (R247). -/
def declMembers (s : State) (gid : Nat) (x : Nat) : Option (List (Nat × Mask)) :=
  let g := grpAt s gid
  let ms := (List.range 4).map (declMember x)
  let valid := ms.takeWhile (·.2.1)
  let rest := ms.dropWhile (·.2.1)
  let found := valid.filterMap fun m =>
    ((teamAt s g.team).groups.find? fun k =>
      let y := grpAt s k
      y.gidx = m.1 && y.resident && y.quart = g.quart).map fun k => (k, BitVec.ofNat 64 m.2.2)
  let size := (valid.map fun m => popMask (BitVec.ofNat 64 m.2.2)).foldl (· + ·) 0
  if bits x 32 32 ≠ 0 || valid.isEmpty || rest.any (fun m => m.2.1 || m.2.2 ≠ 0)
      || (dedup (valid.map (·.1))).length ≠ valid.length || found.length ≠ valid.length
      || valid.any (fun m => m.2.2 = 0 || 2 ^ g.width ≤ m.2.2)
      || !([1, 2, 4, 8, 16, 32, 64].contains size) then none
  else some found

/-- An item of class 0x2C0. -/
def matItem (h : Hdr) (srcs : List Opnd) : Item :=
  { hdr := h, cls := .other, srcs := srcs, noStream := true, txBad := true, specHold := true
    family := .matrix }

/-- Whether an MDECL of some group of the quarter is in flight on a convergence register (R248). -/
def mdeclPending (s : State) (n cv : Nat) : Bool :=
  s.groups.any fun e => e.2.quart = n && e.2.ops.any fun o =>
    match o.kind with
    | .mdecl c _ _ => c = cv
    | _ => false

/-- MDECL's offset checks: MISALIGN, then SCRATCH (R248); and a poisoned declaration (R391). -/
def declFault (s : State) (gid lane : Nat) (off : Word) : Option Cause :=
  if off.toNat % 8 ≠ 0 then some { code := .misalign, addr := off, lane := lane }
  else if !scratchHas (launchOf s gid) off.toNat 40 then
    some { code := .scratch, addr := off, lane := lane }
  else if scratchBad s (grpAt s gid).team off.toNat 40 then
    some { code := .uncorr, addr := off, lane := lane }
  else none

/-- Whether MDECL or MDECL.REL on a register raises CVSTATE (R246). -/
def declState (c : CvReg) (team : Nat) : Bool :=
  c.st = .signing || (c.st ≠ .free && c.team ≠ team)

/-- MDECL (R248): the image is read at issue, and the declaration takes effect at completion. -/
def execMdecl (h : Hdr) (cv : Fin 8) (a : Opnd) (s : State) : Out :=
  runItem { matItem h [a] with access := true, scratch := true, track := .load } (fun i ex s =>
    let g := grpAt s i.gid
    let off := scalarOf s i.gid ex a
    let lane := (lanesOf g.width ex).headD 0
    if mdeclPending s g.quart cv.val then .wait
    else
      match declFault s i.gid lane off with
      | some c => .fault c
      | none =>
        if scratchBlocked s i.gid 40 false [(lane, off.toNat)] then .wait
        else if declState (cvAt (quartAt s g.quart) cv.val) g.team then .fault (matrixFault 1)
        else
          match declMembers s i.gid (scratchRead s g.team off.toNat 40) with
          | none => .fault (matrixFault 5)
          | some ms =>
            let r := bankAccess s i.gid (bankLoad 40) [(lane, off.toNat)]
            .done { kind := .mdecl cv.val false ms, least := r.2 } r.1) s

/-- MDECL.REL (R248). -/
def execMdeclRel (h : Hdr) (cv : Fin 8) (s : State) : Out :=
  runItem (matItem h []) (fun i _ s =>
    let g := grpAt s i.gid
    if mdeclPending s g.quart cv.val then .wait
    else if declState (cvAt (quartAt s g.quart) cv.val) g.team then .fault (matrixFault 1)
    else .done { kind := .mdecl cv.val true [] } s) s

/-- A completed MDECL or MDECL.REL takes effect (R246, R248). -/
def finishMdecl (s : State) (gid cv : Nat) (rel : Bool) (ms : List (Nat × Mask)) : State :=
  let g := grpAt s gid
  modQuart s g.quart fun q =>
    if rel then { q with cvs := mapErase q.cvs cv }
    else modCv q cv fun _ =>
      { (default : CvReg) with st := .declared, team := g.team, members := ms }

/-! ## MMA (R249 to R255) -/

/-- rs, rw and sw of an MMA (R249 rule 4, R252). -/
def rowsPer (members : List (Nat × Mask)) : Nat := 64 / (signersOf members).length
def rowWords (ty : Ty) (kb : Nat) : Nat := 16 * kb * ty.w / 64
def scaleWords (kb : Nat) : Nat := (kb + 3) / 4

/-- Bytes of the staging store that a round reserves (R255 rule 2). -/
def stagingOf (ty : Ty) (kb : Nat) (bs : Bool) : Nat :=
  64 * 16 * kb * ty.w / 8 + (if bs then 128 * kb else 0)

/-- Bytes reserved by the rounds being signed and the operations in the queue. -/
def stagedNow (q : Quarter) : Nat :=
  ((q.cvs.filter fun e => e.2.st = .signing).map fun e => stagingOf e.2.ty e.2.kb e.2.bs).foldl (· + ·) 0 +
  (q.ops.map fun o =>
    match o.kind with
    | .mma ty kb bs .. => stagingOf ty kb bs
    | _ => 0).foldl (· + ·) 0

/-- Fields of the control word (R251). -/
def ctlTile (c : Word) : Nat := bits c.toNat 0 4
def ctlRow (c : Word) : Nat := bits c.toNat 8 10
def ctlSrow (c : Word) : Nat := bits c.toNat 20 10
def ctlZc (c : Word) : Bool := bits c.toNat 30 1 = 1

/-- The checks of a control word: CTRL, then TILE (R252). -/
def ctlFault (s : State) (n team : Nat) (ty : Ty) (kb : Nat) (bs : Bool) (c : Word) : Option Cause :=
  let brows := (launchAt s (teamAt s team).lid).brows
  if bits c.toNat 4 4 ≠ 0 || bits c.toNat 18 2 ≠ 0 || bits c.toNat 31 33 ≠ 0 || (!bs && ctlSrow c ≠ 0)
      || brows < ctlRow c + rowWords ty kb || (bs && brows < ctlSrow c + scaleWords kb)
      || (ty = .f64 && ctlTile c % 2 = 1) then some (matrixFault 6)
  else if (physTiles s n team (ctlTile c) (ty = .f64)).isNone then some (matrixFault 7)
  else none

/-- The register that a source names. -/
def regNo : Opnd → Nat
  | .v n => n.val
  | _ => 0

/-- A poisoned register among those that a signing lane reads (R391). -/
def signPoison (g : Group) (ls : List Nat) (a n b m : Nat) : Option Cause :=
  (ls.find? fun l => (g.thread l).poison.any fun r =>
    (a ≤ r && r < a + n) || (b ≤ r && r < b + m)).map fun l => { code := .uncorr, lane := l }

/-- A completed round enters the queue; or, void, it ends with no effect. The register of a team whose threads have all
exited is then FREE (R246, R249 rules 6 and 7, R271). -/
def enterRound (s : State) (n cv : Nat) : State :=
  let c := cvAt (quartAt s n) cv
  let alive := (teamAt s c.team).groups.any fun gid => (grpAt s gid).live ≠ 0
  let clear := fun (q : Quarter) =>
    if alive then modCv q cv fun c => { c with st := .declared, signed := [], complete := none, void := false }
    else { q with cvs := mapErase q.cvs cv }
  let lead := (leadOf s c).bind (signatureOf c)
  match lead with
  | none => modQuart s n clear
  | some y =>
    match physTiles s n c.team (ctlTile y.ctl) (c.ty = .f64) with
    | none => modQuart s n clear
    | some ts =>
      if c.void then modQuart s n clear
      else
        let s := modQuart s n fun q =>
          let o : MatOp :=
            { id := q.nextOp, team := c.team, gid := y.gid, op := y.op, tiles := ts
              kind := .mma c.ty c.kb c.bs y.ctl c.signed c.members [], running := false, start := 0
              prog := 0, off := 0, req := none, pubs := [], stopped := none, fflags := 0 }
          { clear q with ops := q.ops ++ [o], nextOp := q.nextOp + 1 }
        c.signed.foldl (fun s y => modGrpIf s y.gid fun g => modOp g y.op fun o =>
          { o with setsFlags := true }) s

/-- The signatures of one MMA: each lane's rows and scales, with its control word. -/
def signatures (s : State) (gid op : Nat) (ls : List Nat) (ty : Ty) (kb rs : Nat) (a : Opnd)
    (bs : Option Opnd) (c : Opnd) (checked : Nat × Nat → Bool) : List Signature :=
  let g := grpAt s gid
  ls.map fun l =>
    let t := g.thread l
    { gid := gid, lane := l, op := op, ctl := readOpnd s gid l c
      rows := (List.range (rs * rowWords ty kb)).map fun k => readV t (regNo a + k)
      scales := match bs with
        | some b => (List.range (rs * scaleWords kb)).map fun k => readV t (regNo b + k)
        | none => []
      checked := checked (gid, l) }

/-- The body of MMA: the executing lanes sign the round of the set (R249). One that completes it does not issue before the
check of a lead that has passed to an earlier signature, nor before rounds that exits have completed (R249 rules 6 and 7,
R255 rule 3). -/
def mmaBody (ty : Ty) (cv kb : Nat) (a : Opnd) (bs : Option Opnd) (c : Opnd)
    (i : Issue) (ex : Mask) (s : State) : Body :=
  let g := grpAt s i.gid
  let n := g.quart
  let q := quartAt s n
  let r := cvAt q cv
  let ls := lanesOf g.width ex
  let mine := ls.map fun l => (i.gid, l)
  let has := fun x => (signatureOf r x).isSome
  let rs := rowsPer r.members
  let words := rs * rowWords ty kb
  let scales := if bs.isSome then rs * scaleWords kb else 0
  let regs := (launchOf s i.gid).regs
  let vS := regNo (bs.getD .zero)
  if mdeclPending s n cv then .wait
  else if r.st = .free || r.team ≠ g.team then .fault (matrixFault 1)
  else if !(mine.all (signersOf r.members).contains) then .fault (matrixFault 2)
  else if mine.all has then .wait
  else if mine.any has then .fault (matrixFault 4)
  else if r.st = .signing && !(r.ty = ty && r.kb = kb && r.bs = bs.isSome) then .fault (matrixFault 3)
  else if regs < regNo a + words || (bs.isSome && regs < vS + scales) then .fault (matrixFault 8)
  else
    let lead := leadOf s r
    let leads := fun x => decide (lead = some x)
    let bad := (mine.find? leads).bind fun x => ctlFault s n g.team ty kb bs.isSome (readOpnd s i.gid x.2 c)
    match bad, signPoison g ls (regNo a) words vS scales with
    | some f, _ => .fault f
    | none, some f => .fault f
    | none, none =>
      let r' := { r with
        st := CvState.signing, ty := ty, kb := kb, bs := bs.isSome
        signed := r.signed ++ signatures s i.gid g.nextOp ls ty kb rs a bs c leads }
      let full := allSigned s r'
      let unchecked := ((leadOf s r').bind (signatureOf r')).any fun y => !y.checked
      let before := q.cvs.any fun e => e.1 ≠ cv && e.2.st = .signing && allSigned s e.2
      if (r.st = .declared && Config.stagingBytes < stagedNow q + stagingOf ty kb bs.isSome)
          || (full && (unchecked || before || decide (Config.matrixQueue ≤ q.ops.length))) then .wait
      else
        let s := modQuart s n fun q => modCv q cv fun _ => r'
        let s := if full then enterRound s n cv else s
        .done { kind := .signature cv, extra := (words + scales + 7) / 8 - 1, setsFlags := full } s

/-- MMA (R249, R251). -/
def execMma (h : Hdr) (ty : Ty) (cv : Fin 8) (kbm1 : Fin 16) (a : Opnd) (bs : Option Opnd) (c : Opnd)
    (s : State) : Out :=
  let it := { matItem h [a, bs.getD .zero, c] with
    badOpnd := !isV a || !(bs.all isV), noBanks := true }
  runItem it (mmaBody ty cv.val (kbm1.val + 1) a bs c) s

/-- A convergence register takes note of exited threads (R249 rules 6 and 7): a signer to whom the lead
has passed is checked, and a failed check voids the round and is kept for its group; a round that exits
have completed waits for queue space, and enters in the order of completion. -/
def cvNote (s : State) (n cv : Nat) : Option State :=
  let q := quartAt s n
  let c := cvAt q cv
  if c.st ≠ .signing then none
  else
    match (leadOf s c).bind (signatureOf c) with
    | none => none
    | some y =>
      if !y.checked then
        let s' := modQuart s n fun q => modCv q cv fun c =>
          { c with signed := c.signed.map fun z => if z = y then { z with checked := true } else z }
        match ctlFault s n c.team c.ty c.kb c.bs y.ctl with
        | none => some s'
        | some f =>
          let s' := modQuart s' n fun q => modCv q cv fun c => { c with void := true }
          some (modGrpIf s' y.gid fun g =>
            let d : Deferred :=
              { flag := (opOf g y.op).bind (·.setf), family := 1, qn := 0, op := y.op, cause := f }
            { g with deferred := g.deferred ++ [d] })
      else if !allSigned s c then none
      else
        match c.complete with
        | none =>
          let (k, s) := freshId s
          some (modQuart s n fun q => modCv q cv fun c => { c with complete := some k })
        | some k =>
          let first := q.cvs.all fun e =>
            match e.2.complete with
            | some j => decide (k ≤ j)
            | none => true
          if first && (c.void || decide (q.ops.length < Config.matrixQueue)) then some (enterRound s n cv)
          else none

/-- MATRIX_QUEUE_ENTER (R249). -/
def execMatrixQueueEnter (core q cv : Nat) (s : State) : Out :=
  .next ((cvNote s (quartNo core q) cv).getD s)

/-! ## The product (R252 to R254) -/

/-- Multiply-accumulates in one core cycle (R251). -/
def mmaRate (ty : Ty) : Nat :=
  match ty.w with
  | 4 => 8192
  | 8 => 4096
  | 16 => 2048
  | 32 => 256
  | _ => 64

/-- Core cycles that an MMA holds the array. -/
def mmaCycles (ty : Ty) (kb : Nat) : Nat := 4096 * 16 * kb / mmaRate ty

/-- The tile format that an MMA accumulates in. -/
def accFmt (ty : Ty) : Fmt := if ty = .f64 then .f64 else .f32

/-- Element `k` of a row or column of words. -/
def wordElem (w : Nat) (ws : Nat → Word) (k : Nat) : Nat := bits (ws (k * w / 64)).toNat (k * w % 64) w

/-- The scale byte of block `b` of a row or column. -/
def scaleByte (ws : Nat → Word) (b : Nat) : Nat := bits (ws (b / 8)).toNat (8 * (b % 8)) 8

/-- One row of A or column of B: its words and, block-scaled, its scale words. -/
structure Strip where
  data : Nat → Word
  scale : Nat → Word

/-- Element `k` of a strip as a value. -/
def Strip.value (x : Strip) (ty : Ty) (bs : Bool) (k : Nat) : FVal :=
  let v := (fmtOf ty).value (wordElem ty.w x.data k)
  if bs then scaled (scaleByte x.scale (k / 8)) v else v

/-- One block of one tile element: accumulator plus the exact sum of sixteen products, rounded once
(R253, R254); where the sum is a NaN, adding the accumulator to it is no ∞ − ∞. -/
def mmaBlock (ty : Ty) (bs : Bool) (a b : Strip) (blk acc : Nat) : Nat × FF :=
  let f := accFmt ty
  let ks := (List.range 16).map (16 * blk + ·)
  let c := f.value acc
  let terms := ks.map fun k => (a.value ty bs k, b.value ty bs k)
  let prods := terms.map fun t => if t.1.isNan || t.2.isNan then none else some (mulVal t.1 t.2)
  let nan := c.isNan || prods.any (·.isNone)
  let bad := prods.any fun p => p = some none
  let vals := prods.filterMap fun p => p.join
  let pos := vals.any fun v => v.isInf && !v.neg
  let neg := vals.any fun v => v.isInf && v.neg
  let clash := !nan && !bad && c.isInf && (if c.neg then pos else neg)
  let nv := ffIf (bad || (pos && neg) || clash) ffNV |||
    sigFlags (c :: terms.flatMap fun t => [t.1, t.2])
  if nan || bad || (pos && neg) || clash then (f.nanBits, nv)
  else
    let r := f.sum .rne [] (some (c :: vals))
    (r.1, r.2 ||| nv)

/-- One block of an integer element (R253). -/
def mmaBlockInt (ty : Ty) (a b : Strip) (blk acc : Nat) : Nat :=
  let z := fun (x : Strip) k =>
    let v := wordElem 8 x.data k
    if ty.signed then asSigned 8 v else (v : Int)
  let sum := ((List.range 16).map fun j => z a (16 * blk + j) * z b (16 * blk + j)).foldl (· + ·) (acc : Int)
  (sum % (2 ^ 32 : Nat)).toNat

/-- A tile element after the blocks `lo` to `hi - 1` of an MMA. -/
def mmaElem (ty : Ty) (lo hi : Nat) (bs zc : Bool) (a b : Strip) (c : Nat) : Nat × FF :=
  let blocks := (List.range (hi - lo)).map (lo + ·)
  let zero := zc && lo = 0
  if ty = .i8x8 || ty = .n8x8 then
    (blocks.foldl (fun acc blk => mmaBlockInt ty a b blk acc) (if zero then 0 else c), 0)
  else
    let f := accFmt ty
    blocks.foldl (fun acc blk =>
      let r := mmaBlock ty bs a b blk acc.1
      (r.1, acc.2 ||| r.2)) (if zero then f.signed true 0 else c, (0 : FF))

/-- The window words that an MMA reads: its data columns and its scale columns in every bank. -/
def mmaWindow (s : State) (n : Nat) (o : MatOp) : List Nat :=
  match o.kind with
  | .mma ty kb bs ctl .. =>
    let base := (teamAt s o.team).rowBase n
    let ws := (List.range (rowWords ty kb)).map (base + ctlRow ctl + ·) ++
      (if bs then (List.range (scaleWords kb)).map (base + ctlSrow ctl + ·) else [])
    (List.range 64).flatMap fun j => (dedup ws).map fun w => 1024 * j + w
  | _ => []

/-- Whether the core of an operation is being switched (R363). -/
def switchingFor (s : State) (o : MatOp) : Bool := (coreAt s (grpAt s o.gid).core).switching ≠ 0

/-- The first MMA of the queue that can start: the array is free and every earlier operation on its tile
has completed (R255 rule 4). -/
def nextMma (s : State) (q : Quarter) : Option MatOp :=
  let free := q.ops.all fun o =>
    match o.kind with
    | .mma ty kb .. => !o.running || decide (o.start + mmaCycles ty (kb - o.prog) ≤ s.cycle)
    | _ => true
  if !free then none
  else q.ops.find? fun o =>
    match o.kind with
    | .mma .. => !o.running && o.stopped.isNone && matTurn q o.id && !switchingFor s o
    | _ => false

/-- Stops an operation at its row, column or block, and keeps the fault for the issuing group; once that group's
last thread has exited, the launch ends (R263). -/
def stopMatrix (s : State) (n : Nat) (o : MatOp) (c : Cause) : State :=
  let c := { c with mx := true, idx := o.prog, op := o.id }
  let s := modQuart s n fun q => modMatOp q o.id fun o => { o with stopped := some c, off := 0, req := none }
  if (grpAt s o.gid).live = 0 then
    lateFault s (teamAt s o.team).lid c.code
  else
    modGrp s o.gid fun g =>
      let d : Deferred :=
        { flag := (opOf g o.op).bind (·.setf), family := 1, qn := 0, op := o.op, cause := c }
      { g with deferred := g.deferred ++ [d] }

/-- Whether an MMA would use a poisoned value: of its tile, unless it starts from zeros, of its window
words, or of its staged rows (R391). -/
def mmaPoisoned (s : State) (n : Nat) (q : Quarter) (o : MatOp) : Bool :=
  match o.kind with
  | .mma _ _ _ ctl signed _ _ =>
    (tileBad q o.tiles && !(ctlZc ctl && o.prog = 0)) || signed.any (·.poison) ||
    (!q.bPoison.isEmpty && (mmaWindow s n o).any q.bPoison.contains)
  | _ => false

/-- MMA_START (R255); one that would use a poisoned value stops (R391). -/
def mmaStart (s : State) (n : Nat) : Option State :=
  let q := quartAt s n
  (nextMma s q).map fun o =>
    if mmaPoisoned s n q o then stopMatrix s n o { code := .uncorr }
    else
    let old : NMap (List Word) := (mmaWindow s n o).map fun k => (k, [])
    modQuart s n fun q => modMatOp q o.id fun o =>
      let kind := match o.kind with
        | .mma ty kb bs ctl signed members _ => .mma ty kb bs ctl signed members old
        | k => k
      { o with running := true, start := s.cycle, kind := kind }

def execMmaStart (core q : Nat) (s : State) : Out := .next ((mmaStart s (quartNo core q)).getD s)

/-- A running MMA that reads window word `k` may still read it as it was before a write (R257). -/
def noteWindow (k : Nat) (x : Word) (o : MatOp) : MatOp :=
  match o.kind with
  | .mma ty kb bs ctl signed members old =>
    if o.running then { o with kind := .mma ty kb bs ctl signed members (mapMod old k fun vs => vs ++ [x]) } else o
  | _ => o

/-- The words that a running MMA reads: a word written since its start is read as it stood at some moment since, which is
open (R257). -/
def windowWords (s : State) (q : Quarter) : NMap (List Word) → State × NMap Word
  | [] => (s, [])
  | (k, old) :: ks =>
    let vs := mapGet 0 q.bplane k :: old
    let (x, s) := if old.isEmpty then (vs.headD 0, s)
      else
        let (c, s) := freeChoice s vs.length
        (vs.getD c 0, s)
    let (s, m) := windowWords s q ks
    (s, mapSet 0 m k x)

/-- The tile elements of one signature's rows: row, column, value, flags. -/
def mmaRows (q : Quarter) (ts : List Nat) (ty : Ty) (kb lo hi : Nat) (bs : Bool) (zc : Bool)
    (b : Nat → Strip) (row0 rs : Nat) (y : Signature) : List (Nat × Nat × Nat × FF) :=
  (List.range rs).flatMap fun r =>
    let a : Strip :=
      ⟨fun w => y.rows.getD (r * rowWords ty kb + w) 0, fun w => y.scales.getD (r * scaleWords kb + w) 0⟩
    (List.range 64).map fun j =>
      let e := mmaElem ty lo hi bs zc a (b j) (elemAt q ts (row0 + r) j)
      (row0 + r, j, e.1, e.2)

/-- Every element of an MMA after the blocks up to `hi`, from the words it reads. -/
def mmaResult (q : Quarter) (o : MatOp) (base hi : Nat) (words : NMap Word) : List (Nat × Nat × Nat × FF) :=
  match o.kind with
  | .mma ty kb bs ctl signed members _ =>
    let rs := rowsPer members
    let b : Nat → Strip := fun j =>
      ⟨fun w => mapGet 0 words (1024 * j + base + ctlRow ctl + w),
        fun w => mapGet 0 words (1024 * j + base + ctlSrow ctl + w)⟩
    ((signersOf members).zipIdx).flatMap fun e =>
      match signed.find? fun y => y.gid = e.1.1 && y.lane = e.1.2 with
      | some y => mmaRows q o.tiles ty kb o.prog hi bs (ctlZc ctl) b (e.2 * rs) rs y
      | none => []
  | _ => []

/-- MMA_COMPLETE: 24 core cycles after the last product the tile holds the result, and every member group
has the flags (R251, R254, R255 rule 5). -/
def mmaComplete (s : State) (n id : Nat) : Option State :=
  let q := quartAt s n
  match q.ops.find? fun o => o.id = id && o.running && o.off = 0 with
  | none => none
  | some o =>
    match o.kind with
    | .mma ty kb _ _ _ members old =>
      if s.cycle < o.start + mmaCycles ty (kb - o.prog) + 24 then none
      else
        let (s, words) := windowWords s q old
        let es := mmaResult q o ((teamAt s o.team).rowBase n) kb words
        let ff := ffAll (es.map fun e => e.2.2.2) ||| o.fflags
        let s := modQuart s n fun q =>
          dropMatOp (es.foldl (fun q e => setElem q o.tiles e.1 e.2.1 e.2.2.1) q) id
        some (members.foldl (fun s m => modGrpIf s m.1 fun g => { g with fflags := g.fflags ||| ff }) s)
    | _ => none

/-- At a context switch a running MMA is to stop at the end of its present K block: `off` holds the block (R270). -/
def mmaHalt (s : State) (o : MatOp) : MatOp :=
  match o.kind with
  | .mma ty kb .. =>
    let cyc := mmaCycles ty 1
    let stop := o.prog + (s.cycle - o.start + cyc - 1) / cyc
    if o.running && o.off = 0 && decide (stop < kb) then { o with off := max stop 1 } else o
  | _ => o

/-- An MMA that is to stop has reached its block: the tile holds the blocks done. -/
def mmaStop (s : State) (n : Nat) (o : MatOp) : Option State :=
  match o.kind with
  | .mma ty _ _ _ _ _ old =>
    if !o.running || o.off = 0 || s.cycle < o.start + mmaCycles ty (o.off - o.prog) then none
    else
      let q := quartAt s n
      let (s, words) := windowWords s q old
      let es := mmaResult q o ((teamAt s o.team).rowBase n) o.off words
      let ff := ffAll (es.map fun e => e.2.2.2)
      some (modQuart s n fun q =>
        modMatOp (es.foldl (fun q e => setElem q o.tiles e.1 e.2.1 e.2.2.1) q) o.id fun o =>
          { o with running := false, prog := o.off, off := 0, fflags := o.fflags ||| ff })
  | _ => none

def execMmaComplete (core q op : Nat) (s : State) : Out :=
  .next ((mmaComplete s (quartNo core q) op).getD s)

/-! ## Moving tiles and columns (R256, R259 to R263) -/

/-- How an operation walks over memory: SP or not, start, stride, the elements of a row or column, their
places, their size, whether it writes. -/
structure Sweep where
  sp : Bool
  a : Nat
  st : Nat
  count : Nat
  step : Nat
  size : Nat
  wr : Bool
deriving DecidableEq, Repr, Inhabited

/-- The bytes of an MSTA or MLDC element. -/
def tileBytes (ty : Ty) : Nat := ty.w / 8

def sweepOf : MatKind → Option Sweep
  | .mldb sp a st _ nw => some ⟨sp, a.toNat, st.toNat, nw, 8, 8, false⟩
  | .mldc ty sp a st => some ⟨sp, a.toNat, st.toNat, 64, tileBytes ty, tileBytes ty, false⟩
  | .msta ty _ .overwrite sp a st => some ⟨sp, a.toNat, st.toNat, 64, tileBytes ty, tileBytes ty, true⟩
  | .msta _ _ .add sp a st => some ⟨sp, a.toNat, st.toNat, 64, 4, 4, true⟩
  | .msta _ _ .xadd sp a st => some ⟨sp, a.toNat, st.toNat, 64, 64, 64, true⟩
  | _ => none

/-- The address of row or column `j`; all sums are mod 2^64. -/
def Sweep.row (w : Sweep) (j : Nat) : Nat := (w.a + j * w.st) % 2 ^ 64
/-- Bytes of a row or column. -/
def Sweep.bytes (w : Sweep) : Nat := w.count * w.step

/-- The first check of R67 that some element of a sweep fails, at the first that fails it (R256, R260, R261, R367). -/
def sweepFault (s : State) (gid lane : Nat) (w : Sweep) (al : Nat) : Option Cause :=
  let l := launchOf s gid
  let cause := fun (c : CauseCode) (a : Nat) =>
    ({ code := c, addr := BitVec.ofNat 64 a, lane := lane, wr := w.wr } : Cause)
  if w.a % al ≠ 0 || w.st % al ≠ 0 then some (cause .misalign w.a)
  else
    let bad := fun (a n : Nat) =>
      if w.sp then (if scratchHas l a n then none else some CauseCode.scratch)
      else spanCheck l (BitVec.ofNat 64 a) n w.wr
    let fails := (List.range 64).flatMap fun j =>
      if (bad (w.row j) w.bytes).isNone then []
      else (List.range w.count).filterMap fun e =>
        let a := (w.row j + e * w.step) % 2 ^ 64
        (bad a w.size).map fun c => (c, a)
    let check := fun (f : CauseCode × Nat) => if w.sp || 2 ^ 52 ≤ f.2 then 0 else if f.1 = .lease then 1 else 2
    ([0, 1, 2].findSome? fun k => fails.find? fun f => check f = k).map fun f => cause f.1 f.2

/-- Adds an operation to the queue. -/
def enqueue (s : State) (i : Issue) (tiles : List Nat) (kind : MatKind) : State × Nat :=
  let g := grpAt s i.gid
  let q := quartAt s g.quart
  let o : MatOp :=
    { id := q.nextOp, team := g.team, gid := i.gid, op := g.nextOp, tiles := tiles, kind := kind
      running := false, start := 0, prog := 0, off := 0, req := none, pubs := [], stopped := none
      fflags := 0 }
  (modQuart s g.quart fun q => { q with ops := q.ops ++ [o], nextOp := q.nextOp + 1 }, q.nextOp)

/-- Whether the queue of a group's quarter holds its eight operations (R255). -/
def queueFull (s : State) (gid : Nat) : Bool :=
  Config.matrixQueue ≤ (quartAt s (grpAt s gid).quart).ops.length

/-- MLDB (R256): its transfer is not in the queue, and MLDBs write each window word in issue order. -/
def execMldb (h : Hdr) (sp : Bool) (a b c : Opnd) (s : State) : Out :=
  let it := { matItem h [a, b, c] with access := true, writesMem := true }
  runItem it (fun i ex s =>
    let g := grpAt s i.gid
    let x := scalarOf s i.gid ex c
    let row := bits x.toNat 0 10
    let nw := bits x.toNat 10 11
    let kind : MatKind := .mldb sp (scalarOf s i.gid ex a) (scalarOf s i.gid ex b) row nw
    if bits x.toNat 21 43 ≠ 0 || nw = 0 || (launchOf s i.gid).brows < row + nw then .fault (matrixFault 6)
    else
      match (sweepOf kind).bind fun w => sweepFault s i.gid ((lanesOf g.width ex).headD 0) w 8 with
      | some f => .fault f
      | none =>
        let n := (quartAt s g.quart).nextOp
        let o : MatOp :=
          { id := n, team := g.team, gid := i.gid, op := g.nextOp, tiles := [], kind := kind
            running := false, start := 0, prog := 0, off := 0, req := none, pubs := [], stopped := none
            fflags := 0 }
        .done { kind := .matrix [n] }
          (modQuart s g.quart fun q => { q with loads := q.loads ++ [o], nextOp := n + 1 })) s

/-- MZERO (R259): one operation for each tile it names; those for which the queue has no entry free enter as it empties. -/
def execMzero (h : Hdr) (a : Opnd) (s : State) : Out :=
  runItem (matItem h [a]) (fun i ex s =>
    let g := grpAt s i.gid
    let m := (scalarOf s i.gid ex a).toNat
    let ts := (List.range 16).filter fun t => bits m t 1 = 1
    let phys := ts.filterMap (physTile s g.quart g.team)
    if 2 ^ 16 ≤ m || phys.length ≠ ts.length then .fault (matrixFault 7)
    else if !ts.isEmpty && queueFull s i.gid then .wait
    else
      let (s, ids) := phys.foldl (fun acc t =>
        let (s, id) := enqueue acc.1 i [t] .mzero
        (s, acc.2 ++ [id])) (s, ([] : List Nat))
      .done { kind := .matrix ids } s) s

/-- The body of MLDC and MSTA: the tile, then the addresses; then the operation enters the queue. -/
def tileBody (ty : Ty) (tile al : Nat) (kind : Word → Word → MatKind) (a b : Opnd)
    (i : Issue) (ex : Mask) (s : State) : Body :=
  let g := grpAt s i.gid
  let k := kind (scalarOf s i.gid ex a) (scalarOf s i.gid ex b)
  match physTiles s g.quart g.team tile (ty = .f64) with
  | none => .fault (matrixFault 7)
  | some ts =>
    match (sweepOf k).bind fun w => sweepFault s i.gid ((lanesOf g.width ex).headD 0) w al with
    | some f => .fault f
    | none =>
      if queueFull s i.gid then .wait
      else
        let (s, id) := enqueue s i ts k
        .done { kind := .matrix [id] } s

/-- MLDC (R260). -/
def execMldc (h : Hdr) (ty : Ty) (tile : Fin 16) (sp : Bool) (a b : Opnd) (s : State) : Out :=
  runItem { matItem h [a, b] with access := true }
    (tileBody ty tile.val (tileBytes ty) (fun x y => .mldc ty sp x y) a b) s

/-- The alignment of MSTA's address and stride (R261). -/
def mstaAlign (ty : Ty) : StaMode → Nat
  | .overwrite => tileBytes ty
  | .add => 4
  | .xadd => 64

/-- MSTA (R261). -/
def execMsta (h : Hdr) (ty : Ty) (rnd : Rnd) (mode : StaMode) (tile : Fin 16) (sp : Bool) (a b : Opnd)
    (s : State) : Out :=
  let m := modeOf (issuingGroup s) rnd
  runItem { matItem h [a, b] with access := true, writesMem := true, setsFlags := mode = .overwrite }
    (tileBody ty tile.val (mstaAlign ty mode) (fun x y => .msta ty m mode sp x y) a b) s

/-- An element as MLDC converts it: bits, or the exact widening (R260). -/
def loadedElem (ty : Ty) (x : Nat) : Nat :=
  match ty with
  | .bf16 | .f16 => (Fmt.f32.convert .inf .rne ((fmtOf ty).value x)).1
  | _ => x

/-- An element as an overwriting MSTA converts it (R261). -/
def storedElem (ty : Ty) (m : Rnd) (x : Nat) : Nat × FF :=
  match ty with
  | .bf16 | .f16 => (fmtOf ty).convert .inf m (Fmt.f32.value x)
  | _ => (x, 0)

/-- FADD.F32 RNE of a word of memory and a tile element (R261). -/
def tileAdd (m : Nat) (x : BitVec 32) : Nat :=
  let a := Fmt.f32.value m
  let b := Fmt.f32.value x.toNat
  (Fmt.f32.sum .rne [a, b] (some [a, b])).1

/-- Bytes of a row or column taken into the tile or the window: the element of each multiple of its
size from byte `off`. -/
def putBytes (q : Quarter) (base : Nat) (o : MatOp) (x off n : Nat) : Quarter :=
  match o.kind with
  | .mldb _ _ _ row _ =>
    (List.range (n / 8)).foldl (fun q k =>
      let w := 1024 * o.prog + base + row + off / 8 + k
      { q with ops := q.ops.map (noteWindow w (mapGet 0 q.bplane w))
               bplane := mapSet 0 q.bplane w (BitVec.ofNat 64 (bits x (64 * k) 64))
               bPoison := q.bPoison.filter (· ≠ w) }) q
  | .mldc ty _ _ _ =>
    let e := tileBytes ty
    (List.range (n / e)).foldl (fun q k =>
      setElem q o.tiles o.prog (off / e + k) (loadedElem ty (bits x (8 * e * k) (8 * e)))) q
  | _ => q

/-- Bytes of a row of an overwriting MSTA, and the flags of their conversions. -/
def rowBytes (q : Quarter) (o : MatOp) (off n : Nat) : Nat × FF :=
  match o.kind with
  | .msta ty m _ _ _ _ =>
    let e := tileBytes ty
    (List.range (n / e)).foldl (fun acc k =>
      let r := storedElem ty m (elemAt q o.tiles o.prog (off / e + k))
      (acc.1 + r.1 * 2 ^ (8 * e * k), acc.2 ||| r.2)) (0, (0 : FF))
  | _ => (0, 0)

/-- The FP32 elements of a row from byte `off`, for an add mode with elements `step` bytes apart. -/
def rowElems (q : Quarter) (o : MatOp) (step off n : Nat) : List (BitVec 32) :=
  (List.range (n / step)).map fun k => BitVec.ofNat 32 (elemAt q o.tiles o.prog (off / step + k))

/-- The elements of a row from byte `off` as they count in the assay signature, with their addresses: for an
add mode the FP32 element (R398). -/
def rowSigned (q : Quarter) (o : MatOp) (va n : Nat) : List (Nat × Word) :=
  match o.kind with
  | .msta ty _ mode _ _ _ =>
    let step := if mode = .xadd then 64 else if mode = .add then 4 else tileBytes ty
    if mode = .overwrite then
      let x := (rowBytes q o o.off n).1
      (List.range (n / step)).map fun k => (va + step * k, BitVec.ofNat 64 (bits x (8 * step * k) (8 * step)))
    else ((rowElems q o step o.off n).zipIdx).map fun e => (va + step * e.2, e.1.setWidth 64)
  | _ => []

/-- `k` elements of a row or column of an SP form, from byte `off` of it, at the team's scratchpad. -/
def spPart (s : State) (n : Nat) (o : MatOp) (w : Sweep) (k : Nat) : State :=
  let q := quartAt s n
  let a := w.row o.prog + o.off
  let bytes := w.step * k
  match o.kind with
  | .msta _ _ .overwrite _ _ _ =>
    let r := rowBytes q o o.off bytes
    let s := scratchWrite s o.team a bytes r.1
    modQuart s n fun q => modMatOp q o.id fun o => { o with fflags := o.fflags ||| r.2 }
  | .msta _ _ .add _ _ _ =>
    ((rowElems q o 4 o.off bytes).zipIdx).foldl (fun s e =>
      let b := a + 4 * e.2
      scratchWrite s o.team b 4 (tileAdd (scratchRead s o.team b 4) e.1)) s
  | .msta _ _ .xadd _ _ _ =>
    ((rowElems q o 64 o.off bytes).zipIdx).foldl (fun s e =>
      let b := a + 64 * e.2
      scratchWrite s o.team b 64 (cellAdd .f32 .none (scratchRead s o.team b 64) (e.1.setWidth 64))) s
  | _ =>
    let x := scratchRead s o.team a bytes
    modQuart s n fun q => putBytes q ((teamAt s o.team).rowBase n) o x o.off bytes

/-- An operation's progress after `k` more bytes of its row or column. -/
def MatOp.passed (o : MatOp) (w : Sweep) (k : Nat) : MatOp :=
  if w.bytes ≤ o.off + k then { o with prog := o.prog + 1, off := 0 } else { o with off := o.off + k }

/-- Whether the next row or column of an operation uses a poisoned value: of the tile that an MSTA stores, of
the scratchpad that an SP form reads (R391). -/
def rowPoisoned (s : State) (q : Quarter) (o : MatOp) (w : Sweep) : Bool :=
  let stores : Bool := match o.kind with
    | .msta .. => true
    | _ => false
  let overwrites : Bool := match o.kind with
    | .msta _ _ .overwrite .. => true
    | _ => false
  (stores && rowBad q o.tiles o.prog) || (w.sp && !overwrites && scratchBad s o.team (w.row o.prog) w.bytes)

/-- Whether an element of an SP form lies in a locked sector (R326). -/
def spBlocked (s : State) (o : MatOp) (w : Sweep) (k : Nat) : Bool :=
  scratchBlocked s o.gid (w.step * k) w.wr [(64, w.row o.prog + o.off)]

/-- One service of an SP form: the elements of its row or column that are read or written before any other access to the
scratchpad, of which the number is open, so that each word is read as it stands then (R256, R260, R261); or it stops at
a poisoned one. `none` while a lock holds it. -/
def spService (s : State) (n : Nat) (o : MatOp) (w : Sweep) : Option State :=
  if o.off = 0 && rowPoisoned s (quartAt s n) o w then
    some (stopMatrix s n o { code := .uncorr, addr := if w.sp && !w.wr then BitVec.ofNat 64 (w.row o.prog) else 0 })
  else
    let left := w.count - o.off / w.step
    let (c, s') := freeChoice s left
    let k := left - c
    if spBlocked s o w k then none
    else some (modQuart (spPart s' n o w k) n fun q => modMatOp q o.id fun o => o.passed w (w.step * k))

/-- Whether earlier transfers of the quarter write a window word that an MLDB writes (R256). -/
def loadTurn (q : Quarter) (o : MatOp) : Bool :=
  let span := fun (x : MatOp) =>
    match x.kind with
    | .mldb _ _ _ row nw => (row, nw)
    | _ => (0, 0)
  (q.loads.takeWhile fun x => x.id ≠ o.id).all fun x =>
    x.team ≠ o.team || !spansMeet (span x).1 (span x).2 (span o).1 (span o).2

/-- Whether an operation may work now: it is its turn, it is not stopped, and its core is not being switched,
but for one that has begun its row or column (R270). -/
def matReady (s : State) (q : Quarter) (o : MatOp) : Bool :=
  o.stopped.isNone && (!switchingFor s o || o.running || o.off ≠ 0) &&
  (if (q.loads.any fun x => x.id = o.id) then loadTurn q o else matTurn q o.id)

/-- The page of a row's bytes that is found not resident: the lowest address in it (R263). -/
def rowMissing (s : State) (lid asid a va n : Nat) : Option Nat :=
  (elasticPages (launchAt s lid) va n).findSome? fun p =>
    if residency s lid asid (p * 65536) = .no then some (max a (p * 65536)) else none

/-- Sends a write or update of a matrix operation: the dirty bytes of the core's L1 that it touches go
first (R261). -/
def sendMatrix (s : State) (n : Nat) (o : MatOp) (va : Nat) (k : SliceKind) : State :=
  let g := grpAt s o.gid
  let lid := (teamAt s o.team).lid
  let l := launchAt s lid
  let (s, id) := addPub s
    { core := g.core, part := l.part, lid := lid, asid := l.asid, va := va, kind := k
      sender := .matrix o.gid g.core (n % 4) o.id, stage := .held, sp := false, seq := 0, first := false }
  let s := modQuart s n fun q => modMatOp q o.id fun o => { o with pubs := o.pubs ++ [id] }
  sendUpdate s id

/-- One service of a memory transfer at the line port: the read of the next line, or the writes of the
next line, sector or cell; `none` when it has nothing to send now, and, before a row of an add mode or a stop, while rows
below are still to be applied (R256, R260 to R263). -/
def serveMatrix (s : State) (n id : Nat) : Option State :=
  let q := quartAt s n
  match matOpAt q id with
  | none => none
  | some o =>
    match sweepOf o.kind with
    | none => none
    | some w =>
      let g := grpAt s o.gid
      let lid := (teamAt s o.team).lid
      let l := launchAt s lid
      if w.sp || 64 ≤ o.prog || o.req.isSome || !matReady s q o || freeEntries s g.core = 0 then none
      else
        let a := w.row o.prog
        let va := a + o.off
        let whole : Bool := match o.kind with
          | .msta _ _ .add .. | .msta _ _ .xadd .. => o.off = 0
          | _ => false
        let unit := match o.kind with
          | .msta _ _ .add .. => 32
          | .msta _ _ .xadd .. => 64
          | _ => 128
        let k := min (w.bytes - o.off) (unit - va % unit)
        let (ca, cn) := if whole then (a, w.bytes) else (va, k)
        let stop := fun (c : Cause) => if allApplied s o.pubs then some (stopMatrix s n o c) else none
        if whole && !allApplied s o.pubs then none
        else if o.off = 0 && rowPoisoned s q o w then stop { code := .uncorr }
        else
        match rowMissing s lid l.asid a ca cn with
        | some x => stop { code := .elastic, addr := BitVec.ofNat 64 x, wr := w.wr }
        | none =>
          let s := (elasticPages l ca cn).foldl (fun s p => pinPage s lid p) s
          if !w.wr then
            let (s, r) := addRequest s
              { core := g.core, part := l.part, lid := lid, asid := l.asid, line := va / 128, lc := 0
                hintFirst := false, reader := .matrix g.core (n % 4) id, stage := .sent }
            some (modQuart s n fun q => modMatOp q id fun o => { o with req := some r })
          else
            let (kind, ff) : SliceKind × FF :=
              match o.kind with
              | .msta _ _ .add .. => (.tileAdd false (rowElems q o 4 o.off k), 0)
              | .msta _ _ .xadd .. => (.tileAdd true (rowElems q o 64 o.off k), 0)
              | _ =>
                let r := rowBytes q o o.off k
                (.write (BitVec.ofNat 1024 (r.1 <<< (8 * (va % 128)))) (byteRange (va % 128) k), r.2)
            let s := signAll s o.team 4 (rowSigned q o va k)
            let s := sendMatrix s n o va kind
            some (modQuart s n fun q => modMatOp q id fun o => { o.passed w k with fflags := o.fflags ||| ff })

/-- Whether the bytes that a matrix operation takes from a line lie in a poisoned sector (R391). -/
def matrixTakes (o : MatOp) (poison : BitVec 4) : Bool :=
  match sweepOf o.kind with
  | none => false
  | some w =>
    let va := w.row o.prog + o.off
    poison &&& sectorsOf (byteRange (va % 128) (min (w.bytes - o.off) (128 - va % 128))) ≠ 0

/-- A line that a matrix operation has read arrives. -/
def matrixReturn (s : State) (n id : Nat) (data : Line) : State :=
  modQuart s n fun q =>
    match matOpAt q id with
    | none => q
    | some o =>
      match sweepOf o.kind with
      | none => q
      | some w =>
        let va := w.row o.prog + o.off
        let k := min (w.bytes - o.off) (128 - va % 128)
        let q := putBytes q ((teamAt s o.team).rowBase n) o (lineRead data (va % 128) k) o.off k
        modMatOp q id fun o => { o.passed w k with req := none }

/-- An operation leaves with its flags, which its instruction sets at completion (R261). -/
def endMatrix (s : State) (n : Nat) (o : MatOp) : State :=
  let s := modQuart s n fun q => dropMatOp q o.id
  modGrpIf s o.gid fun g => modOp g o.op fun x => { x with fflags := x.fflags ||| o.fflags }

/-- MATRIX_MEMORY_OP_COMPLETE (R256, R259 to R261): an MZERO takes its turn and ends 4 core cycles later;
an SP form goes on with its rows; a transfer ends when its last row or column is handled and its writes have
been applied. -/
def matrixEnd (s : State) (n id : Nat) : Option State :=
  let q := quartAt s n
  match matOpAt q id with
  | none => none
  | some o =>
    match o.kind with
    | .mma .. => none
    | .mdrn _ => none
    | .mzero =>
      if !matReady s q o then none
      else if !o.running then
        some (modQuart s n fun q => modMatOp q id fun o => { o with running := true, start := s.cycle })
      else if s.cycle < o.start + 4 then none
      else some (endMatrix (modQuart s n fun q => o.tiles.foldl zeroTile q) n o)
    | _ =>
      match sweepOf o.kind with
      | none => none
      | some w =>
        if w.sp then
          if 64 ≤ o.prog then some (endMatrix s n o)
          else if !matReady s q o then none
          else spService s n o w
        else if o.prog < 64 || o.req.isSome || !allApplied s o.pubs then none
        else some (endMatrix s n o)

def execMatrixMemoryOpComplete (core q op : Nat) (s : State) : Out :=
  .next ((matrixEnd s (quartNo core q) op).getD s)

/-! ## Draining (R264, R265) -/

/-- Whether MDRN's TYPE fits the group width (R264, R265). -/
def drainWidth (ty : Ty) : Nat :=
  match ty with
  | .f64 | .i64 => 64
  | .f32x2 | .i32x2 => 32
  | _ => 16

/-- MDRN (R264). -/
def execMdrn (h : Hdr) (ty : Ty) (rnd : Rnd) (dp : Fin 4) (tile : Fin 16) (p64 : Bool) (s : State) : Out :=
  let m := modeOf (issuingGroup s) rnd
  runItem { matItem h [] with lat := some 1 } (fun i _ s =>
    let g := grpAt s i.gid
    if (g.drain dp.val).active then .fault (matrixFault 9)
    else if drainWidth ty ≠ g.width then .fault (matrixFault 10)
    else
      match physTiles s g.quart g.team tile.val p64 with
      | none => .fault (matrixFault 7)
      | some ts =>
        if queueFull s i.gid then .wait
        else
          let (s, _) := enqueue s i ts (.mdrn dp.val)
          let d : Drain :=
            { active := true, ty := ty, rnd := m, p64 := p64, moved := 0, taken := 0, rows := [] }
          .done {} (modGrp s i.gid fun g => g.modDrain dp.val fun _ => d)) s

/-- A tile element as a drain delivers it (R265). -/
def drainElem (d : Drain) (x : Nat) : Nat × FF :=
  match d.ty with
  | .f64 => if d.p64 then (x, 0) else Fmt.f64.convert .inf .rne (Fmt.f32.value x)
  | .i64 => ((sextW 32 (BitVec.ofNat 64 x)).toNat, 0)
  | .i32x2 => (x, 0)
  | .f32x2 => if d.p64 then Fmt.f32.convert .inf d.rnd (Fmt.f64.value x) else (x, 0)
  | ty => (fmtOf ty).convert .inf d.rnd ((if d.p64 then Fmt.f64 else Fmt.f32).value x)

/-- A row across the lanes, with its flags and the lanes that take a poisoned word. -/
def drainRow (q : Quarter) (ts : List Nat) (d : Drain) (width row : Nat) : List Word × FF × Mask :=
  let e := 64 / width
  let ls := (List.range width).map fun l =>
    packElems width e fun j => drainElem d (elemAt q ts row (l * e + j))
  let bad := (List.range width).filter fun l => q.cellPoison.any fun k =>
    ts.contains (k / 4096) && k / 64 % 64 = row && k % 64 / e = l
  (ls.map (·.1), ffAll (ls.map (·.2)), maskOf 64 bad)

/-- DRAIN_ROW_MOVE: the next row goes to the port's buffer of two rows, at one row in two core cycles
(R264). -/
def drainMove (s : State) (gid dp : Nat) : Option State :=
  let g := grpAt s gid
  let n := g.quart
  let q := quartAt s n
  let d := g.drain dp
  match q.ops.find? fun o => o.gid = gid && o.kind = .mdrn dp with
  | none => none
  | some o =>
    if switchingFor s o || !matReady s q o || 2 ≤ d.rows.length || (o.running && decide (s.cycle < o.start + 2)) then none
    else
      let r := drainRow q o.tiles d g.width d.moved
      let s := modGrp s gid fun g => g.modDrain dp fun d => { d with moved := d.moved + 1, rows := d.rows ++ [r] }
      some (modQuart s n fun q =>
        if d.moved + 1 = 64 then dropMatOp q o.id
        else modMatOp q o.id fun o => { o with running := true, start := s.cycle })

def execDrainRowMove (gid dp : Nat) (s : State) : Out := .next ((drainMove s gid dp).getD s)

/-! ## Reservations (R266, R267) -/

/-- Tiles of a quarter that are neither allocated to a team with groups there nor reserved. -/
def poolOf (s : State) (n : Nat) : Nat :=
  let teams := dedup ((s.groups.filter fun e => e.2.resident && e.2.quart = n).map (·.2.team))
  let native := teams.map fun t => (launchAt s (teamAt s t).lid).atiles
  16 - native.foldl (· + ·) 0 - ((quartAt s n).reserved.map (·.2)).getD 0

/-- Whether team `a` is older than team `b`. -/
def teamOlder (s : State) (a b : Nat) : Bool :=
  let x := teamAt s a
  let y := teamAt s b
  let i := (launchAt s x.lid).order
  let j := (launchAt s y.lid).order
  i < j || (i = j && x.index < y.index)

/-- MACQ's algorithm: whether it succeeds, and the quarter after it; any MACQ of the claimant starts its 1,024 ticks again
(R266). -/
def acquireTiles (s : State) (n team k : Nat) : Bool × Quarter :=
  let q := quartAt s n
  let native := (launchAt s (teamAt s team).lid).atiles
  let holds : Bool := match q.reserved with
    | some (t, _) => t = team
    | none => false
  let other : Bool := match q.claimant with
    | some (t, _) => t ≠ team
    | none => false
  let again := { q with claimant := q.claimant.map fun c => if c.1 = team then (team, gtOf s) else c }
  if 16 < k || 16 < native + k then (false, again)
  else if holds then (false, again)
  else if q.reserved.isSome || poolOf s n < k || other then
    let claims : Bool := match q.claimant with
      | some (t, _) => t = team || teamOlder s team t
      | none => true
    (false, if claims then { q with claimant := some (team, gtOf s) } else q)
  else
    let q := ((List.range k).map (16 + ·)).foldl zeroTile q
    (true, { q with
      reserved := some (team, k)
      claimant := match q.claimant with
        | some (t, g) => if t = team then none else some (t, g)
        | none => none })

/-- MACQ (R266): it never waits. -/
def execMacq (h : Hdr) (pd : Fin 8) (a : Opnd) (s : State) : Out :=
  runItem { matItem h [a] with lat := some 8 } (fun i ex s =>
    let g := grpAt s i.gid
    let (ok, q) := acquireTiles s g.quart g.team (scalarOf s i.gid ex a).toNat
    let ws := (lanesOf g.width ex).map fun l => (⟨l, .p l pd.val, if ok then 1 else 0⟩ : RegWrite)
    .done { writes := ws } (modQuart s g.quart fun _ => q)) s

/-- A team is the claimant of a quarter no more. -/
def unclaim (q : Quarter) (team : Nat) : Quarter :=
  match q.claimant with
  | some (t, _) => if t = team then { q with claimant := none } else q
  | none => q

/-- MREL (R267). -/
def execMrel (h : Hdr) (s : State) : Out :=
  runItem (matItem h []) (fun i _ s =>
    let g := grpAt s i.gid
    .done { kind := .mrel } (modQuart s g.quart fun q => unclaim q g.team)) s

/-- RESERVATION_RELEASE: a reservation whose holder has executed MREL, or has no thread left on the
quarter, ends once no queued operation names a reserved tile, or none of the team's is left (R267, R271). -/
def releaseTiles (s : State) (n : Nat) : Option State :=
  let q := quartAt s n
  match q.reserved with
  | none => none
  | some (team, _) =>
    let gs := (s.groups.filter fun e => e.2.team = team && e.2.quart = n).map (·.2)
    let asked := gs.any fun g => g.ops.any fun o => o.kind = .mrel
    let past := gs.all fun g => g.live = 0
    let named := q.ops.any fun o => o.tiles.any fun t => 16 ≤ t
    let queued := (q.ops ++ q.loads).any fun o => o.team = team
    if !(asked && !named) && !(past && !queued) then none
    else some (modQuart s n fun q =>
      { q with reserved := none, cells := q.cells.filter fun e => e.1 < 4096 * 16
               cellPoison := q.cellPoison.filter fun k => k < 4096 * 16 })

def execReservationRelease (core q : Nat) (s : State) : Out :=
  .next ((releaseTiles s (quartNo core q)).getD s)

/-- CLAIMANT_EXPIRY: 1,024 GT ticks without a MACQ, or no thread of the team left (R266). -/
def expireClaim (s : State) (n : Nat) : Option State :=
  let q := quartAt s n
  match q.claimant with
  | none => none
  | some (team, gt) =>
    let past := s.groups.all fun e => e.2.team ≠ team || e.2.live = 0
    if past || gt + 1024 ≤ gtOf s then some (modQuart s n fun q => { q with claimant := none }) else none

def execClaimantExpiry (core q : Nat) (s : State) : Out :=
  .next ((expireClaim s (quartNo core q)).getD s)

end Sys2Proof.Machine
end

