-- ==== Sys2Proof/Machine/Slice.lean ====
section
/-! DEFINITION. Slice.lean: the L2 slices: translation at a miss, line fills and the leases they grant,
write-backs and evictions (R56 to R63, R70 to R81, R84, R87, R88, R458). -/

namespace Sys2Proof.Machine

/-! ## Requests counted at the channels (R73) -/

/-- Counts a request of a slice or a TLB block of a die at the channel of a physical address. -/
def countAccess (s : State) (part die pa : Nat) : State :=
  match homeOf (partAt s part) pa with
  | some (.hbm a) =>
    let c := chanOf a
    let up := fun (m : NMap Word) => mapSet 0 m c (mapGet 0 m c + 1)
    if hbmDie a = die then { s with localReq := up s.localReq } else { s with remoteReq := up s.remoteReq }
  | _ => s

/-- Counts a request of the host at the channel of a byte of HBM. -/
def countHost (s : State) (a : Nat) : State :=
  { s with hostReq := mapSet 0 s.hostReq (chanOf a) (mapGet 0 s.hostReq (chanOf a) + 1) }

/-! ## Lines of a slice -/

def slicePart (s : State) (k : Nat) : Nat := (partOfCluster s k).getD 0
def blockNo (k : Nat) : Nat := k / 4

def modLine (s : State) (k asid line : Nat) (f : L2Line → L2Line) : State :=
  modSlice s k fun sl =>
    { sl with lines := sl.lines.map fun x => if x.asid = asid && x.line = line then f x else x }
def dropLine (s : State) (k asid line : Nat) : State :=
  modSlice s k fun sl => { sl with lines := sl.lines.filter fun x => !(x.asid = asid && x.line = line) }

def findMiss (sl : Slice) (asid line : Nat) : Option Miss :=
  sl.misses.find? fun m => m.asid = asid && m.line = line
def modMiss (s : State) (k asid line : Nat) (f : Miss → Miss) : State :=
  modSlice s k fun sl =>
    { sl with misses := sl.misses.map fun m => if m.asid = asid && m.line = line then f m else m }
def dropMiss (s : State) (k asid line : Nat) : State :=
  modSlice s k fun sl => { sl with misses := sl.misses.filter fun m => !(m.asid = asid && m.line = line) }

/-- Whether a waiting request or operation concerns a line. -/
def concerns (s : State) (asid line : Nat) (id : Nat) : Bool :=
  match mapFind s.requests id with
  | some r => r.asid = asid && r.line = line
  | none =>
    match mapFind s.pubs id with
    | some p => p.asid = asid && p.touched.any fun t => t.1 = line
    | none => false

/-- The requests and operations that wait for a line, in order of arrival. -/
def waitersOf (s : State) (k asid line : Nat) : List Nat :=
  (sliceAt s k).waiting.filter (concerns s asid line)

/-- Whether an operation writes (R82). -/
def SliceKind.writes : SliceKind → Bool
  | .xfin .. => false
  | .ldx .. => false
  | _ => true

/-- The home of a half-line of a line in host memory. -/
def hostHalf (pa : Nat) : Nat := (pa - 2 ^ 51) / 64

/-- The lines of a slice that hold a half-line of host memory. -/
def L2Line.hasHalf (x : L2Line) (half : Nat) : Bool :=
  x.place = 2 && (hostHalf x.pa = half || hostHalf x.pa + 1 = half)

/-- The state of half `h` of a host line, and what it asks for. -/
def L2Line.mesi (x : L2Line) (h : Nat) : Mesi := if h = 0 then x.half0 else x.half1
def L2Line.ask (x : L2Line) (h : Nat) : Option Bool := if h = 0 then x.ask0 else x.ask1
def L2Line.setMesi (x : L2Line) (h : Nat) (st : Mesi) : L2Line :=
  if h = 0 then { x with half0 := st } else { x with half1 := st }
def L2Line.setAsk (x : L2Line) (h : Nat) (a : Option Bool) : L2Line :=
  if h = 0 then { x with ask0 := a } else { x with ask1 := a }

/-- The partition and the byte of HBM that a host physical address names (R91, R405). -/
def exposed (s : State) (hpa : Nat) : Option (Nat × Nat) :=
  s.parts.findSome? fun e => e.2.hdmRanges.findSome? fun r =>
    let (pa, len, base) := r.2
    if base ≤ hpa && hpa < base + len then
      match homeOf e.2 (pa + (hpa - base)) with
      | some (.hbm a) => some (e.1, a)
      | _ => none
    else none

/-- Whether a line of a slice is a copy of the exposed line of HBM that a host physical address names. -/
def copyOfExposed (s : State) (k : Nat) (x : L2Line) (hpa : Nat) : Bool :=
  match exposed s hpa, homeOf (partAt s (slicePart s k)) x.pa with
  | some (_, b), some (.hbm a) => b / 128 = a / 128
  | _, _ => false

/-- Whether an access of the host is a write or an invalidation of a line (R78, R89, R91). -/
def HostOp.writesLine (s : State) (k : Nat) (x : L2Line) : HostOp → Bool
  | .snpInv hpa => x.hasHalf (hpa / 64)
  | .write hpa _ => copyOfExposed s k x hpa
  | .own hpa => copyOfExposed s k x hpa
  | _ => false

/-- Whether an access of another agent that has reached the slices is a write of a line. -/
def SysOp.writesLine (s : State) (k : Nat) (x : L2Line) (o : SysOp) : Bool :=
  o.arrived && o.job ≠ .load && slicePart s k = o.part && decide (o.pa < x.pa + 128) && decide (x.pa < o.pa + o.n)

/-- Accesses of the host and of other agents that wait to write a line count as writes that wait on it (R77, R78). -/
def hostWriteWaits (s : State) (k : Nat) (x : L2Line) : Bool :=
  s.hostOps.any (·.writesLine s k x) || s.sysOps.any (·.writesLine s k x)

/-- The operations at slices that a write or an invalidation of the host has found before it (R78). -/
def foundBefore (s : State) (o : HostOp) : List Nat :=
  ((s.hostBefore.find? fun e => e.1 = o).map (·.2)).getD []

/-- Whether a write or an invalidation of the host, or a write of another agent, that reached a line before an operation
waits there (R78). -/
def hostFirst (s : State) (k : Nat) (x : L2Line) (id : Nat) : Bool :=
  (s.hostOps.any fun o => o.writesLine s k x && !(foundBefore s o).contains id) ||
    s.sysOps.any fun o => o.writesLine s k x && !o.before.contains id

/-- Whether a write waits on a line: an arrived operation, a write lock, or a write of the host (R77, R78,
R326). -/
def writeWaits (s : State) (k : Nat) (x : L2Line) : Bool :=
  (sliceAt s k).locks.any (fun l => l.write && l.asid = x.asid && l.sector / 4 = x.line) ||
  hostWriteWaits s k x ||
  (waitersOf s k x.asid x.line).any fun id =>
    match mapFind s.pubs id with
    | some p => p.kind.writes
    | none => false

/-! ## Entries that change in memory (R60, R61) -/

/-- Whether a table entry overlaps bytes `[a, a + n)` of HBM. -/
def entryMeets (s : State) (part pa a n : Nat) : Bool :=
  match homeOf (partAt s part) pa with
  | some (.hbm x) => decide (x < a + n) && decide (a < x + 8)
  | _ => false

/-- Whether a line's page is that of a TLB entry. -/
def tlbCovers (t : TlbEntry) (part asid va : Nat) : Bool :=
  t.part = part && (t.asid = asid || pteGlobal t.entry.toNat) &&
  (if t.large then t.page = va / 2 ^ 28 else t.page = va / 65536)

/-- A write to bytes of HBM removes the translations read from them, and clears the write marks of their
pages. -/
def forgetEntries (s : State) (a n : Nat) : State :=
  let meets := fun (part pa : Nat) => entryMeets s part pa a n
  let gone := s.blocks.flatMap fun e => e.2.entries.filter fun t => meets t.part t.entryPa
  let lost := fun (k asid line : Nat) =>
    let part := slicePart s k
    gone.any (fun t => tlbCovers t part asid (line * 128)) ||
    match walk s part asid (line * 128) with
    | .leaf _ _ epa _ => meets part epa
    | _ => false
  { s with
    blocks := s.blocks.map fun e => (e.1, { e.2 with
      entries := e.2.entries.filter fun t => !meets t.part t.entryPa
      walks := e.2.walks.filter fun w => !meets w.part w.entryPa })
    slices := s.slices.map fun e => (e.1, { e.2 with
      lines := e.2.lines.map fun x =>
        if x.wok && lost e.1 x.asid x.line then { x with wok := false } else x
      misses := e.2.misses.map fun m =>
        if m.wok && lost e.1 m.asid m.line then { m with wok := false } else m }) }

/-- Writes bytes at a physical address of a partition: one at a time, each at its home. -/
def storeBytes (s : State) (part : Nat) : Nat → List Byte → State
  | _, [] => s
  | pa, b :: bs =>
    let s := match homeOf (partAt s part) pa with
      | some (.hbm a) => homeWrite (forgetEntries s a 1) part b (.hbm a)
      | some h => homeWrite s part b h
      | none => s
    storeBytes s part (pa + 1) bs

/-- Replaces or clears the poison of the HBM sectors of a line (R390). -/
def putPoison (s : State) (a : Nat) (sectors poison : BitVec 4) : State :=
  let named := fun (n : Nat) (m : BitVec 4) => n / 4 = a / 128 && hasBit m (n % 4)
  let kept := s.hbmPoison.filter fun n => !named n sectors
  let new := ((List.range 4).filter fun i => hasBit sectors i && hasBit poison i).map (a / 128 * 4 + ·)
  { s with hbmPoison := kept ++ new, hbmCorrectable := s.hbmCorrectable.filter fun n => !named n sectors }

/-- Replaces or clears the poison of the sectors of a line of carved storage (R390). -/
def putCarvedPoison (s : State) (part o : Nat) (sectors poison : BitVec 4) : State :=
  let new := ((List.range 4).filter fun i => hasBit sectors i && hasBit poison i).flatMap fun i =>
    (List.range 4).map (16 * (o / 128) + 4 * i + ·)
  modPart s part fun p => { p with
    carvedPoison := (p.carvedPoison.filter fun w => !(w / 16 = o / 128 && hasBit sectors (w % 16 / 4))) ++ new }

/-- Correctable errors of a line of HBM are corrected and written back (R390). -/
def correctLine (s : State) (a : Nat) : State :=
  let n := (s.hbmCorrectable.filter fun n => n / 4 = a / 128).length
  { s with hbmCorrectable := s.hbmCorrectable.filter (fun n => n / 4 ≠ a / 128)
           cecnt := min (s.cecnt + n) 0xFFFF }

/-! ## Escalating a late translation (R458) -/

/-- The item on whose behalf a waiting request or operation is: its group, address and lane, and whether
it writes. Loads, fetches and updates of memory of a group; nothing else. -/
def requester (s : State) (id : Nat) : Option (Nat × Word × Nat × Bool) :=
  match mapFind s.requests id with
  | some r =>
    match r.reader with
    | .l1 g pc l _ => some (g, pc, l, false)
    | .noAlloc g pc l => some (g, pc, l, false)
    | .irrev g pc l _ => some (g, pc, l, false)
    | .fetch (some (g, pc, l)) => some (g, pc, l, false)
    | _ => none
  | none =>
    match mapFind s.pubs id with
    | some p =>
      match p.sender with
      | .item g op l => (opOf (grpAt s g) op).map fun o => (g, o.pc, l, p.kind.writes)
      | _ => none
    | none => none

/-- The core that a waiting request or operation comes from. -/
def requestCore (s : State) (id : Nat) : Option Nat :=
  match mapFind s.requests id with
  | some r => some r.core
  | none => (mapFind s.pubs id).map (·.core)

/-- Whether a waiting request is a hint. -/
def isHint (s : State) (id : Nat) : Bool :=
  match mapFind s.requests id with
  | some r => match r.reader with
    | .prefetch _ => true
    | .walk => true
    | .fetch none => true
    | _ => false
  | none => false

/-- Drops the hints that wait for a line (R69). -/
def dropHints (s : State) (k asid line : Nat) : State :=
  ((waitersOf s k asid line).filter (isHint s)).foldl (fun s id =>
    match mapFind s.requests id with
    | some r =>
      let s := { s with requests := mapErase s.requests id }
      let s := modSlice s k fun sl => { sl with waiting := sl.waiting.filter (· ≠ id) }
      dropHint s r.core r.lid asid (line * 128) (max 1 r.hints)
    | none => s) s

/-- The translation of a miss has failed: hints are dropped; the failure is escalated for the group whose
request reached the slice first, or with CORE = 7, and what waits goes on waiting. R458 does not say whose mailbox
slots take a record with CORE = 7: here those of the core that sent the waiting request, or of the first core of the
slice's cluster (DESIGN CHOICE, log entry 65). -/
def failMiss (s : State) (k asid line : Nat) (code : CauseCode) : State :=
  let lid := ((findMiss (sliceAt s k) asid line).map (·.lid)).getD 0
  let hinted := (waitersOf s k asid line).any (isHint s)
  let s := dropHints s k asid line
  let va : Word := BitVec.ofNat 64 (line * 128)
  let page := pageOf (line * 128)
  let wb := (findL2 (sliceAt s k) asid line).isSome
  match waitersOf s k asid line with
  | [] =>
    let core := k * Config.coresPerCluster
    if hinted && !wb then
      let s := dropMiss s k asid line
      if code = .placement then escalateFree s core 0x80 code.num asid va .nobody else s
    else
      escalateFree (modMiss s k asid line fun m => { m with failed := code.num })
        core 0x80 code.num asid va (.request none k asid page lid)
  | id :: _ =>
    let s := modMiss s k asid line fun m => { m with failed := code.num }
    match requester s id with
    | some (gid, pc, lane, wr) =>
      let g := grpAt s gid
      let r : MboxRec :=
        { kind := 0x80, cause := code.num, orig := 0, slot := g.slot, quarter := g.quarter
          core := g.core % Config.coresPerCluster, asid := asid, w1 := pc, w2 := va
          w3 := ({ code := code, lane := lane, wr := wr } : Cause).xstat.setWidth 64 }
      postEscalation (countCause s lid code) g.core r (.request (some gid) k asid page lid)
    | none =>
      escalateFree s ((requestCore s id).getD (k * Config.coresPerCluster)) 0x80 code.num asid va
        (.request none k asid page lid)

/-! ## Translation (R56 to R62) -/

/-- Whether all that waits for a line is fetches. -/
def onlyFetches (s : State) (k asid line : Nat) : Bool :=
  let ws := waitersOf s k asid line
  !ws.isEmpty && ws.all fun id => match mapFind s.requests id with
    | some r => r.reader.isFetch
    | none => false

/-- Whether an entry lets a miss proceed: W for a write, R for a read, X for fetches. -/
def entryAllows (s : State) (k asid line e : Nat) (write : Bool) : Bool :=
  if write then pteW e else pteR e || (pteX e && onlyFetches s k asid line)

/-- The physical address that an entry gives a line. -/
def entryPaOf (t : TlbEntry) (line : Nat) : Nat :=
  pteFrame t.entry.toNat * 65536 + line * 128 % (if t.large then 2 ^ 28 else 65536)

/-- A miss takes its translation; one for the write mark of a line that is held ends so (R61). -/
def resolveMiss (s : State) (k asid line : Nat) (t : TlbEntry) : State :=
  let e := t.entry.toNat
  let wok := pteW e && pteD e
  match findMiss (sliceAt s k) asid line with
  | none => s
  | some m =>
    if !entryAllows s k asid line e m.write then failMiss s k asid line .lease
    else if m.walkOnly then dropMiss s k asid line
    else if m.nofill && (findL2 (sliceAt s k) asid line).isSome then
      let s := modLine s k asid line fun x => { x with wok := wok, pa := entryPaOf t line }
      dropMiss s k asid line
    else modMiss s k asid line fun m =>
      { m with pa := some (entryPaOf t line), lc := pteLc e, wok := wok, place := ptePlace e
               sa := ptePlace e = 2 && pteSa e }

/-- The entry of a block that translates a line, for a write one that is already marked dirty. -/
def tlbHit (s : State) (k asid line : Nat) (write : Bool) : Option TlbEntry :=
  (blockAt s (blockNo k)).entries.find? fun t =>
    tlbCovers t (slicePart s k) asid (line * 128) && (!(write && pteW t.entry.toNat) || pteD t.entry.toNat)

/-- Starts a miss, or adds to the one that is under way; with `walkOnly` it is only translated. A block's entry
translates it at once. -/
def startWalk (s : State) (k lid asid line : Nat) (write nofill first walkOnly : Bool) : State :=
  let s := match findMiss (sliceAt s k) asid line with
    | some _ => modMiss s k asid line fun m =>
        { m with nofill := m.nofill && nofill, first := m.first && first, walkOnly := m.walkOnly && walkOnly }
    | none => modSlice s k fun sl =>
        { sl with misses := sl.misses ++
          [{ (default : Miss) with asid := asid, line := line, lid := lid, write := write
                                   nofill := nofill, first := first, walkOnly := walkOnly }] }
  match findMiss (sliceAt s k) asid line, tlbHit s k asid line write with
  | some m, some t => if m.pa.isNone && m.failed = 0 && m.write = write then resolveMiss s k asid line t else s
  | _, _ => s

/-- Starts a miss that fills a line or translates one that is held. -/
def startMiss (s : State) (k lid asid line : Nat) (write nofill first : Bool) : State :=
  startWalk s k lid asid line write nofill first false

/-- Adds an entry to a full store in place of one that is open. -/
def addBounded {α : Type} (s : State) (n : Nat) (xs : List α) (x : α) : State × List α :=
  if xs.length < n then (s, xs ++ [x])
  else
    let (i, s) := freeChoice s n
    (s, listSet xs i x)

/-- Enters a translation in a block, in place of an older one of the same page. -/
def addTlb (s : State) (k : Nat) (t : TlbEntry) : State :=
  let b := blockAt s (blockNo k)
  let es := b.entries.filter fun x =>
    !(x.part = t.part && x.asid = t.asid && x.large = t.large && x.page = t.page)
  let (s, es) := addBounded s Config.tlbEntries es t
  modBlock s (blockNo k) fun b => { b with entries := es }

/-- Pointers of a walk that the walk cache does not hold are entered in it. -/
def addWalks (s : State) (k asid line : Nat) : List (Nat × Nat × Nat) → State
  | [] => s
  | (level, pa, e) :: ps =>
    let part := slicePart s k
    let index := line * 128 / 2 ^ (52 - 12 * level)
    let ws := (blockAt s (blockNo k)).walks
    let s :=
      if ws.any fun w => w.part = part && w.asid = asid && w.level = level && w.index = index then s
      else
        let (s, ws) := addBounded s Config.walkCache ws ⟨part, asid, level, index, BitVec.ofNat 64 e, pa⟩
        modBlock s (blockNo k) fun b => { b with walks := ws }
    addWalks s k asid line ps

/-- The walker's reads of a walk, counted, from the deepest pointer that the walk cache holds; the
pointers read are kept (R59, R73). -/
def walkReads (s : State) (k asid line : Nat) : State :=
  let part := slicePart s k
  let trace := (walkTrace s part asid (line * 128)).zipIdx
  let ws := (blockAt s (blockNo k)).walks
  let held := fun (i pa : Nat) => ws.any fun w =>
    w.part = part && w.asid = asid && w.level = i && w.entryPa = pa &&
      w.index = line * 128 / 2 ^ (52 - 12 * i)
  let deepest := ((trace.filter fun e => held e.2 e.1.1).map (·.2 + 1)).foldl max 0
  let read := trace.drop deepest
  let s := read.foldl (fun s e => countAccess s part (dieOf k) e.1.1) s
  let last := trace.length - 1
  addWalks s k asid line ((read.filter fun e => e.2 < last).map fun e => (e.2, e.1.1, e.1.2))

/-- A leaf that has been read, as a TLB entry. -/
def leafEntry (s : State) (k asid line e epa : Nat) (large : Bool) : TlbEntry :=
  ⟨slicePart s k, asid, line * 128 / (if large then 2 ^ 28 else 65536), large, BitVec.ofNat 64 e, epa⟩

/-- The bits A and D that an access sets in an entry (R62). -/
def adBits (e : Nat) (write : Bool) : Nat := e ||| 0x10 ||| (if write then 0x20 else 0)

/-- A leaf that the walker has read: its rights are checked; the bits A and D are set if they are clear; or
it is entered and the miss is translated. -/
def useLeaf (s : State) (k asid line e epa : Nat) (large write : Bool) : State :=
  if !entryAllows s k asid line e write then failMiss s k asid line .lease
  else if adBits e write = e then
    let t := leafEntry s k asid line e epa large
    resolveMiss (addTlb s k t) k asid line t
  else
    modBlock s (blockNo k) fun b => { b with updates := b.updates ++
      [⟨slicePart s k, asid, line * 128, epa, BitVec.ofNat 64 e, BitVec.ofNat 64 (adBits e write), 0,
        large, k⟩] }

/-- TLB_WALK: the walker of a block walks for a miss that has no translation (R56, R59). It takes one walk
at a time. -/
def tlbWalk (s : State) (k asid line : Nat) : Option State :=
  match findMiss (sliceAt s k) asid line with
  | none => none
  | some m =>
    if m.pa.isSome || m.failed ≠ 0 || !(blockAt s (blockNo k)).updates.isEmpty then none
    else
      match tlbHit s k asid line m.write with
      | some t => some (resolveMiss s k asid line t)
      | none =>
        let s := walkReads s k asid line
        match walk s (slicePart s k) asid (line * 128) with
        | .placement => some (failMiss s k asid line .placement)
        | .absent _ => some (failMiss s k asid line .lease)
        | .leaf _ e epa large => some (useLeaf s k asid line e epa large m.write)

def execTlbWalk (slice : Nat) (asid : BitVec 16) (va : Word) (_ : Bool) (s : State) : Out :=
  .next ((tlbWalk s slice asid.toNat (va.toNat / 128)).getD s)

/-- AD_COMPARE_SWAP: one attempt of a block's update, at the entry's home controller (R62, R73). A failed
swap reads the entry again and checks it; after four the fifth sets the bits in the entry as it stands. -/
def adSwap (s : State) (k asid line : Nat) : Option State :=
  let b := blockNo k
  match (blockAt s b).updates with
  | [] => none
  | u :: rest =>
    if u.slice ≠ k || u.asid ≠ asid || u.va / 128 ≠ line then none
    else
      let drop := fun (s : State) => modBlock s b fun x => { x with updates := rest }
      let write := ((findMiss (sliceAt s k) asid line).map (·.write)).getD false
      let s := countAccess s u.part (dieOf k) u.entryPa
      let now := (readEntry s u.part u.entryPa).getD 0
      let put := fun (s : State) (e : Nat) =>
        match homeOf (partAt s u.part) u.entryPa with
        | some h => homeWriteLE s u.part h 8 e
        | none => s
      let done := fun (e : Nat) =>
        let s := drop (put s e)
        if !pteV e || !pteLeaf e then s
        else
          let t := leafEntry s k asid line e u.entryPa u.large
          resolveMiss (addTlb s k t) k asid line t
      if now = u.old.toNat then some (done u.new.toNat)
      else if 4 ≤ u.tries then some (done (adBits now write))
      else
        let s := countAccess s u.part (dieOf k) u.entryPa
        let bad := leafBad (partAt s u.part) now (if u.large then 2 ^ 28 else 65536)
        if !pteV now then some (failMiss (drop s) k asid line .lease)
        else if !pteLeaf now then
          if u.large then some (drop s) else some (failMiss (drop s) k asid line .placement)
        else if bad then some (failMiss (drop s) k asid line .placement)
        else if !entryAllows s k asid line now write then some (failMiss (drop s) k asid line .lease)
        else
          let u' : AdUpdate :=
            { u with old := BitVec.ofNat 64 now, new := BitVec.ofNat 64 (adBits now write)
                     tries := u.tries + 1 }
          some (modBlock s b fun x => { x with updates := u' :: rest })

def execAdCompareSwap (slice : Nat) (asid : BitVec 16) (va : Word) (s : State) : Out :=
  .next ((adSwap s slice asid.toNat (va.toNat / 128)).getD s)

/-! ## Write-backs (R70, R80, R85, R87) -/

/-- The launches whose snapshots cover a page (R64, R70, R410). -/
def snapLaunches (s : State) (part asid va : Nat) : List Nat :=
  (s.launches.filter fun e =>
    let l := e.2
    l.part = part && l.asid = asid && l.armed &&
    match rangeOf l va with
    | some r => r.snap
    | none => false).map (·.1)

/-- The HBM sectors of a frame of 64 KiB, in order. -/
def frameSectors (p : Partition) (frame : Nat) : List Nat :=
  (List.range 2048).filterMap fun i =>
    match homeOf p (frame * 65536 + 32 * i) with
    | some (.hbm a) => some (a / 32)
    | _ => none

/-- Copies a frame of 64 KiB, with its poison (R390). -/
def copyFrame (s : State) (part src dst : Nat) : State :=
  let s := storeBytes s part (dst * 65536) (paReadBytes s part (src * 65536) 65536)
  if s.hbmPoison.isEmpty then s
  else
    let p := partAt s part
    let pairs := (frameSectors p src).zip (frameSectors p dst)
    let bad := pairs.filter fun e => s.hbmPoison.contains e.1
    { s with hbmPoison := s.hbmPoison.filter (fun n => !pairs.any fun e => e.2 = n) ++ bad.map (·.2) }

/-- Whether a frame holds a poisoned sector. -/
def framePoisoned (s : State) (part frame : Nat) : Bool :=
  !s.hbmPoison.isEmpty && (frameSectors (partAt s part) frame).any s.hbmPoison.contains

/-- What copy-before-write asks of a write-back to a frame for a launch: nothing, a copy into a frame of
the pool, or, the pool being empty, a wait while the management core is asked for frames (R70). -/
def snapshot (s : State) (lid pa : Nat) : Option State :=
  let l := launchAt s lid
  let frame := pa / 65536
  if l.snaps.any fun e => e.1 = frame then some s
  else
    match (partAt s l.part).pool with
    | f :: fs =>
      let s := copyFrame s l.part frame f
      let s := modPart s l.part fun p => { p with pool := fs }
      some (modLaunch s lid fun l => { l with snaps := l.snaps ++ [(frame, f)] })
    | [] => if l.unrepl then some s else none

/-- The snapshots of every launch that covers a line; or the first launch whose snapshot waits. -/
def snapshots (pa : Nat) : State → List Nat → State × Option Nat
  | s, [] => (s, none)
  | s, lid :: ls =>
    match snapshot s lid pa with
    | some s => snapshots pa s ls
    | none => (s, some lid)

/-- Where a line is to be written: the address that its block's entry gives, or else what is begun to translate it
for writing (R59, R61, R66); `none` while a translation is under way. -/
def writeTarget (s : State) (k : Nat) (x : L2Line) : Option (State ⊕ Nat) :=
  match tlbHit s k x.asid x.line true, findMiss (sliceAt s k) x.asid x.line with
  | some t, none =>
    if pteW t.entry.toNat then some (.inr (entryPaOf t x.line))
    else some (.inl (startMiss s k x.lid x.asid x.line true true false))
  | none, none => some (.inl (startMiss s k x.lid x.asid x.line true true false))
  | _, some _ => none

/-- A write-back to HBM removes the translations read from the entries under the sectors that it carries (R60). -/
def forgetSectors (s : State) (a : Nat) (dirty : BitVec 4) : State :=
  (List.range 4).foldl (fun s i => if hasBit dirty i then forgetEntries s (a / 128 * 128 + 32 * i) 32 else s) s

/-- Writes the half of a host line that is in M back to the host (R87). -/
def evictDirtyHalf (s : State) (part h i : Nat) (x : L2Line) : State :=
  let d : BitVec 512 := x.data.extractLsb' (512 * i) 512
  let s := { s with toHost := s.toHost ++ [.cacheWrite (h + 64 * i) (some d)] }
  homeWriteLE s part (.host (h + 64 * i)) 64 d.toNat

/-- Writes a line's dirty sectors to memory in one request: `true` once it is accepted; `false` where it
has only begun what it needs first; `none` while it waits. It is translated for writing in its block (R59); a frame
that a lease break has changed is then the new one (R66). A host half in M is written back by DirtyEvict. Carved
sectors keep their VER (R84). -/
def writeBack (s : State) (k : Nat) (x : L2Line) : Option (State × Bool) :=
  let part := slicePart s k
  if x.dirty = 0 then some (s, true)
  else
    match writeTarget s k x with
    | none => none
    | some (.inl s) => some (s, false)
    | some (.inr pa) =>
      let clean := fun (s : State) => modLine s k x.asid x.line fun y => { y with dirty := 0 }
      match homeOf (partAt s part) pa with
      | some (.hbm a) =>
        match snapshots pa s (snapLaunches s part x.asid (x.line * 128)) with
        | (s, some lid) =>
          if (launchAt s lid).snapAsk then none
          else some (modLaunch s lid fun l => { l with snapAsk := true }, false)
        | (s, none) =>
          let s := forgetSectors (countAccess s part (dieOf k) pa) a x.dirty
          let s := homeWriteMask s part (.hbm a) x.data.toNat (bytesOfSectors x.dirty).toNat 0 128
          some (clean (putPoison s a x.dirty x.poison), true)
      | some (.carved o) =>
        let s := homeWriteMask s part (.carved o) x.data.toNat (bytesOfSectors x.dirty).toNat 0 128
        let s := modPart s part fun p => { p with carvedVer := (List.range 4).foldl (fun m i =>
          if hasBit x.dirty i then mapSet 0 m (o / 32 + i) (x.vers.getD i 0) else m) p.carvedVer }
        some (clean (putCarvedPoison s part o x.dirty x.poison), true)
      | some (.host h) =>
        let s := (List.range 2).foldl (fun s i => if x.mesi i = .m then evictDirtyHalf s part h i x else s) s
        some (clean s, true)
      | none => some (clean { s with toHost := s.toHost ++ [.event (k * Config.coresPerCluster)] }, true)

/-- The halves of a host line that leave in E or S are released with CleanEvict (R87). -/
def cleanEvicts (s : State) (x : L2Line) : State :=
  if x.place ≠ 2 then s
  else (List.range 2).foldl (fun s i =>
    if x.mesi i = .s || x.mesi i = .e then
      { s with toHost := s.toHost ++ [.cacheWrite (x.pa - 2 ^ 51 + 64 * i) none] }
    else s) s

/-- Keeps the lease of a line that leaves: in the eviction lease table, or in a floor (R80). -/
def keepLease (s : State) (k : Nat) (x : L2Line) : State :=
  if x.expiry ≤ gtOf s then s
  else modSlice s k fun sl =>
    if sl.leases.length < Config.leaseTable then
      { sl with leases := sl.leases ++ [(x.asid, x.line, x.expiry)] }
    else if x.lc = 0 then { sl with floor0 := max sl.floor0 x.expiry }
    else { sl with floor := max sl.floor x.expiry }

/-- Evicts a line: its dirty sectors are written back, and its lease is kept. -/
def evictLine (s : State) (k : Nat) (x : L2Line) : Option (State × Bool) :=
  match writeBack s k x with
  | some (s, true) => some (keepLease (dropLine (cleanEvicts s x) k x.asid x.line) k x, true)
  | o => o

/-- Whether a line may be chosen as a victim: no operation waits on it, no commit locks it, no half of it
is in a CXL transaction, and no miss concerns it (R81). -/
def mayEvict (s : State) (k : Nat) (x : L2Line) : Bool :=
  (waitersOf s k x.asid x.line).isEmpty &&
  !((sliceAt s k).locks.any fun l => l.write && l.asid = x.asid && l.sector / 4 = x.line) &&
  x.ask0.isNone && x.ask1.isNone && x.merge = 0 && decide (x.hold ≤ s.cycle) &&
  !hostWriteWaits s k x && (findMiss (sliceAt s k) x.asid x.line).isNone

/-- WRITEBACK: a line leaves its slice (R80). A line that may not be chosen stays. -/
def writebackLine (s : State) (k asid line : Nat) : Option State :=
  match findL2 (sliceAt s k) asid line with
  | none => none
  | some x => if mayEvict s k x then (evictLine s k x).map (·.1) else none

def execWriteback (slice : Nat) (asid : BitVec 16) (line : Nat) (s : State) : Out :=
  .next ((writebackLine s slice asid.toNat line).getD s)

/-- EVICTION_ENTRY_DISCARD: an entry whose EXP has passed leaves the table (R80). -/
def discardLease (s : State) (k asid line : Nat) : Option State :=
  if (sliceAt s k).leases.any fun e => e.1 = asid && e.2.1 = line && decide (e.2.2 ≤ gtOf s) then
    some (modSlice s k fun sl => { sl with
      leases := sl.leases.filter fun e => !(e.1 = asid && e.2.1 = line && decide (e.2.2 ≤ gtOf s)) })
  else none

def execEvictionEntryDiscard (slice : Nat) (asid : BitVec 16) (line : Nat) (s : State) : Out :=
  .next ((discardLease s slice asid.toNat line).getD s)

/-- SNAPSHOT_POOL_REFILL: the management core gives frames, or has none, and then the launches that wait
are marked unreplayable (R70). -/
def execSnapshotPoolRefill (part : Nat) (frames : List Nat) (s : State) : Out :=
  let s := modPart s part fun p => { p with pool := p.pool ++ frames }
  .next { s with launches := s.launches.map fun e =>
    if e.2.part = part && e.2.snapAsk then
      (e.1, { e.2 with snapAsk := false, unrepl := e.2.unrepl || frames.isEmpty })
    else e }

/-! ## Fills (R76, R80, R81, R87, R88, R91) -/

/-- The first of the ways that cache no line: carved ones, and those that a change is taking (R75, R85). -/
def wayLimit (p : Partition) : Nat :=
  let asked := if p.carveBusy then (p.carveQueue.head?.map (·.1)).getD 0 else 0
  Config.cacheWays - max p.ways (if asked ≤ 14 then asked else 0)

/-- A free way of a line's set. -/
def freeWay (s : State) (k asid line : Nat) : Option Nat :=
  let set := sliceSet asid line
  let used := ((sliceAt s k).lines.filter fun x => sliceSet x.asid x.line = set).map (·.way)
  (List.range (wayLimit (partAt s (slicePart s k)))).find? fun w => !used.contains w

/-- The lines of the set of a line that may be chosen as victims: those first in eviction order, if there are any
(R81, R100, R118). -/
def victimLines (s : State) (k asid line : Nat) : List L2Line :=
  let set := sliceSet asid line
  let vs := (sliceAt s k).lines.filter fun x => sliceSet x.asid x.line = set && mayEvict s k x
  if vs.any (·.first) then vs.filter (·.first) else vs

/-- A victim of a line's set leaves, or begins what its write-back needs; which one is open (R81; log entry 15). `none`
while no line is eligible. -/
def evictVictim (s : State) (k asid line : Nat) : Option State :=
  let vs := victimLines s k asid line
  if vs.isEmpty then none
  else
    let (i, s) := freeChoice s vs.length
    (evictLine s k (vs.getD i default)).map (·.1)

/-- Halves of a set of the snoop filter that are held or asked for (R88). R88 says neither which bits of PA[51:6] index
the 1,024 sets nor whether a device line of an exposed frame takes an entry: here the half's number modulo 1,024, and
host halves only (DESIGN CHOICE, log entry 66). -/
def filterUse (s : State) (k half : Nat) : Nat :=
  (((sliceAt s k).lines.filter fun x => x.place = 2).map fun x =>
    ((List.range 2).filter fun i => (hostHalf x.pa + i) % 1024 = half % 1024 &&
      (x.mesi i ≠ .i || (x.ask i).isSome)).length).foldl (· + ·) 0

/-- A half is not valid any more; bytes kept for a merge stay (R92). -/
def loseHalf (i : Nat) (x : L2Line) : L2Line :=
  let secs : BitVec 4 := BitVec.ofNat 4 (3 * 4 ^ i)
  { x.setMesi i .i with valid := x.valid &&& ~~~secs, dirty := x.dirty &&& ~~~secs }

/-- A half leaves its slice: one in M is translated and written back, any other is released (R59, R87). -/
def evictHalf (s : State) (k : Nat) (x : L2Line) (i : Nat) : Option State :=
  let lose := fun (s : State) => modLine s k x.asid x.line (loseHalf i)
  if x.mesi i ≠ .m then
    some (lose { s with toHost := s.toHost ++ [.cacheWrite (x.pa - 2 ^ 51 + 64 * i) none] })
  else
    match writeTarget s k x with
    | none => none
    | some (.inl s) => some s
    | some (.inr _) => some (lose (evictDirtyHalf s (slicePart s k) (x.pa - 2 ^ 51) i x))

/-- The halves of a set of the snoop filter that may be chosen as victims (R81, R88). -/
def filterVictims (s : State) (k half : Nat) : List (L2Line × Nat) :=
  ((sliceAt s k).lines.filter fun x => x.place = 2 && mayEvict s k x).flatMap fun x =>
    ((List.range 2).filter fun i => (hostHalf x.pa + i) % 1024 = half % 1024 && x.mesi i ≠ .i).map fun i => (x, i)

/-- A half of a full set of the snoop filter leaves; which one is open (R88; log entry 15). -/
def evictFilter (s : State) (k half : Nat) : Option State :=
  let vs := filterVictims s k half
  if vs.isEmpty then none
  else
    let (n, s) := freeChoice s vs.length
    let (x, i) := vs.getD n default
    evictHalf s k x i

/-- Asks the host for a half of a line; where the snoop filter has no free entry, a host half leaves first (R87, R88). -/
def askHalf (s : State) (k : Nat) (x : L2Line) (i : Nat) (own : Bool) : Option State :=
  if (x.ask i).isSome then none
  else if x.mesi i = .i && decide (16 ≤ filterUse s k (hostHalf x.pa + i)) then evictFilter s k (hostHalf x.pa + i)
  else
    let s := modLine s k x.asid x.line fun y => y.setAsk i (some own)
    some { s with toHost := s.toHost ++ [.cxlRead (x.pa - 2 ^ 51 + 64 * i) own] }

/-- The half of HBM that the host holds, among those of a line, in the directory (R91). -/
def exposedHeld (s : State) (a : Nat) (owned : Bool) : List (Nat × Nat × Bool) :=
  s.biDir.filter fun e => e.1 / 2 = a / 128 && (e.2.2 || !owned)

/-- Asks the host to give up halves, once for each (R91). -/
def backInvalidate (s : State) (es : List (Nat × Nat × Bool)) (inv : Bool) : Option State :=
  let new := es.filter fun e => !s.biWait.any fun w => w.1 = e.2.1 && (w.2 || !inv)
  if new.isEmpty then none
  else some { s with
    biWait := s.biWait ++ new.map fun e => (e.2.1, inv)
    toHost := s.toHost ++ new.map fun e => .bisnp (64 * e.2.1) inv }

/-- The VER of the sectors of a line that is filled: those of carved storage, which keeps them; 0 of any other memory
(R79, R84). -/
def fillVers (s : State) (part pa : Nat) : List (BitVec 48) :=
  match homeOf (partAt s part) pa with
  | some (.carved o) => (List.range 4).map fun i => mapGet 0 (partAt s part).carvedVer (o / 128 * 4 + i)
  | _ => List.replicate 4 0

/-- A line as it is installed: its lease comes from the eviction lease table, if it is there (R80). -/
def installLine (s : State) (k way : Nat) (m : Miss) (pa : Nat) (valid poison : BitVec 4) (data : Line) :
    State :=
  let entry := (sliceAt s k).leases.find? fun e => e.1 = m.asid && e.2.1 = m.line
  let x : L2Line :=
    { (default : L2Line) with
      asid := m.asid, line := m.line, way := way, lc := m.lc, wok := m.wok
      expiry := (entry.map (·.2.2)).getD 0, noFloor := entry.isSome, valid := valid
      vers := fillVers s (slicePart s k) pa, data := data, poison := poison, place := m.place, sa := m.sa, pa := pa
      first := m.first, lid := m.lid }
  modSlice s k fun sl =>
    { sl with lines := sl.lines ++ [x]
              leases := sl.leases.filter fun e => !(e.1 = m.asid && e.2.1 = m.line)
              misses := sl.misses.filter fun y => !(y.asid = m.asid && y.line = m.line) }

/-- MEMORY_FILL_RETURN: the line comes from memory into the sectors that are not valid; a line of which
every byte is to be written, and a host line, are only allocated; a half that the host owns is asked
back first, and a full set first evicts a victim (R76, R81, R87, R91). -/
def memoryFill (s : State) (k asid line : Nat) : Option State :=
  let part := slicePart s k
  match findMiss (sliceAt s k) asid line with
  | none => none
  | some m =>
    match m.pa with
    | none => none
    | some pa =>
      let home := homeOf (partAt s part) pa
      let here := findL2 (sliceAt s k) asid line
      let held : List (Nat × Nat × Bool) := match home with
        | some (.hbm a) => if m.nofill then [] else exposedHeld s a true
        | _ => []
      if !held.isEmpty then backInvalidate s held false
      else
        match here, freeWay s k asid line with
        | none, none => evictVictim s k asid line
        | none, some way =>
          if m.nofill || m.place = 2 then some (installLine s k way m pa 0 0 0)
          else
            let s := countAccess s part (dieOf k) pa
            match home with
            | some (.hbm a) =>
              let s := correctLine s a
              some (installLine s k way m pa 0xF#4 (memPoison s part pa) (memLine s part pa))
            | some _ => some (installLine s k way m pa 0xF#4 (memPoison s part pa) (memLine s part pa))
            | none =>
              some { installLine s k way m pa 0xF#4 0 0 with
                toHost := s.toHost ++ [.event (k * Config.coresPerCluster)] }
        | some _, _ =>
          if m.place = 2 then some (dropMiss s k asid line)
          else
            let s := countAccess s part (dieOf k) pa
            let s := match home with
              | some (.hbm a) => correctLine s a
              | some _ => s
              | none => { s with toHost := s.toHost ++ [.event (k * Config.coresPerCluster)] }
            let vers := fillVers s part pa
            let poison := memPoison s part pa
            let mem := memLine s part pa
            let s := modLine s k asid line fun x =>
              { x with data := mergeLine mem x.data (bytesOfSectors x.valid)
                       poison := (x.poison &&& x.valid) ||| (poison &&& ~~~x.valid)
                       vers := x.vers.mapIdx fun i v => if hasBit x.valid i then v else vers.getD i 0
                       valid := 0xF#4, wok := x.wok || m.wok }
            some (dropMiss s k asid line)

def execMemoryFillReturn (slice : Nat) (asid : BitVec 16) (line : Nat) (s : State) : Out :=
  .next ((memoryFill s slice asid.toNat line).getD s)

/-! ## Answering reads (R77, R87, R328, R336) -/

/-- The ticks of a lease (R77). -/
def leaseTicks (lc : Nat) : Nat := 8 * 8 ^ lc

/-- Whether a lock is a write lock of a commit that has taken its stamp, which every read waits for (R328). -/
def lockSealed (s : State) (l : Lock) : Bool :=
  l.write && !l.irrev &&
    ((grpAt s l.gid).round.stage = .applying || (grpAt s l.gid).round.stage = .unlocking)

/-- Whether such a lock lies on one of some sectors of a line. -/
def readSealed (s : State) (k asid line : Nat) (sectors : BitVec 4) : Bool :=
  (sliceAt s k).locks.any fun l =>
    l.asid = asid && l.sector / 4 = line && hasBit sectors (l.sector % 4) && lockSealed s l

/-- Whether a line has all it takes to answer a read, and what it does if not: each half that is missing is
asked for; sectors that are not valid are filled. -/
def lineReady (s : State) (k : Nat) (x : L2Line) (lid : Nat) (first : Bool) : Bool × Option State :=
  if x.place = 2 then
    let gone := (List.range 2).filter fun i => x.mesi i = .i
    (gone.isEmpty, gone.findSome? fun i => askHalf s k x i false)
  else if x.valid = 0xF#4 then (true, none)
  else
    match findMiss (sliceAt s k) x.asid x.line with
    | some _ => (false, none)
    | none => (false, some (startMiss s k lid x.asid x.line false false first))

/-- A request is answered with the line as it stands, and with a lease if it fills an L1. -/
def answerRead (s : State) (k id : Nat) (r : Request) (x : L2Line) : State :=
  let s := modSlice s k fun sl => { sl with waiting := sl.waiting.filter (· ≠ id) }
  let lc := if x.place = 2 then 0 else max x.lc r.lc
  let stop := if writeWaits s k x then x.expiry else gtOf s + leaseTicks lc
  let s := if r.reader.fills then
      modLine s k x.asid x.line fun y => { y with expiry := max y.expiry stop }
    else s
  match r.reader with
  | .prefetch true => { s with requests := mapErase s.requests id }
  | .fetch _ => { s with requests := mapErase s.requests id }
  | _ =>
    let lcl := if x.place = 2 then 0 else x.lc
    let stage := ReqStage.answered x.data (if r.reader.fills then stop else 0) lcl x.vers x.poison
    { s with requests := mapPut s.requests id { r with stage := stage } }

/-- An irrevocable lane's read holds its sector at once, unless another's lock stands there (R336). -/
def holdRead (s : State) (k : Nat) (r : Request) : Option State :=
  match r.reader with
  | .irrev g _ l sector =>
    let ls := (sliceAt s k).locks
    if ls.any fun x => x.write && x.asid = r.asid && x.sector = sector && !(x.gid = g && x.lane = l) then none
    else if ls.any fun x => x.asid = r.asid && x.sector = sector && x.gid = g && x.lane = l then some s
    else some (modSlice s k fun sl => { sl with locks := sl.locks ++ [⟨r.asid, sector, g, l, false, true⟩] })
  | _ => some s

/-- Whether stores of a core that have left its L1 are still on their way to a line that a load of the core reads:
the load returns them (R132). An irrevocable hold, which would hold them back for good, ends the wait. -/
def ownStores (s : State) (k id : Nat) (r : Request) : Bool :=
  let load : Bool := match r.reader with
    | .l1 .. | .noAlloc .. | .prefetch false => true
    | _ => false
  load && !((sliceAt s k).locks.any fun l => l.irrev && l.asid = r.asid && l.sector / 4 = r.line) &&
  s.pubs.any fun e => decide (e.1 < max id r.after) && e.2.core = r.core && e.2.asid = r.asid && !e.2.sp &&
    e.2.sender.publishes && e.2.touched.any fun t => t.1 = r.line

/-- Whether a read returns bytes to its core. -/
def Reader.returns : Reader → Bool
  | .fetch _ => false
  | .prefetch l2 => !l2
  | .walk => false
  | _ => true

/-- Whether two requests are reads of one line by one core, both of which return bytes. -/
def sameRead (r q : Request) : Bool :=
  q.core = r.core && q.asid = r.asid && q.line = r.line && q.reader.returns && r.reader.returns

/-- Whether an earlier read of its core's, of the same line, has not arrived, or has arrived before it and has not been
answered: the slice answers one core's reads of one line in order (R276). -/
def readWaits (s : State) (k id : Nat) (r : Request) (arrives : Bool) : Bool :=
  if arrives then s.requests.any fun e => decide (e.1 < id) && sameRead r e.2 && e.2.stage = .sent
  else ((sliceAt s k).waiting.takeWhile (· ≠ id)).any fun j =>
    match mapFind s.requests j with
    | some q => sameRead r q
    | none => false

/-- A PREF.RES at its slice: it ends once its block holds the translation, or begins a walk (R149). -/
def serveWalk (s : State) (k id : Nat) (r : Request) : Option State :=
  match findMiss (sliceAt s k) r.asid r.line, tlbHit s k r.asid r.line false with
  | some _, _ => none
  | none, some _ =>
    some { modSlice s k (fun sl => { sl with waiting := sl.waiting.filter (· ≠ id) }) with
      requests := mapErase s.requests id }
  | none, none => some (startWalk s k r.lid r.asid r.line false true false true)

/-- What a request that has arrived does at its slice: it joins or starts a line fill, and is answered once the line is
there (R77). -/
def serveHere (s : State) (k id : Nat) (r : Request) : Option State :=
  let first := r.hintFirst || (match r.reader with | .l1 _ _ _ f => f | _ => false)
  match findL2 (sliceAt s k) r.asid r.line with
  | none =>
    match findMiss (sliceAt s k) r.asid r.line with
    | some m =>
      if m.nofill || m.walkOnly then some (startMiss s k r.lid r.asid r.line m.write false first) else none
    | none => some (startMiss s k r.lid r.asid r.line false false first)
  | some x =>
    match lineReady s k x r.lid first with
    | (true, _) =>
      if readSealed s k r.asid r.line 0xF || ownStores s k id r || readWaits s k id r false then none
      else (holdRead s k r).map fun s => answerRead s k id r x
    | (false, o) => o

/-- SLICE_FILL_REQUEST: a read request reaches its slice, where it waits for its turn, or goes on (R77, R135, R276). -/
def serveRead (s : State) (id : Nat) : Option State :=
  match mapFind s.requests id with
  | none => none
  | some r =>
    let k := sliceOf s r.lid r.asid (r.line * 128)
    let arrives : Bool := r.stage = .sent
    let waits : Bool := r.stage = .waiting
    if (sliceAt s k).gated || !(arrives || waits) ||
        (arrives && ((!r.reader.isFetch && !hasEntry s r.core id) || readWaits s k id r true)) then none
    else
      let r := { r with stage := .waiting }
      let s := if arrives then
          let s := { s with requests := mapPut s.requests id r }
          modSlice s k fun sl => { sl with waiting := sl.waiting ++ [id] }
        else s
      let goOn := if r.reader = .walk then serveWalk s k id r else serveHere s k id r
      if arrives then some (goOn.getD s) else goOn

def execSliceFillRequest (req : Nat) (s : State) : Out := .next ((serveRead s req).getD s)

end Sys2Proof.Machine
end

