-- ==== Sys2Proof/Machine/Apply.lean ====
section
/-! DEFINITION. Apply.lean: operations at the slices: their arrival, the leases, floors and holds they wait
for, and their application by the crucible; fills at the L1; probes and fence markers (R68, R78, R79, R82,
R83, R92, R93, R131, R148, R152 to R157, R261, R281, R390, R391). -/

namespace Sys2Proof.Machine

/-! ## What an operation finds at a line -/

/-- An operation's use of one line: the bytes it touches, whether it writes, whether it writes them without
reading (R76), and whether it is a CAS, RED or XRED (R92). -/
structure Touch where
  lid : Nat
  asid : Nat
  line : Nat
  mask : BitVec 128
  writes : Bool
  plain : Bool
  atomic : Bool
  first : Bool
deriving Repr, Inhabited

/-- Whether a line is ready: yes; not yet; or not yet, and something it needs has been begun. -/
inductive Ready where
  | yes | no
  | go (s : State)

/-- Sectors of a mask of which every byte is named. -/
def wholeSectors (m : BitVec 128) : BitVec 4 :=
  maskOf 4 ((List.range 4).filter fun i => bits m.toNat (32 * i) 32 = 2 ^ 32 - 1)

/-- Halves of a line that a mask names. -/
def halvesOf (m : BitVec 128) : List Nat := (List.range 2).filter fun i => bits m.toNat (64 * i) 64 ≠ 0

/-- The sectors that must be valid before the operation (R76). -/
def Touch.needs (t : Touch) : BitVec 4 :=
  if t.plain then sectorsOf t.mask &&& ~~~(wholeSectors t.mask) else sectorsOf t.mask

/-- Whether a half of a host line is held as the operation needs it (R87, R92). -/
def halfOk (x : L2Line) (t : Touch) (i : Nat) : Bool :=
  match x.mesi i with
  | .i => false
  | .s => !t.writes || (t.atomic && !x.sa)
  | _ => true

/-- Host lines: each half that is not held as needed is asked for, for a write by RdOwn. -/
def hostReady (s : State) (k : Nat) (x : L2Line) (t : Touch) : Ready :=
  let lacking := (halvesOf t.mask).filter fun i => !halfOk x t i || (x.mesi i = .i)
  if lacking.isEmpty then .yes
  else
    match lacking.findSome? fun i => askHalf s k x i t.writes with
    | some s => .go s
    | none => .no

/-- Locks and holds of others on the sectors that are touched: a write waits for each, a read for those of a commit that
has taken its stamp (R326 to R328, R336). -/
def heldSectors (s : State) (k : Nat) (t : Touch) (mine : Lock → Bool) : Bool :=
  (sliceAt s k).locks.any fun l =>
    l.asid = t.asid && l.sector / 4 = t.line && hasBit (sectorsOf t.mask) (l.sector % 4) && !mine l &&
      (t.writes || lockSealed s l)

/-- Leases and floors that a write waits for (R78, R80). -/
def leaseOver (s : State) (k : Nat) (x : L2Line) : Bool :=
  let sl := sliceAt s k
  decide (x.expiry ≤ gtOf s) &&
  (x.noFloor || (decide (sl.floor0 ≤ gtOf s) && (x.place = 2 || decide (sl.floor ≤ gtOf s))))

/-- The halves of exposed frames that the host holds are asked back before a write (R91, R93). -/
def hostCleared (s : State) (k : Nat) (x : L2Line) (t : Touch) : Ready :=
  match homeOf (partAt s (slicePart s k)) x.pa with
  | some (.hbm a) =>
    let held := (exposedHeld s a false).filter fun e => (halvesOf t.mask).contains (e.1 % 2)
    if held.isEmpty then .yes
    else
      match backInvalidate s held true with
      | some s => .go s
      | none => .no
  | _ => .yes

/-- Whether the operation may act on a line now. -/
def readyLine (s : State) (k : Nat) (t : Touch) (mine : Lock → Bool) : Ready :=
  let fill := fun (write nofill : Bool) => startMiss s k t.lid t.asid t.line write nofill t.first
  match findL2 (sliceAt s k) t.asid t.line, findMiss (sliceAt s k) t.asid t.line with
  | none, none => .go (fill t.writes (t.needs = 0))
  | none, some m => if m.nofill && t.needs ≠ 0 then .go (fill m.write false) else .no
  | some x, miss =>
    if x.place ≠ 2 && t.needs &&& ~~~x.valid ≠ 0 then
      if miss.isNone then .go (fill t.writes false) else .no
    else if t.writes && !x.wok then (if miss.isNone then .go (fill true true) else .no)
    else
      match (if x.place = 2 then hostReady s k x t else .yes) with
      | .yes =>
        if (t.writes && !leaseOver s k x) || heldSectors s k t mine then .no
        else if t.writes then hostCleared s k x t
        else .yes
      | r => r

/-- Whether it may act on all its lines: none of the answers of `readyLine` is worse than `yes`. -/
def readyLines (s : State) (k : Nat) (mine : Lock → Bool) : List Touch → Ready
  | [] => .yes
  | t :: ts =>
    match readyLine s k t mine with
    | .yes => readyLines s k mine ts
    | .go s => .go s
    | .no =>
      match readyLines s k mine ts with
      | .go s => .go s
      | _ => .no

/-! ## Writing a line (R79, R92) -/

/-- The VER of a sector after an application under a stamp (R79). -/
def nextVer (old : BitVec 48) (stamp : Nat) : BitVec 48 :=
  let v := BitVec.ofNat 48 (max (stamp % 2 ^ 48) (old.toNat + 1))
  if v = 0 then 1 else v

/-- Bytes are applied to a line: valid, dirty, stamped; a poisoned sector stays so unless it is written
whole. A host half becomes M; one held in S keeps the bytes for the merge. -/
def applyBytes (x : L2Line) (data : Line) (mask : BitVec 128) (stamp : Nat) : L2Line :=
  let secs := sectorsOf mask
  let merge := if x.place = 2 then
      (halvesOf mask).foldl (fun m i =>
        if x.mesi i = .s then m ||| (mask &&& byteRange (64 * i) 64) else m) x.merge
    else x.merge
  let x := { x with
    data := mergeLine x.data data mask
    valid := x.valid ||| secs
    dirty := x.dirty ||| secs
    vers := x.vers.mapIdx fun i v => if hasBit secs i then nextVer v stamp else v
    poison := x.poison &&& ~~~(wholeSectors mask)
    merge := merge
    hold := 0 }
  if x.place = 2 then
    (halvesOf mask).foldl (fun x i => if x.mesi i = .e then x.setMesi i .m else x) x
  else x

/-- An application outside the launch's SNAP ranges, or to a page that is never snapshotted, makes the
launch unreplayable (R393). -/
def noteApplied (s : State) (lid va place : Nat) : State :=
  let l := launchAt s lid
  let covered : Bool := match rangeOf l va with
    | some r => r.snap
    | none => false
  if covered && place ≤ 1 then s else markUnreplayable s lid

/-- Applies bytes to a line of a slice; a half that was held in S then asks for ownership (R92). -/
def writeLine (s : State) (k lid asid line : Nat) (data : Line) (mask : BitVec 128) (stamp : Nat) : State :=
  let s := modLine s k asid line fun x => applyBytes x data mask stamp
  match findL2 (sliceAt s k) asid line with
  | none => s
  | some x =>
    let s := noteApplied s lid (line * 128) x.place
    if x.place = 2 then
      (halvesOf mask).foldl (fun s i =>
        if x.mesi i = .s then (askHalf s k x i true).getD s else s) s
    else s

/-- `n` bytes of a slice's lines from an address. -/
def sliceRead (s : State) (k asid : Nat) (va : Nat) : Nat → Nat
  | 0 => 0
  | n + 1 =>
    let b := match findL2 (sliceAt s k) asid (va / 128) with
      | some x => (lineByte x.data (va % 128)).toNat
      | none => 0
    b + 256 * sliceRead s k asid (va + 1) n

/-- Writes `n` bytes across a slice's lines. -/
def sliceWrite (s : State) (k lid asid va n x stamp : Nat) : State :=
  (List.range ((va % 128 + n + 127) / 128)).foldl (fun s i =>
    let lo := max va ((va / 128 + i) * 128)
    let hi := min (va + n) ((va / 128 + i + 1) * 128)
    let d := bits x (8 * (lo - va)) (8 * (hi - lo))
    writeLine s k lid asid (lo / 128) (BitVec.ofNat 1024 (d <<< (8 * (lo % 128))))
      (byteRange (lo % 128) (hi - lo)) stamp) s

/-! ## The crucible (R82) -/

/-- Core cycles that an operation occupies the crucible. -/
def occupancy : SliceKind → Nat
  | .write _ m => ((List.range 4).filter fun i => hasBit (sectorsOf m) i).length
  | .xred cell .. => if cell = .f32 then 2 else 12
  | .xfin ty .. => if ty = .f32 then 2 else 12
  | .tileAdd exact vs => if exact then 2 * vs.length else (vs.length + 7) / 8
  | _ => 1

/-- Whether an operation uses the bytes it finds (R391). -/
def SliceKind.reads : SliceKind → Bool
  | .write .. => false
  | .stx .. => false
  | _ => true

/-- The lines an operation touches, as the slice sees them. -/
def touchesOf (p : Pub) : List Touch :=
  let plain : Bool := match p.kind with
    | .write .. => true
    | _ => false
  let atomic : Bool := match p.kind with
    | .cas .. => true
    | .red .. => true
    | .xred .. => true
    | _ => false
  let exactly := fun (t : Nat × BitVec 128) =>
    match p.kind with
    | .write _ m => m
    | _ => t.2
  p.touched.map fun t =>
    ⟨p.lid, p.asid, t.1, exactly t, p.kind.writes, plain, atomic, p.first⟩

/-- What an operation does to the bytes, and what it returns: the lane, the value, the flags. -/
def crucible (s : State) (k : Nat) (p : Pub) : State × Option (Nat × Word × FF) :=
  let gt := gtOf s
  let read := fun (n : Nat) => sliceRead s k p.asid p.va n
  let put := fun (n x : Nat) => sliceWrite s k p.lid p.asid p.va n x gt
  match p.kind with
  | .write d m => (writeLine s k p.lid p.asid (p.va / 128) d m gt, none)
  | .cas ty e n lane =>
    let w := read (bytesOf ty)
    match casApply ty w e n with
    | some x =>
      let s := put (bytesOf ty) x
      let s := match p.sender.group with
        | some g => clearBackoff s g lane
        | none => s
      (s, some (lane, oldValue ty w, 0))
    | none => (s, some (lane, oldValue ty w, 0))
  | .red op ty v lane =>
    let w := read (bytesOf ty)
    (put (bytesOf ty) (redApply op ty w v.toNat), some (lane, oldValue ty w, 0))
  | .xred cell src vs =>
    let n := cellBytes cell
    (put n (vs.foldl (cellAdd cell src) (read n)), none)
  | .xfin ty rnd lane =>
    let r := cellRound ty rnd (read (cellBytes ty))
    (s, some (lane, BitVec.ofNat 64 r.1, r.2))
  | .tileAdd exact vs =>
    let n := if exact then 64 else 4
    let old := read (n * vs.length)
    let new := (vs.zipIdx).foldl (fun acc e =>
      let c := bits old (8 * n * e.2) (8 * n)
      let r := if exact then cellAdd .f32 .none c (e.1.setWidth 64) else tileAdd c e.1
      acc + r * 2 ^ (8 * n * e.2)) 0
    (put (n * vs.length) new, none)
  | _ => (s, none)

/-- Whether an operation reads a poisoned sector, or a poisoned operand. -/
def readsPoison (s : State) (k : Nat) (p : Pub) : Bool :=
  p.kind.reads && (p.poison ≠ 0 || p.touched.any fun t =>
    match findL2 (sliceAt s k) p.asid t.1 with
    | some x => x.poison &&& sectorsOf t.2 ≠ 0
    | none => false)

/-- The operation of the item that sent it consumes poison. -/
def consumePoison (s : State) (p : Pub) : State :=
  match p.sender with
  | .item g op l => deferPoison s g op 0 l p.va
  | .matrix g c q n => deferPoison s g (((matOpAt (quartAt s (quartNo c q)) n).map (·.op)).getD 0) 1 0 p.va
  | _ => s

/-- Poison travels with data that are written (R390). -/
def carryPoison (s : State) (k asid line : Nat) (sectors : BitVec 4) : State :=
  if sectors = 0 then s else modLine s k asid line fun x => { x with poison := x.poison ||| sectors }

/-- The key of a die's fence counter for a group (R281). -/
def fenceKey (gid die : Nat) : Nat := 8 * gid + die

/-- The counter that counts an operation, if one does: on another die than its core's. -/
def fenceOf (s : State) (p : Pub) : Option Nat :=
  let d := dieOf (pubSlice s p)
  if p.sp || d = coreDie p.core then none else p.sender.counted.map fun g => fenceKey g d

def bumpFence (s : State) (p : Pub) (f : Nat → Nat) : State :=
  match fenceOf s p with
  | some n => { s with fences := mapSet 0 s.fences n (f (mapGet 0 s.fences n)) }
  | none => s

/-- An operation that has been applied leaves: its source learns it. -/
def leavePub (s : State) (k id : Nat) (p : Pub) (r : Option (Nat × Word × FF)) : State :=
  let s := bumpFence s p (· - 1)
  let s := modSlice s k fun sl => { sl with waiting := sl.waiting.filter (· ≠ id) }
  match r with
  | some (lane, x, ff) => finishItem s id p lane (some x) ff
  | none => finishItem s id p 0 none 0

/-- Locks that do not hold back an operation: an irrevocable lane's, while its own commit's release waits for that
operation (R336). That release comes before the commit, and the commit ends the hold (log entry 75). -/
def ownLock (s : State) (id : Nat) (l : Lock) : Bool :=
  let r := (grpAt s l.gid).round
  l.irrev && r.stage = .releasing && r.lanes.contains l.lane &&
    match mapFind s.releases r.rel with
    | some rel => rel.pubs.contains id
    | none => false

/-- Whether the crucible of a slice can take an operation now; and that it takes one, for some core cycles (R82). -/
def crucibleFree (s : State) (k : Nat) : Bool := !(sliceAt s k).gated && decide ((sliceAt s k).busy ≤ s.cycle)
def useCrucible (s : State) (k cycles : Nat) : State := modSlice s k fun x => { x with busy := s.cycle + cycles }

/-- Whether an operation is the first of those that have arrived on each of its lines, the host's writes and
invalidations among them (R78). -/
def itsTurn (s : State) (k id : Nat) (p : Pub) : Bool :=
  (((sliceAt s k).waiting.takeWhile (· ≠ id)).all fun j =>
    match mapFind s.pubs j with
    | some q => !(q.asid = p.asid && q.touched.any fun a => p.touched.any fun b => a.1 = b.1)
    | none => true) &&
  p.touched.all fun t =>
    match findL2 (sliceAt s k) p.asid t.1 with
    | some x => !hostFirst s k x id
    | none => true

/-- An operation that has arrived is applied, or begins what it needs first. -/
def applyPub (s : State) (k id : Nat) : Option State :=
  match mapFind s.pubs id with
  | none => none
  | some p =>
    let queued : Bool := p.stage = PubStage.queued
    if !queued || p.sp || pubSlice s p ≠ k || !crucibleFree s k || !itsTurn s k id p then none
    else
      match readyLines s k (ownLock s id) (touchesOf p) with
      | .no => none
      | .go s => some s
      | .yes =>
        let s := if readsPoison s k p then consumePoison s p else s
        let s := useCrucible s k (occupancy p.kind)
        let (t, r) := crucible s k p
        let t := if p.kind.reads then t else carryPoison t k p.asid (p.va / 128) p.poison
        some (leavePub (if isShadow s p.lid then s else t) k id p r)

/-- Applies an operation if it is of the kind that a step is about. -/
def applyKind (s : State) (k id : Nat) (ok : SliceKind → Bool) : Out :=
  match mapFind s.pubs id with
  | some p => if ok p.kind then .next ((applyPub s k id).getD s) else .next s
  | none => .next s

/-- WRITE_APPLY (R78). -/
def execWriteApply (slice id : Nat) (s : State) : Out :=
  applyKind s slice id fun k => match k with | .write .. => true | _ => false
/-- CRUCIBLE_CAS (R154). -/
def execCrucibleCas (slice id : Nat) (s : State) : Out :=
  applyKind s slice id fun k => match k with | .cas .. => true | _ => false
/-- CRUCIBLE_RED (R155). -/
def execCrucibleRed (slice id : Nat) (s : State) : Out :=
  applyKind s slice id fun k => match k with | .red .. => true | _ => false
/-- CRUCIBLE_XRED (R156). -/
def execCrucibleXred (slice id : Nat) (s : State) : Out :=
  applyKind s slice id fun k => match k with | .xred .. => true | _ => false
/-- CRUCIBLE_XFIN (R157). -/
def execCrucibleXfin (slice id : Nat) (s : State) : Out :=
  applyKind s slice id fun k => match k with | .xfin .. => true | _ => false
/-- TILE_ADD_ON_STORE (R261). -/
def execTileAddOnStore (slice id : Nat) (s : State) : Out :=
  applyKind s slice id fun k => match k with | .tileAdd .. => true | _ => false

/-! ## Arrival (R78, R135, R148, R152, R281) -/

/-- LDX and STX are applied as they arrive; past the carved size a read gives zeros, a store is
discarded, and the slice posts an event (R85, R148). -/
def carvedApply (s : State) (k id : Nat) (p : Pub) : State :=
  let part := partAt s p.part
  let past := fun (n : Nat) => decide (carvedBytes part < p.va + n)
  let event := fun (s : State) => { s with toHost := s.toHost ++ [.event (k * Config.coresPerCluster)] }
  match p.kind with
  | .ldx n lane ty =>
    if past n then leavePub (event s) k id p (some (lane, 0, 0))
    else
      let s := if part.carvedPoison.any fun w => w / 4 = p.va / 32 then consumePoison s p else s
      leavePub s k id p (some (lane, loadExt ty n (memReadLE part.carved p.va n), 0))
  | .stx x n =>
    if past n then leavePub (event s) k id p none
    else
      let s := modPart s p.part fun q => { q with
        carved := memWriteLE q.carved p.va n x.toNat
        carvedVer := mapPut q.carvedVer (p.va / 32) (nextVer (mapGet 0 q.carvedVer (p.va / 32)) (gtOf s))
        carvedPoison := (if p.poison = 0 then [] else [p.va / 8]) ++
          q.carvedPoison.filter fun w => !(p.va ≤ 8 * w && decide (8 * w + 8 ≤ p.va + n)) }
      leavePub (markUnreplayable s p.lid) k id p none
  | _ => s

/-- An SP form of a .REL update, at the team's scratchpad (R152). -/
def bankApply (s : State) (id gid : Nat) (p : Pub) : Option State :=
  let n := updateBytes p.kind
  let lane := match p.sender with
    | .item _ _ l => l
    | _ => 0
  let far := farOffset s gid p.va
  let core := if far then (if p.core % 2 = 0 then p.core + 1 else p.core - 1) else p.core
  if scratchBlocked s gid n p.kind.writes [(lane, p.va)] || decide (s.cycle < (coreAt s core).banks) then none
  else
    let s := (takeBanks s core (bankCycles p.kind)).1
    let s := if p.poison ≠ 0 || scratchBad s (grpAt s gid).team p.va n then consumePoison s p else s
    let (s, r) := spApply s gid p.va p.kind
    some (match r with
      | some (l, x, ff) => finishItem s id p l (some x) ff
      | none => finishItem s id p 0 none 0)

/-- Whether an earlier operation of the core is still on its way to a line of this one. -/
def behind (s : State) (p : Pub) : Bool :=
  s.pubs.any fun e =>
    let q := e.2
    q.core = p.core && q.stage = PubStage.travelling && decide (q.seq < p.seq) && q.sp = p.sp &&
    (if p.sp then q.sender.group = p.sender.group
     else q.asid = p.asid && q.touched.any fun a => p.touched.any fun b => a.1 = b.1)

/-- PUBLICATION_ARRIVE: an operation reaches its slice, and waits there for its turn. An update marks the
sectors it touches invalid in its core's L1 (R152 step 3). -/
def arrivePub (s : State) (id : Nat) : Option State :=
  match mapFind s.pubs id with
  | none => none
  | some p =>
    let k := pubSlice s p
    let travels : Bool := p.stage = PubStage.travelling
    let full : Bool := match fenceOf s p with
      | some n => decide (1023 ≤ mapGet 0 s.fences n)
      | none => false
    if !travels || behind s p then none
    else if p.sp then bankApply s id ((p.sender.group).getD 0) p
    else if (sliceAt s k).gated || full || !hasEntry s p.core p.seq then none
    else
      let s := bumpFence s p (· + 1)
      let carved : Bool := match p.kind with
        | .stx .. => true
        | .ldx .. => true
        | _ => false
      if carved then some (carvedApply s k id p)
      else
        let s := if p.kind.reads then
            p.touched.foldl (fun s t => modL1 s p.core p.asid t.1 fun x =>
              { x with sv := x.sv &&& ~~~(sectorsOf t.2), poison := x.poison &&& ~~~(sectorsOf t.2) }) s
          else s
        let s := { s with pubs := mapPut s.pubs id { p with stage := PubStage.queued } }
        some (modSlice s k fun sl => { sl with waiting := sl.waiting ++ [id] })

def execPublicationArrive (id : Nat) (s : State) : Out := .next ((arrivePub s id).getD s)

/-! ## Releases, markers and probes (R68, R281) -/

/-- RELEASE_COMPLETE: a release goes on to its next stage, at the last to its completion. -/
def execReleaseComplete (rel : Nat) (s : State) : Out := .next ((advanceRelease s rel).getD s)

/-- FENCE_MARKER: the switch of a die answers a release's marker once every publication of the group that
crossed before it has been applied (R281). -/
def answerMarker (s : State) (rel die : Nat) : Option State :=
  match mapFind s.releases rel with
  | none => none
  | some r =>
    let sent : Bool := r.stage = RelStage.sent
    let before := s.pubs.any fun e =>
      let p := e.2
      let gone : Bool := p.stage = PubStage.held
      !p.sp && p.sender.counted = some r.gid && dieOf (pubSlice s p) = die && decide (p.seq < r.mark) && !gone
    if !sent || !r.markers.contains die || before then none
    else some (setRelease s rel { r with markers := r.markers.filter (· ≠ die) })

def execFenceMarker (rel die : Nat) (s : State) : Out := .next ((answerMarker s rel die).getD s)

/-- RESIDENCY_PROBE: the slice tells whether a page is resident; one that is becomes pinned (R65, R68). -/
def answerProbe (s : State) (id : Nat) : Option State :=
  match mapFind s.probes id with
  | none => none
  | some p =>
    if p.answered.isSome || !hasEntry s p.core id then none
    else
      let asid := (launchAt s p.lid).asid
      let va := p.page * 65536
      let k := sliceOf s p.lid asid va
      let s := if (tlbHit s k asid (va / 128) false).isSome then s else walkReads s k asid (va / 128)
      let r := residency s p.lid asid va
      let s := if r = .yes then pinPage s p.lid p.page else s
      some { s with probes := mapPut s.probes id { p with answered := some r } }

def execResidencyProbe (probe : Nat) (s : State) : Out := .next ((answerProbe s probe).getD s)

/-! ## Fills at the L1 (R131, R144, R304, R318) -/

/-- A line that a fill brings is written around the dirty bytes, and holds its lease (R131). -/
def fillL1 (s : State) (gid : Nat) (r : Request) (d : Line) (stop lc : Nat) (vers : List (BitVec 48))
    (poison : BitVec 4) (first : Bool) : Option State :=
  (makeRoom s r.core gid r.asid r.line).map fun s =>
    let s := if (findL1 (coreAt s r.core) r.asid r.line).isSome then s
      else modCore s r.core fun c =>
        { c with l1 := c.l1 ++ [{ (default : L1Line) with asid := r.asid, line := r.line, lid := r.lid }] }
    modL1 s r.core r.asid r.line fun x =>
      { x with data := mergeLine d x.data x.dm, sv := 0xF#4, stop := stop, lc := lc, vers := vers
               wordPoison := x.wordPoison &&& wordsOf x.dm
               poison := poison, first := x.first || first }

/-- Completes the read record that a lane's access left open (R304, R318). -/
def fixRecord (s : State) (gid : Nat) (a : LaneAcc) (d : Line) (vers : List (BitVec 48)) : State :=
  match a.fix with
  | none => s
  | some (dd, dm) =>
    let i := a.va % 128 / 32
    let h := sectorHash (mergeSector (sectorData d i) dd dm)
    let ver := if dm = 0 then vers.getD i 0 else 0
    let set := fun (rs : List ReadRec) => rs.map fun r =>
      if !r.scr && r.sector = a.va / 32 then { r with ver := ver, hash := h } else r
    if (grpAt s gid).speculates then
      modGrp s gid fun g => { g with spec := { g.spec with reads := set g.spec.reads } }
    else modThread s gid a.lane fun t => { t with tx := { t.tx with reads := set t.tx.reads } }

/-- The bytes of a line serve one access. -/
def serveAcc (s : State) (gid op : Nat) (d : Opnd) (data : Line) (vers : List (BitVec 48))
    (poison : BitVec 4) (a : LaneAcc) : State :=
  let x := overBytes a.n a.data.toNat a.taken (lineRead data (a.va % 128) a.n)
  let s := fixRecord s gid a data vers
  let s := if hasBit poison (a.va % 128 / 32) && a.taken ≠ fullMask a.n && !((grpAt s gid).descr.any fun o => o.id = op) then
      deferPoison s gid op 0 a.lane a.va
    else s
  modGrp s gid fun g => modOp g op fun o =>
    let lowest := (lanesOf 64 o.lanes).headD 0
    match o.kind with
    | .descr base got bad accs =>
      { o with kind := .descr base (got ||| descBytes base [{ a with data := BitVec.ofNat 64 x }])
                 (bad || (hasBit poison (a.va % 128 / 32) && a.taken ≠ fullMask a.n))
                 (accs.filter fun b => b.va ≠ a.va) }
    | .load d' accs =>
      { o with kind := .load d' (accs.filter fun b => !(b.lane = a.lane && b.va = a.va))
               writes := o.writes ++ resultWrite d lowest a.lane (loadExt a.ty a.n x) }
    | _ => o

/-- The accesses that wait for a request: group, instruction, destination, access. -/
def joined (s : State) (id : Nat) : List (Nat × Nat × Opnd × LaneAcc) :=
  s.groups.flatMap fun e => e.2.ops.flatMap fun o =>
    match o.kind with
    | .load d accs => (accs.filter fun a => a.req = some id).map fun a => (e.1, o.id, d, a)
    | .descr _ _ _ accs => (accs.filter fun a => a.req = some id).map fun a => (e.1, o.id, .zero, a)
    | _ => []

def serveAll (s : State) (id : Nat) (d : Line) (vers : List (BitVec 48)) (poison : BitVec 4) : State :=
  (joined s id).foldl (fun s j => serveAcc s j.1 j.2.1 j.2.2.1 d vers poison j.2.2.2) s

/-- Whether an earlier fill of a line is still on its way to its core: fills of one line return in order. -/
def fillBefore (s : State) (id : Nat) (r : Request) : Bool :=
  r.reader.fills && s.requests.any fun e => decide (e.1 < id) && e.2.reader.fills && sameRead r e.2

/-- FILL_RETURN: the answer to a request of the L1, or of a read that takes no lease, reaches its core
(R131). -/
def fillReturn (s : State) (id : Nat) : Option State :=
  match mapFind s.requests id with
  | none => none
  | some r =>
    match r.stage with
    | .answered d stop lc vers poison =>
      if fillBefore s id r then none
      else
      let finish := fun (s : State) =>
        let s := serveAll s id d vers poison
        { s with requests := mapErase s.requests id }
      match r.reader with
      | .l1 g _ _ first => (fillL1 s g r d stop lc vers poison first).map finish
      | .prefetch false =>
        let g := ((s.groups.find? fun e => e.2.core = r.core).map (·.1)).getD 0
        (fillL1 s g r d stop lc vers poison false).map finish
      | .prefetch true => some (finish s)
      | .noAlloc .. => some (finish s)
      | .irrev .. => some (finish s)
      | _ => none
    | _ => none

def execFillReturn (req : Nat) (s : State) : Out := .next ((fillReturn s req).getD s)

end Sys2Proof.Machine
end

