-- ==== Sys2Proof/Machine/HostLink.lean ====
section
/-! DEFINITION. HostLink.lean: snoops of the host and its accesses to exposed frames, its answers, carve
changes, and the request counters as the management core writes them (R73, R84, R85, R87 to R93). -/

namespace Sys2Proof.Machine

def say (s : State) (m : HostMsg) : State := { s with toHost := s.toHost ++ [m] }

/-! ## Snoops (R89) -/

/-- The halves held of a 64-byte half of host memory: slice, line, which half. -/
def holdersOf (s : State) (half : Nat) : List (Nat × L2Line × Nat) :=
  s.slices.flatMap fun e => e.2.lines.flatMap fun x =>
    if x.place ≠ 2 then []
    else ((List.range 2).filter fun i => hostHalf x.pa + i = half && x.mesi i ≠ .i).map fun i => (e.1, x, i)

/-- Locks and holds on the sectors of a half: write locks only, or all. -/
def halfLocked (s : State) (k : Nat) (x : L2Line) (i : Nat) (all : Bool) : Bool :=
  (sliceAt s k).locks.any fun l =>
    l.asid = x.asid && l.sector / 4 = x.line && l.sector % 4 / 2 = i && (l.write || all)

def halfData (x : L2Line) (i : Nat) : BitVec 512 := x.data.extractLsb' (512 * i) 512
def halfPoison (x : L2Line) (i : Nat) : Bool := x.poison &&& BitVec.ofNat 4 (3 * 4 ^ i) ≠ 0

/-- The holder in M, if there is one, and the data that the answer carries. -/
def modifiedOf (hs : List (Nat × L2Line × Nat)) : Option (BitVec 512 × Bool) :=
  (hs.find? fun h => h.2.1.mesi h.2.2 = .m).map fun h => (halfData h.2.1 h.2.2, halfPoison h.2.1 h.2.2)

/-- Answers a snoop: the response without data, and with; data that leave M reach host memory. -/
def answerSnoop (s : State) (hpa : Nat) (hs : List (Nat × L2Line × Nat)) (plain forwarded : String)
    (keep : Bool) : State :=
  match modifiedOf hs with
  | some (d, poison) =>
    let s := say s (.snoop hpa forwarded (some d) poison)
    if keep then s else { s with hostMem := memWriteLE s.hostMem (hpa / 64 * 64) 64 d.toNat }
  | none => say s (.snoop hpa (if hs.isEmpty then "RspIHitI" else plain) none false)

/-- Changes the halves of a snoop's holders. -/
def setHolders (s : State) (hs : List (Nat × L2Line × Nat)) (f : Nat → L2Line → L2Line) : State :=
  hs.foldl (fun s h => modLine s h.1 h.2.1.asid h.2.1.line (f h.2.2)) s

def shareHalf (i : Nat) (x : L2Line) : L2Line :=
  let secs : BitVec 4 := BitVec.ofNat 4 (3 * 4 ^ i)
  { x.setMesi i .s with dirty := x.dirty &&& ~~~secs }

/-- Whether an operation that had arrived at a line before a write or an invalidation of the host still waits there
(R78). -/
def earlierWaits (s : State) (o : HostOp) (k : Nat) (x : L2Line) : Bool :=
  (waitersOf s k x.asid x.line).any (foundBefore s o).contains

/-- SnpInv on a half that is valid is a write: it waits for what arrived before it, but not for an operation that
itself waits for the half's ownership, which the host grants only after the snoop (R78, R89; log entry 67). -/
def trySnpInv (s : State) (hpa : Nat) : Option State :=
  let hs := holdersOf s (hpa / 64)
  let waits := hs.any fun (k, x, i) =>
    ((x.ask i).isNone && earlierWaits s (.snpInv hpa) k x) || decide (gtOf s < x.expiry) || decide (gtOf s < (sliceAt s k).floor0) || decide (s.cycle < x.hold) ||
      halfLocked s k x i true
  if waits then none
  else some (setHolders (answerSnoop s hpa hs "RspIHitSE" "RspIFwdM" false) hs loseHalf)

def trySnpData (s : State) (hpa : Nat) : Option State :=
  let hs := holdersOf s (hpa / 64)
  let waits := hs.any fun (k, x, i) =>
    decide (s.cycle < x.hold) || (x.mesi i = .m && halfLocked s k x i false)
  if waits then none
  else some (setHolders (answerSnoop s hpa hs "RspSHitSE" "RspSFwdM" false) hs shareHalf)

def trySnpCur (s : State) (hpa : Nat) : Option State :=
  let hs := holdersOf s (hpa / 64)
  let waits := hs.any fun (k, x, i) =>
    decide (s.cycle < x.hold) || (x.mesi i = .m && halfLocked s k x i false)
  if waits then none else some (answerSnoop s hpa hs "RspVHitV" "RspVFwdV" true)

/-! ## Accesses to exposed frames (R91, R405) -/

/-- The copies of a line of HBM that slices hold. -/
def copiesOf (s : State) (a : Nat) : List (Nat × L2Line) :=
  s.slices.flatMap fun e => (e.2.lines.filter fun x =>
    match homeOf (partAt s (slicePart s e.1)) x.pa with
    | some (.hbm b) => b / 128 = a / 128
    | _ => false).map fun x => (e.1, x)

/-- Dirty copies of a line are written back, in an order that is open among synonyms (R52, R91): `none` when none is
dirty; otherwise one step on the way, or a wait. Where a commit that has taken its stamp has locked a sector of the half,
the access waits (R328). -/
def cleanCopies (s : State) (a : Nat) : Option (Option State) :=
  let cs := copiesOf s a
  let ds := cs.filter fun e => e.2.dirty ≠ 0
  if cs.any fun e => readSealed s e.1 e.2.asid e.2.line (BitVec.ofNat 4 (3 * 4 ^ (a / 64 % 2))) then some none
  else if ds.isEmpty then none
  else
    let (i, s) := freeChoice s ds.length
    match ds[i]? with
    | some (k, x) => some ((writeBack s k x).map (·.1))
    | none => some none

/-- The half enters the directory as used last; a full directory gives up the least recently used (R91). -/
def enterDir (s : State) (a hpa : Nat) (owned : Bool) : State :=
  let old := s.biDir.find? fun e => e.1 = a / 64
  let owned := owned || (old.map (·.2.2)).getD false
  { s with biDir := s.biDir.filter (fun e => e.1 ≠ a / 64) ++ [(a / 64, hpa / 64, owned)] }

/-- Whether the directory has no place for a half; if so the oldest is asked back. -/
def dirFull (s : State) (a : Nat) : Option (Option State) :=
  if s.biDir.length < Config.biDirectory || s.biDir.any fun e => e.1 = a / 64 then none
  else some (backInvalidate s (s.biDir.take 1) true)

/-- The poison that a host read returns. -/
def bytePoison (s : State) (a : Nat) : Bool := s.hbmPoison.contains (a / 32)

def tryRead (s : State) (hpa n : Nat) : Option State :=
  match exposed s hpa with
  | none => none
  | some (_, a) =>
    match cleanCopies s a with
    | some o => o
    | none =>
      match dirFull s a with
      | some o => o
      | none =>
        let s := enterDir (countHost (correctLine s a) a) a hpa false
        some (say s (.readData hpa (memReadBytes s.hbm a n) (bytePoison s a || bytePoison s (a + n - 1))))

/-- Whether a copy may be invalidated: as for a write (R78, R91). -/
def mayInvalidate (s : State) (k : Nat) (x : L2Line) : Bool :=
  leaseOver s k x && !((sliceAt s k).locks.any fun l => l.asid = x.asid && l.sector / 4 = x.line)

/-- A host write, or a request for ownership, which writes nothing (R91). -/
def tryOwn (s : State) (hpa : Nat) (o : HostOp) (done : Nat → Nat → State → State) : Option State :=
  match exposed s hpa with
  | none => none
  | some (part, a) =>
    match cleanCopies s a with
    | some o => o
    | none =>
      match dirFull s a with
      | some o => o
      | none =>
        let cs := copiesOf s a
        if cs.any fun e => !mayInvalidate s e.1 e.2 || earlierWaits s o e.1 e.2 then none
        else
          let s := cs.foldl (fun s e => dropLine s e.1 e.2.asid e.2.line) s
          some (done part a (enterDir (countHost s a) a hpa true))

/-- Bytes of the host go to HBM. -/
def putHostBytes (hpa : Nat) (bytes : List Byte) (part a : Nat) (s : State) : State :=
  let s := forgetEntries s a bytes.length
  let s := (bytes.zipIdx).foldl (fun s e => homeWrite s part e.1 (.hbm (a + e.2))) s
  let whole := maskOf 4 ((List.range 4).filter fun i =>
    a ≤ a / 128 * 128 + 32 * i && a / 128 * 128 + 32 * i + 32 ≤ a + bytes.length)
  say (putPoison s a whole 0) (.written hpa)

def tryWrite (s : State) (hpa : Nat) (bytes : List Byte) : Option State :=
  tryOwn s hpa (.write hpa bytes) (putHostBytes hpa bytes)

/-- A request for ownership returns the half (R91). -/
def tryOwnership (s : State) (hpa : Nat) : Option State :=
  tryOwn s hpa (.own hpa) fun _ a s =>
    let s := correctLine s a
    let b := a / 64 * 64
    say s (.readData (hpa / 64 * 64) (memReadBytes s.hbm b 64) (bytePoison s b || bytePoison s (b + 32)))

/-- An access of the host that waits: what it does now, if anything. A clean-up on the way leaves it
waiting, so the answer says whether it has ended. -/
def tryHost (s : State) (o : HostOp) : Option State :=
  match o with
  | .snpInv hpa => trySnpInv s hpa
  | .snpData hpa => trySnpData s hpa
  | .snpCur hpa => trySnpCur s hpa
  | .read hpa n => tryRead s hpa n
  | .write hpa bytes => tryWrite s hpa bytes
  | .own hpa => tryOwnership s hpa

/-- Whether a step of an access has ended it: it has told the host its outcome. -/
def endsHost (s t : State) : Bool :=
  (t.toHost.drop s.toHost.length).any fun m =>
    match m with
    | .snoop .. => true
    | .readData .. => true
    | .written _ => true
    | _ => false

/-- The half that an access concerns. -/
def HostOp.half : HostOp → Nat
  | .snpInv hpa => hpa / 64
  | .snpData hpa => hpa / 64
  | .snpCur hpa => hpa / 64
  | .read hpa _ => hpa / 64
  | .write hpa _ => hpa / 64
  | .own hpa => hpa / 64

/-- The first waiting access that can go on, of those that are the first on their half. -/
def hostStepFrom (s : State) : List HostOp → List HostOp → Option State
  | _, [] => none
  | before, o :: os =>
    let blocked := before.any fun b => b.half = o.half
    match (if blocked then none else tryHost s o) with
    | some t => some (if endsHost s t then
        { t with hostOps := before ++ os, hostBefore := t.hostBefore.filter fun e => e.1 ≠ o } else t)
    | none => hostStepFrom s (before ++ [o]) os
def hostStep (s : State) : Option State := hostStepFrom s [] s.hostOps

/-- The operations that wait at slices on the lines that a write or an invalidation of the host concerns. -/
def hostEarlier (s : State) (o : HostOp) : List Nat :=
  s.slices.flatMap fun e => (e.2.lines.filter fun x => o.writesLine s e.1 x).flatMap fun x =>
    waitersOf s e.1 x.asid x.line

/-- An access of the host arrives, unless it waits already, and the accesses that wait go on. -/
def arriveHost (s : State) (ops : List HostOp) : State :=
  let new := ops.filter fun o => !s.hostOps.contains o
  let found := (new.map fun o => (o, hostEarlier s o)).filter fun e => e.2 ≠ []
  let s := { s with hostOps := s.hostOps ++ new, hostBefore := s.hostBefore ++ found }
  (hostStep s).getD s

/-- SNP_INV, SNP_DATA, SNP_CUR (R89). -/
def execSnpInv (hpa : Nat) (s : State) : Out := .next (arriveHost s [.snpInv hpa])
def execSnpData (hpa : Nat) (s : State) : Out := .next (arriveHost s [.snpData hpa])
def execSnpCur (hpa : Nat) (s : State) : Out := .next (arriveHost s [.snpCur hpa])

/-- The accesses of one half each that make up an access of any length. -/
def splitRead : Nat → Nat → Nat → List HostOp
  | 0, _, _ => []
  | fuel + 1, hpa, n =>
    if n = 0 then []
    else
      let k := min n (64 - hpa % 64)
      .read hpa k :: splitRead fuel (hpa + k) (n - k)
def splitWrite : Nat → Nat → List Byte → List HostOp
  | 0, _, _ => []
  | fuel + 1, hpa, bs =>
    if bs.isEmpty then []
    else
      let k := min bs.length (64 - hpa % 64)
      .write hpa (bs.take k) :: splitWrite fuel (hpa + k) (bs.drop k)

/-- HOST_MEM_READ (R91): an address outside every exposed range has no effect that is given. -/
def execHostMemRead (hpa n : Nat) (s : State) : Out :=
  let ops := splitRead (n + 1) hpa n
  if ops.any fun o => (exposed s (64 * o.half)).isNone then .fault (.unmappedHostAccess hpa)
  else .next (arriveHost s ops)
/-- HOST_MEM_WRITE (R91). -/
def execHostMemWrite (hpa : Nat) (bytes : List Byte) (s : State) : Out :=
  let ops := splitWrite (bytes.length + 1) hpa bytes
  if ops.any fun o => (exposed s (64 * o.half)).isNone then .fault (.unmappedHostAccess hpa)
  else .next (arriveHost s ops)

/-! ## The host's answers (R87, R91 to R93) -/

/-- BI_RESPONSE: the host has given up a half, or holds it shared. -/
def execBiResponse (pa : Nat) (s : State) : Out :=
  match s.biWait.find? fun w => w.1 = pa / 64 with
  | none => .next s
  | some w =>
    let s := { s with biWait := s.biWait.filter (· ≠ w) }
    .next { s with biDir :=
      if w.2 then s.biDir.filter fun e => e.2.1 ≠ w.1
      else s.biDir.map fun e => if e.2.1 = w.1 then (e.1, e.2.1, false) else e }

/-- Whether an atomic on a system-atomic page waits for a line: its half is then held (R93). -/
def atomicWaits (s : State) (k : Nat) (x : L2Line) : Bool :=
  x.sa && (waitersOf s k x.asid x.line).any fun id =>
    match mapFind s.pubs id with
    | some p => match p.kind with
      | .cas .. => true
      | .red .. => true
      | .xred .. => true
      | _ => false
    | none => false

/-- A half takes the data and the state that the host gives; bytes kept for the merge lie over them. RdOwn answers with
E or M, and R87 does not say when with which: here E, and M where bytes kept for the merge lie over the data
(R87, R92; DESIGN CHOICE, log entry 68). -/
def takeHalf (x : L2Line) (i : Nat) (d : BitVec 512) (own : Bool) (hold : Nat) : L2Line :=
  let bytes := byteRange (64 * i) 64
  let data := mergeLine x.data (BitVec.ofNat 1024 (d.toNat <<< (512 * i))) (bytes &&& ~~~x.merge)
  let secs : BitVec 4 := BitVec.ofNat 4 (3 * 4 ^ i)
  let kept := x.merge &&& bytes
  let st : Mesi := if own then (if kept ≠ 0 then .m else .e) else .s
  { (x.setMesi i st).setAsk i none with
    data := data
    valid := x.valid ||| secs
    dirty := if own then x.dirty ||| sectorsOf kept else x.dirty
    vers := if x.mesi i = .i then x.vers.mapIdx fun j v => if hasBit secs j && kept = 0 then 0 else v else x.vers
    poison := if x.mesi i = .i then x.poison &&& ~~~secs else x.poison
    merge := if own then x.merge &&& ~~~bytes else x.merge
    hold := hold }

/-- CXL_READ_RESPONSE: the host answers a RdShared or a RdOwn (R87). -/
def cxlAnswer (s : State) (k hpa : Nat) (d : BitVec 512) (own : Bool) : Option State :=
  ((sliceAt s k).lines.findSome? fun x =>
    ((List.range 2).find? fun i => x.place = 2 && hostHalf x.pa + i = hpa / 64 && (x.ask i).isSome).map
      fun i => (x, i)).map fun (x, i) =>
    let s := { s with hostMem := memWriteLE s.hostMem (hpa / 64 * 64) 64 d.toNat }
    let hold := if x.ask i = some true && own && atomicWaits s k x then s.cycle + 12 else x.hold
    modLine s k x.asid x.line fun y => takeHalf y i d own hold

def execCxlReadResponse (slice : Nat) (hpa : Nat) (data : BitVec 512) (own : Bool) (s : State) : Out :=
  .next ((cxlAnswer s slice hpa data own).getD s)

/-! ## Carved ways (R84, R85) -/

/-- The lines of a partition's slices that lie in ways from `16 - w` up. -/
def linesIn (s : State) (p : Partition) (w : Nat) : List (Nat × L2Line) :=
  p.clusters.flatMap fun k =>
    ((sliceAt s k).lines.filter fun x => Config.cacheWays ≤ x.way + w).map fun x => (k, x)

/-- A carve change ends: the ways are carved or given back, and who asked for it gets the old number. -/
def finishCarve (s : State) (part w : Nat) (who : Option (Nat × Nat)) : State :=
  let old := (partAt s part).ways
  let new := if w ≤ 14 then w else old
  let s := modPart s part fun p =>
    let size := new * 0x180000 * p.count
    { p with
      ways := new
      carved := p.carved.filter fun c => decide (c.1 < size)
      carvedPoison := p.carvedPoison.filter fun w => decide (8 * w < size)
      carvedVer := p.carvedVer.filter fun c => decide (c.1 * 32 < size)
      carveQueue := p.carveQueue.drop 1, carveBusy := false }
  let p := partAt s part
  let s := p.cores.foldl (fun s c => if (mapFind s.cores c).isSome then
    modCore s c fun c => { c with carved := carvedBytes p } else s) s
  match who with
  | none => s
  | some (gid, op) =>
    let res : Word := if w ≤ 14 || w = carveQuery then BitVec.ofNat 64 old else BitVec.allOnes 64
    modGrpIf s gid fun g => modOp g op fun o =>
      match o.kind with
      | .l2way _ d =>
        { o with kind := .ready, writes := destWrites d ((lanesOf 64 o.lanes).map fun l => (l, res)) }
      | _ => o

/-- CARVE_CHANGE_COMPLETE: the change at the head of the queue begins, flushes the ways that it takes, and
ends when they are empty (R85). -/
def carveStep (s : State) (part : Nat) : Option State :=
  let p := partAt s part
  match p.carveQueue with
  | [] => none
  | (w, who) :: _ =>
    if w ≤ p.ways || 14 < w then some (finishCarve s part w who)
    else if !p.carveBusy then some (modPart s part fun p => { p with carveBusy := true })
    else
      match linesIn s p w with
      | [] => some (finishCarve s part w who)
      | ls => ls.findSome? fun e =>
          if !mayEvict s e.1 e.2 then none
          else
            let cost : Nat := if e.2.dirty = 0#4 then 0 else 1
            (evictLine s e.1 e.2).map fun t =>
              modSlice t.1 e.1 fun sl => { sl with busy := max sl.busy s.cycle + cost }

def execCarveChangeComplete (part : Nat) (s : State) : Out := .next ((carveStep s part).getD s)

/-- CARVEW_WRITE (R84): a write of 15, and one while a change is in progress, is discarded. -/
def execCarvewWrite (part : Nat) (val : Word) (s : State) : Out :=
  let w := val.toNat % 16
  let p := partAt s part
  if w = 15 || p.carveQueue.any (·.1 ≤ 14) then .next s
  else .next (modPart s part fun p => { p with carveQueue := p.carveQueue ++ [(w, none)] })

/-- REQUEST_COUNTER_WRITE (R73): a management core of the partition that owns the channel sets a counter;
any other's write is discarded. -/
def execRequestCounterWrite (part die chan which : Nat) (val : Word) (s : State) : Out :=
  let c := 64 * die + chan
  let owned := (partAt s part).clusters.contains (Config.clustersPerDie * die + chan / 4)
  if !owned || 64 ≤ chan then .next s
  else
    match which with
    | 0 => .next { s with localReq := mapSet 0 s.localReq c val }
    | 1 => .next { s with remoteReq := mapSet 0 s.remoteReq c val }
    | 2 => .next { s with hostReq := mapSet 0 s.hostReq c val }
    | _ => .next s

end Sys2Proof.Machine
end

