-- ==== Sys2Proof/Machine/Bellows.lean ====
section
/-! DEFINITION. Bellows.lean: the engine of a core's stream contexts and copies, and the line port that they
and the matrix transfers share (R95 to R98, R102 to R111, R116, R118, R123, R391). -/

namespace Sys2Proof.Machine

/-! ## Elements of a stream (R102) -/

/-- A signed 40-bit field of a descriptor. -/
def signedField (d : BitVec 512) (lo : Nat) : Word := sextW 40 (BitVec.ofNat 64 (dBits d lo 40))

/-- off of element `n`. -/
def streamOff (q : Queue) (gidx team n : Nat) : Word :=
  let c := q.count
  let i (j : Nat) : Nat :=
    match j with
    | 0 => n % c 0
    | 1 => n / c 0 % c 1
    | 2 => n / (c 0 * c 1) % c 2
    | _ => n / (c 0 * c 1 * c 2)
  let term := fun (j : Nat) => BitVec.ofNat 64 (i j) * signedField q.desc (272 + 40 * j)
  BitVec.ofNat 64 gidx * signedField q.desc 432 + BitVec.ofNat 64 team * signedField q.desc 472
    + term 0 + term 1 + term 2 + term 3

def Queue.base (q : Queue) : Word := BitVec.ofNat 64 (dBits q.desc 64 52)
def Queue.dbase (q : Queue) : Word := BitVec.ofNat 64 (dBits q.desc 128 52)
def Queue.isize (q : Queue) : Nat := 2 ^ dBits q.desc 12 2
def Queue.hint (q : Queue) : Nat := dBits q.desc 17 2
def Queue.indirect (q : Queue) : Bool := q.kind = 2 || q.kind = 3

/-- The address of lane `l` of entry `k`: of its index; of its data, read or written. -/
def indexAddr (s : State) (gid : Nat) (q : Queue) (k l : Nat) : Word :=
  let g := grpAt s gid
  q.base + streamOff q g.gidx (teamAt s g.team).index (k * g.width + l)
def dataAddr (s : State) (gid : Nat) (q : Queue) (out : Bool) (e : QEntry) (l : Nat) : Word :=
  if q.indirect then q.dbase + (BitVec.ofNat 64 (mapGet 0 e.idx l) <<< dBits q.desc 14 3)
  else
    let g := grpAt s gid
    (if q.kind = 4 && out then q.dbase else q.base) +
      streamOff q g.gidx (teamAt s g.team).index (e.k * g.width + l)

/-- Lanes of entry `k` that carry an element (R102). -/
def elemLanes (q : Queue) (width k : Nat) : Mask :=
  maskWhere width fun l => decide (k * width + l < q.total)

/-- An index is known: past BOUND it makes no access and sets OOB; else its data element is to do
(R103). -/
def takeIndex (q : Queue) (e : QEntry) (l x : Nat) : Queue × QEntry :=
  let b := bitMask 64 l
  let e := { e with itodo := e.itodo &&& ~~~b, iflight := e.iflight &&& ~~~b }
  if dBits q.desc 22 1 = 1 && dBits q.desc 32 32 ≤ x then
    ({ q with oob := true }, { e with valid := e.valid &&& ~~~b })
  else (q, { e with todo := e.todo ||| b, valid := e.valid ||| b, idx := mapPut e.idx l x })

/-! ## Index queues (R96, R103) -/

/-- The first entry that a queue's buffer holds. -/
def Queue.head (q : Queue) : Nat := if q.isLoad || q.kind = 4 then q.pos else q.pos - q.filled

/-- Whether words of a queue's buffer are locked against the engine (R326). -/
def bufferBlocked (s : State) (gid : Nat) (q : Queue) (n : Nat) (wr : Bool) (k : Nat) (ls : List Nat) : Bool :=
  scratchBlocked s gid n wr (ls.map fun l => (64, q.elemOff (grpAt s gid).width k l))

/-- The lanes and indices of entry `k` of a queue's index source, if it has been delivered or pushed, and the lanes whose
index word is poisoned. An entry that has left the source, which a handler names by lowering PROGIDX (R372), is read from
its slot as that stands (log entry 69). -/
def indexEntry (s : State) (gid : Nat) (q : Queue) (k : Nat) : Option (Mask × List (Nat × Nat) × Mask) :=
  let g := grpAt s gid
  let i := g.queue q.iq
  if !i.bound || i.head + i.filled ≤ k then none
  else
    let v := mapGet 0 i.valid (k % i.depth)
    if bufferBlocked s gid i q.isize false k (lanesOf g.width v) then none
    else some (v, (lanesOf g.width v).map fun l => (l, scratchRead s g.team (i.elemOff g.width k l) q.isize),
      maskWhere g.width fun l => hasBit v l && scratchBad s g.team (i.elemOff g.width k l) q.isize)

/-- The index entries before `k` have been taken (R96); a feed queue whose last entry has is DONE. -/
def popIndices (g : Group) (q : Queue) (k : Nat) : Group :=
  if q.isrc ≠ 1 then g
  else g.modQueue q.iq fun i =>
    let n := min i.filled (k - i.head)
    let i := { i with filled := i.filled - n, free := i.free + n
                      pos := if i.isLoad then i.pos + n else i.pos }
    if i.kind = 5 && i.st = .running && i.filled = 0 && i.entriesOf g.width ≤ i.pos then
      { i with st := .done, ctx := none }
    else i

/-- Entry `k` as the engine begins it, for the lanes of a mask; `none` while its indices are not there. The indices of a
queue are taken once, and kept until the entry is complete. -/
def newEntry (s : State) (gid : Nat) (q : Queue) (k : Nat) (lanes : Mask) : Option (Queue × QEntry) :=
  let e : QEntry := { (default : QEntry) with k := k }
  if k < q.skipTo then some (q, e)
  else
    match q.isrc with
    | 0 => some (q, { e with todo := lanes, valid := lanes })
    | 1 =>
      match q.taken.find? fun e => e.k = k with
      | some e => some (q, e)
      | none => (indexEntry s gid q k).map fun (v, xs, bad) =>
          let (q, e) := (xs.filter fun x => hasBit (lanes &&& v) x.1).foldl
            (fun acc x => takeIndex acc.1 acc.2 x.1 x.2) (q, { e with bad := bad &&& lanes })
          ({ q with taken := q.taken ++ [e] }, e)
    | _ => some (q, { e with itodo := lanes })

def QEntry.complete (e : QEntry) : Bool :=
  e.todo = 0 && e.flight = 0 && e.itodo = 0 && e.iflight = 0

/-! ## Checks and faults of elements (R106, R109, R110) -/

/-- The check that an access fails. -/
def elemFault (s : State) (lid : Nat) (a : Word) (n : Nat) (wr : Bool) : Option CauseCode :=
  let l := launchAt s lid
  match rangeCheck l a n n (!wr) wr with
  | some c => some c
  | none => (elasticPages l a.toNat n).findSome? fun p => residentCause (residency s lid l.asid (p * 65536))

/-- A queue enters FAULTED at entry `k`: later entries are given back or stay in the buffer; where it was draining for an
SQSTOP, the fault waits for the items that R110 names. Once the group's last thread has exited, a load queue stops, and
for another kind the launch ends (R98, R109, R110). -/
def faultQueue (s : State) (gid qn k : Nat) (c : Cause) : State :=
  let c := { c with sq := true, qn := qn, idx := k }
  let g := grpAt s gid
  let dead : Bool := g.live = 0
  let s := modGrp s gid fun g => (forgetFault g qn).modQueue qn fun q =>
    let gone := (q.entries.filter fun e => k ≤ e.k).length
    let q := { q with
      st := QState.faulted, fault := some c
      entries := q.entries.filter fun e => decide (e.k < k)
      outs := q.outs.filter fun e => decide (e.k < k)
      next := max (q.pos + q.filled) (min q.next k), wnext := min q.wnext k
      free := q.free + gone }
    if dead && q.isLoad then { stopQueue q 0 false with stopOp := none } else q
  let q := g.queue qn
  let s := match q.stopOp with
    | some op =>
      modGrp s gid fun g =>
        let d : Deferred := { flag := (opOf g op).bind (·.setf), family := 3, qn := qn, op := op, cause := c }
        { g with deferred := g.deferred ++ [d] }
    | none => s
  if dead && !q.isLoad then lateFault s (teamAt s g.team).lid c.code else s

/-! ## One service of a context -/

/-- An access that an entry has to make: entry, lane, whether it is of an index, its address. -/
abbrev Pend := Nat × Nat × Bool × Word

def pendOf (s : State) (gid : Nat) (q : Queue) (out : Bool) (e : QEntry) : List Pend :=
  let w := (grpAt s gid).width
  (lanesOf w e.itodo).map (fun l => (e.k, l, true, indexAddr s gid q e.k l)) ++
  (lanesOf w e.todo).map fun l => (e.k, l, false, dataAddr s gid q out e l)

/-- Whether a context has a request out for a line. -/
def lineOut (s : State) (gid qn line : Nat) : Bool :=
  s.requests.any fun e => e.2.reader = .stream gid qn && e.2.line = line

/-- The bytes and the direction of an access. -/
def pendSize (q : Queue) (idx : Bool) : Nat := if idx then q.isize else q.esize

/-- The check that an access of a context fails; before it, the use of a poisoned word of the group's buffers: the
index that gives the address, or the element that is written (R391). -/
def pendFault (s : State) (gid : Nat) (q : Queue) (p : Pend) (wr : Bool) : Option CauseCode :=
  let g := grpAt s gid
  if ((q.entries ++ q.outs).any fun e => e.k = p.1 && hasBit e.bad p.2.1)
      || (wr && scratchBad s g.team (q.elemOff g.width p.1 p.2.1) q.esize) then some .uncorr
  else elemFault s (lidOf s gid) p.2.2.2 (pendSize q p.2.2.1) wr

/-- Whether the element that an access writes is locked in the queue's buffer (R326). -/
def pendBlocked (s : State) (gid : Nat) (q : Queue) (p : Pend) (wr : Bool) : Bool :=
  wr && bufferBlocked s gid q q.esize false p.1 [p.2.1]

/-- The accesses of the four oldest incomplete entries that fall in a line, pass their checks, and find no lock
(R108). -/
def merged (s : State) (gid : Nat) (q : Queue) (out wr : Bool) (es : List QEntry) (line : Nat) (idx : Bool) :
    List Pend :=
  ((es.filter fun e => !e.complete).take 4).flatMap fun e =>
    (pendOf s gid q out e).filter fun p =>
      p.2.2.1 = idx && p.2.2.2.toNat / 128 = line && !pendBlocked s gid q p wr && (pendFault s gid q p wr).isNone

/-- Marks accesses as sent. -/
def sentEntry (ps : List Pend) (idx wr : Bool) (e : QEntry) : QEntry :=
  let b := maskOf 64 ((ps.filter fun p => p.1 = e.k).map (·.2.1))
  if idx then { e with itodo := e.itodo &&& ~~~b, iflight := e.iflight ||| b }
  else { e with todo := e.todo &&& ~~~b, flight := if wr then e.flight else e.flight ||| b }

/-- Hints that the context posts as its element addresses first enter a page (R105). -/
def streamHint (s : State) (gid qn : Nat) (a : Word) : State :=
  let g := grpAt s gid
  let q := g.queue qn
  let page := pageOf a.toNat
  if q.hint ≠ 2 || q.pages.contains page then s
  else
    let s := modGrp s gid fun g => g.modQueue qn fun q => { q with pages := q.pages ++ [page] }
    let lid := lidOf s gid
    let down := !q.indirect && hasBit (signedField q.desc 272) 63
    let next : Word := BitVec.ofNat 64 (page * 65536) + (if down then (-65536 : Word) else 65536)
    if hintOk s lid next then s else dropBadHint s g.core lid next

/-- A read of a context: the request of a line, with the line's priming (R105). -/
def sendStreamRead (s : State) (gid qn : Nat) (out : Bool) (p : Pend) : State :=
  let g := grpAt s gid
  let q := g.queue qn
  let lid := lidOf s gid
  let l := launchAt s lid
  let line := p.2.2.2.toNat / 128
  let ps := merged s gid q out false (if out then q.outs else q.entries) line p.2.2.1
  let s := (elasticPages l (line * 128) 128).foldl (fun s x => pinPage s lid x) s
  let s := modGrp s gid fun g => g.modQueue qn fun q =>
    if out then { q with outs := q.outs.map (sentEntry ps p.2.2.1 false) }
    else { q with entries := q.entries.map (sentEntry ps p.2.2.1 false) }
  let (s, _) := addRequest s
    { core := g.core, part := l.part, lid := lid, asid := l.asid, line := line, lc := 0
      hintFirst := q.hint = 1, reader := .stream gid qn, stage := .sent }
  let s := if p.2.2.1 then s else streamHint s gid qn p.2.2.2
  if dBits q.desc 21 1 = 1 then prefetchLine s g.core lid (line * 128) (dBits q.desc 19 2) false 1
  else s

/-- A write of a context: the elements that fall in a line, later ones over earlier ones. -/
def sendStreamWrite (s : State) (gid qn : Nat) (p : Pend) : State :=
  let g := grpAt s gid
  let q := g.queue qn
  let lid := lidOf s gid
  let l := launchAt s lid
  let line := p.2.2.2.toNat / 128
  let ps := merged s gid q true true q.outs line false
  let s := (elasticPages l (line * 128) 128).foldl (fun s x => pinPage s lid x) s
  let (d, m) := ps.foldl (fun (acc : Line × BitVec 128) x =>
    let off := x.2.2.2.toNat % 128
    let v := scratchRead s g.team (q.elemOff g.width x.1 x.2.1) q.esize
    let b := byteRange off q.esize
    (mergeLine acc.1 (BitVec.ofNat 1024 (v <<< (8 * off))) b, acc.2 ||| b)) (0, 0)
  let s := signAll s g.team 3 (ps.map fun x =>
    (x.2.2.2.toNat, BitVec.ofNat 64 (scratchRead s g.team (q.elemOff g.width x.1 x.2.1) q.esize)))
  let (s, id) := addPub s
    { core := g.core, part := l.part, lid := lid, asid := l.asid, va := line * 128, kind := .write d m
      sender := .stream gid qn p.1, stage := .travelling, sp := false, seq := 0, first := q.hint = 1 }
  let s := modGrp s gid fun g => g.modQueue qn fun q =>
    { q with outs := q.outs.map fun e =>
        let e' := sentEntry ps false true e
        if ps.any (·.1 = e.k) then { e' with pubs := e'.pubs ++ [id] } else e' }
  streamHint s gid qn p.2.2.2

/-- Whether the engine reserves a further entry: the reserved ones have sent every read, or fewer than the four that share
lines are incomplete (R96, R108). -/
def mayReserve (s : State) (core : Nat) (q : Queue) (width : Nat) : Bool :=
  (q.isLoad || q.kind = 4) && q.st = .running && q.free ≠ 0 && decide (q.next < q.entriesOf width) &&
    (coreAt s core).switching = 0 &&
    (q.entries.all (fun e => e.todo = 0 && e.itodo = 0) ||
      decide ((q.entries.filter fun e => !e.complete).length < 4))

/-- The engine reserves the next slot of a load or copy stream, and takes the entry's indices (R96, R103). -/
def reserve (s : State) (gid qn : Nat) : Option State :=
  let g := grpAt s gid
  let q := g.queue qn
  if !mayReserve s g.core q g.width then none
  else
    (newEntry s gid q q.next (elemLanes q g.width q.next)).map fun (q, e) =>
      let q := { q with free := q.free - 1, next := q.next + 1, entries := q.entries ++ [e] }
      modGrp s gid fun g => popIndices (g.modQueue qn fun _ => q) q q.next

/-- The first entry that an outbound or copy stream has not yet to write: not pushed or read, dropped, at or after a fault,
or one that a switch or a stop holds back. -/
def writeLimit (s : State) (core : Nat) (q : Queue) : Nat :=
  match q.st with
  | .running => if q.kind = 4 then (if (coreAt s core).switching ≠ 0 then 0 else q.pos + q.filled) else q.pos
  | .stopping => if q.kind = 4 || q.disc then 0 else q.pos
  | .faulted => if q.kind = 4 then min (q.pos + q.filled) ((q.fault.map (·.idx)).getD 0) else 0
  | _ => 0

/-- The engine takes the next pushed entry, or the next of a copy stream that has been read, with its indices (R96, R103). -/
def takeOut (s : State) (gid qn : Nat) : Option State :=
  let g := grpAt s gid
  let q := g.queue qn
  if q.isLoad || q.kind = 5 || writeLimit s g.core q ≤ q.wnext
      || (4 ≤ (q.outs.filter fun e => !e.complete).length && q.outs.any fun e => e.todo ≠ 0 || e.itodo ≠ 0) then none
  else
    let lanes := elemLanes q g.width q.wnext &&& mapGet 0 q.valid (q.wnext % q.depth)
    (newEntry s gid q q.wnext lanes).map fun (q, e) =>
      let q := { q with wnext := q.wnext + 1, outs := q.outs ++ [e] }
      modGrp s gid fun g => popIndices (g.modQueue qn fun _ => q) q q.wnext

/-- The first access of entries whose line the context has no request out for. -/
def firstPend (s : State) (gid qn : Nat) (out : Bool) (es : List QEntry) : Option Pend :=
  let q := (grpAt s gid).queue qn
  (es.flatMap (pendOf s gid q out)).find? fun p =>
    !lineOut s gid qn (p.2.2.2.toNat / 128) && !pendBlocked s gid q p (out && !p.2.2.1)

/-- A cause of an access. -/
def pendCause (p : Pend) (c : CauseCode) (wr : Bool) : Cause := { code := c, addr := p.2.2.2, lane := p.2.1, wr := wr }

/-- One service of a context: its next read or write, or the fault that it finds. -/
def serveStream (s : State) (gid qn : Nat) : Option State :=
  let g := grpAt s gid
  let q := g.queue qn
  if q.st = .unbound || q.st = .held || freeEntries s g.core = 0 then none
  else
    match firstPend s gid qn true q.outs with
    | some p =>
      let wr := !p.2.2.1
      match pendFault s gid q p wr with
      | some c => some (faultQueue s gid qn p.1 (pendCause p c wr))
      | none => some (if wr then sendStreamWrite s gid qn p else sendStreamRead s gid qn true p)
    | none =>
      if q.st = .stopping then none
      else
        match firstPend s gid qn false q.entries with
        | some p =>
          match pendFault s gid q p false with
          | some c => some (faultQueue s gid qn p.1 (pendCause p c false))
          | none => some (sendStreamRead s gid qn false p)
        | none => none

/-! ## Completion of entries (R96, R98) -/

/-- Its indices are not needed again. -/
def Queue.forgetTaken (q : Queue) (k : Nat) : Queue := { q with taken := q.taken.filter fun e => decide (k < e.k) }

/-- The head entry of a load or copy stream that is complete is delivered; the entries before a fault still are
(R96, R98, R109). -/
def deliver1 (s : State) (gid qn : Nat) : Option State :=
  let q := (grpAt s gid).queue qn
  match q.entries with
  | e :: es =>
    if !e.complete || q.st = .stopping then none
    else some (modGrp s gid fun g => g.modQueue qn fun q =>
      let q := { q.forgetTaken e.k with
        entries := es, filled := q.filled + 1, valid := mapPut q.valid (e.k % q.depth) e.valid }
      if q.isLoad && q.st = .running && q.entriesOf g.width ≤ e.k + 1 then { q with st := QState.done, ctx := none }
      else q)
  | [] => none

/-- The head entry of an outbound or copy stream has been written: every write of it is applied (R96). -/
def writtenHead (s : State) (gid qn : Nat) : Option State :=
  let q := (grpAt s gid).queue qn
  match q.outs with
  | e :: es =>
    if !e.complete || !allApplied s e.pubs then none
    else some (modGrp s gid fun g => g.modQueue qn fun q =>
      let q := { q.forgetTaken e.k with
        outs := es, filled := q.filled - 1, free := q.free + 1, pos := if q.kind = 4 then q.pos + 1 else q.pos }
      if q.entriesOf g.width ≤ e.k + 1 && q.st = .running then { q with st := QState.done, ctx := none } else q)
  | [] => none

/-- What a context does without the port: it delivers, retires an entry that has nothing to write, reserves, takes, or
drops the indices of entries that are skipped (R96, R103, R111). -/
def advanceOnce (s : State) (gid qn : Nat) : Option State :=
  let g := grpAt s gid
  let q := g.queue qn
  let from_ := if q.isLoad then q.next else q.wnext
  let i := g.queue q.iq
  let idle : Bool := match q.outs with
    | e :: _ => e.pubs.isEmpty
    | [] => false
  if q.st = .unbound || q.st = .held || q.st = .done then none
  else
    deliver1 s gid qn <|> (if idle then writtenHead s gid qn else none) <|> reserve s gid qn <|> takeOut s gid qn <|>
    (if q.isrc = 1 && i.bound && i.filled ≠ 0 && i.head < from_ then
      some (modGrp s gid fun g => popIndices g q from_)
    else none)

/-- Takes a context as far as it goes without the port, in a number of steps. -/
def advanceStream (gid qn : Nat) : Nat → State → State
  | 0, s => s
  | n + 1, s =>
    match advanceOnce s gid qn with
    | some s => advanceStream gid qn n s
    | none => s

/-- The queue that a context of a core serves. -/
def contextOf (s : State) (core ctx : Nat) : Option (Nat × Nat) :=
  s.groups.findSome? fun e =>
    if e.2.core ≠ core || !e.2.resident then none
    else (e.2.queues.find? fun q => q.2.ctx = some ctx).map fun q => (e.1, q.1)

/-- STREAM_WRITE_APPLIED (R96). -/
def execStreamWriteApplied (core ctx : Nat) (s : State) : Out :=
  .next (((contextOf s core ctx).bind fun e => writtenHead s e.1 e.2).getD s)

/-- Whether the indices of a queue's next entry can never come: its group has ended, and its source is unbound or has no
entry of that number to give (log entry 69). -/
def indexLost (g : Group) (q : Queue) : Bool :=
  let i := g.queue q.iq
  g.live = 0 && q.isrc = 1 && !(q.taken.any fun e => e.k = q.wnext) && decide (i.head + i.filled ≤ q.wnext) &&
    (!i.bound || i.kind = 5 || i.st = .stopping || i.entriesOf g.width ≤ q.wnext)

/-- Whether a queue that is stopping has drained (R116): reads returned, writes applied. -/
def drained (s : State) (gid qn : Nat) : Bool :=
  let g := grpAt s gid
  let q := g.queue qn
  let reading := s.requests.any fun e => e.2.reader = .stream gid qn
  !reading && q.outs.isEmpty &&
  (if q.isLoad || q.kind = 4 then true
   else if q.kind = 5 then q.disc || q.filled = 0 || !isIndexSource g qn
   else q.filled = 0 || indexLost g q)

/-- Whether a load queue gives indices to a scatter queue that has still to write entries: at the end of its group it
stops after that one (R98, R116). -/
def stillFeeds (g : Group) (n : Nat) : Bool :=
  (g.queue n).isLoad && g.queues.any fun e =>
    e.1 ≠ n && e.2.bound && e.2.isrc = 1 && e.2.iq = n && e.2.kind = 3 && e.2.filled ≠ 0

/-- The bound queues of a group that has ended stop as for SQSTOP without DISC (R98). -/
def stopQueues (g : Group) : Group :=
  { g with queues := g.queues.map fun e =>
      if e.2.bound && e.2.st ≠ QState.stopping && (e.2.st = .faulted || !stillFeeds g e.1) then
        (e.1, { stopQueue e.2 0 false with stopOp := none })
      else e }

/-- STREAM_STOP_COMPLETE: a queue in STOPPING that has drained becomes UNBOUND (R98, R116). -/
def stopStream (s : State) (gid qn : Nat) : Option State :=
  match mapFind s.groups gid with
  | none => none
  | some g =>
    if (g.queue qn).st = .stopping && drained s gid qn then
      some (modGrp s gid fun g =>
        let g := { g with queues := mapErase g.queues qn }
        if g.live = 0 then stopQueues g else g)
    else none

def execStreamStopComplete (gid q : Nat) (s : State) : Out := .next ((stopStream s gid q).getD s)

/-! ## Lines that return -/

/-- The elements of one entry that a line serves: indices, then data, extended into the buffer (R104). -/
def fillEntry (s : State) (gid qn : Nat) (out : Bool) (line : Nat) (data : Line) (e : QEntry) :
    State × QEntry :=
  let g := grpAt s gid
  let q := g.queue qn
  let here := fun (a : Word) => decide (a.toNat / 128 = line)
  let is := (lanesOf g.width e.iflight).filter fun l => here (indexAddr s gid q e.k l)
  let ds := (lanesOf g.width e.flight).filter fun l => here (dataAddr s gid q out e l)
  let (q', e') := is.foldl (fun acc l =>
    takeIndex acc.1 acc.2 l (lineRead data ((indexAddr s gid q e.k l).toNat % 128) q.isize)) (q, e)
  let s := modGrp s gid fun g => g.modQueue qn fun q => { q with oob := q'.oob }
  let s := ds.foldl (fun s l =>
    let x := lineRead data ((dataAddr s gid q out e l).toNat % 128) q.esize
    let x := if dBits q.desc 5 1 = 1 && q.isLoad then (sextW (8 * q.esize) (BitVec.ofNat 64 x)).toNat else x
    scratchWrite s g.team (q.elemOff g.width e.k l) 8 x) s
  (s, { e' with flight := e'.flight &&& ~~~(maskOf 64 ds) })

def fillEntries (gid qn : Nat) (out : Bool) (line : Nat) (data : Line) :
    State → List QEntry → State × List QEntry
  | s, [] => (s, [])
  | s, e :: es =>
    let (s, e) := fillEntry s gid qn out line data e
    let (s, es) := fillEntries gid qn out line data s es
    (s, e :: es)

/-- The first entry that would use a poisoned sector of a line (R391). -/
def poisonedEntry (s : State) (gid qn line : Nat) (poison : BitVec 4) : Option (Nat × Nat × Word) :=
  let g := grpAt s gid
  let q := g.queue qn
  let bad := fun (a : Word) => decide (a.toNat / 128 = line) && hasBit poison (a.toNat % 128 / 32)
  let scan := fun (out : Bool) (e : QEntry) =>
    (((lanesOf g.width e.iflight).map fun l => (e.k, l, indexAddr s gid q e.k l)) ++
      ((lanesOf g.width e.flight).map fun l => (e.k, l, dataAddr s gid q out e l))).find? fun x => bad x.2.2
  if poison = 0 then none
  else (q.entries.findSome? (scan false)) <|> (q.outs.findSome? (scan true))

/-- Whether the buffer words that a line serves are locked: the line then waits (R326). -/
def arrivalBlocked (s : State) (gid qn line : Nat) : Bool :=
  let g := grpAt s gid
  let q := g.queue qn
  (q.entries.map ((false, ·)) ++ q.outs.map ((true, ·))).any fun (out, e) =>
    bufferBlocked s gid q 8 true e.k
      ((lanesOf g.width e.flight).filter fun l => (dataAddr s gid q out e l).toNat / 128 = line)

/-- A line that a context has read arrives. -/
def streamArrives (s : State) (gid qn line : Nat) (data : Line) (poison : BitVec 4) : State :=
  match poisonedEntry s gid qn line poison with
  | some (k, l, a) => faultQueue s gid qn k { code := .uncorr, addr := a, lane := l }
  | none =>
    let q := (grpAt s gid).queue qn
    let (s, es) := fillEntries gid qn false line data s q.entries
    let (s, os) := fillEntries gid qn true line data s q.outs
    advanceStream gid qn es.length (modGrp s gid fun g => g.modQueue qn fun q => { q with entries := es, outs := os })

/-! ## Copies (R118, R123) -/

def copyAt (s : State) (core id : Nat) : Option Copy := (coreAt s core).copies.find? fun c => c.id = id
def modCopy (s : State) (core id : Nat) (f : Copy → Copy) : State :=
  modCore s core fun c => { c with copies := c.copies.map fun x => if x.id = id then f x else x }

/-- A copy stops for a cause; if its thread has exited, the launch ends (R123). -/
def stopCopy (s : State) (core : Nat) (c : Copy) (x : Cause) : State :=
  let x := { x with cp := true, lane := c.lane }
  let s := modCopy s core c.id fun c => { c with stopped := some x, chunk := 0, req := none, held := none }
  let g := grpAt s c.gid
  if (g.thread c.lane).status == .running then s
  else lateFault s (teamAt s g.team).lid x.code

/-- Bytes of the next chunk: up to the end of a line of its source and of its destination. -/
def chunkOf (c : Copy) : Nat :=
  let toEnd := fun (sp : Bool) (a : Nat) => if sp then 128 else 128 - a % 128
  min (c.len - c.done) (min (toEnd c.ssp (c.src + c.done)) (toEnd c.dsp (c.dst + c.done)))

/-- The first byte of one side of a copy in a page that is not resident, with the cause (R123). -/
def copyMissing (s : State) (lid : Nat) (sp wr : Bool) (start a n : Nat) : Option Cause :=
  if sp then none
  else
    let l := launchAt s lid
    (elasticPages l a n).findSome? fun p =>
      (residentCause (residency s lid l.asid (p * 65536))).map fun c =>
        { code := c, addr := BitVec.ofNat 64 (max start (p * 65536)), wr := wr }

/-- The lookahead of .KEEP as a range first enters a page. -/
def keepHint (s : State) (core lid : Nat) (sp : Bool) (a : Nat) (page : Option Nat) : State :=
  if sp || page = some (pageOf a) then s
  else
    let next := (pageOf a + 1) * 65536
    if hintOk s lid (BitVec.ofNat 64 next) then s
    else dropBadHint s core lid (BitVec.ofNat 64 next)

/-- Whether a scratchpad side of a copy's next `n` bytes is locked (R326). -/
def copyBlocked (s : State) (c : Copy) (n : Nat) (wr : Bool) : Bool :=
  (if wr then c.dsp else c.ssp) && scratchBlocked s c.gid n wr [(64, (if wr then c.dst else c.src) + c.done)]

/-- The bytes of a chunk go to the destination: to scratchpad at once, or to a slice. -/
def copyWrite (s : State) (core : Nat) (c : Copy) (n x : Nat) : State :=
  let a := c.dst + c.done
  let lid := lidOf s c.gid
  let l := launchAt s lid
  if c.dsp then
    let s := (List.range n).foldl (fun s i =>
      scratchWrite s (grpAt s c.gid).team (a + i) 1 (bits x (8 * i) 8)) s
    modCopy s core c.id fun c => { c with done := c.done + n, chunk := 0, req := none, held := none }
  else
    let (s, unit) := signCopy (grpAt s c.gid).team (c.dst + c.len) n a x c.unit s
    let s := modCopy s core c.id fun c => { c with unit := unit }
    let (s, id) := addPub s
      { core := core, part := l.part, lid := lid, asid := l.asid, va := a
        kind := .write (BitVec.ofNat 1024 (x <<< (8 * (a % 128)))) (byteRange (a % 128) n)
        sender := .copy c.gid c.id, stage := .travelling, sp := false, seq := 0, first := c.hint = .strm }
    modCopy s core c.id fun c => { c with chunk := n, req := none, held := none, pubs := [id] }

/-- One service of a copy: the write of the chunk that has been read, the next chunk's read, or for a scratchpad source
its write (R108). -/
def serveCopy (s : State) (core : Nat) (c : Copy) : Option State :=
  if c.stopped.isSome || c.req.isSome || !allApplied s c.pubs || freeEntries s core = 0 then none
  else if c.held.isSome then some (copyWrite s core c c.chunk (c.held.getD 0))
  else
    let c := { c with done := c.done + (if c.pubs.isEmpty then 0 else c.chunk), chunk := 0, pubs := [] }
    let s := modCopy s core c.id fun _ => c
    if c.len ≤ c.done then none
    else
      let lid := lidOf s c.gid
      let l := launchAt s lid
      let n := chunkOf c
      let src := c.src + c.done
      let dst := c.dst + c.done
      match copyMissing s lid c.ssp false c.src src n, copyMissing s lid c.dsp true c.dst dst n with
      | some x, _ => some (stopCopy s core c x)
      | none, some x => some (stopCopy s core c x)
      | none, none =>
        let s := if c.hint = .keep then
            let s := keepHint s core lid c.ssp src c.spage
            let s := keepHint s core lid c.dsp dst c.dpage
            modCopy s core c.id fun c =>
              { c with spage := some (pageOf src), dpage := some (pageOf dst) }
          else s
        let pages := (if c.ssp then [] else elasticPages l src n) ++ (if c.dsp then [] else elasticPages l dst n)
        let s := pages.foldl (fun s p => pinPage s lid p) s
        if copyBlocked s c n false || (c.ssp && copyBlocked s c n true) then none
        else if c.ssp && scratchBad s (grpAt s c.gid).team src n then
          some (stopCopy s core c { code := .uncorr, addr := BitVec.ofNat 64 src })
        else if c.ssp then
          let x := bytesNat ((List.range n).map fun i =>
            BitVec.ofNat 8 (scratchRead s (grpAt s c.gid).team (src + i) 1))
          some (copyWrite s core c n x)
        else
          let (s, r) := addRequest s
            { core := core, part := l.part, lid := lid, asid := l.asid, line := src / 128, lc := 0
              hintFirst := c.hint = .strm, reader := .copy c.id, stage := .sent }
          some (modCopy s core c.id fun c => { c with req := some r, chunk := n })

/-- A line that a copy has read arrives: its bytes go to scratchpad, or wait for their write's turn at the port. -/
def copyArrives (s : State) (core id : Nat) (data : Line) (poison : BitVec 4) : State :=
  match copyAt s core id with
  | none => s
  | some c =>
    let a := c.src + c.done
    let used := sectorsOf (byteRange (a % 128) c.chunk)
    if poison &&& used ≠ 0 then stopCopy s core c { code := .uncorr, addr := BitVec.ofNat 64 a }
    else
      let x := lineRead data (a % 128) c.chunk
      if c.dsp then copyWrite s core c c.chunk x
      else modCopy s core id fun c => { c with req := none, held := some x }

/-- COPY_COMPLETE: every byte has been applied; the slot is free (R118, R119). -/
def endCopy (s : State) (core id : Nat) : Option State :=
  match copyAt s core id with
  | none => none
  | some c =>
    let done := c.done + (if c.pubs.isEmpty then 0 else c.chunk)
    if c.req.isNone && c.stopped.isNone && allApplied s c.pubs && c.len ≤ done then
      some (modCore s core fun x => { x with copies := x.copies.filter fun y => y.id ≠ id })
    else none

def execCopyComplete (core copy : Nat) (s : State) : Out := .next ((endCopy s core copy).getD s)

/-! ## The line port (R108) -/

/-- STREAM_READ_RETURN: a line that the port has asked for arrives. -/
def portReturn (s : State) (id : Nat) : Option State :=
  match mapFind s.requests id with
  | none => none
  | some r =>
    match r.stage, r.reader with
    | .answered d _ _ _ poison, .stream gid q =>
      if arrivalBlocked s gid q r.line then none
      else some (streamArrives { s with requests := mapErase s.requests id } gid q r.line d poison)
    | .answered d _ _ _ poison, .copy c =>
      if (copyAt s r.core c).any fun c => copyBlocked s c c.chunk true then none
      else some (copyArrives { s with requests := mapErase s.requests id } r.core c d poison)
    | .answered d _ _ _ poison, .matrix core q op =>
      let s := { s with requests := mapErase s.requests id }
      let n := quartNo core q
      match (matOpAt (quartAt s n) op).filter fun o => matrixTakes o poison with
      | some o => some (stopMatrix s n o { code := .uncorr, addr := BitVec.ofNat 64 (r.line * 128) })
      | none => some (matrixReturn s n op d)
    | _, _ => none

def execStreamReadReturn (_ : Nat) (req : Nat) (s : State) : Out := .next ((portReturn s req).getD s)

/-- Those that may use the port of a core: stream contexts, copies, matrix transfers. -/
inductive Client where
  | stream (gid q : Nat)
  | copy (c : Copy)
  | matrix (n op : Nat)
deriving Repr, Inhabited

def clientsOf (s : State) (core : Nat) : List Client :=
  let gs := s.groups.filter fun e => e.2.core = core && e.2.resident
  (gs.flatMap fun e => (e.2.queues.filter fun q => q.2.ctx.isSome).map fun q => Client.stream e.1 q.1) ++
  (coreAt s core).copies.map .copy ++
  (List.range 4).flatMap fun q =>
    let n := quartNo core q
    ((quartAt s n).loads ++ (quartAt s n).ops).map fun o => Client.matrix n o.id

def serveClient (s : State) (core : Nat) : Client → Option State
  | .stream g q => serveStream s g q
  | .copy c => serveCopy s core c
  | .matrix n op => serveMatrix s n op

/-- Steps without the port that the contexts make at one time. -/
abbrev advanceSteps : Nat := 64

/-- The contexts of a core go as far as they do without the port, if some can. -/
def advanceContexts (s : State) (core : Nat) : Option State :=
  let qs := (clientsOf s core).filterMap fun c =>
    match c with
    | .stream g q => some (g, q)
    | _ => none
  if qs.any fun e => (advanceOnce s e.1 e.2).isSome then
    some (qs.foldl (fun s e => advanceStream e.1 e.2 advanceSteps s) s)
  else none

/-- One request in a core cycle, the clients in turn. -/
def portRequest (s : State) (core : Nat) : Option State :=
  let c := coreAt s core
  if c.portCycle = some s.cycle then none
  else
    let cs := clientsOf s core
    let k := if cs.isEmpty then 0 else c.rr % cs.length
    let order := (cs.zipIdx.drop k) ++ (cs.zipIdx.take k)
    order.findSome? fun e => (serveClient s core e.1).map fun t =>
      modCore t core fun c => { c with rr := e.2 + 1, portCycle := some s.cycle }

/-- STREAM_ELEMENT_REQUEST: the contexts go on, and one client makes its request. -/
def portStep (s : State) (core : Nat) : Option State :=
  match advanceContexts s core with
  | some s => some ((portRequest s core).getD s)
  | none => portRequest s core

def execStreamElementRequest (core : Nat) (s : State) : Out := .next ((portStep s core).getD s)

end Sys2Proof.Machine
end

