-- ==== Sys2Proof/Machine/Exact.lean ====
section
/-! DEFINITION. Exact.lean: the exact accumulators, class 0x140 (R236 to R242). -/

namespace Sys2Proof.Machine

/-- Accumulator `n` of a group. -/
def Group.acc (g : Group) (n : Nat) : BitVec 4288 := mapGet 0 g.xa n
def setAcc (s : State) (gid n : Nat) (x : BitVec 4288) : State :=
  modGrp s gid fun g => { g with xa := mapSet 0 g.xa n x, xaPoison := g.xaPoison.filter (· ≠ n) }

/-- An item of the exact unit; all but XRND without CLR abort a transaction and wait for speculation to
end (R242). -/
def xItem (h : Hdr) (xas : List Nat) (srcs : List Opnd) : Item :=
  { hdr := h, cls := .exact, unit := .x, xas := xas, srcs := srcs, txBad := true, specHold := true
    setsFlags := true, least := 10 }

/-- The effect of an exact item that holds the unit for some cycles. -/
def xEffect (cycles : Nat) : Effect := { kind := .exact, elements := cycles }

/-- XCLR (R238). -/
def execXclr (h : Hdr) (xa : Fin 8) (s : State) : Out :=
  runItem { xItem h [xa.val] [] with xaFresh := true } (fun i _ s =>
    .done (xEffect 4) (setAcc s i.gid xa.val 0)) s

/-- The terms of one XADD or XMAC: every executing lane and element contributes one (R238). -/
def xTerms (ty : Ty) (vals : List (List Word)) : Terms :=
  vals.foldl (fun acc xs =>
    (List.range ty.k).foldl (fun acc i =>
      let v := fun j => (fmtOf ty).value (elemOf ty.w (src xs j) i)
      acc.push exactXa (v 0) (if xs.length = 2 then some (v 1) else none)) acc) ⟨0, 0, 0⟩

/-- Cycles that XADD or XMAC holds the unit: ceil(p / r) for p terms (R237). -/
def xCycles (ty : Ty) (mac : Bool) (lanes : Nat) : Nat :=
  let r := if mac then (if ty.w ≤ 16 then 64 else if ty.w = 32 then 32 else 16)
    else (if ty.w ≤ 32 then 64 else 32)
  (lanes * ty.k + r - 1) / r

/-- XADD, XMAC. -/
def xaddBody (it : Item) (ty : Ty) (xa : Fin 8) (i : Issue) (ex : Mask) (s : State) : Body :=
  let ls := lanesOf (grpAt s i.gid).width ex
  let t := xTerms ty (ls.map fun l => lanSrcs s i.gid l it.srcs)
  let s := consumeAll s i.gid it
  let acc := (grpAt s i.gid).acc xa.val
  .done { xEffect (xCycles ty (it.srcs.length = 2) ls.length) with fflags := t.fflags }
    (setAcc s i.gid xa.val (xaAdd acc t))

/-- XADD (R238). -/
def execXadd (h : Hdr) (ty : Ty) (xa : Fin 8) (a : Opnd) (s : State) : Out :=
  let it := { xItem h [xa.val] [a] with needsXf64 := ty = .f64 }
  runItem it (xaddBody it ty xa) s
/-- XMAC (R238). -/
def execXmac (h : Hdr) (ty : Ty) (xa : Fin 8) (a b : Opnd) (s : State) : Out :=
  let it := { xItem h [xa.val] [a, b] with needsXf64 := ty = .f64 }
  runItem it (xaddBody it ty xa) s

/-- The accumulator rounded to a type (R202, R239). -/
def xrndOp (ty : Ty) (m : Rnd) (x : BitVec 4288) : Nat × FF :=
  exactXa.roundTo (fmtOf ty) m (xaValue x) (xaStatus x)

/-- XRND writes the rounded value to every executing lane; with CLR the accumulator is then clear. -/
def xrndBody (ty : Ty) (rnd : Rnd) (clr : Bool) (xa : Fin 8) (d : Opnd) (i : Issue) (ex : Mask)
    (s : State) : Body :=
  let g := grpAt s i.gid
  let r := xrndOp ty (modeOf g rnd) (g.acc xa.val)
  let vals := (lanesOf g.width ex).map fun l => (l, (BitVec.ofNat 64 r.1 : Word))
  .done { xEffect 4 with writes := destWrites d vals, fflags := r.2 }
    (if clr then setAcc s i.gid xa.val 0 else s)

/-- XRND (R239). -/
def execXrnd (h : Hdr) (ty : Ty) (rnd : Rnd) (clr : Bool) (xa : Fin 8) (d : Opnd) (s : State) : Out :=
  runItem { xItem h [xa.val] [] with dsts := [d], dstVs := true, txBad := clr, specHold := clr, least := 20 }
    (xrndBody ty rnd clr xa d) s

/-- xaN + xaM exactly, with the status bits of both (R240). -/
def xmrgOp (x y : BitVec 4288) : BitVec 4288 :=
  xaAdd x ⟨xaStatus y, exactXa.toInt (xaValue y), 0⟩

/-- XMRG (R240). -/
def execXmrg (h : Hdr) (xa xb : Fin 8) (s : State) : Out :=
  runItem (xItem h [xa.val, xb.val] []) (fun i _ s =>
    let g := grpAt s i.gid
    .done (xEffect 4) (setAcc s i.gid xa.val (xmrgOp (g.acc xa.val) (g.acc xb.val)))) s

/-- The scratchpad operand of XSAVE and XLOAD: the offset of the lowest executing lane, a multiple of 8,
with 536 bytes in the team's scratchpad (R241). -/
def xOffset (s : State) (gid : Nat) (ex : Mask) (a : Opnd) (wr : Bool) : Except Cause Nat :=
  let off := (scalarOf s gid ex a).toNat
  let lane := lowLane (grpAt s gid) ex
  let c : Cause := { code := .misalign, addr := BitVec.ofNat 64 off, lane := lane, wr := wr }
  if off % 8 ≠ 0 then .error c
  else if !scratchHas (launchOf s gid) off 536 then .error { c with code := .scratch }
  else if !wr && scratchBad s (grpAt s gid).team off 536 then .error { c with code := .uncorr }
  else .ok off

/-- The 536-byte image of an accumulator, reserved status bits 0 (R200, R241). -/
def xaImage (x : BitVec 4288) : Nat := (xaMake (xaValue x) (xaStatus x)).toNat

/-- XSAVE writes the accumulator's image to the team's scratchpad. -/
def xsaveBody (it : Item) (xa : Fin 8) (a : Opnd) (i : Issue) (ex : Mask) (s : State) : Body :=
  match xOffset s i.gid ex a true with
  | .error c => .fault c
  | .ok off =>
    let g := grpAt s i.gid
    if scratchBlocked s i.gid 536 true [(lowLane g ex, off)] then .wait
    else
      let r := blockAccess (consumeAll s i.gid it) i.gid 3 off
      .done { xEffect 4 with least := r.2 } (scratchWrite r.1 g.team off 536 (xaImage (g.acc xa.val)))

/-- XSAVE (R241). -/
def execXsave (h : Hdr) (xa : Fin 8) (a : Opnd) (s : State) : Out :=
  let it := { xItem h [xa.val] [a] with access := true, writesMem := true, scratch := true }
  runItem it (xsaveBody it xa a) s

/-- XLOAD replaces the accumulator with an image in the team's scratchpad. -/
def xloadBody (it : Item) (xa : Fin 8) (a : Opnd) (i : Issue) (ex : Mask) (s : State) : Body :=
  match xOffset s i.gid ex a false with
  | .error c => .fault c
  | .ok off =>
    let g := grpAt s i.gid
    if scratchBlocked s i.gid 536 false [(lowLane g ex, off)] then .wait
    else
      let r := blockAccess (consumeAll s i.gid it) i.gid 3 off
      let x := scratchRead s g.team off 536
      .done { xEffect 4 with least := r.2 } (setAcc r.1 i.gid xa.val (xaMake (x % 2 ^ 4280) (x / 2 ^ 4280)))

/-- XLOAD (R241). -/
def execXload (h : Hdr) (xa : Fin 8) (a : Opnd) (s : State) : Out :=
  let it := { xItem h [xa.val] [a] with access := true, xaFresh := true, scratch := true, track := .load }
  runItem it (xloadBody it xa a) s

end Sys2Proof.Machine
end

