-- ==== Sys2Proof/Machine/Sync.lean ====
section
/-! DEFINITION. Sync.lean: phasers, FENCE and the runner network as instructions see them, class 0x300
(R288, R291 to R303, R311 to R315). -/

namespace Sys2Proof.Machine

/-! ## Phaser table entries (R291) -/

def phValid (d : BitVec 1024) : Bool := bits d.toNat 0 1 = 1
def phScope (d : BitVec 1024) : Scope :=
  match bits d.toNat 1 3 with
  | 2 => .team
  | 5 => .die
  | _ => .part
def phRanges (d : BitVec 1024) : Nat := bits d.toNat 4 3
/-- Base and length of guarded range `g`. -/
def phBase (d : BitVec 1024) (g : Nat) : Nat := bits d.toNat (64 + 128 * g) 64
def phLen (d : BitVec 1024) (g : Nat) : Nat := bits d.toNat (128 + 128 * g) 64
/-- The guarded ranges, each as its first address and the first after it. -/
def phGuards (d : BitVec 1024) : List (Nat × Nat) :=
  (List.range (phRanges d)).map fun g => (phBase d g, phBase d g + phLen d g)

/-! ## Phases and members (R294 to R298) -/

/-- LP − PH and the like: a difference mod 2^32 read as a signed value (R295). -/
def phDiff (a b : Nat) : Int := asSigned 32 ((a + 2 ^ 32 - b % 2 ^ 32) % 2 ^ 32)

/-- The local phase of a thread for a phaser entry. -/
def lpOf (t : Thread) (idx : Nat) : Nat := mapGet 0 t.lp idx
def setLp (t : Thread) (idx x : Nat) : Thread := { t with lp := mapSet 0 t.lp idx (x % 2 ^ 32) }

/-- The instance of an entry that covers a group (R292, R293). -/
def phaserFor (s : State) (gid idx : Nat) : Option Nat :=
  let g := grpAt s gid
  (s.phasers.find? fun e =>
    e.2.lid = lidOf s gid && e.2.idx = idx &&
    match e.2.scope with
    | .team => e.2.team = g.team
    | .die => e.2.die = coreDie g.core
    | _ => true).map (·.1)

/-- A group's membership: its mode, and its pending change. -/
def memberOf (p : Phaser) (gid : Nat) : Member :=
  (p.members.find? fun m => m.gid = gid).getD ⟨gid, .none, none⟩

/-- Writes a group's membership. -/
def putMember (p : Phaser) (m : Member) : Phaser :=
  { p with members :=
      if p.members.any fun x => x.gid = m.gid then p.members.map fun x => if x.gid = m.gid then m else x
      else p.members ++ [m] }

def signalsMode : PhMode → Bool
  | .sig | .sigwait => true
  | _ => false
def modeNum : PhMode → Nat
  | .none => 0 | .sig => 1 | .wait => 2 | .sigwait => 3

/-- Whether a group has signalled a phase: each of its threads has, or has exited, and the releases that
those signals made have completed (R295, R298). -/
def groupSignalled (s : State) (p : Phaser) (gid x : Nat) : Bool :=
  match mapFind s.groups gid with
  | none => true
  | some g =>
    (g.threads.all fun t => t.status ≠ .running || decide (0 < phDiff (lpOf t p.idx) x)) &&
    p.unreleased.all fun u => !(u.1 = gid && u.2.2 = x) || released s u.2.1

/-- SIG and SIGWAIT members that have not signalled the current phase, groups not started among them. -/
def remaining (s : State) (p : Phaser) : Nat :=
  (p.members.filter fun m => signalsMode m.mode && !groupSignalled s p m.gid p.ph).length + p.unstarted

/-! ## Checks (R293, R300) -/

/-- A PHASER cause. -/
def phaserFault (sub : Nat) : Cause := { code := .phaser, sub := sub }

/-- The entry that a handle names, if it may (R293). -/
def handleEntry (s : State) (gid : Nat) (h : Word) : Option Nat :=
  let l := launchOf s gid
  let idx := h.toNat % 8
  if 8 ≤ h.toNat || l.nph ≤ idx then none
  else if phValid (l.phaserTable.getD idx 0) then some idx
  else none

/-- What a phaser instruction finds. -/
inductive PhFind where
  | fault (c : Cause)
  | waits
  | found (inst : Nat)
deriving Repr, Inhabited

/-- The instance that an instruction acts on, after its checks in the order of R300; `needs` says whether
it needs a member, and of which modes. -/
def findPhaser (s : State) (gid : Nat) (h : Word) (needs : Option (PhMode → Bool)) : PhFind :=
  match (handleEntry s gid h).bind (phaserFor s gid) with
  | none => .fault (phaserFault 1)
  | some n =>
    let m := memberOf (phaserAt s n) gid
    match needs with
    | none => .found n
    | some ok =>
      if m.mode = .none then
        match m.pend with
        | some x => if x = .none then .fault (phaserFault 2) else .waits
        | none => .fault (phaserFault 2)
      else if ok m.mode then .found n
      else .fault (phaserFault 3)

/-- An item of class 0x300. -/
def phItem (h : Hdr) (srcs dsts : List Opnd) : Item :=
  { hdr := h, cls := .other, srcs := srcs, dsts := dsts, dstVs := true, noStream := true, txBad := true
    specHold := true }

/-- Runs a phaser instruction on the instance that its handle names. -/
def onPhaser (a : Opnd) (needs : Option (PhMode → Bool)) (k : Issue → Mask → State → Nat → Body)
    (i : Issue) (ex : Mask) (s : State) : Body :=
  match findPhaser s i.gid (scalarOf s i.gid ex a) needs with
  | .fault c => .fault c
  | .waits => .wait
  | .found n => k i ex s n

/-! ## PHREG, PHDROP, PHSTAT -/

/-- A request of a group: the last one before the boundary stands (R297). -/
def askMember (mode : PhMode) (i : Issue) (_ : Mask) (s : State) (n : Nat) : Body :=
  .done {} (modPhaser s n fun p => putMember p { memberOf p i.gid with pend := some mode })

/-- PHREG (R297, R299). -/
def execPhreg (h : Hdr) (mode : PhMode) (a : Opnd) (s : State) : Out :=
  runItem (phItem h [a] []) (onPhaser a none (askMember mode)) s

/-- PHDROP (R297, R299). -/
def execPhdrop (h : Hdr) (a : Opnd) (s : State) : Out :=
  runItem (phItem h [a] []) (onPhaser a (some fun _ => true) (askMember .none)) s

/-- PHSTAT's word in a lane (R302). -/
def phstatWord (s : State) (gid n l : Nat) : Word :=
  let p := phaserAt s n
  let g := grpAt s gid
  let m := memberOf p gid
  let spec := g.speculative && g.spec.inst = n
  let ahead := phDiff (lpOf (g.thread l) p.idx) p.ph = 1
  BitVec.ofNat 64 (p.ph % 2 ^ 32 + modeNum m.mode * 2 ^ 32 + modeNum (m.pend.getD .none) * 2 ^ 34
    + m.pend.isSome.toNat * 2 ^ 36 + spec.toNat * 2 ^ 37 + (decide ahead).toNat * 2 ^ 38
    + min (remaining s p) (2 ^ 24 - 1) * 2 ^ 40)

/-- PHSTAT (R302). -/
def execPhstat (h : Hdr) (d a : Opnd) (s : State) : Out :=
  runItem { phItem h [a] [d] with specHold := false, least := 20 } (onPhaser a none fun i ex s n =>
    let vals := (lanesOf (grpAt s i.gid).width ex).map fun l => (l, phstatWord s i.gid n l)
    .done { writes := destWrites d vals } s) s

/-! ## Signals and waits (R295, R301, R303) -/

/-- The executing lanes signal: LP advances, and one release at the phaser's scope serves them all. -/
def signalPhase (i : Issue) (ex : Mask) (s : State) (n : Nat) : State × Nat :=
  let g := grpAt s i.gid
  let p := phaserAt s n
  let l := launchOf s i.gid
  let gs := phGuards (l.phaserTable.getD p.idx 0)
  let phases := dedup ((lanesOf g.width ex).map fun l => lpOf (g.thread l) p.idx)
  let s := modGrp s i.gid fun g => g.modLanes ex fun _ t => setLp t p.idx (lpOf t p.idx + 1)
  let (s, rel) := beginRelease s g.core i.gid ex (publishesAt l p.scope)
    (if gs.isEmpty then none else some gs) .nothing []
  (modPhaser s n fun p => { p with unreleased := p.unreleased ++ phases.map fun x => (i.gid, rel, x) }, rel)

/-- Whether some executing lane is two phases ahead (R295). -/
def farAhead (i : Issue) (ex : Mask) (s : State) (n : Nat) : Bool :=
  let g := grpAt s i.gid
  let p := phaserAt s n
  (lanesOf g.width ex).any fun l => decide (2 ≤ phDiff (lpOf (g.thread l) p.idx) p.ph)

/-- The waits of the executing lanes. -/
def waitsOf (i : Issue) (ex : Mask) (s : State) (n : Nat) : List (Nat × Option Nat) :=
  let g := grpAt s i.gid
  let p := phaserAt s n
  let m := memberOf p i.gid
  (lanesOf g.width ex).map fun l => (l, if m.mode = .wait then none else some (lpOf (g.thread l) p.idx))

/-- PHSIG (R301). -/
def execPhsig (h : Hdr) (a : Opnd) (s : State) : Out :=
  runItem (phItem h [a] []) (onPhaser a (some signalsMode) fun i ex s n =>
    if farAhead i ex s n then .wait
    else
      let (s, rel) := signalPhase i ex s n
      .done { kind := .phaser n false [rel] [] } s) s

/-- PHWAIT (R301). -/
def execPhwait (h : Hdr) (a : Opnd) (s : State) : Out :=
  runItem (phItem h [a] []) (onPhaser a (some fun m => m ≠ .sig) fun i ex s n =>
    .done { kind := .phaser n false [] (waitsOf i ex s n), holds := .all } s) s

/-- Whether a launch and its team's scratchpad let a group speculate at all (R303). -/
def maySpeculate (s : State) (gid : Nat) : Bool :=
  let l := launchOf s gid
  !(l.txr = 0 && l.txw = 0) && decide (l.ngroup * 320 * (grpAt s gid).width ≤ l.scratch)

/-- The body of PHNXT: signal, release, wait; the speculative form also stops its threads until their
group has arrived, unless the group may not speculate at all (R301, R303). -/
def phnxtBody (spec : Bool) (i : Issue) (ex : Mask) (s : State) (n : Nat) : Body :=
  if farAhead i ex s n then .wait
  else
    let spec := spec && maySpeculate s i.gid
    let op := (grpAt s i.gid).nextOp
    let (s, rel) := signalPhase i ex s n
    let s := if spec then
        modGrp s i.gid fun g =>
          let g := g.modLanes ex fun _ t => { t with wait := .spec op }
          if g.spec.st = .none then { g with spec := { g.spec with st := .arriving, inst := n } } else g
      else s
    .done { kind := .phaser n spec [rel] (waitsOf i ex s n), holds := .all } s

/-- PHNXT (R301). -/
def execPhnxt (h : Hdr) (a : Opnd) (s : State) : Out :=
  runItem (phItem h [a] []) (onPhaser a (some (· = .sigwait)) (phnxtBody false)) s
/-- PHNXT.SPEC (R303). -/
def execPhnxtSpec (h : Hdr) (a : Opnd) (s : State) : Out :=
  runItem (phItem h [a] []) (onPhaser a (some (· = .sigwait)) (phnxtBody true)) s

/-- Whether one lane's wait has ended (R295). -/
def waitEnded (s : State) (gid n : Nat) (w : Nat × Option Nat) : Bool :=
  let p := phaserAt s n
  match w.2 with
  | some x => decide (0 ≤ phDiff p.ph x)
  | none => decide (0 < phDiff p.ph (lpOf ((grpAt s gid).thread w.1) p.idx))

/-- The local phases of WAIT members advance when their waits end (R295). -/
def endWaits (g : Group) (idx : Nat) (ws : List (Nat × Option Nat)) : Group :=
  ws.foldl (fun g w =>
    if w.2.isNone then g.modThread w.1 fun t => setLp t idx (lpOf t idx + 1) else g) g

/-- Whether every running thread of a group waits at PHNXT.SPEC on an instance (R303). -/
def fullyArrived (g : Group) (n : Nat) : Bool :=
  g.threads.all fun t => t.status ≠ .running ||
    match t.wait with
    | .spec op =>
      match opOf g op with
      | some o => match o.kind with
        | .phaser m _ _ _ => m = n
        | _ => false
      | none => false
    | _ => false

/-- A group begins to speculate: what a rollback restores is saved (R303, R304). -/
def beginSpec (g : Group) (n : Nat) : Group :=
  let ls := lanesOf g.width g.live
  { g with spec :=
      { st := .speculating, inst := n, arrived := g.live, reads := [], writes := [], undo := []
        savedP := ls.map fun l => (l, (g.thread l).p)
        savedS := g.s
        savedDraw := ls.map fun l => (l, (g.thread l).draw)
        savedRecon := ls.map fun l => (l, (g.thread l).recon)
        resume := ls.map fun l => (l, ((g.thread l).pc, (g.thread l).block))
        checks := [], failed := false, rollback := false, firstOp := g.nextOp, sts := [] } }

/-! ## FENCE (R288) -/

/-- Whether an instruction in flight is one that a fence's release part waits for: a load, an LDS, an LDX, or a
store not yet performed; or that its acquire part waits for: a load, an LDS, an LDX, an update that returns a
value. -/
def fenceWaits (rel acq : Bool) (o : Op) : Bool :=
  match o.track, o.kind with
  | .load, _ => true
  | .update, _ => acq
  | .none, .release _ => rel && o.holds ≠ .none
  | .none, _ => false

/-- FENCE (R288). -/
def execFence (h : Hdr) (kind : FenceKind) (sc : Scope) (s : State) : Out :=
  let it : Item := { hdr := h, cls := .other, txBad := true, specHold := true }
  runItem it (fun i ex s =>
    let g := grpAt s i.gid
    let waits := (g.ops.filter fun o =>
      o.left &&& ex ≠ 0 && fenceWaits (kind ≠ .acq) (kind ≠ .rel) o).map (·.id)
    let holds : Holds := if kind = .rel then .stores else .all
    .done { kind := .fence kind sc none waits, holds := holds } s) s

/-- A fence whose earlier accesses have ended runs its release, if it has one at a publishing scope; it
is complete when that has completed. `none` while it waits. -/
def fenceStep (s : State) (gid : Nat) (o : Op) (kind : FenceKind) (sc : Scope) (rel : Option Nat)
    (earlier : List Nat) : Option (State × Bool) :=
  let g := grpAt s gid
  match rel with
  | some r => if released s r then some (s, true) else none
  | none =>
    if earlier.any fun n => (opOf g n).isSome then none
    else if kind = .acq || !publishesAt (launchOf s gid) sc then some (s, true)
    else
      let (s, r) := beginRelease s g.core gid o.lanes true none .nothing []
      some (modGrp s gid fun g => modOp g o.id fun o => { o with kind := .fence kind sc (some r) earlier }, false)

/-! ## The runner network (R311 to R315) -/

/-- Fields of a handle (R311). -/
def hObj (h : Word) : Nat := bits h.toNat 0 8
def hNet (h : Word) : Bool := bits h.toNat 8 1 = 1
def hCount (h : Word) : Nat := bits h.toNat 16 32
def hRound (h : Word) : Nat := bits h.toNat 48 16
/-- The round after a round: rounds count mod 2^16. -/
def roundAfter (r : Nat) : Nat := (r + 1) % 2 ^ 16

/-- The number of an object of a launch. -/
def objNo (lid obj : Nat) : Nat := 256 * lid + obj
def objAt (s : State) (n : Nat) : RunObj := mapGet default s.objects n
def modObj (s : State) (n : Nat) (f : RunObj → RunObj) : State :=
  { s with objects := mapPut s.objects n (f (objAt s n)) }

/-- HANDLE, then NET (R312). -/
def runnerFault (s : State) (n : Nat) (h : Word) : Option Cause :=
  if bits h.toNat 9 7 ≠ 0 then some (phaserFault 1)
  else if hNet h && (!s.variant.scaleout || !(objAt s n).joined) then some (phaserFault 6)
  else none

/-- A GRED to an object with NET = 1 makes its launch unreplayable (R393). -/
def noteNet (s : State) (gid : Nat) (h : Word) : State := if hNet h then markUnreplayable s (lidOf s gid) else s

/-- Whether a contribution's COUNT is refused: 0, or not the one of the round's first (R313). -/
def countBad (o : RunObj) (count : Nat) : Bool := count = 0 || (o.got ≠ 0 && o.count.toNat ≠ count)

/-- Adds `k` contributions that sum to a value to round A; a full count completes the round (R311,
R313). -/
def contribute (o : RunObj) (count k : Nat) (val : BitVec 4280) (st : BitVec 8) : RunObj :=
  let r := exactXa.add o.sum.toNat (o.st.toNat ||| st.toNat) (exactXa.toInt val.toNat)
  let sum := BitVec.ofNat 4280 r.1
  let st' := BitVec.ofNat 8 r.2
  if o.got + k = count then
    { o with round := BitVec.ofNat 16 (roundAfter o.round.toNat), count := 0, got := 0, sum := 0, st := 0, result := some (sum, st') }
  else { o with count := BitVec.ofNat 32 count, got := o.got + k, sum := sum, st := st' }

/-- GRES instructions that wait for the round of an object that has completed last (R314): the next
completion waits for them, but not for one that a context switch has saved unissued (R315). -/
def gresPending (s : State) (n : Nat) : Bool :=
  s.groups.any fun e => e.2.resident && e.2.ops.any fun o =>
    match o.kind with
    | .gres m r .. => m = n && decide (roundAfter r = (objAt s n).round.toNat)
    | _ => false

/-- GRED instructions that wait to contribute to the present round of an object (R313). -/
def gredPending (s : State) (n : Nat) : Bool :=
  s.groups.any fun e => e.2.ops.any fun o =>
    match o.kind with
    | .gred m r .. => m = n && r = (objAt s n).round.toNat
    | _ => false

/-- Whether a contribution may enter round A now: none that waited for the round is left, and it does not
replace a result that a GRES has still to take. -/
def mayContribute (s : State) (n count k : Nat) : Bool :=
  !gredPending s n && !((objAt s n).got + k = count && gresPending s n)

/-- An item of the runner network. -/
def runItemNet (h : Hdr) (srcs dsts : List Opnd) : Item :=
  { phItem h srcs dsts with family := .runner }

/-- GRED (R313). -/
def execGred (h : Hdr) (xa : Fin 8) (a : Opnd) (s : State) : Out :=
  runItem { runItemNet h [a] [] with xas := [xa.val] } (fun i ex s =>
    let w := scalarOf s i.gid ex a
    let n := objNo (lidOf s i.gid) (hObj w)
    let o := objAt s n
    let x := (grpAt s i.gid).acc xa.val
    let val : BitVec 4280 := BitVec.ofNat 4280 (xaValue x)
    let st : BitVec 8 := BitVec.ofNat 8 (xaStatus x)
    match runnerFault s n w with
    | some c => .fault c
    | none =>
      if hRound w = o.round.toNat then
        if countBad o (hCount w) then .fault (phaserFault 4)
        else if !mayContribute s n (hCount w) 1 then .wait
        else .done {} (modObj (noteNet s i.gid w) n fun o => contribute o (hCount w) 1 val st)
      else if hRound w = roundAfter o.round.toNat then
        .done { kind := .gred n (hRound w) (hCount w) val st } (noteNet s i.gid w)
      else .fault (phaserFault 5)) s

/-- GRED_DEFERRED_CONTRIBUTE: a GRED that waited for its round contributes to it, or is discarded with a
fault kept for its group (R313). -/
def gredLate (s : State) (gid op : Nat) : Option State :=
  match (mapFind s.groups gid).bind fun g => opOf g op with
  | none => none
  | some x =>
    match x.kind with
    | .gred n round count val st =>
      let o := objAt s n
      if o.round.toNat ≠ round || (o.got + 1 = count && gresPending s n) then none
      else
        let s' := modGrp s gid fun g => modOp g op fun x => { x with kind := .ready }
        if !countBad o count then some (modObj s' n fun o => contribute o count 1 val st)
        else if (grpAt s gid).live = 0 then
          some (lateFault s' (lidOf s gid) .phaser)
        else
          let d : Deferred := { flag := x.setf, family := 2, qn := 0, op := op, cause := phaserFault 4 }
          some (modGrp s' gid fun g => { g with deferred := g.deferred ++ [d] })
    | _ => none

def execGredDeferredContribute (gid op : Nat) (s : State) : Out := .next ((gredLate s gid op).getD s)

/-- What a GRES gives: its writes and flags, or the whole sum in an accumulator (R314). -/
def gresEffect (s : State) (gid : Nat) (lanes : Mask) (ty : Ty) (m : Rnd) (d : Opnd) (xa : Option Nat)
    (r : BitVec 4280 × BitVec 8) : State × List RegWrite × FF :=
  let x := xaMake r.1.toNat r.2.toNat
  match xa with
  | some n => (setAcc s gid n x, [], 0)
  | none =>
    let y := xrndOp ty m x
    (s, destWrites d ((lanesOf 64 lanes).map fun l => (l, (BitVec.ofNat 64 y.1 : Word))), y.2)

/-- The body of GRES: a result of the round before is taken; the object's present round and the next are waited
for (R314). -/
def gresBody (ty : Ty) (rnd : Rnd) (d : Opnd) (xa : Option Nat) (a : Opnd)
    (i : Issue) (ex : Mask) (s : State) : Body :=
  let w := scalarOf s i.gid ex a
  let n := objNo (lidOf s i.gid) (hObj w)
  let o := objAt s n
  let m := modeOf (grpAt s i.gid) rnd
  match runnerFault s n w with
  | some c => .fault c
  | none =>
    if roundAfter (hRound w) = o.round.toNat then
      match o.result with
      | some r =>
        let (s, ws, ff) := gresEffect s i.gid ex ty m d xa r
        .done { writes := ws, fflags := ff } s
      | none => .fault (phaserFault 5)
    else if hRound w = o.round.toNat || hRound w = roundAfter o.round.toNat then
      .done { kind := .gres n (hRound w) ty m d xa } s
    else .fault (phaserFault 5)

/-- GRES (R314). -/
def execGres (h : Hdr) (form : GresForm) (a : Opnd) (s : State) : Out :=
  match form with
  | .typed ty rnd d => runItem { runItemNet h [a] [d] with setsFlags := true } (gresBody ty rnd d none a) s
  | .whole x => runItem { runItemNet h [a] [.zero] with xas := [x.val], xaFresh := true } (gresBody .none .rne .zero (some x.val) a) s

/-- GRES_RESULT: a waiting GRES takes its round's result (R314). One that a context switch had saved unissued executes
again: where the round's result has been replaced meanwhile, PHASER with ROUND is kept for its group as R313 keeps a
fault found late (R315, log entry 72). -/
def gresTake (s : State) (gid op : Nat) : Option State :=
  match (mapFind s.groups gid).bind fun g => if g.resident then opOf g op else none with
  | none => none
  | some x =>
    match x.kind with
    | .gres n round ty m d xa =>
      let o := objAt s n
      match o.result with
      | some r =>
        if roundAfter round = o.round.toNat then
          let (s, ws, ff) := gresEffect s gid x.lanes ty m d xa r
          some (modGrp s gid fun g => modOp g op fun x =>
            { x with kind := .ready, writes := ws, fflags := ff })
        else if round = o.round.toNat || round = roundAfter o.round.toNat then none
        else
          let f : Deferred := { flag := x.setf, family := 2, qn := 0, op := op, cause := phaserFault 5 }
          some (modGrp s gid fun g =>
            { modOp g op fun x => { x with kind := .ready } with deferred := g.deferred ++ [f] })
      | none => none
    | _ => none

def execGresResult (gid op : Nat) (s : State) : Out := .next ((gresTake s gid op).getD s)

/-- RUNNER_REMOTE_CONTRIBUTION: a contribution from another device to a joined object, in its present
round (R311, R315). One for another round or another count is not accepted. -/
def execRunnerRemoteContribution (lid obj : Nat) (val : BitVec 4280) (st : BitVec 8) (count : BitVec 32)
    (round : BitVec 16) (s : State) : Out :=
  let n := objNo lid obj
  let o := objAt s n
  if !s.variant.scaleout || !o.joined || o.round ≠ round || countBad o count.toNat
      || !mayContribute s n count.toNat 1 then .next s
  else .next (modObj s n fun o => contribute o count.toNat 1 val (st &&& 0xF#8))

end Sys2Proof.Machine
end

