-- ==== Sys2Proof/Machine/Phases.lean ====
section
/-! DEFINITION. Phases.lean: the end of a phase, the validation of speculating groups, their commit and their
rollback (R296 to R298, R303 to R310, R327). -/

namespace Sys2Proof.Machine

/-! ## Validation of a read record (R306, R327) -/

/-- What a record finds at its sector: it passes or fails, or the line has first to be there. -/
inductive Verdict where
  | pass | fail
  | wait
  | go (s : State)

/-- A record is judged on its sector as its slice holds it. `clean` asks that no byte of the sector be dirty
in the core's cache ways. -/
def judge (s : State) (core lid : Nat) (r : ReadRec) (clean : Bool) : Verdict :=
  let asid := (launchAt s lid).asid
  let line := r.sector / 4
  let i := r.sector % 4
  let k := sliceOf s lid asid (line * 128)
  let t : Touch := ⟨lid, asid, line, byteRange (32 * i) 32, false, false, false, false⟩
  match findL2 (sliceAt s k) asid line with
  | some x =>
    if hasBit x.valid i && (x.place ≠ 2 || x.mesi (i / 2) ≠ .i) then
      let ver := x.vers.getD i 0
      if !r.byval && r.ver ≠ 0 && ver ≠ 0 then (if r.ver = ver then .pass else .fail)
      else if clean && (dirtySector s core asid r.sector).2 ≠ 0 then .fail
      else if sectorHash (sectorData x.data i) = r.hash then .pass
      else .fail
    else
      match readyLine s k t fun _ => true with
      | .go s => .go s
      | _ => .wait
  | none =>
    match readyLine s k t fun _ => true with
    | .go s => .go s
    | _ => .wait

/-- Whether some fill has still to complete a read record of a group. -/
def recordsOpen (g : Group) : Bool :=
  g.ops.any fun o =>
    match o.kind with
    | .load _ accs => accs.any fun a => a.fix.isSome
    | _ => false

/-! ## Commit and rollback of speculation (R307, R308) -/

/-- Write records become stores at the L1, in record order (R307). -/
def storeRecords (s : State) (core gid lid : Nat) : List WriteRec → Option State
  | [] => some s
  | w :: ws =>
    let s? := (List.range 32).foldl (fun (s? : Option State) i =>
      s?.bind fun s =>
        if hasBit w.mask i then storeL1 s core gid lid (32 * w.sector + i) 1 (bits w.data.toNat (8 * i) 8) false
        else some s) (some s)
    s?.bind fun s => storeRecords s core gid lid ws

/-- A group whose speculation is over. -/
def endSpec (g : Group) : Group := { g with spec := default }

/-- The groups whose speculation on an instance is not resolved. -/
def speculators (s : State) (n : Nat) : List Nat :=
  (s.groups.filter fun e => e.2.spec.inst = n && !e.2.spec.rollback && e.2.speculative).map (·.1)

/-- At the end of the phase a group goes from speculating to validating, once its read records are complete (R310). -/
def beginCheck (g : Group) : Option Group :=
  if recordsOpen g then none
  else some { g with spec := { g.spec with st := .validating, checks := g.spec.reads, failed := false } }

/-- The next check of a group that is validating: a record is judged on its sector as it then stands, in one core cycle of
its slice's crucible (R82, R306). `none` when it has to wait. -/
def checkSpec (s : State) (gid : Nat) : Option State :=
  let g := grpAt s gid
  match g.spec.checks with
  | [] => none
  | r :: rs =>
    let k := sliceOf s (lidOf s gid) (asidOf s gid) (r.sector / 4 * 128)
    if !crucibleFree s k then none
    else
      let judged := fun (ok : Bool) =>
        some (useCrucible (modGrp s gid fun g =>
          { g with spec := { g.spec with checks := rs, failed := g.spec.failed || !ok } }) k 1)
      match judge s g.core (lidOf s gid) r r.byval with
      | .go s => some s
      | .wait => none
      | .pass => judged true
      | .fail => judged false

/-- The validation of the groups that speculate on an instance: its next step, or the groups with whether they pass. -/
def validateAll (s : State) : List Nat → Except (Option State) (List (Nat × Bool))
  | [] => .ok []
  | gid :: gs =>
    let g := grpAt s gid
    if g.spec.st ≠ .validating then .error ((beginCheck g).map (putGrp s gid))
    else if !g.spec.checks.isEmpty then .error (checkSpec s gid)
    else (validateAll s gs).map ((gid, !g.spec.failed) :: ·)

/-- Each group commits or begins to roll back. -/
def resolveSpec : State → List (Nat × Bool) → Option State
  | s, [] => some s
  | s, (gid, ok) :: rs =>
    let g := grpAt s gid
    if ok then
      (storeRecords s g.core gid (lidOf s gid) g.spec.writes).bind fun s =>
        resolveSpec (signStores (modGrp s gid endSpec) g.team g.spec.sts) rs
    else resolveSpec (modGrp s gid fun g => { g with spec := { g.spec with rollback := true } }) rs

/-- A thread of a group that rolls back: its registers as the undo log and the speculation state hold them, at the item
after its PHNXT.SPEC (R308). -/
def undoThread (s : State) (gid : Nat) (sp : Spec) (l : Nat) (t : Thread) : Thread :=
  let old := undoEntries s gid l (mapGet 0 sp.undo l)
  let at_ := mapGet (0, none) sp.resume l
  { old.foldl (fun t e => writeV t e.1 e.2) t with
    p := mapGet 0 sp.savedP l, draw := mapGet 0 sp.savedDraw l, recon := mapGet [] sp.savedRecon l
    pc := at_.1, block := at_.2, wait := .none }

/-- A group that rolls back at a context switch: each thread waits as if it had just executed PHNXT.SPEC (R309). -/
def waitAgain (s : State) (sp : Spec) (g : Group) : Group :=
  let idx := (phaserAt s sp.inst).idx
  let op : Op :=
    { id := g.nextOp, pc := 0, setf := none, due := s.cycle, fixed := false, lanes := sp.arrived
      left := sp.arrived, writes := [], fflags := 0, setsFlags := false
      kind := .phaser sp.inst true [] ((lanesOf g.width sp.arrived).map fun l => (l, some (lpOf (g.thread l) idx)))
      holds := .all }
  { g.modLanes sp.arrived fun _ t => { t with wait := .spec g.nextOp } with ops := g.ops ++ [op], nextOp := g.nextOp + 1 }

/-- SPEC_ROLLBACK: once the instructions of the speculation have completed, the threads' registers are restored and
the group no longer speculates; after a failed validation the phase has ended, and at a context switch each thread stands
as if it had just executed its PHNXT.SPEC (R308 to R310). -/
def rollbackSpec (s : State) (gid : Nat) : Option State :=
  match mapFind s.groups gid with
  | none => none
  | some g =>
    if !g.spec.rollback || g.ops.any fun o => decide (g.spec.firstOp ≤ o.id) then none
    else
      let sp := g.spec
      let g' := endSpec { g.modLanes sp.arrived (undoThread s gid sp) with s := sp.savedS, obuf := [], obufPrev := [] }
      some (putGrp s gid (if sp.st = .validating then g' else waitAgain s sp g'))

def execSpecRollback (gid : Nat) (s : State) : Out := .next ((rollbackSpec s gid).getD s)

/-! ## The end of a phase (R296 to R298) -/

/-- Whether the present phase of an instance can end: every signaller has signalled it; or there is none,
and a change is pending. -/
def phaseOver (s : State) (p : Phaser) : Bool :=
  if (p.members.any fun m => signalsMode m.mode) || p.unstarted ≠ 0 then remaining s p = 0
  else p.members.any (·.pend.isSome)

/-- LP := max(LP, x), in the order of R295. -/
def raiseLp (t : Thread) (idx x : Nat) : Thread := if phDiff (lpOf t idx) x < 0 then setLp t idx x else t

/-- The pending change of a member takes effect (R297). -/
def applyPend (p : Phaser) (s : State) (m : Member) : State :=
  match m.pend with
  | some mode =>
    if mode = .none then s
    else modGrpIf s m.gid fun g => { g with threads := g.threads.map fun t => raiseLp t p.idx p.ph }
  | none => s

/-- Whether a group has a thread that runs. -/
def alive (s : State) (gid : Nat) : Bool :=
  match mapFind s.groups gid with
  | some g => g.live ≠ 0
  | none => false

/-- The instance after its phase: the next phase number, and the members with their changes applied. -/
def nextPhase (s : State) (p : Phaser) : Phaser :=
  { p with
    ph := (p.ph + 1) % 2 ^ 32
    members := (p.members.filter fun m => alive s m.gid && m.pend ≠ some .none).map fun m =>
      match m.pend with
      | some mode => { m with mode := mode, pend := none }
      | none => m
    unreleased := p.unreleased.filter fun u => !released s u.2.1
    due := none }

/-- Core cycles until the end of a phase is observable: none when only changes are pending; in a core's unit; in
a die's engine; across dies (R296). -/
def phaseCycles (s : State) (p : Phaser) : Nat :=
  if !(p.members.any fun m => signalsMode m.mode) then 0
  else
    match p.scope with
    | .team => 8
    | .part => if 1 < (partAt s (launchAt s p.lid).part).dies.length then 600 else 200
    | _ => 200

/-- PHASE_END (R296): the phase ends, changes apply, and every group that speculates on the instance is
validated, record by record, before any of them commits or rolls back. -/
def endPhase (s : State) (n : Nat) : Option State :=
  match mapFind s.phasers n with
  | none => none
  | some p =>
    let due := p.due.getD (s.cycle + phaseCycles s p)
    if !phaseOver s p then none
    else if s.cycle < due then
      if p.due.isSome then none else some { s with phasers := mapPut s.phasers n { p with due := some due } }
    else
      match validateAll s (speculators s n) with
      | .error o => o
      | .ok vs =>
        let s := { s with groups := s.groups.map fun e =>
          if e.2.spec.inst = n && e.2.spec.st = .arriving then (e.1, endSpec e.2) else e }
        let p' := nextPhase s p
        let s := p.members.foldl (applyPend p') { s with phasers := mapPut s.phasers n p' }
        resolveSpec s vs

def execPhaseEnd (inst : Nat) (s : State) : Out := .next ((endPhase s inst).getD s)

end Sys2Proof.Machine
end

