-- ==== Sys2Proof/Machine/System.lean ====
section
/-! DEFINITION. System.lean: control registers, time, messages, instruction lines and carved ways, class
0x380, with the return from privileged mode (R85, R343, R377 to R386). -/

namespace Sys2Proof.Machine

/-! ## Control and status registers (R377) -/

/-- TXSTAT of a thread (R343). -/
def txstat (t : Thread) : Word :=
  let x := t.tx
  BitVec.ofNat 64 (x.cause % 16 + x.active.toNat * 2 ^ 4 + x.ord.toNat * 2 ^ 5 + x.irrev.toNat * 2 ^ 6
    + x.code % 256 * 2 ^ 8 + min x.aborts 255 * 2 ^ 16 + min x.conf 15 * 2 ^ 24
    + x.reads.length % 64 * 2 ^ 32 + x.writes.length % 32 * 2 ^ 40 + x.undo % 64 * 2 ^ 48)

/-- QUANTUM of a core (R364): LEN, and what of it is left. -/
def quantumOf (s : State) (core : Nat) : Word :=
  let c := coreAt s core
  BitVec.ofNat 64 (c.qlen * 2 ^ 32 + (c.qlen - (gtOf s - c.qstart)))

/-- The value of a CSR in a lane of a group. -/
def csrRead (s : State) (gid l n : Nat) : Word :=
  let g := grpAt s gid
  match n with
  | 0x00 => g.fflags.setWidth 64
  | 0x01 => g.ftrapen.setWidth 64
  | 0x02 => g.rmode.setWidth 64
  | 0x10 => g.xpc
  | 0x11 => g.xfirst
  | 0x12 => g.xaddr
  | 0x13 => g.xcause.setWidth 64
  | 0x14 => g.xstat.setWidth 64
  | 0x15 => g.xvec
  | 0x16 => g.xscratch
  | 0x18 => g.progidx.setWidth 64
  | 0x20 => txstat (g.thread l)
  | 0x21 => g.txcfg.setWidth 64
  | 0x30 => (g.thread l).batch.setWidth 64
  | 0x40 => BitVec.ofNat 64 (gtOf s)
  | 0x41 => quantumOf s g.core
  | 0x50 => cap0 s
  | 0x51 => cap1 s (launchOf s gid).part ((launchOf s gid).vf % 3)
  | _ => 0

/-- Writes the writable fields of a group's CSR; read-only ones keep their value (R6, R196, R377). -/
def csrWrite (g : Group) (n : Nat) (x : Word) : Group :=
  match n with
  | 0x00 => { g with fflags := x.setWidth 7 }
  | 0x01 => { g with ftrapen := x.setWidth 7 }
  | 0x02 => { g with rmode := writeRmode g.rmode x }
  | 0x10 => { g with xpc := x }
  | 0x15 => { g with xvec := x }
  | 0x16 => { g with xscratch := x }
  | 0x18 => { g with progidx := x.setWidth 32 }
  | 0x21 => { g with txcfg := x.setWidth 2 }
  | _ => g

/-- Whether a CSR may be reached in privileged mode only (R377). -/
def csrPriv (n : Nat) : Bool := decide (0x10 ≤ n) && decide (n ≤ 0x18)

/-- An item of class 0x380. -/
def sysItem (h : Hdr) (srcs dsts : List Opnd) : Item :=
  { hdr := h, cls := .other, srcs := srcs, dsts := dsts, dstVs := true, noStream := true }

/-- CSRR (R382). -/
def execCsrr (h : Hdr) (csrn : BitVec 8) (d : Opnd) (s : State) : Out :=
  let it := { sysItem h [] [d] with privileged := csrPriv csrn.toNat, least := 6 }
  runItem it (fun i ex s =>
    let vals := (lanesOf (grpAt s i.gid).width ex).map fun l => (l, csrRead s i.gid l csrn.toNat)
    .done { writes := destWrites d vals } s) s

/-- What CSRW makes of the old value (R382). -/
def csrNew (op : CsrOp) (old v : Word) : Word :=
  match op with
  | .write => v
  | .set => old ||| v
  | .clr => old &&& ~~~v

/-- CSRW: the register is written, and its old value returned, at completion (R382). -/
def execCsrw (h : Hdr) (csrn : BitVec 8) (op : CsrOp) (d a : Opnd) (s : State) : Out :=
  let it := 
    { sysItem h [a] [d] with privileged := csrPriv csrn.toNat, txBad := true, specHold := true, least := 6 }
  runItem it (fun i ex s =>
    .done { kind := .csrw csrn.toNat op (scalarOf s i.gid ex a) d } s) s

/-- A CSRW completes. -/
def finishCsrw (s : State) (gid : Nat) (o : Op) (n : Nat) (op : CsrOp) (v : Word) (d : Opnd) : State :=
  let vals := (lanesOf 64 o.left).map fun l => (l, csrRead s gid l n)
  let old := csrRead s gid 0 n
  modGrp s gid fun g =>
    let g := csrWrite g n (csrNew op old v)
    completeAll g { o with writes := destWrites d vals }

/-! ## Time, messages, instruction lines, ways, halting -/

/-- GETTIME (R384). -/
def execGettime (h : Hdr) (d : Opnd) (s : State) : Out :=
  runItem { sysItem h [] [d] with least := 12 } (fun i ex s =>
    let vals := (lanesOf (grpAt s i.gid).width ex).map fun l => (l, (BitVec.ofNat 64 (gtOf s) : Word))
    .done { writes := destWrites d vals } s) s

/-- MBOX (R385): does not issue while slots 4 to 7 are full; completes with the reply. -/
def execMbox (h : Hdr) (d a b : Opnd) (s : State) : Out :=
  let it := { sysItem h [a, b] [d] with privileged := true, txBad := true, specHold := true }
  runItem it (fun i ex s =>
    let g := grpAt s i.gid
    match freeSlot (coreAt s g.core) [4, 5, 6, 7] with
    | none => .wait
    | some n =>
      let w1 := scalarOf s i.gid ex a
      let r : MboxRec :=
        { kind := w1.toNat % 128, cause := 0, orig := 0, slot := g.slot, quarter := g.quarter
          core := g.core % Config.coresPerCluster, asid := asidOf s i.gid, w1 := w1
          w2 := scalarOf s i.gid ex b, w3 := 0 }
      let s := modCore s g.core fun c => fillSlot c n r (.mbox i.gid g.nextOp)
      let s := if w1.toNat % 128 = 1 then markUnreplayable s (lidOf s i.gid) else s
      .done { kind := .mbox n d } s) s

/-- Removes a core's instruction lines of an ASID that overlap ranges, and those of its groups' instruction buffers
(R383). -/
def dropInstr (s : State) (core asid : Nat) (rs : List (Nat × Nat)) : State :=
  let covered := fun (line : Nat) => rs.any fun r => r.1 < r.2 && line * 128 < r.2 && r.1 < line * 128 + 128
  let s := { s with groups := s.groups.map fun e =>
    if e.2.core = core && asidOf s e.1 = asid then (e.1, { e.2 with ibuf := e.2.ibuf.filter fun x => !covered x.1 }) else e }
  modCore s core fun c => { c with icache := c.icache.filter fun e => !(e.1 = asid && covered e.2.1) }

/-- ICINV (R383). -/
def execIcinv (h : Hdr) (rng : Option (Opnd × Opnd)) (s : State) : Out :=
  let srcs := match rng with
    | some (a, b) => [a, b]
    | none => []
  runItem { sysItem h srcs [] with txBad := true } (fun i ex s =>
    let g := grpAt s i.gid
    .done {} (dropInstr s g.core (asidOf s i.gid) (linvRanges s i.gid (lanesOf g.width ex) rng))) s

/-- L2WAY (R85): joins the partition's carve changes, and completes when its turn has finished. -/
def execL2way (h : Hdr) (d a : Opnd) (s : State) : Out :=
  let it := { sysItem h [a] [d] with privileged := true, txBad := true }
  runItem it (fun i ex s =>
    let g := grpAt s i.gid
    let w := min 15 (scalarOf s i.gid ex a).toNat
    let s := modPart s (launchOf s i.gid).part fun p =>
      { p with carveQueue := p.carveQueue ++ [(w, some (i.gid, g.nextOp))] }
    .done { kind := .l2way w d } s) s

/-- L2WAY.Q (R85): it takes its turn among the partition's carve changes, and returns what the one before it left. -/
def execL2wayQ (h : Hdr) (d : Opnd) (s : State) : Out :=
  let it := { sysItem h [] [d] with privileged := true, txBad := true }
  runItem it (fun i _ s =>
    let g := grpAt s i.gid
    let s := modPart s (launchOf s i.gid).part fun p =>
      { p with carveQueue := p.carveQueue ++ [(carveQuery, some (i.gid, g.nextOp))] }
    .done { kind := .l2way carveQuery d } s) s

/-- HALT (R386): the launch ends with status HALTED. -/
def execHalt (h : Hdr) (code : BitVec 8) (s : State) : Out :=
  let it := { sysItem h [] [] with privileged := true, txBad := true, specHold := true }
  runItem it (fun i _ s =>
    let lid := lidOf s i.gid
    let cause := (grpAt s i.gid).xcause.toNat
    .done {} (endLaunch (markUnreplayable s lid) lid stHalted 0 cause code.toNat)) s

/-! ## Return from privileged mode (R381, R111, R123, R263, R372) -/

/-- A load stream goes on at entry `idx`; past the last one it is DONE (R111). -/
def resumeLoad (q : Queue) (width idx : Nat) : Queue :=
  let q := { q with entries := [], next := idx, pos := idx, filled := 0, free := q.depth }
  if q.entriesOf width ≤ idx && q.st = .running then { q with st := .done, ctx := none } else q

/-- A copy stream whose fault was at entry `k` goes on at `idx`: the entries between are skipped; from a lower one it reads
again (R111, R372). -/
def resumeCopyStream (q : Queue) (k idx : Nat) : Queue :=
  if k ≤ idx then { q with skipTo := idx }
  else
    let pos := min q.pos idx
    let filled := min q.filled (idx - pos)
    let entries := q.entries.filter fun e => decide (e.k < idx)
    { q with
      pos := pos, filled := filled, entries := entries, next := min q.next idx, wnext := min q.wnext idx
      outs := q.outs.filter fun e => decide (e.k < idx), free := q.depth - filled - entries.length }

/-- An outbound stream whose fault was at entry `k` goes on at `idx`: the entries between are not written; from a lower one it
writes again what the buffer's slots hold (R111, R372; log entry 69). -/
def resumeOut (q : Queue) (k idx : Nat) : Queue :=
  if k ≤ idx then { q with skipTo := idx }
  else
    let first := max idx (q.pos - q.depth)
    let filled := q.pos - min first (q.pos - q.filled)
    { q with
      wnext := first, outs := q.outs.filter fun e => decide (e.k < first), filled := filled
      free := q.depth - filled }

/-- A FAULTED queue goes on at entry `idx`: RUNNING, or still draining for its SQSTOP; its fault has been handled (R111). -/
def resumeQueue (g : Group) (n idx : Nat) : Group :=
  (forgetFault g n).modQueue n fun q =>
    if q.st ≠ .faulted then q
    else
      let k := (q.fault.map (·.idx)).getD idx
      let q := { q with st := if q.stopOp.isSome then QState.stopping else .running, fault := none }
      if q.isLoad then resumeLoad q g.width idx
      else if q.kind = 4 then resumeCopyStream q k idx
      else resumeOut q k idx

/-- Every stopped copy of a group goes on (R123). -/
def resumeCopies (s : State) (gid : Nat) : State :=
  modCore s (grpAt s gid).core fun c =>
    { c with copies := c.copies.map fun x => if x.gid = gid then { x with stopped := none } else x }

/-- The stopped matrix memory operation that a cause reported goes on at column or row `idx` (R263). -/
def resumeMatrix (s : State) (gid idx : Nat) (c : Cause) : State :=
  let go := fun (o : MatOp) =>
    if o.gid = gid && o.id = c.op && o.stopped.isSome then { o with stopped := none, prog := idx, off := 0 }
    else o
  modQuart s (grpAt s gid).quart fun q => { q with ops := q.ops.map go, loads := q.loads.map go }

/-- ERET hands IDX to the operation that R372 names, if any. -/
def handIndex (s : State) (gid : Nat) : State :=
  let g := grpAt s gid
  match g.resumes with
  | none => s
  | some c =>
    if c.sq then modGrp s gid fun g => resumeQueue g c.qn g.progidx.toNat
    else if c.cp then resumeCopies s gid
    else if c.mx then resumeMatrix s gid g.progidx.toNat c
    else s

/-- ERET (R381). -/
def execEret (h : Hdr) (s : State) : Out :=
  let it : Item := { hdr := h, cls := .ctrl, privileged := true, txBad := true }
  runItem it (fun i ex s =>
    let g := grpAt s i.gid
    let pending := g.ops.any fun o =>
      match o.kind with
      | .csrw .. => true
      | _ => false
    if pending then .wait
    else if g.xpc.toNat % 4 ≠ 0 then .fault { code := .misalign, addr := g.xpc }
    else .done { stay := true, ran := some ex } (returnFromTrap (handIndex s i.gid) i.gid)) s

end Sys2Proof.Machine
end

