-- ==== Sys2Proof/Machine/Tx.lean ====
section
/-! DEFINITION. Tx.lean: transactions, class 0x340: opening, commit rounds, aborts, the order token and the
irrevocable token (R316 to R344). -/

namespace Sys2Proof.Machine

/-! ## Opening (R319, R340, R343) -/

/-- An item of class 0x340. -/
def txItem (h : Hdr) (srcs dsts : List Opnd) : Item :=
  { hdr := h, cls := .other, srcs := srcs, dsts := dsts, dstVs := true, noStream := true }

/-- The first TXB after a commit clears ABORTS and CONF (R343). -/
def afterCommit (t : Thread) : Thread :=
  if t.tx.committed then { t with tx := { t.tx with committed := false, aborts := 0, conf := 0 } } else t

/-- An abort is counted: TXSTAT.CAUSE and CODE, ABORTS, and for causes 1 and 2 of an unordered transaction
CONF (R333). -/
def countAbort (t : Thread) (cause code : Nat) : Thread :=
  { t with tx := { t.tx with
      cause := cause
      code := code
      aborts := min (t.tx.aborts + 1) 255
      conf := if (cause = 1 || cause = 2) && !t.tx.ord then min (t.tx.conf + 1) 15 else t.tx.conf } }

/-- The checkpoint of a thread at its TXB (R319). -/
def checkpoint (t : Thread) : Thread :=
  { t with tx := { t.tx with ckP := t.p, ckDraw := t.draw, ckBatch := t.batch, ckRecon := t.recon } }

/-- A thread whose transaction opens. -/
def openTx (t : Thread) (irrev : Bool) : Thread :=
  let t := checkpoint t
  { t with tx := { t.tx with
      active := true, irrev := irrev, reads := [], writes := [], undo := 0, items := 0, wants := none, sts := [] } }

/-- What TXB does in a lane. -/
inductive TxbWay where
  /-- It opens nothing and writes TXSTAT: a retry that fails, or an ORDER abort with its code. -/
  | fails
  | order (code : Nat)
  | opens
  | token
deriving DecidableEq, Repr, Inhabited

/-- The way of R340, for a thread that has no transaction open. -/
def txbWay (l : Launch) (t : Thread) (ord : Option Word) : TxbWay :=
  if t.tx.retry = .fails then .fails
  else if l.det then (if t.tx.lastDone then .order 2 else .opens)
  else
    match ord with
    | some a => if a.toNat < l.next then .order 1 else .opens
    | none => if t.tx.conf = 8 then .token else .opens

/-- TXB in one lane: the state, and the value written to D. -/
def txbLane (i : Issue) (ord : Option (Nat → Word)) (s : State) (l : Nat) : State × Word :=
  let g := grpAt s i.gid
  let la := launchOf s i.gid
  let t := afterCommit (g.thread l)
  let put := fun (t : Thread) => modThread s i.gid l fun _ => t
  let ordered := ord.isSome || la.det
  let t' := { t with
    wait := .txb g.nextOp
    tx := { t.tx with
      ord := ordered, index := ((ord.map fun f => (f l).toNat)).getD 0, retry := .none
      ckPc := i.pc, ckBlock := t.block, firstOp := g.nextOp } }
  match txbWay la t (ord.map fun f => f l) with
  | .fails =>
    let t := { t with wait := .txb g.nextOp, tx := { t.tx with retry := .none } }
    (put t, txstat t)
  | .order code =>
    let t := countAbort { t with wait := .txb g.nextOp, tx := { t.tx with ord := true } } 8 code
    (put t, txstat t)
  | .opens => (put (openTx t' false), 0)
  | .token => (put { t' with tx := { t'.tx with wants := some none } }, 0)

/-- TXB in the lanes of a list: the state, and the value that each writes to D. -/
def txbLanes (i : Issue) (ord : Option (Nat → Word)) : State → List Nat → State × List (Nat × Word)
  | s, [] => (s, [])
  | s, l :: ls =>
    let (s, x) := txbLane i ord s l
    let (s, xs) := txbLanes i ord s ls
    (s, (l, x) :: xs)

/-- TXB.ORD's index operand, which a DETERMINISTIC launch does not read (R337). -/
def txbIndex (s : State) (gid : Nat) (a : Option Opnd) : Option Opnd := if (launchOf s gid).det then none else a

/-- The body of TXB: a lane that opens saves the register that D names, inside its transaction; one whose
undo area is missing aborts before the write (R340). -/
def txbBody (d : Opnd) (a : Option Opnd) (i : Issue) (ex : Mask) (s : State) : Body :=
  let ls := lanesOf (grpAt s i.gid).width ex
  let ord := a.map fun a => fun l => readOpnd s i.gid l a
  let (s, vals) := txbLanes i ord s ls
  let regs := match d with
    | .v n => [n.val]
    | _ => []
  let (s, ok) := saveTxUndo s i.gid regs ls
  .done { writes := destWrites d (vals.filter fun e => ok.contains e.1), kind := .txb } s

/-- TXB (R340). -/
def execTxb (h : Hdr) (d : Opnd) (s : State) : Out :=
  runItem { txItem h [] [d] with txBad := true, specHold := true } (txbBody d none) s
/-- TXB.ORD (R340). -/
def execTxbOrd (h : Hdr) (d a : Opnd) (s : State) : Out :=
  let index := s.issuing.bind fun i => txbIndex s i.gid (some a)
  runItem { txItem h index.toList [d] with txBad := true, specHold := true } (txbBody d index) s

/-! ## TXE, TXA, TXS (R341 to R343) -/

/-- TXE stops the executing lanes that are transactional. -/
def txeBody (last : Bool) (i : Issue) (ex : Mask) (s : State) : Body :=
  let n := (grpAt s i.gid).nextOp
  .done { kind := .txe } (modGrp s i.gid fun g => g.modLanes ex fun _ t =>
    if t.tx.active then { t with wait := .txe n last } else t)

/-- TXE (R341). -/
def execTxe (h : Hdr) (last : Bool) (s : State) : Out := runItem (txItem h [] []) (txeBody last) s

/-- TXA aborts each executing transactional lane with EXPLICIT (R342). -/
def execTxa (h : Hdr) (code : BitVec 8) (s : State) : Out :=
  runItem (txItem h [] []) (fun i ex s => .done {} (abortLanes s i.gid ex 6 code.toNat)) s

/-- TXS (R343). -/
def execTxs (h : Hdr) (d : Opnd) (s : State) : Out :=
  let it := { txItem h [] [d] with lat := some 4 }
  runItem it (laneBody it d 1 fun g l _ => (txstat (g.thread l), 0)) s

/-! ## The round and the riddle (R324, R325, R331) -/

/-- Whether a thread is stopped at TXE; whether that TXE is TXE.LAST. -/
def atTxe (t : Thread) : Bool :=
  match t.wait with
  | .txe .. => true
  | _ => false
def txeLast (t : Thread) : Bool :=
  match t.wait with
  | .txe _ last => last
  | _ => false

/-- Whether two transactions conflict: the write records of one and the read or write records of the other
name a common sector (R325). -/
def txConflict (a b : Tx) : Bool :=
  let hits := fun (x y : Tx) =>
    x.writes.any fun w => hasWrite y.writes w.scr w.sector || hasRead y.reads w.scr w.sector
  hits a b || hits b a

/-- The riddle of an unordered round: each lane survives if it conflicts with no earlier survivor. Answers
the survivors and the others. -/
def riddle (g : Group) : List Nat → List Nat → List Nat × List Nat
  | kept, [] => (kept, [])
  | kept, l :: ls =>
    if kept.any fun k => txConflict (g.thread k).tx (g.thread l).tx then
      let (ks, bad) := riddle g kept ls
      (ks, l :: bad)
    else riddle g (kept ++ [l]) ls

/-- The run of ordered lanes at TXE from an index on: consecutive indices; in a DETERMINISTIC launch
consecutive threads, each with its TXE.LAST but the last (R331, R337). -/
def orderedRun (g : Group) (det : Bool) (next : Nat) : Nat → List Nat
  | 0 => []
  | n + 1 =>
    let key := fun (t : Thread) => if det then t.gtid.toNat else t.tx.index
    match (lanesOf g.width g.txLanes).find? fun l =>
      let t := g.thread l
      t.tx.ord && atTxe t && key t = next with
    | none => []
    | some l => l :: (if det && !txeLast (g.thread l) then [] else orderedRun g det (next + 1) n)

/-- The riddle of a run: it ends before the first lane that conflicts with an earlier one, which aborts. -/
def runRiddle (g : Group) : List Nat → List Nat → List Nat × List Nat
  | kept, [] => (kept, [])
  | kept, l :: ls =>
    if kept.any fun k => txConflict (g.thread k).tx (g.thread l).tx then (kept, [l])
    else runRiddle g (kept ++ [l]) ls

def setRound (s : State) (gid : Nat) (f : Round → Round) : State :=
  modGrp s gid fun g => { g with round := f g.round }

/-- A round begins: its losers abort, and its release runs (R326 step 1). -/
def beginRound (s : State) (gid : Nat) (ordered : Bool) (lanes losers : List Nat) : State :=
  let g := grpAt s gid
  let s := losers.foldl (fun s l => abortLane s gid l 1 0) s
  let (s, rel) := beginRelease s g.core gid g.live true none .nothing []
  setRound s gid fun _ =>
    { stage := .releasing, ordered := ordered, lanes := lanes, rel := rel, todo := [], checks := []
      failed := [], ts := 0 }

/-- COMMIT_ROUND: once every open lane of a group is stopped at TXE, a round of its unordered lanes starts,
or, when it holds the order token, of its run (R324, R330). -/
def formRound (s : State) (gid : Nat) : Option State :=
  match mapFind s.groups gid with
  | none => none
  | some g =>
    let ls := lanesOf g.width g.txLanes
    if g.round.stage ≠ .idle || !g.resident || (coreAt s g.core).switching ≠ 0 || ls.isEmpty || !(ls.all fun l => atTxe (g.thread l)) then none
    else
      let free := ls.filter fun l => !(g.thread l).tx.ord
      if !free.isEmpty then
        let first := free.filter fun l => (g.thread l).tx.irrev
        let rest := free.filter fun l => !(g.thread l).tx.irrev
        let (kept, bad) := riddle g [] (first ++ rest)
        some (beginRound s gid false kept bad)
      else
        let la := launchOf s gid
        if la.token ≠ some gid then none
        else
          match orderedRun g la.det la.next g.width with
          | [] => none
          | run =>
            let (kept, bad) := runRiddle g [] run
            some (beginRound s gid true kept bad)

def execCommitRound (gid : Nat) (s : State) : Out := .next ((formRound s gid).getD s)

/-! ## Locks (R326, R336) -/

/-- The slice that holds a memory sector's locks. -/
def lockSlice (s : State) (gid sector : Nat) : Nat := sliceOf s (lidOf s gid) (asidOf s gid) (sector * 32)

/-- The locks and holds on a sector. -/
def sectorLocks (s : State) (gid : Nat) (scr : Bool) (sector : Nat) : List Lock :=
  if scr then (teamOf s gid).locks.filter fun l => l.sector = sector
  else (sliceAt s (lockSlice s gid sector)).locks.filter fun l => l.asid = asidOf s gid && l.sector = sector

/-- Those of others than the round of a group. -/
def othersLocks (s : State) (gid : Nat) (scr : Bool) (sector : Nat) : List Lock :=
  let r := (grpAt s gid).round
  (sectorLocks s gid scr sector).filter fun l => !(l.gid = gid && (l.lane = 64 || r.lanes.contains l.lane))

/-- Whether a commit's operation on a sector can go to its bank, or to its slice's crucible (R82); that it goes there. -/
def commitFree (s : State) (gid : Nat) (scr : Bool) (sector : Nat) : Bool := scr || crucibleFree s (lockSlice s gid sector)
def commitUses (s : State) (gid : Nat) (scr : Bool) (sector : Nat) : State :=
  if scr then s else useCrucible s (lockSlice s gid sector) 1

/-- Adds a lock of a commit round. -/
def putLock (s : State) (gid : Nat) (scr : Bool) (sector : Nat) (write : Bool) : State :=
  let lock : Lock := ⟨if scr then 0 else asidOf s gid, sector, gid, 64, write, false⟩
  if scr then modTeam s (grpAt s gid).team fun t => { t with locks := t.locks ++ [lock] }
  else modSlice s (lockSlice s gid sector) fun x => { x with locks := x.locks ++ [lock] }

/-- Inserts by a key. -/
def insertKey {α : Type} (key : α → Nat) (x : α) : List α → List α
  | [] => [x]
  | y :: ys => if key y ≤ key x then y :: insertKey key x ys else x :: y :: ys

/-- The write sectors of lanes in the order of locking: scratchpad by offset, then memory by slice and
address. -/
def writeSectors (s : State) (gid : Nat) (lanes : List Nat) : List (Bool × Nat) :=
  let g := grpAt s gid
  let all := dedup (lanes.flatMap fun l => (g.thread l).tx.writes.map fun w => (w.scr, w.sector))
  let key := fun (e : Bool × Nat) => if e.1 then e.2 else (lockSlice s gid e.2 + 1) * 2 ^ 50 + e.2
  all.foldr (insertKey key) []

/-- The round ends with every lock of it released. -/
def unlockRound (s : State) (gid : Nat) : State :=
  setRound (dropLocks s gid fun l => l.lane = 64) gid fun _ => default

/-- Whether a lane names a sector that an irrevocable lane holds against it: one that it writes, held or locked; one
that it reads, locked. -/
def meetsHold (s : State) (gid : Nat) (t : Tx) : Bool :=
  (t.writes.any fun w => (othersLocks s gid w.scr w.sector).any (·.irrev)) ||
  (t.reads.any fun r => (othersLocks s gid r.scr r.sector).any fun l => l.irrev && l.write)

/-- A round that meets an irrevocable hold is abandoned: its lanes that name a held sector abort, the others stay at TXE
(R336). -/
def abandonRound (s : State) (gid : Nat) : State :=
  let g := grpAt s gid
  let bad := g.round.lanes.filter fun l => meetsHold s gid (g.thread l).tx
  unlockRound (bad.foldl (fun s l => abortLane s gid l 2 0) s) gid

/-- The line of a commit's sector, which its operation needs present: as for any crucible operation it is filled first
(R82, R327); one that is to be written whole is only allocated (R76). -/
def commitLine (s : State) (gid : Nat) (scr : Bool) (sector : Nat) (write nofill : Bool) : Ready :=
  let k := lockSlice s gid sector
  let asid := asidOf s gid
  if scr || (findL2 (sliceAt s k) asid (sector / 4)).isSome then .yes
  else if (findMiss (sliceAt s k) asid (sector / 4)).isSome then .no
  else .go (startMiss s k (lidOf s gid) asid (sector / 4) write nofill false)

/-- The write record of a sector among the lanes of a round: after the riddle one lane at most has one. -/
def recordOf (g : Group) (lanes : List Nat) (scr : Bool) (sector : Nat) : WriteRec :=
  ((lanes.findSome? fun l =>
    (g.thread l).tx.writes.find? fun w => w.scr = scr && w.sector = sector)).getD
      { scr := scr, sector := sector, data := 0, mask := 0 }

/-- A sector is locked for a round: its line is filled first, and other locks and holds waited out, but for an
irrevocable lane's, which ends the round (R326, R336). -/
def lockSector1 (s : State) (gid : Nat) (scr : Bool) (sector : Nat) (rest : List (Bool × Nat)) : Option State :=
  let g := grpAt s gid
  let ls := othersLocks s gid scr sector
  if ls.any (·.irrev) then some (abandonRound s gid)
  else if !ls.isEmpty || !commitFree s gid scr sector then none
  else
    match commitLine s gid scr sector true ((recordOf g g.round.lanes scr sector).mask = BitVec.allOnes 32) with
    | .no => none
    | .go s => some s
    | .yes =>
      some (setRound (putLock (commitUses s gid scr sector) gid scr sector true) gid fun r => { r with todo := rest })

/-- COMMIT_LOCK: the release has completed, or the next sector is locked, after waiting out other locks and
holds; or every lock is held. -/
def lockNext (s : State) (gid : Nat) : Option State :=
  match mapFind s.groups gid with
  | none => none
  | some g =>
    match g.round.stage with
    | .releasing =>
      if released s g.round.rel then
        some (setRound s gid fun r => { r with stage := .locking, todo := writeSectors s gid r.lanes })
      else none
    | .locking =>
      match g.round.todo with
      | [] =>
        let checks := (g.round.lanes.filter fun l => !(g.thread l).tx.irrev).flatMap fun l =>
          (g.thread l).tx.reads.map fun r => (l, r)
        if recordsOpen g then none
        else some (setRound s gid fun r => { r with stage := .validating, checks := checks })
      | (scr, sector) :: rest => lockSector1 s gid scr sector rest
    | _ => none

def execCommitLock (gid : Nat) (s : State) : Out := .next ((lockNext s gid).getD s)

/-! ## Validation (R327, R328) -/

/-- The verdict on a record of a round, or the meeting with an irrevocable lane's write lock. -/
def checkRecord (s : State) (gid : Nat) (r : ReadRec) : Option Verdict :=
  let ls := othersLocks s gid r.scr r.sector
  if ls.any fun l => l.write && l.irrev then none
  else if ls.any (·.write) then some .fail
  else if r.scr then
    some (if sectorHash (scratchSector s (grpAt s gid).team r.sector) = r.hash then .pass else .fail)
  else some (judge s (grpAt s gid).core (lidOf s gid) r true)

/-- A record has its result: one that passes holds its sector against writes until the unlock. -/
def noteCheck (s : State) (gid lane : Nat) (r : ReadRec) (pass : Bool) : State :=
  let s := if pass then putLock s gid r.scr r.sector false else s
  setRound s gid fun x =>
    { x with checks := x.checks.filter fun e => !(e.1 = lane && e.2 = r)
             failed := if pass then x.failed else x.failed ++ [lane] }

/-- A lane's commit consumes poison: the cause waits as a fault of its TXE does (R391). -/
def poisonCommit (s : State) (gid lane va : Nat) : State :=
  match ((grpAt s gid).thread lane).wait with
  | .txe op _ => deferPoison s gid op 0 lane va
  | _ => s

/-- Whether the sector of a read record, as a commit reads it, is poisoned. -/
def recordBad (s : State) (gid : Nat) (r : ReadRec) : Bool :=
  if r.scr then scratchBad s (grpAt s gid).team (32 * r.sector) 32
  else
    match findL2 (sliceAt s (lockSlice s gid r.sector)) (asidOf s gid) (r.sector / 4) with
    | some x => hasBit x.poison (r.sector % 4)
    | none => false

/-- The first of the outstanding checks that can go on. -/
def checkNext (s : State) (gid : Nat) : List (Nat × ReadRec) → Option State
  | [] => none
  | (l, r) :: cs =>
    let judged := fun (pass : Bool) =>
      some (noteCheck (commitUses (poisonRecord s gid l r) gid r.scr r.sector) gid l r pass)
    match (if commitFree s gid r.scr r.sector then checkRecord s gid r else some .wait) with
    | none => some (abandonRound s gid)
    | some .pass => judged true
    | some .fail => judged false
    | some (.go s) => some s
    | some .wait => checkNext s gid cs
where
  /-- A check that compares a poisoned value consumes it. -/
  poisonRecord (s : State) (gid l : Nat) (r : ReadRec) : State :=
    if (r.scr || r.byval) && recordBad s gid r then poisonCommit s gid l (32 * r.sector) else s

/-- Splits a run at its first failing lane. -/
def cutRun (failed : List Nat) : List Nat → List Nat × Option Nat
  | [] => ([], none)
  | l :: ls =>
    if failed.contains l then ([], some l)
    else
      let (ks, b) := cutRun failed ls
      (l :: ks, b)

/-- The result of validation: failing lanes abort; the commit takes its stamp, and its scratchpad sectors are
applied at once (R328, R331). -/
def decideRound (s : State) (gid : Nat) : State :=
  let r := (grpAt s gid).round
  let (win, lose) :=
    if r.ordered then
      let (ks, b) := cutRun r.failed r.lanes
      (ks, b.toList)
    else (r.lanes.filter fun l => !r.failed.contains l, r.lanes.filter fun l => r.failed.contains l)
  let s := lose.foldl (fun s l => if r.ordered then abortLane s gid l 8 0 else abortLane s gid l 2 0) s
  if win.isEmpty then unlockRound s gid
  else
    let g := grpAt s gid
    let all := writeSectors s gid win
    let s := (all.filter (·.1)).foldl (fun s e =>
      let w := recordOf g win true e.2
      scratchWriteMask s g.team (32 * e.2) w.data w.mask) s
    let s := win.foldl (fun s l =>
      if (g.thread l).tx.writes.any (·.poison) then poisonCommit s gid l 0 else s) s
    setRound s gid fun r =>
      { r with stage := .applying, lanes := win, todo := all.filter fun e => !e.1, ts := gtOf s }

/-- One memory sector of a commit is applied under its stamp, or what it needs first is begun. -/
def applySector (s : State) (gid sector : Nat) : Option State :=
  let g := grpAt s gid
  let lid := lidOf s gid
  let asid := asidOf s gid
  let k := lockSlice s gid sector
  let w := recordOf g g.round.lanes false sector
  let i := sector % 4
  let mask : BitVec 128 := BitVec.ofNat 128 (w.mask.toNat <<< (32 * i))
  let mine := fun (l : Lock) => l.gid = gid && (l.lane = 64 || g.round.lanes.contains l.lane)
  if !crucibleFree s k then none
  else
    match readyLine s k ⟨lid, asid, sector / 4, mask, true, true, false, false⟩ mine with
    | .no => none
    | .go s => some s
    | .yes =>
      let s := useCrucible s k 1
      let s := if isShadow s lid then s
        else carryPoison (writeLine s k lid asid (sector / 4) (BitVec.ofNat 1024 (w.data.toNat <<< (256 * i))) mask
          g.round.ts) k asid (sector / 4) (if w.poison then bitMask 4 i else 0)
      some (setRound s gid fun r => { r with todo := r.todo.filter (· ≠ (false, sector)) })

/-- COMMIT_APPLY: a check is made; with the last result the commit takes TS; then each sector is applied. -/
def commitApply (s : State) (gid : Nat) : Option State :=
  match mapFind s.groups gid with
  | none => none
  | some g =>
    match g.round.stage with
    | .validating => if g.round.checks.isEmpty then some (decideRound s gid) else checkNext s gid g.round.checks
    | .applying => g.round.todo.findSome? fun e => applySector s gid e.2
    | _ => none

def execCommitApply (gid : Nat) (s : State) : Out := .next ((commitApply s gid).getD s)

/-! ## The end of a commit (R328, R331, R332) -/

/-- A lane's transaction has committed. -/
def commitLane (t : Thread) : Thread :=
  let last := txeLast t
  let t := closeTx t
  { t with
    wait := .none
    bexp := if t.tx.ord then t.bexp else 0
    tx := { t.tx with committed := true, commits := t.tx.commits + 1, lastDone := t.tx.lastDone || last } }

/-- Aborts with ORDER, code 1, every open ordered transaction of a launch whose index NEXT has passed. -/
def passIndex (s : State) (lid next : Nat) : State :=
  (launchGroups s lid).foldl (fun s gid =>
    let g := grpAt s gid
    (lanesOf g.width g.txLanes).foldl (fun s l =>
      let t := g.thread l
      if t.tx.ord && t.wait ≠ .aborting && decide (t.tx.index < next) then abortLane s gid l 8 1 else s) s) s

/-- COMMIT_UNLOCK: every apply has been acknowledged; the locks go, and the lanes continue after their TXE. -/
def commitUnlock (s : State) (gid : Nat) : Option State :=
  match mapFind s.groups gid with
  | none => none
  | some g =>
    let r := g.round
    if r.stage ≠ .applying || !r.todo.isEmpty then none
    else
      let la := launchOf s gid
      let next := match r.lanes.getLast? with
        | some l =>
          let t := g.thread l
          if !r.ordered then la.next
          else if la.det then (if txeLast t then t.gtid.toNat + 1 else t.gtid.toNat)
          else t.tx.index + 1
        | none => la.next
      let s := unlockRound s gid
      let s := dropLocks s gid fun l => r.lanes.contains l.lane
      let s := dropToken s gid fun l => r.lanes.contains l
      let s := r.lanes.foldl (fun s l => signStores s g.team (g.thread l).tx.sts) s
      let s := modGrp s gid fun g => g.modLanes (maskOf 64 r.lanes) fun _ t => commitLane t
      let s := modLaunch s (lidOf s gid) fun l => { l with next := next }
      some (enterBlocks (if r.ordered && !la.det then passIndex s (lidOf s gid) next else s) gid)

def execCommitUnlock (gid : Nat) (s : State) : Out := .next ((commitUnlock s gid).getD s)

/-! ## Aborts and retries (R319, R323, R333, R334) -/

/-- Whether the retry of an abort fails (R333). -/
def retryFails (txcfg : BitVec 2) (cause code : Nat) : Bool :=
  hasBit txcfg 1 || !(cause = 1 || cause = 2 || cause = 7 || (cause = 8 && code = 0))

/-- TX_ABORT: once the instructions it issued in the transaction have completed, an aborting lane discards
its records, is restored to its TXB, and parks where R334 says so. -/
def txAbort (s : State) (gid l : Nat) : Option State :=
  match mapFind s.groups gid with
  | none => none
  | some g =>
    let t := g.thread l
    if t.status ≠ .running || t.wait ≠ .aborting || g.ops.any fun o =>
        decide (t.tx.firstOp ≤ o.id) && hasBit o.left l then none
    else
      let old := undoEntries s gid l t.tx.undo
      let x := t.tx
      let t := old.foldl (fun t e => writeV { t with poison := t.poison.filter (· ≠ e.1) } e.1 e.2) t
      let t := countAbort t x.cause x.code
      let fails := retryFails g.txcfg x.cause x.code
      let t := closeTx { t with
        pc := x.ckPc, block := x.ckBlock, p := x.ckP, draw := x.ckDraw, batch := x.ckBatch, recon := x.ckRecon
        wait := .none, tx := { t.tx with retry := if fails then .fails else .again } }
      let t := if !fails && !x.ord && (x.cause = 1 || x.cause = 2) && !hasBit g.txcfg 0 then backoff s.cycle t
        else t
      let s := dropToken (dropLocks s gid fun k => k.lane = l) gid fun k => k = l
      some (modGrp s gid fun g =>
        let g := g.modThread l fun _ => t
        { g with obuf := g.obuf.map (fun b => (b.1, b.2 &&& ~~~(bitMask 64 l)))
                 obufPrev := g.obufPrev.map fun b => (b.1, b.2 &&& ~~~(bitMask 64 l)) })

def execTxAbort (gid lane : Nat) (s : State) : Out := .next ((txAbort s gid lane).getD s)

/-- TX_LIMIT: a transactional lane has issued its 65,536th item (R323). -/
def txLimit (s : State) (gid l : Nat) : Option State :=
  match mapFind s.groups gid with
  | none => none
  | some g =>
    let t := g.thread l
    if t.status = .running && t.tx.active && decide (65536 ≤ t.tx.items) && t.wait ≠ .aborting
        && !g.round.lanes.contains l then some (abortLane s gid l 5 0)
    else none

def execTxLimit (gid lane : Nat) (s : State) : Out := .next ((txLimit s gid lane).getD s)

/-! ## Tokens (R330, R336, R337) -/

/-- Whether a group has an ordered lane at TXE with index NEXT. -/
def holdsNext (s : State) (gid : Nat) : Bool :=
  let la := launchOf s gid
  !(orderedRun (grpAt s gid) la.det la.next 1).isEmpty

/-- The team of a launch that has a linear index. -/
def teamIndexed (s : State) (lid n : Nat) : Option Team :=
  (s.teams.find? fun e => e.2.lid = lid && e.2.index = n).map (·.2)

/-- Whether a thread of a launch has exited, so that NEXT passes it (R337). -/
def threadGone (s : State) (lid gtid : Nat) : Bool :=
  let la := launchAt s lid
  match teamIndexed s lid (gtid / (la.ngroup * la.width)) with
  | some t =>
    match t.st with
    | .running | .saved =>
      !(t.groups.any fun gid => (grpAt s gid).threads.any fun th =>
        th.status == .running && th.gtid.toNat = gtid)
    | .ending | .done => true
    | _ => false
  | none => false

/-- ORDER_TOKEN_PASS: the token goes to the group whose lane with index NEXT stops at TXE; in a DETERMINISTIC
launch NEXT passes a thread that has exited. -/
def passToken (s : State) (lid : Nat) : Option State :=
  match mapFind s.launches lid with
  | none => none
  | some la =>
    if la.det && threadGone s lid la.next then some (modLaunch s lid fun l => { l with next := l.next + 1 })
    else
      let here : Bool := match la.token with
        | some g => holdsNext s g
        | none => false
      if here then none
      else
        ((launchGroups s lid).find? fun g => holdsNext s g).map fun g =>
          modLaunch s lid fun l => { l with token := some g }

def execOrderTokenPass (lid : Nat) (s : State) : Out := .next ((passToken s lid).getD s)

/-- A lane that has the irrevocable token, and whose release has completed, opens its transaction; it saves
the register that its TXB writes. -/
def openIrrevocable (s : State) (gid l op : Nat) : State :=
  let s := modThread s gid l fun t => openTx t true
  let regs := ((grpAt s gid).ops.filter fun o => o.id = op).flatMap fun o =>
    o.writes.filterMap fun w =>
      match w.dest with
      | .v k n => if k = l then some n else none
      | _ => none
  let (s, ok) := saveTxUndo s gid regs [l]
  if ok.isEmpty then
    modGrp s gid fun g => modOp g op fun o => { o with writes := o.writes.filter fun w => w.lane ≠ l }
  else s

/-- IRREVOCABLE_TOKEN_GRANT: a lane waiting at TXB receives the partition's token and runs a release; then it
opens (R336). -/
def grantToken (s : State) (gid l : Nat) : Option State :=
  match mapFind s.groups gid with
  | none => none
  | some g =>
    let t := g.thread l
    let part := (launchOf s gid).part
    match t.wait, t.tx.wants with
    | .txb _, some none =>
      if (partAt s part).irrevToken.isSome || !g.resident then none
      else
        let s := modPart s part fun p => { p with irrevToken := some (gid, l) }
        let (s, rel) := beginRelease s g.core gid (bitMask 64 l) true none .nothing []
        some (modThread s gid l fun t => { t with tx := { t.tx with wants := some (some rel) } })
    | .txb op, some (some rel) => if released s rel then some (openIrrevocable s gid l op) else none
    | _, _ => none

def execIrrevocableTokenGrant (gid lane : Nat) (s : State) : Out := .next ((grantToken s gid lane).getD s)

end Sys2Proof.Machine
end

