-- ==== Sys2Proof/Machine/Exits.lean ====
section
/-! DEFINITION. Exits.lean: EXIT and REGROUP, which end threads, and what follows when a group's or a team's
last thread has exited (R98, R123, R179, R271, R361). -/

namespace Sys2Proof.Machine

/-- Whether a team has a running thread. -/
def teamAlive (s : State) (team : Nat) : Bool := (teamAt s team).groups.any fun gid => (grpAt s gid).live ≠ 0

/-- The numbers of the quarters on which a team has groups. -/
def teamQuarters (s : State) (team : Nat) : List Nat :=
  dedup ((teamAt s team).groups.map fun gid => (grpAt s gid).quart)

/-- A group's drain ports are emptied: its MDRN in the matrix queue end (R271). -/
def emptyDrains (s : State) (gid : Nat) : State :=
  let s := modQuart s (grpAt s gid).quart fun q => { q with ops := q.ops.filter fun o =>
    match o.kind with
    | .mdrn _ => o.gid ≠ gid
    | _ => true }
  modGrp s gid fun g => { g with drains := [] }

/-- A team's convergence registers become FREE, but for a round that is complete, be it by these exits, and has still to
enter the queue; partly signed rounds are discarded (R249 rule 7, R271). -/
def freeCvs (s : State) (team : Nat) : State :=
  (teamQuarters s team).foldl (fun s n => modQuart s n fun q =>
    { q with cvs := q.cvs.filter fun e => e.2.team ≠ team || (e.2.st = .signing && !e.2.signed.isEmpty && allSigned s e.2) }) s

/-- What follows the end of threads of a group. It changes nothing when done again. -/
def groupExits (s : State) (gid : Nat) : State :=
  let g := grpAt s gid
  let orphan := (coreAt s g.core).copies.find? fun c =>
    c.gid = gid && c.stopped.isSome && (g.thread c.lane).status ≠ .running
  let s := match orphan.bind (·.stopped) with
    | some x => lateFault s (lidOf s gid) x.code
    | none => s
  if g.live ≠ 0 then s
  else
    let s := emptyDrains (modGrp s gid stopQueues) gid
    if teamAlive s g.team then s else freeCvs s g.team

/-- The outcome of an item that may end threads of its group. -/
def thenExits (gid : Nat) (o : Out) : Out :=
  match o with
  | .next s => .next (groupExits s gid)
  | o => o

/-- EXIT (R361). -/
def execExit (h : Hdr) (s : State) : Out :=
  thenExits (issueOf s).gid
    (runItem { ctrlItem h with txBad := true, specHold := true } exitBody s)

/-- REGROUP (R179). -/
def execRegroup (h : Hdr) (k : Fin 7) (d : Opnd) (s : State) : Out :=
  thenExits (issueOf s).gid
    (runItem { hdr := h, cls := .other, dsts := [d], dstVs := true, txBad := true, specHold := true
               guardExit := true } (regroupBody (k.val + 2) d) s)

/-- REGROUP_DEAL: once every member of a set has arrived, the survivors are dealt; groups left with no
thread have ended (R179). -/
def execRegroupDeal (team set : Nat) (s : State) : Out :=
  match regroupDeal s team set with
  | none => .next s
  | some s => .next ((teamAt s team).groups.foldl groupExits s)

end Sys2Proof.Machine
end

