-- ==== Sys2Proof/Machine/Flight.lean ====
section
/-! DEFINITION. Flight.lean: the completion of instructions of variable latency, promotion of program counters
and groups, and the ends of demotion, sleep and parking (R15, R158, R352, R356 to R361). -/

namespace Sys2Proof.Machine

/-! ## Instructions of variable latency (R15, R357, R358) -/

/-- Whether an earlier instruction of the D unit is still in flight (R205). -/
def divBefore (g : Group) (o : Op) : Bool := g.ops.any fun x => x.kind = .div && decide (x.id < o.id)

/-- Whether an earlier PCFG to pcN is still in flight: they complete in the order of issue (R177). -/
def pcfgBefore (g : Group) (id pcn : Nat) : Bool := g.ops.any fun x =>
  decide (x.id < id) && match x.kind with
    | .pcfg n .. => n = pcn
    | _ => false

/-- Whether a convergence register or a queued MMA still holds a signature of an instruction (R255). -/
def signatureHeld (q : Quarter) (gid op : Nat) : Bool :=
  let own := fun (x : Signature) => x.gid = gid && x.op = op
  (q.cvs.any fun e => e.2.signed.any own) || q.ops.any fun o =>
    match o.kind with
    | .mma _ _ _ _ signed _ _ => signed.any own
    | _ => false

/-- The lanes of an instruction whose part of the result is there (R144, R319, R341, R358). -/
def readyLanes (s : State) (gid : Nat) (o : Op) : Mask :=
  let g := grpAt s gid
  let all := fun (b : Bool) => if b then o.left else 0
  match o.kind with
  | .ready => o.left
  | .exact => o.left
  | .div => all (!divBefore g o)
  | .load _ accs => o.left &&& ~~~(maskOf 64 (accs.map (·.lane)))
  | .descr .. => 0
  | .applied _ ids => all ids.isEmpty
  | .release rel => all (released s rel)
  | .sending ids => all (ids.all fun n => ((mapFind s.pubs n).map fun p => hasEntry s p.core p.seq).getD true)
  | .fence .. => 0
  | .sqstop q =>
    match mapFind g.queues q with
    | some x => all x.stopOp.isNone
    | none => o.left
  | .batch ids => all !((coreAt s g.core).copies.any fun c => ids.contains c.id)
  | .matrix ids => all (ids.all fun n => (matOpAt (quartAt s g.quart) n).isNone)
  | .signature _ => all !(signatureHeld (quartAt s g.quart) gid o.id)
  | .mrel => all ((quartAt s g.quart).reserved.map (·.1) ≠ some g.team)
  | .phaser n _ rels waits => all (rels.all (released s) && waits.all (waitEnded s gid n))
  | .txb => maskWhere 64 fun l => hasBit o.left l &&
      ((g.thread l).wait ≠ .txb o.id || (g.thread l).tx.wants.isNone)
  | .txe => maskWhere 64 fun l => hasBit o.left l &&
      match (g.thread l).wait with
      | .txe n _ => n ≠ o.id
      | _ => true
  | .mdecl .. => o.left
  | .pcfg pcn .. => all !(pcfgBefore g o.id pcn)
  | .scan .. => 0
  | .csrw .. => o.left
  | .gred .. => 0
  | .gres .. => 0
  | .l2way .. => 0
  | .mbox .. => 0
  | .regroup => 0

/-- What completion itself does in the group (R177, R295, R340). -/
def completeEffect (s : State) (g : Group) (o : Op) (m : Mask) : Group :=
  match o.kind with
  | .pcfg pcn wid set => { g with pcfg := mapPut g.pcfg pcn ⟨set, wid⟩ }
  | .txb => g.modLanes m fun _ t => if t.wait = .txb o.id then { t with wait := .none } else t
  | .phaser n _ _ waits =>
    (endWaits g (phaserAt s n).idx waits).modLanes m fun _ t =>
      if t.wait = .spec o.id then { t with wait := .none } else t
  | _ => g

/-- The wait of a speculative barrier whose phase goes on: once its group has fully arrived the group
begins to speculate, and every PHNXT.SPEC of it on the instance completes (R303). -/
def speculateNow (s : State) (gid n : Nat) (waits : List (Nat × Option Nat)) : Option State :=
  let g := grpAt s gid
  if g.spec.st ≠ .arriving || !fullyArrived g n || (coreAt s g.core).switching ≠ 0 ||
      waits.any (waitEnded s gid n) then none
  else
    let g := beginSpec g n
    let g := g.modLanes g.live fun _ t => { t with wait := .none }
    let os := g.ops.filter fun o =>
      match o.kind with
      | .phaser m true _ _ => m = n
      | _ => false
    some (putGrp s gid (os.foldl completeAll g))

/-- INSTRUCTION_COMPLETE: an instruction of variable latency completes in those of the given lanes whose part
of the result is there; one that acts once for its group completes in all of them (R15, R358). -/
def completeNow (s : State) (gid op : Nat) (lanes : Mask) : Option State :=
  match mapFind s.groups gid, (mapFind s.groups gid).bind fun g => opOf g op with
  | some g, some o =>
    if o.fixed || !g.resident || s.cycle < o.due then none
    else
      match o.kind with
      | .fence kind sc rel earlier =>
        (fenceStep s gid o kind sc rel earlier).map fun r =>
          if r.2 then modGrp r.1 gid fun g => completeAll g o else r.1
      | .csrw n op v d => some (finishCsrw s gid o n op v d)
      | .mdecl cv rel ms => some (modGrp (finishMdecl s gid cv rel ms) gid fun g => completeAll g o)
      | .phaser n spec _ waits =>
        let m := readyLanes s gid o
        if m ≠ 0 then some (putGrp s gid (completeAll (completeEffect s g o m) o))
        else if spec then speculateNow s gid n waits
        else none
      | _ =>
        let m := readyLanes s gid o &&& lanes
        if m = 0 then none
        else some (putGrp s gid (completeOp (completeEffect s g o m) o m))
  | _, _ => none

def execInstructionComplete (gid op : Nat) (lanes : Mask) (s : State) : Out :=
  .next ((completeNow s gid op lanes).getD s)

/-! ## Promotion and demotion (R352, R356, R361) -/

/-- Issue cycles after which a PC is promoted, and a demotion ends. -/
abbrev promoteAfter : Nat := 64
/-- Core cycles after which a group that is ready is aged. -/
abbrev agedAfter : Nat := 32

/-- PC_PROMOTE: reconvergence waiters at the PC resume (R356). -/
def promotePc (s : State) (gid : Nat) (pc : Word) : Option State :=
  match mapFind s.groups gid with
  | none => none
  | some g =>
    if mapGet 0 g.counts pc.toNat < promoteAfter || g.promoted.contains pc then none
    else some (putGrp s gid { g with
      promoted := g.promoted ++ [pc]
      threads := g.threads.map fun t =>
        match t.wait with
        | .recon _ => if t.pc = pc then { t with wait := .none } else t
        | _ => t })

def execPcPromote (gid : Nat) (pc : Word) (s : State) : Out := .next ((promotePc s gid pc).getD s)

/-- AGING_PROMOTE: a group that was ready and not picked in 32 consecutive core cycles moves ahead (R352). -/
def ageGroup (s : State) (gid : Nat) : Option State :=
  match mapFind s.groups gid with
  | none => none
  | some g => if g.waiting = agedAfter then some (putGrp s gid { g with waiting := agedAfter + 1 }) else none

def execAgingPromote (gid : Nat) (s : State) : Out := .next ((ageGroup s gid).getD s)

/-- YIELD_DEMOTION_END: the demotion of a PC ends after 64 issue cycles of its group (R361). -/
def endDemotion (s : State) (gid : Nat) (pc : Word) : Option State :=
  match mapFind s.groups gid with
  | none => none
  | some g =>
    let past := fun (e : Mask × Nat) => decide (e.1 &&& g.activeAt pc ≠ 0) && decide (promoteAfter ≤ e.2)
    if g.lowPcs.any past then some (putGrp s gid { g with lowPcs := g.lowPcs.filter fun e => !past e }) else none

def execYieldDemotionEnd (gid : Nat) (pc : Word) (s : State) : Out := .next ((endDemotion s gid pc).getD s)

/-! ## Sleep and parking (R158, R361) -/

/-- SLEEP_EXPIRY: global time has reached a sleeping thread's deadline. -/
def wakeThread (s : State) (gid lane : Nat) : Option State :=
  match (mapFind s.groups gid).map fun g => (g.thread lane).wait with
  | some (Wait.sleep gt) =>
    if gt ≤ gtOf s then some (modThread s gid lane fun t => { t with wait := .none }) else none
  | _ => none

def execSleepExpiry (gid lane : Nat) (s : State) : Out := .next ((wakeThread s gid lane).getD s)

/-- PARK_EXPIRY: the core cycles of a parked thread's back-off have passed. -/
def unparkThread (s : State) (gid lane : Nat) : Option State :=
  match (mapFind s.groups gid).map fun g => (g.thread lane).wait with
  | some (Wait.park cycle) =>
    if cycle ≤ s.cycle then some (modThread s gid lane fun t => { t with wait := .none }) else none
  | _ => none

def execParkExpiry (gid lane : Nat) (s : State) : Out := .next ((unparkThread s gid lane).getD s)

end Sys2Proof.Machine
end

