-- ==== Sys2Proof/Machine/Launches.lean ====
section
/-! DEFINITION. Launches.lean: the command processor: queue entries, descriptors, dependences, the start of
a launch, its record, and event rings (R64, R65, R112, R127, R291, R292, R345, R396, R406 to R415). -/

namespace Sys2Proof.Machine

/-! ## Memory as the command processor sees it: at .SYS scope, by physical address (R287, R407, R412) -/

/-- The lines of the slices of a partition that hold the line at a physical address. -/
def paHolders (s : State) (part pa : Nat) : List (Nat × L2Line) :=
  (partAt s part).clusters.flatMap fun k =>
    ((sliceAt s k).lines.filter fun x => x.pa = pa).map fun x => (k, x)

/-- A line: memory under the dirty sectors that slices hold of it. -/
def sysLine (s : State) (part pa : Nat) : Line :=
  (paHolders s part pa).foldl (fun d e =>
    mergeLine d e.2.data (bytesOfSectors (e.2.valid &&& e.2.dirty))) (memLine s part pa)

/-- `n` bytes at a physical address. -/
def sysRead (s : State) (part pa n : Nat) : Nat :=
  let first := pa / 128
  let lines := (List.range ((pa % 128 + n + 127) / 128)).map fun i =>
    (sysLine s part ((first + i) * 128)).toNat * 2 ^ (1024 * i)
  bits (lines.foldl (· + ·) 0) (8 * (pa % 128)) (8 * n)

/-- The bytes of a list at a physical address that fall in a line, and their mask. -/
def bytesInLine (pa line : Nat) (bs : List Byte) : Line × BitVec 128 :=
  (bs.zipIdx).foldl (fun acc e =>
    let a := pa + e.2
    if a / 128 = line then
      (acc.1 ||| BitVec.ofNat 1024 (e.1.toNat <<< (8 * (a % 128))), acc.2 ||| byteRange (a % 128) 1)
    else acc) (0, 0)

/-- The sectors of 32 bytes that are written whole hold no poison any more (R391). -/
def cleanSectors (s : State) (part pa n : Nat) : State :=
  if s.hbmPoison.isEmpty then s
  else
    let first := (pa + 31) / 32
    let whole := (List.range ((pa + n) / 32 - first)).filterMap fun i =>
      match homeOf (partAt s part) (32 * (first + i)) with
      | some (.hbm a) => some (a / 32)
      | _ => none
    { s with hbmPoison := s.hbmPoison.filter fun x => !whole.contains x }

/-- Bytes at a physical address are applied: in memory, and in every line of a slice that holds them. -/
def sysApply (s : State) (part pa : Nat) (bs : List Byte) : State :=
  let s := cleanSectors (storeBytes s part pa bs) part pa bs.length
  let lines := dedup (((List.range bs.length).map fun i => (pa + i) / 128))
  lines.foldl (fun s line =>
    let (d, m) := bytesInLine pa line bs
    let ts := gtOf s
    (paHolders s part (line * 128)).foldl (fun s e =>
      modLine s e.1 e.2.asid e.2.line fun x =>
        { x with
          data := mergeLine x.data d m
          vers := x.vers.mapIdx fun i v => if hasBit (sectorsOf m) i then nextVer v ts else v }) s) s

/-- `n` bytes at a virtual address of an ASID, if every page of them translates with a right. -/
def readVa (s : State) (part asid va n : Nat) (right : Nat → Bool) : Option Nat :=
  let lines := (List.range ((va % 128 + n + 127) / 128)).map fun i =>
    match walk s part asid ((va / 128 + i) * 128) with
    | .leaf pa e _ _ => if right e then some ((sysLine s part pa).toNat * 2 ^ (1024 * i)) else none
    | _ => none
  if lines.any (·.isNone) then none
  else some (bits ((lines.filterMap id).foldl (· + ·) 0) (8 * (va % 128)) (8 * n))

/-! ## Virtual functions (R405, R406) -/

/-- The partition of a virtual function, and its number there. -/
def partOfVf (vf : Nat) : Nat := vf / 3
def funcAt (s : State) (vf : Nat) : Func := mapGet default (partAt s (partOfVf vf)).funcs (vf % 3)
def modFunc (s : State) (vf : Nat) (f : Func → Func) : State :=
  modPart s (partOfVf vf) fun p => { p with funcs := mapPut p.funcs (vf % 3) (f (mapGet default p.funcs (vf % 3))) }

def queueAt (s : State) (vf q : Nat) : CmdQueue := mapGet default (funcAt s vf).queues q
def modQueue (s : State) (vf q : Nat) (f : CmdQueue → CmdQueue) : State :=
  modFunc s vf fun x => { x with queues := mapPut x.queues q (f (mapGet default x.queues q)) }
def ringAt (s : State) (vf r : Nat) : Ring := mapGet default (funcAt s vf).rings r
def modRing (s : State) (vf r : Nat) (f : Ring → Ring) : State :=
  modFunc s vf fun x => { x with rings := mapPut x.rings r (f (mapGet default x.rings r)) }

def partExists (s : State) (part : Nat) : Bool := (mapFind s.parts part).isSome

/-! ## Completion records (R412 to R415) -/

/-- A record but for TIME and PHASE, which its writing fills in. -/
def recordBits (l : Launch) : BitVec 256 :=
  BitVec.ofNat 256 (l.tag + l.status * 2 ^ 32 + l.detail * 2 ^ 36 + l.cause % 256 * 2 ^ 40 + l.aux % 256 * 2 ^ 48
    + l.fcount * 2 ^ 56 + l.tdone % 2 ^ 32 * 2 ^ 128 + min l.nteams (2 ^ 32 - 1) * 2 ^ 160
    + l.replay % 4 * 2 ^ 192 + l.assay % 8 * 2 ^ 194 + l.depFail.toNat * 2 ^ 197 + l.unrepl.toNat * 2 ^ 198)

/-- The record of an entry that names no launch (R409). -/
def malformedRecord : BitVec 256 := BitVec.ofNat 256 (6 * 2 ^ 32 + 7 * 2 ^ 36)

/-- Whether a ring can take a record beside some that are on their way: its LOGN is in range, and it is not full
(R413). -/
def ringOpen (r : Ring) (coming : Nat) : Bool :=
  decide (6 ≤ r.logn) && decide (r.logn ≤ 16) && decide ((r.rtail + coming + 2 ^ 17 - r.rhead) % 2 ^ 17 ≠ 2 ^ r.logn)

/-- Records of a ring that wait at the slices. -/
def recordsComing (s : State) (vf ring : Nat) : Nat :=
  (s.sysOps.filter fun o => match o.job with
    | .record v r .. => v = vf && r = ring
    | _ => false).length

/-- Where a ring's next record goes. -/
def recordPa (r : Ring) : Nat := r.rbase.toNat / 32 * 32 + 32 * (r.rtail % 2 ^ r.logn)

/-- Writes a record in a ring (R413 to R415). -/
def putRecord (s : State) (vf ring : Nat) (rec : BitVec 256) : State :=
  let r := ringAt s vf ring
  let even := r.rtail / 2 ^ r.logn % 2 = 0
  let x := rec.toNat + gtOf s * 2 ^ 64 + (if even then 2 ^ 255 else 0)
  let s := sysApply s (partOfVf vf) (recordPa r) (natBytes 32 x)
  modRing s vf ring fun r =>
    { r with rtail := (r.rtail + 1) % 2 ^ 17, pend := (r.pend + 1) % 4096
             first := if r.pend = 0 then gtOf s else r.first }

/-- Has every waiting launch of a partition read its dependence words again (R412). -/
def askRecheck (s : State) (part : Nat) : State := modPart s part fun p => { p with recheck := true }

/-- The instruction lines of a launch's ASID leave every core of its partition: at the launch's end, and before it starts
(R289). -/
def dropCode (s : State) (lid : Nat) : State :=
  let l := launchAt s lid
  (partAt s l.part).cores.foldl (fun s c => dropInstr s c l.asid [(0, 2 ^ 52)]) s

/-- What a launch holds is given back: pins, phasers, reduction objects, snapshot frames, teams (R65, R350); and its
instruction lines go (R289). -/
def freeLaunch (s : State) (lid : Nat) : State :=
  let s := dropCode s lid
  let l := launchAt s lid
  let s := modPart s l.part fun p => { p with pool := p.pool ++ l.snaps.map (·.2) }
  let s := modLaunch s lid fun l =>
    { l with st := .finished, pins := [], snaps := [], armed := false, holds := false, token := none }
  { s with
    phasers := s.phasers.filter fun e => e.2.lid ≠ lid
    objects := s.objects.filter fun e => e.1 / 256 ≠ lid
    teams := s.teams.filter fun e => e.2.lid ≠ lid }

/-! ## Accesses of agents other than cores, at the slices (R78, R273, R275, R412) -/

/-- Whether an access is the first of its agent's in a partition. -/
def sameAgent (o q : SysOp) : Bool := q.agent = o.agent && q.part = o.part

/-- The slices' copies of the lines that an access touches. -/
def sysLines (s : State) (o : SysOp) : List (Nat × L2Line) :=
  (List.range ((o.pa % 128 + o.n + 127) / 128)).flatMap fun i => paHolders s o.part ((o.pa / 128 + i) * 128)

/-- The sectors of a line that an access touches. -/
def sysSectors (x : L2Line) (o : SysOp) : BitVec 4 :=
  maskOf 4 ((List.range 4).filter fun i => o.pa < x.pa + 32 * i + 32 && x.pa + 32 * i < o.pa + o.n)

/-- An access reaches the slices: a record's place is that of the ring's next, and the operations that it finds on its
lines are before it. -/
def sysArrive (s : State) (o : SysOp) : SysOp :=
  let o := match o.job with
    | .record vf ring .. => { o with pa := recordPa (ringAt s vf ring), n := 32 }
    | _ => o
  { o with arrived := true, before := (sysLines s o).flatMap fun e => waitersOf s e.1 e.2.asid e.2.line }

/-- Of each agent the first access reaches the slices. -/
def sysArrivals (s : State) : List SysOp → List SysOp → List SysOp
  | _, [] => []
  | seen, o :: os =>
    (if o.arrived || seen.any (sameAgent o) then o else sysArrive s o) :: sysArrivals s (seen ++ [o]) os

/-- Whether an access may be made: a load waits for the locks of a commit that has taken its stamp; a write for leases and
floors, for locks and holds, and for the operations that were there before it (R78, R328). -/
def sysReady (s : State) (o : SysOp) : Bool :=
  o.arrived && (sysLines s o).all fun (k, x) =>
    if o.job = .load then !readSealed s k x.asid x.line (sysSectors x o)
    else
      leaseOver s k x && decide (x.hold ≤ s.cycle) &&
      !((sliceAt s k).locks.any fun l => l.asid = x.asid && l.sector / 4 = x.line && hasBit (sysSectors x o) (l.sector % 4)) &&
      (waitersOf s k x.asid x.line).all fun id => !o.before.contains id

/-- An access is made. -/
def sysMake (s : State) (o : SysOp) : State :=
  match o.job with
  | .bytes bs recheck =>
    let s := sysApply s o.part o.pa bs
    if recheck then askRecheck s o.part else s
  | .bit k => sysApply s o.part o.pa [BitVec.ofNat 8 (Nat.lor (sysRead s o.part o.pa 1) (2 ^ k))]
  | .record vf ring rec of =>
    let s := askRecheck (putRecord s vf ring rec) (partOfVf vf)
    match of with
    | some lid => freeLaunch s lid
    | none => s
  | .load => say s (.loaded o.pa (natBytes o.n (sysRead s o.part o.pa o.n)))

/-- The first access that can be made is made, and the next of its agent's reaches the slices. -/
def sysStep (s : State) : Option State :=
  (s.sysOps.find? (sysReady s)).map fun o =>
    let t := sysMake { s with sysOps := s.sysOps.erase o } o
    { t with sysOps := sysArrivals t [] t.sysOps }

/-- As many accesses as can be made are made. -/
def sysRun : Nat → State → State
  | 0, s => s
  | n + 1, s =>
    match sysStep s with
    | some s => sysRun n s
    | none => s

/-- An agent makes an access, after its earlier ones. -/
def sysPost (s : State) (agent : SysAgent) (part pa n : Nat) (job : SysJob) : State :=
  let os := s.sysOps ++ [{ agent := agent, part := part, pa := pa, n := n, job := job, arrived := false, before := [] }]
  sysRun os.length { s with sysOps := sysArrivals s [] os }

/-- Writes bytes for the command processor and the dispatcher. -/
def sysWrite (s : State) (part pa : Nat) (bs : List Byte) : State :=
  sysPost s .command part pa bs.length (.bytes bs false)

/-- Writes a launch's done word (R412). -/
def putDoneWord (s : State) (l : Launch) : State :=
  if l.donea = 0 || l.donea % 8 ≠ 0 then s
  else
    let x := l.donev % 2 ^ 63 + (if l.status = stOk then 0 else 2 ^ 63)
    sysPost s .command l.part l.donea 8 (.bytes (natBytes 8 x) true)

/-- Writes a record, for a launch after its done word; the launch then gives back what it holds. -/
def writeRecord (s : State) (vf ring : Nat) (rec : BitVec 256) (of : Option Nat) : State :=
  let s := match of with
    | some lid => modLaunch (putDoneWord s (launchAt s lid)) lid fun l => { l with st := .recorded }
    | none => s
  sysPost s .command (partOfVf vf) 0 0 (.record vf ring rec of)

/-- Posts a record: it is written, or held for a ring that cannot take it (R413). -/
def postRecord (s : State) (vf ring : Nat) (rec : BitVec 256) (of : Option Nat) : State :=
  let r := ringAt s vf ring
  if r.held.isEmpty && ringOpen r (recordsComing s vf ring) then writeRecord s vf ring rec of
  else
    let s := match of with
      | some lid => modLaunch s lid fun l => { l with st := .recorded }
      | none => s
    modRing s vf ring fun r => { r with held := r.held ++ [rec], heldOf := r.heldOf ++ [of] }

/-- The teams of a launch that are there. -/
def launchTeams (s : State) (lid : Nat) : List Nat := (s.teams.filter fun e => e.2.lid = lid).map (·.1)

/-- Whether every team of a launch is DONE, and with it every verdict in (R350, R399). -/
def allDone (s : State) (lid : Nat) : Bool :=
  let l := launchAt s lid
  let ended : Bool := l.st = LaunchState.ending
  (ended || l.nextDeal = l.nteams) && (launchTeams s lid).all fun t =>
    (teamAt s t).st = TeamState.done && (ended || (teamAt s t).runs.isEmpty || (teamAt s t).verdict.isSome)

/-- Drops the lines of a launch's ASID in its SNAP ranges from the slices, their leases kept (R394 step 2). -/
def dropSnapLines (s : State) (l : Launch) : State :=
  (partAt s l.part).clusters.foldl (fun s k =>
    ((sliceAt s k).lines.filter fun x => x.asid = l.asid &&
      l.ranges.any fun r => r.snap && r.has (x.line * 128)).foldl (fun s x =>
        keepLease (dropLine s k x.asid x.line) k x) s) s

/-- Steps 2 to 6 of a rollback, once the launch has stopped: its pages are restored, and it starts again before
any other of its queue (R394). -/
def finishRollback (s : State) (lid : Nat) : State :=
  let l := launchAt s lid
  let s := dropSnapLines s l
  let s := l.snaps.foldl (fun s e => copyFrame s l.part e.2 e.1) s
  let s := modPart s l.part fun p => { p with pool := p.pool ++ l.snaps.map (·.2) }
  let s := if l.bitmap = 0 then s else sysWrite s l.part l.bitmap (List.replicate ((l.nteams + 7) / 8) 0)
  let s := modLaunch s lid fun l =>
    { l with st := .waiting, status := 0, detail := 0, aux := 0, rolling := false, replay := l.replay + 1
             teams := [], nextDeal := 0, nextCore := 0, tdone := 0, snaps := [], token := none, next := 0
             holds := false }
  { s with
    phasers := s.phasers.filter fun e => e.2.lid ≠ lid
    objects := s.objects.filter fun e => e.1 / 256 ≠ lid
    teams := s.teams.filter fun e => e.2.lid ≠ lid }

/-- What follows once every team of a launch is DONE: its record; or its rollback goes on, unless it has been
marked unreplayable meanwhile, or its snapshot is poisoned (R392, R394). -/
def concludeLaunch (s : State) (lid : Nat) : State :=
  let l := launchAt s lid
  let post := fun (s : State) => postRecord s l.vf l.ring (recordBits (launchAt s lid)) (some lid)
  if !l.rolling then post s
  else if l.unrepl then post (modLaunch s lid fun l => { l with status := stPartial })
  else if l.snaps.any fun e => framePoisoned s l.part e.2 then post s
  else finishRollback s lid

/-- Concludes a launch that has completed or ended. -/
def settleLaunch (s : State) (lid : Nat) : State :=
  let l := launchAt s lid
  let due : Bool := match l.st with
    | .running | .ending => allDone s lid && l.shadow.isNone
    | _ => false
  if due then concludeLaunch s lid else s

/-- Ends a launch and posts its record if no team of it is left to stop. -/
def endAndSettle (s : State) (lid status detail aux : Nat) : State :=
  settleLaunch (endLaunch s lid status detail 0 aux) lid

/-- RECORD_WRITE_DEFERRED: the oldest held record of a ring is written once the ring can take it. -/
def writeHeld (s : State) (vf ring : Nat) : Option State :=
  let r := ringAt s vf ring
  match r.held, r.heldOf with
  | rec :: held, of :: heldOf =>
    if !ringOpen r (recordsComing s vf ring) then none
    else
      let s := modRing s vf ring fun r => { r with held := held, heldOf := heldOf }
      some (writeRecord s vf ring rec of)
  | _, _ => none

/-- A launch is rolled back and replayed if it can be; otherwise it ends with the given status; after two replays
with FAILED (R392, R394, R399). -/
def rollbackOrEnd (s : State) (lid orElse : Nat) : State :=
  let l := launchAt s lid
  if !l.incomplete then s
  else if l.unrepl then endAndSettle s lid orElse 0 0
  else if 2 ≤ l.replay then endAndSettle s lid stFailed 0 0
  else settleLaunch (modLaunch (endLaunch s lid stFailed 0 0 0) lid fun l => { l with rolling := true }) lid

def execRecordWriteDeferred (vf ring : Nat) (s : State) : Out := .next ((writeHeld s vf ring).getD s)

/-- RHEAD_WRITE (R413). A write to a function of no partition is discarded (R405). -/
def execRheadWrite (vf ring : Nat) (val : BitVec 17) (s : State) : Out :=
  if partExists s (partOfVf vf) then .next (modRing s vf ring fun r => { r with rhead := val.toNat }) else .next s

/-- RING_INTERRUPT: a threshold of the ring is reached (R414). -/
def ringInterrupt (s : State) (vf ring : Nat) : Option State :=
  let r := ringAt s vf ring
  let byCount := r.cnt ≠ 0 && decide (r.cnt ≤ r.pend)
  let byTime := r.ticks ≠ 0 && r.pend ≠ 0 && decide (r.first + r.ticks ≤ gtOf s)
  if byCount || byTime then
    some (modRing (say s (.interrupt vf r.vec)) vf ring fun r => { r with pend := 0 })
  else none

def execRingInterrupt (vf ring : Nat) (s : State) : Out := .next ((ringInterrupt s vf ring).getD s)

/-! ## Acceptance (R407 to R411) -/

/-- DETAIL 1: a reserved field is not zero, a field is outside its range or multiple, or the ASID has no
tables (R410, R411). -/
def descBad (s : State) (l : Launch) : Bool :=
  let f := Launch.fieldOf l.desc
  let noAsid : Bool := match asidEntry s l.part l.asid with
    | some e => e % 2 = 0
    | none => true
  f 144 58 6 ≠ 0 || f 152 57 7 ≠ 0 || f 160 42 22 ≠ 0 || l.desc.toNat / 2 ^ (8 * 176) ≠ 0
  || l.teamx = 0 || l.teamy = 0 || l.teamz = 0
  || l.ngroup = 0 || (if l.isPair then 128 else 64) < l.ngroup || l.widthCode = 3
  || l.regs = 0 || (if l.widthCode = 2 then 512 else 768) < l.regs
  || (if l.isPair then 917504 else 458752) < l.scratch
  || 32 < l.txr || 16 < l.txw || 16 < l.atiles || 1024 < l.brows || l.brows % 64 ≠ 0
  || 32 < l.nrange || 16 < l.nslice || 8 < l.nph || 4 < l.ndep
  || l.code % 4 ≠ 0 || l.argsVa % 8 ≠ 0 || l.donea % 8 ≠ 0 || ((List.range 4).any fun i => l.depa i % 8 ≠ 0)
  || noAsid

/-- A launch that has been accepted: its descriptor is read, and DETAIL 1 is checked. -/
def acceptLaunch (s : State) (vf q : Nat) (desc : BitVec 2048) (maxprio : Nat) : State :=
  let part := partOfVf vf
  let (lid, s) := freshId s
  let l : Launch := { (default : Launch) with
    part := part, vf := vf, queue := q, order := (partAt s part).nextOrder, desc := desc }
  let l := { l with prio := min l.prioField maxprio, unrepl := !l.snapOn }
  let s := modPart s part fun p => { p with nextOrder := p.nextOrder + 1 }
  let s := { s with launches := mapPut s.launches lid l }
  if descBad s l then endAndSettle s lid stRejected 1 0 else askRecheck s part

/-- A queue entry's command (R408, R409). -/
inductive Command where
  | nop
  | launch (pa : Nat)
  | stop (tag : Nat)
  | switch (tag : Nat)
  | malformed
deriving DecidableEq, Repr, Inhabited

def commandOf (p : Partition) (x : Nat) : Command :=
  let op := x % 256
  let a := bits x 64 64
  if bits x 8 56 ≠ 0 || bits x 128 384 ≠ 0 then .malformed
  else if op = 0 then (if a = 0 then .nop else .malformed)
  else if op = 1 then
    (if a % 256 = 0 && backedHbm p a && backedHbm p (a + 255) then .launch a else .malformed)
  else if op = 2 then (if a < 2 ^ 32 then .stop a else .malformed)
  else if op = 3 then (if a < 2 ^ 32 then .switch a else .malformed)
  else .malformed

/-- Whether a queue has an entry to read (R406, R407, R413). -/
def CmdQueue.waits (q : CmdQueue) : Bool :=
  q.en && decide (4 ≤ q.logn) && decide (q.logn ≤ 16) && q.head ≠ q.tail && q.pending.isNone

/-- The queue of a partition that is read next, as its function's number and its own: the highest MAXPRIO,
and among equal ones in turn (R407). -/
def nextQueue (s : State) (part : Nat) : Option (Nat × Nat) :=
  let p := partAt s part
  if p.quiesced || p.tearing then none
  else
    let all := (List.range 48).map fun i => (p.rrq + 1 + i) % 48
    let ready := all.filter fun n => (queueAt s (3 * part + n / 16) (n % 16)).waits
    let prio := fun n => (queueAt s (3 * part + n / 16) (n % 16)).maxprio
    let top := ready.foldl (fun m n => max m (prio n)) 0
    (ready.find? fun n => prio n = top).map fun n => (3 * part + n / 16, n % 16)

/-- The command of the entry that a queue's turn reads. -/
def nextCommand (s : State) (vf q : Nat) : Option Command :=
  let part := partOfVf vf
  if nextQueue s part ≠ some (vf, q) then none
  else
    let c := queueAt s vf q
    some (commandOf (partAt s part) (sysRead s part (c.qbase.toNat / 64 * 64 + 64 * c.head) 64))

/-- The entry has been read. -/
def takeEntry (s : State) (vf q : Nat) : State :=
  let s := modPart s (partOfVf vf) fun p => { p with rrq := 16 * (vf % 3) + q }
  modQueue s vf q fun c => { c with head := (c.head + 1) % 2 ^ c.logn }

/-- Whether a function accepts no launch: 64 records of a ring of it are held (R413), or its partition is
quiesced (R426). -/
def functionBlocked (s : State) (vf : Nat) : Bool :=
  (partAt s (partOfVf vf)).quiesced || (funcAt s vf).rings.any fun e => 64 ≤ e.2.held.length

/-- The order in which the waiting LAUNCH entries of a function were read. -/
def waitingEntries (s : State) (vf : Nat) : List Nat :=
  (funcAt s vf).queues.filterMap fun e => e.2.pending.map (·.1)

def acceptAt (s : State) (vf q pa : Nat) : State :=
  acceptLaunch s vf q (BitVec.ofNat 2048 (sysRead s (partOfVf vf) pa 256)) (queueAt s vf q).maxprio

/-- LAUNCH_COMMAND: an entry is read and its launch accepted; or, the function accepting none, it waits; or
an entry that has waited longest is accepted (R407, R408, R413). -/
def launchEntry (s : State) (vf q : Nat) : Option State :=
  match (queueAt s vf q).pending with
  | some (n, pa) =>
    if functionBlocked s vf || (waitingEntries s vf).any fun m => decide (m < n) then none
    else some (acceptAt (modQueue s vf q fun c => { c with pending := none }) vf q pa)
  | none =>
    match nextCommand s vf q with
    | some (.launch pa) =>
      let s := takeEntry s vf q
      if functionBlocked s vf || !(waitingEntries s vf).isEmpty then
        let (n, s) := freshId s
        some (modQueue s vf q fun c => { c with pending := some (n, pa) })
      else some (acceptAt s vf q pa)
    | _ => none

def execLaunchCommand (vf q : Nat) (s : State) : Out := .next ((launchEntry s vf q).getD s)

/-- NOP_COMMAND (R408). -/
def nopEntry (s : State) (vf q : Nat) : Option State :=
  match nextCommand s vf q with
  | some .nop => some (takeEntry s vf q)
  | _ => none
def execNopCommand (vf q : Nat) (s : State) : Out := .next ((nopEntry s vf q).getD s)

/-- The incomplete launches of a function with a LID (R409). -/
def taggedLaunches (s : State) (vf tag : Nat) : List Nat :=
  (s.launches.filter fun e => e.2.vf = vf && e.2.tag = tag && e.2.incomplete && e.2.shadow.isNone).map (·.1)

/-- END_COMMAND (R408). -/
def endEntry (s : State) (vf q : Nat) : Option State :=
  match nextCommand s vf q with
  | some (.stop tag) =>
    some ((taggedLaunches s vf tag).foldl (fun s lid => endAndSettle s lid stEnded 3 0) (takeEntry s vf q))
  | _ => none
def execEndCommand (vf q : Nat) (s : State) : Out := .next ((endEntry s vf q).getD s)

/-- The cores that hold resident teams of launches. -/
def coresOf (s : State) (lids : List Nat) : List Nat :=
  dedup ((s.groups.filter fun e => e.2.resident && lids.contains (teamAt s e.2.team).lid).map (·.2.core))

/-- SWITCH_COMMAND (R408). -/
def switchEntry (s : State) (vf q : Nat) : Option State :=
  match nextCommand s vf q with
  | some (.switch tag) =>
    let s := takeEntry s vf q
    some ((coresOf s (taggedLaunches s vf tag)).foldl (fun s c =>
      modCore s c fun c => { c with switchAsked := true }) s)
  | _ => none
def execSwitchCommand (vf q : Nat) (s : State) : Out := .next ((switchEntry s vf q).getD s)

/-- MALFORMED_ENTRY (R409). -/
def malformedEntry (s : State) (vf q : Nat) : Option State :=
  match nextCommand s vf q with
  | some .malformed => some (postRecord (takeEntry s vf q) vf 0 malformedRecord none)
  | _ => none
def execMalformedEntry (vf q : Nat) (s : State) : Out := .next ((malformedEntry s vf q).getD s)

/-- QTAIL_WRITE (R406, R412). -/
def execQtailWrite (vf q : Nat) (val : BitVec 16) (s : State) : Out :=
  if !partExists s (partOfVf vf) then .next s
  else
    let s := modQueue s vf q fun c =>
      { c with tail := val.toNat, head := if c.en then c.head else val.toNat }
    .next (askRecheck s (partOfVf vf))

/-! ## Dependences (R412) -/

/-- One dependence as its word now stands: met, and failed. -/
def dependence (s : State) (l : Launch) (i : Nat) : Bool × Bool :=
  let w := sysRead s l.part (l.depa i) 8
  (decide (l.depv i % 2 ^ 63 ≤ w % 2 ^ 63), decide (2 ^ 63 ≤ w))

/-- Whether a dependence word is locked by a commit that has taken its stamp, so that its read waits (R328). -/
def dependenceSealed (s : State) (part : Nat) : Bool :=
  s.launches.any fun e => e.2.part = part && e.2.st = LaunchState.waiting &&
    (List.range e.2.ndep).any fun i =>
      !sysReady s ⟨.command, part, e.2.depa i, 8, .load, true, []⟩

/-- DEPENDENCE_CHECK: the words of the waiting launches of a partition are read again. -/
def checkDependences (s : State) (part : Nat) : Option State :=
  if !(partAt s part).recheck || dependenceSealed s part then none
  else
    let t := modPart s part fun p => { p with recheck := false }
    some { t with launches := t.launches.map fun e =>
      let waits : Bool := e.2.st = LaunchState.waiting
      if e.2.part = part && waits then
        let ds := (List.range e.2.ndep).map (dependence s e.2)
        (e.1, { e.2 with depMet := ds.map (·.1), depFail := ds.any (·.2) })
      else e }

def execDependenceCheck (part : Nat) (s : State) : Out := .next ((checkDependences s part).getD s)

/-! ## The tables (R64, R112, R291, R345 step 2) -/

/-- A range of the range table. -/
def rangeBits (x : Nat) : Range :=
  { base := bits x 0 64, pages := bits x 64 36, rd := bits x 100 1 = 1, wr := bits x 101 1 = 1
    ex := bits x 102 1 = 1, snap := bits x 103 1 = 1, inp := bits x 104 1 = 1, out := bits x 105 1 = 1
    elastic := bits x 106 1 = 1 }

/-- Whether a range breaks a condition of its own (R64). -/
def rangeBad (x : Nat) : Bool :=
  let r := rangeBits x
  r.base % 65536 ≠ 0 || 2 ^ 52 ≤ r.base || r.pages = 0 || (r.wr && !r.rd) || (r.inp && r.wr)
  || (r.out && (!r.wr || r.inp)) || 2 ^ 52 < r.stop || bits x 107 21 ≠ 0

/-- The first element of a list that fails, given those before it. -/
def firstBad {α : Type} (bad : List α → α → Bool) : List α → List α → Option Nat
  | _, [] => none
  | before, x :: xs => if bad before x then some before.length else firstBad bad (before ++ [x]) xs

/-- The first malformed entry of a range table. -/
def rangesBad (xs : List Nat) : Option Nat :=
  firstBad (fun before x =>
    rangeBad x || before.any fun y =>
      (rangeBits x).base < (rangeBits y).stop && (rangeBits y).base < (rangeBits x).stop) [] xs

/-- The descriptor and the binding word of an entry of an access-slice table. -/
def sliceEntry (x : Nat) : BitVec 512 × Nat := (BitVec.ofNat 512 x, bits x 512 64)

/-- The first malformed entry of an access-slice table (R99, R101, R112). -/
def slicesBad (l : Launch) (xs : List Nat) : Option Nat :=
  let qsel := fun x => bindQsel (sliceEntry x).2
  let span := fun x => (bindQbase (sliceEntry x).2, bufferBytes (sliceEntry x).2 l.width)
  let iq := fun x => dBits (sliceEntry x).1 8 4
  let fromQueue := fun x => dBits (sliceEntry x).1 6 2 = 1
  firstBad (fun before x =>
    let d := (sliceEntry x).1
    descMalformed d (qsel x) || bindMalformed (sliceEntry x).2 || bits x 576 448 ≠ 0
    || (before.any fun y => qsel y = qsel x) || !scratchHas l (span x).1 (span x).2
    || (before.any fun y => spansMeet (span x).1 (span x).2 (span y).1 (span y).2)
    || (fromQueue x &&
        (!(xs.any fun y => qsel y = iq x && (dBits (sliceEntry y).1 0 3 = 0 || dBits (sliceEntry y).1 0 3 = 5))
         || before.any fun y => fromQueue y && iq y = iq x))) [] xs

/-- Whether a phaser entry is malformed (R291). -/
def phaserBad (d : BitVec 1024) : Bool :=
  let x := d.toNat
  let n := phRanges d
  let scope := bits x 1 3
  let meet := fun i j => spansMeet (phBase d i) (phLen d i) (phBase d j) (phLen d j)
  if !phValid d then x ≠ 0
  else
    bits x 7 57 ≠ 0 || x / 2 ^ 576 ≠ 0 || (scope ≠ 2 && scope ≠ 5 && scope ≠ 6) || 4 < n
    || (List.range 4).any fun g =>
      if g < n then
        phLen d g = 0 || 2 ^ 52 < phBase d g + phLen d g || (List.range g).any fun h => meet g h
      else phBase d g ≠ 0 || phLen d g ≠ 0

/-- The entries of a table of `n` entries of `size` bytes. -/
def tableEntries (x size n : Nat) : List Nat := (List.range n).map fun i => bits x (8 * size * i) (8 * size)

/-! ## What a core can hold (R29, R127, R292, R348) -/

/-- The group indices of a team on a quarter of its core, or of one of its pair's cores. -/
def groupsOn (l : Launch) (far : Bool) (q : Nat) : List Nat :=
  (List.range l.ngroup).filter fun g => g % 4 = q && (!l.isPair || (g / 4 % 2 = 1) = far)

/-- Bytes of the register file of a half-quarter. -/
abbrev halfFile : Nat := 131072

/-- How many groups of a launch a quarter's register file holds (R348). -/
def groupsByRegs (l : Launch) : Nat :=
  if l.widthCode = 0 then 2 * (halfFile / (128 * l.regs)) else halfFile / (4 * l.regs * l.width)

/-- How many teams fit in `total` when each takes `each`: `none` when there is no limit. -/
def fits (total each : Nat) : Option Nat := if each = 0 then none else some (total / each)

/-- The count k of R127 for one core of a team: by groups, registers, stream contexts and tiles. -/
def teamsOnCore (l : Launch) (far : Bool) : Option Nat :=
  let perQuarter := (List.range 4).map fun q => (groupsOn l far q).length
  let limits := perQuarter.flatMap (fun n => [fits 16 n, fits (groupsByRegs l) n, if n = 0 then none else fits 16 l.atiles])
  let all := fits Config.streamContexts (perQuarter.foldl (· + ·) 0 * l.nslice) :: limits
  (all.filterMap id).foldl (fun m n => some (min (m.getD n) n)) none

/-- The count k for a core, or for a core pair. -/
def teamsAtOnce (l : Launch) : Nat :=
  let near := teamsOnCore l false
  if l.isPair then
    match near, teamsOnCore l true with
    | some a, some b => min a b
    | some a, none => a
    | none, b => b.getD 0
  else near.getD 0

/-- The enabled cores of a partition in ascending order, or the lower cores of its pairs (R346). -/
def dealCores (s : State) (l : Launch) : List Nat :=
  let cs := enabledCores s (partAt s l.part)
  if l.isPair then cs.filter fun c => c % 2 = 0 && cs.contains (c + 1) else cs

/-! ## The start of a launch (R65, R345) -/

/-- Step 2 of R345: the launch with its tables, or the DETAIL and AUX of its rejection (R411). -/
def checkTables (s : State) (l : Launch) : Except (Nat × Nat) Launch :=
  let read := fun (va n : Nat) => if n = 0 then some 0 else readVa s l.part l.asid va n pteR
  match read l.rangesVa (16 * l.nrange) with
  | none => .error (2, 0xFF)
  | some x =>
    let rs := tableEntries x 16 l.nrange
    match rangesBad rs with
    | some i => .error (2, i)
    | none =>
      let l := { l with ranges := rs.map rangeBits }
      let inside := l.ranges.any fun r => r.rd && r.base ≤ l.argsVa && l.argsVa + 256 ≤ r.stop
      if !inside then .error (2, 0xFE)
      else
        match read l.argsVa 256, read l.sliceVa (128 * l.nslice), read l.phasersVa (128 * l.nph) with
        | none, _, _ => .error (2, 0xFF)
        | _, none, _ => .error (3, 0xFF)
        | some a, some y, z =>
          let ss := tableEntries y 128 l.nslice
          match slicesBad l ss, z with
          | some i, _ => .error (3, i)
          | none, none => .error (4, 0xFF)
          | none, some z =>
            let ps := (tableEntries z 128 l.nph).map (BitVec.ofNat 1024)
            let l := { l with
              args := ((tableEntries a 8 32).zipIdx).foldl (fun m e => mapSet 0 m e.2 (BitVec.ofNat 64 e.1)) []
              slices := ss.map fun x => ((sliceEntry x).1, BitVec.ofNat 64 (sliceEntry x).2)
              phaserTable := ps }
            let past := teamsAtOnce l * (dealCores s l).length < l.nteams
            match firstBad (fun _ d => phaserBad d) [] ps,
                firstBad (fun _ d => phValid d && phScope d = .part && past) [] ps with
            | some i, _ => .error (4, i)
            | none, some i => .error (5, i)
            | none, none =>
              match rangeOf l l.code with
              | some r =>
                if !r.ex then .error (6, 0)
                else
                  match readVa s l.part l.asid l.code 8 pteX with
                  | some v =>
                    let h := Header.ofBits (BitVec.ofNat 64 v)
                    if v % 4 = 3 && h.ok && (h.kind == 0 || h.kind == 2) then .ok l else .error (6, 1)
                  | none => .error (6, 1)
              | none => .error (6, 0)

/-- The pages that step 1 of R65 walks, each with its range's index. -/
def residentPages (l : Launch) : List (Nat × Nat) :=
  (l.ranges.zipIdx).flatMap fun e =>
    if e.1.elastic then [] else (List.range e.1.pages).map fun i => (e.2, e.1.base / 65536 + i)

/-- Whether a leaf includes the rights of a range (R65). -/
def rightsOk (r : Range) (e : Nat) : Bool :=
  (!r.rd || pteR e) && (!r.wr || pteW e) && (!r.ex || pteX e)

/-- How step 1 of R65 goes on: all pages are pinned; a page is awaited; or it has failed at a range. -/
inductive Setup where
  | ready (s : State)
  | waits (s : State)
  | fails (s : State) (range : Nat)

/-- A page that is not resident: the management core is asked once to make it so. Whether it can is open. -/
def askPage (s : State) (lid range page : Nat) : Setup :=
  if (launchAt s lid).pending.contains page then .waits s
  else
    let (k, s) := freeChoice s 2
    if k = 0 then .fails s range
    else .waits (modLaunch s lid fun l => { l with pending := page :: l.pending })

/-- Steps 1 and 2 of R65. -/
def pinPages (lid : Nat) : State → List (Nat × Nat) → Setup
  | s, [] => .ready s
  | s, (i, page) :: ps =>
    let l := launchAt s lid
    if l.pins.contains page then pinPages lid s ps
    else
      match walk s l.part l.asid (page * 65536) with
      | .leaf _ e _ _ =>
        if rightsOk (l.ranges.getD i default) e then pinPages lid (pinPage s lid page) ps else .fails s i
      | .absent _ => askPage s lid i page
      | .placement =>
        .fails (escalateFree s ((partAt s l.part).first * Config.coresPerCluster) 0x80
          CauseCode.placement.num l.asid (BitVec.ofNat 64 (page * 65536)) .nobody) i

/-- The dirty lines of a launch's ASID that lie in its SNAP ranges (R65 step 3). -/
def snapDirty (s : State) (l : Launch) : List (Nat × L2Line) :=
  if !l.snapOn then []
  else (partAt s l.part).clusters.flatMap fun k =>
    ((sliceAt s k).lines.filter fun x => x.asid = l.asid && x.dirty ≠ 0 &&
      l.ranges.any fun r => r.snap && r.has (x.line * 128)).map fun x => (k, x)

/-- The region codes that a launch uses, by 1 GiB region of its ranges (R53, R54). -/
def loadRegions (s : State) (l : Launch) : NMap Nat :=
  (dedup (l.ranges.flatMap fun r =>
    (List.range ((r.stop - 1) / 2 ^ 30 + 1 - r.base / 2 ^ 30)).map fun i => r.base / 2 ^ 30 + i)).foldl
      (fun m i => mapSet 0 m i (tableCode s l.part (i * 2 ^ 30))) []

/-- Entries of a die's phaser engine in use (R292). -/
def engineUse (s : State) (die : Nat) : Nat :=
  (s.phasers.filter fun e => e.2.scope ≠ .team && e.2.die = die).length

/-- Launches that hold reduction objects of a die (R311). -/
def objectUse (s : State) (die : Nat) : Nat :=
  (s.launches.filter fun e => e.2.holds && (partAt s e.2.part).dies.contains die).length

/-- The engine phasers of a launch: for each entry and die, its instance (R292, R294). -/
def enginePhasers (s : State) (lid : Nat) : List Phaser :=
  let l := launchAt s lid
  let dies := (partAt s l.part).dies
  (l.phaserTable.zipIdx).flatMap fun e =>
    if !phValid e.1 then []
    else
      let p : Phaser :=
        { lid := lid, idx := e.2, scope := phScope e.1, team := 0, die := 0, ph := 0
          guards := phGuards e.1, members := [], unstarted := 0, unreleased := [], due := none }
      match phScope e.1 with
      | .die => dies.map fun d => { p with die := d }
      | .part => [{ p with die := dies.headD 0, unstarted := l.nteams * l.ngroup }]
      | _ => []

/-- Adds phaser instances. -/
def addPhasers (s : State) (ps : List Phaser) : State :=
  ps.foldl (fun s p =>
    let (id, s) := freshId s
    { s with phasers := mapPut s.phasers id p }) s

/-- Step 4 of R345: phaser instances and reduction objects are reserved; `none` while they are not free. -/
def reserveLaunch (s : State) (lid : Nat) : Option State :=
  let l := launchAt s lid
  let ps := enginePhasers s lid
  let dies := (partAt s l.part).dies
  let fitsDie := fun d =>
    decide (engineUse s d + (ps.filter fun p => p.die = d).length ≤ Config.diePhasers) &&
    decide ((objectUse s d + 1) * Config.launchObjects ≤ Config.dieObjects)
  if dies.all fitsDie then
    some (modLaunch (addPhasers (dropCode s lid) ps) lid fun l => { l with st := .running, holds := true })
  else none

/-- LAUNCH_START: with its dependences met a launch takes its steps: the tables, residency, snapshots,
resources (R345). -/
def startLaunch (s : State) (lid : Nat) : Option State :=
  match mapFind s.launches lid with
  | none => none
  | some l =>
    match l.st with
    | .waiting =>
      if !((List.range l.ndep).all fun i => l.depMet.getD i false) then none
      else
        match checkTables s l with
        | .error (d, a) => some (endAndSettle s lid stRejected d a)
        | .ok l => some { s with launches := mapPut s.launches lid { l with st := .starting } }
    | .starting =>
      match pinPages lid s (residentPages l) with
      | .fails s i => some (endAndSettle s lid stRejected 8 i)
      | .waits t => if t = s then none else some t
      | .ready s =>
        if !l.armed then
          match snapDirty s l with
          | [] => some (modLaunch s lid fun l => { l with armed := l.snapOn, regions := loadRegions s l })
                    |>.bind fun s => if l.snapOn then some s else reserveLaunch s lid
          | ds => ds.findSome? fun e => (writeBack s e.1 e.2).map (·.1)
        else reserveLaunch s lid
    | _ => none

def execLaunchStart (lid : Nat) (s : State) : Out := .next ((startLaunch s lid).getD s)

end Sys2Proof.Machine
end

