-- ==== Sys2Proof/Machine/Teams.lean ====
section
/-! DEFINITION. Teams.lean: dealing, placing, stealing and ending teams (R29, R94, R127, R136, R138, R164, R185,
R244, R292, R294, R345 to R350, R396, R397). -/

namespace Sys2Proof.Machine

/-! ## Team queues (R346, R347) -/

/-- The teams QUEUED in a core's queue of a priority, head first. -/
def queuedTeams (s : State) (core prio : Nat) : List Nat :=
  (mapGet [] (coreAt s core).queues prio).filter fun t => (teamAt s t).st = TeamState.queued

/-- Priorities, the highest first. -/
def prios : List Nat := [7, 6, 5, 4, 3, 2, 1, 0]

/-- A core's highest-priority queue that is not empty: its priority and its teams. -/
def topQueue (s : State) (core : Nat) : Option (Nat × List Nat) :=
  prios.findSome? fun p =>
    match queuedTeams s core p with
    | [] => none
    | ts => some (p, ts)

def setTeamQueue (s : State) (core prio : Nat) (ts : List Nat) : State :=
  modCore s core fun c => { c with queues := mapSet [] c.queues prio ts }

/-- Adds a team at the tail of a queue. -/
def pushTeam (s : State) (core prio team : Nat) : State :=
  setTeamQueue s core prio (queuedTeams s core prio ++ [team])

/-- Takes a team out of every queue of a core. -/
def unqueue (s : State) (core team : Nat) : State :=
  modCore s core fun c => { c with queues := (c.queues.map fun e => (e.1, e.2.filter (· ≠ team))).filter fun e =>
    !e.2.isEmpty }

/-- A new team of a launch, QUEUED at a core. -/
def newTeam (lid index core : Nat) (pair : Bool) (rerun : Option Nat) : Team :=
  { (default : Team) with lid := lid, index := index, st := .queued, core := core, pair := pair, rerunOf := rerun }

/-- TEAM_DEAL: the next team of a launch goes to its core's queue, once that queue has room (R346). -/
def dealTeam (s : State) (lid : Nat) : Option State :=
  match mapFind s.launches lid with
  | none => none
  | some l =>
    let running : Bool := l.st = LaunchState.running
    let cs := dealCores s l
    if !running || l.shadow.isSome || l.nteams ≤ l.nextDeal || cs.isEmpty then none
    else
      let core := cs.getD (l.nextCore % cs.length) 0
      if Config.teamQueue ≤ (queuedTeams s core l.prio).length then none
      else
        let (id, s) := freshId s
        let s := { s with teams := mapPut s.teams id (newTeam lid l.nextDeal core l.isPair none) }
        let s := modLaunch s lid fun l =>
          { l with nextDeal := l.nextDeal + 1, nextCore := (l.nextCore + 1) % cs.length, teams := l.teams ++ [id] }
        some (pushTeam s core l.prio id)

def execTeamDeal (lid : Nat) (s : State) : Out := .next ((dealTeam s lid).getD s)

/-! ## What is free on a core (R348) -/

/-- Whether a team is resident. -/
def residentTeam (t : Team) : Bool :=
  match t.st with
  | .placing | .running | .ending => true
  | _ => false

/-- The cores that a team occupies. -/
def Team.cores (t : Team) : List Nat := if t.pair then [t.core, t.core + 1] else [t.core]

/-- The teams resident on a core. -/
def teamsOn (s : State) (core : Nat) : List Nat :=
  (s.teams.filter fun e => residentTeam e.2 && e.2.cores.contains core).map (·.1)

/-- The groups resident on a quarter. -/
def groupsAt (s : State) (n : Nat) : List Group :=
  (s.groups.filter fun e => e.2.resident && e.2.quart = n).map (·.2)

/-- Bytes that a group takes in each half-quarter of the register file (R29, R348). -/
def regBytes (l : Launch) (half : Nat) : Nat × Nat :=
  if l.widthCode = 0 then (if half = 0 then (128 * l.regs, 0) else (0, 128 * l.regs))
  else (4 * l.regs * l.width, 4 * l.regs * l.width)

/-- Bytes of the two half-quarters of a quarter in use. -/
def regUse (s : State) (n : Nat) : Nat × Nat :=
  (groupsAt s n).foldl (fun acc g =>
    let b := regBytes (launchAt s (teamAt s g.team).lid) g.half
    (acc.1 + b.1, acc.2 + b.2)) (0, 0)

/-- A slot and a half for each of `n` groups of a launch on a quarter; `none` if they do not fit. -/
def assignGroups (l : Launch) : List Nat → Nat × Nat → Nat → Option (List (Nat × Nat))
  | _, _, 0 => some []
  | slots, use, n + 1 =>
    let fit := fun (h : Nat) =>
      let b := regBytes l h
      decide (use.1 + b.1 ≤ halfFile) && decide (use.2 + b.2 ≤ halfFile)
    match slots, (if fit 0 then some 0 else if fit 1 && l.widthCode = 0 then some 1 else none) with
    | slot :: slots, some h =>
      let b := regBytes l h
      (assignGroups l slots (use.1 + b.1, use.2 + b.2) n).map fun r => (slot, h) :: r
    | _, _ => none

/-- Slots and halves for a team's groups on a quarter. -/
def fitGroups (s : State) (l : Launch) (n count : Nat) : Option (List (Nat × Nat)) :=
  let used := (groupsAt s n).map (·.slot)
  assignGroups l ((List.range 16).filter fun i => !used.contains i) (regUse s n) count

/-- The lowest place of `size` units among `total`, in steps of `step`, that meets none of the spans in use. -/
def findPlace (spans : List (Nat × Nat)) (total size step : Nat) : Option Nat :=
  if size = 0 then some 0
  else
    let starts := 0 :: spans.map fun e => roundUp (e.1 + e.2) step
    let ok := starts.filter fun a => decide (a + size ≤ total) && !spans.any fun e => spansMeet a size e.1 e.2
    minBy id ok

/-- Bytes of scratchpad that a team takes on its core, or on the two cores of its pair (R127, R138). -/
def scratchOn (l : Launch) (far : Bool) : Nat :=
  let h := nearBytes l.isPair l.scratch
  roundUp (if far then l.scratch - h else h) 4096

/-- The scratchpad pool of R127 for a core that holds no team. -/
def poolFor (l : Launch) : Nat :=
  let s := max (scratchOn l false) (if l.isPair then scratchOn l true else 0)
  min 458752 (65536 * ((teamsAtOnce l * s + 65535) / 65536))

/-- The pool that a core has once a team of a launch is placed. -/
def poolThen (s : State) (l : Launch) (core : Nat) : Nat :=
  if (teamsOn s core).isEmpty then poolFor l else (coreAt s core).pool

/-- Scratchpad regions in use on a core. -/
def regionsOn (s : State) (core : Nat) : List (Nat × Nat) :=
  (teamsOn s core).map fun t =>
    let x := teamAt s t
    let far := x.pair && x.core ≠ core
    (if far then x.farBase else x.base, scratchOn (launchAt s x.lid) far)

/-- Bytes of log area of a group (R136). -/
def logArea (l : Launch) : Nat := l.width * (32 * l.txr + 64 * l.txw)

/-- Log ways that a core needs for log areas of `bytes` when its pool is `pool` (R128, R136). -/
def waysFor (pool bytes : Nat) : Nat :=
  let way := (524288 - pool) / 2048 * 128
  (bytes + way - 1) / way

/-- Bytes of the log areas of the groups resident on a core. -/
def logBytesOn (s : State) (core : Nat) : Nat :=
  ((s.groups.filter fun e => e.2.resident && e.2.core = core).map fun e =>
    logArea (launchAt s (teamAt s e.2.team).lid)).foldl (· + ·) 0

/-- The quarters of a team of a launch on its cores: the core, whether it is the far one, the quarter, and the
group indices there. -/
def teamPlaces (l : Launch) (core : Nat) : List (Nat × Bool × Nat × List Nat) :=
  (if l.isPair then [(core, false), (core + 1, true)] else [(core, false)]).flatMap fun c =>
    ((List.range 4).map fun q => (c.1, c.2, q, groupsOn l c.2 q)).filter fun e => !e.2.2.2.isEmpty

/-- Tiles of a quarter that its resident teams hold, and window words, as spans. -/
def tileSpans (s : State) (n : Nat) : List (Nat × Nat) × List (Nat × Nat) :=
  let ts := dedup ((groupsAt s n).map (·.team))
  (ts.map fun t => ((teamAt s t).tileBase n, (launchAt s (teamAt s t).lid).atiles),
   ts.map fun t => ((teamAt s t).rowBase n, (launchAt s (teamAt s t).lid).brows))

/-- Tiles that a quarter's MACQ reservation holds (R266). -/
def heldTiles (s : State) (n : Nat) : Nat := ((quartAt s n).reserved.map (·.2)).getD 0

/-- Whether every quarter has as many tiles free as a launch's team takes (R244, R266). -/
def tilesFree (s : State) (l : Launch) (ns : List Nat) : Bool :=
  ns.all fun n => l.atiles + heldTiles s n + ((tileSpans s n).1.foldl (fun a e => a + e.2) 0) ≤ 16

/-- Phaser-unit entries of a core in use, and those that a team needs (R292). -/
def unitUse (s : State) (core : Nat) : Nat :=
  (s.phasers.filter fun e => e.2.scope = .team && residentTeam (teamAt s e.2.team)
    && (teamAt s e.2.team).core = core).length
def teamEntries (l : Launch) : Nat := (l.phaserTable.filter fun d => phValid d && phScope d = .team).length

/-- Where a team goes: its scratchpad bases, by quarter its tile and window bases, and for each place its groups'
slots and halves. -/
structure Placing where
  base : Nat
  farBase : Nat
  tile0 : NMap Nat
  row0 : NMap Nat
  slots : List (List (Nat × Nat))
deriving DecidableEq, Repr, Inhabited

/-- A place of `size` units among `total` on each of some quarters, each beside the spans in use there. -/
def placesOn (spans : Nat → List (Nat × Nat)) (total size step : Nat) : List Nat → Option (NMap Nat)
  | [] => some []
  | n :: ns =>
    match findPlace (spans n) total size step, placesOn spans total size step ns with
    | some a, some m => some (mapPut m n a)
    | _, _ => none

/-- The place for a team of a launch on a core, or a pair, if all it needs is free at once (R348). -/
def findPlacing (s : State) (l : Launch) (core : Nat) : Option Placing :=
  let places := teamPlaces l core
  let cores := if l.isPair then [core, core + 1] else [core]
  let ns := places.map fun e => quartNo e.1 e.2.2.1
  let slots := places.map fun e => fitGroups s l (quartNo e.1 e.2.2.1) e.2.2.2.length
  let onCore := fun c => (places.filter fun e => e.1 = c).foldl (fun a e => a + e.2.2.2.length) 0
  let contexts := cores.all fun c => (usedContexts s c).length + onCore c * l.nslice ≤ Config.streamContexts
  let logs := cores.all fun c => waysFor (poolThen s l c) (logBytesOn s c + onCore c * logArea l) ≤ 12
  let entries := unitUse s core + teamEntries l ≤ Config.corePhasers
  if !(cores.all (coreEnabled s)) || slots.any (·.isNone) || !contexts || !logs || !entries || !tilesFree s l ns then
    none
  else
    let near := findPlace (regionsOn s core) (poolThen s l core) (scratchOn l false) 4096
    let far := if l.isPair then findPlace (regionsOn s (core + 1)) (poolThen s l (core + 1)) (scratchOn l true) 4096
      else some 0
    match near, far, placesOn (fun n => (tileSpans s n).1) 16 l.atiles 1 ns,
        placesOn (fun n => (tileSpans s n).2) 1024 l.brows 64 ns with
    | some b, some f, some t, some r =>
      some { base := b, farBase := f, tile0 := t, row0 := r, slots := slots.map (·.getD []) }
    | _, _, _, _ => none

/-- In a DETERMINISTIC launch a team waits for every team of lower index to be placed (R337, R348). -/
def detWaits (s : State) (team : Nat) : Bool :=
  let t := teamAt s team
  (launchAt s t.lid).det && (launchTeams s t.lid).any fun u =>
    (teamAt s u).index < t.index && (teamAt s u).st = TeamState.queued

/-! ## Placement (R164, R348) -/

/-- Evicts lines of sets that hold more than the cache ways left (R136). -/
def shrinkL1 (s : State) (core gid : Nat) : State :=
  ((coreAt s core).l1).foldl (fun s x =>
    let c := coreAt s core
    let ls := setLines c x.asid x.line
    if ls.length ≤ Config.cacheWays - c.logWays then s
    else
      let (k, s) := freeChoice s ls.length
      evictL1 s core gid (ls.getD k default)) s

/-- Sets a core's log ways to what its resident groups need. -/
def setLogWays (s : State) (core gid : Nat) : State :=
  let n := waysFor (coreAt s core).pool (logBytesOn s core)
  shrinkL1 (modCore s core fun c => { c with logWays := n }) core gid

/-- Sets the pool of a core that holds no team: its L1 publishes and drops every line first (R127). -/
def setPool (s : State) (core gid pool : Nat) : State :=
  if (coreAt s core).pool = pool then s
  else modCore (flushL1 s core gid) core fun c => { c with pool := pool }

/-- The smallest non-zero quantum among the launches of a core's resident teams (R364). -/
def quantumOn (s : State) (core : Nat) : Nat :=
  let qs := ((teamsOn s core).map fun t => (launchAt s (teamAt s t).lid).quantum).filter (· ≠ 0)
  (minBy id qs).getD 0

/-- Sets QUANTUM.LEN; a context that enters an empty core starts the count. -/
def setQuantum (s : State) (core : Nat) (fresh : Bool) : State :=
  modCore s core fun c => { c with qlen := quantumOn s core, qstart := if fresh then gtOf s else c.qstart }

/-- The seed of a thread's LFSR (R158). -/
def lfsrSeed (k t : Nat) : BitVec 32 :=
  let x : BitVec 32 := BitVec.ofNat 32 (Nat.xor (Nat.xor (bits k 0 32) (bits k 32 32)) (Nat.xor (bits t 0 32) (bits t 32 32)))
  if x = 0 then 1 else x

/-- A thread at its start (R164, R185, R294). -/
def newThread (l : Launch) (t : Nat) (lp : NMap Nat) : Thread :=
  { (default : Thread) with
    status := .running, pc := BitVec.ofNat 64 l.code, lfsr := lfsrSeed l.key t, gtid := BitVec.ofNat 64 t, lp := lp }

/-- The lines of a launch's argument block. -/
def argLines (l : Launch) : List Nat := dedup [l.argsVa / 128, l.argsVa / 128 + 1, (l.argsVa + 255) / 128]

/-- Uniform register `n` at group start: bytes 8n to 8n + 7 of the argument block, read at the slices without
a lease (R164, R444); what the command processor read where the line does not translate. -/
def groupArg (s : State) (lid n : Nat) : Word :=
  let l := launchAt s lid
  let a := l.argsVa + 8 * n
  match lineNow s lid l.asid (a / 128) with
  | some d => BitVec.ofNat 64 (lineRead d (a % 128) 8)
  | none => mapGet 0 l.args n

def groupArgs (s : State) (lid : Nat) : NMap Word :=
  (List.range 32).foldl (fun m n => mapSet 0 m n (groupArg s lid n)) []

/-- The reads of the argument block at the slices. -/
def sendArgs (s : State) (lid core : Nat) : State :=
  (argLines (launchAt s lid)).foldl (fun s line => sendFetch s core lid (launchAt s lid).asid line none) s

/-- A group at its start. -/
def newGroup (s : State) (team g core q slot half : Nat) (lp : NMap Nat) : Group :=
  let t := teamAt s team
  let l := launchAt s t.lid
  { (default : Group) with
    team := team, gidx := g, core := core, quarter := q, slot := slot, half := half, width := l.width
    resident := true, placed := gtOf s, s := groupArgs s t.lid, xvec := BitVec.ofNat 64 l.xvec
    threads := (List.range l.width).map fun i => newThread l ((t.index * l.ngroup + g) * l.width + i) lp }

/-- Adds the groups of a team's places; answers their numbers. -/
def addGroups (team : Nat) : State → List (Nat × Nat × Nat × Nat × Nat) → State × List Nat
  | s, [] => (s, [])
  | s, (core, q, g, slot, half) :: gs =>
    let (id, s) := freshId s
    let s := { s with groups := mapPut s.groups id (newGroup s team g core q slot half []) }
    let s := sendArgs s (teamAt s team).lid core
    let (s, ids) := addGroups team s gs
    (s, id :: ids)

/-- A group joins the phasers that cover it, and its threads start with LP = PH (R294). -/
def joinPhasers (s : State) (gid : Nat) : State :=
  let lid := lidOf s gid
  let covers := fun (p : Phaser) => p.lid = lid &&
    match p.scope with
    | .team => p.team = (grpAt s gid).team
    | .die => p.die = coreDie (grpAt s gid).core
    | _ => true
  (s.phasers.filter fun e => covers e.2).foldl (fun s e =>
    let s := modPhaser s e.1 fun p =>
      match p.scope with
      | .die => putMember p ⟨gid, .none, some .sigwait⟩
      | .part => { putMember p ⟨gid, .sigwait, none⟩ with unstarted := p.unstarted - 1 }
      | _ => putMember p ⟨gid, .sigwait, none⟩
    modGrp s gid fun g => { g with threads := g.threads.map fun t => setLp t e.2.idx e.2.ph }) s

/-- The .TEAM phasers of a team (R292). -/
def teamPhasers (s : State) (team : Nat) : List Phaser :=
  let t := teamAt s team
  let l := launchAt s t.lid
  (l.phaserTable.zipIdx).filterMap fun e =>
    if phValid e.1 && phScope e.1 = .team then
      some { lid := t.lid, idx := e.2, scope := .team, team := team, die := 0, ph := 0
             guards := phGuards e.1, members := [], unstarted := 0, unreleased := [], due := none }
    else none

/-- The access slice is bound for a group (R112). -/
def bindSlices (s : State) (gid : Nat) : State :=
  (launchOf s gid).slices.foldl (fun s e =>
    match freeContext s (grpAt s gid).core with
    | some ctx => modGrp s gid fun g =>
        g.modQueue (bindQsel e.2.toNat) fun _ => newQueue e.1 e.2.toNat ctx
    | none => s) s

/-- Tiles and window words of a team's new quarters are zero (R244). -/
def clearMatrix (s : State) (n tile0 atiles row0 brows : Nat) : State :=
  modQuart s n fun q =>
    { q with
      cells := q.cells.filter fun e => !(4096 * tile0 ≤ e.1 && e.1 < 4096 * (tile0 + atiles))
      bplane := q.bplane.filter fun e => !(row0 ≤ e.1 % 1024 && e.1 % 1024 < row0 + brows)
      cellPoison := q.cellPoison.filter fun k => !(4096 * tile0 ≤ k && k < 4096 * (tile0 + atiles))
      bPoison := q.bPoison.filter fun k => !(row0 ≤ k % 1024 && k % 1024 < row0 + brows) }

/-- Core cycles that a placement takes (R348). -/
abbrev placeCycles : Nat := 200

/-- Claims what a team needs and initialises its groups: it is PLACING, and its groups start together when the cycles
that this takes have passed (R347, R348). -/
def placeTeam (s : State) (team core : Nat) (p : Placing) (delay : Nat) : State :=
  let t := teamAt s team
  let l := launchAt s t.lid
  let fresh := fun (c : Nat) => (teamsOn s c).isEmpty
  let cores := if l.isPair then [core, core + 1] else [core]
  let s := cores.foldl (fun s c => if (teamsOn s c).isEmpty then setPool s c 0 (poolFor l) else s) s
  let s := modTeam s team fun t =>
    { t with st := TeamState.placing, core := core, base := p.base, farBase := p.farBase, scratch := []
             tile0 := p.tile0, row0 := p.row0 }
  let places := teamPlaces l core
  let s := places.foldl (fun s e =>
    let n := quartNo e.1 e.2.2.1
    clearMatrix s n (mapGet 0 p.tile0 n) l.atiles (mapGet 0 p.row0 n) l.brows) s
  let gs := (places.zip p.slots).flatMap fun e =>
    (e.1.2.2.2.zip e.2).map fun x => (e.1.1, e.1.2.2.1, x.1, x.2.1, x.2.2)
  let (s, ids) := addGroups team (addPhasers s (teamPhasers s team)) gs
  let s := modTeam s team fun t => { t with groups := ids }
  let s := ids.foldl joinPhasers s
  let s := ids.foldl bindSlices s
  let s := ids.foldl (fun s g => modGrp s g fun g => { g with notBefore := s.cycle + delay }) s
  cores.foldl (fun s c =>
    setQuantum (setLogWays (modCore s c fun x =>
      { x with carved := carvedBytes (partAt s l.part) }) c 0) c (fresh c)) s

/-- Whether a team is being placed, and whether the cycles of its placement have passed. -/
def placedAt (s : State) (core : Nat) (t : Team) : Bool :=
  t.st = TeamState.placing && t.core = core && t.groups.all fun g => (grpAt s g).notBefore ≤ s.cycle

/-- The teams whose placement on a core is complete are RUNNING (R347). -/
def startPlaced (s : State) (core : Nat) : Option State :=
  let start := fun (t : Team) => if placedAt s core t then { t with st := .running } else t
  if s.teams.any fun e => placedAt s core e.2 then some { s with teams := s.teams.map fun e => (e.1, start e.2) }
  else none

/-- The priority at which saved contexts of a core wait: of their highest-priority team (R362). -/
def savedPrio (s : State) (c : Saved) : Nat :=
  (c.teams.map fun t => (launchAt s (teamAt s t).lid).prio).foldl max 0

/-- The contexts saved on a core, or with its pair partner. -/
def contexts (s : State) (core : Nat) : List Saved :=
  (coreAt s core).saved ++
    (if core % 2 = 1 then (coreAt s (core - 1)).saved.filter (·.pair) else [])

/-- Whether a saved context of a core goes before a queue head of a priority: a higher priority, or on an empty
core an equal one; but one that the switch under way has saved goes before only with a higher one. -/
def savedFirst (s : State) (core prio : Nat) : Bool :=
  let empty := (teamsOn s core).isEmpty
  (contexts s core).any fun x =>
    decide (prio < savedPrio s x) || (empty && !x.out && decide (prio = savedPrio s x))

/-- A switch of cores has ended: the context that it saved waits like the others. -/
def endSwitch (s : State) (cores : List Nat) : State :=
  cores.foldl (fun s c =>
    modCore s c fun x =>
      { x with switching := 0, switchAsked := false, saved := x.saved.map fun y => { y with out := false } }) s

/-- The dispatcher of a core takes its head team, once all it needs is free (R348). -/
def placeHead (s : State) (core : Nat) : Option State :=
  match topQueue s core with
  | some (prio, team :: _) =>
    let l := launchAt s (teamAt s team).lid
    let sw := (coreAt s core).switching
    let busy := (sw ≠ 0 && sw ≠ 9) || (l.isPair && (coreAt s (core + 1)).switching ≠ 0 && sw ≠ 9)
    if busy || savedFirst s core prio || detWaits s team then none
    else
      (findPlacing s l core).map fun p =>
        let s := unqueue s core team
        let s := if sw = 9 then endSwitch s (if l.isPair then [core, core + 1] else [core]) else s
        placeTeam s team core p placeCycles
  | _ => none

/-- TEAM_PLACE: a placement that is complete, or else one that begins (R347, R348). -/
def execTeamPlace (core : Nat) (s : State) : Out := .next ((startPlaced s core <|> placeHead s core).getD s)

/-! ## Stealing (R349) -/

/-- The cores that a thief examines, in order: its cluster's in ring order, then the others of its die. -/
def victims (thief : Nat) : List Nat :=
  let k := clusterOf thief
  let base := k * Config.coresPerCluster
  let ring := (List.range 5).map fun i => base + (thief - base + 1 + i) % Config.coresPerCluster
  let die := coreDie thief
  let perDie := Config.clustersPerDie * Config.coresPerCluster
  ring ++ ((List.range perDie).map fun i => die * perDie + i).filter fun c => clusterOf c ≠ k

/-- The tail that a thief takes from a core, with its place on the thief; an entry that its owner can take in the same core
cycle is the owner's (R349). -/
def stealable (s : State) (thief victim : Nat) : Option (Nat × Placing) :=
  match topQueue s victim with
  | some (_, ts) =>
    match ts.getLast? with
    | some team =>
      let l := launchAt s (teamAt s team).lid
      let mine := (partAt s l.part).cores.contains thief
      if l.isPair || !mine || detWaits s team || (ts.length = 1 && (placeHead s victim).isSome) then none
      else (findPlacing s l thief).map fun p => (team, p)
    | none => none
  | none => none

/-- TEAM_STEAL: a core whose queues are empty takes another core's team and places it. -/
def stealTeam (s : State) (thief : Nat) : Option State :=
  if (topQueue s thief).isSome || !coreEnabled s thief || (coreAt s thief).switching ≠ 0 then none
  else
    (victims thief).findSome? fun v => (stealable s thief v).map fun (team, p) =>
      placeTeam (unqueue s v team) team thief p (placeCycles + if clusterOf v = clusterOf thief then 40 else 120)

def execTeamSteal (thief : Nat) (s : State) : Out := .next ((stealTeam s thief).getD s)

/-! ## The end of a team (R350) -/

/-- Whether an instruction in flight holds up its team's end (R125, R350). -/
def holdsEnd (o : Op) : Bool :=
  match o.kind with
  | .load .. | .applied .. | .release _ | .fence .. | .batch _ | .sqstop _ | .matrix _ | .gred .. | .exact => true
  | _ => false

/-- Step 1: every queue UNBOUND, every copy complete, every queued matrix operation complete (R125, R271). -/
def teamQuiet (s : State) (team : Nat) : Bool :=
  let t := teamAt s team
  (t.groups.all fun gid =>
    let g := grpAt s gid
    g.queues.isEmpty && !((coreAt s g.core).copies.any fun c => c.gid = gid)) &&
  (teamQuarters s team).all fun n =>
    !((quartAt s n).ops.any fun o => o.team = team) && !((quartAt s n).loads.any fun o => o.team = team)
      && !((quartAt s n).cvs.any fun e => e.2.team = team)

/-- Step 2: every update and STX of the team has been applied, and what its groups issued has ended. -/
def teamApplied (s : State) (team : Nat) : Bool :=
  let t := teamAt s team
  !(s.pubs.any fun e =>
    match e.2.sender with
    | .item g _ _ => t.groups.contains g
    | _ => false) &&
  t.groups.all fun gid => !((grpAt s gid).ops.any holdsEnd)

/-- Requests that name groups which go. -/
def dropReaders (s : State) (gids : List Nat) (copies : List Nat) (mats : List (Nat × Nat × Nat)) : State :=
  let gone := fun (r : Request) =>
    match r.reader with
    | .stream g _ => gids.contains g
    | .irrev g _ _ _ => gids.contains g
    | .copy id => copies.contains id
    | .matrix c q op => mats.contains (c, q, op)
    | _ => false
  let ids := (s.requests.filter fun e => gone e.2).map (·.1)
  { s with
    requests := s.requests.filter fun e => !gone e.2
    probes := s.probes.filter fun e => !gids.contains e.2.gid
    slices := s.slices.map fun e => (e.1, { e.2 with waiting := e.2.waiting.filter fun i => !ids.contains i }) }

/-- A quarter without a team's operations, convergence registers and reservation. -/
def clearQuarter (team : Nat) (q : Quarter) : Quarter :=
  { q with
    cvs := q.cvs.filter fun e => e.2.team ≠ team
    ops := q.ops.filter fun o => o.team ≠ team
    loads := q.loads.filter fun o => o.team ≠ team
    reserved := match q.reserved with
      | some r => if r.1 = team then none else some r
      | none => none
    claimant := match q.claimant with
      | some r => if r.1 = team then none else some r
      | none => none }

/-- Frees a team's groups, phasers, convergence registers, reservations and queued operations. -/
def freeTeam (s : State) (team : Nat) : State :=
  let t := teamAt s team
  let gids := t.groups
  let ns := teamQuarters s team
  let copies := t.cores.flatMap fun c => ((coreAt s c).copies.filter fun x => gids.contains x.gid).map (·.id)
  let mats := ns.flatMap fun n => ((quartAt s n).ops ++ (quartAt s n).loads).filterMap fun o =>
    if o.team = team then some (n / 4, n % 4, o.id) else none
  let s := dropReaders s gids copies mats
  let s := t.cores.foldl (fun s c => modCore s c fun x =>
    { x with copies := x.copies.filter fun y => !gids.contains y.gid
             unposted := x.unposted.filter fun u =>
               match u.2 with
               | .group g => !gids.contains g
               | _ => true }) s
  let s := ns.foldl (fun s n => modQuart s n (clearQuarter team)) s
  let s := { s with
    groups := s.groups.filter fun e => !gids.contains e.1
    phasers := (s.phasers.filter fun e => !(e.2.scope = .team && e.2.team = team)).map fun e =>
      (e.1, { e.2 with members := e.2.members.filter fun m => !gids.contains m.gid }) }
  let s := modTeam s team fun t =>
    { t with st := TeamState.done, groups := [], scratch := [], scratchPoison := [], locks := [], regroups := [] }
  t.cores.foldl (fun s c => setQuantum (setLogWays s c 0) c false) s

/-- Sets a team's bit in the completion bitmap (R396). -/
def setBit (s : State) (lid index : Nat) : State :=
  let l := launchAt s lid
  let s := modLaunch s lid fun l => { l with tdone := l.tdone + 1 }
  if l.bitmap = 0 then s else sysPost s .command l.part (l.bitmap + index / 8) 1 (.bit (index % 8))

/-- The cores on which a repeated run may be placed: of clusters other than those that ran the team, with
room in their queue of priority 0 (R398, R399). -/
def rerunCores (s : State) (l : Launch) (ran : List Nat) (sameCluster : Bool) : List Nat :=
  (dealCores s l).filter fun c =>
    ran.all (fun r => if sameCluster then r ≠ c else clusterOf r ≠ clusterOf c) &&
    decide ((queuedTeams s c 0).length < Config.teamQueue)

/-- A repeated run of a team: a launch of its own with the same descriptor, of that one team, at priority 0. -/
def addRerun (s : State) (team core : Nat) : State :=
  let t := teamAt s team
  let l := launchAt s t.lid
  let (lid, s) := freshId s
  let (id, s) := freshId s
  let shadow : Launch := { l with
    shadow := some t.lid, prio := 0, teams := [id], next := 0, token := none, snaps := [], armed := false
    holds := false, tdone := 0, fcount := 0, cause := 0 }
  let s := { s with
    launches := mapPut s.launches lid shadow
    teams := mapPut s.teams id (newTeam lid t.index core l.isPair (some team)) }
  pushTeam s core 0 id

/-- Sampling at the end of an eligible team: the partition's LFSR steps 32 times (R397). `none` while no queue
has room for the second run. -/
def sampleTeam (s : State) (team : Nat) : Option State :=
  let t := teamAt s team
  let l := launchAt s t.lid
  if t.rerunOf.isSome || !assayEligible s l then some s
  else
    let p := partAt s l.part
    let x := lfsrSteps 32 p.alfsr
    let s' := modPart s l.part fun p => { p with alfsr := x }
    if x.toNat % 4096 < p.rate then
      match rerunCores s l [t.core] false with
      | [] => none
      | cs =>
        let (k, s') := freeChoice s' cs.length
        let s' := modTeam s' team fun t => { t with runs := [(t.core, t.sig)] }
        some (addRerun (modLaunch s' t.lid fun l => { l with assay := max l.assay 1 }) team (cs.getD k 0))
    else some s'

/-- A group of a team on a core, for the release of that core. -/
def groupOn (s : State) (team core : Nat) : Option Nat :=
  (teamAt s team).groups.find? fun gid => (grpAt s gid).core = core

/-- The release of R350 step 3 on one core: it waits for the dies of all the team's groups there. -/
def releaseCore (s : State) (team core : Nat) : State × Option Nat :=
  match groupOn s team core with
  | none => (s, none)
  | some gid =>
    let gs := (teamAt s team).groups.filter fun g => (grpAt s g).core = core
    let links := dedup (gs.flatMap fun g => (grpAt s g).links)
    let s := modGrp s gid fun g => { g with links := links }
    let (s, r) := beginRelease s core gid (BitVec.allOnes 64) true none .nothing []
    (s, some r)

/-- Whether no thread of a team runs. -/
def teamOver (s : State) (team : Nat) : Bool := !teamAlive s team

/-- Moves a team to a step of R350. -/
def setEndStep (s : State) (team n : Nat) (rel : Option Nat) : State :=
  modTeam s team fun t => { t with st := TeamState.ending, endStep := n, endRel := rel }

/-- The steps of R350 for a team whose threads have all exited. -/
def endStepOf (s : State) (team : Nat) : Option State :=
  let t := teamAt s team
  match t.endStep with
  | 0 => if teamOver s team then some (setEndStep s team 1 none) else none
  | 1 => if teamQuiet s team then some (setEndStep s team 2 none) else none
  | 2 =>
    if teamApplied s team then
      let (s, r) := releaseCore s team t.core
      some (setEndStep s team 3 r)
    else none
  | 3 =>
    if (t.endRel.map fun r => released s r).getD true then
      if t.pair then
        let (s, r) := releaseCore s team (t.core + 1)
        some (setEndStep s team 4 r)
      else some (setEndStep s team 4 none)
    else none
  | _ =>
    if !((t.endRel.map fun r => released s r).getD true) then none
    else
      (sampleTeam s team).map fun s =>
        let s := freeTeam s team
        let s := if t.rerunOf.isSome then s else setBit s t.lid t.index
        settleLaunch s t.lid

/-- The teams of a saved context that are left, in every core. -/
def unsave (s : State) (team : Nat) : State :=
  { s with cores := s.cores.map fun e =>
      let drop := fun (c : Saved) =>
        { c with teams := c.teams.filter (· ≠ team)
                 quarters := c.quarters.map fun q => (q.1, clearQuarter team q.2) }
      (e.1, { e.2 with saved := (e.2.saved.map drop).filter fun c => !c.teams.isEmpty }) }

/-- Whether a team of a launch that has ended has nothing under way that the end waits for: its writes to memory,
its releases, its copies but those that are stopped, and what it has pushed to streams (R363, R376). -/
def endedQuiet (s : State) (team : Nat) : Bool :=
  let t := teamAt s team
  !(s.pubs.any fun e => (e.2.sender.group.map fun g => t.groups.contains g).getD false) &&
  !(s.releases.any fun e => t.groups.contains e.2.gid) &&
  t.groups.all fun gid =>
    let g := grpAt s gid
    !((coreAt s g.core).copies.any fun c => c.gid = gid && c.stopped.isNone) &&
    g.queues.all fun e => e.2.isLoad || e.2.fault.isSome || e.2.kind = 5 || (e.2.outs.isEmpty && (e.2.kind = 4 || e.2.filled = 0))

/-- The dirty bytes that a launch has on a core: published; or discarded, for a launch that is rolled back and in
a partition that is torn down (R376, R389, R394). -/
def clearDirty (s : State) (team core : Nat) : State :=
  let lid := (teamAt s team).lid
  let l := launchAt s lid
  let xs := (coreAt s core).l1.filter fun x => x.lid = lid && x.dm ≠ 0
  if l.rolling || (partAt s l.part).tearing then xs.foldl (fun s x => dropL1 s core x.asid x.line) s
  else xs.foldl (fun s x =>
    (takeBytes s core x (BitVec.allOnes 128) (.early ((groupOn s team core).getD 0))).1) s

/-- The end of a team of a launch that has ended; no bit is set (R376). -/
def endStopped (s : State) (team : Nat) : Option State :=
  let t := teamAt s team
  if !endedQuiet s team then none
  else
    let s := t.cores.foldl (fun s c => clearDirty s team c) s
    some (settleLaunch (unsave (freeTeam s team) team) t.lid)

/-- TEAM_END. -/
def endTeam (s : State) (team : Nat) : Option State :=
  match mapFind s.teams team with
  | none => none
  | some t =>
    let live : Bool := match t.st with
      | .placing | .running | .ending => true
      | _ => false
    let saved : Bool := t.st = TeamState.saved
    let ended : Bool := (launchAt s t.lid).st = LaunchState.ending
    if ended && (live || saved) then endStopped s team
    else if live then endStepOf s team
    else none

def execTeamEnd (team : Nat) (s : State) : Out := .next ((endTeam s team).getD s)

end Sys2Proof.Machine
end

