-- ==== Sys2Proof/Machine/Switches.lean ====
section
/-! DEFINITION. Switches.lean: the context switch of a core or a core pair: when it is made, how the core drains,
what is saved, and how a saved context is restored (R125, R164, R270, R309, R338, R362 to R364, R373, R408). -/

namespace Sys2Proof.Machine

/-! ## When a core is switched (R362) -/

/-- The two cores of a core's pair. -/
def pairCores (core : Nat) : List Nat := [core / 2 * 2, core / 2 * 2 + 1]

def unitTeams (s : State) (cores : List Nat) : List Nat := dedup (cores.flatMap (teamsOn s))

/-- The priority of a team's launch. -/
def teamPrio (s : State) (t : Nat) : Nat := (launchAt s (teamAt s t).lid).prio

/-- A state in which teams hold nothing of the cores. -/
def without (s : State) (teams : List Nat) : State :=
  { s with
    teams := s.teams.map fun e => if teams.contains e.1 then (e.1, { e.2 with st := .saved }) else e
    groups := s.groups.map fun e => if teams.contains e.2.team then (e.1, { e.2 with resident := false }) else e }

/-- Whether a head would be placed on its core, or pair, if certain teams were not resident there. -/
def placeable (s : State) (core team : Nat) (but : List Nat) : Bool :=
  !detWaits s team && (findPlacing (without s but) (launchAt s (teamAt s team).lid) core).isSome

/-- The heads of cores' queues, with their cores. -/
def headsOf (s : State) (cores : List Nat) : List (Nat × Nat) :=
  cores.filterMap fun c =>
    match topQueue s c with
    | some (_, t :: _) => some (c, t)
    | _ => none

/-- The priorities of what waits for cores: saved contexts, and heads that cannot be placed beside the resident
teams and could be placed without them. -/
def waitingPrios (s : State) (cores : List Nat) : List Nat :=
  let ts := unitTeams s cores
  (cores.flatMap (contexts s)).map (savedPrio s) ++
  ((headsOf s cores).filter fun h => !placeable s h.1 h.2 [] && placeable s h.1 h.2 ts).map fun h => teamPrio s h.2

/-- Whether the head of the pair's queue is a team for the pair that the other core alone, or both cores, keep from being
placed: then they are switched together. -/
def pairWaits (s : State) (core : Nat) : Bool :=
  let c := core / 2 * 2
  (headsOf s [c]).any fun h => (teamAt s h.2).pair && !placeable s c h.2 (unitTeams s [c])
    && placeable s c h.2 (unitTeams s (pairCores c))

/-- The cores that may be switched with a core: the pair when a pair team is resident there, or when one waits for both;
else the core by itself. -/
def switchUnits (s : State) (core : Nat) : List (List Nat) :=
  if (teamsOn s core).any fun t => (teamAt s t).pair then [pairCores core]
  else (if pairWaits s core then [pairCores core] else []) ++ [[core]]

/-- Whether the quantum of a core has run out (R364). -/
def quantumOut (s : State) (core : Nat) : Bool :=
  let c := coreAt s core
  c.qlen ≠ 0 && decide (c.qstart + c.qlen ≤ gtOf s)

/-- The highest priority of resident teams. -/
def topResident (s : State) (cores : List Nat) : Nat := ((unitTeams s cores).map (teamPrio s)).foldl max 0

/-- Whether cores hold teams, none of them is being switched, and no team is being placed there. -/
def switchable (s : State) (cores : List Nat) : Bool :=
  !(unitTeams s cores).isEmpty && (cores.all fun c => (coreAt s c).switching = 0) &&
    (unitTeams s cores).all fun t => (teamAt s t).st ≠ TeamState.placing

/-- Something of a higher priority waits. -/
def higherWaits (s : State) (cores : List Nat) : Bool :=
  (waitingPrios s cores).any fun p => decide (topResident s cores < p)

/-- Something of at least equal priority waits. -/
def equalWaits (s : State) (cores : List Nat) : Bool :=
  (waitingPrios s cores).any fun p => decide (topResident s cores ≤ p)

/-! ## Stopping and draining (R363 steps 1 to 4) -/

/-- A load or copy stream without the entries whose reads are under way: they are reserved afresh (R125). -/
def freshReads (q : Queue) : Queue :=
  if !(q.isLoad || q.kind = 4) then q
  else
    let keep := q.entries.takeWhile (·.complete)
    let gone := q.entries.drop keep.length
    { q with entries := keep, next := q.next - gone.length, free := q.free + gone.length }

/-- Discards a group's reads in flight for load entries (R125). -/
def discardReads (s : State) (gid : Nat) : State :=
  let g := grpAt s gid
  let loads := (g.queues.filter fun e => e.2.isLoad || e.2.kind = 4).map (·.1)
  let gone := fun (r : Request) => loads.any fun q => r.reader = .stream gid q
  let ids := (s.requests.filter fun e => gone e.2).map (·.1)
  let s := modGrp s gid fun g => { g with queues := g.queues.map fun e => (e.1, freshReads e.2) }
  if ids.isEmpty then s
  else { s with
    requests := s.requests.filter fun e => !gone e.2
    slices := s.slices.map fun e => (e.1, { e.2 with waiting := e.2.waiting.filter fun i => !ids.contains i }) }

/-- Whether a lane's transaction is in a round that has begun to lock (R338). -/
def inRound (g : Group) (l : Nat) : Bool :=
  match g.round.stage with
  | .idle | .releasing => false
  | _ => g.round.lanes.contains l

/-- A SCAN or SRED that is in its steps stops at the end of the one under way, with the steps that it has made; one in its last
step completes (R175). -/
def stopScan (s : State) (o : Op) : Op :=
  match o.kind with
  | .scan steps cycles none =>
    if !o.fixed || o.due ≤ s.cycle then o
    else
      let made := ((s.cycle + cycles - o.due) * steps + cycles - 1) / cycles
      if steps ≤ made then o
      else { o with fixed := false, kind := .scan steps cycles (some (made, cycles - made * cycles / steps)) }
  | _ => o

/-- After restore it goes on with the next step. -/
def resumeScan (s : State) (o : Op) : Op :=
  match o.kind with
  | .scan steps cycles (some (_, left)) =>
    { o with fixed := true, due := s.cycle + left, kind := .scan steps cycles none }
  | _ => o

/-- A restored group whose threads wait at PHNXT.SPEC on an instance whose phase goes on is arriving there (R309, R310). -/
def arriveAgain (s : State) (gid : Nat) (g : Group) : Group :=
  let waiting := g.ops.findSome? fun o =>
    match o.kind with
    | .phaser n true _ ws => if ws.any (waitEnded s gid n) then none else some n
    | _ => none
  match waiting with
  | some n => { g with spec := { g.spec with st := .arriving, inst := n } }
  | none => g

/-- The completion flags while a group is saved: all 0. Of the instructions that were saved as they stood, each counts on
its flag again once the group is restored and they go on (R164, log entry 26). -/
def lowerFlags (g : Group) : Group := { g with flags := [] }
def raiseFlags (g : Group) : Group := g.ops.foldl (fun g o => raiseFlag g o.setf) (lowerFlags g)

/-- Open transactions abort with PREEMPT, but those of a round that is locking; speculation rolls back; parked
threads go on after the switch (R158, R309, R338). -/
def preemptGroup (s : State) (gid : Nat) : State :=
  let s := modGrp s gid fun g =>
    let releasing : Bool := g.round.stage = RoundStage.releasing
    let g := if releasing then { g with round := default } else g
    let descr := g.descr.map (·.id)
    let g := { g with ops := (g.ops.filter fun (o : Op) => descr ≠ some o.id).map (stopScan s) }
    let spec : Bool := g.spec.st = SpecState.speculating || g.spec.st = SpecState.stalled
    let arriving : Bool := g.spec.st = SpecState.arriving
    { g with spec := if spec then { g.spec with rollback := true } else if arriving then default else g.spec }
  let g := grpAt s gid
  let ls := (lanesOf g.width g.txLanes).filter fun l => (g.thread l).wait ≠ .aborting && !inRound g l
  let s := ls.foldl (fun s l => abortLane s gid l 7 0) s
  modGrp s gid fun g => { g with threads := g.threads.map fun t =>
    match t.wait with
    | .park _ => { t with wait := .none }
    | _ => t }

/-- The resident groups of cores. -/
def groupsOfCores (s : State) (cores : List Nat) : List Nat :=
  (s.groups.filter fun e => e.2.resident && cores.contains e.2.core).map (·.1)

/-- The quarters of cores. -/
def quartersOf (cores : List Nat) : List Nat := cores.flatMap fun c => (List.range 4).map (quartNo c)

/-- What stops or is given up on cores that are being switched. Done again it takes up what has since come to
stand. -/
def preempt (s : State) (cores : List Nat) : State :=
  let gs := groupsOfCores s cores
  let s := gs.foldl (fun s g => preemptGroup (discardReads s g) g) s
  (quartersOf cores).foldl (fun s n => modQuart s n fun q => { q with ops := q.ops.map (mmaHalt s) }) s

/-- Whether an instruction in flight may be saved as it stands: it waits for something that the drain does not
bring about (R309, R363). -/
def savedInFlight (o : Op) : Bool :=
  match o.kind with
  | .phaser .. | .mbox .. | .gred .. | .gres .. | .mrel | .signature _ | .matrix _ | .txb | .batch _ | .sqstop _
  | .regroup | .l2way .. => true
  | .scan _ _ stopped => stopped.isSome
  | _ => false

/-- Whether a queue has drained: pushed entries are written as far as their indices are known (R125). -/
def queueDrained (s : State) (gid qn : Nat) : Bool :=
  ((grpAt s gid).queue qn).outs.isEmpty && (takeOut s gid qn).isNone

/-- Whether a group has drained. -/
def groupDrained (s : State) (gid : Nat) : Bool :=
  let g := grpAt s gid
  g.ops.all savedInFlight && g.round.stage == RoundStage.idle && !g.spec.rollback && !g.speculative
    && g.queues.all (fun e => queueDrained s gid e.1)
    && g.threads.all fun t => t.wait ≠ .aborting &&
      !(match t.tx.wants with
        | some (some _) => true
        | _ => false)

/-- Whether a matrix operation stands at a progress point with nothing under way. -/
def matQuiet (s : State) (o : MatOp) : Bool :=
  let drain : Bool := match o.kind with
    | .mdrn _ => true
    | _ => false
  (drain || !o.running) && o.off = 0 && o.req.isNone && allApplied s o.pubs

/-- Whether cores have drained (R363 steps 2 to 4). -/
def unitDrained (s : State) (cores : List Nat) : Bool :=
  let prefetch := fun (r : Request) =>
    match r.reader with
    | .prefetch _ | .walk | .fetch _ => true
    | _ => false
  (groupsOfCores s cores).all (groupDrained s) &&
  (cores.all fun c => (coreAt s c).copies.all (·.stopped.isSome)) &&
  ((quartersOf cores).all fun n => ((quartAt s n).ops ++ (quartAt s n).loads).all (matQuiet s)) &&
  !(s.requests.any fun e => cores.contains e.2.core && !prefetch e.2) &&
  !(s.pubs.any fun e => cores.contains e.2.core) && !(s.releases.any fun e => cores.contains e.2.core)

/-! ## Saving (R363 step 5) -/

/-- A quarter as the next context finds it: its matrix unit is empty. -/
def emptyQuarter (q : Quarter) : Quarter :=
  { (default : Quarter) with
    nextOp := q.nextOp, issueFree := q.issueFree, unitFree := q.unitFree, pickCycle := q.pickCycle, picked := q.picked }

/-- The context of cores. -/
def contextFor (s : State) (cores : List Nat) : Saved :=
  let used := (quartersOf cores).filter fun n => (mapFind s.quarters n).isSome
  { teams := unitTeams s cores, pair := decide (1 < cores.length), out := true
    pools := cores.map fun c => (c, (coreAt s c).pool, (coreAt s c).logWays)
    quarters := used.map fun n => (n, quartAt s n) }

/-- Saves drained cores: the L1's cache ways are published and dropped, the operand buffers are discarded. -/
def saveCores (s : State) (cores : List Nat) : State :=
  let x := contextFor s cores
  let gs := groupsOfCores s cores
  let s := cores.foldl (fun s c =>
    flushL1 s c ((gs.find? fun g => (grpAt s g).core = c).getD 0)) s
  let s := gs.foldl (fun s g => modGrp s g fun g => lowerFlags { g with resident := false, obuf := [], obufPrev := [] }) s
  let s := x.teams.foldl (fun s t => modTeam s t fun t => { t with st := TeamState.saved }) s
  let s := x.quarters.foldl (fun s e => modQuart s e.1 emptyQuarter) s
  let s := if x.teams.isEmpty then s
    else modCore s (cores.headD 0) fun c => { c with saved := c.saved ++ [x] }
  cores.foldl (fun s c => setQuantum (modCore s c fun x => { x with switching := 9, logWays := 0 }) c true) s

/-- The cores of a switch under way at a core. -/
def switchingUnit (s : State) (core : Nat) : List Nat :=
  if (coreAt s core).switching = 2 then pairCores core else [core]

/-- Whether a core stops and drains. -/
def draining (s : State) (core : Nat) : Bool := (coreAt s core).switching = 1 || (coreAt s core).switching = 2

/-- Begins the switch of cores: nothing of them issues from now on. -/
def beginSwitch (s : State) (cores : List Nat) : State :=
  preempt (cores.foldl (fun s c => modCore s c fun x =>
    { x with switching := cores.length, switchAsked := false }) s) cores

/-- What a switch needs next to drain: an MMA that has reached its block, or an end to what has come to stand. -/
def drainStep (s : State) (cores : List Nat) : Option State :=
  match (quartersOf cores).findSome? fun n => (quartAt s n).ops.findSome? (mmaStop s n) with
  | some t => some t
  | none =>
    let t := preempt s cores
    if t.groups = s.groups && t.quarters = s.quarters && t.requests = s.requests then none else some t

/-- CONTEXT_SWITCH: a core that is to be switched stops; drains; and is saved (R362, R363); a host's request
switches it whether or not another context waits (R408). -/
def switchCore (s : State) (core : Nat) : Option State :=
  if draining s core then
    let cores := switchingUnit s core
    if unitDrained s cores then some (saveCores s cores) else drainStep s cores
  else
    ((switchUnits s core).find? fun cores =>
      switchable s cores && (higherWaits s cores || (coreAt s core).switchAsked)).map (beginSwitch s)

def execContextSwitch (core : Nat) (s : State) : Out := .next ((switchCore s core).getD s)

/-- QUANTUM_EXPIRY: the quantum has run out while something of equal priority waits (R362, R364). -/
def quantumExpiry (s : State) (core : Nat) : Option State :=
  ((switchUnits s core).find? fun cores => switchable s cores && quantumOut s core && equalWaits s cores).map (beginSwitch s)

def execQuantumExpiry (core : Nat) (s : State) : Out := .next ((quantumExpiry s core).getD s)

/-! ## Restoring (R362, R363 step 6) -/

/-- The cores of a saved context. -/
def Saved.cores (x : Saved) : List Nat := mapKeys x.pools

/-- Loads a saved context onto its cores, which hold no team. -/
def restoreContext (s : State) (core : Nat) (x : Saved) : State :=
  let cores := x.cores
  let s := modCore s core fun c => { c with saved := c.saved.filter (· ≠ x) }
  let s := x.pools.foldl (fun s e =>
    shrinkL1 (modCore (setPool s e.1 0 e.2.1) e.1 fun c => { c with logWays := e.2.2 }) e.1 0) s
  let s := x.quarters.foldl (fun s e => modQuart s e.1 fun q =>
    { e.2 with nextOp := max q.nextOp e.2.nextOp, issueFree := q.issueFree, unitFree := q.unitFree
               pickCycle := q.pickCycle, picked := q.picked }) s
  let s := x.teams.foldl (fun s t => modTeam s t fun t => { t with st := TeamState.running }) s
  let s := { s with groups := s.groups.map fun e =>
    if x.teams.contains e.2.team then
      (e.1, raiseFlags (arriveAgain s e.1 { e.2 with resident := true, ops := e.2.ops.map (resumeScan s) }))
    else e }
  let s := endSwitch s cores
  cores.foldl (fun s c => setQuantum (modCore s c fun y =>
    { y with carved := match x.teams with
        | t :: _ => carvedBytes (partAt s (launchAt s (teamAt s t).lid).part)
        | [] => y.carved }) c true) s

/-- Whether cores can take a context: they are enabled, hold no team, and are not draining. -/
def unitFree (s : State) (cores : List Nat) : Bool :=
  cores.all fun c => coreEnabled s c && (teamsOn s c).isEmpty && !draining s c

/-- The saved context of a core that is restored next: of those whose cores are free, one of the highest
priority, the oldest; the one that the switch under way saved only if no other and no head goes before. -/
def nextContext (s : State) (core : Nat) : Option Saved :=
  let free := (coreAt s core).saved.filter fun x => unitFree s x.cores
  let top := free.foldl (fun m x => max m (savedPrio s x)) 0
  let best := free.filter fun x => savedPrio s x = top
  let x := match best.find? fun x => !x.out with
    | some x => some x
    | none => best.head?
  match x with
  | none => none
  | some x =>
    let heads := ((headsOf s x.cores).filter fun h => placeable s h.1 h.2 []).map fun h => teamPrio s h.2
    let first := heads.all fun p => if x.out then decide (p < top) else decide (p ≤ top)
    if first then some x else none

/-- CONTEXT_RESTORE. A switch for which nothing is left to come in, and whose own context has ended, is over. -/
def restoreCore (s : State) (core : Nat) : Option State :=
  match nextContext s core with
  | some x => some (restoreContext s core x)
  | none =>
    let c := coreAt s core
    if c.switching = 9 && c.saved.isEmpty && (headsOf s [core]).isEmpty && (contexts s core).isEmpty then
      some (endSwitch s [core])
    else none

def execContextRestore (core : Nat) (s : State) : Out := .next ((restoreCore s core).getD s)

end Sys2Proof.Machine
end

