-- ==== Sys2Proof/Machine/Reliability.lean ====
section
/-! DEFINITION. Reliability.lean: partitions created and torn down, registers of the physical and virtual
functions, patrol, the assay unit's verdicts, cores mapped out and the health register (R6, R387 to R401, R405,
R406, R413). -/

namespace Sys2Proof.Machine

/-! ## Mapping out a core (R400) -/

/-- The core that a queued team goes to, when its own may not be used any more: the next in turn that has room. -/
def newCore (s : State) (l : Launch) : Option Nat :=
  let cs := dealCores s l
  let turn := (cs.drop (l.nextCore % cs.length)) ++ cs.take (l.nextCore % cs.length)
  match turn.find? fun c => decide ((queuedTeams s c l.prio).length < Config.teamQueue) with
  | some c => some c
  | none => turn.head?

/-- Deals a queued team again. -/
def dealAgain (s : State) (core team : Nat) : State :=
  let l := launchAt s (teamAt s team).lid
  match newCore s l with
  | none => s
  | some c =>
    let cs := dealCores s l
    let s := modTeam (unqueue s core team) team fun t => { t with core := c }
    pushTeam (modLaunch s (teamAt s team).lid fun l => { l with nextCore := (cs.idxOf c + 1) % cs.length }) c l.prio team

/-- The queued teams that need a core: its own entries, and the pair entries of its partner. -/
def entriesFor (s : State) (core : Nat) : List (Nat × Nat) :=
  let own := prios.flatMap fun p => (queuedTeams s core p).map fun t => (core, t)
  if core % 2 = 0 then own
  else own ++ prios.flatMap fun p =>
    ((queuedTeams s (core - 1) p).filter fun t => (teamAt s t).pair).map fun t => (core - 1, t)

/-- The launches that have teams on a core, or saved there. -/
def launchesOn (s : State) (core : Nat) : List Nat :=
  dedup ((teamsOn s core ++ (contexts s core).flatMap (·.teams)).map fun t => (teamAt s t).lid)

/-- Maps a core out: it is recorded in the flash; its queued entries are dealt again; launches with teams on it
are ended, and rolled back if they can be; REPLACE is set and told. A repeated run's launch just ends. -/
def mapOutCore (s : State) (core : Nat) : State :=
  if !coreEnabled s core then s
  else
    let s := { s with flash := { s.flash with mappedOut := s.flash.mappedOut ++ [core], replace := true } }
    let s := modCore s core fun c => { c with mappedOut := true }
    let s := say (say s (.event core)) (.i3c core)
    let s := (entriesFor s core).foldl (fun s e => dealAgain s e.1 e.2) s
    (launchesOn s core).foldl (fun s lid =>
      if isShadow s lid then endLaunch s lid stEnded 0 0 0 else rollbackOrEnd s lid stPartial) s

/-! ## The assay unit (R397 to R399) -/

/-- An assay event: a record with CORE = 7 in a mailbox of the partition's first core (R374). -/
def assayEvent (s : State) (part : Nat) : State :=
  escalateFree s ((partAt s part).first * Config.coresPerCluster) 0x82 0 0 0 .nobody

/-- A verdict: 1 pass, 2 the second core is faulty, 3 the original core is, 4 undecided. -/
def takeVerdict (s : State) (team v : Nat) : State :=
  let t := teamAt s team
  let core := fun (i : Nat) => (t.runs.getD i (0, 0)).1
  let s := modTeam s team fun t => { t with verdict := some v }
  let s := modLaunch s t.lid fun l => { l with assay := max l.assay v }
  let s := if v = 3 then mapOutCore (rollbackOrEnd s t.lid stFailed) (core 0)
    else if v = 2 then mapOutCore s (core 1)
    else s
  settleLaunch s t.lid

/-- The verdict on three signatures. -/
def verdictOf (a b c : Word) : Nat := if b = c then 3 else if a = c then 2 else 4

/-- The launch and the team of a repeated run are no more. -/
def eraseRerun (s : State) (team : Nat) : State :=
  { s with launches := mapErase s.launches (teamAt s team).lid, teams := mapErase s.teams team }

/-- ASSAY_RUN_COMPLETE: a repeated run is over, and nothing of it is on its way. `none` also while no queue has
room for a third run. -/
def assayRun (s : State) (team : Nat) : Option State :=
  match mapFind s.teams team with
  | none => none
  | some r =>
    let past : Bool := r.st = TeamState.done
    let quiet := !(s.pubs.any fun e => e.2.lid = r.lid)
    match r.rerunOf with
    | none => none
    | some orig =>
      if !past || !quiet then none
      else
        let t := teamAt s orig
        let going : Bool := (launchAt s t.lid).st = LaunchState.running
        if (mapFind s.teams orig).isNone || !going then some (eraseRerun s team)
        else
          let runs := t.runs ++ [(r.core, r.sig)]
          let s' := modTeam (eraseRerun s team) orig fun t => { t with runs := runs }
          match runs.map (·.2) with
          | [a, b] =>
            if a = b then some (takeVerdict s' orig 1)
            else
              match rerunCores s' (launchAt s' t.lid) (runs.map (·.1)) true with
              | [] => none
              | cs =>
                let s' := { s' with assaymis := min (s'.assaymis + 1) 255 }
                let (k, s') := freeChoice (assayEvent s' (launchAt s' t.lid).part) cs.length
                some (addRerun s' orig (cs.getD k 0))
          | [a, b, c] => some (takeVerdict s' orig (verdictOf a b c))
          | _ => none

def execAssayRunComplete (team : Nat) (s : State) : Out := .next ((assayRun s team).getD s)

/-- ASSAYCFG_WRITE (R397). -/
def execAssaycfgWrite (part : Nat) (val : Word) (s : State) : Out :=
  let rate := bits val.toNat 0 9
  let seed : BitVec 32 := BitVec.ofNat 32 (bits val.toNat 32 32)
  let seed := if seed = 0 then 1 else seed
  if !s.variant.assay || !partExists s part || 256 < rate then .next s
  else .next (modPart s part fun p => { p with rate := rate, seed := seed, alfsr := seed })

/-! ## Patrol and health (R390, R401) -/

/-- PATROL_SCRUB: the correctable errors of a channel are corrected and written back. -/
def execPatrolScrub (die chan : Nat) (s : State) : Out :=
  let c := 64 * die + chan
  let here := s.hbmCorrectable.filter fun n => chanOf (32 * n) = c
  .next { s with
    hbmCorrectable := s.hbmCorrectable.filter fun n => chanOf (32 * n) ≠ c
    cecnt := min (s.cecnt + here.length) 0xFFFF }

/-- A soft error counts in CECNT (R390, R401). -/
def countError (s : State) : State := { s with cecnt := min (s.cecnt + 1) 0xFFFF }

/-- A poisoned line of an L1: a sector that holds no dirty byte is a clean copy, which is dropped. -/
def softL1 (s : State) (core asid line word : Nat) : State :=
  match findL1 (coreAt s core) asid line with
  | none => s
  | some x =>
    if bits x.dm.toNat (32 * (word / 4)) 32 = 0 then
      countError (modL1 s core asid line fun x => { x with sv := x.sv &&& ~~~(bitMask 4 (word / 4)) })
    else modL1 s core asid line fun x => { x with wordPoison := x.wordPoison ||| bitMask 16 word }

/-- A poisoned sector of a slice; a clean copy is dropped. A host half that is not M is clean. -/
def softSlice (s : State) (k asid line sector : Nat) : State :=
  match findL2 (sliceAt s k) asid line with
  | none => s
  | some x =>
    if !hasBit x.valid sector then s
    else if hasBit x.dirty sector || (x.place = 2 && x.mesi (sector / 2) == .m) then
      modLine s k asid line fun x => { x with poison := x.poison ||| bitMask 4 sector }
    else if x.place = 2 then s
    else countError (modLine s k asid line fun x => { x with valid := x.valid &&& ~~~(bitMask 4 sector) })

/-- A soft error is found: it is corrected in place, or a clean copy is dropped to be fetched again, each with
CECNT counted, or the word or sector is poisoned (R390). One of a quarter, team, core or partition that is not
there is nothing. -/
def softError (s : State) : SoftError → State
  | .corrected => countError s
  | .vector gid l n => modGrpIf s gid fun g => g.modThread l fun t => { t with poison := n :: t.poison }
  | .uniform gid n => modGrpIf s gid fun g => { g with sPoison := n :: g.sPoison }
  | .accumulator gid n => modGrpIf s gid fun g => { g with xaPoison := n :: g.xaPoison }
  | .cell q k => at' s.quarters q <| modQuart s q fun q => { q with cellPoison := 2 * (k / 2) :: (2 * (k / 2) + 1) :: q.cellPoison }
  | .bplane q k => at' s.quarters q <| modQuart s q fun q => { q with bPoison := k :: q.bPoison }
  | .staging q cv k => at' s.quarters q <| modQuart s q fun q => modCv q cv fun c =>
      { c with signed := c.signed.mapIdx fun i y => if i = k then { y with poison := true } else y }
  | .scratch team off =>
    match scratchPos (launchAt s (teamAt s team).lid) off with
    | some p => at' s.teams team <| modTeam s team fun t =>
        { t with scratchPoison := (List.range 8).map (p / 8 * 8 + ·) ++ t.scratchPoison }
    | none => s
  | .l1 core asid line word => softL1 s core asid line word
  | .instr core asid line =>
    at' s.cores core <| countError (modCore s core fun c =>
      { c with icache := c.icache.filter fun e => !(e.1 = asid && e.2.1 = line) })
  | .log gid l k => modGrpIf s gid fun g => g.modThread l fun t =>
      { t with tx := { t.tx with
          writes := t.tx.writes.mapIdx fun i w => if i = k then { w with poison := true } else w } }
  | .buffer p =>
    match mapFind s.pubs p with
    | some x => { s with pubs := mapPut s.pubs p { x with poison := sectorsOf (x.touched.head?.map (·.2) |>.getD 1) } }
    | none => s
  | .slice k asid line sector => softSlice s k asid line sector
  | .carved part sector => at' s.parts part <| modPart s part fun p =>
      { p with carvedPoison := (List.range 4).map (4 * sector + ·) ++ p.carvedPoison }
  | .hbm n true => { s with hbmCorrectable := n :: s.hbmCorrectable }
  | .hbm n false => { s with hbmPoison := n :: s.hbmPoison }
where
  at' {α : Type} (m : NMap α) (k : Nat) (t : State) : State := if (mapFind m k).isSome then t else s

/-- HEALTH_CLEAR. -/
def execHealthClear (val : Word) (s : State) : Out :=
  let x := val.toNat
  .next { s with
    flash := if bits x 0 1 = 1 then { s.flash with replace := false } else s.flash
    cecnt := if bits x 32 16 ≠ 0 then 0 else s.cecnt
    uecnt := if bits x 48 8 ≠ 0 then 0 else s.uecnt
    assaymis := if bits x 56 8 ≠ 0 then 0 else s.assaymis }

/-- HEALTH as it reads. -/
def health (s : State) : Word :=
  BitVec.ofNat 64 (s.flash.replace.toNat + s.flash.mappedOut.length % 512 * 2 + s.cecnt * 2 ^ 32
    + s.uecnt * 2 ^ 48 + s.assaymis * 2 ^ 56)

/-! ## Partitions (R387, R389) -/

/-- A partition at its creation: registers at their reset values (R84, R397, R405, R406, R413, R422). -/
def newPartition (first logn : Nat) : Partition :=
  { (default : Partition) with first := first, logn := logn, seed := 1, alfsr := 1 }

/-- PARTITION_CREATE: of 2^j free clusters that are aligned; otherwise the request has no effect. -/
def execPartitionCreate (first logn : Nat) (s : State) : Out :=
  let up : Bool := s.power = Power.running
  let ok := up && decide (logn ≤ 6) && first % 2 ^ logn = 0 && decide (first + 2 ^ logn ≤ s.variant.clusters)
    && (List.range (2 ^ logn)).all fun i => (partOfCluster s (first + i)).isNone
  if ok then
    .next { s with parts := mapPut s.parts first (newPartition first logn), flash := { s.flash with allTorn := false } }
  else .next s

/-- Ends the incomplete launches of a partition as TORN (R389 step 2). -/
def tearLaunches (s : State) (part : Nat) : State :=
  ((s.launches.filter fun e => e.2.part = part && e.2.incomplete && e.2.shadow.isNone).map (·.1)).foldl
    (fun s lid => endAndSettle s lid stTorn 0 0) s

/-- The next slice line of a partition that holds a host half: it is written back and released (R90). -/
def hostLines (s : State) (part : Nat) : List (Nat × L2Line) :=
  (partAt s part).clusters.flatMap fun k =>
    ((sliceAt s k).lines.filter fun x => x.place = 2 && (x.half0 ≠ .i || x.half1 ≠ .i)).map fun x => (k, x)

/-- Releases a host line: halves in M are written back, the others released, whatever waits on them. -/
def releaseHost (s : State) (k : Nat) (x : L2Line) : State :=
  let s := (List.range 2).foldl (fun s i =>
    let hpa := x.pa - 2 ^ 51 + 64 * i
    if x.mesi i = .m then
      let d : BitVec 512 := x.data.extractLsb' (512 * i) 512
      let s := say s (.cacheWrite hpa (some d))
      { s with hostMem := memWriteLE s.hostMem hpa 64 d.toNat }
    else if x.mesi i = .i then s
    else say s (.cacheWrite hpa none)) s
  dropLine s k x.asid x.line

/-- The channels of a cluster. -/
def channelsOf (k : Nat) : List Nat := (List.range 4).map fun i => 64 * dieOf k + 4 * (k % Config.clustersPerDie) + i

/-- The clusters of a partition reset: what it had in flight, its cores, slices, translation and counters are
gone, and its HBM is zero (R389 steps 3 to 6). -/
def resetClusters (s : State) (part : Nat) : State :=
  let p := partAt s part
  let ks := p.clusters
  let cs := p.cores
  let chans := ks.flatMap channelsOf
  let ours := fun (a : Nat) => chans.contains (chanOf a)
  let lids := (s.launches.filter fun e => e.2.part = part).map (·.1)
  let gids := (s.groups.filter fun e => cs.contains e.2.core).map (·.1)
  { s with
    parts := mapErase s.parts part
    launches := s.launches.filter fun e => e.2.part ≠ part
    teams := s.teams.filter fun e => !lids.contains e.2.lid
    groups := s.groups.filter fun e => !gids.contains e.1
    phasers := s.phasers.filter fun e => !lids.contains e.2.lid
    objects := s.objects.filter fun e => !lids.contains (e.1 / 256)
    cores := (s.cores.filter fun e => !cs.contains e.1 || e.2.mappedOut).map fun e =>
      if cs.contains e.1 then (e.1, { (default : Core) with mappedOut := true }) else e
    quarters := s.quarters.filter fun e => !cs.contains (e.1 / 4)
    slices := s.slices.filter fun e => !ks.contains e.1
    blocks := (s.blocks.map fun e => (e.1, { e.2 with
      entries := e.2.entries.filter fun t => t.part ≠ part
      walks := e.2.walks.filter fun w => w.part ≠ part
      updates := e.2.updates.filter fun u => u.part ≠ part })).filter fun e => e.2 ≠ default
    requests := s.requests.filter fun e => e.2.part ≠ part
    pubs := s.pubs.filter fun e => e.2.part ≠ part
    releases := s.releases.filter fun e => !gids.contains e.2.gid
    probes := s.probes.filter fun e => !gids.contains e.2.gid
    fences := s.fences.filter fun e => !gids.contains (e.1 / 8)
    sysOps := s.sysOps.filter fun o => o.part ≠ part
    hbm := s.hbm.filter fun e => !ours e.1
    hbmPoison := s.hbmPoison.filter fun n => !ours (32 * n)
    hbmCorrectable := s.hbmCorrectable.filter fun n => !ours (32 * n)
    biDir := s.biDir.filter fun e => !ours (64 * e.1)
    localReq := s.localReq.filter fun e => !chans.contains e.1
    remoteReq := s.remoteReq.filter fun e => !chans.contains e.1
    hostReq := s.hostReq.filter fun e => !chans.contains e.1 }

/-- Whether every launch of a partition is over: its record is written, or held by its ring. -/
def launchesOver (s : State) (part : Nat) : Bool :=
  s.launches.all fun e => e.2.part ≠ part ||
    match e.2.st with
    | .recorded | .finished => true
    | .ending => e.2.shadow.isSome
    | _ => false

/-- PARTITION_TEARDOWN: it waits for a seal to end; ends the launches; and once they are over the slices release
their host halves and the clusters reset (R389). -/
def tearDown (s : State) (part : Nat) : Option State :=
  match mapFind s.parts part with
  | none => none
  | some p =>
    if (s.ingot.sealing.map (·.part)) = some part then
      if p.tearing then none else some (modPart s part fun p => { p with tearing := true })
    else if !p.tearing || s.launches.any fun e => e.2.part = part && e.2.incomplete && e.2.shadow.isNone then
      some (tearLaunches (modPart s part fun p => { p with tearing := true }) part)
    else if !launchesOver s part || s.sysOps.any (fun o => o.part = part && o.agent = .command) then none
    else
      let s := (hostLines s part).foldl (fun s e => releaseHost s e.1 e.2) s
      let s := resetClusters s part
      some (if s.parts.isEmpty then { s with flash := { s.flash with allTorn := true } } else s)

def execPartitionTeardown (part : Nat) (s : State) : Out := .next ((tearDown s part).getD s)

/-! ## Registers without a row of their own (R6, R405, R406, R413) -/

/-- A queue's control register: LOGN while EN was 0, and EN (R406). -/
def writeQctl (val : Word) (q : CmdQueue) : CmdQueue :=
  { q with logn := if q.en then q.logn else bits val.toNat 0 5, en := bits val.toNat 8 1 = 1 }

/-- A ring's control register (R413). -/
def writeRctl (val : Word) (r : Ring) : Ring :=
  let x := val.toNat
  { r with logn := bits x 0 5, cnt := bits x 5 12, ticks := bits x 17 24, vec := bits x 41 11 }

/-- A host range's base or length, in 64 KiB units (R405). -/
def writeHostRange (i : Nat) (len : Bool) (val : Word) (p : Partition) : Partition :=
  let r := mapGet (0, 0) p.hostRanges i
  { p with hostRanges := mapSet (0, 0) p.hostRanges i (if len then (r.1, val.toNat) else (val.toNat, r.2)) }

/-- An HDM range's partition address, length or host address, each a multiple of 64 KiB (R405). -/
def writeHdmRange (i field : Nat) (val : Word) (p : Partition) : Partition :=
  let r := mapGet (0, 0, 0) p.hdmRanges i
  let x := val.toNat / 65536 * 65536
  let r := match field with
    | 0 => (x, r.2.1, r.2.2)
    | 1 => (r.1, x, r.2.2)
    | _ => (r.1, r.2.1, x)
  { p with hdmRanges := mapSet (0, 0, 0) p.hdmRanges i r }

/-- The operations of the ingot interface (R424). -/
def ingotOps : List Nat := [1, 2, 3, 4, 5, 6, 7, 0x10]

/-- The ingot interface's control register (R423): GO starts OP unless an operation runs; one that does not exist
ends at once with BADARG. -/
def writeIngotCtl (val : Word) (g : Ingot) : Ingot :=
  let x := val.toNat
  let op := bits x 0 8
  let part := bits x 8 6
  let g' := { g with op := op, partid := part, stop := bits x 24 1 = 1, endrun := bits x 25 1 = 1 }
  if bits x 14 1 = 0 || g.busy then g'
  else if ingotOps.contains op then { g' with busy := true, runOp := op, runPart := part, stage := 0 }
  else { g' with status := 1 }

/-- REGISTER_WRITE: the writable fields change as their access codes give; a write to a function of a partition that
does not exist, and one to a read-only register, is discarded. -/
def execRegisterWrite (part : Nat) (reg : RegName) (val : Word) (s : State) : Out :=
  let vf := fun (j : Nat) => 3 * part + j % 3
  let onPart := fun (f : Partition → Partition) => if partExists s part then modPart s part f else s
  let onQueue := fun (j q : Nat) (f : CmdQueue → CmdQueue) =>
    if partExists s part && decide (q < 16) then modQueue s (vf j) q f else s
  let onRing := fun (j r : Nat) (f : Ring → Ring) =>
    if partExists s part && decide (r < 4) then modRing s (vf j) r f else s
  .next <|
    match reg with
    | .regbase => onPart fun p => { p with regbase := val }
    | .asidbase => onPart fun p => { p with asidbase := val }
    | .hostRange i len => onPart (writeHostRange i.val len val)
    | .hdmRange i field => onPart (writeHdmRange i.val field.val val)
    | .maxprio j q => onQueue j q fun c => { c with maxprio := bits val.toNat 0 3 }
    | .qbase j q => onQueue j q fun c => if c.en then c else { c with qbase := val }
    | .qctl j q => onQueue j q (writeQctl val)
    | .rbase j r => onRing j r fun x => { x with rbase := val }
    | .rctl j r => onRing j r (writeRctl val)
    | .ingotCtl => { s with ingot := writeIngotCtl val s.ingot }
    | .ingotArg i => { s with ingot := { s.ingot with args := mapSet 0 s.ingot.args i.val val } }
    | .readOnly => s

end Sys2Proof.Machine
end

