-- ==== Sys2Proof/Machine/Mail.lean ====
section
/-! DEFINITION. Mail.lean: the management core's side of the mailboxes: deferred records, replies and the control byte
(R68, R374 to R376, R385, R392, R458). -/

namespace Sys2Proof.Machine

/-! ## Deferred escalations (R374) -/

/-- Whether what a record reports still waits: the group is held for it, or the miss is there. -/
def stillWaits (s : State) (w : Waiter) : Bool :=
  let held := fun (g : Nat) => (mapFind s.groups g).isSome && (grpAt s g).held == .unposted
  match w with
  | .group g => held g
  | .request (some g) .. => held g
  | .request none k asid page _ =>
    (sliceAt s k).misses.any fun m => m.asid = asid && pageOf (m.line * 128) = page && m.failed ≠ 0
  | _ => true

/-- ESCALATION_POST_DEFERRED: the oldest record that waits goes to a slot that is free; records of what no longer
waits go. -/
def postDeferred (s : State) (core : Nat) : Option State :=
  let c := coreAt s core
  match c.unposted with
  | [] => none
  | (r, w) :: rest =>
    let s := modCore s core fun c => { c with unposted := rest }
    if !stillWaits s w then some s
    else if (freeSlot c [0, 1]).isNone then none
    else some (postEscalation s core r w)

def execEscalationPostDeferred (core : Nat) (s : State) : Out := .next ((postDeferred s core).getD s)

/-! ## Replies (R375, R385, R458) -/

/-- Goes on after an escalation of a group: the raising item issues again. What was stopped by poison goes on
where it stopped. -/
def resumeGroup (s : State) (gid : Nat) : State :=
  let c := (grpAt s gid).heldCause
  let s := modGrp s gid fun g => { g with held := .none, heldCause := none }
  match c with
  | some c =>
    if c.sq then modGrp s gid fun g => resumeQueue g c.qn c.idx
    else if c.cp then resumeCopies s gid
    else if c.mx then resumeMatrix s gid c.idx c
    else s
  | none => s

/-- A page's failed misses at a slice are translated again. -/
def retranslate (s : State) (k asid page : Nat) : State :=
  let again := fun (m : Miss) =>
    if m.asid = asid && pageOf (m.line * 128) = page then { m with failed := 0 } else m
  modSlice s k fun sl => { sl with misses := sl.misses.map again }

/-- What of an ended launch waits for a page's failed misses is given up, and so is a line that cannot be
written back. -/
def dropFailed (s : State) (k asid page lid : Nat) : State :=
  let sl := sliceAt s k
  let bad := sl.misses.filter fun m => m.asid = asid && pageOf (m.line * 128) = page && m.failed ≠ 0
  let ids := (bad.flatMap fun m => waitersOf s k asid m.line).filter fun id =>
    match mapFind s.requests id, mapFind s.pubs id with
    | some r, _ => r.lid = lid
    | none, some p => p.lid = lid
    | none, none => false
  let s := bad.foldl (fun s m => dropLine (dropMiss s k asid m.line) k asid m.line) s
  let s := modSlice s k fun sl => { sl with waiting := sl.waiting.filter fun id => !ids.contains id }
  { s with requests := s.requests.filter (fun e => !ids.contains e.1), pubs := s.pubs.filter fun e => !ids.contains e.1 }

/-- Whether a group waits at a slot. -/
def heldAt (s : State) (gid slot : Nat) : Bool :=
  (mapFind s.groups gid).isSome && (grpAt s gid).held == .posted slot

/-- The reply to an escalation of a group: 0 is RESUME, all else is END; LEASE is always ended (R375, R392). -/
def replyGroup (s : State) (gid cause : Nat) (val : Word) : State :=
  let lid := lidOf s gid
  if cause = CauseCode.lease.num then endAndSettle s lid stEnded 2 0
  else if val = 0 then resumeGroup s gid
  else if cause = CauseCode.uncorr.num then
    if isShadow s lid then endAndSettle s lid stEnded 1 0 else rollbackOrEnd s lid stPartial
  else endAndSettle s lid stEnded 1 0

/-- Whether another failed miss still holds a group: a record of it is posted or waits. -/
def otherHolds (s : State) (core gid : Nat) : Bool :=
  let names := fun (w : Waiter) =>
    match w with
    | .request (some g) .. => g = gid
    | .group g => g = gid
    | _ => false
  let c := coreAt s core
  (c.slots.any fun e => e.2.full && !e.2.replied && names e.2.waiter) || c.unposted.any fun u => names u.2

/-- The reply to a failed translation (R458). -/
def replyRequest (s : State) (core : Nat) (gid : Option Nat) (k asid page lid cause : Nat) (val : Word) : State :=
  if val = 0 && cause ≠ CauseCode.lease.num then
    let s := retranslate s k asid page
    match gid with
    | some g =>
      if (mapFind s.groups g).isSome && (grpAt s g).held ≠ .stopped && !otherHolds s core g then
        modGrp s g fun x => { x with held := .none }
      else s
    | none => s
  else
    let s := endLaunch s lid stEnded (if cause = CauseCode.lease.num then 2 else 1) 0 0
    settleLaunch (dropFailed s k asid page lid) lid

/-- The reply to an MBOX: D receives it. A kind 1 that is not answered 0 ends the launch (R68, R385). -/
def replyMbox (s : State) (gid op kind : Nat) (arg val : Word) : State :=
  let lid := lidOf s gid
  if kind = 1 && val ≠ 0 then endAndSettle s lid stEnded 5 0
  else
    let l := launchAt s lid
    let s := if kind = 1 && residency s lid l.asid arg.toNat = .yes then pinPage s lid (pageOf arg.toNat) else s
    modGrp s gid fun g => modOp g op fun o =>
      match o.kind with
      | .mbox _ d => { o with kind := .ready, writes := destWrites d ((lanesOf 64 o.lanes).map fun l => (l, val)) }
      | _ => o

/-- MAILBOX_REPLY: a reply is delivered at once; one to an empty or answered slot is discarded (R374). -/
def execMailboxReply (core slot : Nat) (val : Word) (s : State) : Out :=
  let x := slotAt (coreAt s core) slot
  if !x.full || x.replied then .next s
  else
    let s := modCore s core fun c =>
      { c with slots := mapPut c.slots slot { x with reply := val, replied := true, waiter := .nobody } }
    .next <|
      match x.waiter with
      | .group g => if heldAt s g slot then replyGroup s g x.record.cause val else s
      | .mbox g op => if (mapFind s.groups g).isSome then replyMbox s g op x.record.kind x.record.w2 val else s
      | .request g k asid page lid => replyRequest s core g k asid page lid x.record.cause val
      | _ => s

/-- MAILBOX_CONTROL_CLEAR: FULL, REPLIED or both are cleared; what a record cleared unanswered waited for is
answered no more (R374). -/
def execMailboxControlClear (core slot : Nat) (full replied : Bool) (s : State) : Out :=
  .next (modCore s core fun c =>
    let x := slotAt c slot
    let y := { x with full := x.full && !full, replied := x.replied && !replied
                      waiter := if full then .nobody else x.waiter }
    { c with slots := mapPut c.slots slot y })

end Sys2Proof.Machine
end

