-- ==== Sys2Proof/Machine/Power.lean ====
section
/-! DEFINITION. Power.lean: device reset, cold and warm starts, recovery, slice power, power control and memory moved
from other devices (R90, R416 to R420). -/

namespace Sys2Proof.Machine

/-! ## Reset (R90) -/

/-- Every host line of the device's slices. -/
def allHostLines (s : State) : List (Nat × L2Line) :=
  s.slices.flatMap fun e => (e.2.lines.filter fun x => x.place = 2).map fun x => (e.1, x)

/-- The device goes down: what it holds outside flash and memory is lost. -/
def powerDown (s : State) : State :=
  { State.reset with
    variant := s.variant, flash := s.flash, recoveryImage := s.recoveryImage, free := s.free, agenda := s.agenda
    nextId := s.nextId, hbm := s.hbm, hbmPoison := s.hbmPoison, hbmCorrectable := s.hbmCorrectable
    hostMem := s.hostMem, toHost := s.toHost }

/-- The I/O die answers the snoops that wait: the device holds their halves no more. -/
def answerWaiting (s : State) : State :=
  s.hostOps.foldl (fun s o =>
    match o with
    | .snpInv hpa | .snpData hpa | .snpCur hpa => say s (.snoop hpa "RspIHitI" none false)
    | _ => s) s

/-- DEVICE_RESET: host halves in M are written back and the others released, and the snoops that wait are answered; then
the device is down. -/
def execDeviceReset (s : State) : Out :=
  .next (powerDown (answerWaiting ((allHostLines s).foldl (fun s e => releaseHost s e.1 e.2) s)))

/-! ## Starting (R416 to R418) -/

/-- Failed starts after which the next is cold, and after which the device recovers (R418). -/
abbrev startTries : Nat := 3
/-- Modules of the host link that must train (R404). -/
abbrev linkModules : Nat := 4

/-- The training data and the temperature of some dies are recorded; they are open. -/
def trainDies (s : State) (dies : List Nat) : State :=
  dies.foldl (fun s d =>
    let (x, s) := freeWord s
    let (t, s) := freeWord s
    { s with flash := { s.flash with trained := mapPut s.flash.trained d x.toNat, temps := mapPut s.flash.temps d t.toNat } })
    s

/-- The dies whose temperature has left the recorded one by more than 15 °C, which are trained afresh: open. -/
def driftedDies : State → List Nat → State × List Nat
  | s, [] => (s, [])
  | s, d :: ds =>
    let known := (mapFind s.flash.trained d).isSome
    let (k, s) := freeChoice s 2
    let (s, ds) := driftedDies s ds
    (s, if known && k = 0 then ds else d :: ds)

/-- A start has succeeded: the maps are loaded, the device is ready, and the count of failures is clear. -/
def startedUp (s : State) (modules : Nat) : State :=
  { s with
    power := .running, ready := true, modules := modules
    cores := s.cores.map fun e => (e.1, { e.2 with mappedOut := false })
    flash := { s.flash with failedWarm := 0, failedCold := 0 } }

/-- Whether a start may be made: the device is down, or a start has failed; after three failed cold starts only
once recovery has verified an image. -/
def mayStart (s : State) : Bool :=
  match s.power with
  | .down | .failed => decide (s.flash.failedCold < startTries)
  | .recovery => s.recoveryImage.isSome
  | .running => false

/-- A cold start, whose steps other than the link's training succeed when `ok`. -/
def coldStart (s : State) (ok : Bool) (modules : Nat) : State :=
  if ok && linkModules ≤ modules then
    let s := trainDies s (List.range s.variant.dies)
    startedUp { s with hbm := [], hbmPoison := [], hbmCorrectable := [] } modules
  else { s with power := .failed, ready := false, flash := { s.flash with failedCold := s.flash.failedCold + 1 } }

/-- COLD_START (R416). -/
def execColdStart (ok : Bool) (modules : Nat) (s : State) : Out :=
  .next (if mayStart s then coldStart s ok modules else s)

/-- WARM_START (R417): a cold start unless every partition was torn down before the reset, or after three failed
warm starts. -/
def execWarmStart (ok : Bool) (modules : Nat) (s : State) : Out :=
  let recovering : Bool := s.power = Power.recovery
  .next <|
    if !mayStart s then s
    else if recovering || !s.flash.allTorn || startTries ≤ s.flash.failedWarm then coldStart s ok modules
    else if ok && linkModules ≤ modules then
      let (s, ds) := driftedDies s (List.range s.variant.dies)
      startedUp (trainDies s ds) modules
    else { s with power := .failed, ready := false, flash := { s.flash with failedWarm := s.flash.failedWarm + 1 } }

/-- START_TIMEOUT (R416): a cold start has not ended in time. -/
def execStartTimeout (s : State) : Out := .next (if mayStart s then coldStart s false 0 else s)

/-- RECOVERY_MODE (R418): after three failed cold starts, as the flash counts them. -/
def execRecoveryMode (s : State) : Out :=
  let stopped : Bool := s.power = Power.failed || s.power = Power.down
  if stopped && startTries ≤ s.flash.failedCold then .next { s with power := .recovery, recoveryImage := none }
  else .next s

/-- RECOVERY_IMAGE_LOAD (R418): an image that verifies is taken; any other is rejected. -/
def execRecoveryImageLoad (image : List Byte) (s : State) : Out :=
  let recovering : Bool := s.power = Power.recovery
  if recovering && Config.firmwareVerifies image then .next { s with recoveryImage := some image } else .next s

/-- FWDIG: the digest of the verified firmware image (R437). -/
def fwdig (s : State) : BitVec 512 :=
  match s.recoveryImage with
  | some image => sha512 image
  | none => Config.firmwareDigest

/-! ## Slice power (R90) -/

/-- SLICE_POWER_GATE: the slice writes back and gives up its lines, one at a time, and is then gated. -/
def gateSlice (s : State) (k : Nat) : Option State :=
  let sl := sliceAt s k
  if s.variant.clusters ≤ k || sl.gated then none
  else
    match sl.lines with
    | [] =>
      if sl.misses.isEmpty && sl.waiting.isEmpty then some (modSlice s k fun x => { x with gated := true }) else none
    | xs => xs.findSome? fun x => if mayEvict s k x then (evictLine s k x).map (·.1) else none

def execSlicePowerGate (slice : Nat) (s : State) : Out := .next ((gateSlice s slice).getD s)

/-- SLICE_POWER_RESTORE. -/
def execSlicePowerRestore (slice : Nat) (s : State) : Out :=
  if (sliceAt s slice).gated then .next (modSlice s slice fun x => { x with gated := false }) else .next s

/-! ## Power control and other devices (R419, R420) -/

/-- POWER_THROTTLE: a quarter issues nothing for some core cycles. -/
def execPowerThrottle (core q cycles : Nat) (s : State) : Out :=
  .next (modCore s core fun c => { c with throttle := mapPut c.throttle (q % 4) (s.cycle + cycles) })

/-- REMOTE_MEMORY_MOVE: data of another device are written in a partition's HBM, on the part that has the ports. -/
def execRemoteMemoryMove (part pa : Nat) (bytes : List Byte) (s : State) : Out :=
  let inHbm := (List.range bytes.length).all fun i => backedHbm (partAt s part) (pa + i)
  if s.variant.scaleout && partExists s part && inHbm then
    .next (sysPost s .device part pa bytes.length (.bytes bytes false))
  else .next s

end Sys2Proof.Machine
end

