-- ==== Sys2Proof/Machine/Ingots.lean ====
section
/-! DEFINITION. Ingots.lean: sealed checkpoints: the ingot interface, sealing and restoring, lineage counters and
witnesses, attestation reports (R421 to R440). -/

namespace Sys2Proof.Machine

/-! ## Byte strings (R421) -/

/-- Status codes (R424). -/
abbrev igOk : Nat := 0
abbrev igBadArg : Nat := 1
abbrev igBadReport : Nat := 2
abbrev igWaitCert : Nat := 3
abbrev igNoSlot : Nat := 4
abbrev igBadIngot : Nat := 5
abbrev igBadCert : Nat := 6
abbrev igMeasure : Nat := 7
abbrev igShape : Nat := 8
abbrev igStale : Nat := 9
abbrev igConflict : Nat := 10
abbrev igFlash : Nat := 11
abbrev igRefused : Nat := 12
abbrev igState : Nat := 13

/-- A digest as its byte sequence, and back. -/
def digestBytes (d : BitVec 512) : List Byte := natBytes 64 d.toNat
def digestAt (b : List Byte) (off : Nat) : BitVec 512 := BitVec.ofNat 512 (bytesNat ((b.drop off).take 64))

/-- A modulus, signature or wrapped key: the most significant byte first. -/
def octets (x : BitVec 4096) : List Byte := (natBytes 512 x.toNat).reverse
def octetsAt (b : List Byte) (off : Nat) : BitVec 4096 := BitVec.ofNat 4096 (bytesNat ((b.drop off).take 512).reverse)

/-- `n` bytes at an offset, and as a little-endian number. -/
def sub (b : List Byte) (off n : Nat) : List Byte := (b.drop off).take n
def numAt (b : List Byte) (off n : Nat) : Nat := bytesNat (sub b off n)
def zeros (n : Nat) : List Byte := List.replicate n 0

/-- DEVID of a device, from its identity key's modulus. -/
def devidOf (m : BitVec 4096) : BitVec 512 := sha512 (octets m)
def myDevid : BitVec 512 := devidOf Config.dikModulus

/-- The identity key's signature of some bytes (R421). -/
def signature (s : State) (body : List Byte) : List Byte :=
  octets (pssSign Config.dikModulus Config.dikExponent body (Config.randomSalt s.free))

/-- Host memory as the engine reads and writes it. -/
def hostBytes (s : State) (hpa n : Nat) : List Byte := memReadBytes s.hostMem hpa n
def putHost (s : State) (hpa : Nat) (b : List Byte) : State := { s with hostMem := memWriteBytes s.hostMem hpa b }

/-- `n` fresh random words as bytes: a free value. -/
def randomBytes : State → Nat → State × List Byte
  | s, 0 => (s, [])
  | s, n + 1 =>
    let (x, s) := freeWord s
    let (s, b) := randomBytes s n
    (s, natBytes 8 x.toNat ++ b)

/-! ## The interface (R423) -/

def modIngot (s : State) (f : Ingot → Ingot) : State := { s with ingot := f s.ingot }
def argOf (s : State) (i : Nat) : Nat := (mapGet 0 s.ingot.args i).toNat

/-- An operation ends with its status and the bytes that it has written. -/
def endOp (s : State) (status written : Nat) : State :=
  modIngot s fun g => { g with busy := false, status := status, ires := BitVec.ofNat 64 written, stage := 0 }

/-- An operation of the interface: it runs when it has been started; with FLASH while the lineage region is found
rolled back, and with BADARG for a partition that does not exist. -/
def ingotOp (op : Nat) (body : State → Option State) (s : State) : Out :=
  if !s.ingot.busy || s.ingot.runOp ≠ op then .next s
  else if s.flash.rolledBack then .next (endOp s igFlash 0)
  else if op ≠ 0x10 && !partExists s s.ingot.runPart then .next (endOp s igBadArg 0)
  else .next ((body s).getD s)

/-! ## Reports (R437, R438) -/

/-- MCHAIN. -/
def mchain (fw cfg pmeas : BitVec 512) : BitVec 512 :=
  let step := fun (a b : BitVec 512) => sha512 (digestBytes a ++ digestBytes b)
  step (step (step 0 fw) cfg) pmeas

abbrev reportSize : Nat := 1848

/-- The bytes of a report that are signed. Its CAP1 has VFIDX 0, since no launch need be running whose function it could
name (R5; DESIGN CHOICE, log entry 78). -/
def reportBody (s : State) (part : Nat) (nonce : List Byte) : List Byte :=
  let p := partAt s part
  let fw := fwdig s
  natBytes 4 0x54414258 ++ natBytes 2 1 ++ natBytes 1 p.count ++ natBytes 1 part ++ nonce
    ++ digestBytes myDevid ++ digestBytes fw ++ digestBytes Config.configDigest ++ digestBytes p.pmeas
    ++ natBytes 8 (cap0 s).toNat ++ natBytes 8 (cap1 s part 0).toNat
    ++ digestBytes (mchain fw Config.configDigest p.pmeas) ++ zeros 448 ++ octets Config.wkModulus

/-- The length of a certificate, from its DER header. -/
def certLength (b : List Byte) : Nat := 4 + 256 * numAt b 2 1 + numAt b 3 1

/-- A report that has been verified: who reports, its key, and what it says. -/
structure Report where
  devid : BitVec 512
  modulus : BitVec 4096
  nonce : Nat
  pmeas : BitVec 512
  wk : BitVec 4096
deriving DecidableEq, Repr, Inhabited

/-- Verifies a report with the certificate that follows it. -/
def verifyReport (r cert : List Byte) : Option Report :=
  match Config.certModulus cert with
  | none => none
  | some m =>
    let devid := digestAt r 40
    let ok := numAt r 0 4 = 0x54414258 && devid = devidOf m
      && pssVerify m (sub r 0 1336) (octetsAt r 1336)
      && digestAt r 312 = mchain (digestAt r 104) (digestAt r 168) (digestAt r 232)
    if ok then some ⟨devid, m, numAt r 8 32, digestAt r 232, octetsAt r 824⟩ else none

/-- The report, with its certificate, at a host address; and the address after it. -/
def reportAt (s : State) (hpa : Nat) : Option Report × Nat :=
  let cert := hpa + reportSize
  let n := certLength (hostBytes s cert 4)
  (verifyReport (hostBytes s hpa reportSize) (hostBytes s cert n), cert + n)

/-- `n` reports that follow one another; and the address after them. -/
def reportsAt (s : State) : Nat → Nat → List (Option Report) × Nat
  | 0, hpa => ([], hpa)
  | n + 1, hpa =>
    let (r, next) := reportAt s hpa
    let (rs, stop) := reportsAt s n next
    (r :: rs, stop)

/-- Whether a report's magic stands at a host address. -/
def reportThere (s : State) (hpa : Nat) : Bool := numAt (hostBytes s hpa 4) 0 4 = 0x54414258

/-- The target reports of seal parameters: at most four, as long as they follow. -/
def targetsAt (s : State) : Nat → Nat → List (Option Report)
  | 0, _ => []
  | n + 1, hpa =>
    if reportThere s hpa then
      let (r, next) := reportAt s hpa
      r :: targetsAt s n next
    else []

/-- NONCE (R424). -/
def execNonce (s : State) : Out :=
  ingotOp 1 (fun s =>
    let (s, b) := randomBytes s 4
    let s := modPart s s.ingot.runPart fun p => { p with nonce := BitVec.ofNat 256 (bytesNat b) }
    some (endOp (putHost s (argOf s 1) b) igOk 32)) s

/-- REPORT (R424, R437). -/
def execReport (s : State) : Out :=
  ingotOp 2 (fun s =>
    let body := reportBody s s.ingot.runPart (hostBytes s (argOf s 0) 32)
    let sig := signature s body
    let b := body ++ sig ++ Config.certificate
    some (endOp (putHost { s with free := s.free + 1 } (argOf s 1) b) igOk b.length)) s

/-! ## Counter statements (R434) -/

/-- A counter statement without its signature. -/
structure Statement where
  kind : Nat
  state : Nat
  m : Nat
  k : Nat
  l : BitVec 128
  n : Nat
  digest : BitVec 512
  holder : BitVec 512
  nonce : Nat
  setHash : BitVec 512
  signer : BitVec 512
deriving DecidableEq, Repr, Inhabited

abbrev statementSize : Nat := 832

def Statement.body (x : Statement) : List Byte :=
  natBytes 4 0x43574258 ++ natBytes 1 x.kind ++ natBytes 1 x.state ++ natBytes 1 x.m ++ natBytes 1 x.k
    ++ natBytes 16 x.l.toNat ++ natBytes 8 x.n ++ digestBytes x.digest ++ digestBytes x.holder
    ++ natBytes 32 x.nonce ++ digestBytes x.setHash ++ digestBytes x.signer

/-- This device signs a statement. -/
def signStatement (s : State) (x : Statement) : State × List Byte :=
  let body := x.body
  ({ s with free := s.free + 1 }, body ++ signature s body)

/-- Reads a statement. -/
def statementOf (b : List Byte) : Statement :=
  { kind := numAt b 4 1, state := numAt b 5 1, m := numAt b 6 1, k := numAt b 7 1, l := BitVec.ofNat 128 (numAt b 8 16)
    n := numAt b 24 8, digest := digestAt b 32, holder := digestAt b 96, nonce := numAt b 160 32
    setHash := digestAt b 192, signer := digestAt b 256 }

/-- A statement that verifies under the key of its signer (R438). -/
def verifyStatement (keys : List (BitVec 512 × BitVec 4096)) (b : List Byte) : Option Statement :=
  let x := statementOf b
  match keys.find? fun e => e.1 = x.signer with
  | some e => if numAt b 0 4 = 0x43574258 && pssVerify e.2 (sub b 0 320) (octetsAt b 320) then some x else none
  | none => none

/-- `k` statements at a host address, as bytes. -/
def statementsAt (s : State) (hpa k : Nat) : List (List Byte) :=
  (List.range k).map fun i => hostBytes s (hpa + statementSize * i) statementSize

/-- SETHASH of a set of members. -/
def setHashOf (ms : List (BitVec 512)) : BitVec 512 := sha512 (ms.flatMap digestBytes)

/-- A request of this device for an ingot's counter. -/
def requestFor (s : State) (b : Bond) (kind n : Nat) : State × List Byte :=
  let (s, nonce) := randomBytes s 4
  signStatement s { kind := kind, state := 0, m := b.members.length, k := b.k, l := b.l, n := n, digest := b.digest
                    holder := myDevid, nonce := bytesNat nonce, setHash := setHashOf b.members, signer := myDevid }

/-- `count` requests, one after another. -/
def requestsFor (b : Bond) (kind n : Nat) : State → Nat → State × List Byte
  | s, 0 => (s, [])
  | s, count + 1 =>
    let (s, x) := requestFor s b kind n
    let (s, xs) := requestsFor b kind n s count
    (s, x ++ xs)

/-! ## Lineage entries (R433) -/

def lineageAt (s : State) (l : BitVec 128) : Option Lineage := s.flash.lineage.find? fun e => e.l = l

/-- Writes an entry; the write counter of the flash goes on. -/
def putLineage (s : State) (e : Lineage) : State :=
  let old := s.flash.lineage
  let new := if old.any fun x => x.l = e.l then old.map fun x => if x.l = e.l then e else x else old ++ [e]
  { s with flash := { s.flash with lineage := new, writeCount := s.flash.writeCount + 1 } }

/-- Whether an entry can be written: it is there, or the region has room. -/
def lineageRoom (s : State) (l : BitVec 128) : Bool :=
  (lineageAt s l).isSome || decide (s.flash.lineage.length < Config.lineageEntries)

/-- LINEAGE_ERASE. -/
def execLineageErase (s : State) : Out :=
  .next { s with flash := { s.flash with lineage := [], rolledBack := false } }

/-- IMEXT_WRITE: bytes of the block at an offset; the write of its last byte extends PMEAS of PARTID (R422, R423). -/
def execImextWrite (off : Nat) (bytes : List Byte) (s : State) : Out :=
  let old := digestBytes s.ingot.imext
  let new := old.mapIdx fun i b => if off ≤ i && i < off + bytes.length then bytes.getD (i - off) b else b
  let t := modIngot s fun g => { g with imext := BitVec.ofNat 512 (bytesNat new) }
  if off ≤ 63 ∧ 63 < off + bytes.length ∧ partExists s s.ingot.partid = true then
    .next (modPart t s.ingot.partid fun p => { p with pmeas := sha512 (digestBytes p.pmeas ++ new) })
  else .next t

/-! ## The parts of an ingot (R427, R429 to R432) -/

/-- The image key. -/
def imageKey (tmeas : BitVec 512) (l : BitVec 128) (n : Nat) : BitVec 256 :=
  hkdf tmeas Config.dss (natBytes 4 0x4B494258 ++ natBytes 16 l.toNat ++ natBytes 8 n)

/-- Header bytes [0, 32). -/
def headerLead (k m : Nat) (l : BitVec 128) (n : Nat) : List Byte :=
  natBytes 4 0x47494258 ++ natBytes 2 1 ++ natBytes 1 k ++ natBytes 1 m ++ natBytes 16 l.toNat ++ natBytes 8 n

/-- A chunk before it is sealed. -/
structure Chunk where
  kind : Nat
  loc : Nat
  text : List Byte
deriving DecidableEq, Repr, Inhabited

/-- A chunk header. -/
def chunkHeader (c : Chunk) (seq : Nat) : List Byte :=
  natBytes 4 c.kind ++ natBytes 4 c.text.length ++ natBytes 8 seq ++ natBytes 8 c.loc ++ zeros 8

/-- The registers of a queue and of a ring, in register offset order. -/
def queueBlock (q : CmdQueue) : List Byte :=
  natBytes 8 q.qbase.toNat ++ natBytes 8 (q.logn + q.maxprio * 2 ^ 5 + q.en.toNat * 2 ^ 8) ++ natBytes 8 q.head
    ++ natBytes 8 q.tail
def ringBlock (r : Ring) : List Byte :=
  natBytes 8 r.rbase.toNat ++ natBytes 8 (r.logn + r.cnt * 2 ^ 5 + r.ticks * 2 ^ 17 + r.vec * 2 ^ 41)
    ++ natBytes 8 r.rhead ++ natBytes 8 r.rtail ++ natBytes 8 r.pend ++ zeros 24

/-- The CONFIG plaintext (R432). -/
def configText (s : State) (part : Nat) : List Byte :=
  let p := partAt s part
  let cfg := p.rate + p.seed.toNat * 2 ^ 32
  let lead := natBytes 8 p.regbase.toNat ++ natBytes 8 p.asidbase.toNat ++ natBytes 8 p.ways ++ natBytes 8 cfg ++ zeros 32
  let funcs := (List.range 3).flatMap fun j =>
    ((List.range 16).flatMap fun q => queueBlock (queueAt s (3 * part + j) q)) ++
    (List.range 4).flatMap fun r => ringBlock (ringAt s (3 * part + j) r)
  lead ++ funcs ++ zeros (4096 - lead.length - funcs.length)

/-- A frame at a die-local offset: its bytes, with poisoned sectors zero, and the poison mask of its sectors. -/
def frameAt (s : State) (p : Partition) (die o : Nat) : List Byte × List Bool :=
  let bad := (List.range 2048).map fun i => s.hbmPoison.contains (dieHome p die (o + 32 * i) / 32)
  ((List.range 65536).map fun i => if bad.getD (i / 32) false then 0 else memRead s.hbm (dieHome p die (o + i)), bad)

/-- A mask of sectors as bytes. -/
def maskBytes (bs : List Bool) : List Byte :=
  (List.range (bs.length / 8)).map fun i =>
    BitVec.ofNat 8 (((List.range 8).map fun j => (bs.getD (8 * i + j) false).toNat * 2 ^ j).foldl (· + ·) 0)

/-- The chunks of the frames of a die from frame `i` on, `n` of them; `run` is the zero frames just before. -/
def frameChunks (s : State) (p : Partition) (die ord : Nat) : Nat → Nat → Nat → List Chunk
  | 0, i, run => if run = 0 then [] else [⟨5, ord * 2 ^ 56 + 65536 * (i - run), natBytes 8 run⟩]
  | n + 1, i, run =>
    let (b, bad) := frameAt s p die (65536 * i)
    let poisoned := bad.any id
    if !poisoned && b.all (· = 0) then frameChunks s p die ord n (i + 1) (run + 1)
    else
      let held := if run = 0 then [] else [⟨5, ord * 2 ^ 56 + 65536 * (i - run), natBytes 8 run⟩]
      let c : Chunk := if poisoned then ⟨4, ord * 2 ^ 56 + 65536 * i, maskBytes bad ++ b⟩ else ⟨3, ord * 2 ^ 56 + 65536 * i, b⟩
      held ++ c :: frameChunks s p die ord n (i + 1) 0

/-- Frames of a partition on a die. -/
def framesOn (p : Partition) (die : Nat) : Nat := backedBytes (p.onDie die).length / 65536

/-- A pending launch as a chunk. -/
def launchChunk (order : Nat) (x : BitVec 2048 × Nat × Nat) : Chunk :=
  ⟨2, order, natBytes 256 x.1.toNat ++ natBytes 4 x.2.1 ++ natBytes 4 x.2.2⟩

/-- Every chunk of a partition, in order (R431). -/
def chunksOf (s : State) (part : Nat) : List Chunk :=
  let p := partAt s part
  [⟨1, 0, configText s part⟩]
    ++ (p.pending.zipIdx.map fun e => launchChunk e.2 e.1)
    ++ (p.dies.zipIdx.flatMap fun e => frameChunks s p e.1 e.2 (framesOn p e.1) 0 0)
    ++ ((List.range (carvedBytes p / 65536)).map fun i => ⟨6, 65536 * i, memReadBytes p.carved (65536 * i) 65536⟩)
    ++ [⟨7, 0, []⟩]

/-- Seals chunks from a place on: their bytes, and their tags. -/
def sealChunks (key : BitVec 256) (lead : List Byte) : Nat → List Chunk → List Byte × List Byte
  | _, [] => ([], [])
  | seq, c :: cs =>
    let h := chunkHeader c seq
    let (text, tag) := gcmSeal key (BitVec.ofNat 96 seq) (lead ++ h) c.text
    let t := natBytes 16 tag.toNat
    let (b, ts) := sealChunks key lead (seq + 1) cs
    (h ++ text ++ t ++ b, t ++ ts)

/-- A key slot for a target: its DEVID, and the image key under its wrapping key (R429). -/
def keySlot (s : State) (lead : List Byte) (key : BitVec 256) (t : BitVec 512 × BitVec 4096) : State × List Byte :=
  ({ s with free := s.free + 1 }, digestBytes t.1 ++ octets (oaepWrap t.2 lead key (Config.randomSalt s.free)))

def keySlots (lead : List Byte) (key : BitVec 256) : State → List (BitVec 512 × BitVec 4096) → State × List Byte
  | s, [] => (s, [])
  | s, t :: ts =>
    let (s, x) := keySlot s lead key t
    let (s, xs) := keySlots lead key s ts
    (s, x ++ xs)

/-- The header (R430). -/
def headerBytes (s : State) (b : Bond) (tags : List Byte) (count : Nat) : List Byte :=
  let p := partAt s b.part
  headerLead b.k b.members.length b.l b.n ++ digestBytes p.pmeas ++ digestBytes myDevid ++ digestBytes (sha512 tags)
    ++ natBytes 8 count ++ natBytes 8 (gtOf s) ++ digestBytes (setHashOf b.members) ++ natBytes 1 p.count
    ++ natBytes 1 p.ways ++ natBytes 1 s.variant.code ++ zeros 13

/-! ## Sealing (R425 to R428) -/

/-- The pending launches of a partition enter acceptance, ahead of any new entry (R428, R440). -/
def acceptPending (s : State) (part : Nat) : State :=
  let xs := (partAt s part).pending
  let s := modPart s part fun p => { p with pending := [] }
  xs.foldl (fun s x =>
    let vf := 3 * part + x.2.1
    acceptLaunch s vf x.2.2 x.1 (queueAt s vf x.2.2).maxprio) s

/-- A quiesced partition reads its queues again. -/
def resumePart (s : State) (part : Nat) : State :=
  acceptPending (modPart s part fun p => { p with quiesced := false }) part

/-- An open seal is abandoned. -/
def abandonSeal (s : State) : State :=
  match s.ingot.sealing with
  | some b => modIngot (resumePart s b.part) fun g => { g with sealing := none, targets := [] }
  | none => s

/-- Step 1: the parameters at ARG0 and their checks; the seal's terms, or the status that it ends with. -/
def sealTerms (s : State) : Except Nat (Bond × List (BitVec 512 × BitVec 4096)) :=
  let part := s.ingot.runPart
  let p := partAt s part
  let a := argOf s 0
  let l : BitVec 128 := BitVec.ofNat 128 (numAt (hostBytes s a 16) 0 16)
  let k := numAt (hostBytes s (a + 16) 1) 0 1
  if k = 0 || 4 < k then .error igBadArg
  else
    let m := 2 * k - 1
    let members := (List.range m).map fun i => digestAt (hostBytes s (a + 17 + 64 * i) 64) 0
    let (rs, next) := reportsAt s m (a + 17 + 64 * m)
    let ts := targetsAt s 4 next
    let good := rs.filterMap id
    let targets := ts.filterMap id
    if good.length ≠ m || targets.length ≠ ts.length || good.map (·.devid) ≠ members
        || targets.any fun r => r.nonce ≠ p.nonce.toNat then .error igBadReport
    else if targets.any fun r => r.pmeas ≠ p.pmeas then .error igMeasure
    else
      let n := ((lineageAt s l).map fun e => e.r + 1).getD 1
      let own := fun (e : Lineage) => e.holder = myDevid
      let sameSet := fun (e : Lineage) => e.setHash = setHashOf members
      if (lineageAt s l).any fun e => !own e then .error igState
      else if (lineageAt s l).any fun e => !sameSet e then .error igBadArg
      else if !lineageRoom s l then .error igFlash
      else .ok ({ part := part, l := l, n := n, k := k, digest := 0, members := members
                  keys := good.map fun r => (r.devid, r.modulus) }, targets.map fun r => (r.devid, r.wk))

/-- Step 2 begins: the entry is written as PENDING, and the partition is quiesced: its launches that have not
started are withdrawn, and with ENDRUN those that run are ended. -/
def beginSeal (s : State) (b : Bond) (targets : List (BitVec 512 × BitVec 4096)) : State :=
  let prior := ((lineageAt s b.l).map (·.prior)).getD 0
  let s := putLineage s
    { l := b.l, r := b.n, st := .pending, digest := 0, holder := myDevid, prior := prior, setHash := setHashOf b.members }
  let ours := fun (e : Nat × Launch) => e.2.part = b.part
  let waits := fun (e : Nat × Launch) =>
    match e.2.st with
    | .waiting | .starting => true
    | _ => false
  let held := s.launches.filter fun e => ours e && waits e
  let s := modPart s b.part fun p =>
    { p with quiesced := true, pool := p.pool ++ held.flatMap (fun e => e.2.snaps.map (·.2))
             pending := p.pending ++ held.map fun e => (e.2.desc, e.2.vf % 3, e.2.queue) }
  let s := { s with launches := s.launches.filter fun e => !(ours e && waits e) }
  let s := if s.ingot.endrun then
      ((s.launches.filter fun e => ours e && e.2.incomplete && e.2.shadow.isNone).map (·.1)).foldl
        (fun s lid => endAndSettle s lid stEnded 3 0) s
    else s
  modIngot s fun g => { g with sealing := some b, targets := targets, stage := 1, pos := 0 }

/-- Every L1 of a partition publishes its dirty bytes. -/
def publishAll (s : State) (p : Partition) : State :=
  p.cores.foldl (fun s c => ((coreAt s c).l1).foldl (fun s x =>
    if x.dm = 0 then s else (takeBytes s c x (BitVec.allOnes 128) (.early 0)).1) s) s

/-- A step of the flush of a partition's slices: a dirty or host line is written back and leaves; or an exposed half
is recalled. `none` while what is left waits. -/
def flushStep (s : State) (p : Partition) : Option State :=
  let lines := p.clusters.flatMap fun k =>
    ((sliceAt s k).lines.filter fun x => x.dirty ≠ 0 || x.place = 2).map fun x => (k, x)
  let chans := p.clusters.flatMap channelsOf
  match lines.findSome? fun e => if mayEvict s e.1 e.2 then (evictLine s e.1 e.2).map (·.1) else none with
  | some t => some t
  | none => backInvalidate s (s.biDir.filter fun e => chans.contains (chanOf (64 * e.1))) true

/-- Whether a partition is flushed. -/
def flushed (s : State) (p : Partition) (part : Nat) : Bool :=
  let chans := p.clusters.flatMap channelsOf
  !(s.pubs.any fun e => e.2.part = part) &&
  (p.clusters.all fun k => (sliceAt s k).lines.all fun x => x.dirty = 0 && x.place ≠ 2) &&
  !s.biDir.any fun e => chans.contains (chanOf (64 * e.1))

/-- Steps 4 and 5: the ingot is written, then the seal requests. An ingot that the destination cannot hold ends the
seal with BADARG. -/
def collectIngot (s : State) (b : Bond) : State :=
  let p := partAt s b.part
  let lead := headerLead b.k b.members.length b.l b.n
  let key := imageKey p.pmeas b.l b.n
  let cs := chunksOf s b.part
  let (body, tags) := sealChunks key lead 0 cs
  let header := headerBytes s b tags cs.length
  let (s, slots) := keySlots lead key s s.ingot.targets
  let b := { b with digest := sha512 header }
  let ingot := header ++ slots ++ zeros (2304 - slots.length) ++ body
  if s.ingot.capacity < ingot.length then endOp (abandonSeal s) igBadArg 0
  else
    let (s, reqs) := requestsFor b 1 b.n s b.members.length
    let s := putHost (putHost s s.ingot.dest ingot) (argOf s 3) reqs
    endOp (modIngot s fun g => { g with sealing := some b, pos := ingot.length }) igWaitCert ingot.length

/-- SEAL. -/
def execSeal (s : State) : Out :=
  ingotOp 3 (fun s =>
    match s.ingot.stage, s.ingot.sealing with
    | 1, some b =>
      if s.launches.any fun e => e.2.part = b.part && e.2.st ≠ LaunchState.finished then none
      else some (modIngot (publishAll s (partAt s b.part)) fun g => { g with stage := 2 })
    | 2, some b =>
      let p := partAt s b.part
      if flushed s p b.part then some (collectIngot s b) else flushStep s p
    | _, _ =>
      let s := abandonSeal s
      match sealTerms s with
      | .error e => some (endOp s e 0)
      | .ok (b, ts) =>
        some (modIngot (beginSeal s b ts) fun g => { g with dest := argOf s 1, capacity := argOf s 2 })) s

/-- Statements of a kind for an open ingot from distinct members, with a holder where one must be named, or why they do
not do. -/
def checkStatements (b : Bond) (bs : List (List Byte)) (kind n : Nat) (holder : Option (BitVec 512)) :
    Except Nat (List Statement) :=
  let xs := bs.filterMap (verifyStatement b.keys)
  let fits := fun (x : Statement) => x.l = b.l && x.n = n && x.digest = b.digest && (holder.all fun h => x.holder = h)
    && b.members.contains x.signer
  if xs.length ≠ bs.length then .error igBadCert
  else if xs.any fun x => x.kind ≠ kind then .error igRefused
  else if !xs.all fits || (dedup (xs.map (·.signer))).length ≠ xs.length then .error igBadCert
  else .ok xs

/-- SEALFIN (R428, R429). -/
def execSealfin (s : State) : Out :=
  ingotOp 4 (fun s =>
    match s.ingot.sealing with
    | none => some (endOp s igState 0)
    | some b =>
      let bs := statementsAt s (argOf s 0) b.k
      let size := 448 + statementSize * b.k
      if b.part ≠ s.ingot.runPart then some (endOp s igState 0)
      else
        match checkStatements b bs 0x81 b.n (some myDevid) with
        | .error e => some (endOp s e 0)
        | .ok _ =>
          if s.ingot.capacity < s.ingot.pos + size then some (endOp s igBadArg 0)
          else
            let ms := b.members.flatMap digestBytes
            let s := putHost s (s.ingot.dest + s.ingot.pos) (ms ++ zeros (448 - ms.length) ++ bs.flatten)
            let prior := ((lineageAt s b.l).map (·.prior)).getD 0
            let s := putLineage s
              { l := b.l, r := b.n, st := .sealed, digest := b.digest, holder := myDevid, prior := prior
                setHash := setHashOf b.members }
            let s := modIngot s fun g => { g with sealing := none, targets := [] }
            let s := if s.ingot.stop then s else resumePart s b.part
            some (endOp s igOk size)) s

/-- WRAP (R429): with no own entry (L, n, SEALED, holder = this device), or with a target report of another nonce or
measurement, it ends with STALE. -/
def execWrap (s : State) : Out :=
  ingotOp 5 (fun s =>
    let h := hostBytes s (argOf s 0) 320
    let l : BitVec 128 := BitVec.ofNat 128 (numAt h 8 16)
    let n := numAt h 24 8
    let p := partAt s s.ingot.runPart
    let mine := fun (e : Lineage) => e.r = n && e.st = .sealed && e.holder = myDevid
    if !(lineageAt s l).any mine then some (endOp s igStale 0)
    else
      match (reportAt s (argOf s 1)).1 with
      | none => some (endOp s igBadReport 0)
      | some r =>
        if r.nonce ≠ p.nonce.toNat || r.pmeas ≠ digestAt h 32 then some (endOp s igStale 0)
        else
          let (s, slot) := keySlot s (sub h 0 32) (imageKey (digestAt h 32) l n) (r.devid, r.wk)
          some (endOp (putHost s (argOf s 1) slot) igOk slot.length)) s

/-! ## Restoring (R439, R440) -/

/-- A partition's memory, and its carved storage, are zero; what its slices, its cores and its translation blocks hold
of the old memory is gone with it, and it waits for no claim. -/
def zeroPart (s : State) (part : Nat) : State :=
  let p := partAt s part
  let chans := p.clusters.flatMap channelsOf
  let ours := fun (a : Nat) => chans.contains (chanOf a)
  let s := modPart s part fun p => { p with carved := [], carvedVer := [], carvedPoison := [], pending := [], quiesced := false }
  let s := p.cores.foldl (fun s c => modCore s c fun x => { x with l1 := [], icache := [] }) s
  let s := p.clusters.foldl (fun s k =>
    ((sliceAt s k).lines.filter fun x => x.place ≠ 2).foldl (fun s x =>
      keepLease (dropLine s k x.asid x.line) k x) s) s
  let s := p.clusters.foldl (fun s k => modSlice s k fun sl =>
    { sl with lines := sl.lines.map fun x => { x with wok := false } }) s
  { s with
    blocks := s.blocks.map fun e => (e.1, { e.2 with
      entries := e.2.entries.filter fun t => t.part ≠ part
      walks := e.2.walks.filter fun w => w.part ≠ part })
    hbm := s.hbm.filter fun e => !ours e.1
    hbmPoison := s.hbmPoison.filter fun n => !ours (32 * n)
    hbmCorrectable := s.hbmCorrectable.filter fun n => !ours (32 * n) }

/-- Decrypts the chunks of an ingot from a place on: the chunks and their tags, or nothing when a tag, a length, a
sequence number or a reserved field is wrong. -/
def openChunks (key : BitVec 256) (lead : List Byte) : Nat → Nat → List Byte → Option (List Chunk × List Byte)
  | 0, _, _ => some ([], [])
  | count + 1, seq, b =>
    let h := sub b 0 32
    let n := numAt h 4 4
    let ok := b.length ≥ 48 + n && numAt h 1 3 = 0 && numAt h 8 8 = seq && numAt h 24 8 = 0
    let tag := sub b (32 + n) 16
    if !ok then none
    else
      match gcmOpen key (BitVec.ofNat 96 seq) (lead ++ h) (sub b 32 n) (BitVec.ofNat 128 (bytesNat tag)) with
      | none => none
      | some text =>
        (openChunks key lead count (seq + 1) (b.drop (48 + n))).map fun (cs, ts) =>
          (⟨numAt h 0 1, numAt h 16 8, text⟩ :: cs, tag ++ ts)

/-- The rank of a chunk's kind in the order of R431, with its length: `none` for a chunk that breaks its row. -/
def chunkRank (c : Chunk) : Option Nat :=
  match c.kind with
  | 1 => if c.text.length = 4096 && c.loc = 0 then some 0 else none
  | 2 => if c.text.length = 264 then some 1 else none
  | 3 => if c.text.length = 65536 then some 2 else none
  | 4 => if c.text.length = 65792 then some 2 else none
  | 5 => if c.text.length = 8 then some 2 else none
  | 6 => if c.text.length = 65536 then some 3 else none
  | 7 => if c.text.isEmpty && c.loc = 0 then some 4 else none
  | _ => none

/-- Frames that a chunk covers. -/
def Chunk.frames (c : Chunk) : Nat := if c.kind = 5 then numAt c.text 0 8 else 1

/-- Whether frame chunks cover each frame of the dies once, in order: `ord` and `i` are the next place. -/
def coversFrames (p : Partition) : Nat → Nat → List Chunk → Bool
  | ord, i, [] => ord = p.dies.length && i = 0
  | ord, i, c :: cs =>
    let total := framesOn p (p.dies.getD ord 0)
    let next := i + c.frames
    decide (ord < p.dies.length) && c.loc = ord * 2 ^ 56 + 65536 * i && c.frames ≠ 0 && decide (next ≤ total) &&
      (if next = total then coversFrames p (ord + 1) 0 cs else coversFrames p ord next cs)

/-- Whether numbers rise. -/
def rising : List Nat → Bool
  | a :: b :: xs => decide (a < b) && rising (b :: xs)
  | _ => true

/-- Whether chunks stand in the order of R431 and cover the partition. -/
def chunksInOrder (p : Partition) (ways : Nat) (cs : List Chunk) : Bool :=
  let of := fun (r : Nat) => cs.filter fun c => chunkRank c = some r
  let parts := [0, 1, 2, 3, 4].flatMap of
  cs.all (fun c => (chunkRank c).isSome) && parts = cs && (of 0).length = 1 && (of 4).length = 1
    && rising ((of 1).map (·.loc)) && coversFrames p 0 0 (of 2)
    && (of 3).map (·.loc) = (List.range (ways * 0x180000 * p.count / 65536)).map (65536 * ·)

/-- Writes the frame of a chunk. -/
def putFrame (s : State) (part : Nat) (c : Chunk) : State :=
  let p := partAt s part
  let die := p.dies.getD (c.loc / 2 ^ 56) 0
  let o := c.loc % 2 ^ 56
  let (mask, b) := if c.kind = 4 then (sub c.text 0 256, c.text.drop 256) else ([], c.text)
  if c.kind = 5 then s
  else
    let put := fun (m : Memory) (e : Byte × Nat) => memWrite m (dieHome p die (o + e.2)) e.1
    let s := { s with hbm := (b.zipIdx).foldl put s.hbm }
    let bad := (List.range 2048).filter fun i => hasBit (mask.getD (i / 8) 0) (i % 8)
    { s with hbmPoison := s.hbmPoison ++ bad.map fun i => dieHome p die (o + 32 * i) / 32 }

/-- The queues and rings of the CONFIG plaintext, with EN = 0 in every queue. -/
def funcFrom (t : List Byte) (j : Nat) : Func :=
  let base := 64 + 768 * j
  let word := fun (off : Nat) => numAt t (base + off) 8
  let queue := fun (q : Nat) =>
    let w := word (32 * q + 8)
    ({ qbase := BitVec.ofNat 64 (word (32 * q)), logn := bits w 0 5, maxprio := bits w 5 3, en := false
       head := word (32 * q + 16), tail := word (32 * q + 24), pending := none } : CmdQueue)
  let ring := fun (r : Nat) =>
    let off := 512 + 64 * r
    let w := word (off + 8)
    ({ (default : Ring) with
       rbase := BitVec.ofNat 64 (word off), logn := bits w 0 5, cnt := bits w 5 12, ticks := bits w 17 24
       vec := bits w 41 11, rhead := word (off + 16), rtail := word (off + 24), pend := word (off + 32) } : Ring)
  { queues := (List.range 16).map fun q => (q, queue q), rings := (List.range 4).map fun r => (r, ring r) }

/-- An ingot's state enters the partition (R439). -/
def loadIngot (s : State) (part ways : Nat) (cs : List Chunk) : State :=
  let s := zeroPart s part
  let of := fun (k : Nat) => cs.filter fun c => c.kind = k
  let s := (cs.filter fun c => chunkRank c = some 2).foldl (fun s c => putFrame s part c) s
  let t := ((of 1).headD default).text
  let cfg := numAt t 24 8
  let carved := (of 6).foldl (fun m c => memWriteBytes m c.loc c.text) []
  let seed : BitVec 32 := BitVec.ofNat 32 (bits cfg 32 32)
  let seed := if seed = 0 then 1 else seed
  let pending := (of 2).map fun c =>
    (BitVec.ofNat 2048 (numAt c.text 0 256), numAt c.text 256 4, numAt c.text 260 4)
  modPart s part fun p =>
    { p with
      regbase := BitVec.ofNat 64 (numAt t 0 8), asidbase := BitVec.ofNat 64 (numAt t 8 8), ways := ways
      rate := if s.variant.assay then bits cfg 0 9 else p.rate
      seed := if s.variant.assay then seed else p.seed
      alfsr := if s.variant.assay then seed else p.alfsr
      carved := carved
      carvedPoison := []
      carvedVer := (List.range (ways * 0x180000 * p.count / 32)).map fun i => (i, 1)
      funcs := (List.range 3).map fun j => (j, funcFrom t j)
      pending := pending, quiesced := true }

/-- Whether a partition may be restored into: it holds no launch, no enabled queue and no carved way. -/
def restorable (s : State) (part : Nat) : Bool :=
  let p := partAt s part
  !(s.launches.any fun e => e.2.part = part && e.2.st ≠ LaunchState.finished) && p.ways = 0 && p.carveQueue.isEmpty
    && p.funcs.all fun f => f.2.queues.all fun q => !q.2.en

/-- The checks of RESTORE, in order: the terms of the claim with what the ingot holds, or the first failure. -/
def restoreTerms (s : State) : Except Nat (Bond × Nat × List Chunk) :=
  let part := s.ingot.runPart
  let p := partAt s part
  let b := hostBytes s (argOf s 0) (argOf s 2)
  let h := sub b 0 320
  let k := numAt h 6 1
  let m := numAt h 7 1
  let lead := sub h 0 32
  let slots := (List.range 4).map fun i => sub b (320 + 576 * i) 576
  let stop := b.length - (448 + statementSize * k)
  if b.length < 2624 + 448 + statementSize * k || numAt h 0 4 ≠ 0x47494258 || numAt h 4 2 ≠ 1 || numAt h 307 13 ≠ 0
      || k = 0 || 4 < k || m ≠ 2 * k - 1 then .error igBadIngot
  else if numAt h 304 1 ≠ p.count then .error igShape
  else if digestAt h 32 ≠ p.pmeas then .error igMeasure
  else
    match slots.findSome? fun x =>
        if digestAt x 0 = myDevid then oaepUnwrap Config.wkModulus Config.wkExponent lead (octetsAt x 64) else none with
    | none => .error igNoSlot
    | some key =>
      let members := (List.range m).map fun i => digestAt b (stop + 64 * i)
      let certs := (List.range k).map fun i => sub b (stop + 448 + statementSize * i) statementSize
      let keys := ((reportsAt s m (argOf s 3)).1.filterMap id).map fun r => (r.devid, r.modulus)
      let bond : Bond :=
        { part := part, l := BitVec.ofNat 128 (numAt h 8 16), n := numAt h 24 8, k := k, digest := sha512 h
          members := members, keys := keys }
      match checkStatements bond certs 0x81 bond.n none with
      | .error _ => .error igBadCert
      | .ok _ =>
        if setHashOf members ≠ digestAt h 240 then .error igBadCert
        else
          match openChunks key lead (numAt h 224 8) 0 ((b.take stop).drop 2624) with
          | none => .error igBadIngot
          | some (cs, tags) =>
            if sha512 tags = digestAt h 160 && chunksInOrder p (numAt h 305 1) cs then
              .ok (bond, numAt h 305 1, cs)
            else .error igBadIngot

/-- RESTORE. -/
def execRestore (s : State) : Out :=
  ingotOp 6 (fun s =>
    let part := s.ingot.runPart
    if !restorable s part then some (endOp s igState 0)
    else
      match restoreTerms s with
      | .error e => some (endOp (zeroPart s part) e 0)
      | .ok (b, ways, cs) =>
        let s := loadIngot s part ways cs
        let (s, reqs) := requestsFor b 2 (b.n + 1) s b.members.length
        let s := putHost (modIngot s fun g => { g with claim := some b }) (argOf s 1) reqs
        some (endOp s igWaitCert reqs.length)) s

/-- The status of a claim that fails, from the records among the responses (R440). -/
def claimFailure (b : Bond) (xs : List Statement) : Nat :=
  let records := xs.filter fun x => x.kind = 0x84 && x.l = b.l
  if records.any fun x => decide (b.n + 1 < x.n) || (x.n = b.n + 1 && x.state = 1) then igStale
  else if records.any fun x => x.n = b.n + 1 && x.state = 2 && x.holder ≠ myDevid then igConflict
  else igRefused

/-- RESTOREFIN. -/
def execRestorefin (s : State) : Out :=
  ingotOp 7 (fun s =>
    match s.ingot.claim with
    | none => some (endOp s igState 0)
    | some b =>
      let bs := statementsAt s (argOf s 0) b.k
      let xs := bs.filterMap (verifyStatement b.keys)
      let s' := modIngot s fun g => { g with claim := none }
      let entry := lineageAt s b.l
      if b.part ≠ s.ingot.runPart then some (endOp s igState 0)
      else
        match checkStatements b bs 0x82 (b.n + 1) (some myDevid) with
        | .ok _ =>
          if !lineageRoom s b.l then some (endOp (zeroPart s' b.part) igFlash 0)
          else
            let own := (entry.map fun e => e.st = .claimed && e.r = b.n + 1 && e.holder = myDevid).getD false
            let prior := if own then (entry.map (·.prior)).getD 0 else (entry.map (·.holder)).getD 0
            let s' := putLineage s'
              { l := b.l, r := b.n + 1, st := .claimed, digest := b.digest, holder := myDevid, prior := prior
                setHash := setHashOf b.members }
            some (endOp (resumePart s' b.part) igOk 0)
        | .error _ =>
          let grants := xs.filter fun x => x.kind = 0x82 && x.l = b.l && x.n = b.n + 1 && x.holder = myDevid
          let (s', reqs) := requestsFor b 3 (b.n + 1) (zeroPart s' b.part) grants.length
          some (endOp (putHost s' (argOf s 1) reqs) (claimFailure b xs) reqs.length)) s

/-! ## Witnesses (R435) -/

/-- STATE of a response. -/
def stateCode (e : Option Lineage) : Nat :=
  match e with
  | some y =>
    match y.st with
    | .sealed => 1
    | .claimed => 2
    | .pending => 0
  | none => 0

/-- What a request finds: why it fails; that no row matches it; or the entry that a row leaves and the kind of its
response. -/
inductive Witnessed where
  | bad (status : Nat)
  | refused
  | row (entry : Option Lineage) (kind : Nat)
deriving DecidableEq, Repr, Inhabited

/-- The rows of the table for a request. -/
def witnessRow (x : Statement) (e : Option Lineage) : Witnessed :=
  let entry := fun (r : Nat) (st : LinState) (holder prior : BitVec 512) =>
    some ({ l := x.l, r := r, st := st, digest := x.digest, holder := holder, prior := prior, setHash := x.setHash } : Lineage)
  match x.kind, e with
  | 1, none => if 1 ≤ x.n then .row (entry x.n .sealed x.holder 0) 0x81 else .refused
  | 1, some y =>
    if decide (y.r < x.n) && y.holder = x.holder then .row (entry x.n .sealed x.holder y.prior) 0x81
    else if y.r = x.n && y.st = .sealed && y.digest = x.digest && y.holder = x.holder then .row (some y) 0x81
    else .refused
  | 2, some y =>
    if y.r + 1 = x.n && y.st = .sealed && y.digest = x.digest then .row (entry x.n .claimed x.holder y.holder) 0x82
    else if y.r = x.n && y.st = .claimed && y.digest = x.digest && y.holder = x.holder then .row (some y) 0x82
    else .refused
  | 3, some y =>
    if y.r = x.n && y.st = .claimed && y.holder = x.holder then
      .row (some { y with r := y.r - 1, st := .sealed, holder := y.prior, prior := 0 }) 0x83
    else .refused
  | 4, _ => .row e 0x84
  | _, _ => .refused

/-- What a witness finds in the request and report at ARG0. -/
def witnessed (s : State) : Statement × Witnessed :=
  let b := hostBytes s (argOf s 0) statementSize
  let x := statementOf b
  let e := lineageAt s x.l
  match (reportAt s (argOf s 0 + statementSize)).1 with
  | none => (x, .bad igBadReport)
  | some r =>
    match verifyStatement [(r.devid, r.modulus)] b with
    | none => (x, .bad igBadCert)
    | some x =>
      let members := Config.memberUnder x.setHash r.devid && Config.memberUnder x.setHash myDevid
      let sameSet : Bool := match e with
        | some y => y.setHash = x.setHash
        | none => true
      if x.holder ≠ r.devid then (x, .bad igBadCert)
      else if !members || !sameSet then (x, .refused)
      else (x, witnessRow x e)

/-- A witness's answer: the entry is written, then the response is signed and written at ARG1. -/
def answerWitness (s : State) (x : Statement) (entry : Option Lineage) (kind status : Nat) : State :=
  let changed := entry ≠ lineageAt s x.l
  match entry with
  | some e =>
    if changed && !lineageRoom s e.l then endOp s igFlash 0
    else
      let s := if changed then putLineage s e else s
      let (s, b) := signStatement s { x with
        kind := kind, state := stateCode (some e), n := e.r, digest := e.digest, holder := e.holder, signer := myDevid }
      endOp (putHost s (argOf s 1) b) status statementSize
  | none =>
    let (s, b) := signStatement s { x with
      kind := kind, state := 0, n := 0, digest := 0, holder := 0, signer := myDevid }
    endOp (putHost s (argOf s 1) b) status statementSize

/-- WITNESS for requests of some kinds. -/
def witnessOp (mine : Nat → Bool) (s : State) : Out :=
  ingotOp 0x10 (fun s =>
    let (x, w) := witnessed s
    if !mine x.kind then none
    else
      some (match w with
        | .bad e => endOp s e 0
        | .refused => answerWitness s x (lineageAt s x.l) 0x84 igRefused
        | .row e kind => answerWitness s x e kind igOk)) s

/-- WITNESS_SEAL, WITNESS_CLAIM, WITNESS_RELEASE and, with requests of no known kind, WITNESS_QUERY. -/
def execWitnessSeal (s : State) : Out := witnessOp (· = 1) s
def execWitnessClaim (s : State) : Out := witnessOp (· = 2) s
def execWitnessRelease (s : State) : Out := witnessOp (· = 3) s
def execWitnessQuery (s : State) : Out := witnessOp (fun k => k = 0 || 4 ≤ k) s

end Sys2Proof.Machine
end

