-- ==== Sys2Proof/Machine/Registers.lean ====
section
/-! DEFINITION. Registers.lean: the registers that a management core and the host read and write, at their addresses;
a management core's accesses to memory; reduction objects joined with other devices; and instruction lines that leave a
core or a group's buffer on their own (R6, R69, R73, R84, R273, R289, R290, R311, R374, R397, R401, R405, R406, R413,
R423). -/

namespace Sys2Proof.Machine

/-! ## The register space of a management core -/

/-- The four words of a mailbox record (R374). -/
def recordWord (r : MboxRec) : Nat → Word
  | 0 => BitVec.ofNat 64 (r.kind % 2 ^ 8 + r.cause % 2 ^ 8 * 2 ^ 8 + r.orig % 2 ^ 8 * 2 ^ 16 + r.slot % 2 ^ 4 * 2 ^ 24
      + r.quarter % 2 ^ 2 * 2 ^ 28 + r.core % 2 ^ 3 * 2 ^ 30 + r.asid % 2 ^ 16 * 2 ^ 48)
  | 1 => r.w1
  | 2 => r.w2
  | _ => r.w3

/-- A mailbox slot, by words of 8 bytes: its record, the reply word, the control byte (R374). -/
def slotWord (x : Slot) : Nat → Word
  | 4 => x.reply
  | 5 => BitVec.ofNat 64 (x.full.toNat + 2 * x.replied.toNat)
  | k => if k < 4 then recordWord x.record k else 0

/-- A place in the register space of a management core: an address is rounded down to its 8 bytes, since the
specification gives none that is not a multiple of 8 (DESIGN CHOICE, log entry 76). -/
inductive ManagerReg where
  | health
  | counter (die chan which : Nat)
  | slot (core n word : Nat)
  | prefdrop (core : Nat)
  | nothing

/-- The place of an address (R69, R73, R374, R401). -/
def managerReg (s : State) (a : Nat) : ManagerReg :=
  if a / 8 = 0x01000000 / 8 then .health
  else if 0x03000000 ≤ a then
    let off := (a - 0x03000000) % 0x400
    let core := (a - 0x03000000) / 0x400
    if Config.coresPerCluster ≤ core then .nothing
    else if off < 0x200 then .slot core (off / 0x40) (off % 0x40 / 8)
    else if off / 8 = 0x300 / 8 then .prefdrop core
    else .nothing
  else if 0x02000000 ≤ a then
    let off := (a - 0x02000000) % 0x10000
    let die := (a - 0x02000000) / 0x10000
    if s.variant.dies ≤ die || 0x1000 ≤ off || 0x18 ≤ off % 0x40 then .nothing
    else .counter die (off / 0x40) (off % 0x40 / 8)
  else .nothing

/-- Whether a management core is of the partition that owns a channel (R73). -/
def ownsChannel (s : State) (cluster die chan : Nat) : Bool :=
  match partOfCluster s cluster with
  | some p => (partAt s p).clusters.contains (Config.clustersPerDie * die + chan / 4)
  | none => false

/-- A request counter. -/
def counterValue (s : State) (die chan which : Nat) : Word :=
  mapGet 0 (match which with | 0 => s.localReq | 1 => s.remoteReq | _ => s.hostReq) (64 * die + chan)

/-- What a management core reads at an address. -/
def managerRead (s : State) (cluster a : Nat) : Word :=
  let core := fun (c : Nat) => coreAt s (Config.coresPerCluster * cluster + c)
  match managerReg s a with
  | .health => health s
  | .counter d c w => if ownsChannel s cluster d c then counterValue s d c w else 0
  | .slot c n k => slotWord (slotAt (core c) n) k
  | .prefdrop c => (core c).prefdrop
  | .nothing => 0

/-- What a management core's 8-byte store to an address does. -/
def managerWrite (cluster a : Nat) (val : Word) (s : State) : Out :=
  match managerReg s a with
  | .health => execHealthClear val s
  | .counter d c w => match partOfCluster s cluster with
    | some p => execRequestCounterWrite p d c w val s
    | none => .next s
  | .slot c n k =>
    let core := Config.coresPerCluster * cluster + c
    match k with
    | 4 => execMailboxReply core n val s
    | 5 => execMailboxControlClear core n (val.toNat % 2 = 1) (val.toNat / 2 % 2 = 1) s
    | _ => .next s
  | _ => .next s

/-! ## The BARs of the functions (R405, R406, R413, R423) -/

/-- A queue's registers. -/
def queueWord (q : CmdQueue) : Nat → Word
  | 0 => q.qbase
  | 1 => BitVec.ofNat 64 (q.logn % 2 ^ 5 + q.maxprio % 2 ^ 3 * 2 ^ 5 + q.en.toNat * 2 ^ 8)
  | 2 => BitVec.ofNat 64 (q.head % 2 ^ 16)
  | _ => BitVec.ofNat 64 (q.tail % 2 ^ 16)

/-- A ring's registers. -/
def ringWord (r : Ring) : Nat → Word
  | 0 => r.rbase
  | 1 => BitVec.ofNat 64 (r.logn % 2 ^ 5 + r.cnt % 2 ^ 12 * 2 ^ 5 + r.ticks % 2 ^ 24 * 2 ^ 17 + r.vec % 2 ^ 11 * 2 ^ 41)
  | 2 => BitVec.ofNat 64 (r.rhead % 2 ^ 17)
  | 3 => BitVec.ofNat 64 (r.rtail % 2 ^ 17)
  | 4 => BitVec.ofNat 64 (r.pend % 2 ^ 12)
  | _ => 0

/-- What the host reads in the BAR of a virtual function; one whose partition does not exist reads as zero. -/
def funcRead (s : State) (vf off : Nat) : Word :=
  if !partExists s (partOfVf vf) then 0
  else if 0x1000 ≤ off && off < 0x1200 then queueWord (queueAt s vf ((off - 0x1000) / 0x20)) ((off - 0x1000) % 0x20 / 8)
  else if 0x1400 ≤ off && off < 0x1500 then ringWord (ringAt s vf ((off - 0x1400) / 0x40)) ((off - 0x1400) % 0x40 / 8)
  else 0

/-- What the host's 8-byte write there does. -/
def funcWrite (vf off : Nat) (val : Word) (s : State) : Out :=
  let part := partOfVf vf
  if 0x1000 ≤ off && off < 0x1200 then
    let q := (off - 0x1000) / 0x20
    match (off - 0x1000) % 0x20 / 8 with
    | 0 => execRegisterWrite part (.qbase (vf % 3) q) val s
    | 1 => execRegisterWrite part (.qctl (vf % 3) q) val s
    | 3 => execQtailWrite vf q (val.setWidth 16) s
    | _ => .next s
  else if 0x1400 ≤ off && off < 0x1500 then
    let r := (off - 0x1400) / 0x40
    match (off - 0x1400) % 0x40 / 8 with
    | 0 => execRegisterWrite part (.rbase (vf % 3) r) val s
    | 1 => execRegisterWrite part (.rctl (vf % 3) r) val s
    | 2 => execRheadWrite vf r (val.setWidth 17) s
    | _ => .next s
  else .next s

/-- The ingot interface's registers, GO and IMEXT reading as zero. -/
def ingotWord (g : Ingot) (k : Nat) : Word :=
  match k with
  | 0 => BitVec.ofNat 64 (g.op % 2 ^ 8 + g.partid % 2 ^ 6 * 2 ^ 8 + g.busy.toNat * 2 ^ 15 + g.status % 2 ^ 8 * 2 ^ 16
      + g.stop.toNat * 2 ^ 24 + g.endrun.toNat * 2 ^ 25)
  | 5 => g.ires
  | _ => if k < 5 then mapGet 0 g.args (k - 1) else 0

/-- What the host reads in BAR 0 of the physical function, and what its 8-byte write there does. -/
def physicalRead (s : State) (off : Nat) : Word := if off < 0x6000 then 0 else ingotWord s.ingot ((off - 0x6000) / 8)
def physicalWrite (off : Nat) (val : Word) (s : State) : Out :=
  let k := (off - 0x6000) / 8
  if off < 0x6000 then .next s
  else if k = 0 then execRegisterWrite 0 .ingotCtl val s
  else if h : k - 1 < 4 then execRegisterWrite 0 (.ingotArg ⟨k - 1, h⟩) val s
  else if 6 ≤ k && k < 14 then execImextWrite (8 * (k - 6)) (natBytes 8 val.toNat) s
  else .next s

/-! ## Registers by name -/

/-- CARVEW: the carved ways, and whether a carve change is in progress (R84). -/
def carvewWord (p : Partition) : Word := BitVec.ofNat 64 (p.ways % 16 + (p.carveQueue.any (·.1 ≤ 14)).toNat * 16)

/-- ASSAYCFG, which a part without the assay unit reads as zero (R397). -/
def assaycfgWord (s : State) (p : Partition) : Word :=
  if s.variant.assay then BitVec.ofNat 64 (p.rate + p.seed.toNat * 2 ^ 32) else 0

/-- A partition configuration register, as the physical function reads it (R405). -/
def configWord (s : State) (part : Nat) : RegName → Word
  | .regbase => (partAt s part).regbase
  | .asidbase => (partAt s part).asidbase
  | .hostRange i len =>
    let r := mapGet (0, 0) (partAt s part).hostRanges i.val
    BitVec.ofNat 64 (if len then r.2 else r.1)
  | .hdmRange i field =>
    let r := mapGet (0, 0, 0) (partAt s part).hdmRanges i.val
    BitVec.ofNat 64 (match field.val with | 0 => r.1 | 1 => r.2.1 | _ => r.2.2)
  | .maxprio j q => BitVec.ofNat 64 (queueAt s (3 * part + j % 3) q).maxprio
  | .qbase j q => queueWord (queueAt s (3 * part + j % 3) q) 0
  | .qctl j q => queueWord (queueAt s (3 * part + j % 3) q) 1
  | .rbase j r => ringWord (ringAt s (3 * part + j % 3) r) 0
  | .rctl j r => ringWord (ringAt s (3 * part + j % 3) r) 1
  | .ingotCtl => ingotWord s.ingot 0
  | .ingotArg i => ingotWord s.ingot (i.val + 1)
  | .readOnly => 0

/-- What a register reads as. -/
def registerValue (s : State) : RegRef → Word
  | .manager cluster a => managerRead s cluster a
  | .func vf off => funcRead s vf off
  | .physical off => physicalRead s off
  | .health => health s
  | .config part reg => configWord s part reg
  | .carvew part => carvewWord (partAt s part)
  | .assaycfg part => assaycfgWord s (partAt s part)

/-- What a write to a register does. -/
def writeRegister (r : RegRef) (val : Word) (s : State) : Out :=
  match r with
  | .manager cluster a => managerWrite cluster a val s
  | .func vf off => funcWrite vf off val s
  | .physical off => physicalWrite off val s
  | .health => execHealthClear val s
  | .config part reg => execRegisterWrite part reg val s
  | .carvew part => if partExists s part then execCarvewWrite part val s else .next s
  | .assaycfg part => execAssaycfgWrite part val s

/-! ## Management cores at memory (R60, R68, R273) -/

/-- A load or store of a management core to memory of its partition, made at the slices; one of a cluster of no partition
has no memory to go to. -/
def managerAccess (s : State) (cluster pa n : Nat) (job : SysJob) : State :=
  match partOfCluster s cluster with
  | some part => sysPost s (.manager cluster) part pa n job
  | none => s

/-! ## Joined objects (R311) -/

/-- The host runtime joins an object with other devices, on a part with scale-out ports. -/
def joinObject (s : State) (lid obj : Nat) : State :=
  if s.variant.scaleout && (mapFind s.launches lid).isSome && obj < Config.launchObjects then
    modObj s (objNo lid obj) fun o => { o with joined := true }
  else s

/-! ## Instruction lines that leave on their own (R289, R290) -/

/-- A line is evicted from a core. -/
def dropCached (asid line : Nat) (c : Core) : Core :=
  { c with icache := c.icache.filter fun e => !(e.1 = asid && e.2.1 = line) }

/-- A launch of an ASID that has a group on a core. -/
def launchOn (s : State) (core asid : Nat) : Option Nat :=
  (s.groups.find? fun e => e.2.core = core && asidOf s e.1 = asid).map fun e => lidOf s e.1

/-- A line that a core holds is evicted and filled again; of its parcels those named come new, the others as they were,
since each parcel that is fetched without the steps of R289 may be old or new (R290). -/
def refillInstr (s : State) (core asid line : Nat) (parcels : BitVec 32) : State :=
  match cachedLine (coreAt s core) asid line, launchOn s core asid with
  | some (old, bad), some lid =>
    let t := fillInstr (modCore s core (dropCached asid line)) core lid (line * 128) none
    match cachedLine (coreAt t core) asid line with
    | some (new, poison) =>
      let mask : BitVec 128 := maskOf 128 ((List.range 128).filter fun i => hasBit parcels (i / 4))
      let kept : BitVec 4 := maskOf 4 ((List.range 4).filter fun i => !(List.range 8).all fun j => hasBit parcels (8 * i + j))
      modCore t core fun c => putInstr c asid line (mergeLine old new mask) ((poison &&& sectorsOf mask) ||| (bad &&& kept))
    | none => s
  | _, _ => s

/-- A group's instruction buffer keeps a line as its core holds it. -/
def keepLine (s : State) (gid line : Nat) : State :=
  match mapFind s.groups gid with
  | none => s
  | some g =>
    match cachedLine (coreAt s g.core) (asidOf s gid) line with
    | some x => modGrp s gid fun g => { g with ibuf := (line, x) :: g.ibuf.filter fun e => e.1 ≠ line }
    | none => s

end Sys2Proof.Machine
end

