-- ==== Sys2Proof/Machine/Bits.lean ====
section
/-! DEFINITION. Bits.lean: the bit and packed-integer instructions of class 0x080 (R214 to R220). -/

namespace Sys2Proof.Machine

/-! ## Shifts (R215, R216) -/

/-- The shift operations of R215. -/
inductive ShiftOp where
  | shl | shr | sar | rot
deriving DecidableEq, Repr, Inhabited

/-- A shift of the low w bits of a value by an unsigned 64-bit amount, extended (R215). -/
def shiftOp (op : ShiftOp) (ty : Ty) (a amount : Word) : Word :=
  let w := ty.w
  let x := bits a.toNat 0 w
  let q := amount.toNat
  let y :=
    match op with
    | .shl => if q < w then x <<< q % 2 ^ w else 0
    | .shr => if q < w then x >>> q else 0
    | .sar => narrow true false w (intOf true w x / (2 ^ min q w : Nat))
    | .rot => let r := q % w; (x >>> r + x <<< (w - r)) % 2 ^ w
  extend ty y

/-- The funnel shift of R216. -/
def shfOp (ty : Ty) (left : Bool) (a b c : Word) : Word :=
  let w := ty.w
  let v := bits a.toNat 0 w * 2 ^ w + bits b.toNat 0 w
  let s := c.toNat % w
  BitVec.ofNat 64 (if left then bits (v <<< s) w w else bits (v >>> s) 0 w)

/-! ## Bit fields (R217) -/

/-- Position and width of a control operand. -/
def fieldPos (c : Word) : Nat × Nat :=
  let pos := bits c.toNat 0 8
  (pos, if 64 ≤ pos then 0 else min (bits c.toNat 8 8) (64 - pos))

/-- BFX. -/
def bfxOp (ty : Ty) (a b : Word) : Word :=
  let (pos, wd) := fieldPos b
  let f := bits a.toNat pos wd
  if wd = 0 then 0 else if ty.signed then sextW wd (BitVec.ofNat 64 f) else BitVec.ofNat 64 f

/-- BFI. -/
def bfiOp (a b c : Word) : Word :=
  let (pos, wd) := fieldPos c
  if wd = 0 then a
  else
    let m : Word := BitVec.ofNat 64 ((2 ^ wd - 1) <<< pos)
    (a &&& ~~~m) ||| ((b <<< pos) &&& m)

/-! ## Counts (R218) -/

/-- The 1 bits of the low w bits. -/
def popCount (w x : Nat) : Nat := ((List.range w).filter fun i => bits x i 1 = 1).length
/-- The zero bits above the highest 1 bit. -/
def leadingZeros (w x : Nat) : Nat := if x = 0 then w else w - 1 - log2 x
/-- The zero bits below the lowest 1 bit. -/
def trailingZeros (w x : Nat) : Nat :=
  if x = 0 then w else ((List.range w).find? fun i => bits x i 1 = 1).getD w
/-- The w bits in reverse order. -/
def reverseBits (w x : Nat) : Nat :=
  ((List.range w).map fun i => bits x i 1 <<< (w - 1 - i)).foldl Nat.lor 0

/-! ## Packed integers (R219, R220) -/

/-- One exact operation on each pair of elements, wrapped or clamped. -/
def packedOp (f : Int → Int → Int) (ty : Ty) (sat : Bool) (a b : Word) : Word :=
  (packElems ty.w ty.k fun i =>
    (narrow ty.signed sat ty.w (f (intOf ty.signed ty.w (elemOf ty.w a i))
      (intOf ty.signed ty.w (elemOf ty.w b i))), 0)).1

/-- Short dot products of `n` elements of width `w` into two 32-bit results. -/
def idotOp (w n : Nat) (ua ub sat : Bool) (a b c : Word) : Word :=
  (packElems 32 2 fun j =>
    let prods := (List.range n).map fun i =>
      intOf (!ua) w (elemOf w a (n * j + i)) * intOf (!ub) w (elemOf w b (n * j + i))
    (narrow true sat 32 (prods.foldl (· + ·) (intOf true 32 (elemOf 32 c j))), 0)).1

/-! ## The instructions -/

/-- AND, S form (R215). -/
def execAndS (h : Hdr) (_ : Ty) (d a b : Opnd) (s : State) : Out :=
  runPure (aItem h [a, b] d) d (fun xs => src xs 0 &&& src xs 1) s
/-- AND, L form. -/
def execAndL (h : Hdr) (_ : Ty) (d a : Opnd) (imm : Word) (s : State) : Out :=
  runPure (aItem h [a] d) d (fun xs => src xs 0 &&& imm) s
/-- OR, S form (R215). -/
def execOrS (h : Hdr) (_ : Ty) (d a b : Opnd) (s : State) : Out :=
  runPure (aItem h [a, b] d) d (fun xs => src xs 0 ||| src xs 1) s
/-- OR, L form. -/
def execOrL (h : Hdr) (_ : Ty) (d a : Opnd) (imm : Word) (s : State) : Out :=
  runPure (aItem h [a] d) d (fun xs => src xs 0 ||| imm) s
/-- XOR, S form (R215). -/
def execXorS (h : Hdr) (_ : Ty) (d a b : Opnd) (s : State) : Out :=
  runPure (aItem h [a, b] d) d (fun xs => src xs 0 ^^^ src xs 1) s
/-- XOR, L form. -/
def execXorL (h : Hdr) (_ : Ty) (d a : Opnd) (imm : Word) (s : State) : Out :=
  runPure (aItem h [a] d) d (fun xs => src xs 0 ^^^ imm) s
/-- ANDN, S form: a and not b (R215). -/
def execAndnS (h : Hdr) (_ : Ty) (d a b : Opnd) (s : State) : Out :=
  runPure (aItem h [a, b] d) d (fun xs => src xs 0 &&& ~~~(src xs 1)) s
/-- ANDN, L form. -/
def execAndnL (h : Hdr) (_ : Ty) (d a : Opnd) (imm : Word) (s : State) : Out :=
  runPure (aItem h [a] d) d (fun xs => src xs 0 &&& ~~~imm) s
/-- SHL, S form (R215). -/
def execShlS (h : Hdr) (ty : Ty) (d a b : Opnd) (s : State) : Out :=
  runPure (aItem h [a, b] d) d (fun xs => shiftOp .shl ty (src xs 0) (src xs 1)) s
/-- SHL, L form. -/
def execShlL (h : Hdr) (ty : Ty) (d a : Opnd) (imm : Word) (s : State) : Out :=
  runPure (aItem h [a] d) d (fun xs => shiftOp .shl ty (src xs 0) imm) s
/-- SHR, S form (R215). -/
def execShrS (h : Hdr) (ty : Ty) (d a b : Opnd) (s : State) : Out :=
  runPure (aItem h [a, b] d) d (fun xs => shiftOp .shr ty (src xs 0) (src xs 1)) s
/-- SHR, L form. -/
def execShrL (h : Hdr) (ty : Ty) (d a : Opnd) (imm : Word) (s : State) : Out :=
  runPure (aItem h [a] d) d (fun xs => shiftOp .shr ty (src xs 0) imm) s
/-- SAR, S form (R215). -/
def execSarS (h : Hdr) (ty : Ty) (d a b : Opnd) (s : State) : Out :=
  runPure (aItem h [a, b] d) d (fun xs => shiftOp .sar ty (src xs 0) (src xs 1)) s
/-- SAR, L form. -/
def execSarL (h : Hdr) (ty : Ty) (d a : Opnd) (imm : Word) (s : State) : Out :=
  runPure (aItem h [a] d) d (fun xs => shiftOp .sar ty (src xs 0) imm) s
/-- ROT, S form (R215). -/
def execRotS (h : Hdr) (ty : Ty) (d a b : Opnd) (s : State) : Out :=
  runPure (aItem h [a, b] d) d (fun xs => shiftOp .rot ty (src xs 0) (src xs 1)) s
/-- ROT, L form. -/
def execRotL (h : Hdr) (ty : Ty) (d a : Opnd) (imm : Word) (s : State) : Out :=
  runPure (aItem h [a] d) d (fun xs => shiftOp .rot ty (src xs 0) imm) s
/-- SHF (R216). -/
def execShf (h : Hdr) (ty : Ty) (left : Bool) (d a b c : Opnd) (s : State) : Out :=
  runPure (aItem h [a, b, c] d) d (fun xs => shfOp ty left (src xs 0) (src xs 1) (src xs 2)) s
/-- BFX (R217). -/
def execBfx (h : Hdr) (ty : Ty) (d a b : Opnd) (s : State) : Out :=
  runPure (aItem h [a, b] d) d (fun xs => bfxOp ty (src xs 0) (src xs 1)) s
/-- BFI (R217). -/
def execBfi (h : Hdr) (_ : Ty) (d a b c : Opnd) (s : State) : Out :=
  runPure (aItem h [a, b, c] d) d (fun xs => bfiOp (src xs 0) (src xs 1) (src xs 2)) s

/-- A count or reversal of the low w bits of A (R218). -/
def countOp (f : Nat → Nat → Nat) (ty : Ty) (a : Word) : Word :=
  BitVec.ofNat 64 (f ty.w (bits a.toNat 0 ty.w))

/-- POPC (R218). -/
def execPopc (h : Hdr) (ty : Ty) (d a : Opnd) (s : State) : Out :=
  runPure (aItem h [a] d) d (fun xs => countOp popCount ty (src xs 0)) s
/-- CLZ (R218). -/
def execClz (h : Hdr) (ty : Ty) (d a : Opnd) (s : State) : Out :=
  runPure (aItem h [a] d) d (fun xs => countOp leadingZeros ty (src xs 0)) s
/-- CTZ (R218). -/
def execCtz (h : Hdr) (ty : Ty) (d a : Opnd) (s : State) : Out :=
  runPure (aItem h [a] d) d (fun xs => countOp trailingZeros ty (src xs 0)) s
/-- BREV (R218). -/
def execBrev (h : Hdr) (ty : Ty) (d a : Opnd) (s : State) : Out :=
  runPure (aItem h [a] d) d (fun xs => countOp reverseBits ty (src xs 0)) s
/-- PADD (R219). -/
def execPadd (h : Hdr) (ty : Ty) (sat : Bool) (d a b : Opnd) (s : State) : Out :=
  runPure (aItem h [a, b] d) d (fun xs => packedOp (· + ·) ty sat (src xs 0) (src xs 1)) s
/-- PSUB (R219). -/
def execPsub (h : Hdr) (ty : Ty) (sat : Bool) (d a b : Opnd) (s : State) : Out :=
  runPure (aItem h [a, b] d) d (fun xs => packedOp (· - ·) ty sat (src xs 0) (src xs 1)) s
/-- PMUL (R219). -/
def execPmul (h : Hdr) (ty : Ty) (sat : Bool) (d a b : Opnd) (s : State) : Out :=
  runPure (laneItem h .m (some 4) [a, b] d) d
    (fun xs => packedOp (· * ·) ty sat (src xs 0) (src xs 1)) s
/-- PMIN (R219). -/
def execPmin (h : Hdr) (ty : Ty) (d a b : Opnd) (s : State) : Out :=
  runPure (aItem h [a, b] d) d (fun xs => packedOp min ty false (src xs 0) (src xs 1)) s
/-- PMAX (R219). -/
def execPmax (h : Hdr) (ty : Ty) (d a b : Opnd) (s : State) : Out :=
  runPure (aItem h [a, b] d) d (fun xs => packedOp max ty false (src xs 0) (src xs 1)) s
/-- IDOT4 (R220). -/
def execIdot4 (h : Hdr) (ua ub sat : Bool) (d a b c : Opnd) (s : State) : Out :=
  runPure (laneItem h .m (some 4) [a, b, c] d) d
    (fun xs => idotOp 8 4 ua ub sat (src xs 0) (src xs 1) (src xs 2)) s
/-- IDOT2 (R220). -/
def execIdot2 (h : Hdr) (ua ub sat : Bool) (d a b c : Opnd) (s : State) : Out :=
  runPure (laneItem h .m (some 4) [a, b, c] d) d
    (fun xs => idotOp 16 2 ua ub sat (src xs 0) (src xs 1) (src xs 2)) s

end Sys2Proof.Machine
end

