-- ==== Sys2Proof/Machine/Moves.lean ====
section
/-! DEFINITION. Moves.lean: moves, predicates, random draws and identity, class 0x1C0 (R180 to R185). -/

namespace Sys2Proof.Machine

/-- An item of class 0x1C0: issue class LANE, integer latency, no unit of its own. -/
def mvItem (h : Hdr) (srcs dsts : List Opnd) : Item :=
  { hdr := h, cls := .lane, lat := some 4, srcs := srcs, dsts := dsts }

/-- MOV (R181). -/
def execMov (h : Hdr) (_ : Ty) (d a : Opnd) (s : State) : Out :=
  runPure (mvItem h [a] [d]) d (fun xs => src xs 0) s
/-- MOVI (R181). -/
def execMovi (h : Hdr) (d : Opnd) (imm : BitVec 18) (s : State) : Out :=
  runPure (mvItem h [] [d]) d (fun _ => BitVec.signExtend 64 imm) s
/-- MOVL (R181). -/
def execMovl (h : Hdr) (d : Opnd) (imm : Word) (s : State) : Out :=
  runPure (mvItem h [] [d]) d (fun _ => imm) s
/-- SEL (R181). -/
def execSel (h : Hdr) (ps : PSrc) (d a b : Opnd) (s : State) : Out :=
  let it := mvItem h [a, b] [d]
  runItem it (laneBody it d 1 fun g l xs => (if predHolds g ps l then src xs 0 else src xs 1, 0)) s

/-- The operation of PLOP. -/
def plOp : PlOp → Bool → Bool → Bool
  | .and, a, b => a && b
  | .or, a, b => a || b
  | .xor, a, b => a != b

/-- PLOP (R182). -/
def execPlop (h : Hdr) (op : PlOp) (pd : Fin 8) (pa pb : PSrc) (s : State) : Out :=
  let it := mvItem h [] []
  runItem it (predBody it pd fun g l _ => (plOp op (predHolds g pa l) (predHolds g pb l), 0)) s

/-- p0 to p6 in bits 0 to 6, and p7 in bit 7. -/
def predWord (t : Thread) : Word := (t.p.setWidth 64) ||| 0x80

/-- PGET (R183). -/
def execPget (h : Hdr) (d : Opnd) (s : State) : Out :=
  let it := mvItem h [] [d]
  runItem it (laneBody it d 1 fun g l _ => (predWord (g.thread l), 0)) s

/-- PPUT: the predicates that MSK names take their bits of A (R183). -/
def execPput (h : Hdr) (msk : BitVec 7) (a : Opnd) (s : State) : Out :=
  let it := mvItem h [a] []
  runItem it (fun i ex s =>
    let ws := (lanesOf (grpAt s i.gid).width ex).flatMap fun l =>
      let x := readOpnd s i.gid l a
      ((List.range 7).filter fun p => hasBit msk p).map fun p =>
        (⟨l, .p l p, if hasBit x p then 1 else 0⟩ : RegWrite)
    .done { writes := ws } (consumeAll s i.gid it)) s

/-- The draw of a thread (R184). -/
def randWord (key gtid draw : Word) : Word :=
  mix (key ^^^ (gtid * 0x9E3779B97F4A7C15#64) ^^^ (draw * 0xD1B54A32D192ED03#64))

/-- The draw at a type: the bits, or an exact fraction in [0, 1). -/
def randValue (ty : Ty) (z : Word) : Word :=
  match ty with
  | .f64 => BitVec.ofNat 64 (Fmt.f64.roundFin .inf .rne false (z.toNat / 2 ^ 11) (-53)).1
  | .f32 => BitVec.ofNat 64 (Fmt.f32.roundFin .inf .rne false (z.toNat / 2 ^ 40) (-24)).1
  | _ => z

/-- RAND draws in each executing lane, and in no other (R184). -/
def execRand (h : Hdr) (ty : Ty) (d : Opnd) (s : State) : Out :=
  let it := mvItem h [] [d]
  runItem it (fun i ex s =>
    let g := grpAt s i.gid
    let key := BitVec.ofNat 64 (launchOf s i.gid).key
    let vals := (lanesOf g.width ex).map fun l =>
      (l, randValue ty (randWord key (g.thread l).gtid (g.thread l).draw))
    let s := modGrp s i.gid fun g => g.modLanes ex fun _ t => { t with draw := t.draw + 1 }
    let s := pushDest s i.gid ex d vals
    .done { writes := destWrites d vals } s) s

/-- The value of GETID (R185). -/
def idValue (s : State) (gid l : Nat) (sel : IdSel) : Nat :=
  let g := grpAt s gid
  let t := teamOf s gid
  let r := launchOf s gid
  match sel with
  | .lane => l
  | .group => g.gidx
  | .teamx => t.index % r.teamx
  | .teamy => t.index / r.teamx % r.teamy
  | .teamz => t.index / r.teamx / r.teamy
  | .team => t.index
  | .gtid => (g.thread l).gtid.toNat
  | .width => g.width
  | .ngroup => r.ngroup
  | .nteam => r.nteams
  | .core => g.core - (partOf s gid).first * Config.coresPerCluster
  | .quarter => g.quarter

/-- GETID (R185). -/
def execGetid (h : Hdr) (sel : IdSel) (d : Opnd) (s : State) : Out :=
  let it := mvItem h [] [d]
  runItem it (fun i ex s =>
    let vals := (lanesOf (grpAt s i.gid).width ex).map fun l =>
      (l, BitVec.ofNat 64 (idValue s i.gid l sel))
    let s := pushDest s i.gid ex d vals
    .done { writes := destWrites d vals } s) s

end Sys2Proof.Machine
end

