-- ==== Sys2Proof/Machine/Paired.lean ====
section
/-! DEFINITION. Paired.lean: the P word: two operations of the pairable table under one guard (R36 to
R38). -/

namespace Sys2Proof.Machine

/-- An entry of the pairable table: its unit, whether it is unary, and what it computes from its first
source and its own B. -/
structure PairOp where
  unit : UnitClass
  unary : Bool
  f : Word → Word → Word × FF

/-- Entries of two operands or one, by unit. -/
def pairBin (u : UnitClass) (f : Word → Word → Word) : PairOp := ⟨u, false, fun a b => (f a b, 0)⟩
def pairUn (u : UnitClass) (f : Word → Word) : PairOp := ⟨u, true, fun _ b => (f b, 0)⟩
/-- Floating-point entries, rounded to nearest even (R37). -/
def pairFlt (ty : Ty) (f : ElemFn) : PairOp := ⟨.f, false, fun a b => floatElems ty .rne f [a, b]⟩
def pairF64 (f : ElemFn) : PairOp := ⟨.f64, false, fun a b => floatElems .f64 .rne f [a, b]⟩
def pairFltUn (ty : Ty) (f : ElemFn) : PairOp := ⟨.f, true, fun _ b => floatElems ty .rne f [b]⟩
/-- The class mask of a scalar. -/
def pairClass (ty : Ty) : PairOp :=
  pairUn .f fun b => BitVec.ofNat 64 (fclassOp (fmtOf ty) (elemOf ty.w b 0))
/-- A shift; a packed operation. -/
def pairShift (op : ShiftOp) (ty : Ty) : PairOp := pairBin .a (shiftOp op ty)
def pairPack (u : UnitClass) (f : Int → Int → Int) (ty : Ty) : PairOp := pairBin u (packedOp f ty false)
def pairInt (u : UnitClass) (f : Int → Int → Int) (ty : Ty) : PairOp := pairBin u (intOp f ty false)

/-- Rows 0x00 to 0x20 of the pairable table. -/
def pairLow : Nat → Option PairOp
  | 0x00 => some (pairInt .a (· + ·) .i32)
  | 0x01 => some (pairInt .a (· + ·) .i64)
  | 0x02 => some (pairInt .a (· - ·) .i32)
  | 0x03 => some (pairInt .a (· - ·) .i64)
  | 0x04 => some (pairInt .a min .i32)
  | 0x05 => some (pairInt .a min .i64)
  | 0x06 => some (pairInt .a min .n32)
  | 0x07 => some (pairInt .a min .n64)
  | 0x08 => some (pairInt .a max .i32)
  | 0x09 => some (pairInt .a max .i64)
  | 0x0A => some (pairInt .a max .n32)
  | 0x0B => some (pairInt .a max .n64)
  | 0x0C => some (pairInt .m (· * ·) .i32)
  | 0x0D => some (pairInt .m2 (· * ·) .i64)
  | 0x0E => some (pairBin .m2 (imulhOp .i64))
  | 0x0F => some (pairBin .m2 (imulhOp .n64))
  | 0x10 => some (pairBin .a (· &&& ·))
  | 0x11 => some (pairBin .a (· ||| ·))
  | 0x12 => some (pairBin .a (· ^^^ ·))
  | 0x13 => some (pairBin .a fun a b => a &&& ~~~b)
  | 0x14 => some (pairShift .shl .n32)
  | 0x15 => some (pairShift .shl .n64)
  | 0x16 => some (pairShift .shr .n32)
  | 0x17 => some (pairShift .shr .n64)
  | 0x18 => some (pairShift .sar .i32)
  | 0x19 => some (pairShift .sar .i64)
  | 0x1A => some (pairShift .rot .n32)
  | 0x1B => some (pairShift .rot .n64)
  | 0x1C => some (pairUn .a (countOp popCount .n64))
  | 0x1D => some (pairUn .a (countOp leadingZeros .n64))
  | 0x1E => some (pairUn .a (countOp trailingZeros .n64))
  | 0x1F => some (pairUn .a (countOp reverseBits .n64))
  | 0x20 => some (pairPack .a (· + ·) .i8x8)
  | 0x21 => some (pairPack .a (· + ·) .i16x4)
  | 0x22 => some (pairPack .a (· + ·) .i32x2)
  | 0x23 => some (pairPack .a (· - ·) .i8x8)
  | 0x24 => some (pairPack .a (· - ·) .i16x4)
  | 0x25 => some (pairPack .a (· - ·) .i32x2)
  | 0x26 => some (pairPack .a min .i8x8)
  | 0x27 => some (pairPack .a min .i16x4)
  | _ => none

/-- Rows 0x28 to 0x50. -/
def pairHigh : Nat → Option PairOp
  | 0x28 => some (pairPack .a min .n8x8)
  | 0x29 => some (pairPack .a min .n16x4)
  | 0x2A => some (pairPack .a max .i8x8)
  | 0x2B => some (pairPack .a max .i16x4)
  | 0x2C => some (pairPack .a max .n8x8)
  | 0x2D => some (pairPack .a max .n16x4)
  | 0x2E => some (pairPack .m (· * ·) .i16x4)
  | 0x2F => some (pairPack .m (· * ·) .i32x2)
  | 0x30 => some (pairFlt .f32 faddFn)
  | 0x31 => some (pairFlt .f32 fsubFn)
  | 0x32 => some (pairFlt .f32 fmulFn)
  | 0x33 => some (pairFlt .f32 (fminFn false))
  | 0x34 => some (pairFlt .f32 (fminFn true))
  | 0x35 => some (pairFlt .f32x2 faddFn)
  | 0x36 => some (pairFlt .f32x2 fsubFn)
  | 0x37 => some (pairFlt .f32x2 fmulFn)
  | 0x38 => some (pairFlt .f32x2 (fminFn false))
  | 0x39 => some (pairFlt .f32x2 (fminFn true))
  | 0x3A => some (pairFlt .bf16x4 faddFn)
  | 0x3B => some (pairFlt .bf16x4 fsubFn)
  | 0x3C => some (pairFlt .bf16x4 fmulFn)
  | 0x3D => some (pairFlt .f16x4 faddFn)
  | 0x3E => some (pairFlt .f16x4 fsubFn)
  | 0x3F => some (pairFlt .f16x4 fmulFn)
  | 0x40 => some (pairF64 faddFn)
  | 0x41 => some (pairF64 fsubFn)
  | 0x42 => some (pairF64 fmulFn)
  | 0x43 => some (pairFlt .f64 (fminFn false))
  | 0x44 => some (pairFlt .f64 (fminFn true))
  | 0x45 => some (pairFlt .bf16x4 (fminFn false))
  | 0x46 => some (pairFlt .bf16x4 (fminFn true))
  | 0x47 => some (pairFlt .f16x4 (fminFn false))
  | 0x48 => some (pairFlt .f16x4 (fminFn true))
  | 0x49 => some (pairFlt .f32 fscaleFn)
  | 0x4A => some (pairFlt .f64 fscaleFn)
  | 0x4B => some (pairClass .f32)
  | 0x4C => some (pairClass .f64)
  | 0x4D => some (pairFltUn .f32 frndFn)
  | 0x4E => some (pairFltUn .f64 frndFn)
  | 0x4F => some (pairUn .a fun b => intResult .i32 false ((readInt .i32 b).natAbs : Int))
  | 0x50 => some (pairUn .a fun b => intResult .i64 false ((readInt .i64 b).natAbs : Int))
  | 0x51 => some (pairUn .a fun b => intResult .i32 false (-(readInt .i32 b)))
  | 0x52 => some (pairUn .a fun b => intResult .i64 false (-(readInt .i64 b)))
  | 0x53 => some (pairUn .a fun b => b)
  | 0x54 => some (pairUn .a (countOp popCount .n32))
  | 0x55 => some (pairUn .a (countOp leadingZeros .n32))
  | 0x56 => some (pairUn .a (countOp trailingZeros .n32))
  | 0x57 => some (pairUn .a (countOp reverseBits .n32))
  | _ => none

/-- The pairable table (R38). -/
def pairEntry (op : BitVec 7) : Option PairOp := if op.toNat < 0x28 then pairLow op.toNat else pairHigh op.toNat

/-- The latency of an operation (R204). -/
def PairOp.lat (p : PairOp) : Nat := if p.unit = .f64 then 6 else 4

/-- Whether a unit is of the multiplier class. -/
def multiplies (u : UnitClass) : Bool := u = .m || u = .m2

/-- Rules 1 to 4 of R36. -/
def pairBroken (op1 op2 : BitVec 7) (d1 a1 b1 d2 b2 : Opnd) : Bool :=
  let badField : Opnd → Bool := fun o =>
    match o with
    | .sq _ => true
    | .dp _ => true
    | .reserved _ => true
    | _ => false
  let badD : Opnd → Bool := fun o =>
    match o with
    | .s _ => true
    | .laneid => true
    | .ones => true
    | _ => false
  d1 = d2 || [d1, a1, b1, d2, b2].any badField || badD d1 || badD d2 ||
  match pairEntry op1, pairEntry op2 with
  | some p, some q => (multiplies p.unit && multiplies q.unit) || (p.unit = .f64 && q.unit = .f64)
  | _, _ => true

/-- The vector registers that a P word reads (R36 rule 5). -/
def pairReads (a1 b1 b2 : Opnd) : List Nat :=
  dedup ([a1, b1, b2].filterMap fun o =>
    match o with
    | .v n => some n.val
    | _ => none)

/-- A source that counted as retained and that the buffer does not serve costs one issue cycle (R37). -/
def retainedMiss (s : State) (g : Group) (act ex : Mask) (rs : List Nat) : Nat :=
  let kept : Option Nat :=
    match lanesOf g.width act with
    | l :: _ => ((g.thread l).block.bind (·.retained)).map (·.val)
    | [] => none
  match kept with
  | some k => if rs.contains k && !servedNow s g ex k then 1 else 0
  | none => 0

/-- The item of a P word. -/
def pairItem (h : Hdr) (op1 op2 : BitVec 7) (d1 a1 b1 d2 b2 : Opnd) : Item :=
  let u := fun (op : BitVec 7) => ((pairEntry op).map (·.unit)).getD .a
  let lat := fun (op : BitVec 7) => ((pairEntry op).map (·.lat)).getD 4
  { hdr := h, cls := .paired, unit := if multiplies (u op2) then u op2 else u op1
    lat := some (max (lat op1) (lat op2)), srcs := [a1, b1, b2], dsts := [d1, d2], setsFlags := true
    badPair := pairBroken op1 op2 d1 a1 b1 d2 b2, pairRegs := pairReads a1 b1 b2, noBanks := true }

/-- The results of one operation in the executing lanes. -/
def pairResults (s : State) (gid : Nat) (ls : List Nat) (p : PairOp) (a b : Opnd) :
    List (Nat × Word) × FF :=
  let rs := ls.map fun l => (l, p.f (readOpnd s gid l a) (readOpnd s gid l b))
  (rs.map fun e => (e.1, e.2.1), ffAll (rs.map fun e => e.2.2))

/-- An operation whose latency is the shorter completes by itself, before the word does (R37). -/
def pairEarly (s : State) (i : Issue) (ex : Mask) (lat : Nat) (ws : List RegWrite) (ff : FF) : State :=
  modGrp s i.gid fun g =>
    let wide := if g.width = 64 then 1 else 0
    let op : Op :=
      { id := g.nextOp, pc := i.pc, setf := none, due := s.cycle + wide + lat, fixed := true, lanes := ex
        left := ex, writes := ws, fflags := ff, setsFlags := true, kind := .ready, holds := .none }
    { g with ops := g.ops ++ [op], nextOp := g.nextOp + 1 }

/-- The body of a P word: every source is read before either operation writes (R37). -/
def pairBody (op1 op2 : BitVec 7) (d1 a1 b1 d2 b2 : Opnd) (i : Issue) (ex : Mask) (s : State) : Body :=
  match pairEntry op1, pairEntry op2 with
  | some p, some q =>
    let g := grpAt s i.gid
    let ls := lanesOf g.width ex
    let (r1, f1) := pairResults s i.gid ls p a1 b1
    let (r2, f2) := pairResults s i.gid ls q a1 b2
    let w1 := destWrites d1 r1
    let w2 := destWrites d2 r2
    let extra := retainedMiss s g i.act ex (pairReads a1 b1 b2)
    if p.lat < q.lat then .done { writes := w2, fflags := f2, extra := extra } (pairEarly s i ex p.lat w1 f1)
    else if q.lat < p.lat then .done { writes := w1, fflags := f1, extra := extra } (pairEarly s i ex q.lat w2 f2)
    else .done { writes := w1 ++ w2, fflags := f1 ||| f2, extra := extra } s
  | _, _ => .fault { code := .pairRule }

/-- The P word (R37). -/
def execPairedWord (h : Hdr) (op1 op2 : BitVec 7) (d1 a1 b1 d2 b2 : Opnd) (s : State) : Out :=
  runItem (pairItem h op1 op2 d1 a1 b1 d2 b2) (pairBody op1 op2 d1 a1 b1 d2 b2) s

end Sys2Proof.Machine
end

