-- ==== Sys2Proof/Machine/Dispatch.lean ====
section
/-! DEFINITION. Dispatch.lean: the meaning of each instruction and event, one arm each. -/

namespace Sys2Proof.Machine

def exec (i : Instr) (s : State) : Host.Outcome State Fault Refusal :=
  match i with
  | .nopC h => Sys2Proof.Machine.execNopC h s
  | .nopS h => Sys2Proof.Machine.execNopS h s
  | .bra h off => Sys2Proof.Machine.execBra h off s
  | .brx h a => Sys2Proof.Machine.execBrx h a s
  | .call h d off => Sys2Proof.Machine.execCall h d off s
  | .callx h d a => Sys2Proof.Machine.execCallx h d a s
  | .ret h d => Sys2Proof.Machine.execRet h d s
  | .exit h => Sys2Proof.Machine.execExit h s
  | .yield h => Sys2Proof.Machine.execYield h s
  | .tfence h => Sys2Proof.Machine.execTfence h s
  | .trap h code => Sys2Proof.Machine.execTrap h code s
  | .eret h => Sys2Proof.Machine.execEret h s
  | .brk h code => Sys2Proof.Machine.execBrk h code s
  | .sleep h ticks => Sys2Proof.Machine.execSleep h ticks s
  | .iaddS h ty sat d a b => Sys2Proof.Machine.execIaddS h ty sat d a b s
  | .iaddL h ty sat d a imm => Sys2Proof.Machine.execIaddL h ty sat d a imm s
  | .isubS h ty sat d a b => Sys2Proof.Machine.execIsubS h ty sat d a b s
  | .isubL h ty sat d a imm => Sys2Proof.Machine.execIsubL h ty sat d a imm s
  | .imulS h ty sat d a b => Sys2Proof.Machine.execImulS h ty sat d a b s
  | .imulL h ty sat d a imm => Sys2Proof.Machine.execImulL h ty sat d a imm s
  | .imulh h ty d a b => Sys2Proof.Machine.execImulh h ty d a b s
  | .imad h ty d a b c => Sys2Proof.Machine.execImad h ty d a b c s
  | .idiv h ty d a b => Sys2Proof.Machine.execIdiv h ty d a b s
  | .irem h ty d a b => Sys2Proof.Machine.execIrem h ty d a b s
  | .iminS h ty d a b => Sys2Proof.Machine.execIminS h ty d a b s
  | .iminL h ty d a imm => Sys2Proof.Machine.execIminL h ty d a imm s
  | .imaxS h ty d a b => Sys2Proof.Machine.execImaxS h ty d a b s
  | .imaxL h ty d a imm => Sys2Proof.Machine.execImaxL h ty d a imm s
  | .iabs h ty sat d a => Sys2Proof.Machine.execIabs h ty sat d a s
  | .ineg h ty sat d a => Sys2Proof.Machine.execIneg h ty sat d a s
  | .icmpS h ty cond pd a b => Sys2Proof.Machine.execIcmpS h ty cond pd a b s
  | .icmpL h ty cond pd a imm => Sys2Proof.Machine.execIcmpL h ty cond pd a imm s
  | .leaS h ty sh d a b => Sys2Proof.Machine.execLeaS h ty sh d a b s
  | .leaL h ty d a imm => Sys2Proof.Machine.execLeaL h ty d a imm s
  | .andS h ty d a b => Sys2Proof.Machine.execAndS h ty d a b s
  | .andL h ty d a imm => Sys2Proof.Machine.execAndL h ty d a imm s
  | .orS h ty d a b => Sys2Proof.Machine.execOrS h ty d a b s
  | .orL h ty d a imm => Sys2Proof.Machine.execOrL h ty d a imm s
  | .xorS h ty d a b => Sys2Proof.Machine.execXorS h ty d a b s
  | .xorL h ty d a imm => Sys2Proof.Machine.execXorL h ty d a imm s
  | .andnS h ty d a b => Sys2Proof.Machine.execAndnS h ty d a b s
  | .andnL h ty d a imm => Sys2Proof.Machine.execAndnL h ty d a imm s
  | .shlS h ty d a b => Sys2Proof.Machine.execShlS h ty d a b s
  | .shlL h ty d a imm => Sys2Proof.Machine.execShlL h ty d a imm s
  | .shrS h ty d a b => Sys2Proof.Machine.execShrS h ty d a b s
  | .shrL h ty d a imm => Sys2Proof.Machine.execShrL h ty d a imm s
  | .sarS h ty d a b => Sys2Proof.Machine.execSarS h ty d a b s
  | .sarL h ty d a imm => Sys2Proof.Machine.execSarL h ty d a imm s
  | .rotS h ty d a b => Sys2Proof.Machine.execRotS h ty d a b s
  | .rotL h ty d a imm => Sys2Proof.Machine.execRotL h ty d a imm s
  | .shf h ty left d a b c => Sys2Proof.Machine.execShf h ty left d a b c s
  | .bfx h ty d a b => Sys2Proof.Machine.execBfx h ty d a b s
  | .bfi h ty d a b c => Sys2Proof.Machine.execBfi h ty d a b c s
  | .popc h ty d a => Sys2Proof.Machine.execPopc h ty d a s
  | .clz h ty d a => Sys2Proof.Machine.execClz h ty d a s
  | .ctz h ty d a => Sys2Proof.Machine.execCtz h ty d a s
  | .brev h ty d a => Sys2Proof.Machine.execBrev h ty d a s
  | .padd h ty sat d a b => Sys2Proof.Machine.execPadd h ty sat d a b s
  | .psub h ty sat d a b => Sys2Proof.Machine.execPsub h ty sat d a b s
  | .pmul h ty sat d a b => Sys2Proof.Machine.execPmul h ty sat d a b s
  | .pmin h ty d a b => Sys2Proof.Machine.execPmin h ty d a b s
  | .pmax h ty d a b => Sys2Proof.Machine.execPmax h ty d a b s
  | .idot4 h ua ub sat d a b c => Sys2Proof.Machine.execIdot4 h ua ub sat d a b c s
  | .idot2 h ua ub sat d a b c => Sys2Proof.Machine.execIdot2 h ua ub sat d a b c s
  | .fadd h ty rnd d a b => Sys2Proof.Machine.execFadd h ty rnd d a b s
  | .fsub h ty rnd d a b => Sys2Proof.Machine.execFsub h ty rnd d a b s
  | .fmul h ty rnd d a b => Sys2Proof.Machine.execFmul h ty rnd d a b s
  | .ffma h ty rnd d a b c => Sys2Proof.Machine.execFfma h ty rnd d a b c s
  | .fmin h ty d a b => Sys2Proof.Machine.execFmin h ty d a b s
  | .fmax h ty d a b => Sys2Proof.Machine.execFmax h ty d a b s
  | .fcmp h ty cond pd a b => Sys2Proof.Machine.execFcmp h ty cond pd a b s
  | .fdot2 h sty rnd d a b c => Sys2Proof.Machine.execFdot2 h sty rnd d a b c s
  | .fscale h ty rnd d a b => Sys2Proof.Machine.execFscale h ty rnd d a b s
  | .fclass h ty d a => Sys2Proof.Machine.execFclass h ty d a s
  | .frnd h ty rnd d a => Sys2Proof.Machine.execFrnd h ty rnd d a s
  | .frcp h ty rnd d a => Sys2Proof.Machine.execFrcp h ty rnd d a s
  | .frsq h ty rnd d a => Sys2Proof.Machine.execFrsq h ty rnd d a s
  | .fsqrt h ty rnd d a => Sys2Proof.Machine.execFsqrt h ty rnd d a s
  | .fdiv h ty rnd d a b => Sys2Proof.Machine.execFdiv h ty rnd d a b s
  | .fexp2 h ty rnd d a => Sys2Proof.Machine.execFexp2 h ty rnd d a s
  | .flog2 h ty rnd d a => Sys2Proof.Machine.execFlog2 h ty rnd d a s
  | .fsin h ty rnd d a => Sys2Proof.Machine.execFsin h ty rnd d a s
  | .fcos h ty rnd d a => Sys2Proof.Machine.execFcos h ty rnd d a s
  | .ftanh h ty rnd d a => Sys2Proof.Machine.execFtanh h ty rnd d a s
  | .fcvt h ty sty rnd nsat d a => Sys2Proof.Machine.execFcvt h ty sty rnd nsat d a s
  | .f2i h ty sty rnd d a => Sys2Proof.Machine.execF2i h ty sty rnd d a s
  | .i2f h ty sty rnd d a => Sys2Proof.Machine.execI2f h ty sty rnd d a s
  | .fpack h ty sty rnd nsat d a b pos => Sys2Proof.Machine.execFpack h ty sty rnd nsat d a b pos s
  | .funpk h ty sty rnd d a b pos => Sys2Proof.Machine.execFunpk h ty sty rnd d a b pos s
  | .xclr h xa => Sys2Proof.Machine.execXclr h xa s
  | .xadd h ty xa a => Sys2Proof.Machine.execXadd h ty xa a s
  | .xmac h ty xa a b => Sys2Proof.Machine.execXmac h ty xa a b s
  | .xrnd h ty rnd clr xa d => Sys2Proof.Machine.execXrnd h ty rnd clr xa d s
  | .xmrg h xa xb => Sys2Proof.Machine.execXmrg h xa xb s
  | .xsave h xa a => Sys2Proof.Machine.execXsave h xa a s
  | .xload h xa a => Sys2Proof.Machine.execXload h xa a s
  | .shfl h wid mode seg d a b => Sys2Proof.Machine.execShfl h wid mode seg d a b s
  | .shfli h wid mode seg d a imm => Sys2Proof.Machine.execShfli h wid mode seg d a imm s
  | .bcast h wid first d a b => Sys2Proof.Machine.execBcast h wid first d a b s
  | .ballot h ps d => Sys2Proof.Machine.execBallot h ps d s
  | .vote h op pd ps a => Sys2Proof.Machine.execVote h op pd ps a s
  | .matchK h w32 rank d a => Sys2Proof.Machine.execMatchK h w32 rank d a s
  | .compact h ps d a => Sys2Proof.Machine.execCompact h ps d a s
  | .scan h op ty rnd excl seg d a b => Sys2Proof.Machine.execScan h op ty rnd excl seg d a b s
  | .sred h op ty rnd seg d a b => Sys2Proof.Machine.execSred h op ty rnd seg d a b s
  | .pcfg h wid pcn a => Sys2Proof.Machine.execPcfg h wid pcn a s
  | .perm h pcn d a => Sys2Proof.Machine.execPerm h pcn d a s
  | .regroup h k d => Sys2Proof.Machine.execRegroup h k d s
  | .regroupDeal team set => Sys2Proof.Machine.execRegroupDeal team set s
  | .actmask h live d => Sys2Proof.Machine.execActmask h live d s
  | .mov h ty d a => Sys2Proof.Machine.execMov h ty d a s
  | .movi h d imm => Sys2Proof.Machine.execMovi h d imm s
  | .movl h d imm => Sys2Proof.Machine.execMovl h d imm s
  | .sel h ps d a b => Sys2Proof.Machine.execSel h ps d a b s
  | .plop h op pd pa pb => Sys2Proof.Machine.execPlop h op pd pa pb s
  | .pget h d => Sys2Proof.Machine.execPget h d s
  | .pput h msk a => Sys2Proof.Machine.execPput h msk a s
  | .rand h ty d => Sys2Proof.Machine.execRand h ty d s
  | .getid h sel d => Sys2Proof.Machine.execGetid h sel d s
  | .ldS h ty sc acq ch d a b => Sys2Proof.Machine.execLdS h ty sc acq ch d a b s
  | .ldL h ty ch d a imm => Sys2Proof.Machine.execLdL h ty ch d a imm s
  | .stS h ty sc rel ch d a b => Sys2Proof.Machine.execStS h ty sc rel ch d a b s
  | .stL h ty ch d a imm => Sys2Proof.Machine.execStL h ty ch d a imm s
  | .ldsS h ty sc d a b => Sys2Proof.Machine.execLdsS h ty sc d a b s
  | .ldsL h ty d a imm => Sys2Proof.Machine.execLdsL h ty d a imm s
  | .stsS h ty sc d a b => Sys2Proof.Machine.execStsS h ty sc d a b s
  | .stsL h ty d a imm => Sys2Proof.Machine.execStsL h ty d a imm s
  | .ldxS h ty sc d a b => Sys2Proof.Machine.execLdxS h ty sc d a b s
  | .ldxL h ty d a imm => Sys2Proof.Machine.execLdxL h ty d a imm s
  | .stxS h ty sc d a b => Sys2Proof.Machine.execStxS h ty sc d a b s
  | .stxL h ty d a imm => Sys2Proof.Machine.execStxL h ty d a imm s
  | .prefS h l2 res lc sc a b => Sys2Proof.Machine.execPrefS h l2 res lc sc a b s
  | .prefL h l2 res lc a imm => Sys2Proof.Machine.execPrefL h l2 res lc a imm s
  | .linv h pub rng => Sys2Proof.Machine.execLinv h pub rng s
  | .cas h ty sp ord sc d a b c => Sys2Proof.Machine.execCas h ty sp ord sc d a b c s
  | .red h op ty sp rel d a b => Sys2Proof.Machine.execRed h op ty sp rel d a b s
  | .xred h cty sty sp a b => Sys2Proof.Machine.execXred h cty sty sp a b s
  | .xfin h ty rnd sp acq d a => Sys2Proof.Machine.execXfin h ty rnd sp acq d a s
  | .boff h clr => Sys2Proof.Machine.execBoff h clr s
  | .sqcfg h qn sp a b => Sys2Proof.Machine.execSqcfg h qn sp a b s
  | .sqgo h qn => Sys2Proof.Machine.execSqgo h qn s
  | .sqstop h qn disc => Sys2Proof.Machine.execSqstop h qn disc s
  | .sqstat h qn clr d => Sys2Proof.Machine.execSqstat h qn clr d s
  | .cpy h ssp dsp hint a b c => Sys2Proof.Machine.execCpy h ssp dsp hint a b c s
  | .cseal h d => Sys2Proof.Machine.execCseal h d s
  | .cwait h n rel => Sys2Proof.Machine.execCwait h n rel s
  | .cpoll h n rel d => Sys2Proof.Machine.execCpoll h n rel d s
  | .mdecl h cv a => Sys2Proof.Machine.execMdecl h cv a s
  | .mdeclRel h cv => Sys2Proof.Machine.execMdeclRel h cv s
  | .mma h ty cv kbm1 a bs c => Sys2Proof.Machine.execMma h ty cv kbm1 a bs c s
  | .mldb h sp a b c => Sys2Proof.Machine.execMldb h sp a b c s
  | .mzero h a => Sys2Proof.Machine.execMzero h a s
  | .mdrn h ty rnd dp tile p64 => Sys2Proof.Machine.execMdrn h ty rnd dp tile p64 s
  | .msta h ty rnd mode tile sp a b => Sys2Proof.Machine.execMsta h ty rnd mode tile sp a b s
  | .mldc h ty tile sp a b => Sys2Proof.Machine.execMldc h ty tile sp a b s
  | .macq h pd a => Sys2Proof.Machine.execMacq h pd a s
  | .mrel h => Sys2Proof.Machine.execMrel h s
  | .phreg h mode a => Sys2Proof.Machine.execPhreg h mode a s
  | .phdrop h a => Sys2Proof.Machine.execPhdrop h a s
  | .phsig h a => Sys2Proof.Machine.execPhsig h a s
  | .phwait h a => Sys2Proof.Machine.execPhwait h a s
  | .phnxt h a => Sys2Proof.Machine.execPhnxt h a s
  | .phnxtSpec h a => Sys2Proof.Machine.execPhnxtSpec h a s
  | .phstat h d a => Sys2Proof.Machine.execPhstat h d a s
  | .fence h kind sc => Sys2Proof.Machine.execFence h kind sc s
  | .gred h xa a => Sys2Proof.Machine.execGred h xa a s
  | .gres h form a => Sys2Proof.Machine.execGres h form a s
  | .txb h d => Sys2Proof.Machine.execTxb h d s
  | .txbOrd h d a => Sys2Proof.Machine.execTxbOrd h d a s
  | .txe h last => Sys2Proof.Machine.execTxe h last s
  | .txa h code => Sys2Proof.Machine.execTxa h code s
  | .txs h d => Sys2Proof.Machine.execTxs h d s
  | .csrr h csrn d => Sys2Proof.Machine.execCsrr h csrn d s
  | .csrw h csrn op d a => Sys2Proof.Machine.execCsrw h csrn op d a s
  | .icinv h rng => Sys2Proof.Machine.execIcinv h rng s
  | .l2way h d a => Sys2Proof.Machine.execL2way h d a s
  | .l2wayQ h d => Sys2Proof.Machine.execL2wayQ h d s
  | .gettime h d => Sys2Proof.Machine.execGettime h d s
  | .mbox h d a b => Sys2Proof.Machine.execMbox h d a b s
  | .halt h code => Sys2Proof.Machine.execHalt h code s
  | .pairedWord h op1 op2 d1 a1 b1 d2 b2 => Sys2Proof.Machine.execPairedWord h op1 op2 d1 a1 b1 d2 b2 s
  | .unassignedEncoding why => Sys2Proof.Machine.execUnassignedEncoding why s
  | .escalationPostDeferred core => Sys2Proof.Machine.execEscalationPostDeferred core s
  | .mailboxReply core slot val => Sys2Proof.Machine.execMailboxReply core slot val s
  | .mailboxControlClear core slot full replied => Sys2Proof.Machine.execMailboxControlClear core slot full replied s
  | .pcPromote gid pc => Sys2Proof.Machine.execPcPromote gid pc s
  | .agingPromote gid => Sys2Proof.Machine.execAgingPromote gid s
  | .yieldDemotionEnd gid pc => Sys2Proof.Machine.execYieldDemotionEnd gid pc s
  | .sleepExpiry gid lane => Sys2Proof.Machine.execSleepExpiry gid lane s
  | .parkExpiry gid lane => Sys2Proof.Machine.execParkExpiry gid lane s
  | .instructionComplete gid op lanes => Sys2Proof.Machine.execInstructionComplete gid op lanes s
  | .sliceFillRequest req => Sys2Proof.Machine.execSliceFillRequest req s
  | .evictionEntryDiscard slice asid line => Sys2Proof.Machine.execEvictionEntryDiscard slice asid line s
  | .memoryFillReturn slice asid line => Sys2Proof.Machine.execMemoryFillReturn slice asid line s
  | .fillReturn req => Sys2Proof.Machine.execFillReturn req s
  | .tlbWalk slice asid va write => Sys2Proof.Machine.execTlbWalk slice asid va write s
  | .adCompareSwap slice asid va => Sys2Proof.Machine.execAdCompareSwap slice asid va s
  | .publicationArrive id => Sys2Proof.Machine.execPublicationArrive id s
  | .writeApply slice id => Sys2Proof.Machine.execWriteApply slice id s
  | .writeback slice asid line => Sys2Proof.Machine.execWriteback slice asid line s
  | .snapshotPoolRefill part frames => Sys2Proof.Machine.execSnapshotPoolRefill part frames s
  | .releaseComplete rel => Sys2Proof.Machine.execReleaseComplete rel s
  | .fenceMarker rel die => Sys2Proof.Machine.execFenceMarker rel die s
  | .residencyProbe probe => Sys2Proof.Machine.execResidencyProbe probe s
  | .crucibleCas slice id => Sys2Proof.Machine.execCrucibleCas slice id s
  | .crucibleRed slice id => Sys2Proof.Machine.execCrucibleRed slice id s
  | .crucibleXred slice id => Sys2Proof.Machine.execCrucibleXred slice id s
  | .crucibleXfin slice id => Sys2Proof.Machine.execCrucibleXfin slice id s
  | .tileAddOnStore slice id => Sys2Proof.Machine.execTileAddOnStore slice id s
  | .carvewWrite part val => Sys2Proof.Machine.execCarvewWrite part val s
  | .carveChangeComplete part => Sys2Proof.Machine.execCarveChangeComplete part s
  | .requestCounterWrite part die chan which val => Sys2Proof.Machine.execRequestCounterWrite part die chan which val s
  | .snpInv hpa => Sys2Proof.Machine.execSnpInv hpa s
  | .snpData hpa => Sys2Proof.Machine.execSnpData hpa s
  | .snpCur hpa => Sys2Proof.Machine.execSnpCur hpa s
  | .cxlReadResponse slice hpa data own => Sys2Proof.Machine.execCxlReadResponse slice hpa data own s
  | .hostMemRead hpa n => Sys2Proof.Machine.execHostMemRead hpa n s
  | .hostMemWrite hpa bytes => Sys2Proof.Machine.execHostMemWrite hpa bytes s
  | .biResponse pa => Sys2Proof.Machine.execBiResponse pa s
  | .streamElementRequest core => Sys2Proof.Machine.execStreamElementRequest core s
  | .streamReadReturn core req => Sys2Proof.Machine.execStreamReadReturn core req s
  | .streamWriteApplied core ctx => Sys2Proof.Machine.execStreamWriteApplied core ctx s
  | .streamStopComplete gid q => Sys2Proof.Machine.execStreamStopComplete gid q s
  | .copyComplete core copy => Sys2Proof.Machine.execCopyComplete core copy s
  | .matrixQueueEnter core q cv => Sys2Proof.Machine.execMatrixQueueEnter core q cv s
  | .mmaStart core q => Sys2Proof.Machine.execMmaStart core q s
  | .mmaComplete core q op => Sys2Proof.Machine.execMmaComplete core q op s
  | .matrixMemoryOpComplete core q op => Sys2Proof.Machine.execMatrixMemoryOpComplete core q op s
  | .drainRowMove gid dp => Sys2Proof.Machine.execDrainRowMove gid dp s
  | .reservationRelease core q => Sys2Proof.Machine.execReservationRelease core q s
  | .claimantExpiry core q => Sys2Proof.Machine.execClaimantExpiry core q s
  | .phaseEnd inst => Sys2Proof.Machine.execPhaseEnd inst s
  | .specRollback gid => Sys2Proof.Machine.execSpecRollback gid s
  | .gredDeferredContribute gid op => Sys2Proof.Machine.execGredDeferredContribute gid op s
  | .gresResult gid op => Sys2Proof.Machine.execGresResult gid op s
  | .commitRound gid => Sys2Proof.Machine.execCommitRound gid s
  | .commitLock gid => Sys2Proof.Machine.execCommitLock gid s
  | .commitApply gid => Sys2Proof.Machine.execCommitApply gid s
  | .commitUnlock gid => Sys2Proof.Machine.execCommitUnlock gid s
  | .txAbort gid lane => Sys2Proof.Machine.execTxAbort gid lane s
  | .txLimit gid lane => Sys2Proof.Machine.execTxLimit gid lane s
  | .orderTokenPass lid => Sys2Proof.Machine.execOrderTokenPass lid s
  | .irrevocableTokenGrant gid lane => Sys2Proof.Machine.execIrrevocableTokenGrant gid lane s
  | .nopCommand vf q => Sys2Proof.Machine.execNopCommand vf q s
  | .launchCommand vf q => Sys2Proof.Machine.execLaunchCommand vf q s
  | .endCommand vf q => Sys2Proof.Machine.execEndCommand vf q s
  | .switchCommand vf q => Sys2Proof.Machine.execSwitchCommand vf q s
  | .malformedEntry vf q => Sys2Proof.Machine.execMalformedEntry vf q s
  | .qtailWrite vf q val => Sys2Proof.Machine.execQtailWrite vf q val s
  | .dependenceCheck part => Sys2Proof.Machine.execDependenceCheck part s
  | .launchStart lid => Sys2Proof.Machine.execLaunchStart lid s
  | .teamDeal lid => Sys2Proof.Machine.execTeamDeal lid s
  | .teamPlace core => Sys2Proof.Machine.execTeamPlace core s
  | .teamSteal thief => Sys2Proof.Machine.execTeamSteal thief s
  | .teamEnd team => Sys2Proof.Machine.execTeamEnd team s
  | .recordWriteDeferred vf ring => Sys2Proof.Machine.execRecordWriteDeferred vf ring s
  | .rheadWrite vf ring val => Sys2Proof.Machine.execRheadWrite vf ring val s
  | .ringInterrupt vf ring => Sys2Proof.Machine.execRingInterrupt vf ring s
  | .contextSwitch core => Sys2Proof.Machine.execContextSwitch core s
  | .contextRestore core => Sys2Proof.Machine.execContextRestore core s
  | .quantumExpiry core => Sys2Proof.Machine.execQuantumExpiry core s
  | .patrolScrub die chan => Sys2Proof.Machine.execPatrolScrub die chan s
  | .assayRunComplete team => Sys2Proof.Machine.execAssayRunComplete team s
  | .assaycfgWrite part val => Sys2Proof.Machine.execAssaycfgWrite part val s
  | .healthClear val => Sys2Proof.Machine.execHealthClear val s
  | .partitionCreate first logn => Sys2Proof.Machine.execPartitionCreate first logn s
  | .partitionTeardown part => Sys2Proof.Machine.execPartitionTeardown part s
  | .registerWrite part reg val => Sys2Proof.Machine.execRegisterWrite part reg val s
  | .deviceReset => Sys2Proof.Machine.execDeviceReset s
  | .slicePowerGate slice => Sys2Proof.Machine.execSlicePowerGate slice s
  | .coldStart ok modules => Sys2Proof.Machine.execColdStart ok modules s
  | .warmStart ok modules => Sys2Proof.Machine.execWarmStart ok modules s
  | .startTimeout => Sys2Proof.Machine.execStartTimeout s
  | .recoveryMode => Sys2Proof.Machine.execRecoveryMode s
  | .recoveryImageLoad image => Sys2Proof.Machine.execRecoveryImageLoad image s
  | .powerThrottle core q cycles => Sys2Proof.Machine.execPowerThrottle core q cycles s
  | .nonce => Sys2Proof.Machine.execNonce s
  | .report => Sys2Proof.Machine.execReport s
  | .seal => Sys2Proof.Machine.execSeal s
  | .sealfin => Sys2Proof.Machine.execSealfin s
  | .wrap => Sys2Proof.Machine.execWrap s
  | .restore => Sys2Proof.Machine.execRestore s
  | .restorefin => Sys2Proof.Machine.execRestorefin s
  | .witnessSeal => Sys2Proof.Machine.execWitnessSeal s
  | .witnessClaim => Sys2Proof.Machine.execWitnessClaim s
  | .witnessRelease => Sys2Proof.Machine.execWitnessRelease s
  | .witnessQuery => Sys2Proof.Machine.execWitnessQuery s
  | .imextWrite off bytes => Sys2Proof.Machine.execImextWrite off bytes s
  | .lineageErase => Sys2Proof.Machine.execLineageErase s
  | .runnerRemoteContribution lid obj val st count round => Sys2Proof.Machine.execRunnerRemoteContribution lid obj val st count round s
  | .remoteMemoryMove part pa bytes => Sys2Proof.Machine.execRemoteMemoryMove part pa bytes s
  | .slicePowerRestore slice => Sys2Proof.Machine.execSlicePowerRestore slice s

end Sys2Proof.Machine
end

