-- ==== Sys2Proof/Machine/Sched.lean ====
section
/-! DEFINITION. Sched.lean: the issue stage of a quarter: candidates, the order of groups and of program
counters, and the two items that may issue together (R351 to R354, R367). -/

namespace Sys2Proof.Machine

/-! ## The item at an address -/

/-- The lane that the cause of a fetch reports: the lowest, for the causes that R366 gives a lane. -/
def fetchLane (c : Cause) (ls : List Nat) : Cause :=
  match c.code with
  | .fetch | .notHeader | .illegalOpc => c
  | _ => { c with lane := ls.headD 0 }

/-- Whether lanes stand before a header that passes, which they enter before an item issues (R34 rule 1). -/
def entersBlock (s : State) (gid : Nat) (pc : Word) (ls : List Nat) : Bool :=
  let g := grpAt s gid
  if ls.any fun l => (g.thread l).block.isNone then (headerAt s gid pc.toNat).toBool
  else isHeader s gid pc.toNat && ls.all fun l => (g.thread l).block.any Block.isOpen

/-- What a population finds at its address: an item with its length in bytes, or a cause (R14, R34, R41
items 1 to 3). An item that does not decode is the table's unassigned encoding. -/
def itemAt (s : State) (gid : Nat) (pc : Word) (act : Mask) : Except Cause (Instr × Nat) :=
  let g := grpAt s gid
  let ls := lanesOf g.width act
  if ls.any fun l => (g.thread l).block.isNone then
    match headerAt s gid pc.toNat with
    | .error c => .error (fetchLane c ls)
    | .ok _ => .error { code := .notHeader, addr := pc }
  else
    match fetchItem s gid pc.toNat with
    | .error c => .error (fetchLane c ls)
    | .ok (v, n) =>
      let past := ls.any fun l =>
        match (g.thread l).block with
        | some b => !b.isOpen && b.stop.toNat < pc.toNat + 4 * n
        | none => false
      if past || v % 4 = 3 then .error { code := .notHeader, addr := pc }
      else
        match decode (Raw.ofBits (BitVec.ofNat 128 v)) with
        | .ok i => .ok (i, 4 * n)
        | .error why => .ok (.unassignedEncoding why, 4 * n)

/-- Issues the item at an address for the lanes of a mask, if it may issue now: the state after it, with
`issuing` naming it. A lease break that its fetch meets is escalated for the group (R458). -/
def issueAt (s : State) (gid : Nat) (pc : Word) (act : Mask) : Option Out :=
  if act = 0 || !groupFree s (grpAt s gid) then none
  else
    let s := fetchLines s gid pc.toNat
    if entersBlock s gid pc (lanesOf (grpAt s gid).width act) then none
    else
    match itemAt s gid pc act with
    | .error c =>
      let i : Issue := ⟨gid, pc, 0, act⟩
      some (.next (if c.code = .lease then deliver s i pc c else raiseFault s i c))
    | .ok (i, len) =>
      match exec i { s with issuing := some ⟨gid, pc, len, act⟩ } with
      | .next t => if t.issuing.isNone then none else some (.next t)
      | o => some o

/-! ## Program counters (R353) -/

/-- The PCs of a group that hold a population. -/
def pcsOf (g : Group) : List Word :=
  dedup ((lanesOf g.width g.live).filterMap fun l =>
    let pc := (g.thread l).pc
    if hasBit (g.activeAt pc) l then some pc else none)

/-- Inserts an element in a list ordered by a strict order. -/
def insertBy {α : Type} (lt : α → α → Bool) (x : α) : List α → List α
  | [] => [x]
  | y :: ys => if lt y x then y :: insertBy lt x ys else x :: y :: ys

def sortBy {α : Type} (lt : α → α → Bool) : List α → List α
  | [] => []
  | x :: xs => insertBy lt x (sortBy lt xs)

/-- Whether a PC is demoted by YIELD, as that of threads that executed it, wherever they have moved since; a promotion overrides it (R361). -/
def lowPc (g : Group) (pc : Word) : Bool :=
  (g.lowPcs.any fun e => e.1 &&& g.activeAt pc ≠ 0) && !g.promoted.contains pc

/-- Whether PC `p` ranks before `q` among those that are not promoted: a demoted PC last, the larger
population first, then the lower address. -/
def pcBefore (g : Group) (p q : Word) : Bool :=
  if lowPc g p ≠ lowPc g q then lowPc g q
  else
    let a := popMask (g.activeAt p)
    let b := popMask (g.activeAt q)
    if a ≠ b then b < a else p.toNat < q.toNat

/-- The PCs of a group in rank order: the promoted ones in the order of their promotion, then the rest. -/
def rankedPcs (g : Group) : List Word :=
  let ps := pcsOf g
  g.promoted.filter (ps.contains ·) ++
    sortBy (pcBefore g) (ps.filter fun p => !g.promoted.contains p)

/-! ## One group -/

/-- Whether a group's last issue was in the present cycle. -/
def issuedNow (s : State) (gid : Nat) : Bool := (grpAt s gid).lastIssue = some s.cycle

/-- The class of the item that a group issued last in this cycle, if it is known. -/
def classNow (s : State) (gid : Nat) : Option Nat :=
  ((pickedNow s (quartAt s (grpAt s gid).quart)).reverse.find? fun e => e.1 = gid).map fun e => e.2.2.1

/-- The candidates of a group in rank order, each with its lanes and what its issue gives. -/
def candidates (s : State) (gid : Nat) : List (Word × Mask × Out) :=
  let g := grpAt s gid
  (rankedPcs g).filterMap fun pc =>
    let act := g.activeAt pc
    (issueAt s gid pc act).map fun o => (pc, act, o)

/-- Continues an outcome. -/
def andThen (o : Out) (f : State → Option Out) : Out :=
  match o with
  | .next t => (f t).getD o
  | _ => o

/-- Issues a group's highest-ranked candidate, and with it the second when both items are of one class
marked for dual issue (R353). Of the two, the item of the more populous PC counts as earlier, or with
equal populations the one at the lower address (R97, R237). When only one raises a cause, the other
executes normally before the cause is delivered; when both do, the lower-ranked has no effect (R367). -/
def issueGroup (s : State) (gid : Nat) : Option Out :=
  match candidates s gid with
  | [] => none
  | [(_, _, o)] => some o
  | (pc1, act1, o1) :: (pc2, act2, o2) :: _ =>
    match o1, o2 with
    | .next t1, .next t2 =>
      let same := match classNow t1 gid, classNow t2 gid with
        | some a, some b => a = b && a ≤ 2
        | _, _ => false
      if !same then some o1
      else
        match issuedNow t1 gid, issuedNow t2 gid with
        | true, true =>
          let swapped := if popMask act1 = popMask act2 then pc2.toNat < pc1.toNat
            else popMask act1 < popMask act2
          match (if swapped then issueAt t2 gid pc1 act1 else none) with
          | some o => some o
          | none => some (andThen o1 fun t => issueAt t gid pc2 act2)
        | true, false => some (andThen o1 fun t => issueAt t gid pc2 act2)
        | false, true => some (andThen o2 fun t => issueAt t gid pc1 act1)
        | false, false => some o1
    | _, _ => some o1

/-! ## One quarter (R352) -/

/-- Whether group `a` is picked before group `b`: an aged one first, then by age. -/
def olderGroup (s : State) (a b : Nat) : Bool :=
  let x := grpAt s a
  let y := grpAt s b
  if decide (32 < x.waiting) ≠ decide (32 < y.waiting) then decide (32 < x.waiting)
  else if x.placed ≠ y.placed then x.placed < y.placed
  else if x.demoted ≠ y.demoted then x.demoted < y.demoted
  else if x.gidx ≠ y.gidx then x.gidx < y.gidx
  else a < b

/-- The resident groups of a quarter, in the order of picking. -/
def quarterGroups (s : State) (n : Nat) : List Nat :=
  sortBy (olderGroup s) ((s.groups.filter fun e => e.2.resident && e.2.quart = n).map (·.1))

/-- The ready groups of a quarter in the order of picking, each with what its issue gives. -/
def readyGroups (s : State) (n : Nat) : List (Nat × Out) :=
  (quarterGroups s n).filterMap fun gid => (issueGroup s gid).map fun o => (gid, o)

/-- The ready group that is picked: the first, but one whose last item had YLD is passed over when
another is ready (R352). -/
def chosen (s : State) (rs : List (Nat × Out)) : Option (Nat × Out) :=
  match rs.find? fun e => !(grpAt s e.1).yld with
  | some e => some e
  | none => rs.head?

/-- Counts the pick against the quarter's other groups: a ready one has waited a cycle more, up to 32,
at which it is due to be promoted; one that is not ready has not; and YLD has been applied (R352). -/
def noteWaiting (n gid : Nat) (ready : List Nat) (s : State) : State :=
  { s with groups := s.groups.map fun e =>
      if e.1 = gid || e.2.quart ≠ n || !e.2.resident then e
      else if ready.contains e.1 then
        (e.1, { e.2 with waiting := if e.2.waiting < 32 then e.2.waiting + 1 else e.2.waiting
                         yld := false })
      else (e.1, { e.2 with waiting := 0 }) }

/-- What enters blocks before a quarter picks. -/
def beforePick (s : State) (n : Nat) : State :=
  (quarterGroups s n).foldl (fun s gid => if groupFree s (grpAt s gid) then enterBlocks s gid else s) s

/-- The groups of a quarter that would be ready if its issue stage were free. -/
def wouldIssue (s : State) (n : Nat) : List Nat :=
  (readyGroups (modQuart (beforePick s n) n fun q => { q with issueFree := 0 }) n).map (·.1)

/-- Counts a core cycle in which a quarter has picked nothing: its issue stage may be held, and the groups that are ready
have waited a cycle more (R352). -/
def noteIdle (s : State) (n : Nat) : State :=
  if (quartAt s n).pickCycle = some s.cycle || (coreAt s (n / 4)).switching ≠ 0 then s
  else
    let ready := wouldIssue s n
    { s with groups := s.groups.map fun e =>
      if e.2.quart ≠ n || !e.2.resident then e
      else if ready.contains e.1 then (e.1, { e.2 with waiting := if e.2.waiting < 32 then e.2.waiting + 1 else e.2.waiting })
      else (e.1, { e.2 with waiting := 0 }) }

/-- The quarters that hold resident groups. -/
def busyQuarters (s : State) : List Nat := dedup ((s.groups.filter fun e => e.2.resident).map fun e => e.2.quart)

/-- A core cycle passes; accesses of agents other than cores whose waits are over are made (R78). -/
def passCycle (s : State) : State :=
  let s := tickCycle ((busyQuarters s).foldl noteIdle s)
  sysRun s.sysOps.length s

/-- The pick of a quarter in a core cycle: one group, and a second of width 16 in the other half-quarter
when the first is of width 16. `none` when nothing issues. -/
def pickQuarter (s : State) (n : Nat) : Option Out :=
  if (quartAt s n).pickCycle = some s.cycle || (coreAt s (n / 4)).switching ≠ 0 then none
  else
    let s := beforePick s n
    let rs := readyGroups s n
    (chosen s rs).map fun e =>
      let g := grpAt s e.1
      let o := match e.2 with
        | .next t => .next (noteWaiting n e.1 (rs.map (·.1)) t)
        | o => o
      let other := (rs.map (·.1)).find? fun x =>
        let y := grpAt s x
        x ≠ e.1 && y.width = 16 && g.width = 16 && y.half ≠ g.half
      match other with
      | none => o
      | some x => andThen o fun t => (issueGroup t x)

end Sys2Proof.Machine
end

