-- ==== Sys2Proof/Machine/Agenda.lean ====
section
/-! DEFINITION. Agenda.lean: which event is due in a state whose agenda names none, and the step that
follows (DESIGN CHOICE: the specification fixes no order among events of different agents). -/

namespace Sys2Proof.Machine

/-! ## What is due -/

/-- The first that is due of some sources. -/
def firstDue {α : Type} (xs : List α) (f : α → Option State) : Option State := xs.findSome? f

/-- What is due of a lane. -/
def dueLane (s : State) (gid l : Nat) : Option State :=
  wakeThread s gid l <|> unparkThread s gid l <|> txAbort s gid l <|> txLimit s gid l <|> grantToken s gid l

/-- What is due of an instruction in flight. -/
def dueOp (s : State) (gid op : Nat) : Option State :=
  gredLate s gid op <|> gresTake s gid op <|> completeNow s gid op (BitVec.allOnes 64)

/-- What is due of a queue of a group. -/
def dueQueue (s : State) (gid qn : Nat) : Option State := writtenHead s gid qn <|> stopStream s gid qn

/-- What is due of a group. -/
def dueGroup (s : State) (e : Nat × Group) : Option State :=
  let (gid, g) := e
  rollbackSpec s gid <|> lockNext s gid <|> commitApply s gid <|> commitUnlock s gid <|>
  firstDue g.ops (fun o => dueOp s gid o.id) <|>
  firstDue (List.range g.width) (dueLane s gid) <|>
  (if g.resident then firstDue g.queues (fun q => dueQueue s gid q.1) else none) <|>
  firstDue g.drains (fun d => drainMove s gid d.1) <|>
  formRound s gid <|>
  firstDue g.counts (fun c => promotePc s gid (BitVec.ofNat 64 c.1)) <|>
  firstDue g.lowPcs (fun p => endDemotion s gid (g.thread ((lanesOf 64 p.1).headD 0)).pc) <|>
  ageGroup s gid

/-- What is due of a slice. -/
def dueSlice (s : State) (e : Nat × Slice) : Option State :=
  let (k, sl) := e
  firstDue sl.misses (fun m =>
    tlbWalk s k m.asid m.line <|> adSwap s k m.asid m.line <|> memoryFill s k m.asid m.line) <|>
  firstDue sl.waiting (applyPub s k) <|>
  firstDue sl.leases fun l => discardLease s k l.1 l.2.1

/-- The host answers the first question of a slice from its memory (DESIGN CHOICE). -/
def dueAnswer (s : State) (e : Nat × Slice) : Option State :=
  firstDue e.2.lines fun x => firstDue (List.range 2) fun i =>
    (x.ask i).bind fun own =>
      let hpa := 64 * (hostHalf x.pa + i)
      cxlAnswer s e.1 hpa (BitVec.ofNat 512 (memReadLE s.hostMem hpa 64)) own

/-- The host gives up the first half that it has been asked for (DESIGN CHOICE). -/
def dueRecall (s : State) : Option State :=
  s.biWait.head?.bind fun w =>
    match execBiResponse (64 * w.1) s with
    | .next t => some t
    | _ => none

/-- What is due of the requests, operations, releases and probes in flight. -/
def dueFlight (s : State) : Option State :=
  firstDue s.requests (fun e => portReturn s e.1 <|> fillReturn s e.1 <|> serveRead s e.1) <|>
  firstDue s.pubs (fun e => arrivePub s e.1) <|>
  firstDue s.releases (fun e => advanceRelease s e.1 <|> firstDue e.2.markers (answerMarker s e.1)) <|>
  firstDue s.probes (fun e => answerProbe s e.1)

/-- What is due of the queues and rings of a function. -/
def dueFunc (s : State) (vf : Nat) (f : Func) : Option State :=
  firstDue f.rings (fun r => writeHeld s vf r.1 <|> ringInterrupt s vf r.1) <|>
  firstDue f.queues fun q =>
    nopEntry s vf q.1 <|> launchEntry s vf q.1 <|> endEntry s vf q.1 <|> switchEntry s vf q.1 <|>
    malformedEntry s vf q.1

/-- What is due of a partition. -/
def duePart (s : State) (e : Nat × Partition) : Option State :=
  carveStep s e.1 <|> checkDependences s e.1 <|>
  (if e.2.tearing then tearDown s e.1 else none) <|>
  firstDue e.2.funcs fun f => dueFunc s (3 * e.1 + f.1) f.2

/-- What is due of a launch, and of a team. -/
def dueLaunch (s : State) (e : Nat × Launch) : Option State :=
  passToken s e.1 <|> startLaunch s e.1 <|> dealTeam s e.1
def dueTeam (s : State) (e : Nat × Team) : Option State :=
  endTeam s e.1 <|> assayRun s e.1 <|> firstDue e.2.regroups fun r => regroupDeal s e.1 r.1

/-- What the firmware of a cluster replies to the record in a slot, where the specification fixes it: to an MBOX as R385
gives, of kind 1 once the page is resident; and END to a LEASE or an UNCORR (R375, R392). What it makes of any other
record is its own. -/
def firmwareReply (s : State) (x : Slot) : Option Word :=
  match x.waiter with
  | .mbox gid _ =>
    if x.record.kind = 0 then some 0
    else if x.record.kind ≠ 1 then some (BitVec.allOnes 64)
    else if residency s (lidOf s gid) x.record.asid x.record.w2.toNat = .yes then some 0
    else none
  | .group _ | .request .. =>
    if x.record.cause = CauseCode.lease.num || x.record.cause = CauseCode.uncorr.num then some 1 else none
  | _ => none

/-- What the firmware of a cluster does at a slot: it replies, and once it has it clears FULL and REPLIED (DESIGN CHOICE,
log entry 35). -/
def dueSlot (s : State) (core n : Nat) (x : Slot) : Option State :=
  let out :=
    if !x.full then none
    else if x.replied then some (execMailboxControlClear core n true true s)
    else (firmwareReply s x).map fun v => execMailboxReply core n v s
  out.bind fun
    | .next t => some t
    | _ => none

/-- What is due of a core, and of a quarter. -/
def dueCore (s : State) (e : Nat × Core) : Option State :=
  let c := e.1
  postDeferred s c <|> firstDue e.2.slots (fun x => dueSlot s c x.1 x.2) <|> firstDue e.2.copies (fun x => endCopy s c x.id) <|>
  switchCore s c <|> quantumExpiry s c <|> restoreCore s c <|> portStep s c
def dueQuarter (s : State) (e : Nat × Quarter) : Option State :=
  let n := e.1
  firstDue e.2.cvs (fun c => cvNote s n c.1) <|>
  mmaStart s n <|>
  firstDue (e.2.ops ++ e.2.loads) (fun o => mmaComplete s n o.id <|> matrixEnd s n o.id) <|>
  releaseTiles s n <|> expireClaim s n

/-- The head team of a core that has none, or its next, is placed; else a core that has none takes another's. -/
def duePlace (s : State) : Option State :=
  let placing := (s.teams.filter fun e => e.2.st = TeamState.placing).map (·.2.core)
  let queued := (s.cores.filter fun e => e.2.queues.any fun q => !q.2.isEmpty).map (·.1)
  firstDue placing (startPlaced s) <|> firstDue queued (placeHead s) <|>
  if queued.isEmpty then none
  else firstDue (s.parts.flatMap fun e => e.2.cores) (stealTeam s)

/-- Whether a busy SEAL waits. -/
def sealWaits (s : State) : Bool :=
  match s.ingot.stage, s.ingot.sealing with
  | 1, some b => s.launches.any fun e => e.2.part = b.part && e.2.st ≠ LaunchState.finished
  | 2, some b =>
    let p := partAt s b.part
    !(flushed s p b.part) && (flushStep s p).isNone
  | _, _ => false

/-- The operation of the ingot engine that has been started goes on. -/
def dueIngot (s : State) : Option Out :=
  if !s.ingot.busy then none
  else
    match s.ingot.runOp with
    | 1 => some (execNonce s)
    | 2 => some (execReport s)
    | 3 => if sealWaits s then none else some (execSeal s)
    | 4 => some (execSealfin s)
    | 5 => some (execWrap s)
    | 6 => some (execRestore s)
    | 7 => some (execRestorefin s)
    | 0x10 => some (witnessOp (fun _ => true) s)
    | _ => none

/-- The event that is due, with what it gives. -/
def dueEvent (s : State) : Option Out :=
  let due : Option State :=
    firstDue s.groups (dueGroup s) <|> dueFlight s <|> firstDue s.slices (dueSlice s) <|>
    firstDue s.quarters (dueQuarter s) <|> firstDue s.cores (dueCore s) <|>
    firstDue s.phasers (fun e => endPhase s e.1) <|> firstDue s.teams (dueTeam s) <|>
    firstDue s.launches (dueLaunch s) <|> duePlace s <|> firstDue s.parts (duePart s) <|>
    hostStep s <|> firstDue s.slices (dueAnswer s) <|> dueRecall s
  match due with
  | some t => some (.next t)
  | none => dueIngot s

/-! ## The step -/

/-- Runs what an agenda entry names. A pick in which nothing issues changes nothing. -/
def runAction (a : Action) (s : State) : Out :=
  match a with
  | .tick => .next (passCycle s)
  | .pick core q => (pickQuarter s (quartNo core q)).getD (.next s)
  | .event i => exec i s
  | .soft e => .next (softError s e)
  | .readReg r => .next (say s (.registerRead (registerValue s r)))
  | .writeReg r val => writeRegister r val s
  | .load cluster pa n => .next (managerAccess s cluster pa n .load)
  | .store cluster pa bytes => .next (managerAccess s cluster pa bytes.length (.bytes bytes false))
  | .own hpa => if (exposed s (64 * (hpa / 64))).isNone then .fault (.unmappedHostAccess hpa) else .next (arriveHost s [.own (64 * (hpa / 64))])
  | .join lid obj => .next (joinObject s lid obj)
  | .evict core asid line => .next (modCore s core (dropCached asid line))
  | .refill core asid line parcels => .next (refillInstr s core asid line parcels)
  | .keep gid line => .next (keepLine s gid line)
  | .forget gid line => .next (modGrpIf s gid fun g => { g with ibuf := g.ibuf.filter fun e => e.1 ≠ line })

/-- The first quarter in which something issues. -/
def firstPick (s : State) : List Nat → Option Out
  | [] => none
  | n :: ns =>
    match pickQuarter s n with
    | some o => some o
    | none => firstPick s ns

/-- The step with an empty agenda: a device that is down makes a cold start, or recovers after three that failed (R418);
a running one has a due event come about, else a quarter picks, else a core cycle passes. -/
def ownStep (s : State) : Out :=
  if s.power = .down && mayStart s then .next (coldStart s true 8)
  else if s.power ≠ .running then execRecoveryMode s
  else
    match dueEvent s with
    | some o => o
    | none =>
      match firstPick s (busyQuarters s) with
      | some o => o
      | none => .next (passCycle s)

/-- The state with an item placed for a group to issue: a running device with one partition, one launch
of one team of one group of 16 lanes on core 0, each thread inside a block at the item, and the item's
bytes in the core's instruction line. -/
def placeItem (s : State) (nbits w : Nat) : State :=
  let x := w % 2 ^ nbits
  let n := parcelsOf (BitVec.ofNat 32 x)
  let pc : Word := 0x10008
  let block : Block := ⟨0x10000, 0x10FA0, none⟩
  let thread : Thread := { (default : Thread) with status := .running, pc := pc, block := some block }
  let group : Group :=
    { (default : Group) with width := 16, resident := true, threads := List.replicate 16 thread }
  let range : Range := ⟨0x10000, 1, true, false, true, false, false, false, false⟩
  let desc : BitVec 2048 := BitVec.ofNat 2048 (0x10000 + (768 <<< (8 * 152)) + (1 <<< (8 * 144))
    + (1 <<< (8 * 144 + 16)) + (1 <<< (8 * 144 + 32)) + (1 <<< (8 * 144 + 48)))
  let launch : Launch := { (default : Launch) with desc := desc, st := .running, ranges := [range] }
  let team : Team := { (default : Team) with st := .running, groups := [0] }
  let line : Line := BitVec.ofNat 1024 (x <<< 64)
  { s with
    power := .running, agenda := [.pick 0 0], issuing := some ⟨0, pc, 4 * n, 0xFFFF⟩
    parts := [(0, default)], launches := [(0, launch)], teams := [(0, team)], groups := [(0, group)]
    cores := [(0, { (default : Core) with icache := [(0, 0x10000 / 128, line, 0)] })]
    quarters := [], slices := [], requests := [], pubs := [], releases := [], probes := []
    phasers := [], objects := [] }

end Sys2Proof.Machine
end

