-- ==== Sys2Proof/Machine/Step.lean ====
section
/-! DEFINITION. Step.lean: one step of the machine. -/

namespace Sys2Proof.Machine

/-- One step: the first entry of the agenda, or with an empty agenda what comes about next. -/
def step (s : State) : Host.Outcome State Fault Refusal :=
  match s.agenda with
  | a :: rest => runAction a { s with agenda := rest }
  | [] => ownStep s

/-- `s` with the instruction whose bits are `w` placed where the next step fetches. -/
def State.withFetchWord (s : State) (nbits w : Nat) : State := placeItem s nbits w

end Sys2Proof.Machine
end

