-- ==== Sys2Proof/Safety.lean ====
section
/-! DEFINITION. Safety.lean: well-formed states, and the terms in which statements speak of an item that
issues, of what it gives its lanes, and of what it leaves alone. -/

namespace Sys2Proof

open Machine

/-! ## Well-formed states -/

/-- Every byte memory of the device is in canonical form: HBM, the host's memory, each partition's
carved storage and each team's scratchpad. -/
def MemoriesWf (s : State) : Prop :=
  Memory.wf s.hbm = true ∧ Memory.wf s.hostMem = true ∧
  (∀ e ∈ s.parts, Memory.wf e.2.carved = true) ∧ (∀ e ∈ s.teams, Memory.wf e.2.scratch = true)

/-- A step neither faults nor is refused. -/
def Runs (s : State) : Prop := ∃ t, step s = .next t

/-! ## An item that issues (R351) -/

/-- The item that is issuing meets no scheduler condition, and no fault kept for it. -/
def MayIssue (it : Item) (s : State) (i : Issue) : Prop :=
  s.issuing = some i ∧
  groupFree s (grpAt s i.gid) = true ∧
  descrElsewhere (grpAt s i.gid) i.pc = false ∧
  distOk s (grpAt s i.gid) it.hdr.ctl = true ∧
  deferredFor (grpAt s i.gid) it = none ∧
  it.hold = false ∧
  heldAcc (grpAt s i.gid) it = false ∧
  waitOk (grpAt s i.gid) it.hdr.ctl = true ∧
  setfOk (grpAt s i.gid) it.hdr.ctl = true ∧
  unitOk s i.gid it = true

/-- The item raises no cause at decode (R41). -/
def Decodes (it : Item) (s : State) (i : Issue) : Prop :=
  decodeCause s i.gid it (pairBanksBad (grpAt s i.gid) i.act it) = none

/-- The item issues and executes in the lanes `ex`, at least one: it is ready, it decodes, its stream
operands are ready and not locked, no source is poisoned, no earlier acquire holds it, and its group does not
speculate. While an item that a transaction does not allow or has to undo issues, no thread of its group is in one. -/
def Issues (it : Item) (s : State) (i : Issue) (ex : Mask) : Prop :=
  MayIssue it s i ∧ Decodes it s i ∧
  ex = execLanes (grpAt s i.gid) i.act it.hdr ∧ ex ≠ 0 ∧
  (it.txBad = true ∨ namesStream it = true ∨ it.guardExit = true ∨ vDests it ≠ [] →
    ∀ l, ((grpAt s i.gid).thread l).tx.active = false) ∧
  (grpAt s i.gid).spec.st ≠ .speculating ∧
  heldAccess (grpAt s i.gid) it ex = false ∧
  (∀ u ∈ usesOf (grpAt s i.gid) it, u = .ready) ∧
  streamBlocked s i.gid it ex = false ∧
  poisonRead s i.gid it ex = none

/-- Whenever it issues, and `ok` holds of its operands, an instruction takes the effect `e` with the group's
and the machine's objects as `post` gives them; `finishIssue` then records the issue. -/
def Takes (ins : Instr) (it : Item) (ok : Issue → Mask → State → Prop) (e : Issue → Mask → State → Effect)
    (post : Issue → Mask → State → State) : Prop :=
  ∀ s i ex, Issues it s i ex → ok i ex s →
    exec ins s = .next (finishIssue (post i ex s) i it ((e i ex s).ran.getD ex) (e i ex s))

/-- No condition on the operands. -/
def always (_ : Issue) (_ : Mask) (_ : State) : Prop := True
/-- Nothing but the issue itself changes. -/
def unchanged (_ : Issue) (_ : Mask) (s : State) : State := s

/-! ## Results by lane -/

/-- The executing lanes, ascending. -/
def lanes (i : Issue) (ex : Mask) (s : State) : List Nat := lanesOf (grpAt s i.gid).width ex

/-- The value that each executing lane computes from the values of the item's sources. -/
def laneValues (it : Item) (f : Group → Nat → List Word → Word) (i : Issue) (ex : Mask) (s : State) :
    List (Nat × Word) :=
  (lanes i ex s).map fun l => (l, f (grpAt s i.gid) l (lanSrcs s i.gid l it.srcs))

/-- The flags that the executing lanes raise together. -/
def laneFlags (it : Item) (f : Group → Nat → List Word → FF) (i : Issue) (ex : Mask) (s : State) : FF :=
  ffAll ((lanes i ex s).map fun l => f (grpAt s i.gid) l (lanSrcs s i.gid l it.srcs))

/-- Each executing lane computes one result for D and raises flags: stream sources are consumed, a stream
destination is pushed, a register is written when the item's latency has passed. -/
def Computes (ins : Instr) (it : Item) (kind : OpKind) (d : Opnd) (k : Nat)
    (f : Group → Nat → List Word → Word) (ff : Group → Nat → List Word → FF) : Prop :=
  Takes ins it always
    (fun i ex s =>
      { writes := destWrites d (laneValues it f i ex s), fflags := laneFlags it ff i ex s
        elements := k * (lanes i ex s).length, kind := kind })
    (fun i ex s => pushDest (consumeAll s i.gid it) i.gid ex d (laneValues it f i ex s))

/-- Each executing lane computes one result and raises no flag. -/
def ComputesPure (ins : Instr) (it : Item) (d : Opnd) (f : List Word → Word) : Prop :=
  Computes ins it .ready d 1 (fun _ _ xs => f xs) fun _ _ _ => 0

/-- Each executing lane applies an operation on encodings to the elements of its sources, in the mode that
RND gives. -/
def ComputesFloat (ins : Instr) (it : Item) (kind : OpKind) (ty : Ty) (rnd : Rnd) (d : Opnd) (fn : ElemFn) : Prop :=
  Computes ins it kind d ty.k (fun g _ xs => (floatElems ty (modeOf g rnd) fn xs).1)
    fun g _ xs => (floatElems ty (modeOf g rnd) fn xs).2

/-- Each executing lane computes a predicate and raises flags. -/
def ComputesPred (ins : Instr) (it : Item) (pd : Fin 8) (f : Group → Nat → List Word → Bool)
    (ff : Group → Nat → List Word → FF) : Prop :=
  Takes ins it always
    (fun i ex s =>
      { writes := (lanes i ex s).map fun l =>
          ⟨l, .p l pd.val, if f (grpAt s i.gid) l (lanSrcs s i.gid l it.srcs) then 1 else 0⟩
        fflags := laneFlags it ff i ex s })
    (fun i _ s => consumeAll s i.gid it)

/-- The executing lanes' results of an item that reads its sources across lanes. -/
def Crosses (ins : Instr) (it : Item) (d : Opnd)
    (f : Group → Mask → (Nat → Word) → (Nat → Word) → Nat → Word) : Prop :=
  Takes ins it always
    (fun i ex s =>
      { writes := destWrites d ((lanes i ex s).map fun l =>
          (l, f (grpAt s i.gid) ex (fun j => readOpnd s i.gid j (it.srcs.getD 0 .zero))
            (fun j => readOpnd s i.gid j (it.srcs.getD 1 .zero)) l)) })
    (fun i _ s => consumeAll s i.gid it)

/-- A transfer of control: every executing lane's target is a multiple of 4 and holds a block header that can
be fetched. Each lane then goes to its target, and the link register takes the address of the item that follows. -/
def Transfers (ins : Instr) (it : Item) (link : Option Opnd) (target : Issue → Nat → State → Word) : Prop :=
  Takes ins it
    (fun i ex s => ∀ l ∈ lanes i ex s, (target i l s).toNat % 4 = 0 ∧
      ∃ v n, fetchItem (fetchFor s i.gid i.pc l (target i l s).toNat) i.gid (target i l s).toNat = .ok (v, n) ∧ v % 4 = 3)
    (fun i ex s => { jumps := some ((lanes i ex s).map fun l => (l, target i l s)), ran := some ex })
    (fun i ex s =>
      let next := i.pc + BitVec.ofNat 64 i.len
      let linked := match link with
        | some d => modGrp s i.gid fun g => applyWrites g (destWrites d ((lanes i ex s).map fun l => (l, next)))
        | none => s
      ((lanes i ex s).map fun l => (l, target i l s)).foldl (fun s t => fetchFor s i.gid i.pc t.1 t.2.toNat) linked)

/-- An item that issues raises a trap: it completes, and the cause is delivered with XPC at the next item
(R365). -/
def Traps (ins : Instr) (it : Item) (ok : Issue → Mask → State → Prop) (c : Issue → State → Cause) : Prop :=
  ∀ s i ex, Issues it s i ex → ok i ex s → exec ins s = .next (raiseTrap (notePick s i it) i ex (c i s))

/-- An item that issues raises a fault: it has no effect, and the cause is delivered with XPC at the item
(R365). -/
def Faults (ins : Instr) (it : Item) (ok : Issue → Mask → State → Prop) (c : Issue → Mask → State → Cause) : Prop :=
  ∀ s i ex, Issues it s i ex → ok i ex s → exec ins s = .next (raiseExec s i it ex (c i ex s))

/-! ## Accesses to memory -/

/-- The executing lanes with their addresses. -/
def laneAddrs (addr : State → Nat → Nat → Word) (i : Issue) (ex : Mask) (s : State) : List (Nat × Word) :=
  (lanes i ex s).map fun l => (l, addr s i.gid l)
def laneNats (addr : State → Nat → Nat → Word) (i : Issue) (ex : Mask) (s : State) : List (Nat × Nat) :=
  (laneAddrs addr i ex s).map fun e => (e.1, e.2.toNat)

/-- Every residency probe that the lanes' pages need has answered that the page is resident (R68). -/
def probesAnswered (i : Issue) (s : State) (pages : List (Nat × Word × Nat)) : Prop :=
  ∀ e ∈ pages, ∃ p, probeOf s i.gid i.pc e.2.2 = some p ∧ p.answered = some .yes

/-! ## What stays -/

/-- Every byte of every memory reads as before: HBM, the host's memory, carved storage, scratchpads. -/
def SameMemory (s t : State) : Prop :=
  s.hbm = t.hbm ∧ s.hostMem = t.hostMem ∧ s.parts = t.parts ∧
  ∀ k, (teamAt s k).scratch = (teamAt t k).scratch

/-- Every register of every group and lane reads as before: vN, sN and pN. -/
def SameRegisters (s t : State) : Prop :=
  ∀ g, (grpAt s g).s = (grpAt t g).s ∧
    ∀ l, ((grpAt s g).thread l).v = ((grpAt t g).thread l).v ∧ ((grpAt s g).thread l).p = ((grpAt t g).thread l).p

/-- The status registers of every group read as before: FFLAGS, FTRAPEN, RMODE, XVEC, XSCRATCH, TXCFG, and
every exact accumulator. -/
def SameStatus (s t : State) : Prop :=
  ∀ g, (grpAt s g).fflags = (grpAt t g).fflags ∧ (grpAt s g).ftrapen = (grpAt t g).ftrapen ∧
    (grpAt s g).rmode = (grpAt t g).rmode ∧ (grpAt s g).xvec = (grpAt t g).xvec ∧
    (grpAt s g).xscratch = (grpAt t g).xscratch ∧ (grpAt s g).txcfg = (grpAt t g).txcfg ∧
    (grpAt s g).xa = (grpAt t g).xa

/-- The registers that a trap banks read as before: XPC, XFIRST, XADDR, XCAUSE, XSTAT, PROGIDX and the mode. -/
def SameTrap (s t : State) : Prop :=
  ∀ g, (grpAt s g).xpc = (grpAt t g).xpc ∧ (grpAt s g).xfirst = (grpAt t g).xfirst ∧
    (grpAt s g).xaddr = (grpAt t g).xaddr ∧ (grpAt s g).xcause = (grpAt t g).xcause ∧
    (grpAt s g).xstat = (grpAt t g).xstat ∧ (grpAt s g).progidx = (grpAt t g).progidx ∧
    (grpAt s g).priv = (grpAt t g).priv

end Sys2Proof
end

