-- ==== Sys2Proof/Certificates/Slice0/Obligations.lean ====
section
/-! DEFINITION. Obligations.lean: the statements about this model that are to be proved. -/

open Sys2Proof Sys2Proof.Machine

/-! ## What the instructions of code compute -/

/-- IADD, ISUB, IMUL and IMAD compute the exact integer result and wrap or saturate it (R208), and IMULH gives the
high half of the exact product (R209). IDIV and IREM: the quotient rounded towards zero and the remainder with the
sign of the dividend; by 0 every bit set and the dividend, with IDZ (R210). The D unit completes them (R205). Values
are read as the type says, and results wrap or are clamped to it and are extended as it is (R161). -/
def Obligations.IntegerArithmeticCompletes : Prop :=
  (∀ h ty sat d a b, ComputesPure (.iaddS h ty sat d a b) (aItem h [a, b] d) d fun xs =>
    intResult ty sat (readInt ty (src xs 0) + readInt ty (src xs 1))) ∧
  (∀ h ty sat d a imm, ComputesPure (.iaddL h ty sat d a imm) (aItem h [a] d) d fun xs =>
    intResult ty sat (readInt ty (src xs 0) + readInt ty imm)) ∧
  (∀ h ty sat d a b, ComputesPure (.isubS h ty sat d a b) (aItem h [a, b] d) d fun xs =>
    intResult ty sat (readInt ty (src xs 0) - readInt ty (src xs 1))) ∧
  (∀ h ty sat d a imm, ComputesPure (.isubL h ty sat d a imm) (aItem h [a] d) d fun xs =>
    intResult ty sat (readInt ty (src xs 0) - readInt ty imm)) ∧
  (∀ h ty sat d a b, ComputesPure (.imulS h ty sat d a b) (laneItem h (mUnit ty) (some 4) [a, b] d) d
    fun xs => intResult ty sat (readInt ty (src xs 0) * readInt ty (src xs 1))) ∧
  (∀ h ty sat d a imm, ComputesPure (.imulL h ty sat d a imm) (laneItem h (mUnit ty) (some 4) [a] d) d
    fun xs => intResult ty sat (readInt ty (src xs 0) * readInt ty imm)) ∧
  (∀ h ty d a b, ComputesPure (.imulh h ty d a b) (laneItem h (mUnit ty) (some 4) [a, b] d) d fun xs =>
    intResult ty false (readInt ty (src xs 0) * readInt ty (src xs 1) / (2 ^ ty.w : Nat))) ∧
  (∀ h ty d a b c, ComputesPure (.imad h ty d a b c) (laneItem h (mUnit ty) (some 4) [a, b, c] d) d fun xs =>
    intResult ty false (readInt ty (src xs 0) * readInt ty (src xs 1) + readInt ty (src xs 2))) ∧
  (∀ h ty d a b, Computes (.idiv h ty d a b) (divisionItem h ty a b d) .div d 1
    (fun _ _ xs => if readInt ty (src xs 1) = 0 then intResult ty false (-1)
      else intResult ty false ((readInt ty (src xs 0)).tdiv (readInt ty (src xs 1))))
    (fun _ _ xs => if readInt ty (src xs 1) = 0 then ffIDZ else 0)) ∧
  (∀ h ty d a b, Computes (.irem h ty d a b) (divisionItem h ty a b d) .div d 1
    (fun _ _ xs => if readInt ty (src xs 1) = 0 then intResult ty false (readInt ty (src xs 0))
      else intResult ty false ((readInt ty (src xs 0)).tmod (readInt ty (src xs 1))))
    (fun _ _ xs => if readInt ty (src xs 1) = 0 then ffIDZ else 0)) ∧
  (∀ x : Word, readInt .i64 x = x.toInt ∧ readInt .n64 x = x.toNat ∧ readInt .i32 x = (x.setWidth 32).toInt ∧
    readInt .n32 x = (x.setWidth 32).toNat) ∧
  (∀ t : Int, intResult .i64 false t = BitVec.ofInt 64 t ∧ intResult .n64 false t = BitVec.ofInt 64 t ∧
    intResult .i32 false t = (BitVec.ofInt 32 t).signExtend 64 ∧
    intResult .n32 false t = (BitVec.ofInt 32 t).setWidth 64) ∧
  (∀ t : Int, intResult .i64 true t = BitVec.ofInt 64 (min (max t (-2 ^ 63)) (2 ^ 63 - 1)) ∧
    intResult .n64 true t = BitVec.ofInt 64 (min (max t 0) (2 ^ 64 - 1)) ∧
    intResult .i32 true t = BitVec.ofInt 64 (min (max t (-2 ^ 31)) (2 ^ 31 - 1)) ∧
    intResult .n32 true t = BitVec.ofInt 64 (min (max t 0) (2 ^ 32 - 1)))

/-- IMIN, IMAX, IABS and INEG (R211), ICMP with its six conditions (R212), and LEA (R213). -/
def Obligations.IntegerComparisonCompletes : Prop :=
  (∀ h ty d a b, ComputesPure (.iminS h ty d a b) (aItem h [a, b] d) d fun xs =>
    intResult ty false (min (readInt ty (src xs 0)) (readInt ty (src xs 1)))) ∧
  (∀ h ty d a imm, ComputesPure (.iminL h ty d a imm) (aItem h [a] d) d fun xs =>
    intResult ty false (min (readInt ty (src xs 0)) (readInt ty imm))) ∧
  (∀ h ty d a b, ComputesPure (.imaxS h ty d a b) (aItem h [a, b] d) d fun xs =>
    intResult ty false (max (readInt ty (src xs 0)) (readInt ty (src xs 1)))) ∧
  (∀ h ty d a imm, ComputesPure (.imaxL h ty d a imm) (aItem h [a] d) d fun xs =>
    intResult ty false (max (readInt ty (src xs 0)) (readInt ty imm))) ∧
  (∀ h ty sat d a, ComputesPure (.iabs h ty sat d a) (aItem h [a] d) d fun xs =>
    intResult ty sat ((readInt ty (src xs 0)).natAbs : Int)) ∧
  (∀ h ty sat d a, ComputesPure (.ineg h ty sat d a) (aItem h [a] d) d fun xs =>
    intResult ty sat (-(readInt ty (src xs 0)))) ∧
  (∀ h ty pd a b,
    ComputesPred (.icmpS h ty .eq pd a b) (predItem h .a [a, b]) pd
      (fun _ _ xs => readInt ty (src xs 0) = readInt ty (src xs 1)) (fun _ _ _ => 0) ∧
    ComputesPred (.icmpS h ty .ne pd a b) (predItem h .a [a, b]) pd
      (fun _ _ xs => readInt ty (src xs 0) ≠ readInt ty (src xs 1)) (fun _ _ _ => 0) ∧
    ComputesPred (.icmpS h ty .lt pd a b) (predItem h .a [a, b]) pd
      (fun _ _ xs => readInt ty (src xs 0) < readInt ty (src xs 1)) (fun _ _ _ => 0) ∧
    ComputesPred (.icmpS h ty .le pd a b) (predItem h .a [a, b]) pd
      (fun _ _ xs => readInt ty (src xs 0) ≤ readInt ty (src xs 1)) (fun _ _ _ => 0) ∧
    ComputesPred (.icmpS h ty .gt pd a b) (predItem h .a [a, b]) pd
      (fun _ _ xs => readInt ty (src xs 0) > readInt ty (src xs 1)) (fun _ _ _ => 0) ∧
    ComputesPred (.icmpS h ty .ge pd a b) (predItem h .a [a, b]) pd
      (fun _ _ xs => readInt ty (src xs 0) ≥ readInt ty (src xs 1)) (fun _ _ _ => 0)) ∧
  (∀ h ty cond pd a imm, ComputesPred (.icmpL h ty cond pd a imm) (predItem h .a [a]) pd
    (fun _ _ xs => condInt cond (readInt ty (src xs 0)) (readInt ty imm)) (fun _ _ _ => 0)) ∧
  (∀ h ty sh d a b, ComputesPure (.leaS h ty sh d a b) (aItem h [a, b] d) d fun xs =>
    src xs 0 + (src xs 1 <<< sh.val)) ∧
  (∀ h ty d a imm, ComputesPure (.leaL h ty d a imm) (aItem h [a] d) d fun xs => src xs 0 + imm)

/-- The bitwise instructions act on all 64 bits (R215). The shifts read the whole 64-bit amount as unsigned, act on
the low w bits of the value and extend the result (R215): .N32 and .N64 with zeros, .I32 and .I64 with the sign. A
count of w or more gives 0, or for SAR copies of the sign; ROT takes it mod w. -/
def Obligations.BitwiseAndShiftsComplete : Prop :=
  (∀ h ty d a b,
    ComputesPure (.andS h ty d a b) (aItem h [a, b] d) d (fun xs => src xs 0 &&& src xs 1) ∧
    ComputesPure (.orS h ty d a b) (aItem h [a, b] d) d (fun xs => src xs 0 ||| src xs 1) ∧
    ComputesPure (.xorS h ty d a b) (aItem h [a, b] d) d (fun xs => src xs 0 ^^^ src xs 1) ∧
    ComputesPure (.andnS h ty d a b) (aItem h [a, b] d) d (fun xs => src xs 0 &&& ~~~(src xs 1))) ∧
  (∀ h ty d a imm,
    ComputesPure (.andL h ty d a imm) (aItem h [a] d) d (fun xs => src xs 0 &&& imm) ∧
    ComputesPure (.orL h ty d a imm) (aItem h [a] d) d (fun xs => src xs 0 ||| imm) ∧
    ComputesPure (.xorL h ty d a imm) (aItem h [a] d) d (fun xs => src xs 0 ^^^ imm) ∧
    ComputesPure (.andnL h ty d a imm) (aItem h [a] d) d (fun xs => src xs 0 &&& ~~~imm)) ∧
  (∀ h d a b, ComputesPure (.shlS h .n64 d a b) (aItem h [a, b] d) d (fun xs => src xs 0 <<< src xs 1)) ∧
  (∀ h d a imm, ComputesPure (.shlL h .n64 d a imm) (aItem h [a] d) d (fun xs => src xs 0 <<< imm)) ∧
  (∀ h d a b, ComputesPure (.shrS h .n64 d a b) (aItem h [a, b] d) d (fun xs => src xs 0 >>> src xs 1)) ∧
  (∀ h d a imm, ComputesPure (.shrL h .n64 d a imm) (aItem h [a] d) d (fun xs => src xs 0 >>> imm)) ∧
  (∀ h d a b, ComputesPure (.sarS h .i64 d a b) (aItem h [a, b] d) d
    (fun xs => (src xs 0).sshiftRight (src xs 1).toNat)) ∧
  (∀ h d a imm, ComputesPure (.sarL h .i64 d a imm) (aItem h [a] d) d
    (fun xs => (src xs 0).sshiftRight imm.toNat)) ∧
  (∀ h d a b, ComputesPure (.rotS h .n64 d a b) (aItem h [a, b] d) d
    (fun xs => (src xs 0).rotateRight (src xs 1).toNat)) ∧
  (∀ h d a imm, ComputesPure (.rotL h .n64 d a imm) (aItem h [a] d) d
    (fun xs => (src xs 0).rotateRight imm.toNat)) ∧
  (∀ h d a b, ComputesPure (.shlS h .n32 d a b) (aItem h [a, b] d) d
    (fun xs => (((src xs 0).setWidth 32) <<< (src xs 1)).setWidth 64)) ∧
  (∀ h d a imm, ComputesPure (.shlL h .n32 d a imm) (aItem h [a] d) d
    (fun xs => (((src xs 0).setWidth 32) <<< imm).setWidth 64)) ∧
  (∀ h d a b, ComputesPure (.shrS h .n32 d a b) (aItem h [a, b] d) d
    (fun xs => (((src xs 0).setWidth 32) >>> (src xs 1)).setWidth 64)) ∧
  (∀ h d a imm, ComputesPure (.shrL h .n32 d a imm) (aItem h [a] d) d
    (fun xs => (((src xs 0).setWidth 32) >>> imm).setWidth 64)) ∧
  (∀ h d a b, ComputesPure (.sarS h .i32 d a b) (aItem h [a, b] d) d
    (fun xs => (((src xs 0).setWidth 32).sshiftRight (src xs 1).toNat).signExtend 64)) ∧
  (∀ h d a imm, ComputesPure (.sarL h .i32 d a imm) (aItem h [a] d) d
    (fun xs => (((src xs 0).setWidth 32).sshiftRight imm.toNat).signExtend 64)) ∧
  (∀ h d a b, ComputesPure (.rotS h .n32 d a b) (aItem h [a, b] d) d
    (fun xs => (((src xs 0).setWidth 32).rotateRight (src xs 1).toNat).setWidth 64)) ∧
  (∀ h d a imm, ComputesPure (.rotL h .n32 d a imm) (aItem h [a] d) d
    (fun xs => (((src xs 0).setWidth 32).rotateRight imm.toNat).setWidth 64))

/-- SHF shifts the double-width value (R216); BFX and BFI take a field's position and width from their control operand
(R217); POPC, CLZ, CTZ and BREV act on the low w bits (R218). -/
def Obligations.BitFieldsComplete : Prop :=
  (∀ h d a b c,
    ComputesPure (.shf h .n64 false d a b c) (aItem h [a, b, c] d) d (fun xs =>
      ((src xs 0 ++ src xs 1) >>> ((src xs 2).toNat % 64)).setWidth 64) ∧
    ComputesPure (.shf h .n64 true d a b c) (aItem h [a, b, c] d) d (fun xs =>
      ((src xs 0 ++ src xs 1) <<< ((src xs 2).toNat % 64)).extractLsb' 64 64) ∧
    ComputesPure (.shf h .n32 false d a b c) (aItem h [a, b, c] d) d (fun xs =>
      ((((src xs 0).setWidth 32 ++ (src xs 1).setWidth 32) >>> ((src xs 2).toNat % 32)).setWidth 32).setWidth 64) ∧
    ComputesPure (.shf h .n32 true d a b c) (aItem h [a, b, c] d) d (fun xs =>
      ((((src xs 0).setWidth 32 ++ (src xs 1).setWidth 32) <<< ((src xs 2).toNat % 32)).extractLsb' 32 32).setWidth
        64)) ∧
  (∀ h d a b,
    ComputesPure (.bfx h .n64 d a b) (aItem h [a, b] d) d (fun xs =>
      ((src xs 0 >>> (fieldPos (src xs 1)).1).setWidth (fieldPos (src xs 1)).2).setWidth 64) ∧
    ComputesPure (.bfx h .i64 d a b) (aItem h [a, b] d) d (fun xs =>
      ((src xs 0 >>> (fieldPos (src xs 1)).1).setWidth (fieldPos (src xs 1)).2).signExtend 64)) ∧
  (∀ h ty d a b c, ComputesPure (.bfi h ty d a b c) (aItem h [a, b, c] d) d fun xs =>
    let m : Word := (BitVec.allOnes (fieldPos (src xs 2)).2).setWidth 64 <<< (fieldPos (src xs 2)).1
    (src xs 0 &&& ~~~m) ||| ((src xs 1 <<< (fieldPos (src xs 2)).1) &&& m)) ∧
  (∀ c : Word, (fieldPos c).1 = c.toNat % 256 ∧ (fieldPos c).2 =
    if 64 ≤ c.toNat % 256 then 0 else min (c.toNat / 256 % 256) (64 - c.toNat % 256)) ∧
  (∀ h d a,
    ComputesPure (.popc h .n64 d a) (aItem h [a] d) d (fun xs => (src xs 0).cpop) ∧
    ComputesPure (.clz h .n64 d a) (aItem h [a] d) d (fun xs => (src xs 0).clz) ∧
    ComputesPure (.ctz h .n64 d a) (aItem h [a] d) d (fun xs => (src xs 0).ctz) ∧
    ComputesPure (.brev h .n64 d a) (aItem h [a] d) d (fun xs => (src xs 0).reverse) ∧
    ComputesPure (.popc h .n32 d a) (aItem h [a] d) d (fun xs => ((src xs 0).setWidth 32).cpop.setWidth 64) ∧
    ComputesPure (.clz h .n32 d a) (aItem h [a] d) d (fun xs => ((src xs 0).setWidth 32).clz.setWidth 64) ∧
    ComputesPure (.ctz h .n32 d a) (aItem h [a] d) d (fun xs => ((src xs 0).setWidth 32).ctz.setWidth 64) ∧
    ComputesPure (.brev h .n32 d a) (aItem h [a] d) d (fun xs => ((src xs 0).setWidth 32).reverse.setWidth 64))

/-- PADD, PSUB, PMUL, PMIN and PMAX act element by element, wrapping or clamping each element (R219); IDOT4 and IDOT2
add the exact products of 4 or 2 pairs of elements to each 32-bit element of C (R220). -/
def Obligations.PackedIntegersComplete : Prop :=
  (∀ h ty sat d a b,
    ComputesPure (.padd h ty sat d a b) (aItem h [a, b] d) d (fun xs =>
      packedOp (· + ·) ty sat (src xs 0) (src xs 1)) ∧
    ComputesPure (.psub h ty sat d a b) (aItem h [a, b] d) d (fun xs =>
      packedOp (· - ·) ty sat (src xs 0) (src xs 1)) ∧
    ComputesPure (.pmul h ty sat d a b) (laneItem h .m (some 4) [a, b] d) d (fun xs =>
      packedOp (· * ·) ty sat (src xs 0) (src xs 1)) ∧
    ComputesPure (.pmin h ty d a b) (aItem h [a, b] d) d (fun xs =>
      packedOp min ty false (src xs 0) (src xs 1)) ∧
    ComputesPure (.pmax h ty d a b) (aItem h [a, b] d) d (fun xs =>
      packedOp max ty false (src xs 0) (src xs 1))) ∧
  (∀ f ty sat a b i, ty ∈ [Ty.i8x8, .i16x4, .i32x2, .n8x8, .n16x4, .n32x2] → i < ty.k →
    elemOf ty.w (packedOp f ty sat a b) i =
      narrow ty.signed sat ty.w
        (f (intOf ty.signed ty.w (elemOf ty.w a i)) (intOf ty.signed ty.w (elemOf ty.w b i)))) ∧
  (∀ h ua ub sat d a b c,
    ComputesPure (.idot4 h ua ub sat d a b c) (laneItem h .m (some 4) [a, b, c] d) d (fun xs =>
      idotOp 8 4 ua ub sat (src xs 0) (src xs 1) (src xs 2)) ∧
    ComputesPure (.idot2 h ua ub sat d a b c) (laneItem h .m (some 4) [a, b, c] d) d (fun xs =>
      idotOp 16 2 ua ub sat (src xs 0) (src xs 1) (src xs 2))) ∧
  (∀ w n ua ub sat a b c j, j < 2 →
    elemOf 32 (idotOp w n ua ub sat a b c) j = narrow true sat 32 (intOf true 32 (elemOf 32 c j) +
      ((List.range n).map fun i => intOf (!ua) w (elemOf w a (n * j + i)) * intOf (!ub) w (elemOf w b (n * j + i))).sum))

/-- The floating-point instructions of class 0x0C0: FADD, FSUB, FMUL and FFMA round the exact result once in the mode
of RND or MODE (R222); FMIN, FMAX, FCMP (R223, R224), FDOT2 (R225), FSCALE (R226), FCLASS (R227) and FRND (R228). The
nine functions of R230 give their exact result rounded once, in the D unit (R205). -/
def Obligations.FloatAndSpecialFunctionsComplete : Prop :=
  (∀ h ty rnd d a b,
    ComputesFloat (.fadd h ty rnd d a b) (f64Item h ty [a, b] d) .ready ty rnd d faddFn ∧
    ComputesFloat (.fsub h ty rnd d a b) (f64Item h ty [a, b] d) .ready ty rnd d fsubFn ∧
    ComputesFloat (.fmul h ty rnd d a b) (f64Item h ty [a, b] d) .ready ty rnd d fmulFn ∧
    ComputesFloat (.fscale h ty rnd d a b) (fItem h [a, b] d) .ready ty rnd d fscaleFn ∧
    ComputesFloat (.frnd h ty rnd d a) (fItem h [a] d) .ready ty rnd d frndFn) ∧
  (∀ h ty rnd d a b c,
    ComputesFloat (.ffma h ty rnd d a b c) (f64Item h ty [a, b, c] d) .ready ty rnd d ffmaFn) ∧
  (∀ h ty d a b,
    ComputesFloat (.fmin h ty d a b) (fItem h [a, b] d) .ready ty .rne d (fminFn false) ∧
    ComputesFloat (.fmax h ty d a b) (fItem h [a, b] d) .ready ty .rne d (fminFn true)) ∧
  (∀ h ty cond pd a b, ComputesPred (.fcmp h ty cond pd a b) (predItem h .f [a, b]) pd
    (fun _ _ xs => (fcmpFn cond (fmtOf ty) (elemOf ty.w (src xs 0) 0) (elemOf ty.w (src xs 1) 0)).1)
    (fun _ _ xs => (fcmpFn cond (fmtOf ty) (elemOf ty.w (src xs 0) 0) (elemOf ty.w (src xs 1) 0)).2)) ∧
  (∀ h sty rnd d a b c, Computes (.fdot2 h sty rnd d a b c) (fItem h [a, b, c] d) .ready d 2
    (fun g _ xs => (fdot2Op sty (modeOf g rnd) (src xs 0) (src xs 1) (src xs 2)).1)
    (fun g _ xs => (fdot2Op sty (modeOf g rnd) (src xs 0) (src xs 1) (src xs 2)).2)) ∧
  (∀ h ty d a, ComputesPure (.fclass h ty d a) (fItem h [a] d) d fun xs =>
    BitVec.ofNat 64 (fclassOp (fmtOf ty) (elemOf ty.w (src xs 0) 0))) ∧
  (
  ∀ h ty rnd d a b,
    let it (srcs : List Opnd) : Item :=
      { laneItem h (dUnit ty.w) none srcs d with least := if ty.w = 64 then 44 else 18 }
    ComputesFloat (.frcp h ty rnd d a) (it [a]) .div ty rnd d frcpFn ∧
    ComputesFloat (.frsq h ty rnd d a) (it [a]) .div ty rnd d frsqFn ∧
    ComputesFloat (.fsqrt h ty rnd d a) (it [a]) .div ty rnd d fsqrtFn ∧
    ComputesFloat (.fdiv h ty rnd d a b) (it [a, b]) .div ty rnd d fdivFn ∧
    ComputesFloat (.fexp2 h ty rnd d a) (it [a]) .div ty rnd d fexp2Fn ∧
    ComputesFloat (.flog2 h ty rnd d a) (it [a]) .div ty rnd d flog2Fn ∧
    ComputesFloat (.fsin h ty rnd d a) (it [a]) .div ty rnd d fsinFn ∧
    ComputesFloat (.fcos h ty rnd d a) (it [a]) .div ty rnd d fcosFn ∧
    ComputesFloat (.ftanh h ty rnd d a) (it [a]) .div ty rnd d ftanhFn)

/-- FCVT (R231), F2I (R232), I2F (R233), FPACK, which reads D too (R234), and FUNPK (R235). -/
def Obligations.ConversionsComplete : Prop :=
  (∀ h ty sty rnd nsat d a, Computes (.fcvt h ty sty rnd nsat d a) (fItem h [a] d) .ready d 1
    (fun g _ xs => BitVec.ofNat 64
      (fcvtOp (fmtOf ty) (fmtOf sty) nsat (modeOf g rnd) (elemOf sty.w (src xs 0) 0)).1)
    (fun g _ xs => (fcvtOp (fmtOf ty) (fmtOf sty) nsat (modeOf g rnd) (elemOf sty.w (src xs 0) 0)).2)) ∧
  (∀ h ty sty rnd d a, Computes (.f2i h ty sty rnd d a) (fItem h [a] d) .ready d 1
    (fun g _ xs => (f2iOp ty (fmtOf sty) (modeOf g rnd) (elemOf sty.w (src xs 0) 0)).1)
    (fun g _ xs => (f2iOp ty (fmtOf sty) (modeOf g rnd) (elemOf sty.w (src xs 0) 0)).2)) ∧
  (∀ h ty sty rnd d a, Computes (.i2f h ty sty rnd d a) (fItem h [a] d) .ready d 1
    (fun g _ xs => BitVec.ofNat 64 (i2fOp (fmtOf ty) sty (modeOf g rnd) (src xs 0)).1)
    (fun g _ xs => (i2fOp (fmtOf ty) sty (modeOf g rnd) (src xs 0)).2)) ∧
  (∀ h ty sty rnd nsat d a b pos,
    Computes (.fpack h ty sty rnd nsat d a b pos) (fItem h [a, b, d] d) .ready d 1
      (fun g _ xs => (fpackOp ty sty nsat (modeOf g rnd) pos.toNat (src xs 2) (src xs 0) (src xs 1)).1)
      (fun g _ xs => (fpackOp ty sty nsat (modeOf g rnd) pos.toNat (src xs 2) (src xs 0) (src xs 1)).2)) ∧
  (∀ h ty sty rnd d a b pos, Computes (.funpk h ty sty rnd d a b pos) (fItem h [a, b] d) .ready d 1
    (fun g _ xs => (funpkOp ty sty (modeOf g rnd) pos.toNat (src xs 0) (src xs 1)).1)
    (fun g _ xs => (funpkOp ty sty (modeOf g rnd) pos.toNat (src xs 0) (src xs 1)).2))

/-- The exact accumulators: XCLR, XADD and XMAC (R238), XRND (R239), XMRG (R240), and XSAVE and XLOAD, whose offset is
a multiple of 8 with 536 bytes in the team's scratchpad, which no lock keeps from them and XLOAD finds without poison
(R241, R326, R391). -/
def Obligations.ExactAccumulatorsComplete : Prop :=
  (∀ h xa, Takes (.xclr h xa) { xItem h [xa.val] [] with xaFresh := true } always (fun _ _ _ => xEffect 4)
    (fun i _ s => setAcc s i.gid xa.val 0)) ∧
  (∀ h ty xa a,
    let it : Item := { xItem h [xa.val] [a] with needsXf64 := ty = .f64 }
    Takes (.xadd h ty xa a) it always
      (fun i ex s => { xEffect (xCycles ty false (lanes i ex s).length) with
        fflags := (xTerms ty ((lanes i ex s).map fun l => lanSrcs s i.gid l [a])).fflags })
      (fun i ex s =>
        let s1 := consumeAll s i.gid it
        setAcc s1 i.gid xa.val (xaAdd ((grpAt s1 i.gid).acc xa.val)
          (xTerms ty ((lanes i ex s).map fun l => lanSrcs s i.gid l [a]))))) ∧
  (∀ h ty xa a b,
    let it : Item := { xItem h [xa.val] [a, b] with needsXf64 := ty = .f64 }
    Takes (.xmac h ty xa a b) it always
      (fun i ex s => { xEffect (xCycles ty true (lanes i ex s).length) with
        fflags := (xTerms ty ((lanes i ex s).map fun l => lanSrcs s i.gid l [a, b])).fflags })
      (fun i ex s =>
        let s1 := consumeAll s i.gid it
        setAcc s1 i.gid xa.val (xaAdd ((grpAt s1 i.gid).acc xa.val)
          (xTerms ty ((lanes i ex s).map fun l => lanSrcs s i.gid l [a, b]))))) ∧
  (∀ h ty rnd clr xa d, Takes (.xrnd h ty rnd clr xa d)
    { xItem h [xa.val] [] with dsts := [d], dstVs := true, txBad := clr, specHold := clr, least := 20 } always
    (fun i ex s =>
      let r := xrndOp ty (modeOf (grpAt s i.gid) rnd) ((grpAt s i.gid).acc xa.val)
      { xEffect 4 with
        writes := destWrites d ((lanes i ex s).map fun l => (l, BitVec.ofNat 64 r.1)), fflags := r.2 })
    (fun i _ s => if clr then setAcc s i.gid xa.val 0 else s)) ∧
  (∀ h xa xb, Takes (.xmrg h xa xb) (xItem h [xa.val, xb.val] []) always (fun _ _ _ => xEffect 4)
    (fun i _ s => setAcc s i.gid xa.val
      (xmrgOp ((grpAt s i.gid).acc xa.val) ((grpAt s i.gid).acc xb.val)))) ∧
  (∀ h xa a,
    let it : Item := { xItem h [xa.val] [a] with access := true, writesMem := true, scratch := true }
    let off := fun (i : Issue) (ex : Mask) (s : State) => (scalarOf s i.gid ex a).toNat
    let bank := fun (i : Issue) (ex : Mask) (s : State) => blockAccess (consumeAll s i.gid it) i.gid 3 (off i ex s)
    Takes (.xsave h xa a) it
      (fun i ex s => off i ex s % 8 = 0 ∧ scratchHas (launchOf s i.gid) (off i ex s) 536 = true ∧
        scratchBlocked s i.gid 536 true [((lanes i ex s).headD 0, off i ex s)] = false)
      (fun i ex s => { xEffect 4 with least := (bank i ex s).2 })
      (fun i ex s => scratchWrite (bank i ex s).1 (grpAt s i.gid).team (off i ex s) 536
        (xaImage ((grpAt s i.gid).acc xa.val)))) ∧
  (∀ h xa a,
    let it : Item :=
      { xItem h [xa.val] [a] with access := true, xaFresh := true, scratch := true, track := .load }
    let off := fun (i : Issue) (ex : Mask) (s : State) => (scalarOf s i.gid ex a).toNat
    let bank := fun (i : Issue) (ex : Mask) (s : State) => blockAccess (consumeAll s i.gid it) i.gid 3 (off i ex s)
    Takes (.xload h xa a) it
      (fun i ex s => off i ex s % 8 = 0 ∧ scratchHas (launchOf s i.gid) (off i ex s) 536 = true ∧
        scratchBad s (grpAt s i.gid).team (off i ex s) 536 = false ∧
        scratchBlocked s i.gid 536 false [((lanes i ex s).headD 0, off i ex s)] = false)
      (fun i ex s => { xEffect 4 with least := (bank i ex s).2 })
      (fun i ex s =>
        let x := scratchRead s (grpAt s i.gid).team (off i ex s) 536
        setAcc (bank i ex s).1 i.gid xa.val (xaMake (x % 2 ^ 4280) (x / 2 ^ 4280))))

/-- Two additions to an exact accumulator give the same value, and the same NaN and infinity status, in either order
(R201, R238). -/
def Obligations.ExactSumsCommute : Prop :=
  ∀ (x : BitVec 4288) (t u : Terms), t.st < 8 → u.st < 8 →
    xaValue (xaAdd (xaAdd x t) u) = xaValue (xaAdd (xaAdd x u) t) ∧
    xaStatus (xaAdd (xaAdd x t) u) % 8 = xaStatus (xaAdd (xaAdd x u) t) % 8

/-- The cross-lane instructions: SHFL and SHFLI (R167), BCAST (R168), BALLOT and ACTMASK (R169), VOTE (R170), MATCH
(R171), COMPACT (R172), SCAN and SRED (R173, R174). -/
def Obligations.CrossLaneCompletes : Prop :=
  (∀ h wid mode seg d a b, Crosses (.shfl h wid mode seg d a b) (xlItem h 8 [a, b] d) d fun g ex x y l =>
    shflLane wid.val mode seg.val g ex x (y l).toNat l) ∧
  (∀ h wid mode seg d a imm, Crosses (.shfli h wid mode seg d a imm) (xlItem h 8 [a] d) d fun g ex x _ l =>
    shflLane wid.val mode seg.val g ex x imm.toNat l) ∧
  (∀ h wid first d a b, Crosses (.bcast h wid first d a b) (xlItem h 8 [a, b] d) d fun g ex x y l =>
    bcastLane wid.val first g ex x y l) ∧
  (∀ h ps d, Crosses (.ballot h ps d) (xlItem h 8 [] d) d fun g ex _ _ _ =>
    maskWhere g.width fun l => hasBit ex l && (readP (g.thread l) ps.p.val != ps.neg)) ∧
  (∀ h d, Crosses (.actmask h false d) (xlItem h 8 [] d) d fun _ ex _ _ _ => ex) ∧
  (∀ h d, Crosses (.actmask h true d) (xlItem h 8 [] d) d fun g _ _ _ _ => g.live) ∧
  (∀ h op pd ps a,
    let it : Item := { hdr := h, cls := .xlane, lat := some 8, srcs := if op = .eq then [a] else [] }
    Takes (.vote h op pd ps a) it always
      (fun i ex s => { writes := (lanes i ex s).map fun l =>
        ⟨l, .p l pd.val, if voteValue op (grpAt s i.gid) ex ps (fun j => readOpnd s i.gid j a) then 1 else 0⟩ })
      (fun i _ s => consumeAll s i.gid it)) ∧
  (∀ h w32 d a,
    Crosses (.matchK h w32 false d a) (xlItem h 8 [a] d) d (fun g ex x _ l => matchMask w32 g ex x l) ∧
    Crosses (.matchK h w32 true d a) (xlItem h 8 [a] d) d (fun g ex x _ l =>
      BitVec.ofNat 64 (lanesOf l (matchMask w32 g ex x l)).length)) ∧
  (∀ h ps d a, Crosses (.compact h ps d a) (xlItem h 8 [a] d) d fun g ex x _ l => compactLane ps g ex x l) ∧
  (∀ h op ty rnd excl seg d a b i ex s,
    Issues (scanItem h ty seg d a b) s i ex →
    ∃ e, scanBody (scanItem h ty seg d a b) false op ty rnd excl seg d a b i ex s =
        .done e (consumeAll s i.gid (scanItem h ty seg d a b)) ∧
      exec (.scan h op ty rnd excl seg d a b) s = .next
        (finishIssue (consumeAll s i.gid (scanItem h ty seg d a b)) i (scanItem h ty seg d a b) ex e)) ∧
  (∀ h op ty rnd seg d a b i ex s,
    Issues (scanItem h ty seg d a b) s i ex →
    ∃ e, scanBody (scanItem h ty seg d a b) true op ty rnd false seg d a b i ex s =
        .done e (consumeAll s i.gid (scanItem h ty seg d a b)) ∧
      exec (.sred h op ty rnd seg d a b) s = .next
        (finishIssue (consumeAll s i.gid (scanItem h ty seg d a b)) i (scanItem h ty seg d a b) ex e))

/-- PCFG takes the lowest executing lane's set when its offset is a multiple of 8 with the set in scratchpad, neither
poisoned nor locked (R177, R326, R391); PERM permutes the group's vector through pcN, or through a free mixture of its sets while a PCFG to it is
incomplete (R178); REGROUP stops the executing threads and ends the others (R179). -/
def Obligations.PermutesAndRegroupComplete : Prop :=
  (∀ h wid pcn a,
    let it : Item :=
      { hdr := h, cls := .other, srcs := [a], txBad := true, specHold := true, access := true, scratch := true
        track := .load }
    let off := fun (i : Issue) (ex : Mask) (s : State) => (scalarOf s i.gid ex a).toNat
    let n := fun (i : Issue) (s : State) => benesBytes (log2 ((grpAt s i.gid).width * 2 ^ wid.val))
    let bank := fun (i : Issue) (ex : Mask) (s : State) =>
      blockAccess (consumeAll s i.gid it) i.gid ((n i s + 255) / 256) (off i ex s)
    Takes (.pcfg h wid pcn a) it
      (fun i ex s => off i ex s % 8 = 0 ∧ scratchHas (launchOf s i.gid) (off i ex s) (n i s) = true ∧
        scratchBad s (grpAt s i.gid).team (off i ex s) (n i s) = false ∧
        scratchBlocked s i.gid (n i s) false [((lanes i ex s).headD 0, off i ex s)] = false)
      (fun i ex s =>
        let set := BitVec.ofNat 4352 (scratchRead s (grpAt s i.gid).team (off i ex s) (n i s))
        { kind := .pcfg pcn.val wid.val set, least := (bank i ex s).2 })
      (fun i ex s => (bank i ex s).1)) ∧
  (∀ h pcn d a,
    let it : Item :=
      { hdr := h, cls := .other, srcs := [a], dsts := [d], dstVs := true, txBad := true, least := 24 }
    let bank := fun (i : Issue) (s : State) =>
      enterBanks (consumeAll (permCfg s i.gid pcn.val).2 i.gid it) i.gid
        (2 * ((8 * (grpAt s i.gid).width + 255) / 256)) 0
    Takes (.perm h pcn d a) it always
      (fun i ex s =>
        let cfg := (permCfg s i.gid pcn.val).1
        let y := permVector cfg (grpAt s i.gid) ex fun l => readOpnd s i.gid l a
        { writes := destWrites d ((lanes i ex s).map fun l =>
            (l, (packElems (widW cfg.wid) (2 ^ cfg.wid) fun j => (y.getD (l * 2 ^ cfg.wid + j) 0, 0)).1))
          least := 24 + (bank i s).2 })
      (fun i _ s => (bank i s).1)) ∧
  (∀ s gid n, pcfgInFlight (grpAt s gid) n = [] → permCfg s gid n = (mapGet default (grpAt s gid).pcfg n, s)) ∧
  (∀ h k d s i ex,
    let it : Item :=
      { hdr := h, cls := .other, dsts := [d], dstVs := true, txBad := true, specHold := true, guardExit := true }
    Issues it s i ex →
    ∃ t, regroupBody (k.val + 2) d i ex s = .done { kind := .regroup } t ∧
      (∀ l, l < (grpAt s i.gid).threads.length → hasBit ex l = true →
        ((grpAt t i.gid).thread l).wait = .regroup (k.val + 2) d) ∧
      exec (.regroup h k d) s = .next (groupExits (finishIssue t i it ex { kind := .regroup }) i.gid))

/-- Moves and predicates: MOV, MOVI, MOVL and SEL (R181), PLOP (R182), PGET and PPUT (R183), RAND, which draws in each
executing lane (R184), and GETID (R185). -/
def Obligations.MovesComplete : Prop :=
  (∀ h ty d a, ComputesPure (.mov h ty d a) (mvItem h [a] [d]) d fun xs => src xs 0) ∧
  (∀ h d imm, ComputesPure (.movi h d imm) (mvItem h [] [d]) d fun _ => imm.signExtend 64) ∧
  (∀ h d imm, ComputesPure (.movl h d imm) (mvItem h [] [d]) d fun _ => imm) ∧
  (∀ h ps d a b, Computes (.sel h ps d a b) (mvItem h [a, b] [d]) .ready d 1
    (fun g l xs => if readP (g.thread l) ps.p.val != ps.neg then src xs 0 else src xs 1) fun _ _ _ => 0) ∧
  (∀ h op pd pa pb, ComputesPred (.plop h op pd pa pb) (mvItem h [] []) pd
    (fun g l _ => plOp op (predHolds g pa l) (predHolds g pb l)) fun _ _ _ => 0) ∧
  (∀ h d, Computes (.pget h d) (mvItem h [] [d]) .ready d 1
    (fun g l _ => (g.thread l).p.setWidth 64 ||| 0x80) fun _ _ _ => 0) ∧
  (∀ h msk a, Takes (.pput h msk a) (mvItem h [a] []) always
    (fun i ex s => { writes := (lanes i ex s).flatMap fun l =>
      ((List.range 7).filter fun p => hasBit msk p).map fun p =>
        ⟨l, .p l p, if hasBit (readOpnd s i.gid l a) p then 1 else 0⟩ })
    (fun i _ s => consumeAll s i.gid (mvItem h [a] []))) ∧
  (∀ h ty d, Takes (.rand h ty d) (mvItem h [] [d]) always
    (fun i ex s => { writes := destWrites d ((lanes i ex s).map fun l =>
      (l, randValue ty (randWord (BitVec.ofNat 64 (launchOf s i.gid).key) ((grpAt s i.gid).thread l).gtid
        ((grpAt s i.gid).thread l).draw))) })
    (fun i ex s =>
      pushDest (modGrp s i.gid fun g => g.modLanes ex fun _ t => { t with draw := t.draw + 1 }) i.gid ex d
        ((lanes i ex s).map fun l =>
          (l, randValue ty (randWord (BitVec.ofNat 64 (launchOf s i.gid).key) ((grpAt s i.gid).thread l).gtid
            ((grpAt s i.gid).thread l).draw))))) ∧
  (∀ h sel d, Takes (.getid h sel d) (mvItem h [] [d]) always
    (fun i ex s => { writes := destWrites d ((lanes i ex s).map fun l =>
      (l, BitVec.ofNat 64 (idValue s i.gid l sel))) })
    (fun i ex s => pushDest s i.gid ex d ((lanes i ex s).map fun l =>
      (l, BitVec.ofNat 64 (idValue s i.gid l sel)))))

/-! ## Control flow and traps -/

/-- NOP has no effect apart from its issue (R361); BRA, BRX, CALL, CALLX and RET transfer the executing lanes to their
targets (R360). -/
def Obligations.TransfersComplete : Prop :=
  (∀ h, Takes (.nopC h) (ctrlItem h) always (fun _ _ _ => {}) unchanged) ∧
  (∀ h, Takes (.nopS h) (ctrlItem h) always (fun _ _ _ => {}) unchanged) ∧
  (∀ h off, Transfers (.bra h off) (ctrlItem h) none fun i _ _ => i.pc + 4 * off.signExtend 64) ∧
  (∀ h a, Transfers (.brx h a) { ctrlItem h with srcs := [a], noStream := true } none fun i l s =>
    readOpnd s i.gid l a) ∧
  (∀ h d off, Transfers (.call h d off) { ctrlItem h with dsts := [d], badOpnd := !isV d } (some d)
    fun i _ _ => i.pc + 4 * off.signExtend 64) ∧
  (∀ h d a, Transfers (.callx h d a)
    { ctrlItem h with srcs := [a], dsts := [d], noStream := true, badOpnd := !isV d } (some d)
    fun i l s => readOpnd s i.gid l a) ∧
  (∀ h d, Transfers (.ret h d) { ctrlItem h with srcs := [d], badOpnd := !isVs d } none fun i l s =>
    readOpnd s i.gid l d)

/-- EXIT ends the executing threads, unless they are the group's last and a fault is kept for it; YIELD makes the
group the youngest of its quarter and demotes the threads' PC; SLEEP parks the threads until GT has advanced by its
operand, and with 0 not at all (R361). -/
def Obligations.ThreadControlCompletes : Prop :=
  (∀ h s i ex,
    let it : Item := { ctrlItem h with txBad := true, specHold := true }
    Issues it s i ex →
    ((grpAt s i.gid).live &&& ~~~ex ≠ 0 ∨ (grpAt s i.gid).deferred = [] ∧
      ∀ e ∈ (grpAt s i.gid).queues, e.2.isLoad = true ∨ e.2.st ≠ .faulted ∨ e.2.fault = none) →
    exec (.exit h) s = .next (groupExits (finishIssue
      (modGrp s i.gid fun g => g.modLanes ex fun _ t => { t with status := .exited, recon := [], wait := .none })
      i it ex {}) i.gid)) ∧
  (∀ h, Takes (.yield h) (ctrlItem h) always (fun _ _ _ => { yields := true }) (fun i _ s =>
    let peers := (s.groups.filter fun e => e.2.resident && e.2.quart = (grpAt s i.gid).quart).map (·.2)
    modGrp s i.gid fun g => { g with
      placed := (peers.map (·.placed)).foldl max (gtOf s)
      demoted := (peers.map (·.demoted)).foldl max 0 + 1 })) ∧
  (∀ h ticks, ticks ≠ 0 → Takes (.sleep h ticks) { ctrlItem h with txBad := true } always (fun _ _ _ => {})
    (fun i ex s => modGrp s i.gid fun g =>
      g.modLanes ex fun _ t => { t with wait := .sleep (gtOf s + ticks.toNat) })) ∧
  (∀ h, Takes (.sleep h 0) { ctrlItem h with txBad := true } always (fun _ _ _ => {}) unchanged)

/-- TRAP and BRK raise SWTRAP and BRK with their code in XADDR (R380); TFENCE raises ARITH, with the common flags in
XSTAT.SUB, when FFLAGS and FTRAPEN share a bit, and else completes (R379). ERET, when no CSRW is in flight and XPC is
a multiple of 4, hands IDX to the operation that stopped and sends the handler population back to XPC in user mode
(R372, R381). -/
def Obligations.TrapsAndReturnComplete : Prop :=
  (∀ h code, Traps (.trap h code) { ctrlItem h with txBad := true, specHold := true } always
    fun _ _ => { code := .swtrap, addr := code.setWidth 64 }) ∧
  (∀ h code, Traps (.brk h code) { ctrlItem h with txBad := true } always
    fun _ _ => { code := .brk, addr := code.setWidth 64 }) ∧
  (∀ h s i ex,
    let it : Item := { ctrlItem h with hold := (issuingGroup s).ops.any (·.setsFlags) }
    Issues it s i ex →
    exec (.tfence h) s =
      if (grpAt s i.gid).fflags &&& (grpAt s i.gid).ftrapen ≠ 0 then
        .next (raiseTrap (notePick s i it) i ex
          { code := .arith, sub := ((grpAt s i.gid).fflags &&& (grpAt s i.gid).ftrapen).toNat })
      else .next (finishIssue s i it ex {})) ∧
  (
  ∀ h, Takes (.eret h) { hdr := h, cls := .ctrl, privileged := true, txBad := true }
    (fun i _ s => (grpAt s i.gid).xpc.toNat % 4 = 0 ∧
      ∀ o ∈ (grpAt s i.gid).ops, ∀ n op v d, o.kind ≠ .csrw n op v d)
    (fun _ ex _ => { stay := true, ran := some ex })
    (fun i _ s => returnFromTrap (handIndex s i.gid) i.gid))

/-! ## Memory -/

/-- LD, when every lane passes the checks of R67 and R143: a lane whose bytes the core's L1 or its own write records
give takes them, and the others wait for requests to the slices (R130, R131, R144, R145). -/
def Obligations.LoadsComplete : Prop :=
  let loads (ins : Instr) (it : Item) (ty : Ty) (acq : Option Scope) (ch : CHint) (d : Opnd)
      (addr : State → Nat → Nat → Word) : Prop :=
    ∀ s i ex, Issues it s i ex →
      let g := grpAt s i.gid
      let lid := lidOf s i.gid
      let n := bytesOf ty
      let s1 := consumeAll s i.gid it
      let as := laneNats addr i ex s
      loadFails s lid g.core n (laneAddrs addr i ex s) = [] →
      poisonHit s g.core (launchAt s lid).asid as = [] →
      readOverflow s1 i.gid false n as = [] →
      ownHeld g as n = false →
      shortOf s g.core (laneAddrs addr i ex s) = false →
      let how : LoadHow := ⟨lid, g.core, i.pc, ch = .nl || acq = some .sys, ch = .strm⟩
      let r := loadLanes how i.gid ty (pinLoads s1 lid n as) as
      let todo := r.2.filter (·.req.isSome)
      exec ins s = .next (finishIssue r.1 i it ex
        { writes := (r.2.filter (·.req.isNone)).flatMap fun a =>
            resultWrite d ((lanesOf 64 ex).headD 0) a.lane (loadExt ty n a.data.toNat)
          least := if todo.isEmpty then 28
            else sliceLatency r.1 lid g.core (todo.map fun a => (a.lane, a.va))
          kind := .load d todo, holds := if acq.isSome then .all else .none
          elements := coalesced as, ran := some ex })
  (∀ h ty sc acq ch d a b, loads (.ldS h ty sc acq ch d a b)
    { memItem h [a, b] [d] with unit := .ls, txBad := acq.isSome, specHold := acq.isSome, track := .load } ty acq ch d
    fun s gid l => readOpnd s gid l a + (readOpnd s gid l b <<< sc.val)) ∧
  (∀ h ty ch d a imm, loads (.ldL h ty ch d a imm)
    { memItem h [a] [d] with unit := .ls, track := .load } ty none ch d
    fun s gid l => readOpnd s gid l a + imm)

/-- ST, when every lane passes the checks of R67 and R143 and its pages are resident: each lane's bytes go to its
write records or to the core's L1, in ascending order of lane; ST.REL at a publishing scope begins its release (R132,
R137, R145). -/
def Obligations.StoresComplete : Prop :=
  let stores (ins : Instr) (it : Item) (ty : Ty) (rel : Option Scope) (ch : CHint) (d : Opnd)
      (addr : State → Nat → Nat → Word) : Prop :=
    ∀ s i ex, Issues it s i ex →
      let g := grpAt s i.gid
      let lid := lidOf s i.gid
      let n := bytesOf ty
      let s1 := consumeAll (clearProbes s i) i.gid it
      let as := laneNats addr i ex s
      let vals := (lanes i ex s).map fun l => (l, (addr s i.gid l).toNat, readOpnd s i.gid l d)
      storeFails (launchAt s lid) n n false true (laneAddrs addr i ex s) = [] →
      probesAnswered i s (probePages s lid g.core n (laneAddrs addr i ex s)) →
      writeOverflow s1 i.gid false as = [] →
      ownHeld g as n = false → (rel.isSome = true → ownUnperformed g ex = false) →
      shortOf s g.core (laneAddrs addr i ex s) = false →
      if (rel.any (publishesAt (launchAt s lid)) : Bool) then
        ∃ e t, storeRelease i ex s1 lid n (ch = .strm) vals = .done e t ∧
          exec ins s = .next (finishIssue t i it ex { e with ran := some ex })
      else ∀ t, storeLanes lid g.core i.gid n (ch = .strm) s1 vals = some t →
        exec ins s = .next (finishIssue t i it ex { elements := coalesced as, ran := some ex })
  (∀ h ty sc rel ch d a b, stores (.stS h ty sc rel ch d a b)
    { memItem h [a, b, d] [] with unit := .ls, writesMem := true, txBad := rel.isSome, specHold := rel.isSome }
    ty rel ch d fun s gid l => readOpnd s gid l a + (readOpnd s gid l b <<< sc.val)) ∧
  (∀ h ty ch d a imm, stores (.stL h ty ch d a imm)
    { memItem h [a, d] [] with unit := .ls, writesMem := true, noBanks := true } ty none ch d fun s gid l => readOpnd s gid l a + imm)

/-- LDS and STS, when every lane's offset is aligned and in the team's scratchpad, no word read is poisoned and no
lock stands in the way of an access to the banks, which a lane whose write record gives every byte, or goes to one,
does not make (R143, R147, R318, R326); the lowest lane's store is made first. -/
def Obligations.ScratchpadAccessesComplete : Prop :=
  let loads (ins : Instr) (it : Item) (ty : Ty) (d : Opnd) (addr : State → Nat → Nat → Word) : Prop :=
    ∀ s i ex, Issues it s i ex →
      let s1 := consumeAll s i.gid it
      let as := laneNats addr i ex s
      scratchFails (launchOf s i.gid) (bytesOf ty) (bytesOf ty) false (laneAddrs addr i ex s) = [] →
      scratchPoisoned s i.gid (bytesOf ty) (laneAddrs addr i ex s) = [] →
      readOverflow s1 i.gid true (bytesOf ty) as = [] →
      let bank := as.filter fun e =>
        let t := (grpAt s1 i.gid).thread e.1
        !(t.tx.active && (logBytes t.tx.writes true e.2 (bytesOf ty)).2 = fullMask (bytesOf ty))
      scratchBlocked s1 i.gid (bytesOf ty) false bank = false →
      let r := ldsLanes i.gid (bytesOf ty) s1 as
      let b := bankAccess r.1 i.gid (bankLoad (bytesOf ty)) bank
      exec ins s = .next (finishIssue b.1 i it ex
        { writes := destWrites d (r.2.map fun e => (e.1, loadExt ty (bytesOf ty) e.2)), ran := some ex
          least := b.2 })
  let stores (ins : Instr) (it : Item) (ty : Ty) (d : Opnd) (addr : State → Nat → Nat → Word) : Prop :=
    ∀ s i ex, Issues it s i ex →
      let s1 := consumeAll s i.gid it
      let as := laneNats addr i ex s
      let vals := (lanes i ex s).map fun l => (l, (addr s i.gid l).toNat, readOpnd s i.gid l d)
      scratchFails (launchOf s i.gid) (bytesOf ty) (bytesOf ty) true (laneAddrs addr i ex s) = [] →
      writeOverflow s1 i.gid true as = [] →
      scratchBlocked s1 i.gid (bytesOf ty) true (as.filter fun e =>
        let t := (grpAt s1 i.gid).thread e.1
        !t.tx.active || t.tx.irrev) = false →
      let b := bankAccess s1 i.gid (bankLoad (bytesOf ty))
        ((as.filter fun e =>
          let t := (grpAt s1 i.gid).thread e.1
          !t.tx.active || t.tx.irrev).filter fun e => !((grpAt s1 i.gid).thread e.1).tx.active)
      exec ins s = .next (finishIssue
        (vals.foldl (fun s e => stsLane i.gid (bytesOf ty) s e.1 e.2.1 e.2.2) b.1) i it ex
        { ran := some ex, least := b.2 })
  (∀ h ty sc d a b, loads (.ldsS h ty sc d a b)
    { memItem h [a, b] [d] with specHold := true, scratch := true, track := .load } ty d
    fun s gid l => readOpnd s gid l a + (readOpnd s gid l b <<< sc.val)) ∧
  (∀ h ty d a imm, loads (.ldsL h ty d a imm)
    { memItem h [a] [d] with specHold := true, scratch := true, track := .load } ty d
    fun s gid l => readOpnd s gid l a + imm) ∧
  (∀ h ty sc d a b, stores (.stsS h ty sc d a b)
    { memItem h [a, b, d] [] with specHold := true, writesMem := true, scratch := true } ty d
    fun s gid l => readOpnd s gid l a + (readOpnd s gid l b <<< sc.val)) ∧
  (∀ h ty d a imm, stores (.stsL h ty d a imm)
    { memItem h [a, d] [] with specHold := true, writesMem := true, scratch := true, noBanks := true } ty d
    fun s gid l => readOpnd s gid l a + imm)

/-- LDX and STX, when every lane's offset is aligned and below the carved size: one operation goes to the slices for
each lane, in ascending order (R143, R148). PREF drops and counts a hint that fails, and sends the others (R69, R149);
LINV invalidates or publishes the lines of the group's launch that its ranges reach, and .PUB completes once its
publications have been sent (R150). -/
def Obligations.CarvedAccessesAndHintsComplete : Prop :=
  (
  let carved (ins : Instr) (it : Item) (ty : Ty) (d : Opnd) (store : Bool)
      (addr : State → Nat → Nat → Word) : Prop :=
    ∀ s i ex, Issues it s i ex →
      let g := grpAt s i.gid
      let s1 := consumeAll s i.gid it
      (∀ a ∈ laneAddrs addr i ex s,
        a.2.toNat % bytesOf ty = 0 ∧ a.2.toNat + bytesOf ty ≤ (coreAt s g.core).carved) →
      shortOf s g.core (laneAddrs addr i ex s) = false →
      let r := sendItems s1 i g.nextOp ((laneNats addr i ex s).map fun e => (e.1, e.2,
        if store then SliceKind.stx (readOpnd s i.gid e.1 d) (bytesOf ty) else .ldx (bytesOf ty) e.1 ty))
      exec ins s = .next (finishIssue r.1 i it ex
        { kind := .applied (if store then .zero else d) r.2, ran := some ex })
  (∀ h ty sc d a b,
    carved (.ldxS h ty sc d a b) (carvedItem h [a, b] [d] false) ty d false
      (fun s gid l => readOpnd s gid l a + (readOpnd s gid l b <<< sc.val)) ∧
    carved (.stxS h ty sc d a b) (carvedItem h [a, b, d] [] true) ty d true
      (fun s gid l => readOpnd s gid l a + (readOpnd s gid l b <<< sc.val))) ∧
  (∀ h ty d a imm,
    carved (.ldxL h ty d a imm) (carvedItem h [a] [d] false) ty d false
      (fun s gid l => readOpnd s gid l a + imm) ∧
    carved (.stxL h ty d a imm) { carvedItem h [a, d] [] true with noBanks := true } ty d true
      (fun s gid l => readOpnd s gid l a + imm))) ∧
  (
  let prefs (ins : Instr) (it : Item) (l2 res : Bool) (lc : Nat) (addr : State → Nat → Nat → Word) : Prop :=
    Takes ins it
      (fun i ex s => shortOf (consumeAll s i.gid it) (grpAt s i.gid).core (laneAddrs addr i ex s) = false)
      (fun _ _ _ => { lat := some 1 })
      (fun i ex s =>
        let g := grpAt s i.gid
        let lid := lidOf s i.gid
        (laneAddrs addr i ex s).foldl (fun s e =>
          if !hintOk s lid e.2 then dropBadHint s g.core lid e.2
          else if res then walkLine s g.core lid e.2.toNat 1
          else prefetchLine s g.core lid e.2.toNat lc l2 1) (consumeAll s i.gid it))
  let linvItem (h : Hdr) (srcs : List Opnd) : Item := { memItem h srcs [] with txBad := true, specHold := true }
  (∀ h l2 res lc sc a b, prefs (.prefS h l2 res lc sc a b)
    { memItem h [a, b] [] with access := false, lat := some 1 } l2 res lc.val
    fun s gid l => readOpnd s gid l a + (readOpnd s gid l b <<< sc.val)) ∧
  (∀ h l2 res lc a imm, prefs (.prefL h l2 res lc a imm)
    { memItem h [a] [] with access := false, lat := some 1 } l2 res lc.val
    fun s gid l => readOpnd s gid l a + imm) ∧
  let drops (core gid : Nat) (pub : Bool) (hit : L1Line → Bool) (s : State) : State × List Nat :=
    ((coreAt s core).l1.filter hit).foldl (linvLine core gid pub) (s, [])
  (∀ h pub,
    let r := fun (i : Issue) (s : State) => drops (grpAt s i.gid).core i.gid pub
      (fun x => x.asid = asidOf s i.gid && decide (x.line * 128 < 2 ^ 52)) s
    Takes (.linv h pub none) (linvItem h []) always
      (fun i _ s => { kind := if pub then .sending (r i s).2 else .ready }) (fun i _ s => (r i s).1)) ∧
  (∀ h pub a b,
    let r := fun (i : Issue) (ex : Mask) (s : State) =>
      let s1 := consumeAll s i.gid (linvItem h [a, b])
      drops (grpAt s i.gid).core i.gid pub (fun x => x.asid = asidOf s1 i.gid && (lanes i ex s).any fun l =>
        let lo := (readOpnd s i.gid l a).toNat
        let hi := min (2 ^ 52) (lo + min (2 ^ 24) (readOpnd s i.gid l b).toNat)
        decide (lo < hi) && decide (x.line * 128 < hi) && decide (lo < x.line * 128 + 128)) s1
    Takes (.linv h pub (some (a, b))) (linvItem h [a, b]) always
      (fun i ex s => { kind := if pub then .sending (r i ex s).2 else .ready }) (fun i ex s => (r i ex s).1)))

/-! ## Memory-side updates -/

/-- CAS, RED, XRED and XFIN, when every lane passes its checks, its pages are resident and no earlier store or .REL
update of the thread to its sector waits. In memory, or with .REL, one operation for each lane, or for each joined cell,
leaves for its slice or waits behind the release; an SP form without .REL is done at the scratchpad in ascending order of
lane; .ACQ holds the lane's later accesses (R152, R154 to R157, R277, R282). BOFF draws, doubles and parks,
or with .CLR clears the exponent (R158). -/
def Obligations.UpdatesComplete : Prop :=
  let updates (ins : Instr) (it : Item) (u : UpdateHow) (a : Opnd) (kind : State → Nat → Nat → SliceKind) : Prop :=
    ∀ s i ex, Issues it s i ex →
      let lid := lidOf s i.gid
      let as := laneAddrs (fun s gid l => readOpnd s gid l a) i ex s
      let s0 := if u.sp then s else clearProbes s i
      let js := joinCells (consumeAll s0 i.gid it) []
        ((lanes i ex s).map fun l => (l, (readOpnd s i.gid l a).toNat, kind s i.gid l))
      let at_ := js.2.map fun e => (e.1, e.2.1)
      (if u.sp then scratchFails (launchAt s lid) u.n u.al (!u.rd) as = []
        else storeFails (launchAt s lid) u.n u.al u.rd (!u.rd) as = [] ∧
          probesAnswered i s (probePages s lid (grpAt s i.gid).core u.n as) ∧
          (lanes i ex s).length ≤ freeEntries s (grpAt s i.gid).core ∧
          ownHeld (grpAt s i.gid) (at_.map fun e => (e.1, e.2 / 32 * 32)) (max 32 u.n) = false) →
      heldUpdate js.1 i.gid u.n u.sp at_ = false →
      (u.sp = true → u.rel = none → scratchPoisoned s i.gid u.n as = [] ∧
        scratchBlocked js.1 i.gid u.n (!u.rd) at_ = false) →
      let signed := js.2.foldl (signUpdate u.sp lid (grpAt s i.gid).team) js.1
      exec ins s =
        if u.sp = true ∧ u.rel = none then
          let r := spApplyAll i.gid u.d ((lanesOf 64 ex).headD 0) signed js.2
          let b := bankAccess r.1 i.gid (fun as => (js.2.map fun k => bankCycles k.2.2).headD 0 * as.length) at_
          .next (finishIssue b.1 i it ex
            { writes := r.2.1, fflags := r.2.2, least := b.2, holds := if u.acq then .all else .none, ran := some ex })
        else
          let r := issueUpdates signed i ex u js.2
          .next (finishIssue r.1 i it ex
            { kind := .applied u.d r.2, ran := some ex
              holds := if u.acq then .all else if u.sp then .scratch else .none
              least := if u.sp then scratchLatency r.1 i.gid at_
                else sliceLatency r.1 lid (grpAt s i.gid).core at_ })
  (∀ h ty sp ord sc d a b c, updates (.cas h ty sp ord sc d a b c) (updItem h [a, b, c] [d] true sp)
    { sp := sp, acq := ord = .acq || ord = .ar, rel := if ord = .rel || ord = .ar then some sc else none
      n := bytesOf ty, al := bytesOf ty, rd := false, d := d } a
    fun s gid l => .cas ty (readOpnd s gid l b) (readOpnd s gid l c) l) ∧
  (∀ h op ty sp rel d a b, updates (.red h op ty sp rel d a b) (updItem h [a, b] [d] true sp)
    { sp := sp, acq := false, rel := rel, n := bytesOf ty, al := bytesOf ty, rd := false, d := d } a
    fun s gid l => .red op ty (readOpnd s gid l b) l) ∧
  (∀ h cty sty sp a b, updates (.xred h cty sty sp a b) (updItem h [a, b] [] true sp)
    { sp := sp, acq := false, rel := none, n := cellBytes cty, al := cellAlign cty, rd := false, d := .zero } a
    fun s gid l => .xred cty sty [readOpnd s gid l b]) ∧
  (∀ h ty rnd sp acq d a, updates (.xfin h ty rnd sp acq d a)
    { updItem h [a] [d] false sp with setsFlags := true }
    { sp := sp, acq := acq.isSome, rel := none, n := cellBytes ty, al := cellAlign ty, rd := true, d := d } a
    fun s gid l => .xfin ty (modeOf (grpAt s gid) rnd) l) ∧
  (∀ h, Takes (.boff h false) { hdr := h, cls := .mem, lat := some 1, txBad := true } always (fun _ _ _ => {})
    (fun i ex s => modGrp s i.gid fun g => g.modLanes ex fun _ t =>
      { t with
        lfsr := lfsrSteps 32 t.lfsr, bexp := min (t.bexp + 1) 8
        wait := .park (s.cycle + 1 + (lfsrSteps 32 t.lfsr).toNat % (16 * 2 ^ t.bexp)) })) ∧
  (∀ h, Takes (.boff h true) { hdr := h, cls := .mem, lat := some 1, txBad := true } always (fun _ _ _ => {})
    (fun i ex s => modGrp s i.gid fun g => g.modLanes ex fun _ t => { t with bexp := 0 }))

/-! ## Stream queues and copies -/

/-- SQCFG reads its descriptor as a 64-byte load does, and then binds a queue: HELD, DONE for a stream of no element, or
RUNNING with a context (R114). SQGO starts a HELD
queue (R115); SQSTOP makes a bound queue STOPPING and is free on an unbound one (R116); SQSTAT writes the queue's
word, and .CLR clears OOB (R117). CPY begins one copy for each executing lane whose length is not 0, when the core's
engine has room (R118, R119); CSEAL seals the lanes' batches (R120); CWAIT waits for the copies of a batch (R121);
CPOLL reads 1 for a batch that is complete, 2 for one with a stopped copy, else 0 (R122). -/
def Obligations.StreamsAndCopiesComplete : Prop :=
  (∀ h qn sp a b s i ex d ctx t,
    let it := sqItem h [a, b] [] (some qn.val)
    let lane := (lanes i ex s).headD 0
    let w := (scalarOf t i.gid ex b).toNat
    Issues it s i ex →
    readDesc s i sp lane (scalarOf s i.gid ex a) = .has d t →
    bindFault t i.gid qn.val d w lane = none → freeContext t (grpAt t i.gid).core = some ctx →
    exec (.sqcfg h qn sp a b) s = .next (finishIssue
      (modGrp t i.gid fun g => g.modQueue qn.val fun _ =>
        let q : Queue := { (default : Queue) with
          desc := d, qbase := bindQbase w, logd := bindDepth w, free := 2 ^ bindDepth w }
        if bindHold w then { q with st := .held, ctx := some ctx }
        else if q.total = 0 then { q with st := .done, ctx := none }
        else { q with st := .running, ctx := some ctx }) i it ex {})) ∧
  (∀ h qn a b s i ex,
    let lane := (lanes i ex s).headD 0
    let va := scalarOf s i.gid ex a
    Issues (sqItem h [a, b] [] (some qn.val)) s i ex →
    (grpAt s i.gid).descr = none → descFault s i.gid va = none →
    ownHeld (grpAt s i.gid) (descParts lane va.toNat) 8 = false → 2 ≤ freeEntries s (grpAt s i.gid).core →
    exec (.sqcfg h qn false a b) s = .next (beginDesc s i lane va.toNat)) ∧
  (∀ h qn, Takes (.sqgo h qn) (sqItem h [] [] (some qn.val))
    (fun i _ s => ((grpAt s i.gid).queue qn.val).bound = true) (fun _ _ _ => {})
    (fun i _ s => modGrp s i.gid fun g => g.modQueue qn.val fun q =>
      if q.st ≠ .held then q
      else if q.total = 0 then { q with st := .done, ctx := none } else { q with st := .running })) ∧
  (∀ h qn disc, Takes (.sqstop h qn disc) (sqItem h [] [] (some qn.val))
    (fun i _ s => ((grpAt s i.gid).queue qn.val).bound = false) (fun _ _ _ => {}) unchanged) ∧
  (∀ h qn disc, Takes (.sqstop h qn disc) (sqItem h [] [] (some qn.val))
    (fun i _ s => let q := (grpAt s i.gid).queue qn.val
      q.bound = true ∧ (q.st ≠ .faulted ∨ q.isLoad = true ∨ q.fault = none))
    (fun _ _ _ => { kind := .sqstop qn.val })
    (fun i _ s => modGrp s i.gid fun g => g.modQueue qn.val fun q => stopQueue q g.nextOp disc)) ∧
  (∀ h qn clr d, Takes (.sqstat h qn clr d) { sqItem h [] [d] (some qn.val) with lat := some 4 } always
    (fun i ex s =>
      let q := (grpAt s i.gid).queue qn.val
      { writes := destWrites d ((lanes i ex s).map fun l =>
          (l, BitVec.ofNat 64 (q.filled % 512 + q.free % 512 * 2 ^ 9 + q.st.num * 2 ^ 18 + q.oob.toNat * 2 ^ 21 +
            q.pos % 2 ^ 32 * 2 ^ 32))) })
    (fun i _ s =>
      if clr then modGrp s i.gid fun g =>
        if (g.queue qn.val).oob then g.modQueue qn.val fun q => { q with oob := false } else g
      else s)) ∧
  (∀ h ssp dsp hint a b c s i ex,
    let it := { sqItem h [a, b, c] [] none with writesMem := true }
    let args : List CopyArgs := (lanes i ex s).map fun l =>
      (l, readOpnd s i.gid l a, readOpnd s i.gid l b, readOpnd s i.gid l c)
    let real := args.filter fun x => x.2.2.2 ≠ 0
    let core := (grpAt s i.gid).core
    Issues it s i ex → (∀ x ∈ args, copyFail (launchOf s i.gid) ssp dsp x = none) →
    (coreAt s core).copies.length + real.length ≤ Config.copySlots →
    exec (.cpy h ssp dsp hint a b c) s = .next (finishIssue
      (real.foldl (fun s' x =>
        let y : Copy :=
          { id := (freshId s').1, gid := i.gid, lane := x.1, batch := ((grpAt s i.gid).thread x.1).batch
            src := x.2.1.toNat, dst := x.2.2.1.toNat, len := x.2.2.2.toNat, ssp := ssp, dsp := dsp, hint := hint
            done := 0, req := none, chunk := 0, pubs := [], held := none, stopped := none, unit := 0, spage := none, dpage := none }
        modCore (freshId s').2 core fun c => { c with copies := c.copies ++ [y] }) s) i it ex {})) ∧
  (∀ h d, Takes (.cseal h d) (sqItem h [] [d] none)
    (fun i ex s => ∀ l ∈ lanes i ex s, batchCopies s i.gid l (((grpAt s i.gid).thread l).batch + 1) = [])
    (fun i ex s => { writes := destWrites d ((lanes i ex s).map fun l =>
      (l, ((grpAt s i.gid).thread l).batch.setWidth 64)) })
    (fun i ex s => modGrp s i.gid fun g => g.modLanes ex fun _ t => { t with batch := t.batch + 1 })) ∧
  (∀ h n rel, Takes (.cwait h n rel) (sqItem h [] [] none)
    (fun i ex s => ∀ l ∈ lanes i ex s, ∀ c ∈ batchCopies s i.gid l (batchOf ((grpAt s i.gid).thread l) n.val rel),
      c.stopped = none)
    (fun i ex s => { kind := .batch (((lanes i ex s).flatMap fun l =>
      batchCopies s i.gid l (batchOf ((grpAt s i.gid).thread l) n.val rel)).map (·.id)) }) unchanged) ∧
  (∀ h n rel d, Takes (.cpoll h n rel d) { sqItem h [] [d] none with lat := some 4 } always
    (fun i ex s => { writes := destWrites d ((lanes i ex s).map fun l =>
      let cs := batchCopies s i.gid l (batchOf ((grpAt s i.gid).thread l) n.val rel)
      (l, if cs = [] then 1 else if ∃ c ∈ cs, c.stopped ≠ none then 2 else 0)) }) unchanged)

/-! ## The matrix units -/

/-- MDECL and MDECL.REL declare or release a convergence register at completion (R246, R248); MMA's executing lanes
sign the round of their set, and the last signature, once the leader's control word has been checked and no round that
was complete before waits, enters it in the queue (R249, R255). -/
def Obligations.MatrixRoundsComplete : Prop :=
  (∀ h cv a s i ex ms,
    let it := { matItem h [a] with access := true, scratch := true, track := .load }
    let g := grpAt s i.gid
    let off := scalarOf s i.gid ex a
    let at_ := ((lanes i ex s).headD 0, off.toNat)
    let bank := bankAccess s i.gid (bankLoad 40) [at_]
    Issues it s i ex → mdeclPending s g.quart cv.val = false →
    off.toNat % 8 = 0 → scratchHas (launchOf s i.gid) off.toNat 40 = true →
    scratchBad s g.team off.toNat 40 = false → scratchBlocked s i.gid 40 false [at_] = false →
    declState (cvAt (quartAt s g.quart) cv.val) g.team = false →
    declMembers s i.gid (scratchRead s g.team off.toNat 40) = some ms →
    exec (.mdecl h cv a) s = .next (finishIssue bank.1 i it ex
      { kind := .mdecl cv.val false ms, least := bank.2 })) ∧
  (∀ h cv, Takes (.mdeclRel h cv) (matItem h [])
    (fun i _ s => let g := grpAt s i.gid
      mdeclPending s g.quart cv.val = false ∧ declState (cvAt (quartAt s g.quart) cv.val) g.team = false)
    (fun _ _ _ => { kind := .mdecl cv.val true [] }) unchanged) ∧
  (∀ h ty (cv : Fin 8) (kbm1 : Fin 16) a bs c s i ex,
    let it := { matItem h [a, bs.getD .zero, c] with badOpnd := !isV a || !(bs.all isV), noBanks := true }
    let g := grpAt s i.gid
    let q := quartAt s g.quart
    let r := cvAt q cv.val
    let kb := kbm1.val + 1
    let ls := lanes i ex s
    let words := rowsPer r.members * rowWords ty kb
    let scales := if bs.isSome then rowsPer r.members * scaleWords kb else 0
    let lead := leadOf s r
    let r' := { r with
      st := CvState.signing, ty := ty, kb := kb, bs := bs.isSome
      signed := r.signed ++ signatures s i.gid g.nextOp ls ty kb (rowsPer r.members) a bs c fun x => lead = some x }
    Issues it s i ex → mdeclPending s g.quart cv.val = false → r.st ≠ .free → r.team = g.team →
    (∀ l ∈ ls, (i.gid, l) ∈ signersOf r.members ∧ signatureOf r (i.gid, l) = none) →
    (r.st = .signing → r.ty = ty ∧ r.kb = kb ∧ r.bs = bs.isSome) →
    regNo a + words ≤ (launchOf s i.gid).regs →
    (bs.isSome = true → regNo (bs.getD .zero) + scales ≤ (launchOf s i.gid).regs) →
    (∀ l ∈ ls, lead = some (i.gid, l) → ctlFault s g.quart g.team ty kb bs.isSome (readOpnd s i.gid l c) = none) →
    signPoison g ls (regNo a) words (regNo (bs.getD .zero)) scales = none →
    (r.st = .declared → stagedNow q + stagingOf ty kb bs.isSome ≤ Config.stagingBytes) →
    (allSigned s r' = true → q.ops.length < Config.matrixQueue ∧
      (∀ e ∈ q.cvs, e.1 ≠ cv.val → e.2.st = .signing → allSigned s e.2 = false) ∧
      ∀ x y, leadOf s r' = some x → signatureOf r' x = some y → y.checked = true) →
    exec (.mma h ty cv kbm1 a bs c) s =
      let s1 := modQuart s g.quart fun q => modCv q cv.val fun _ => r'
      .next (finishIssue (if allSigned s r' then enterRound s1 g.quart cv.val else s1) i it ex
        { kind := .signature cv.val, extra := (words + scales + 7) / 8 - 1, setsFlags := allSigned s r' }))

/-- MLDB, MZERO, MLDC and MSTA enter the operations that they name, once their operands pass the checks and the queue
has room (R255, R256, R259 to R261); MDRN enters a drain and arms its port (R264). -/
def Obligations.TileMovesComplete : Prop :=
  (∀ h sp a b c s i ex,
    let it := { matItem h [a, b, c] with access := true, writesMem := true }
    let g := grpAt s i.gid
    let x := scalarOf s i.gid ex c
    let row := bits x.toNat 0 10
    let nw := bits x.toNat 10 11
    let from_ := scalarOf s i.gid ex a
    let by_ := scalarOf s i.gid ex b
    Issues it s i ex → bits x.toNat 21 43 = 0 → nw ≠ 0 → row + nw ≤ (launchOf s i.gid).brows →
    sweepFault s i.gid ((lanes i ex s).headD 0) ⟨sp, from_.toNat, by_.toNat, nw, 8, 8, false⟩ 8 = none →
    exec (.mldb h sp a b c) s =
      let n := (quartAt s g.quart).nextOp
      let o : MatOp :=
        { id := n, team := g.team, gid := i.gid, op := g.nextOp, tiles := [], kind := .mldb sp from_ by_ row nw
          running := false, start := 0, prog := 0, off := 0, req := none, pubs := [], stopped := none, fflags := 0 }
      .next (finishIssue (modQuart s g.quart fun q => { q with loads := q.loads ++ [o], nextOp := n + 1 }) i it ex
        { kind := .matrix [n] })) ∧
  (∀ h a s i ex,
    let it := matItem h [a]
    let g := grpAt s i.gid
    let m := (scalarOf s i.gid ex a).toNat
    let ts := (List.range 16).filter fun t => bits m t 1 = 1
    let phys := ts.filterMap (physTile s g.quart g.team)
    Issues it s i ex → m < 2 ^ 16 → (∀ t ∈ ts, (physTile s g.quart g.team t).isSome = true) →
    (ts = [] ∨ queueFull s i.gid = false) →
    exec (.mzero h a) s =
      let r := phys.foldl (fun acc t =>
        ((enqueue acc.1 i [t] .mzero).1, acc.2 ++ [(enqueue acc.1 i [t] .mzero).2])) (s, ([] : List Nat))
      .next (finishIssue r.1 i it ex { kind := .matrix r.2 })) ∧
  (let moves (ins : Instr) (it : Item) (ty : Ty) (tile : Nat) (al : Nat) (sweep : Word → Word → Sweep)
      (kind : State → Word → Word → MatKind) (a b : Opnd) : Prop :=
    ∀ s i ex ts, Issues it s i ex →
      physTiles s (grpAt s i.gid).quart (grpAt s i.gid).team tile (ty = .f64) = some ts →
      sweepFault s i.gid ((lanes i ex s).headD 0) (sweep (scalarOf s i.gid ex a) (scalarOf s i.gid ex b)) al = none →
      queueFull s i.gid = false →
      exec ins s =
        let r := enqueue s i ts (kind s (scalarOf s i.gid ex a) (scalarOf s i.gid ex b))
        .next (finishIssue r.1 i it ex { kind := .matrix [r.2] })
  (∀ h ty tile sp a b, moves (.mldc h ty tile sp a b) { matItem h [a, b] with access := true } ty tile.val
    (tileBytes ty) (fun x y => ⟨sp, x.toNat, y.toNat, 64, tileBytes ty, tileBytes ty, false⟩)
    (fun _ x y => .mldc ty sp x y) a b) ∧
  (∀ h ty rnd tile sp a b,
    let it (mode : StaMode) : Item :=
      { matItem h [a, b] with access := true, writesMem := true, setsFlags := mode = .overwrite }
    moves (.msta h ty rnd .overwrite tile sp a b) (it .overwrite) ty tile.val (tileBytes ty)
      (fun x y => ⟨sp, x.toNat, y.toNat, 64, tileBytes ty, tileBytes ty, true⟩)
      (fun s x y => .msta ty (modeOf (issuingGroup s) rnd) .overwrite sp x y) a b ∧
    moves (.msta h ty rnd .add tile sp a b) (it .add) ty tile.val 4
      (fun x y => ⟨sp, x.toNat, y.toNat, 64, 4, 4, true⟩)
      (fun s x y => .msta ty (modeOf (issuingGroup s) rnd) .add sp x y) a b ∧
    moves (.msta h ty rnd .xadd tile sp a b) (it .xadd) ty tile.val 64
      (fun x y => ⟨sp, x.toNat, y.toNat, 64, 64, 64, true⟩)
      (fun s x y => .msta ty (modeOf (issuingGroup s) rnd) .xadd sp x y) a b)) ∧
  (∀ h ty rnd dp tile p64 s i ex ts,
    let it := { matItem h [] with lat := some 1 }
    let g := grpAt s i.gid
    Issues it s i ex → (g.drain dp.val).active = false → drainWidth ty = g.width →
    physTiles s g.quart g.team tile.val p64 = some ts → queueFull s i.gid = false →
    exec (.mdrn h ty rnd dp tile p64) s = .next (finishIssue
      (modGrp (enqueue s i ts (.mdrn dp.val)).1 i.gid fun g => g.modDrain dp.val fun _ =>
        { active := true, ty := ty, rnd := modeOf (issuingGroup s) rnd, p64 := p64, moved := 0, taken := 0
          rows := [] }) i it ex {}))

/-- MACQ never waits: it reserves tiles and zeros them, or fails and may make its team the claimant (R266); MREL ends
its team's claim and completes when the reservation has ended (R267). -/
def Obligations.ReservationsComplete : Prop :=
  (∀ h (pd : Fin 8) a, Takes (.macq h pd a) { matItem h [a] with lat := some 8 } always
    (fun i ex s => { writes := (lanes i ex s).map fun l =>
      (⟨l, .p l pd.val, if (acquireTiles s (grpAt s i.gid).quart (grpAt s i.gid).team
        (scalarOf s i.gid ex a).toNat).1 then 1 else 0⟩ : RegWrite) })
    (fun i ex s => modQuart s (grpAt s i.gid).quart fun _ =>
      (acquireTiles s (grpAt s i.gid).quart (grpAt s i.gid).team (scalarOf s i.gid ex a).toNat).2)) ∧
  (∀ h, Takes (.mrel h) (matItem h []) always (fun _ _ _ => { kind := .mrel })
    (fun i _ s => modQuart s (grpAt s i.gid).quart fun q => unclaim q (grpAt s i.gid).team)) ∧
  (∀ s n team k, k ≤ 16 → (launchAt s (teamAt s team).lid).atiles + k ≤ 16 → (quartAt s n).reserved = none →
    k ≤ poolOf s n → (∀ t g, (quartAt s n).claimant = some (t, g) → t = team) →
    acquireTiles s n team k = (true,
      { ((List.range k).map (16 + ·)).foldl zeroTile (quartAt s n) with reserved := some (team, k), claimant := none }))

/-! ## Phasers, fences and the runner network -/

/-- PHREG and PHDROP ask for a change of membership (R297, R299); PHSIG, PHNXT and PHNXT.SPEC signal in lanes that are
not two phases ahead, and begin one release (R295, R301, R303); PHWAIT and PHNXT wait for the phase; PHSTAT reads the
instance (R302). -/
def Obligations.PhasersComplete : Prop :=
  (∀ h mode a s i ex n, Issues (phItem h [a] []) s i ex →
    findPhaser s i.gid (scalarOf s i.gid ex a) none = .found n →
    exec (.phreg h mode a) s = .next (finishIssue (modPhaser s n fun p =>
      putMember p { memberOf p i.gid with pend := some mode }) i (phItem h [a] []) ex {})) ∧
  (∀ h a s i ex n, Issues (phItem h [a] []) s i ex →
    findPhaser s i.gid (scalarOf s i.gid ex a) (some fun _ => true) = .found n →
    exec (.phdrop h a) s = .next (finishIssue (modPhaser s n fun p =>
      putMember p { memberOf p i.gid with pend := some .none }) i (phItem h [a] []) ex {})) ∧
  (∀ h a s i ex n, Issues (phItem h [a] []) s i ex →
    findPhaser s i.gid (scalarOf s i.gid ex a) (some signalsMode) = .found n → farAhead i ex s n = false →
    exec (.phsig h a) s = .next (finishIssue (signalPhase i ex s n).1 i (phItem h [a] []) ex
      { kind := .phaser n false [(signalPhase i ex s n).2] [] })) ∧
  (∀ h a s i ex n, Issues (phItem h [a] []) s i ex →
    findPhaser s i.gid (scalarOf s i.gid ex a) (some fun m => m ≠ .sig) = .found n →
    exec (.phwait h a) s = .next (finishIssue s i (phItem h [a] []) ex
      { kind := .phaser n false [] (waitsOf i ex s n), holds := .all })) ∧
  (∀ h a s i ex n, Issues (phItem h [a] []) s i ex →
    findPhaser s i.gid (scalarOf s i.gid ex a) (some fun m => m = .sigwait) = .found n → farAhead i ex s n = false →
    let r := signalPhase i ex s n
    exec (.phnxt h a) s = .next (finishIssue r.1 i (phItem h [a] []) ex
      { kind := .phaser n false [r.2] (waitsOf i ex r.1 n), holds := .all }) ∧
    exec (.phnxtSpec h a) s = if maySpeculate s i.gid = false then exec (.phnxt h a) s else
      let t := modGrp r.1 i.gid fun g =>
        let g1 := g.modLanes ex fun _ t => { t with wait := .spec (grpAt s i.gid).nextOp }
        if g1.spec.st = .none then { g1 with spec := { g1.spec with st := .arriving, inst := n } } else g1
      .next (finishIssue t i (phItem h [a] []) ex
        { kind := .phaser n true [r.2] (waitsOf i ex t n), holds := .all })) ∧
  (∀ h d a s i ex n,
    let it := { phItem h [a] [d] with specHold := false, least := 20 }
    Issues it s i ex → findPhaser s i.gid (scalarOf s i.gid ex a) none = .found n →
    exec (.phstat h d a) s = .next (finishIssue s i it ex
      { writes := destWrites d ((lanes i ex s).map fun l => (l, phstatWord s i.gid n l)) }))

/-- FENCE waits for the accesses of its executing lanes that are in flight, and holds later ones (R288). GRED adds an
accumulator to the present round of its object, or waits for the next (R313), and with NET = 1 makes its launch
unreplayable (R393); GRES takes the result of the round
before, or waits for it (R314). -/
def Obligations.FencesAndRunnerComplete : Prop :=
  (∀ h kind sc, Takes (.fence h kind sc) { hdr := h, cls := .other, txBad := true, specHold := true } always
    (fun i ex s =>
      { kind := .fence kind sc none (((grpAt s i.gid).ops.filter fun o =>
          o.left &&& ex ≠ 0 && fenceWaits (kind ≠ .acq) (kind ≠ .rel) o).map (·.id))
        holds := if kind = .rel then .stores else .all }) unchanged) ∧
  (∀ h (xa : Fin 8) a s i ex,
    let it := { runItemNet h [a] [] with xas := [xa.val] }
    let w := scalarOf s i.gid ex a
    let n := objNo (lidOf s i.gid) (hObj w)
    let o := objAt s n
    let x := (grpAt s i.gid).acc xa.val
    Issues it s i ex → runnerFault s n w = none →
    (hRound w = o.round.toNat → countBad o (hCount w) = false → mayContribute s n (hCount w) 1 = true →
      exec (.gred h xa a) s = .next (finishIssue (modObj (noteNet s i.gid w) n fun o => contribute o (hCount w) 1
        (BitVec.ofNat 4280 (xaValue x)) (BitVec.ofNat 8 (xaStatus x))) i it ex {})) ∧
    (hRound w = (o.round.toNat + 1) % 2 ^ 16 →
      exec (.gred h xa a) s = .next (finishIssue (noteNet s i.gid w) i it ex
        { kind := .gred n (hRound w) (hCount w) (BitVec.ofNat 4280 (xaValue x)) (BitVec.ofNat 8 (xaStatus x)) }))) ∧
  (∀ h ty rnd d a s i ex,
    let it := { runItemNet h [a] [d] with setsFlags := true }
    let w := scalarOf s i.gid ex a
    let n := objNo (lidOf s i.gid) (hObj w)
    let o := objAt s n
    let m := modeOf (grpAt s i.gid) rnd
    Issues it s i ex → runnerFault s n w = none →
    (∀ r, (hRound w + 1) % 2 ^ 16 = o.round.toNat → o.result = some r →
      exec (.gres h (.typed ty rnd d) a) s = .next (finishIssue s i it ex
        { writes := destWrites d ((lanesOf 64 ex).map fun l =>
            (l, (BitVec.ofNat 64 (xrndOp ty m (xaMake r.1.toNat r.2.toNat)).1 : Word)))
          fflags := (xrndOp ty m (xaMake r.1.toNat r.2.toNat)).2 })) ∧
    (hRound w = o.round.toNat ∨ hRound w = (o.round.toNat + 1) % 2 ^ 16 →
      exec (.gres h (.typed ty rnd d) a) s = .next (finishIssue s i it ex
        { kind := .gres n (hRound w) ty m d none }))) ∧
  (∀ h (x : Fin 8) a s i ex,
    let it := { runItemNet h [a] [.zero] with xas := [x.val], xaFresh := true }
    let w := scalarOf s i.gid ex a
    let n := objNo (lidOf s i.gid) (hObj w)
    Issues it s i ex → runnerFault s n w = none →
    ∀ r, (hRound w + 1) % 2 ^ 16 = (objAt s n).round.toNat → (objAt s n).result = some r →
      exec (.gres h (.whole x) a) s = .next (finishIssue
        (setAcc s i.gid x.val (xaMake r.1.toNat r.2.toNat)) i it ex {}))

/-! ## Transactions -/

/-- TXB and TXB.ORD open a transaction, stop for a token, or write TXSTAT to D, and TXB.ORD in a DETERMINISTIC launch
does not read its index (R337, R340); TXE stops the lanes that are in
a transaction (R341); TXA aborts them with EXPLICIT and its code (R342); TXS reads TXSTAT (R343). -/
def Obligations.TransactionsComplete : Prop :=
  (∀ h d a, let regs := match d with | .v n => [n.val] | _ => []
    Takes (.txb h d) { txItem h [] [d] with txBad := true, specHold := true } always
      (fun i ex s =>
        let r := txbLanes i none s (lanes i ex s)
        let saved := saveTxUndo r.1 i.gid regs (lanes i ex s)
        { writes := destWrites d (r.2.filter fun e => saved.2.contains e.1), kind := .txb })
      (fun i ex s => (saveTxUndo (txbLanes i none s (lanes i ex s)).1 i.gid regs (lanes i ex s)).1) ∧
    let ord (det : Bool) (index : Option Opnd) : Prop :=
      Takes (.txbOrd h d a) { txItem h index.toList [d] with txBad := true, specHold := true }
        (fun i _ s => (launchOf s i.gid).det = det)
        (fun i ex s =>
          let r := txbLanes i (index.map fun a l => readOpnd s i.gid l a) s (lanes i ex s)
          let saved := saveTxUndo r.1 i.gid regs (lanes i ex s)
          { writes := destWrites d (r.2.filter fun e => saved.2.contains e.1), kind := .txb })
        (fun i ex s => (saveTxUndo (txbLanes i (index.map fun a l => readOpnd s i.gid l a) s (lanes i ex s)).1 i.gid
          regs (lanes i ex s)).1)
    ord false (some a) ∧ ord true none) ∧
  (∀ h last, Takes (.txe h last) (txItem h [] []) always (fun _ _ _ => { kind := .txe })
    (fun i ex s => modGrp s i.gid fun g => g.modLanes ex fun _ t =>
      if t.tx.active then { t with wait := .txe (grpAt s i.gid).nextOp last } else t)) ∧
  (∀ h code, Takes (.txa h code) (txItem h [] []) always (fun _ _ _ => {})
    (fun i ex s => abortLanes s i.gid ex 6 code.toNat)) ∧
  (∀ h d, Computes (.txs h d) { txItem h [] [d] with lat := some 4 } .ready d 1
    (fun g l _ => txstat (g.thread l)) fun _ _ _ => 0) ∧
  (∀ l t a, t.tx.retry ≠ .fails → l.det = false →
    txbWay l t (some a) = (if a.toNat < l.next then .order 1 else .opens) ∧
    txbWay l t none = (if t.tx.conf = 8 then .token else .opens)) ∧
  (∀ l t ord, t.tx.retry = .fails → txbWay l t ord = .fails)

/-! ## The system class, P words, and encodings that are not assigned -/

/-- CSRR reads a control register (R382); CSRW writes it at completion (R382); ICINV drops instruction lines of the
group's launch, in the core's cache and in its groups' buffers (R289, R383); L2WAY and L2WAY.Q join the partition's carve
changes (R85); GETTIME reads GT
(R384); MBOX fills a free slot of 4 to 7 (R385); HALT ends the launch (R386). -/
def Obligations.SystemComplete : Prop :=
  (∀ h csrn d, Takes (.csrr h csrn d) { sysItem h [] [d] with privileged := csrPriv csrn.toNat, least := 6 } always
    (fun i ex s => { writes := destWrites d ((lanes i ex s).map fun l => (l, csrRead s i.gid l csrn.toNat)) })
    unchanged) ∧
  (∀ h csrn op d a, Takes (.csrw h csrn op d a)
    { sysItem h [a] [d] with privileged := csrPriv csrn.toNat, txBad := true, specHold := true, least := 6 } always
    (fun i ex s => { kind := .csrw csrn.toNat op (scalarOf s i.gid ex a) d }) unchanged) ∧
  (let drops (i : Issue) (s : State) (covered : Nat → Bool) : State :=
    modCore { s with groups := s.groups.map fun e =>
      if e.2.core = (grpAt s i.gid).core && asidOf s e.1 = asidOf s i.gid then
        (e.1, { e.2 with ibuf := e.2.ibuf.filter fun x => !covered x.1 })
      else e } (grpAt s i.gid).core fun c =>
        { c with icache := c.icache.filter fun e => !(e.1 = asidOf s i.gid && covered e.2.1) }
  (∀ h, Takes (.icinv h none) { sysItem h [] [] with txBad := true } always (fun _ _ _ => {})
    (fun i _ s => drops i s fun line => decide (line * 128 < 2 ^ 52))) ∧
  (∀ h a b, Takes (.icinv h (some (a, b))) { sysItem h [a, b] [] with txBad := true } always (fun _ _ _ => {})
    (fun i ex s => drops i s fun line => (lanes i ex s).any fun l =>
      let lo := (readOpnd s i.gid l a).toNat
      let hi := min (2 ^ 52) (lo + min (2 ^ 24) (readOpnd s i.gid l b).toNat)
      decide (lo < hi) && decide (line * 128 < hi) && decide (lo < line * 128 + 128)))) ∧
  (let joins (w : Nat) (i : Issue) (s : State) : State := modPart s (launchOf s i.gid).part fun p =>
    { p with carveQueue := p.carveQueue ++ [(w, some (i.gid, (grpAt s i.gid).nextOp))] }
  (∀ h d a, Takes (.l2way h d a) { sysItem h [a] [d] with privileged := true, txBad := true } always
    (fun i ex s => { kind := .l2way (min 15 (scalarOf s i.gid ex a).toNat) d })
    (fun i ex s => joins (min 15 (scalarOf s i.gid ex a).toNat) i s)) ∧
  (∀ h d, Takes (.l2wayQ h d) { sysItem h [] [d] with privileged := true, txBad := true } always
    (fun _ _ _ => { kind := .l2way carveQuery d }) (fun i _ s => joins carveQuery i s))) ∧
  (∀ h d, Takes (.gettime h d) { sysItem h [] [d] with least := 12 } always
    (fun i ex s => { writes := destWrites d ((lanes i ex s).map fun l => (l, (BitVec.ofNat 64 (gtOf s) : Word))) })
    unchanged) ∧
  (∀ h d a b s i ex n,
    let it := { sysItem h [a, b] [d] with privileged := true, txBad := true, specHold := true }
    let g := grpAt s i.gid
    let w1 := scalarOf s i.gid ex a
    Issues it s i ex → freeSlot (coreAt s g.core) [4, 5, 6, 7] = some n →
    exec (.mbox h d a b) s =
      let r : MboxRec :=
        { kind := w1.toNat % 128, cause := 0, orig := 0, slot := g.slot, quarter := g.quarter
          core := g.core % Config.coresPerCluster, asid := asidOf s i.gid, w1 := w1
          w2 := scalarOf s i.gid ex b, w3 := 0 }
      let t := modCore s g.core fun c => fillSlot c n r (.mbox i.gid g.nextOp)
      .next (finishIssue (if w1.toNat % 128 = 1 then markUnreplayable t (lidOf t i.gid) else t) i it ex
        { kind := .mbox n d })) ∧
  (∀ h code, Takes (.halt h code) { sysItem h [] [] with privileged := true, txBad := true, specHold := true } always
    (fun _ _ _ => {})
    (fun i _ s => endLaunch (markUnreplayable s (lidOf s i.gid)) (lidOf s i.gid) stHalted 0
      (grpAt s i.gid).xcause.toNat code.toNat))

/-- A P word whose two operations are in the table and break no rule does both from the values its sources had before;
an operation of the shorter latency completes first (R36, R37). An encoding that R40 rejects raises ILLEGAL_OPC once its
scheduler conditions hold. -/
def Obligations.PairedAndUnassignedComplete : Prop :=
  (
  ∀ h op1 op2 d1 a1 b1 d2 b2 s i ex p q,
    let it := pairItem h op1 op2 d1 a1 b1 d2 b2
    Issues it s i ex → pairEntry op1 = some p → pairEntry op2 = some q →
    let vals (o : PairOp) (b : Opnd) := (lanes i ex s).map fun l =>
      (l, (o.f (readOpnd s i.gid l a1) (readOpnd s i.gid l b)).1)
    let flags (o : PairOp) (b : Opnd) := ffAll ((lanes i ex s).map fun l =>
      (o.f (readOpnd s i.gid l a1) (readOpnd s i.gid l b)).2)
    let w1 := destWrites d1 (vals p b1)
    let w2 := destWrites d2 (vals q b2)
    let extra := retainedMiss s (grpAt s i.gid) i.act ex (pairReads a1 b1 b2)
    exec (.pairedWord h op1 op2 d1 a1 b1 d2 b2) s =
      if p.lat = q.lat then .next (finishIssue s i it ex
        { writes := w1 ++ w2, fflags := flags p b1 ||| flags q b2, extra := extra })
      else if p.lat < q.lat then .next (finishIssue (pairEarly s i ex p.lat w1 (flags p b1)) i it ex
        { writes := w2, fflags := flags q b2, extra := extra })
      else .next (finishIssue (pairEarly s i ex q.lat w2 (flags q b2)) i it ex
        { writes := w1, fflags := flags p b1, extra := extra })) ∧
  (∀ why s i, MayIssue (illegalItem s) s i →
    exec (.unassignedEncoding why) s = .next (raiseItem s i (illegalItem s) { code := .illegalOpc }))

/-! # What the events do -/

/-! ## Threads, groups and mailboxes -/

/-- An instruction whose parts are there completes in the lanes that the event names, once its latency has passed and
its group is resident (R15, R358); a CSRW writes its register then (R382), an MDECL its declaration (R248). Promotion
after 64 issue cycles, aging after 32 core cycles, the ends of demotion, sleep and parking (R158, R352, R356, R361):
each when it is due. A thread whose time has not come sleeps on, or stays parked. A deferred record is posted when
slot 0 or 1 is free; a reply is delivered to a full slot not yet answered, and RESUME lets the group go on; one to
another slot is discarded; the control byte clears FULL and REPLIED (R374, R375). -/
def Obligations.CompletionSchedulerAndMailboxEventsComplete : Prop :=
  (∀ s gid op m g o d, mapFind s.groups gid = some g → opOf g op = some o → o.fixed = false →
    g.resident = true → o.due ≤ s.cycle →
    (o.kind = .ready ∨ o.kind = .exact ∨ o.kind = .load d [] ∨ o.kind = .applied d []) → o.left &&& m ≠ 0 →
    exec (.instructionComplete gid op m) s = .next (putGrp s gid (completeOp g o (o.left &&& m)))) ∧
  (∀ s gid op m g o n cop v d, mapFind s.groups gid = some g → opOf g op = some o → o.fixed = false →
    g.resident = true → o.due ≤ s.cycle → o.kind = .csrw n cop v d →
    exec (.instructionComplete gid op m) s = .next (modGrp s gid fun x =>
      completeAll (csrWrite x n (csrNew cop (csrRead s gid 0 n) v))
        { o with writes := destWrites d ((lanesOf 64 o.left).map fun l => (l, csrRead s gid l n)) })) ∧
  (∀ s gid op m g o cv ms, mapFind s.groups gid = some g → opOf g op = some o → o.fixed = false →
    g.resident = true → o.due ≤ s.cycle → o.kind = .mdecl cv false ms →
    exec (.instructionComplete gid op m) s = .next (modGrp (modQuart s (grpAt s gid).quart fun q =>
      modCv q cv fun _ => { (default : CvReg) with st := .declared, team := (grpAt s gid).team, members := ms })
      gid fun x => completeAll x o)) ∧
  (∀ s gid op m g o, mapFind s.groups gid = some g → opOf g op = some o → s.cycle < o.due →
    exec (.instructionComplete gid op m) s = .next s) ∧
  (∀ s gid pc g, mapFind s.groups gid = some g → 64 ≤ mapGet 0 g.counts pc.toNat → pc ∉ g.promoted →
    exec (.pcPromote gid pc) s = .next (putGrp s gid { g with
      promoted := g.promoted ++ [pc]
      threads := g.threads.map fun t =>
        match t.wait with
        | .recon _ => if t.pc = pc then { t with wait := .none } else t
        | _ => t })) ∧
  (∀ s gid g, mapFind s.groups gid = some g → g.waiting = 32 →
    exec (.agingPromote gid) s = .next (putGrp s gid { g with waiting := 33 })) ∧
  (∀ s gid pc g, mapFind s.groups gid = some g → (∃ e ∈ g.lowPcs, e.1 &&& g.activeAt pc ≠ 0 ∧ 64 ≤ e.2) →
    exec (.yieldDemotionEnd gid pc) s = .next (putGrp s gid { g with
      lowPcs := g.lowPcs.filter fun e => !(e.1 &&& g.activeAt pc ≠ 0 && 64 ≤ e.2) })) ∧
  (∀ s gid lane g gt, mapFind s.groups gid = some g → (g.thread lane).wait = .sleep gt →
    exec (.sleepExpiry gid lane) s = .next
      (if gt ≤ gtOf s then modThread s gid lane fun t => { t with wait := .none } else s)) ∧
  (∀ s gid lane g c, mapFind s.groups gid = some g → (g.thread lane).wait = .park c →
    exec (.parkExpiry gid lane) s = .next
      (if c ≤ s.cycle then modThread s gid lane fun t => { t with wait := .none } else s)) ∧
  (∀ s core r w rest n, (coreAt s core).unposted = (r, w) :: rest →
    stillWaits (modCore s core fun c => { c with unposted := rest }) w = true →
    freeSlot (coreAt s core) [0, 1] = some n →
    exec (.escalationPostDeferred core) s =
      .next (postEscalation (modCore s core fun c => { c with unposted := rest }) core r w)) ∧
  (∀ s core slot val, (slotAt (coreAt s core) slot).full = false ∨ (slotAt (coreAt s core) slot).replied = true →
    exec (.mailboxReply core slot val) s = .next s) ∧
  (∀ s core slot g,
    let x := slotAt (coreAt s core) slot
    let t := modCore s core fun c =>
      { c with slots := mapPut c.slots slot { x with reply := 0, replied := true, waiter := .nobody } }
    x.full = true → x.replied = false → x.waiter = .group g → x.record.cause ≠ CauseCode.lease.num →
    heldAt t g slot = true →
    exec (.mailboxReply core slot 0) s = .next (resumeGroup t g)) ∧
  (∀ s core slot full replied, exec (.mailboxControlClear core slot full replied) s = .next (modCore s core fun c =>
    let x := slotAt c slot
    { c with slots := mapPut c.slots slot { x with
      full := x.full && !full, replied := x.replied && !replied
      waiter := if full then .nobody else x.waiter } }))

/-! ## Slices: reads, translation and fills -/

/-- A read request that reaches its slice joins a line fill, or is answered with the line under its lease once it is
there (R77); its answer reaches the core's L1, or the accesses that wait for it (R131, R144). An entry of the eviction
lease table whose time has passed leaves it (R80). A miss is translated from its block's entries or by a walk; a leaf
whose A or D is to be set is swapped in memory first (R56 to R62). With its translation the line is read from HBM and
installed in a free way; in a full set a line that may be chosen, which one is open, is evicted first (R76, R81). -/
def Obligations.SliceReadsAndFillsComplete : Prop :=
  (∀ s req r x, mapFind s.requests req = some r → r.stage = .waiting →
    let k := sliceOf s r.lid r.asid (r.line * 128)
    (sliceAt s k).gated = false → findL2 (sliceAt s k) r.asid r.line = some x → x.place ≠ 2 → x.valid = 0xF#4 →
    readSealed s k r.asid r.line 0xF = false → ownStores s k req r = false → readWaits s k req r false = false →
    r.reader ≠ .walk → (∀ g p l e, r.reader ≠ .irrev g p l e) →
    exec (.sliceFillRequest req) s = .next (answerRead s k req r x)) ∧
  (∀ s req r, mapFind s.requests req = some r → r.stage = .sent → hasEntry s r.core req = true →
    let k := sliceOf s r.lid r.asid (r.line * 128)
    let t := modSlice { s with requests := mapPut s.requests req { r with stage := .waiting } } k fun sl =>
      { sl with waiting := sl.waiting ++ [req] }
    (sliceAt s k).gated = false → findL2 (sliceAt s k) r.asid r.line = none →
    findMiss (sliceAt s k) r.asid r.line = none → readWaits s k req r true = false → r.reader ≠ .walk →
    exec (.sliceFillRequest req) s = .next (startMiss t k r.lid r.asid r.line false false
      (r.hintFirst || match r.reader with | .l1 _ _ _ f => f | _ => false))) ∧
  (∀ s k (asid : BitVec 16) line exp, (asid.toNat, line, exp) ∈ (sliceAt s k).leases → exp ≤ gtOf s →
    exec (.evictionEntryDiscard k asid line) s = .next (modSlice s k fun sl => { sl with
      leases := sl.leases.filter fun e => !(e.1 = asid.toNat && e.2.1 = line && e.2.2 ≤ gtOf s) })) ∧
  (∀ s req r d stop lc vers poison g p l, mapFind s.requests req = some r →
    r.stage = .answered d stop lc vers poison → r.reader = .noAlloc g p l → fillBefore s req r = false →
    exec (.fillReturn req) s =
      let t := serveAll s req d vers poison
      .next { t with requests := mapErase t.requests req }) ∧
  (∀ s req r d stop lc vers poison g p l first t, mapFind s.requests req = some r →
    r.stage = .answered d stop lc vers poison → r.reader = .l1 g p l first → fillBefore s req r = false →
    fillL1 s g r d stop lc vers poison first = some t →
    exec (.fillReturn req) s =
      let u := serveAll t req d vers poison
      .next { u with requests := mapErase u.requests req }) ∧
  (∀ s k (asid : BitVec 16) (va : Word) wr m t, findMiss (sliceAt s k) asid.toNat (va.toNat / 128) = some m →
    m.pa = none → m.failed = 0 → (blockAt s (blockNo k)).updates = [] →
    tlbHit s k asid.toNat (va.toNat / 128) m.write = some t →
    exec (.tlbWalk k asid va wr) s = .next (resolveMiss s k asid.toNat (va.toNat / 128) t)) ∧
  (∀ s k (asid : BitVec 16) (va : Word) wr m n e epa large,
    let line := va.toNat / 128
    let t := walkReads s k asid.toNat line
    findMiss (sliceAt s k) asid.toNat line = some m → m.pa = none → m.failed = 0 →
    (blockAt s (blockNo k)).updates = [] → tlbHit s k asid.toNat line m.write = none →
    walk t (slicePart t k) asid.toNat (line * 128) = .leaf n e epa large →
    entryAllows t k asid.toNat line e m.write = true → adBits e m.write = e →
    exec (.tlbWalk k asid va wr) s =
      let x := leafEntry t k asid.toNat line e epa large
      .next (resolveMiss (addTlb t k x) k asid.toNat line x)) ∧
  (∀ s k (asid : BitVec 16) (va : Word) u rest, (blockAt s (blockNo k)).updates = u :: rest →
    u.slice = k → u.asid = asid.toNat → u.va / 128 = va.toNat / 128 →
    let s1 := countAccess s u.part (dieOf k) u.entryPa
    readEntry s1 u.part u.entryPa = some u.old.toNat → pteV u.new.toNat = true → pteLeaf u.new.toNat = true →
    exec (.adCompareSwap k asid va) s =
      let put := match homeOf (partAt s1 u.part) u.entryPa with
        | some h => homeWriteLE s1 u.part h 8 u.new.toNat
        | none => s1
      let t := modBlock put (blockNo k) fun x => { x with updates := rest }
      let x := leafEntry t k asid.toNat (va.toNat / 128) u.new.toNat u.entryPa u.large
      .next (resolveMiss (addTlb t k x) k asid.toNat (va.toNat / 128) x)) ∧
  (∀ s k (asid : BitVec 16) line m pa a way, findMiss (sliceAt s k) asid.toNat line = some m → m.pa = some pa →
    homeOf (partAt s (slicePart s k)) pa = some (.hbm a) → m.nofill = false → m.place ≠ 2 →
    exposedHeld s a true = [] → findL2 (sliceAt s k) asid.toNat line = none →
    freeWay s k asid.toNat line = some way →
    exec (.memoryFillReturn k asid line) s =
      let t := correctLine (countAccess s (slicePart s k) (dieOf k) pa) a
      .next (installLine t k way m pa 0xF#4 (memPoison t (slicePart s k) pa) (memLine t (slicePart s k) pa))) ∧
  (∀ s k (asid : BitVec 16) line m pa a x, findMiss (sliceAt s k) asid.toNat line = some m → m.pa = some pa →
    homeOf (partAt s (slicePart s k)) pa = some (.hbm a) → m.nofill = false →
    exposedHeld s a true = [] → findL2 (sliceAt s k) asid.toNat line = none →
    freeWay s k asid.toNat line = none →
    (victimLines s k asid.toNat line)[Config.freeChoice s.free % (victimLines s k asid.toNat line).length]? = some x →
    exec (.memoryFillReturn k asid line) s =
      let t := { s with free := s.free + 1 }
      .next (((evictLine t k x).map (·.1)).getD s)) ∧
  (∀ s k asid line, ∀ x ∈ victimLines s k asid line, x ∈ (sliceAt s k).lines ∧ mayEvict s k x = true ∧
    sliceSet x.asid x.line = sliceSet asid line)

/-- A line that may be chosen leaves its slice once its dirty sectors are written back, and its lease is kept (R80,
R81). A write-back goes where its block's entry, or a walk with the write permission, says (R59), and the entries that
lie under the sectors written are forgotten (R60). The management core's frames enter the snapshot pool; with none, the launches that wait become unreplayable
(R70). A release goes on when the publications it waits for have been applied: its dirty bytes leave, its markers are
answered, it ends (R281); a residency probe is answered, and a resident page is pinned (R65, R68). -/
def Obligations.WritebacksAndReleasesComplete : Prop :=
  (∀ s k (asid : BitVec 16) line x t, findL2 (sliceAt s k) asid.toNat line = some x → mayEvict s k x = true →
    writeBack s k x = some (t, true) →
    exec (.writeback k asid line) s = .next (keepLease (dropLine (cleanEvicts t x) k x.asid x.line) k x)) ∧
  (∀ s k x, x.dirty = 0 → writeBack s k x = some (s, true)) ∧
  (∀ s k x e, tlbHit s k x.asid x.line true = some e → findMiss (sliceAt s k) x.asid x.line = none →
    writeTarget s k x = some (if pteW e.entry.toNat = true then .inr (entryPaOf e x.line)
      else .inl (startMiss s k x.lid x.asid x.line true true false))) ∧
  (∀ s k x, tlbHit s k x.asid x.line true = none → findMiss (sliceAt s k) x.asid x.line = none →
    writeTarget s k x = some (.inl (startMiss s k x.lid x.asid x.line true true false))) ∧
  (∀ s k x t, x.dirty ≠ 0 → writeTarget s k x = some (.inl t) → writeBack s k x = some (t, false)) ∧
  (∀ s k x pa a t, x.dirty ≠ 0 → writeTarget s k x = some (.inr pa) →
    homeOf (partAt s (slicePart s k)) pa = some (.hbm a) →
    snapshots pa s (snapLaunches s (slicePart s k) x.asid (x.line * 128)) = (t, none) →
    writeBack s k x =
      let u := homeWriteMask (forgetSectors (countAccess t (slicePart s k) (dieOf k) pa) a x.dirty) (slicePart s k)
        (.hbm a) x.data.toNat (bytesOfSectors x.dirty).toNat 0 128
      some (modLine (putPoison u a x.dirty x.poison) k x.asid x.line fun y => { y with dirty := 0 }, true)) ∧
  (∀ s part frames, exec (.snapshotPoolRefill part frames) s =
    let t := modPart s part fun p => { p with pool := p.pool ++ frames }
    .next { t with launches := t.launches.map fun e =>
      if e.2.part = part && e.2.snapAsk then
        (e.1, { e.2 with snapAsk := false, unrepl := e.2.unrepl || frames.isEmpty })
      else e }) ∧
  (∀ s rel r, mapFind s.releases rel = some r → allApplied s r.pubs = true → r.stage = .sent → r.markers = [] →
    exec (.releaseComplete rel) s = .next (afterRelease s rel r)) ∧
  (∀ s rel r, mapFind s.releases rel = some r → allApplied s r.pubs = true → r.stage = .waiting →
    r.publishes = false → exec (.releaseComplete rel) s = .next (afterRelease s rel r)) ∧
  (∀ s rel r, mapFind s.releases rel = some r → allApplied s r.pubs = false →
    exec (.releaseComplete rel) s = .next s) ∧
  (∀ s rel die r, mapFind s.releases rel = some r → r.stage = .sent → die ∈ r.markers →
    (∀ e ∈ s.pubs, e.2.sp = true ∨ e.2.sender.counted ≠ some r.gid ∨ dieOf (pubSlice s e.2) ≠ die ∨
      r.mark ≤ e.2.seq ∨ e.2.stage = .held) →
    exec (.fenceMarker rel die) s =
      .next (setRelease s rel { r with markers := r.markers.filter (· ≠ die) })) ∧
  (∀ s id p, mapFind s.probes id = some p → p.answered = none → hasEntry s p.core id = true →
    let asid := (launchAt s p.lid).asid
    let k := sliceOf s p.lid asid (p.page * 65536)
    let t := if (tlbHit s k asid (p.page * 65536 / 128) false).isSome then s
      else walkReads s k asid (p.page * 65536 / 128)
    exec (.residencyProbe id) s =
      let r := residency t p.lid asid (p.page * 65536)
      let u := if r = .yes then pinPage t p.lid p.page else t
      .next { u with probes := mapPut u.probes id { p with answered := some r } })

/-! ## Slices: operations -/

/-- An operation that arrives waits at its slice for its turn (R78, R152). Each kind is applied once its lines are
ready: the crucible acts on the bytes, and the operation leaves with its result (R78, R82, R154 to R157, R261). What
the crucible does: CAS writes the new value if the old one is as expected and returns the old one; RED combines; XRED
adds exactly; XFIN rounds and writes nothing (R154 to R157). -/
def Obligations.SliceOperationsComplete : Prop :=
  (
  let applies (ev : Nat → Nat → Instr) (ok : SliceKind → Prop) : Prop :=
    ∀ s k id p, mapFind s.pubs id = some p → ok p.kind → p.stage = .queued → p.sp = false → pubSlice s p = k →
      (sliceAt s k).gated = false → (sliceAt s k).busy ≤ s.cycle → itsTurn s k id p = true →
      readyLines s k (ownLock s id) (touchesOf p) = .yes → p.poison = 0 → readsPoison s k p = false → isShadow s p.lid = false →
      exec (ev k id) s =
        let r := crucible (modSlice s k fun x => { x with busy := s.cycle + occupancy p.kind }) k p
        .next (leavePub r.1 k id p r.2)
  (∀ s id p, mapFind s.pubs id = some p → p.stage = .travelling → p.sp = false → behind s p = false →
    (sliceAt s (pubSlice s p)).gated = false → fenceOf s p = none → hasEntry s p.core p.seq = true →
    (∃ d m, p.kind = .write d m) →
    exec (.publicationArrive id) s = .next (modSlice { s with
      pubs := mapPut s.pubs id { p with stage := .queued } } (pubSlice s p) fun sl =>
        { sl with waiting := sl.waiting ++ [id] })) ∧
  applies .writeApply (fun k => ∃ d m, k = .write d m) ∧
  applies .crucibleCas (fun k => ∃ ty e n l, k = .cas ty e n l) ∧
  applies .crucibleRed (fun k => ∃ op ty v l, k = .red op ty v l) ∧
  applies .crucibleXred (fun k => ∃ c t vs, k = .xred c t vs) ∧
  applies .crucibleXfin (fun k => ∃ ty m l, k = .xfin ty m l) ∧
  applies .tileAddOnStore (fun k => ∃ x vs, k = .tileAdd x vs)) ∧
  (∀ s k p ty e n l, p.kind = .cas ty e n l →
    let w := sliceRead s k p.asid p.va (bytesOf ty)
    let t := sliceWrite s k p.lid p.asid p.va (bytesOf ty) (n.toNat % 2 ^ (8 * bytesOf ty)) (gtOf s)
    crucible s k p =
      if w = e.toNat % 2 ^ (8 * bytesOf ty) then
        (match p.sender.group with | some g => clearBackoff t g l | none => t, some (l, oldValue ty w, 0))
      else (s, some (l, oldValue ty w, 0))) ∧
  (∀ s k p op ty v l, p.kind = .red op ty v l →
    let w := sliceRead s k p.asid p.va (bytesOf ty)
    crucible s k p = (sliceWrite s k p.lid p.asid p.va (bytesOf ty) (redApply op ty w v.toNat) (gtOf s),
      some (l, oldValue ty w, 0))) ∧
  (∀ ty w v, redApply .add ty w v = (w + v % 2 ^ (8 * bytesOf ty)) % 2 ^ (8 * bytesOf ty)) ∧
  (∀ s k p cell src vs, p.kind = .xred cell src vs →
    crucible s k p = (sliceWrite s k p.lid p.asid p.va (cellBytes cell)
      (vs.foldl (cellAdd cell src) (sliceRead s k p.asid p.va (cellBytes cell))) (gtOf s), none)) ∧
  (∀ s k p ty m l, p.kind = .xfin ty m l →
    let r := cellRound ty m (sliceRead s k p.asid p.va (cellBytes ty))
    crucible s k p = (s, some (l, BitVec.ofNat 64 r.1, r.2)))

/-! ## The host's link -/

/-- Snoops of the host (R89). With no other access waiting, one on a half that no lease, floor, hold or lock keeps is
answered at once: SnpInv takes the half away, SnpData leaves it shared, SnpCur changes nothing; data held in M go with
the answer. One that may not be answered waits, as SnpInv does for an operation that reached the half before it (R78).
The host's reads and writes of exposed frames (R91): with no other
access waiting and no dirty copy or full directory in the way, a read of up to a half answers with HBM's bytes and
enters the half in the directory; a write drops the copies, whose leases are over, and writes HBM, and a request for
ownership drops them and answers with the half. Outside every
exposed range both stop. The host's answers: a half it was asked for arrives, under the bytes kept for a merge (R87,
R92); it gives up a half of an exposed frame, or holds it shared (R91). -/
def Obligations.HostLinkCompletes : Prop :=
  let quiet (s : State) (o : HostOp) : Prop := s.hostOps = [] ∧ s.hostBefore = [] ∧ hostEarlier s o = []
  let done (s : State) : State := { s with hostOps := [], hostBefore := [] }
  let sealed (s : State) (a : Nat) (e : Nat × L2Line) : Bool :=
    readSealed s e.1 e.2.asid e.2.line (BitVec.ofNat 4 (3 * 4 ^ (a / 64 % 2)))
  (∀ s hpa, quiet s (.snpInv hpa) → (∀ e ∈ holdersOf s (hpa / 64), e.2.1.expiry ≤ gtOf s ∧
      (sliceAt s e.1).floor0 ≤ gtOf s ∧ e.2.1.hold ≤ s.cycle ∧ halfLocked s e.1 e.2.1 e.2.2 true = false) →
    exec (.snpInv hpa) s = .next (done (setHolders (answerSnoop { s with hostOps := [.snpInv hpa] } hpa
      (holdersOf s (hpa / 64)) "RspIHitSE" "RspIFwdM" false) (holdersOf s (hpa / 64)) loseHalf))) ∧
  (∀ s hpa, quiet s (.snpData hpa) → (∀ e ∈ holdersOf s (hpa / 64), e.2.1.hold ≤ s.cycle ∧
      (e.2.1.mesi e.2.2 = .m → halfLocked s e.1 e.2.1 e.2.2 false = false)) →
    exec (.snpData hpa) s = .next (done (setHolders (answerSnoop { s with hostOps := [.snpData hpa] } hpa
      (holdersOf s (hpa / 64)) "RspSHitSE" "RspSFwdM" false) (holdersOf s (hpa / 64)) shareHalf)) ∧
    exec (.snpCur hpa) s = .next (done (answerSnoop { s with hostOps := [.snpCur hpa] } hpa
      (holdersOf s (hpa / 64)) "RspVHitV" "RspVFwdV" true))) ∧
  (∀ s hpa e, quiet s (.snpInv hpa) → e ∈ holdersOf s (hpa / 64) → gtOf s < e.2.1.expiry →
    exec (.snpInv hpa) s = .next { s with hostOps := [.snpInv hpa] }) ∧
  (∀ s hpa e, s.hostOps = [] → s.hostBefore = [] → e ∈ holdersOf s (hpa / 64) → e.2.1.ask e.2.2 = none →
    (∃ id ∈ waitersOf s e.1 e.2.1.asid e.2.1.line, id ∈ hostEarlier s (.snpInv hpa)) →
    exec (.snpInv hpa) s = .next { s with
      hostOps := [.snpInv hpa], hostBefore := [(.snpInv hpa, hostEarlier s (.snpInv hpa))] }) ∧
  (∀ s hpa n part a, quiet s (.read hpa n) → 0 < n → n ≤ 64 - hpa % 64 → exposed s (64 * (hpa / 64)) ≠ none →
    exposed s hpa = some (part, a) → (∀ e ∈ copiesOf s a, e.2.dirty = 0 ∧ sealed s a e = false) →
    (s.biDir.length < Config.biDirectory ∨ ∃ e ∈ s.biDir, e.1 = a / 64) →
    exec (.hostMemRead hpa n) s =
      let t := enterDir (countHost (correctLine { s with hostOps := [.read hpa n] } a) a) a hpa false
      .next (done { t with
        toHost := t.toHost ++ [.readData hpa (memReadBytes t.hbm a n)
          (bytePoison t a || bytePoison t (a + n - 1))] })) ∧
  (∀ s hpa bytes part a, quiet s (.write hpa bytes) → 0 < bytes.length → bytes.length ≤ 64 - hpa % 64 →
    exposed s (64 * (hpa / 64)) ≠ none →
    exposed s hpa = some (part, a) → (∀ e ∈ copiesOf s a, e.2.dirty = 0 ∧ mayInvalidate s e.1 e.2 = true) →
    (s.biDir.length < Config.biDirectory ∨ ∃ e ∈ s.biDir, e.1 = a / 64) →
    exec (.hostMemWrite hpa bytes) s =
      let t := (bytes.zipIdx).foldl (fun s e => homeWrite s part e.1 (.hbm (a + e.2)))
        (forgetEntries (enterDir (countHost ((copiesOf s a).foldl (fun s e => dropLine s e.1 e.2.asid e.2.line)
          { s with hostOps := [.write hpa bytes] }) a) a hpa true) a bytes.length)
      let whole := maskOf 4 ((List.range 4).filter fun i =>
        a ≤ a / 128 * 128 + 32 * i && a / 128 * 128 + 32 * i + 32 ≤ a + bytes.length)
      .next (done { putPoison t a whole 0 with toHost := t.toHost ++ [.written hpa] })) ∧
  (∀ s hpa part a, quiet s (.own hpa) → exposed s hpa = some (part, a) →
    (∀ e ∈ copiesOf s a, e.2.dirty = 0 ∧ mayInvalidate s e.1 e.2 = true) →
    (s.biDir.length < Config.biDirectory ∨ ∃ e ∈ s.biDir, e.1 = a / 64) →
    arriveHost s [.own hpa] =
      let t := correctLine (enterDir (countHost ((copiesOf s a).foldl (fun s e => dropLine s e.1 e.2.asid e.2.line)
        { s with hostOps := [.own hpa] }) a) a hpa true) a
      let b := a / 64 * 64
      done { t with
        toHost := t.toHost ++ [.readData (hpa / 64 * 64) (memReadBytes t.hbm b 64)
          (bytePoison t b || bytePoison t (b + 32))] }) ∧
  (∀ s hpa n, 0 < n → exposed s (64 * (hpa / 64)) = none →
    exec (.hostMemRead hpa n) s = .fault (.unmappedHostAccess hpa)) ∧
  (∀ s hpa bytes, bytes ≠ [] → exposed s (64 * (hpa / 64)) = none →
    exec (.hostMemWrite hpa bytes) s = .fault (.unmappedHostAccess hpa)) ∧
  (∀ s pa w, s.biWait.find? (fun w => w.1 = pa / 64) = some w →
    exec (.biResponse pa) s = .next { s with
      biWait := s.biWait.filter (· ≠ w)
      biDir := if w.2 then s.biDir.filter fun e => e.2.1 ≠ w.1
        else s.biDir.map fun e => if e.2.1 = w.1 then (e.1, e.2.1, false) else e }) ∧
  (∀ s k hpa d own x i,
    (sliceAt s k).lines.findSome? (fun x => ((List.range 2).find? fun i => x.place = 2 && hostHalf x.pa + i = hpa / 64 &&
      (x.ask i).isSome).map fun i => (x, i)) = some (x, i) →
    exec (.cxlReadResponse k hpa d own) s =
      let hold := if x.ask i = some true && own && atomicWaits s k x then s.cycle + 12 else x.hold
      .next (modLine { s with hostMem := memWriteLE s.hostMem (hpa / 64 * 64) 64 d.toNat } k x.asid x.line
        fun y => takeHalf y i d own hold))

/-! ## Streams and copies -/

/-- The line port (R108): a line that a stream context has asked for arrives in the entries that need it (R96, R104),
one of a copy goes on to its destination (R118), one of a matrix transfer to its operation. A client's turn sends its
next request, and the steps of its entries that need no request have been made before it. The head entry of an outbound queue leaves once its writes are applied (R96); a stopping queue that has
drained is unbound (R116); a copy whose last byte has been applied frees its slot (R118, R119). -/
def Obligations.StreamAndCopyEventsComplete : Prop :=
  (∀ s core req r d a b c, mapFind s.requests req = some r → r.stage = .answered d a b c 0 →
    let t := { s with requests := mapErase s.requests req }
    (∀ gid q, r.reader = .stream gid q → arrivalBlocked s gid q r.line = false →
      exec (.streamReadReturn core req) s = .next (streamArrives t gid q r.line d 0)) ∧
    (∀ n, r.reader = .copy n → (∀ y, copyAt s r.core n = some y → copyBlocked s y y.chunk true = false) →
      exec (.streamReadReturn core req) s = .next (copyArrives t r.core n d 0)) ∧
    (∀ co q op, r.reader = .matrix co q op →
      exec (.streamReadReturn core req) s = .next (matrixReturn t (quartNo co q) op d))) ∧
  (∀ s core c t, advanceContexts s core = none → (coreAt s core).portCycle ≠ some s.cycle →
    let k := (coreAt s core).rr % (clientsOf s core).length
    (clientsOf s core)[k]? = some c → serveClient s core c = some t →
    exec (.streamElementRequest core) s =
      .next (modCore t core fun c => { c with rr := k + 1, portCycle := some s.cycle })) ∧
  (∀ s core, advanceContexts s core = none → (coreAt s core).portCycle = some s.cycle →
    exec (.streamElementRequest core) s = .next s) ∧
  (∀ s core t, advanceContexts s core = some t →
    exec (.streamElementRequest core) s = .next ((portRequest t core).getD t)) ∧
  (∀ s core ctx gid qn e es, contextOf s core ctx = some (gid, qn) → ((grpAt s gid).queue qn).outs = e :: es →
    e.complete = true → allApplied s e.pubs = true →
    exec (.streamWriteApplied core ctx) s = .next (modGrp s gid fun g => g.modQueue qn fun q =>
      let x := { q.forgetTaken e.k with
        outs := es, filled := q.filled - 1, free := q.free + 1, pos := if q.kind = 4 then q.pos + 1 else q.pos }
      if x.entriesOf g.width ≤ e.k + 1 ∧ x.st = .running then { x with st := .done, ctx := none } else x)) ∧
  (∀ s gid qn g, mapFind s.groups gid = some g → (g.queue qn).st = .stopping → drained s gid qn = true →
    exec (.streamStopComplete gid qn) s = .next (modGrp s gid fun g =>
      let x := { g with queues := mapErase g.queues qn }
      if x.live = 0 then stopQueues x else x)) ∧
  (∀ s core id c, copyAt s core id = some c → c.req = none → c.stopped = none → c.pubs = [] → c.len ≤ c.done →
    exec (.copyComplete core id) s =
      .next (modCore s core fun x => { x with copies := x.copies.filter fun y => y.id ≠ id }))

/-! ## The matrix units' events -/

/-- A round whose signers are complete enters the queue in turn (R249); an MMA starts when the array and its tile are
free, and 24 core cycles after its last product the tile holds, for each signature's rows and each column, the blocks
added in order, each rounded once, and each member group has the flags (R251 to R255). MZERO zeros its tile four core
cycles after it starts; a transfer to or from memory ends when its last row or column is handled and its writes have
been applied, and between scratchpad and tile the words go a free number at a time (R256, R259 to R261); a drain moves one row in two core cycles, at most two ahead (R264). A reservation
ends once its team has executed MREL and no queued operation names a reserved tile, or has no thread left there and no
queued operation (R267, R271); a claim ends after 1,024 GT ticks without a MACQ (R266). -/
def Obligations.MatrixEventsComplete : Prop :=
  (∀ s core qn cv,
    let n := quartNo core qn
    let q := quartAt s n
    let c := cvAt q cv
    ∀ y k, c.st = .signing → (leadOf s c).bind (signatureOf c) = some y → y.checked = true → allSigned s c = true →
    c.complete = some k → (∀ e ∈ q.cvs, ∀ j, e.2.complete = some j → k ≤ j) →
    (c.void = true ∨ q.ops.length < Config.matrixQueue) →
    exec (.matrixQueueEnter core qn cv) s = .next (enterRound s n cv)) ∧
  (∀ s core qn o,
    let n := quartNo core qn
    nextMma s (quartAt s n) = some o → mmaPoisoned s n (quartAt s n) o = false →
    exec (.mmaStart core qn) s = .next (modQuart s n fun q => modMatOp q o.id fun x =>
      let old := (mmaWindow s n o).map fun k => (k, ([] : List Word))
      { x with running := true, start := s.cycle, kind := match x.kind with
        | .mma ty kb bs ctl signed members _ => .mma ty kb bs ctl signed members old
        | k => k })) ∧
  (∀ s core qn id o ty kb bs ctl signed members old t words,
    let n := quartNo core qn
    (quartAt s n).ops.find? (fun o => o.id = id && o.running && o.off = 0) = some o →
    o.kind = .mma ty kb bs ctl signed members old → o.start + mmaCycles ty (kb - o.prog) + 24 ≤ s.cycle →
    windowWords s (quartAt s n) old = (t, words) →
    exec (.mmaComplete core qn id) s =
      let es := mmaResult (quartAt s n) o ((teamAt t o.team).rowBase n) kb words
      let ff := ffAll (es.map fun e => e.2.2.2) ||| o.fflags
      .next (members.foldl (fun s m => modGrpIf s m.1 fun g => { g with fflags := g.fflags ||| ff })
        (modQuart t n fun q => dropMatOp (es.foldl (fun q e => setElem q o.tiles e.1 e.2.1 e.2.2.1) q) id))) ∧
  (∀ s core qn id o,
    let n := quartNo core qn
    matOpAt (quartAt s n) id = some o → o.kind = .mzero → matReady s (quartAt s n) o = true →
    exec (.matrixMemoryOpComplete core qn id) s = .next
      (if o.running = false then modQuart s n fun q => modMatOp q id fun o =>
        { o with running := true, start := s.cycle }
      else if s.cycle < o.start + 4 then s
      else endMatrix (modQuart s n fun q => o.tiles.foldl zeroTile q) n o)) ∧
  (∀ s core qn id o w,
    let n := quartNo core qn
    matOpAt (quartAt s n) id = some o → sweepOf o.kind = some w → w.sp = false → 64 ≤ o.prog → o.req = none →
    allApplied s o.pubs = true →
    exec (.matrixMemoryOpComplete core qn id) s = .next (endMatrix s n o)) ∧
  (∀ s core qn id o w,
    let n := quartNo core qn
    matOpAt (quartAt s n) id = some o → sweepOf o.kind = some w → w.sp = true →
    (64 ≤ o.prog → exec (.matrixMemoryOpComplete core qn id) s = .next (endMatrix s n o)) ∧
    (o.prog < 64 → matReady s (quartAt s n) o = true → rowPoisoned s (quartAt s n) o w = false →
      let left := w.count - o.off / w.step
      let k := left - Config.freeChoice s.free % left
      let t := { s with free := s.free + 1 }
      spBlocked t o w k = false →
      exec (.matrixMemoryOpComplete core qn id) s = .next (modQuart (spPart t n o w k) n fun q =>
        modMatOp q o.id fun o => o.passed w (w.step * k)))) ∧
  (∀ s gid dp o,
    let g := grpAt s gid
    let q := quartAt s g.quart
    let d := g.drain dp
    q.ops.find? (fun o => o.gid = gid && o.kind = .mdrn dp) = some o → switchingFor s o = false →
    matReady s q o = true → d.rows.length < 2 → (o.running = true → o.start + 2 ≤ s.cycle) →
    exec (.drainRowMove gid dp) s = .next (modQuart (modGrp s gid fun x => x.modDrain dp fun y =>
        { y with moved := y.moved + 1, rows := y.rows ++ [drainRow q o.tiles d g.width d.moved] }) g.quart fun q =>
      if d.moved + 1 = 64 then dropMatOp q o.id
      else modMatOp q o.id fun o => { o with running := true, start := s.cycle })) ∧
  (∀ s core qn team k,
    let n := quartNo core qn
    (quartAt s n).reserved = some (team, k) →
    ((∃ e ∈ s.groups, e.2.team = team ∧ e.2.quart = n ∧ ∃ o ∈ e.2.ops, o.kind = .mrel) ∧
        (∀ o ∈ (quartAt s n).ops, ∀ t ∈ o.tiles, t < 16) ∨
      (∀ e ∈ s.groups, e.2.team = team → e.2.quart = n → e.2.live = 0) ∧
        ∀ o ∈ (quartAt s n).ops ++ (quartAt s n).loads, o.team ≠ team) →
    exec (.reservationRelease core qn) s = .next (modQuart s n fun q =>
      { q with reserved := none, cells := q.cells.filter fun e => e.1 < 4096 * 16
               cellPoison := q.cellPoison.filter fun k => k < 4096 * 16 })) ∧
  (∀ s core qn team gt,
    let n := quartNo core qn
    (quartAt s n).claimant = some (team, gt) →
    (gt + 1024 ≤ gtOf s ∨ ∀ e ∈ s.groups, e.2.team = team → e.2.live = 0) →
    exec (.claimantExpiry core qn) s = .next (modQuart s n fun q => { q with claimant := none }))

/-! ## The ends of phases, rounds and transactions -/

/-- A phase whose signallers have signalled ends at its time: its number advances, changes apply, and each group that
speculates commits or begins to roll back (R296 to R298, R303 to R308); while none speculates nothing else happens. A
rollback restores the threads at the items after their PHNXT.SPEC (R308), where a context switch that caused it has them
wait for the phase again (R309). Contributions to the runner network (R311 to R315): a GRED
that waited for its round adds to it; a GRES takes the result of its round; a contribution from another device adds to
a joined object's present round. -/
def Obligations.PhaseAndRunnerEventsComplete : Prop :=
  (∀ s n p due, mapFind s.phasers n = some p → p.due = some due → due ≤ s.cycle → phaseOver s p = true →
    speculators s n = [] →
    exec (.phaseEnd n) s =
      let t := { s with groups := s.groups.map fun e =>
        if e.2.spec.inst = n && e.2.spec.st = .arriving then (e.1, endSpec e.2) else e }
      .next (p.members.foldl (applyPend (nextPhase t p)) { t with
        phasers := mapPut t.phasers n (nextPhase t p) })) ∧
  (∀ s n p, mapFind s.phasers n = some p → phaseOver s p = false → exec (.phaseEnd n) s = .next s) ∧
  (∀ s p, (nextPhase s p).ph = (p.ph + 1) % 2 ^ 32) ∧
  (∀ s gid g, mapFind s.groups gid = some g → g.spec.rollback = true →
    (∀ o ∈ g.ops, o.id < g.spec.firstOp) →
    ∃ t, exec (.specRollback gid) s = .next t ∧ (grpAt t gid).s = g.spec.savedS ∧ (grpAt t gid).spec = default ∧
      ∀ l, l < g.threads.length → hasBit g.spec.arrived l = true →
        let y := (grpAt t gid).thread l
        y.p = mapGet 0 g.spec.savedP l ∧ y.draw = mapGet 0 g.spec.savedDraw l ∧
        y.recon = mapGet [] g.spec.savedRecon l ∧ y.pc = (mapGet (0, none) g.spec.resume l).1 ∧
        y.wait = if g.spec.st = .validating then .none else .spec g.nextOp) ∧
  (∀ s gid op g x n round count val st, mapFind s.groups gid = some g → opOf g op = some x →
    x.kind = .gred n round count val st → (objAt s n).round.toNat = round → countBad (objAt s n) count = false →
    ((objAt s n).got + 1 = count → gresPending s n = false) →
    exec (.gredDeferredContribute gid op) s =
      .next (modObj (modGrp s gid fun g => modOp g op fun x => { x with kind := .ready }) n fun o =>
        contribute o count 1 val st)) ∧
  (∀ s gid op g x n round ty m d r, mapFind s.groups gid = some g → opOf g op = some x →
    g.resident = true → x.kind = .gres n round ty m d none → (objAt s n).result = some r →
    (round + 1) % 2 ^ 16 = (objAt s n).round.toNat →
    exec (.gresResult gid op) s = .next (modGrp s gid fun g => modOp g op fun y =>
      { y with
        kind := .ready
        writes := destWrites d ((lanesOf 64 x.lanes).map fun l =>
          (l, (BitVec.ofNat 64 (xrndOp ty m (xaMake r.1.toNat r.2.toNat)).1 : Word)))
        fflags := (xrndOp ty m (xaMake r.1.toNat r.2.toNat)).2 })) ∧
  (∀ s lid obj val st count round,
    let n := objNo lid obj
    let o := objAt s n
    s.variant.scaleout = true → o.joined = true → o.round = round → countBad o count.toNat = false →
    mayContribute s n count.toNat 1 = true →
    exec (.runnerRemoteContribution lid obj val st count round) s =
      .next (modObj s n fun o => contribute o count.toNat 1 val (st &&& 0xF#8))) ∧
  (∀ s lid obj val st count round, s.variant.scaleout = false →
    exec (.runnerRemoteContribution lid obj val st count round) s = .next s)

/-- A commit round (R324 to R331): it forms of the lanes that survive the riddle, locks its sectors in order,
each when its crucible is free, or is abandoned where a transaction that is irrevocable holds one, validates, applies
under one stamp, and unlocks; its lanes go on after their TXE. An aborting lane, once its
transaction's instructions have completed, stands again at its TXB with its registers as they were there (R319, R333,
R334); a lane that has issued 65,536 items aborts with LIMIT (R323); the order token goes to the group that holds NEXT
(R330), the irrevocable token to a lane that waits for it (R336). -/
def Obligations.TransactionEventsComplete : Prop :=
  (∀ s gid g,
    let ls := lanesOf g.width g.txLanes
    mapFind s.groups gid = some g → g.round.stage = .idle → g.resident = true → (coreAt s g.core).switching = 0 →
    ls ≠ [] → (∀ l ∈ ls, atTxe (g.thread l) = true ∧ (g.thread l).tx.ord = false) →
    exec (.commitRound gid) s =
      let r := riddle g [] ((ls.filter fun l => (g.thread l).tx.irrev) ++ ls.filter fun l => !(g.thread l).tx.irrev)
      .next (beginRound s gid false r.1 r.2)) ∧
  (∀ s gid g, mapFind s.groups gid = some g → g.round.stage = .releasing → released s g.round.rel = true →
    exec (.commitLock gid) s =
      .next (setRound s gid fun r => { r with stage := .locking, todo := writeSectors s gid r.lanes })) ∧
  (∀ s gid g scr sector rest, mapFind s.groups gid = some g → g.round.stage = .locking →
    g.round.todo = (scr, sector) :: rest →
    (othersLocks s gid scr sector = [] → commitFree s gid scr sector = true →
      commitLine s gid scr sector true ((recordOf g g.round.lanes scr sector).mask = BitVec.allOnes 32) = .yes →
      exec (.commitLock gid) s = .next (setRound (putLock (commitUses s gid scr sector) gid scr sector true) gid fun r =>
        { r with todo := rest })) ∧
    ((∃ l ∈ othersLocks s gid scr sector, l.irrev = true) →
      exec (.commitLock gid) s = .next (abandonRound s gid))) ∧
  (∀ s gid g, mapFind s.groups gid = some g → g.round.stage = .validating → g.round.checks = [] →
    exec (.commitApply gid) s = .next (decideRound s gid)) ∧
  (∀ s gid g l r, mapFind s.groups gid = some g → g.round.stage = .applying → g.round.todo = [] →
    g.round.lanes.getLast? = some l → g.round = r → r.ordered = false →
    exec (.commitUnlock gid) s =
      let t := dropToken (dropLocks (unlockRound s gid) gid fun k => r.lanes.contains k.lane) gid fun k =>
        r.lanes.contains k
      let t := r.lanes.foldl (fun s l => signStores s g.team (g.thread l).tx.sts) t
      let t := modGrp t gid fun g => g.modLanes (maskOf 64 r.lanes) fun _ t => commitLane t
      .next (enterBlocks (modLaunch t (lidOf t gid) fun la => { la with next := (launchOf s gid).next }) gid)) ∧
  (∀ s gid l g, mapFind s.groups gid = some g → (g.thread l).status = .running → (g.thread l).wait = .aborting →
    (∀ o ∈ g.ops, o.id < (g.thread l).tx.firstOp ∨ hasBit o.left l = false) → l < g.threads.length →
    ∃ t, exec (.txAbort gid l) s = .next t ∧
      let x := (g.thread l).tx
      let y := (grpAt t gid).thread l
      y.pc = x.ckPc ∧ y.block = x.ckBlock ∧ y.p = x.ckP ∧ y.draw = x.ckDraw ∧ y.batch = x.ckBatch ∧
        y.recon = x.ckRecon ∧ y.tx.active = false ∧ y.tx.cause = x.cause ∧ y.tx.aborts = min (x.aborts + 1) 255) ∧
  (∀ s gid l g, mapFind s.groups gid = some g → (g.thread l).status = .running → (g.thread l).tx.active = true →
    (g.thread l).wait ≠ .aborting → l ∉ g.round.lanes →
    exec (.txLimit gid l) s = .next (if 65536 ≤ (g.thread l).tx.items then abortLane s gid l 5 0 else s)) ∧
  (∀ s lid la gid, mapFind s.launches lid = some la → la.det = false → la.token = none →
    (launchGroups s lid).find? (holdsNext s) = some gid →
    exec (.orderTokenPass lid) s = .next (modLaunch s lid fun l => { l with token := some gid })) ∧
  (∀ s gid l g op, mapFind s.groups gid = some g → (g.thread l).wait = .txb op →
    (g.thread l).tx.wants = some none → g.resident = true →
    (partAt s (launchOf s gid).part).irrevToken = none →
    exec (.irrevocableTokenGrant gid l) s =
      let t := modPart s (launchOf s gid).part fun p => { p with irrevToken := some (gid, l) }
      let r := beginRelease t g.core gid (bitMask 64 l) true none .nothing []
      .next (modThread r.1 gid l fun t => { t with tx := { t.tx with wants := some (some r.2) } })) ∧
  (∀ s gid l g op rel, mapFind s.groups gid = some g → (g.thread l).wait = .txb op →
    (g.thread l).tx.wants = some (some rel) → released s rel = true →
    exec (.irrevocableTokenGrant gid l) s = .next (openIrrevocable s gid l op))

/-! ## The command processor and teams -/

/-- The command processor reads the entries of the queue whose turn it is: NOP, LAUNCH, END, SWITCH, and malformed
ones (R407 to R409); a queue's tail is written (R406). A record that a ring has held is written once the ring can take
it (R413); a threshold of a ring that is reached interrupts the host (R414). The words of the waiting launches are
read again (R412). A launch whose dependences are met takes its tables, or is REJECTED with the reason that they give
(R345 step 2, R411); with its pages pinned and its dirty SNAP lines written back its SNAP set is armed (R65, R345 step
3), and then it holds its phasers and objects and runs (R345 step 4). -/
def Obligations.LaunchesComplete : Prop :=
  (∀ s vf q, nextCommand s vf q = some .nop → exec (.nopCommand vf q) s = .next (takeEntry s vf q)) ∧
  (∀ s vf q pa, (queueAt s vf q).pending = none → nextCommand s vf q = some (.launch pa) →
    let t := takeEntry s vf q
    functionBlocked t vf = false → waitingEntries t vf = [] →
    exec (.launchCommand vf q) s = .next (acceptAt t vf q pa)) ∧
  (∀ s vf q n pa, (queueAt s vf q).pending = some (n, pa) → functionBlocked s vf = false →
    (∀ m ∈ waitingEntries s vf, n ≤ m) →
    exec (.launchCommand vf q) s =
      .next (acceptAt (modQueue s vf q fun c => { c with pending := none }) vf q pa)) ∧
  (∀ s vf q tag, nextCommand s vf q = some (.stop tag) → exec (.endCommand vf q) s = .next
    ((taggedLaunches s vf tag).foldl (fun s lid => endAndSettle s lid stEnded 3 0) (takeEntry s vf q))) ∧
  (∀ s vf q tag, nextCommand s vf q = some (.switch tag) →
    let t := takeEntry s vf q
    exec (.switchCommand vf q) s = .next ((coresOf t (taggedLaunches t vf tag)).foldl (fun s c =>
      modCore s c fun c => { c with switchAsked := true }) t)) ∧
  (∀ s vf q, nextCommand s vf q = some .malformed → exec (.malformedEntry vf q) s =
    .next (postRecord (takeEntry s vf q) vf 0 (BitVec.ofNat 256 (6 * 2 ^ 32 + 7 * 2 ^ 36)) none)) ∧
  (∀ s vf q val, partExists s (vf / 3) = true → exec (.qtailWrite vf q val) s = .next (askRecheck
    (modQueue s vf q fun c => { c with tail := val.toNat, head := if c.en then c.head else val.toNat }) (vf / 3))) ∧
  (∀ s vf ring rec held of heldOf, (ringAt s vf ring).held = rec :: held → (ringAt s vf ring).heldOf = of :: heldOf →
    ringOpen (ringAt s vf ring) (recordsComing s vf ring) = true →
    exec (.recordWriteDeferred vf ring) s = .next (writeRecord
      (modRing s vf ring fun r => { r with held := held, heldOf := heldOf }) vf ring rec of)) ∧
  (∀ s vf ring val, partExists s (vf / 3) = true →
    exec (.rheadWrite vf ring val) s = .next (modRing s vf ring fun r => { r with rhead := val.toNat })) ∧
  (∀ s vf ring, let r := ringAt s vf ring
    (r.cnt ≠ 0 ∧ r.cnt ≤ r.pend) ∨ (r.ticks ≠ 0 ∧ r.pend ≠ 0 ∧ r.first + r.ticks ≤ gtOf s) →
    exec (.ringInterrupt vf ring) s =
      .next (modRing (say s (.interrupt vf r.vec)) vf ring fun r => { r with pend := 0 })) ∧
  (∀ s part, (partAt s part).recheck = true → dependenceSealed s part = false → exec (.dependenceCheck part) s =
    let t := modPart s part fun p => { p with recheck := false }
    .next { t with launches := t.launches.map fun e =>
      if (e.2.part = part && decide (e.2.st = .waiting)) = true then
        let ds := (List.range e.2.ndep).map (dependence s e.2)
        (e.1, { e.2 with depMet := ds.map (·.1), depFail := ds.any (·.2) })
      else e }) ∧
  (∀ s l i, dependence s l i =
    let w := sysRead s l.part (l.depa i) 8
    (decide (l.depv i % 2 ^ 63 ≤ w % 2 ^ 63), decide (2 ^ 63 ≤ w))) ∧
  (∀ s lid l, mapFind s.launches lid = some l → l.st = .waiting →
    (∀ i, i < l.ndep → l.depMet.getD i false = true) →
    (∀ d a, checkTables s l = .error (d, a) →
      exec (.launchStart lid) s = .next (endAndSettle s lid stRejected d a)) ∧
    (∀ l', checkTables s l = .ok l' →
      exec (.launchStart lid) s = .next { s with launches := mapPut s.launches lid { l' with st := .starting } })) ∧
  (∀ s lid l t, mapFind s.launches lid = some l → l.st = .starting →
    pinPages lid s (residentPages l) = .ready t →
    (∀ u, l.armed = true → reserveLaunch t lid = some u → exec (.launchStart lid) s = .next u) ∧
    (l.armed = false → snapDirty t l = [] → l.snapOn = true →
      exec (.launchStart lid) s =
        .next (modLaunch t lid fun x => { x with armed := x.snapOn, regions := loadRegions t x }))) ∧
  (∀ s lid l t i, mapFind s.launches lid = some l → l.st = .starting →
    pinPages lid s (residentPages l) = .fails t i →
    exec (.launchStart lid) s = .next (endAndSettle t lid stRejected 8 i))

/-- Teams are dealt to cores in turn (R346), placed when everything they need is free (R348), RUNNING once their groups
may issue (R347), stolen by a core with
nothing to do (R349), and end in steps: their streams, copies and matrix operations, their writes, their releases, and
their bit (R350). A core is switched for a context of a higher priority or at the host's request, and at the end of
its quantum for one of an equal priority (R362, R364, R408); once it has drained it is saved, with its teams (R363); a
saved context that goes first is restored (R362, R363 step 6). -/
def Obligations.TeamsAndSwitchesComplete : Prop :=
  (∀ s lid l, mapFind s.launches lid = some l → l.st = .running → l.shadow = none → l.nextDeal < l.nteams →
    dealCores s l ≠ [] →
    let cs := dealCores s l
    let core := cs.getD (l.nextCore % cs.length) 0
    (queuedTeams s core l.prio).length < Config.teamQueue →
    exec (.teamDeal lid) s =
      let t := (freshId s).2
      let t := { t with teams := mapPut t.teams (freshId s).1 (newTeam lid l.nextDeal core l.isPair none) }
      .next (pushTeam (modLaunch t lid fun l => { l with
        nextDeal := l.nextDeal + 1, nextCore := (l.nextCore + 1) % cs.length, teams := l.teams ++ [(freshId s).1] })
        core l.prio (freshId s).1)) ∧
  (∀ s core prio team rest p, topQueue s core = some (prio, team :: rest) → (coreAt s core).switching = 0 →
    (coreAt s (core + 1)).switching = 0 → savedFirst s core prio = false → detWaits s team = false →
    findPlacing s (launchAt s (teamAt s team).lid) core = some p → startPlaced s core = none →
    exec (.teamPlace core) s = .next (placeTeam (unqueue s core team) team core p 200)) ∧
  (∀ s core, (∃ e ∈ s.teams, placedAt s core e.2 = true) → exec (.teamPlace core) s = .next { s with
    teams := s.teams.map fun e => (e.1, if placedAt s core e.2 then { e.2 with st := .running } else e.2) }) ∧
  (∀ s thief v rest team p, topQueue s thief = none → coreEnabled s thief = true → (coreAt s thief).switching = 0 →
    victims thief = v :: rest → stealable s thief v = some (team, p) →
    exec (.teamSteal thief) s = .next (placeTeam (unqueue s v team) team thief p
      (200 + if clusterOf v = clusterOf thief then 40 else 120))) ∧
  (∀ s team t, mapFind s.teams team = some t → (t.st = .running ∨ t.st = .ending) →
    (launchAt s t.lid).st ≠ .ending →
    (t.endStep = 0 → teamOver s team = true → exec (.teamEnd team) s = .next (setEndStep s team 1 none)) ∧
    (t.endStep = 1 → teamQuiet s team = true → exec (.teamEnd team) s = .next (setEndStep s team 2 none)) ∧
    (t.endStep = 2 → teamApplied s team = true →
      exec (.teamEnd team) s = .next (setEndStep (releaseCore s team t.core).1 team 3 (releaseCore s team t.core).2)) ∧
    (t.endStep = 3 → t.endRel = none → t.pair = false →
      exec (.teamEnd team) s = .next (setEndStep s team 4 none)) ∧
    (t.endStep = 4 → t.endRel = none → t.rerunOf = none → assayEligible s (launchAt s t.lid) = false →
      exec (.teamEnd team) s = .next (settleLaunch (setBit (freeTeam s team) t.lid t.index) t.lid))) ∧
  (∀ s team set members gid ms ts, mapFind (teamAt s team).regroups set = some members →
    regroupMembers s team members = gid :: ms → (∀ m ∈ gid :: ms, regroupReady s m = true) →
    survivors s (gid :: ms) = ts →
    exec (.regroupDeal team set) s =
      let l := launchAt s (teamAt s team).lid
      let moved := (ts.map fun t => 8 * liveOf s gid t.1).foldl (· + ·) 0
      let u := ((gid :: ms).zipIdx).foldl (fun s e =>
        dealTo s e.1 ts.length ((ts.drop (e.2 * l.width)).take l.width))
        (enterBanks (modTeam s team fun t => { t with regroups := mapErase t.regroups set }) gid
          ((moved + 255) / 256 * 2) 0).1
      .next ((teamAt u team).groups.foldl groupExits u)) ∧
  (∀ s core cores rest, draining s core = false → switchUnits s core = cores :: rest → switchable s cores = true →
    higherWaits s cores = true ∨ (coreAt s core).switchAsked = true →
    exec (.contextSwitch core) s = .next (beginSwitch s cores)) ∧
  (∀ s core, draining s core = true → unitDrained s (switchingUnit s core) = true →
    exec (.contextSwitch core) s = .next (saveCores s (switchingUnit s core))) ∧
  (∀ s core cores rest, switchUnits s core = cores :: rest → switchable s cores = true → quantumOut s core = true →
    equalWaits s cores = true → exec (.quantumExpiry core) s = .next (beginSwitch s cores)) ∧
  (∀ s core, quantumOut s core = false → exec (.quantumExpiry core) s = .next s) ∧
  (∀ s core x, nextContext s core = some x → exec (.contextRestore core) s = .next (restoreContext s core x))

/-! ## Reliability, partitions and power -/

/-- Patrol corrects a channel's correctable errors (R390); HEALTH's fields clear as they are written (R401); ASSAYCFG
takes a rate of at most 256 and its seed (R397); a repeated run that agrees with the original passes, and one that
does not is followed by a third run (R399). -/
def Obligations.ReliabilityComplete : Prop :=
  (∀ s die chan, exec (.patrolScrub die chan) s = .next { s with
    hbmCorrectable := s.hbmCorrectable.filter fun n => chanOf (32 * n) ≠ 64 * die + chan
    cecnt := min (s.cecnt + (s.hbmCorrectable.filter fun n => chanOf (32 * n) = 64 * die + chan).length) 0xFFFF }) ∧
  (∀ s val, exec (.healthClear val) s = .next { s with
    flash := if bits val.toNat 0 1 = 1 then { s.flash with replace := false } else s.flash
    cecnt := if bits val.toNat 32 16 ≠ 0 then 0 else s.cecnt
    uecnt := if bits val.toNat 48 8 ≠ 0 then 0 else s.uecnt
    assaymis := if bits val.toNat 56 8 ≠ 0 then 0 else s.assaymis }) ∧
  (∀ s part val, s.variant.assay = true → partExists s part = true → bits val.toNat 0 9 ≤ 256 →
    let seed : BitVec 32 := val.extractLsb' 32 32
    let seed := if seed = 0 then 1 else seed
    exec (.assaycfgWrite part val) s =
      .next (modPart s part fun p => { p with rate := bits val.toNat 0 9, seed := seed, alfsr := seed })) ∧
  (∀ s team r orig a, mapFind s.teams team = some r → r.st = .done → r.rerunOf = some orig →
    (∀ e ∈ s.pubs, e.2.lid ≠ r.lid) → (mapFind s.teams orig).isSome = true →
    (launchAt s (teamAt s orig).lid).st = .running → (teamAt s orig).runs = [a] → a.2 = r.sig →
    exec (.assayRunComplete team) s = .next (takeVerdict
      (modTeam (eraseRerun s team) orig fun t => { t with runs := [a, (r.core, r.sig)] }) orig 1)) ∧
  (∀ s team r orig a b, mapFind s.teams team = some r → r.st = .done → r.rerunOf = some orig →
    (∀ e ∈ s.pubs, e.2.lid ≠ r.lid) → (mapFind s.teams orig).isSome = true →
    (launchAt s (teamAt s orig).lid).st = .running → (teamAt s orig).runs = [a, b] →
    exec (.assayRunComplete team) s = .next (takeVerdict
      (modTeam (eraseRerun s team) orig fun t => { t with runs := [a, b, (r.core, r.sig)] }) orig
      (if b.2 = r.sig then 3 else if a.2 = r.sig then 2 else 4)))

/-- A partition's carve register takes a change that is not 15 while none is in progress (R84); a change that takes no
way, or whose ways are empty, ends and answers who asked (R85). The request counters are written by a management core
of the partition that owns the channel (R73). A partition is created of 2^LOGN free clusters that are aligned, and is
torn down once its launches have ended (R387, R389); the registers of its functions and of the device take what their
access codes let them (R405, R406, R413, R423). -/
def Obligations.PartitionsComplete : Prop :=
  (∀ s part val, exec (.carvewWrite part val) s = .next
    (if val.toNat % 16 = 15 ∨ ∃ e ∈ (partAt s part).carveQueue, e.1 ≤ 14 then s
      else modPart s part fun p => { p with carveQueue := p.carveQueue ++ [(val.toNat % 16, none)] })) ∧
  (∀ s part w who rest, (partAt s part).carveQueue = (w, who) :: rest → w ≤ (partAt s part).ways ∨ 14 < w →
    exec (.carveChangeComplete part) s = .next (finishCarve s part w who)) ∧
  (∀ s part w who rest, (partAt s part).carveQueue = (w, who) :: rest → (partAt s part).ways < w → w ≤ 14 →
    (partAt s part).carveBusy = false →
    exec (.carveChangeComplete part) s = .next (modPart s part fun p => { p with carveBusy := true })) ∧
  (∀ s part w who rest, (partAt s part).carveQueue = (w, who) :: rest → (partAt s part).ways < w → w ≤ 14 →
    (partAt s part).carveBusy = true → linesIn s (partAt s part) w = [] →
    exec (.carveChangeComplete part) s = .next (finishCarve s part w who)) ∧
  (∀ s part die chan val, chan < 64 →
    (partAt s part).clusters.contains (Config.clustersPerDie * die + chan / 4) = true →
    exec (.requestCounterWrite part die chan 0 val) s =
      .next { s with localReq := mapSet 0 s.localReq (64 * die + chan) val } ∧
    exec (.requestCounterWrite part die chan 1 val) s =
      .next { s with remoteReq := mapSet 0 s.remoteReq (64 * die + chan) val } ∧
    exec (.requestCounterWrite part die chan 2 val) s =
      .next { s with hostReq := mapSet 0 s.hostReq (64 * die + chan) val }) ∧
  (∀ s first logn, s.power = .running → logn ≤ 6 → first % 2 ^ logn = 0 → first + 2 ^ logn ≤ s.variant.clusters →
    (∀ i, i < 2 ^ logn → partOfCluster s (first + i) = none) →
    exec (.partitionCreate first logn) s = .next { s with
      parts := mapPut s.parts first (newPartition first logn), flash := { s.flash with allTorn := false } }) ∧
  (∀ s first logn i, i < 2 ^ logn → partOfCluster s (first + i) ≠ none →
    exec (.partitionCreate first logn) s = .next s) ∧
  (∀ s part p, mapFind s.parts part = some p → s.ingot.sealing = none → p.tearing = false →
    exec (.partitionTeardown part) s =
      .next (tearLaunches (modPart s part fun p => { p with tearing := true }) part)) ∧
  (∀ s part p, mapFind s.parts part = some p → s.ingot.sealing = none → p.tearing = true →
    (∀ e ∈ s.launches, e.2.part ≠ part) → (∀ o ∈ s.sysOps, o.part ≠ part ∨ o.agent ≠ .command) →
    exec (.partitionTeardown part) s =
      let t := resetClusters ((hostLines s part).foldl (fun s e => releaseHost s e.1 e.2) s) part
      .next (if t.parts.isEmpty then { t with flash := { t.flash with allTorn := true } } else t)) ∧
  (∀ s part val, partExists s part = true →
    exec (.registerWrite part .regbase val) s = .next (modPart s part fun p => { p with regbase := val }) ∧
    exec (.registerWrite part .asidbase val) s = .next (modPart s part fun p => { p with asidbase := val }) ∧
    (∀ j q, q < 16 → exec (.registerWrite part (.qbase j q) val) s =
      .next (modQueue s (3 * part + j % 3) q fun c => if c.en then c else { c with qbase := val })) ∧
    (∀ j q, q < 16 → exec (.registerWrite part (.qctl j q) val) s =
      .next (modQueue s (3 * part + j % 3) q fun c =>
        { c with logn := if c.en then c.logn else bits val.toNat 0 5, en := bits val.toNat 8 1 = 1 })) ∧
    (∀ j r, r < 4 → exec (.registerWrite part (.rctl j r) val) s =
      .next (modRing s (3 * part + j % 3) r fun x => { x with
        logn := bits val.toNat 0 5, cnt := bits val.toNat 5 12, ticks := bits val.toNat 17 24
        vec := bits val.toNat 41 11 }))) ∧
  (∀ s part val, exec (.registerWrite part .readOnly val) s = .next s) ∧
  (∀ s part val i, exec (.registerWrite part (.ingotArg i) val) s =
    .next { s with ingot := { s.ingot with args := mapSet 0 s.ingot.args i.val val } })

/-- A cold start trains every die and clears memory; a warm one keeps memory when every partition had been torn down;
either needs the four modules of the host's link (R404, R416, R417). Three failed cold starts lead to recovery, which
takes an image that verifies (R418). A slice without lines is gated, and restored (R90); a quarter is throttled
(R419); another device's data reach memory on the part that has ports (R420). -/
def Obligations.PowerComplete : Prop :=
  (∀ s, exec .deviceReset s =
    .next (powerDown (answerWaiting ((allHostLines s).foldl (fun s e => releaseHost s e.1 e.2) s)))) ∧
  (∀ s hpa, s.hostOps = [.snpInv hpa] ∨ s.hostOps = [.snpData hpa] ∨ s.hostOps = [.snpCur hpa] →
    answerWaiting s = { s with toHost := s.toHost ++ [.snoop hpa "RspIHitI" none false] }) ∧
  (∀ s, (powerDown s).power = .down ∧ (powerDown s).hbm = s.hbm ∧ (powerDown s).flash = s.flash ∧
    (powerDown s).launches = [] ∧ (powerDown s).slices = [] ∧ (powerDown s).parts = []) ∧
  (∀ s modules, mayStart s = true → 4 ≤ modules → exec (.coldStart true modules) s = .next (startedUp
    { trainDies s (List.range s.variant.dies) with hbm := [], hbmPoison := [], hbmCorrectable := [] } modules)) ∧
  (∀ s ok modules, mayStart s = true → ok = false ∨ modules < 4 → exec (.coldStart ok modules) s = .next
    { s with power := .failed, ready := false, flash := { s.flash with failedCold := s.flash.failedCold + 1 } }) ∧
  (∀ s modules, mayStart s = true → s.power ≠ .recovery → s.flash.allTorn = true → s.flash.failedWarm < 3 →
    4 ≤ modules →
    let d := driftedDies s (List.range s.variant.dies)
    exec (.warmStart true modules) s = .next (startedUp (trainDies d.1 d.2) modules)) ∧
  (∀ s, mayStart s = true → exec .startTimeout s = .next
    { s with power := .failed, ready := false, flash := { s.flash with failedCold := s.flash.failedCold + 1 } }) ∧
  (∀ s, s.power = .failed → 3 ≤ s.flash.failedCold →
    exec .recoveryMode s = .next { s with power := .recovery, recoveryImage := none }) ∧
  (∀ s image, s.power = .recovery → exec (.recoveryImageLoad image) s =
    .next (if Config.firmwareVerifies image then { s with recoveryImage := some image } else s)) ∧
  (∀ s k, k < s.variant.clusters → (sliceAt s k).gated = false → (sliceAt s k).lines = [] →
    (sliceAt s k).misses = [] → (sliceAt s k).waiting = [] →
    exec (.slicePowerGate k) s = .next (modSlice s k fun x => { x with gated := true })) ∧
  (∀ s k, (sliceAt s k).gated = true →
    exec (.slicePowerRestore k) s = .next (modSlice s k fun x => { x with gated := false })) ∧
  (∀ s core q cycles, exec (.powerThrottle core q cycles) s =
    .next (modCore s core fun c => { c with throttle := mapPut c.throttle (q % 4) (s.cycle + cycles) })) ∧
  (∀ s part pa bytes, s.variant.scaleout = true → partExists s part = true →
    (∀ i, i < bytes.length → backedHbm (partAt s part) (pa + i) = true) →
    exec (.remoteMemoryMove part pa bytes) s =
      .next (sysPost s .device part pa bytes.length (.bytes bytes false)))

/-! ## Sealed checkpoints -/

/-- The operations of the ingot interface that are running, on a partition that exists and with a lineage region that
has not been rolled back (R423, R424): NONCE and REPORT (R437), SEAL in its steps (R425 to R428), SEALFIN (R428), WRAP
(R429), RESTORE and RESTOREFIN (R439, R440); each answers its status and the bytes it has written. A witness answers
the request and report at ARG0 (R435): SEAL, CLAIM and RELEASE as the rows of its table let them, QUERY with what it
knows. IMEXT's last byte extends PMEAS (R422); LINEAGE_ERASE empties the region (R433). -/
def Obligations.IngotsComplete : Prop :=
  (
  let runs (s : State) (op : Nat) : Prop := s.ingot.busy = true ∧ s.ingot.runOp = op ∧ s.flash.rolledBack = false ∧
    partExists s s.ingot.runPart = true
  (∀ s, runs s 1 → exec .nonce s =
    let r := randomBytes s 4
    let t := modPart r.1 r.1.ingot.runPart fun p => { p with nonce := BitVec.ofNat 256 (bytesNat r.2) }
    .next (endOp (putHost t (argOf t 1) r.2) 0 32)) ∧
  (∀ s, runs s 2 → exec .report s =
    let body := reportBody s s.ingot.runPart (hostBytes s (argOf s 0) 32)
    let b := body ++ signature s body ++ Config.certificate
    .next (endOp (putHost { s with free := s.free + 1 } (argOf s 1) b) 0 b.length)) ∧
  (∀ s b ts, runs s 3 → s.ingot.stage = 0 → sealTerms (abandonSeal s) = .ok (b, ts) →
    exec .seal s =
      let t := abandonSeal s
      .next (modIngot (beginSeal t b ts) fun g => { g with dest := argOf t 1, capacity := argOf t 2 })) ∧
  (∀ s e, runs s 3 → s.ingot.stage = 0 → sealTerms (abandonSeal s) = .error e →
    exec .seal s = .next (endOp (abandonSeal s) e 0)) ∧
  (∀ s b, runs s 3 → s.ingot.stage = 1 → s.ingot.sealing = some b →
    (∀ e ∈ s.launches, e.2.part = b.part → e.2.st = .finished) →
    exec .seal s = .next (modIngot (publishAll s (partAt s b.part)) fun g => { g with stage := 2 })) ∧
  (∀ s b, runs s 3 → s.ingot.stage = 2 → s.ingot.sealing = some b → flushed s (partAt s b.part) b.part = true →
    exec .seal s = .next (collectIngot s b)) ∧
  (∀ s b xs, runs s 4 → s.ingot.sealing = some b → b.part = s.ingot.runPart →
    checkStatements b (statementsAt s (argOf s 0) b.k) 0x81 b.n (some myDevid) = .ok xs →
    s.ingot.pos + (448 + 832 * b.k) ≤ s.ingot.capacity → s.ingot.stop = true →
    exec .sealfin s =
      let ms := b.members.flatMap digestBytes
      let t := putHost s (s.ingot.dest + s.ingot.pos)
        (ms ++ zeros (448 - ms.length) ++ (statementsAt s (argOf s 0) b.k).flatten)
      let t := putLineage t
        { l := b.l, r := b.n, st := .sealed, digest := b.digest, holder := myDevid
          prior := ((lineageAt t b.l).map (·.prior)).getD 0, setHash := setHashOf b.members }
      .next (endOp (modIngot t fun g => { g with sealing := none, targets := [] }) 0 (448 + 832 * b.k))) ∧
  (∀ s, runs s 4 → s.ingot.sealing = none → exec .sealfin s = .next (endOp s 13 0)) ∧
  (∀ s r,
    let h := hostBytes s (argOf s 0) 320
    let l : BitVec 128 := BitVec.ofNat 128 (numAt h 8 16)
    runs s 5 →
    (∃ e, lineageAt s l = some e ∧ e.r = numAt h 24 8 ∧ e.st = .sealed ∧ e.holder = myDevid) →
    (reportAt s (argOf s 1)).1 = some r → r.nonce = (partAt s s.ingot.runPart).nonce.toNat →
    r.pmeas = digestAt h 32 →
    exec .wrap s =
      let x := keySlot s (sub h 0 32) (imageKey (digestAt h 32) l (numAt h 24 8)) (r.devid, r.wk)
      .next (endOp (putHost x.1 (argOf x.1 1) x.2) 0 x.2.length)) ∧
  (∀ s, runs s 6 → restorable s s.ingot.runPart = true →
    (∀ e, restoreTerms s = .error e → exec .restore s = .next (endOp (zeroPart s s.ingot.runPart) e 0)) ∧
    (∀ b ways cs, restoreTerms s = .ok (b, ways, cs) → exec .restore s =
      let r := requestsFor b 2 (b.n + 1) (loadIngot s s.ingot.runPart ways cs) b.members.length
      let t := modIngot r.1 fun g => { g with claim := some b }
      .next (endOp (putHost t (argOf t 1) r.2) 3 r.2.length))) ∧
  (∀ s b xs, runs s 7 → s.ingot.claim = some b → b.part = s.ingot.runPart →
    checkStatements b (statementsAt s (argOf s 0) b.k) 0x82 (b.n + 1) (some myDevid) = .ok xs →
    lineageAt s b.l = none → s.flash.lineage.length < Config.lineageEntries →
    exec .restorefin s =
      let t := putLineage (modIngot s fun g => { g with claim := none })
        { l := b.l, r := b.n + 1, st := .claimed, digest := b.digest, holder := myDevid, prior := 0
          setHash := setHashOf b.members }
      .next (endOp (resumePart t b.part) 0 0)) ∧
  (∀ s, runs s 7 → s.ingot.claim = none → exec .restorefin s = .next (endOp s 13 0))) ∧
  (let answers (ins : Instr) (mine : Nat → Prop) : Prop :=
    ∀ s x w, s.ingot.busy = true → s.ingot.runOp = 0x10 → s.flash.rolledBack = false →
      witnessed s = (x, w) → mine x.kind →
      (∀ e, w = .bad e → exec ins s = .next (endOp s e 0)) ∧
      (w = .refused → exec ins s = .next (answerWitness s x (lineageAt s x.l) 0x84 12)) ∧
      (∀ e k, w = .row e k → exec ins s = .next (answerWitness s x e k 0))
   answers .witnessSeal (· = 1) ∧ answers .witnessClaim (· = 2) ∧ answers .witnessRelease (· = 3) ∧
      answers .witnessQuery (· = 4)) ∧
  (∀ (x : Statement) (e : Lineage),
    (x.kind = 1 → 1 ≤ x.n → witnessRow x none = .row (some { l := x.l, r := x.n, st := .sealed, digest := x.digest
                                                             holder := x.holder, prior := 0, setHash := x.setHash }) 0x81) ∧
    (x.kind = 1 → e.r < x.n → e.holder = x.holder → witnessRow x (some e) = .row (some
      { l := x.l, r := x.n, st := .sealed, digest := x.digest, holder := x.holder, prior := e.prior
        setHash := x.setHash }) 0x81) ∧
    (x.kind = 2 → e.r + 1 = x.n → e.st = .sealed → e.digest = x.digest → witnessRow x (some e) = .row (some
      { l := x.l, r := x.n, st := .claimed, digest := x.digest, holder := x.holder, prior := e.holder
        setHash := x.setHash }) 0x82) ∧
    (x.kind = 3 → e.r = x.n → e.st = .claimed → e.holder = x.holder → witnessRow x (some e) = .row (some
      { e with r := e.r - 1, st := .sealed, holder := e.prior, prior := 0 }) 0x83) ∧
    (x.kind = 4 → witnessRow x (some e) = .row (some e) 0x84) ∧
    (x.kind = 2 → witnessRow x none = .refused)) ∧
  (∀ s off bytes,
    let old := digestBytes s.ingot.imext
    let new := old.mapIdx fun i b => if off ≤ i && i < off + bytes.length then bytes.getD (i - off) b else b
    let t := modIngot s fun g => { g with imext := BitVec.ofNat 512 (bytesNat new) }
    exec (.imextWrite off bytes) s =
      if off ≤ 63 ∧ 63 < off + bytes.length ∧ partExists s s.ingot.partid = true then
        .next (modPart t s.ingot.partid fun p => { p with pmeas := sha512 (digestBytes p.pmeas ++ new) })
      else .next t) ∧
  (∀ s, exec .lineageErase s = .next { s with flash := { s.flash with lineage := [], rolledBack := false } })

/-! # The machine as a whole -/

/-! ## Encodings -/

/-- Words that the specification writes out, parcel by parcel, decode to the instructions that it says they are. -/
def Obligations.DecodedWords : Prop :=
  let h : Hdr := ⟨⟨0, 0, none, false⟩, ⟨7, false⟩, .none⟩
  decodeTableWord 64 0x00190007031E0000 = some (.sleep h 100) ∧
  decodeTableWord 64 0x00000007029E0000 = some (.eret h) ∧
  decodeTableWord 128 0x00000001000000000B01C077101E0002 =
    some (.iaddL h .i64 false (.v 7) (.v 7) 0x100000000) ∧
  decodeTableWord 96 0x002100601002030E619E0001 = some (.ffma h .f32 .rtz (.v 6) (.v 1) (.v 2) (.v 3)) ∧
  decodeTableWord 96 0x000100000006050EC31E0001 = some (.compact h ⟨2, false⟩ (.v 10) (.v 3)) ∧
  decodeTableWord 96 0x000100C02808000F421E0001 = some (.cpy h false true .none (.v 4) (.v 5) (.v 6)) ∧
  decodeTableWord 96 0x000080000002010FA01E0001 = some (.txbOrd h (.v 2) (.v 1)) ∧
  decodeTableWord 96 0x00010000000BFF8FC09E0001 = some (.csrw h 0x00 .clr .zero (.v 5)) ∧
  decodeTableWord 96 0x00000001E87C1F8FC29E0001 = some (.mbox h (.v 63) (.v 62) (.v 61))

/-- Decoding the bytes of a well-formed item's encoding gives the item back, with every operand, and leaves the bytes after
it (R12, R17 to R21); and an item that decodes is well-formed and has those bits as its encoding, so no bit of an
encoding is dropped and no encoding that R40 rejects decodes. -/
def Obligations.DecodingGivesTheItemBack : Prop :=
  (∀ i r rest, i.wf = true → encode i = some r →
    decodeBytes (leBytes (4 * r.parcels) r.toBits.toNat ++ rest) = .ok (i, rest)) ∧
  (∀ r i, decode r = .ok i → i.wf = true ∧ encode i = some r)

/-! ## The step -/

/-- A step runs what the agenda names first: a core cycle, an event, or a quarter's pick. Where the bytes at a population's
address, inside its block, decode to an instruction, issuing there runs exactly it; and a quarter with one group of one
population issues that (R351 to R353). With an empty agenda a step does what is due, and picks only when nothing is. -/
def Obligations.StepRunsTheItem : Prop :=
  (∀ s rest, s.agenda = .tick :: rest → step s = .next (passCycle { s with agenda := rest })) ∧
  (∀ s, s.sysOps = [] → busyQuarters s = [] → passCycle s = tickCycle s) ∧
  (∀ s, (tickCycle s).cycle = s.cycle + 1) ∧
  (∀ s i rest, s.agenda = .event i :: rest → step s = exec i { s with agenda := rest }) ∧
  (∀ s gid pc act v n i, (∀ l ∈ lanesOf (grpAt s gid).width act, ∃ b, ((grpAt s gid).thread l).block = some b ∧
      (b.isOpen = true ∨ pc.toNat + 4 * n ≤ b.stop.toNat)) →
    fetchItem s gid pc.toNat = .ok (v, n) → v % 4 ≠ 3 → decode (Raw.ofBits (BitVec.ofNat 128 v)) = .ok i →
    itemAt s gid pc act = .ok (i, 4 * n)) ∧
  (∀ s gid pc act i len t, act ≠ 0 → groupFree s (grpAt s gid) = true →
    entersBlock (fetchLines s gid pc.toNat) gid pc (lanesOf (grpAt (fetchLines s gid pc.toNat) gid).width act) = false →
    itemAt (fetchLines s gid pc.toNat) gid pc act = .ok (i, len) →
    exec i { fetchLines s gid pc.toNat with issuing := some ⟨gid, pc, len, act⟩ } = .next t → t.issuing.isSome = true →
    issueAt s gid pc act = some (.next t)) ∧
  (∀ s core q rest gid pc t,
    let n := quartNo core q
    let u := enterBlocks { s with agenda := rest } gid
    s.agenda = .pick core q :: rest → (quartAt s n).pickCycle ≠ some s.cycle → (coreAt s (n / 4)).switching = 0 →
    groupFree s (grpAt s gid) = true → quarterGroups { s with agenda := rest } n = [gid] → quarterGroups u n = [gid] →
    rankedPcs (grpAt u gid) = [pc] → issueAt u gid pc ((grpAt u gid).activeAt pc) = some (.next t) →
    step s = .next (noteWaiting n gid [gid] t)) ∧
  (∀ s o, s.agenda = [] → s.power = .running → dueEvent s = some o → step s = o) ∧
  (∀ s, s.agenda = [] → s.power = .running → dueEvent s = none → (∀ e ∈ s.groups, e.2.resident = false) →
    step s = .next (passCycle s))

/-- A read or a write of a register is one step of the agenda. Request counters lie where R73 puts them: the partition
that owns the channel reads and writes them, any other reads 0 and writes nothing. A mailbox slot lies where R374 puts
it: its record in four words, its reply word, which a store answers, and its control byte, where writes of 1 clear FULL
and REPLIED. A virtual function without a partition reads as zero and discards writes (R405); IMEXT reads as zero (R6).
A management core's load and store of memory that no slice holds is made at once (R273), and the host runtime joins an
object on a part with scale-out ports (R311). -/
def Obligations.RegisterAccessesComplete : Prop :=
  (∀ s r rest, s.agenda = .readReg r :: rest →
    step s = .next (say { s with agenda := rest } (.registerRead (registerValue { s with agenda := rest } r)))) ∧
  (∀ s r val rest, s.agenda = .writeReg r val :: rest → step s = writeRegister r val { s with agenda := rest }) ∧
  (∀ s cluster die chan which val, die < s.variant.dies → chan < 64 → which < 3 →
    let a := 0x02000000 + 0x10000 * die + 0x40 * chan + 8 * which
    let owner := (partOfCluster s cluster).filter fun p =>
      (partAt s p).clusters.contains (Config.clustersPerDie * die + chan / 4)
    registerValue s (.manager cluster a) =
      (if owner.isNone then 0 else
        mapGet 0 (if which = 0 then s.localReq else if which = 1 then s.remoteReq else s.hostReq) (64 * die + chan)) ∧
    (owner = none → writeRegister (.manager cluster a) val s = .next s) ∧
    (∀ p, owner = some p → writeRegister (.manager cluster a) val s = execRequestCounterWrite p die chan which val s)) ∧
  (∀ s cluster c n k val, c < Config.coresPerCluster → n < 8 → k < 8 →
    let a := 0x03000000 + 0x400 * c + 0x40 * n + 8 * k
    let core := Config.coresPerCluster * cluster + c
    let x := slotAt (coreAt s core) n
    registerValue s (.manager cluster a) = slotWord x k ∧
    (k < 4 → slotWord x k = recordWord x.record k) ∧ slotWord x 4 = x.reply ∧
    (slotWord x 5).getLsbD 0 = x.full ∧ (slotWord x 5).getLsbD 1 = x.replied ∧
    (k = 4 → writeRegister (.manager cluster a) val s = execMailboxReply core n val s) ∧
    (k = 5 → writeRegister (.manager cluster a) val s =
      execMailboxControlClear core n (val.getLsbD 0) (val.getLsbD 1) s)) ∧
  (∀ r : MboxRec, (recordWord r 0).extractLsb' 0 8 = BitVec.ofNat 8 r.kind ∧
    (recordWord r 0).extractLsb' 8 8 = BitVec.ofNat 8 r.cause ∧ (recordWord r 0).extractLsb' 16 8 = BitVec.ofNat 8 r.orig ∧
    (recordWord r 0).extractLsb' 24 4 = BitVec.ofNat 4 r.slot ∧ (recordWord r 0).extractLsb' 28 2 = BitVec.ofNat 2 r.quarter ∧
    (recordWord r 0).extractLsb' 30 3 = BitVec.ofNat 3 r.core ∧ (recordWord r 0).extractLsb' 33 15 = 0 ∧
    (recordWord r 0).extractLsb' 48 16 = BitVec.ofNat 16 r.asid) ∧
  (∀ s vf off val, partExists s (partOfVf vf) = false →
    registerValue s (.func vf off) = 0 ∧ writeRegister (.func vf off) val s = .next s) ∧
  (∀ s k, k < 8 → registerValue s (.physical (0x6030 + 8 * k)) = 0) ∧
  (∀ s cluster part pa bs, s.sysOps = [] → partOfCluster s cluster = some part →
    (∀ k ∈ (partAt s part).clusters, (sliceAt s k).lines = []) →
    managerAccess s cluster pa bs.length (.bytes bs false) = sysApply s part pa bs ∧
    managerAccess s cluster pa bs.length .load =
      say s (.loaded pa (natBytes bs.length (sysRead s part pa bs.length)))) ∧
  (∀ s lid obj, s.variant.scaleout = true → (mapFind s.launches lid).isSome = true → obj < Config.launchObjects →
    joinObject s lid obj = modObj s (objNo lid obj) fun o => { o with joined := true })

/-- The machine right after reset: down, with no partition, launch, team or group; its counters, its poison and its
interface to ingots empty (R73, R90, R401, R416, R423); and its memories in canonical form. Its first steps are a cold
start, after which it is ready, and then core cycles. The values that the specification leaves open are the model's:
log entries 1, 2 and 3. -/
def Obligations.ResetLeavesTheMachineDown : Prop :=
  State.reset.power = .down ∧ State.reset.ready = false ∧ State.reset.parts = [] ∧ State.reset.launches = [] ∧
  State.reset.groups = [] ∧ State.reset.cycle = 0 ∧ gtOf State.reset = 0 ∧ State.reset.hbm = [] ∧
  State.reset.cecnt = 0 ∧ State.reset.uecnt = 0 ∧ State.reset.assaymis = 0 ∧
  State.reset.localReq = [] ∧ State.reset.remoteReq = [] ∧ State.reset.hostReq = [] ∧
  State.reset.ingot.busy = false ∧ State.reset.ingot.status = 0 ∧ State.reset.ingot.imext = 0 ∧
  MemoriesWf State.reset ∧
  step State.reset = .next (coldStart State.reset true 8) ∧
  (∃ t, coldStart State.reset true 8 = t ∧ t.power = .running ∧ t.ready = true ∧ t.flash.failedCold = 0 ∧ t.hbm = [])

/-- Every byte memory keeps its canonical form, whatever the step does. -/
def Obligations.StepKeepsMemories : Prop :=
  ∀ s t, MemoriesWf s → step s = .next t → MemoriesWf t

/-! ## Registers -/

/-- p7 reads 1 and a write to it is discarded (R162); zero reads 0, ones reads all ones, laneid reads the lane's number,
a write to zero is discarded, and sN takes the value of the lowest executing lane (R28); what is written to vN, sN or
another predicate is read there, and no other register changes. -/
def Obligations.RegistersReadAsWired : Prop :=
  (∀ t, readP t 7 = true) ∧
  (∀ t b, writeP t 7 b = t) ∧
  (∀ s gid l, readOpnd s gid l .zero = 0 ∧ readOpnd s gid l .ones = BitVec.allOnes 64 ∧
    readOpnd s gid l .laneid = BitVec.ofNat 64 l) ∧
  (∀ vals, destWrites .zero vals = []) ∧
  (∀ n vals, destWrites (.v n) vals = vals.map fun e => ⟨e.1, .v e.1 n.val, e.2⟩) ∧
  (∀ n l x vals, destWrites (.s n) ((l, x) :: vals) = [⟨l, .s n.val, x⟩]) ∧
  (∀ t n x, canonFrom 0 0 t.v = true → readV (writeV t n x) n = x ∧ canonFrom 0 0 (writeV t n x).v = true ∧
    ∀ m, m ≠ n → readV (writeV t n x) m = readV t m) ∧
  (∀ g n x, canonFrom 0 0 g.s = true → readS (writeS g n x) n = x ∧ canonFrom 0 0 (writeS g n x).s = true ∧
    ∀ m, m ≠ n → readS (writeS g n x) m = readS g m) ∧
  (∀ t i b, i < 7 → readP (writeP t i b) i = b ∧ ∀ j, j < 8 → j ≠ i → readP (writeP t i b) j = readP t j)

/-- FCLASS writes a mask with exactly one bit set, as R227 gives it for the source's class, zero-extended, in each
executing lane, and sets no flag. -/
def Obligations.FclassGivesOneBit : Prop :=
  (∀ h ty d a, Computes (.fclass h ty d a) (fItem h [a] d) .ready d 1
    (fun _ _ xs => BitVec.ofNat 64 (fclassOp (fmtOf ty) (elemOf ty.w (src xs 0) 0))) (fun _ _ _ => 0)) ∧
  (∀ ty x, ty ∈ [Ty.f64, .f32, .bf16, .f16] →
    let f := fmtOf ty
    let k := (List.range 10).filter fun k => (fclassOp f x).testBit k
    fclassOp f x < 2 ^ 10 ∧ k.length = 1 ∧
    (k = [0] ↔ f.value x = .inf true) ∧
    (k = [1] ↔ ∃ m e, f.value x = .fin true m e ∧ 2 ^ f.mbits ≤ m) ∧
    (k = [2] ↔ ∃ m e, f.value x = .fin true m e ∧ 0 < m ∧ m < 2 ^ f.mbits) ∧
    (k = [3] ↔ ∃ e, f.value x = .fin true 0 e) ∧
    (k = [4] ↔ ∃ e, f.value x = .fin false 0 e) ∧
    (k = [5] ↔ ∃ m e, f.value x = .fin false m e ∧ 0 < m ∧ m < 2 ^ f.mbits) ∧
    (k = [6] ↔ ∃ m e, f.value x = .fin false m e ∧ 2 ^ f.mbits ≤ m) ∧
    (k = [7] ↔ f.value x = .inf false) ∧
    (k = [8] ↔ f.value x = .nan true) ∧
    (k = [9] ↔ f.value x = .nan false))

/-! ## Causes -/

/-- TRAP raises SWTRAP and BRK raises BREAK when some lane executes them, with XADDR the code, zero-extended. In user mode
the group enters privileged mode with XFIRST at the instruction, XPC after it, XSTAT 0 and the active threads as the
handler population; in privileged mode either escalates as DOUBLE, with its own code in ORIG (R365, R368, R380). -/
def Obligations.TrapAndBreakTakeTheirCodes : Prop :=
  let takes (ins : Instr) (it : Item) (code : BitVec 18) (cause : Nat) : Prop :=
    ∀ s i ex, Issues it s i ex →
      ((grpAt s i.gid).priv = false → ∃ t, exec ins s = .next t ∧
        let g := grpAt t i.gid
        g.xcause = BitVec.ofNat 8 cause ∧ g.xaddr = code.setWidth 64 ∧ g.xstat = 0 ∧ g.xfirst = i.pc ∧
          g.xpc = i.pc + BitVec.ofNat 64 i.len ∧ g.priv = true ∧ g.handler = i.act) ∧
      ((grpAt s i.gid).priv = true →
        exec ins s = .next (escalate (notePick s i it) i.gid i.pc { code := .double } cause))
  (∀ h code, takes (.trap h code) { ctrlItem h with txBad := true, specHold := true } code 0x0E) ∧
  (∀ h code, takes (.brk h code) { ctrlItem h with txBad := true } code 0x0F)

/-- A cause that is delivered in user mode banks XFIRST, XPC, XADDR, XCAUSE, XSTAT and PROGIDX, keeps XVEC and XSCRATCH,
enters privileged mode, and sends the active threads to XVEC, where they enter a block if its header may be a handler's;
if not the cause escalates as DOUBLE (R366, R368 to R370). Memory, vN, sN, pN and FFLAGS are not changed. -/
def Obligations.TrapEntryBanksTheCause : Prop :=
  (∀ s i xpc c, (grpAt s i.gid).priv = false → c.code.escalated = false → (grpAt s i.gid).speculative = false →
    ∃ t u, deliver s i xpc c = t ∧
      t = (if handlerOk u i.gid (grpAt s i.gid).xvec then enterBlocks u i.gid
        else escalate u i.gid i.pc { code := .double } c.code.num) ∧
      let g := grpAt s i.gid
      let x := grpAt t i.gid
      x.xfirst = i.pc ∧ x.xpc = xpc ∧ x.xaddr = c.addr ∧ x.xcause = BitVec.ofNat 8 c.code.num ∧ x.xstat = c.xstat ∧
      x.progidx = BitVec.ofNat 32 c.idx ∧ x.priv = true ∧ x.handler = i.act ∧ x.xvec = g.xvec ∧
      x.xscratch = g.xscratch ∧ x.fflags = g.fflags ∧ SameMemory s t ∧ SameRegisters s t ∧
      ∀ l, l < g.threads.length → hasBit i.act l = true →
        ((grpAt u i.gid).thread l).block = none ∧ ((grpAt u i.gid).thread l).pc = g.xvec) ∧
  (∀ c : Cause, c.sub < 256 → c.qn < 16 → c.lane < 64 →
    c.xstat.extractLsb' 0 8 = BitVec.ofNat 8 c.sub ∧ c.xstat.extractLsb' 8 4 = BitVec.ofNat 4 c.qn ∧
    c.xstat.getLsbD 12 = c.sq ∧ c.xstat.getLsbD 13 = c.cp ∧ c.xstat.getLsbD 14 = c.mx ∧ c.xstat.getLsbD 15 = c.wr ∧
    c.xstat.extractLsb' 16 6 = BitVec.ofNat 6 c.lane) ∧
  CauseCode.num .illegalOpc = 1 ∧ CauseCode.num .illegalOpnd = 2 ∧ CauseCode.num .pairRule = 3 ∧
  CauseCode.num .priv = 4 ∧ CauseCode.num .notHeader = 5 ∧ CauseCode.num .fetch = 6 ∧ CauseCode.num .misalign = 7 ∧
  CauseCode.num .prot = 8 ∧ CauseCode.num .elastic = 9 ∧ CauseCode.num .lease = 10 ∧ CauseCode.num .scratch = 11 ∧
  CauseCode.num .stream = 12 ∧ CauseCode.num .arith = 13 ∧ CauseCode.num .phaser = 16 ∧ CauseCode.num .matrix = 17 ∧
  CauseCode.num .cap = 18 ∧ CauseCode.num .double = 19 ∧ CauseCode.num .uncorr = 20 ∧ CauseCode.num .placement = 22

/-- The privileged instructions in user mode have no effect and raise PRIV at decode, before any check of an operand's
value (R41, R371, R377). -/
def Obligations.PrivilegedItemsTrapInUserMode : Prop :=
  let raises (ins : Instr) (it : Item) : Prop := ∀ s i, MayIssue it s i →
    (grpAt s i.gid).priv = false → it.srcs.any (badSource (launchOf s i.gid).regs it.noStream) = false →
    it.dsts.any (badDest (launchOf s i.gid).regs it.dstVs) = false →
    exec ins s = .next (raiseItem s i it { code := .priv })
  (∀ h, raises (.eret h) { hdr := h, cls := .ctrl, privileged := true, txBad := true }) ∧
  (∀ h code, raises (.halt h code) { sysItem h [] [] with privileged := true, txBad := true, specHold := true }) ∧
  (∀ h d a b, raises (.mbox h d a b) { sysItem h [a, b] [d] with privileged := true, txBad := true, specHold := true }) ∧
  (∀ h d a, raises (.l2way h d a) { sysItem h [a] [d] with privileged := true, txBad := true }) ∧
  (∀ h d, raises (.l2wayQ h d) { sysItem h [] [d] with privileged := true, txBad := true }) ∧
  (∀ h (n : BitVec 8) d, csrPriv n.toNat = true →
    raises (.csrr h n d) { sysItem h [] [d] with privileged := csrPriv n.toNat, least := 6 }) ∧
  (∀ h (n : BitVec 8) op d a, csrPriv n.toNat = true → raises (.csrw h n op d a)
    { sysItem h [a] [d] with privileged := csrPriv n.toNat, txBad := true, specHold := true, least := 6 })

/-- An access of a lane at an address that is not a multiple of its size raises MISALIGN, one outside the scratchpad
SCRATCH, one past 2^52 PROT, one in no range of the launch LEASE; the cause is that of the lowest failing lane, with its address, and the
instruction has no effect (R67, R143). -/
def Obligations.BadAddressesFault : Prop :=
  let faults (ins : Instr) (it : Item) (ok : Issue → Mask → State → Prop)
      (fails : Issue → Mask → State → List Fail) : Prop :=
    ∀ s i ex c, Issues it s i ex → (∀ l, ((grpAt s i.gid).thread l).tx.active = false) → ok i ex s →
      lowestFail (fails i ex s) = some c →
      exec ins s = .next (deliver (notePick s i it) i i.pc c)
  (∀ h ty sc acq ch d a b, faults (.ldS h ty sc acq ch d a b)
    { memItem h [a, b] [d] with unit := .ls, txBad := acq.isSome, specHold := acq.isSome, track := .load }
    (fun i ex s => shortOf s (grpAt s i.gid).core
      (laneAddrs (fun s gid l => readOpnd s gid l a + (readOpnd s gid l b <<< sc.val)) i ex s) = false)
    fun i ex s => loadFails s (lidOf s i.gid) (grpAt s i.gid).core (bytesOf ty)
      (laneAddrs (fun s gid l => readOpnd s gid l a + (readOpnd s gid l b <<< sc.val)) i ex s)) ∧
  (∀ h ty d a imm, faults (.stsL h ty d a imm)
    { memItem h [a, d] [] with specHold := true, writesMem := true, scratch := true, noBanks := true } always
    fun i ex s => scratchFails (launchOf s i.gid) (bytesOf ty) (bytesOf ty) true
      (laneAddrs (fun s gid l => readOpnd s gid l a + imm) i ex s)) ∧
  (∀ l n al wr lane (a : Word) as, a.toNat % al ≠ 0 →
    scratchFails l n al wr ((lane, a) :: as) =
      (lane, 0, { code := .misalign, addr := a, lane := lane, wr := wr }) :: scratchFails l n al wr as) ∧
  (∀ l n al wr lane (a : Word) as, a.toNat % al = 0 → scratchHas l a.toNat n = false →
    scratchFails l n al wr ((lane, a) :: as) =
      (lane, 1, { code := .scratch, addr := a, lane := lane, wr := wr }) :: scratchFails l n al wr as) ∧
  (∀ l (a : Word) n al rd wr, (2 ^ 52 ≤ a.toNat → rangeCheck l a n al rd wr = some .prot) ∧
    (a.toNat < 2 ^ 52 → a.toNat % al ≠ 0 → rangeCheck l a n al rd wr = some .misalign) ∧
    (a.toNat < 2 ^ 52 → a.toNat % al = 0 → rangeOf l a.toNat = none → rangeCheck l a n al rd wr = some .lease)) ∧
  (∀ l k c fs, (∀ f ∈ fs, l ≤ f.1) → (∀ f ∈ fs, f.1 = l → k < f.2.1) → k < 64 →
    lowestFail ((l, k, c) :: fs) = some c)

/-! ## Frames -/

/-- The issue of an item changes no byte of memory, no register, no flag, no accumulator and no register that a trap
banks; results are written when an instruction completes. So an instruction whose lanes each compute a result, and one
that reads across lanes, leave them all alone when they issue, unless they push to a queue or name a stream or a drain
port. -/
def Obligations.IssueKeepsRegistersAndMemory : Prop :=
  let same (s t : State) : Prop := SameMemory s t ∧ SameRegisters s t ∧ SameStatus s t ∧ SameTrap s t
  (∀ s i it ex e, same s (finishIssue s i it ex e)) ∧
  (∀ ins it kind d k f ff s i ex, Computes ins it kind d k f ff → namesStream it = false → (∀ n, d ≠ .sq n) →
    Issues it s i ex → ∃ t, exec ins s = .next t ∧ same s t) ∧
  (∀ ins it pd f ff s i ex, ComputesPred ins it pd f ff → namesStream it = false → Issues it s i ex →
    ∃ t, exec ins s = .next t ∧ same s t) ∧
  (∀ ins it d f s i ex, Crosses ins it d f → namesStream it = false → Issues it s i ex →
    ∃ t, exec ins s = .next t ∧ same s t)

/-- When an instruction completes in some lanes, exactly its results for them are written: every register that it does
not write, or writes only in other lanes, keeps its value; FFLAGS take its flags once no lane is left, and every other
register of the group stays (R15, R198, R358). Of two writes in one core cycle that of the instruction issued later
stays, in sN that of the lower lowest lane (R163, R358). -/
def Obligations.CompletionWritesOnlyItsResult : Prop :=
  (∀ g o m,
    let x := completeOp g o m
    (∀ n, (∀ w ∈ o.writes, w.dest = .s n → hasBit m w.lane = false) → readS x n = readS g n) ∧
    (∀ l n, (∀ w ∈ o.writes, w.dest = .v l n → hasBit m w.lane = false) →
      readV (x.thread l) n = readV (g.thread l) n) ∧
    (∀ l p, p < 8 → (∀ w ∈ o.writes, w.dest = .p l p → hasBit m w.lane = false) →
      readP (x.thread l) p = readP (g.thread l) p) ∧
    (x.fflags = if o.left &&& ~~~m = 0 then g.fflags ||| o.fflags else g.fflags) ∧
    x.ftrapen = g.ftrapen ∧ x.rmode = g.rmode ∧ x.xa = g.xa ∧ x.xpc = g.xpc ∧ x.xcause = g.xcause ∧
    x.xvec = g.xvec ∧ x.xscratch = g.xscratch ∧ x.txcfg = g.txcfg ∧ x.priv = g.priv) ∧
  (∀ op low g w, staysBefore g op low w.dest = true → landWrite op low g w = g) ∧
  (∀ op low g l n x, l < g.threads.length → canonFrom 0 0 (g.thread l).v = true →
    staysBefore g op low (.v l n) = false → readV ((landWrite op low g ⟨l, .v l n, x⟩).thread l) n = x) ∧
  (∀ op low g l n x, canonFrom 0 0 g.s = true → staysBefore g op low (.s n) = false →
    readS (landWrite op low g ⟨l, .s n, x⟩) n = x) ∧
  (∀ op low g l p b, l < g.threads.length → p < 7 → staysBefore g op low (.p l p) = false →
    readP ((landWrite op low g ⟨l, .p l p, if b then 1 else 0⟩).thread l) p = b) ∧
  (∀ g op low d, staysBefore g op low d = true ↔ ∃ e ∈ g.landed, e.1 = d ∧
    match d with
    | .s _ => if e.2.2 = low then op < e.2.1 else e.2.2 < low
    | _ => op < e.2.1) ∧
  (∀ g l n x, l < g.threads.length → canonFrom 0 0 (g.thread l).v = true →
    readV ((applyWrite g ⟨l, .v l n, x⟩).thread l) n = x) ∧
  (∀ g l n x, canonFrom 0 0 g.s = true → readS (applyWrite g ⟨l, .s n, x⟩) n = x) ∧
  (∀ g l p b, l < g.threads.length → p < 7 →
    readP ((applyWrite g ⟨l, .p l p, if b then 1 else 0⟩).thread l) p = b)

/-- STS changes the scratchpad only in the bytes at its lanes' offsets, taken where the instruction takes them; all other
memory, every register and every status stay. LDS changes no byte of memory and writes no register when it issues (R138,
R147). -/
def Obligations.ScratchpadAccessesKeepTheRest : Prop :=
  let same (s t : State) : Prop := s.hbm = t.hbm ∧ s.hostMem = t.hostMem ∧ s.parts = t.parts ∧
    SameRegisters s t ∧ SameStatus s t ∧ SameTrap s t
  let stores (ins : Instr) (it : Item) (n : Nat) (addr : State → Nat → Nat → Word) : Prop :=
    ∀ s i ex t, Issues it s i ex → (∀ l, ((grpAt s i.gid).thread l).tx.active = false) → namesStream it = false →
      scratchFails (launchOf s i.gid) n n true (laneAddrs addr i ex s) = [] →
      exec ins s = .next t →
      same s t ∧ ∀ k p, (k = (grpAt s i.gid).team → ∀ l ∈ lanes i ex s,
          let a := (scratchPos (launchOf s i.gid) (addr s i.gid l).toNat).getD 0
          p < a ∨ a + n ≤ p) →
        memRead (teamAt t k).scratch p = memRead (teamAt s k).scratch p
  let loads (ins : Instr) (it : Item) (n : Nat) (addr : State → Nat → Nat → Word) : Prop :=
    ∀ s i ex t, Issues it s i ex → (∀ l, ((grpAt s i.gid).thread l).tx.active = false) → namesStream it = false →
      scratchFails (launchOf s i.gid) n n false (laneAddrs addr i ex s) = [] →
      scratchPoisoned s i.gid n (laneAddrs addr i ex s) = [] →
      exec ins s = .next t → same s t ∧ ∀ k, (teamAt t k).scratch = (teamAt s k).scratch
  (∀ h ty sc d a b, stores (.stsS h ty sc d a b)
    { memItem h [a, b, d] [] with specHold := true, writesMem := true, scratch := true }
    (bytesOf ty) fun s gid l => readOpnd s gid l a + (readOpnd s gid l b <<< sc.val)) ∧
  (∀ h ty d a imm, stores (.stsL h ty d a imm)
    { memItem h [a, d] [] with specHold := true, writesMem := true, scratch := true, noBanks := true }
    (bytesOf ty) fun s gid l => readOpnd s gid l a + imm) ∧
  (∀ h ty sc d a b, loads (.ldsS h ty sc d a b)
    { memItem h [a, b] [d] with specHold := true, scratch := true, track := .load }
    (bytesOf ty) fun s gid l => readOpnd s gid l a + (readOpnd s gid l b <<< sc.val)) ∧
  (∀ h ty d a imm, loads (.ldsL h ty d a imm)
    { memItem h [a] [d] with specHold := true, scratch := true, track := .load }
    (bytesOf ty) fun s gid l => readOpnd s gid l a + imm)

/-- An instruction whose guard holds in no lane still issues and acts through CTL, and has no other effect (R22): only
its issue is recorded, which changes no register, flag or byte of memory (IssueKeepsRegistersAndMemory). -/
def Obligations.GuardedOffItemsOnlyIssue : Prop :=
  let skips (ins : Instr) (it : Item) : Prop := ∀ s i, MayIssue it s i → Decodes it s i →
    execLanes (grpAt s i.gid) i.act it.hdr = 0 → (grpAt s i.gid).spec.st ≠ .speculating →
    exec ins s = .next (finishIssue s i it 0 {})
  (∀ h ty sat d a b, skips (.iaddS h ty sat d a b) (aItem h [a, b] d)) ∧
  (∀ h ty rnd d a b c, skips (.ffma h ty rnd d a b c) (f64Item h ty [a, b, c] d)) ∧
  (∀ h ty sc acq ch d a b, skips (.ldS h ty sc acq ch d a b)
    { memItem h [a, b] [d] with unit := .ls, txBad := acq.isSome, specHold := acq.isSome, track := .load }) ∧
  (∀ h ty sc rel ch d a b, skips (.stS h ty sc rel ch d a b)
    { memItem h [a, b, d] [] with unit := .ls, writesMem := true, txBad := rel.isSome, specHold := rel.isSome }) ∧
  (∀ h off, skips (.bra h off) (ctrlItem h)) ∧
  (∀ h code, skips (.trap h code) { ctrlItem h with txBad := true, specHold := true })
end

