-- ==== Sys2Proof/Laws/Maps.lean ====
section
/-! SUPPORT. Maps.lean: the laws of sparse stores and byte memories: reading after writing, and the
canonical form that every memory operation keeps. -/

namespace Sys2Proof.Machine

variable {α : Type}

/-! ## Finding after putting and erasing -/

@[simp] theorem mapFind_mapPut_same (m : NMap α) (k : Nat) (x : α) : mapFind (mapPut m k x) k = some x := by
  induction m with
  | nil => simp [mapPut, mapFind]
  | cons e m ih =>
    obtain ⟨j, y⟩ := e
    simp only [mapPut]
    split
    · simp [mapFind]
    · split
      · simp [mapFind]
      · rename_i h
        simp [mapFind, Ne.symm h, ih]

theorem mapFind_mapPut_ne (m : NMap α) {k j : Nat} (x : α) (h : j ≠ k) :
    mapFind (mapPut m k x) j = mapFind m j := by
  induction m with
  | nil => simp [mapPut, mapFind, Ne.symm h]
  | cons e m ih =>
    obtain ⟨i, y⟩ := e
    simp only [mapPut]
    split
    · simp [mapFind, Ne.symm h]
    · split
      · rename_i hk; subst hk; simp [mapFind, Ne.symm h]
      · simp [mapFind, ih]

theorem mapFind_mapErase_ne (m : NMap α) {k j : Nat} (h : j ≠ k) : mapFind (mapErase m k) j = mapFind m j := by
  induction m with
  | nil => rfl
  | cons e m ih =>
    obtain ⟨i, y⟩ := e
    simp only [mapErase]
    split
    · rename_i hi; subst hi; simp [mapFind, Ne.symm h]
    · simp [mapFind, ih]

@[simp] theorem mapGet_mapPut_same (d : α) (m : NMap α) (k : Nat) (x : α) : mapGet d (mapPut m k x) k = x := by
  simp [mapGet]

theorem mapGet_mapPut_ne (d : α) (m : NMap α) {k j : Nat} (x : α) (h : j ≠ k) :
    mapGet d (mapPut m k x) j = mapGet d m j := by simp [mapGet, mapFind_mapPut_ne m x h]

theorem mapGet_mapSet_ne [DecidableEq α] (d : α) (m : NMap α) {k j : Nat} (x : α) (h : j ≠ k) :
    mapGet d (mapSet d m k x) j = mapGet d m j := by
  unfold mapSet
  split
  · simp [mapGet, mapFind_mapErase_ne m h]
  · exact mapGet_mapPut_ne d m x h

/-! ## The canonical form -/

theorem canonFrom_mono [DecidableEq α] {d : α} {m : NMap α} {lo lo' : Nat} (h : canonFrom d lo m = true)
    (hl : lo' ≤ lo) : canonFrom d lo' m = true := by
  cases m with
  | nil => rfl
  | cons e m =>
    simp only [canonFrom, Bool.and_eq_true, decide_eq_true_eq] at h ⊢
    exact ⟨⟨by omega, h.1.2⟩, h.2⟩

theorem mapFind_of_canon_lt [DecidableEq α] {d : α} {m : NMap α} {lo k : Nat} (h : canonFrom d lo m = true)
    (hk : k < lo) : mapFind m k = none := by
  induction m generalizing lo with
  | nil => rfl
  | cons e m ih =>
    simp only [canonFrom, Bool.and_eq_true, decide_eq_true_eq] at h
    have : e.1 ≠ k := by omega
    simp [mapFind, this, ih h.2 (by omega)]

theorem canonFrom_mapPut [DecidableEq α] {d : α} {m : NMap α} {lo k : Nat} {x : α}
    (h : canonFrom d lo m = true) (hk : lo ≤ k) (hx : x ≠ d) : canonFrom d lo (mapPut m k x) = true := by
  induction m generalizing lo with
  | nil => simp [mapPut, canonFrom, hk, hx]
  | cons e m ih =>
    obtain ⟨j, y⟩ := e
    simp only [canonFrom, Bool.and_eq_true, decide_eq_true_eq] at h
    simp only [mapPut]
    split
    · simp [canonFrom, hk, hx, h.1.2, h.2]; omega
    · split
      · rename_i hj; subst hj; simp [canonFrom, hk, hx, h.2]
      · simp [canonFrom, h.1.1, h.1.2, ih h.2 (by omega)]

theorem canonFrom_mapErase [DecidableEq α] {d : α} {m : NMap α} {lo k : Nat} (h : canonFrom d lo m = true) :
    canonFrom d lo (mapErase m k) = true := by
  induction m generalizing lo with
  | nil => rfl
  | cons e m ih =>
    obtain ⟨j, y⟩ := e
    simp only [canonFrom, Bool.and_eq_true, decide_eq_true_eq] at h
    simp only [mapErase]
    split
    · exact canonFrom_mono h.2 (by omega)
    · simp [canonFrom, h.1.1, h.1.2, ih h.2]

theorem canonFrom_mapSet [DecidableEq α] {d : α} {m : NMap α} {lo k : Nat} {x : α}
    (h : canonFrom d lo m = true) (hk : lo ≤ k) : canonFrom d lo (mapSet d m k x) = true := by
  unfold mapSet
  split
  · exact canonFrom_mapErase h
  · rename_i hx; exact canonFrom_mapPut h hk hx

theorem canonFrom_filter [DecidableEq α] {d : α} {m : NMap α} {lo : Nat} (f : Nat × α → Bool)
    (h : canonFrom d lo m = true) : canonFrom d lo (m.filter f) = true := by
  induction m generalizing lo with
  | nil => rfl
  | cons e m ih =>
    obtain ⟨j, y⟩ := e
    simp only [canonFrom, Bool.and_eq_true, decide_eq_true_eq] at h
    simp only [List.filter_cons]
    split
    · simp [canonFrom, h.1.1, h.1.2, ih h.2]
    · exact canonFrom_mono (ih h.2) (by omega)

theorem mapFind_mapErase_same [DecidableEq α] {d : α} {m : NMap α} {lo : Nat} (k : Nat)
    (h : canonFrom d lo m = true) : mapFind (mapErase m k) k = none := by
  induction m generalizing lo with
  | nil => rfl
  | cons e m ih =>
    obtain ⟨j, y⟩ := e
    simp only [canonFrom, Bool.and_eq_true, decide_eq_true_eq] at h
    simp only [mapErase]
    split
    · rename_i hj; subst hj; exact mapFind_of_canon_lt h.2 (by omega)
    · rename_i hj; simp [mapFind, hj, ih h.2]

theorem mapGet_mapSet_same [DecidableEq α] {d : α} {m : NMap α} {lo : Nat} (k : Nat) (x : α)
    (h : canonFrom d lo m = true) : mapGet d (mapSet d m k x) k = x := by
  unfold mapSet
  split
  · rename_i hx; simp [mapGet, mapFind_mapErase_same k h, hx]
  · simp

/-! ## Byte memories -/

theorem memWrite_wf {m : Memory} (a : Nat) (b : Byte) (h : Memory.wf m = true) :
    Memory.wf (memWrite m a b) = true := canonFrom_mapSet h (Nat.zero_le a)

theorem memWriteLE_wf {m : Memory} (a n x : Nat) (h : Memory.wf m = true) :
    Memory.wf (memWriteLE m a n x) = true := by
  induction n generalizing m a x with
  | zero => exact h
  | succ n ih => exact ih _ _ (memWrite_wf a _ h)

theorem memWriteBytes_wf {m : Memory} (a : Nat) (bs : List Byte) (h : Memory.wf m = true) :
    Memory.wf (memWriteBytes m a bs) = true := by
  induction bs generalizing m a with
  | nil => exact h
  | cons b bs ih => exact ih _ (memWrite_wf a b h)

theorem memZero_wf {m : Memory} (a n : Nat) (h : Memory.wf m = true) : Memory.wf (memZero m a n) = true :=
  canonFrom_filter _ h

theorem empty_wf : Memory.wf [] = true := rfl

theorem memRead_memWrite_same {m : Memory} (a : Nat) (b : Byte) (h : Memory.wf m = true) :
    memRead (memWrite m a b) a = b := mapGet_mapSet_same a b h

theorem memRead_memWrite_ne (m : Memory) {a c : Nat} (b : Byte) (h : c ≠ a) :
    memRead (memWrite m a b) c = memRead m c := mapGet_mapSet_ne _ m b h

/-- A little-endian write leaves every byte outside `[a, a + n)` as it was. -/
theorem memRead_memWriteLE_out (m : Memory) (a n x c : Nat) (h : c < a ∨ a + n ≤ c) :
    memRead (memWriteLE m a n x) c = memRead m c := by
  induction n generalizing m a x with
  | zero => rfl
  | succ n ih =>
    rw [memWriteLE, ih _ _ _ (by omega)]
    exact memRead_memWrite_ne m _ (by omega)

theorem memReadLE_lt (m : Memory) (a n : Nat) : memReadLE m a n < 256 ^ n := by
  induction n generalizing a with
  | zero => simp [memReadLE]
  | succ n ih =>
    have := ih (a + 1)
    have hb : (memRead m a).toNat < 256 := (memRead m a).isLt
    simp only [memReadLE, Nat.pow_succ]
    omega

theorem memReadLE_memWriteLE_out (m : Memory) (a n x c k : Nat) (h : c + k ≤ a ∨ a + n ≤ c) :
    memReadLE (memWriteLE m a n x) c k = memReadLE m c k := by
  induction k generalizing c with
  | zero => rfl
  | succ k ih =>
    simp only [memReadLE]
    rw [memRead_memWriteLE_out m a n x c (by omega), ih (c + 1) (by omega)]

/-- Reading back a little-endian write gives the bytes written. -/
theorem memReadLE_memWriteLE_same {m : Memory} (a n x : Nat) (h : Memory.wf m = true) :
    memReadLE (memWriteLE m a n x) a n = x % 256 ^ n := by
  induction n generalizing m a x with
  | zero => simp [memReadLE, Nat.mod_one]
  | succ n ih =>
    have hw := memWrite_wf (m := m) a (BitVec.ofNat 8 x) h
    simp only [memReadLE, memWriteLE]
    rw [ih (a + 1) (x / 256) hw, memRead_memWriteLE_out _ _ _ _ _ (by omega), memRead_memWrite_same a _ h]
    rw [BitVec.toNat_ofNat, show 256 ^ (n + 1) = 256 * 256 ^ n by rw [Nat.pow_succ, Nat.mul_comm], Nat.mod_mul]

end Sys2Proof.Machine
end

