-- ==== Sys2Proof/Laws/State.lean ====
section
/-! SUPPORT. State.lean: what each update of one object leaves of the other fields of the state, and what it
makes of its own (one lemma for each field and update). -/

namespace Sys2Proof.Machine

/-! ## putGrp -/

@[simp] theorem putGrp_variant (s : State) (g : Nat) (x : Group) : (putGrp s g x).variant = s.variant := rfl
@[simp] theorem putGrp_flash (s : State) (g : Nat) (x : Group) : (putGrp s g x).flash = s.flash := rfl
@[simp] theorem putGrp_power (s : State) (g : Nat) (x : Group) : (putGrp s g x).power = s.power := rfl
@[simp] theorem putGrp_ready (s : State) (g : Nat) (x : Group) : (putGrp s g x).ready = s.ready := rfl
@[simp] theorem putGrp_modules (s : State) (g : Nat) (x : Group) : (putGrp s g x).modules = s.modules := rfl
@[simp] theorem putGrp_recoveryImage (s : State) (g : Nat) (x : Group) : (putGrp s g x).recoveryImage = s.recoveryImage := rfl
@[simp] theorem putGrp_cycle (s : State) (g : Nat) (x : Group) : (putGrp s g x).cycle = s.cycle := rfl
@[simp] theorem putGrp_free (s : State) (g : Nat) (x : Group) : (putGrp s g x).free = s.free := rfl
@[simp] theorem putGrp_agenda (s : State) (g : Nat) (x : Group) : (putGrp s g x).agenda = s.agenda := rfl
@[simp] theorem putGrp_issuing (s : State) (g : Nat) (x : Group) : (putGrp s g x).issuing = s.issuing := rfl
@[simp] theorem putGrp_nextId (s : State) (g : Nat) (x : Group) : (putGrp s g x).nextId = s.nextId := rfl
@[simp] theorem putGrp_parts (s : State) (g : Nat) (x : Group) : (putGrp s g x).parts = s.parts := rfl
@[simp] theorem putGrp_launches (s : State) (g : Nat) (x : Group) : (putGrp s g x).launches = s.launches := rfl
@[simp] theorem putGrp_teams (s : State) (g : Nat) (x : Group) : (putGrp s g x).teams = s.teams := rfl
@[simp] theorem putGrp_cores (s : State) (g : Nat) (x : Group) : (putGrp s g x).cores = s.cores := rfl
@[simp] theorem putGrp_quarters (s : State) (g : Nat) (x : Group) : (putGrp s g x).quarters = s.quarters := rfl
@[simp] theorem putGrp_slices (s : State) (g : Nat) (x : Group) : (putGrp s g x).slices = s.slices := rfl
@[simp] theorem putGrp_blocks (s : State) (g : Nat) (x : Group) : (putGrp s g x).blocks = s.blocks := rfl
@[simp] theorem putGrp_requests (s : State) (g : Nat) (x : Group) : (putGrp s g x).requests = s.requests := rfl
@[simp] theorem putGrp_pubs (s : State) (g : Nat) (x : Group) : (putGrp s g x).pubs = s.pubs := rfl
@[simp] theorem putGrp_releases (s : State) (g : Nat) (x : Group) : (putGrp s g x).releases = s.releases := rfl
@[simp] theorem putGrp_probes (s : State) (g : Nat) (x : Group) : (putGrp s g x).probes = s.probes := rfl
@[simp] theorem putGrp_phasers (s : State) (g : Nat) (x : Group) : (putGrp s g x).phasers = s.phasers := rfl
@[simp] theorem putGrp_objects (s : State) (g : Nat) (x : Group) : (putGrp s g x).objects = s.objects := rfl
@[simp] theorem putGrp_fences (s : State) (g : Nat) (x : Group) : (putGrp s g x).fences = s.fences := rfl
@[simp] theorem putGrp_hbm (s : State) (g : Nat) (x : Group) : (putGrp s g x).hbm = s.hbm := rfl
@[simp] theorem putGrp_hbmPoison (s : State) (g : Nat) (x : Group) : (putGrp s g x).hbmPoison = s.hbmPoison := rfl
@[simp] theorem putGrp_hbmCorrectable (s : State) (g : Nat) (x : Group) : (putGrp s g x).hbmCorrectable = s.hbmCorrectable := rfl
@[simp] theorem putGrp_hostMem (s : State) (g : Nat) (x : Group) : (putGrp s g x).hostMem = s.hostMem := rfl
@[simp] theorem putGrp_hostOps (s : State) (g : Nat) (x : Group) : (putGrp s g x).hostOps = s.hostOps := rfl
@[simp] theorem putGrp_hostBefore (s : State) (g : Nat) (x : Group) : (putGrp s g x).hostBefore = s.hostBefore := rfl
@[simp] theorem putGrp_sysOps (s : State) (g : Nat) (x : Group) : (putGrp s g x).sysOps = s.sysOps := rfl
@[simp] theorem putGrp_biDir (s : State) (g : Nat) (x : Group) : (putGrp s g x).biDir = s.biDir := rfl
@[simp] theorem putGrp_biWait (s : State) (g : Nat) (x : Group) : (putGrp s g x).biWait = s.biWait := rfl
@[simp] theorem putGrp_localReq (s : State) (g : Nat) (x : Group) : (putGrp s g x).localReq = s.localReq := rfl
@[simp] theorem putGrp_remoteReq (s : State) (g : Nat) (x : Group) : (putGrp s g x).remoteReq = s.remoteReq := rfl
@[simp] theorem putGrp_hostReq (s : State) (g : Nat) (x : Group) : (putGrp s g x).hostReq = s.hostReq := rfl
@[simp] theorem putGrp_cecnt (s : State) (g : Nat) (x : Group) : (putGrp s g x).cecnt = s.cecnt := rfl
@[simp] theorem putGrp_uecnt (s : State) (g : Nat) (x : Group) : (putGrp s g x).uecnt = s.uecnt := rfl
@[simp] theorem putGrp_assaymis (s : State) (g : Nat) (x : Group) : (putGrp s g x).assaymis = s.assaymis := rfl
@[simp] theorem putGrp_ingot (s : State) (g : Nat) (x : Group) : (putGrp s g x).ingot = s.ingot := rfl
@[simp] theorem putGrp_toHost (s : State) (g : Nat) (x : Group) : (putGrp s g x).toHost = s.toHost := rfl

/-! ## modGrp -/

@[simp] theorem modGrp_variant (s : State) (g : Nat) (f : Group → Group) : (modGrp s g f).variant = s.variant := rfl
@[simp] theorem modGrp_flash (s : State) (g : Nat) (f : Group → Group) : (modGrp s g f).flash = s.flash := rfl
@[simp] theorem modGrp_power (s : State) (g : Nat) (f : Group → Group) : (modGrp s g f).power = s.power := rfl
@[simp] theorem modGrp_ready (s : State) (g : Nat) (f : Group → Group) : (modGrp s g f).ready = s.ready := rfl
@[simp] theorem modGrp_modules (s : State) (g : Nat) (f : Group → Group) : (modGrp s g f).modules = s.modules := rfl
@[simp] theorem modGrp_recoveryImage (s : State) (g : Nat) (f : Group → Group) : (modGrp s g f).recoveryImage = s.recoveryImage := rfl
@[simp] theorem modGrp_cycle (s : State) (g : Nat) (f : Group → Group) : (modGrp s g f).cycle = s.cycle := rfl
@[simp] theorem modGrp_free (s : State) (g : Nat) (f : Group → Group) : (modGrp s g f).free = s.free := rfl
@[simp] theorem modGrp_agenda (s : State) (g : Nat) (f : Group → Group) : (modGrp s g f).agenda = s.agenda := rfl
@[simp] theorem modGrp_issuing (s : State) (g : Nat) (f : Group → Group) : (modGrp s g f).issuing = s.issuing := rfl
@[simp] theorem modGrp_nextId (s : State) (g : Nat) (f : Group → Group) : (modGrp s g f).nextId = s.nextId := rfl
@[simp] theorem modGrp_parts (s : State) (g : Nat) (f : Group → Group) : (modGrp s g f).parts = s.parts := rfl
@[simp] theorem modGrp_launches (s : State) (g : Nat) (f : Group → Group) : (modGrp s g f).launches = s.launches := rfl
@[simp] theorem modGrp_teams (s : State) (g : Nat) (f : Group → Group) : (modGrp s g f).teams = s.teams := rfl
@[simp] theorem modGrp_cores (s : State) (g : Nat) (f : Group → Group) : (modGrp s g f).cores = s.cores := rfl
@[simp] theorem modGrp_quarters (s : State) (g : Nat) (f : Group → Group) : (modGrp s g f).quarters = s.quarters := rfl
@[simp] theorem modGrp_slices (s : State) (g : Nat) (f : Group → Group) : (modGrp s g f).slices = s.slices := rfl
@[simp] theorem modGrp_blocks (s : State) (g : Nat) (f : Group → Group) : (modGrp s g f).blocks = s.blocks := rfl
@[simp] theorem modGrp_requests (s : State) (g : Nat) (f : Group → Group) : (modGrp s g f).requests = s.requests := rfl
@[simp] theorem modGrp_pubs (s : State) (g : Nat) (f : Group → Group) : (modGrp s g f).pubs = s.pubs := rfl
@[simp] theorem modGrp_releases (s : State) (g : Nat) (f : Group → Group) : (modGrp s g f).releases = s.releases := rfl
@[simp] theorem modGrp_probes (s : State) (g : Nat) (f : Group → Group) : (modGrp s g f).probes = s.probes := rfl
@[simp] theorem modGrp_phasers (s : State) (g : Nat) (f : Group → Group) : (modGrp s g f).phasers = s.phasers := rfl
@[simp] theorem modGrp_objects (s : State) (g : Nat) (f : Group → Group) : (modGrp s g f).objects = s.objects := rfl
@[simp] theorem modGrp_fences (s : State) (g : Nat) (f : Group → Group) : (modGrp s g f).fences = s.fences := rfl
@[simp] theorem modGrp_hbm (s : State) (g : Nat) (f : Group → Group) : (modGrp s g f).hbm = s.hbm := rfl
@[simp] theorem modGrp_hbmPoison (s : State) (g : Nat) (f : Group → Group) : (modGrp s g f).hbmPoison = s.hbmPoison := rfl
@[simp] theorem modGrp_hbmCorrectable (s : State) (g : Nat) (f : Group → Group) : (modGrp s g f).hbmCorrectable = s.hbmCorrectable := rfl
@[simp] theorem modGrp_hostMem (s : State) (g : Nat) (f : Group → Group) : (modGrp s g f).hostMem = s.hostMem := rfl
@[simp] theorem modGrp_hostOps (s : State) (g : Nat) (f : Group → Group) : (modGrp s g f).hostOps = s.hostOps := rfl
@[simp] theorem modGrp_hostBefore (s : State) (g : Nat) (f : Group → Group) : (modGrp s g f).hostBefore = s.hostBefore := rfl
@[simp] theorem modGrp_sysOps (s : State) (g : Nat) (f : Group → Group) : (modGrp s g f).sysOps = s.sysOps := rfl
@[simp] theorem modGrp_biDir (s : State) (g : Nat) (f : Group → Group) : (modGrp s g f).biDir = s.biDir := rfl
@[simp] theorem modGrp_biWait (s : State) (g : Nat) (f : Group → Group) : (modGrp s g f).biWait = s.biWait := rfl
@[simp] theorem modGrp_localReq (s : State) (g : Nat) (f : Group → Group) : (modGrp s g f).localReq = s.localReq := rfl
@[simp] theorem modGrp_remoteReq (s : State) (g : Nat) (f : Group → Group) : (modGrp s g f).remoteReq = s.remoteReq := rfl
@[simp] theorem modGrp_hostReq (s : State) (g : Nat) (f : Group → Group) : (modGrp s g f).hostReq = s.hostReq := rfl
@[simp] theorem modGrp_cecnt (s : State) (g : Nat) (f : Group → Group) : (modGrp s g f).cecnt = s.cecnt := rfl
@[simp] theorem modGrp_uecnt (s : State) (g : Nat) (f : Group → Group) : (modGrp s g f).uecnt = s.uecnt := rfl
@[simp] theorem modGrp_assaymis (s : State) (g : Nat) (f : Group → Group) : (modGrp s g f).assaymis = s.assaymis := rfl
@[simp] theorem modGrp_ingot (s : State) (g : Nat) (f : Group → Group) : (modGrp s g f).ingot = s.ingot := rfl
@[simp] theorem modGrp_toHost (s : State) (g : Nat) (f : Group → Group) : (modGrp s g f).toHost = s.toHost := rfl

/-! ## modThread -/

@[simp] theorem modThread_variant (s : State) (g l : Nat) (f : Thread → Thread) : (modThread s g l f).variant = s.variant := rfl
@[simp] theorem modThread_flash (s : State) (g l : Nat) (f : Thread → Thread) : (modThread s g l f).flash = s.flash := rfl
@[simp] theorem modThread_power (s : State) (g l : Nat) (f : Thread → Thread) : (modThread s g l f).power = s.power := rfl
@[simp] theorem modThread_ready (s : State) (g l : Nat) (f : Thread → Thread) : (modThread s g l f).ready = s.ready := rfl
@[simp] theorem modThread_modules (s : State) (g l : Nat) (f : Thread → Thread) : (modThread s g l f).modules = s.modules := rfl
@[simp] theorem modThread_recoveryImage (s : State) (g l : Nat) (f : Thread → Thread) : (modThread s g l f).recoveryImage = s.recoveryImage := rfl
@[simp] theorem modThread_cycle (s : State) (g l : Nat) (f : Thread → Thread) : (modThread s g l f).cycle = s.cycle := rfl
@[simp] theorem modThread_free (s : State) (g l : Nat) (f : Thread → Thread) : (modThread s g l f).free = s.free := rfl
@[simp] theorem modThread_agenda (s : State) (g l : Nat) (f : Thread → Thread) : (modThread s g l f).agenda = s.agenda := rfl
@[simp] theorem modThread_issuing (s : State) (g l : Nat) (f : Thread → Thread) : (modThread s g l f).issuing = s.issuing := rfl
@[simp] theorem modThread_nextId (s : State) (g l : Nat) (f : Thread → Thread) : (modThread s g l f).nextId = s.nextId := rfl
@[simp] theorem modThread_parts (s : State) (g l : Nat) (f : Thread → Thread) : (modThread s g l f).parts = s.parts := rfl
@[simp] theorem modThread_launches (s : State) (g l : Nat) (f : Thread → Thread) : (modThread s g l f).launches = s.launches := rfl
@[simp] theorem modThread_teams (s : State) (g l : Nat) (f : Thread → Thread) : (modThread s g l f).teams = s.teams := rfl
@[simp] theorem modThread_cores (s : State) (g l : Nat) (f : Thread → Thread) : (modThread s g l f).cores = s.cores := rfl
@[simp] theorem modThread_quarters (s : State) (g l : Nat) (f : Thread → Thread) : (modThread s g l f).quarters = s.quarters := rfl
@[simp] theorem modThread_slices (s : State) (g l : Nat) (f : Thread → Thread) : (modThread s g l f).slices = s.slices := rfl
@[simp] theorem modThread_blocks (s : State) (g l : Nat) (f : Thread → Thread) : (modThread s g l f).blocks = s.blocks := rfl
@[simp] theorem modThread_requests (s : State) (g l : Nat) (f : Thread → Thread) : (modThread s g l f).requests = s.requests := rfl
@[simp] theorem modThread_pubs (s : State) (g l : Nat) (f : Thread → Thread) : (modThread s g l f).pubs = s.pubs := rfl
@[simp] theorem modThread_releases (s : State) (g l : Nat) (f : Thread → Thread) : (modThread s g l f).releases = s.releases := rfl
@[simp] theorem modThread_probes (s : State) (g l : Nat) (f : Thread → Thread) : (modThread s g l f).probes = s.probes := rfl
@[simp] theorem modThread_phasers (s : State) (g l : Nat) (f : Thread → Thread) : (modThread s g l f).phasers = s.phasers := rfl
@[simp] theorem modThread_objects (s : State) (g l : Nat) (f : Thread → Thread) : (modThread s g l f).objects = s.objects := rfl
@[simp] theorem modThread_fences (s : State) (g l : Nat) (f : Thread → Thread) : (modThread s g l f).fences = s.fences := rfl
@[simp] theorem modThread_hbm (s : State) (g l : Nat) (f : Thread → Thread) : (modThread s g l f).hbm = s.hbm := rfl
@[simp] theorem modThread_hbmPoison (s : State) (g l : Nat) (f : Thread → Thread) : (modThread s g l f).hbmPoison = s.hbmPoison := rfl
@[simp] theorem modThread_hbmCorrectable (s : State) (g l : Nat) (f : Thread → Thread) : (modThread s g l f).hbmCorrectable = s.hbmCorrectable := rfl
@[simp] theorem modThread_hostMem (s : State) (g l : Nat) (f : Thread → Thread) : (modThread s g l f).hostMem = s.hostMem := rfl
@[simp] theorem modThread_hostOps (s : State) (g l : Nat) (f : Thread → Thread) : (modThread s g l f).hostOps = s.hostOps := rfl
@[simp] theorem modThread_hostBefore (s : State) (g l : Nat) (f : Thread → Thread) : (modThread s g l f).hostBefore = s.hostBefore := rfl
@[simp] theorem modThread_sysOps (s : State) (g l : Nat) (f : Thread → Thread) : (modThread s g l f).sysOps = s.sysOps := rfl
@[simp] theorem modThread_biDir (s : State) (g l : Nat) (f : Thread → Thread) : (modThread s g l f).biDir = s.biDir := rfl
@[simp] theorem modThread_biWait (s : State) (g l : Nat) (f : Thread → Thread) : (modThread s g l f).biWait = s.biWait := rfl
@[simp] theorem modThread_localReq (s : State) (g l : Nat) (f : Thread → Thread) : (modThread s g l f).localReq = s.localReq := rfl
@[simp] theorem modThread_remoteReq (s : State) (g l : Nat) (f : Thread → Thread) : (modThread s g l f).remoteReq = s.remoteReq := rfl
@[simp] theorem modThread_hostReq (s : State) (g l : Nat) (f : Thread → Thread) : (modThread s g l f).hostReq = s.hostReq := rfl
@[simp] theorem modThread_cecnt (s : State) (g l : Nat) (f : Thread → Thread) : (modThread s g l f).cecnt = s.cecnt := rfl
@[simp] theorem modThread_uecnt (s : State) (g l : Nat) (f : Thread → Thread) : (modThread s g l f).uecnt = s.uecnt := rfl
@[simp] theorem modThread_assaymis (s : State) (g l : Nat) (f : Thread → Thread) : (modThread s g l f).assaymis = s.assaymis := rfl
@[simp] theorem modThread_ingot (s : State) (g l : Nat) (f : Thread → Thread) : (modThread s g l f).ingot = s.ingot := rfl
@[simp] theorem modThread_toHost (s : State) (g l : Nat) (f : Thread → Thread) : (modThread s g l f).toHost = s.toHost := rfl

/-! ## modTeam -/

@[simp] theorem modTeam_variant (s : State) (n : Nat) (f : Team → Team) : (modTeam s n f).variant = s.variant := rfl
@[simp] theorem modTeam_flash (s : State) (n : Nat) (f : Team → Team) : (modTeam s n f).flash = s.flash := rfl
@[simp] theorem modTeam_power (s : State) (n : Nat) (f : Team → Team) : (modTeam s n f).power = s.power := rfl
@[simp] theorem modTeam_ready (s : State) (n : Nat) (f : Team → Team) : (modTeam s n f).ready = s.ready := rfl
@[simp] theorem modTeam_modules (s : State) (n : Nat) (f : Team → Team) : (modTeam s n f).modules = s.modules := rfl
@[simp] theorem modTeam_recoveryImage (s : State) (n : Nat) (f : Team → Team) : (modTeam s n f).recoveryImage = s.recoveryImage := rfl
@[simp] theorem modTeam_cycle (s : State) (n : Nat) (f : Team → Team) : (modTeam s n f).cycle = s.cycle := rfl
@[simp] theorem modTeam_free (s : State) (n : Nat) (f : Team → Team) : (modTeam s n f).free = s.free := rfl
@[simp] theorem modTeam_agenda (s : State) (n : Nat) (f : Team → Team) : (modTeam s n f).agenda = s.agenda := rfl
@[simp] theorem modTeam_issuing (s : State) (n : Nat) (f : Team → Team) : (modTeam s n f).issuing = s.issuing := rfl
@[simp] theorem modTeam_nextId (s : State) (n : Nat) (f : Team → Team) : (modTeam s n f).nextId = s.nextId := rfl
@[simp] theorem modTeam_parts (s : State) (n : Nat) (f : Team → Team) : (modTeam s n f).parts = s.parts := rfl
@[simp] theorem modTeam_launches (s : State) (n : Nat) (f : Team → Team) : (modTeam s n f).launches = s.launches := rfl
@[simp] theorem modTeam_groups (s : State) (n : Nat) (f : Team → Team) : (modTeam s n f).groups = s.groups := rfl
@[simp] theorem modTeam_cores (s : State) (n : Nat) (f : Team → Team) : (modTeam s n f).cores = s.cores := rfl
@[simp] theorem modTeam_quarters (s : State) (n : Nat) (f : Team → Team) : (modTeam s n f).quarters = s.quarters := rfl
@[simp] theorem modTeam_slices (s : State) (n : Nat) (f : Team → Team) : (modTeam s n f).slices = s.slices := rfl
@[simp] theorem modTeam_blocks (s : State) (n : Nat) (f : Team → Team) : (modTeam s n f).blocks = s.blocks := rfl
@[simp] theorem modTeam_requests (s : State) (n : Nat) (f : Team → Team) : (modTeam s n f).requests = s.requests := rfl
@[simp] theorem modTeam_pubs (s : State) (n : Nat) (f : Team → Team) : (modTeam s n f).pubs = s.pubs := rfl
@[simp] theorem modTeam_releases (s : State) (n : Nat) (f : Team → Team) : (modTeam s n f).releases = s.releases := rfl
@[simp] theorem modTeam_probes (s : State) (n : Nat) (f : Team → Team) : (modTeam s n f).probes = s.probes := rfl
@[simp] theorem modTeam_phasers (s : State) (n : Nat) (f : Team → Team) : (modTeam s n f).phasers = s.phasers := rfl
@[simp] theorem modTeam_objects (s : State) (n : Nat) (f : Team → Team) : (modTeam s n f).objects = s.objects := rfl
@[simp] theorem modTeam_fences (s : State) (n : Nat) (f : Team → Team) : (modTeam s n f).fences = s.fences := rfl
@[simp] theorem modTeam_hbm (s : State) (n : Nat) (f : Team → Team) : (modTeam s n f).hbm = s.hbm := rfl
@[simp] theorem modTeam_hbmPoison (s : State) (n : Nat) (f : Team → Team) : (modTeam s n f).hbmPoison = s.hbmPoison := rfl
@[simp] theorem modTeam_hbmCorrectable (s : State) (n : Nat) (f : Team → Team) : (modTeam s n f).hbmCorrectable = s.hbmCorrectable := rfl
@[simp] theorem modTeam_hostMem (s : State) (n : Nat) (f : Team → Team) : (modTeam s n f).hostMem = s.hostMem := rfl
@[simp] theorem modTeam_hostOps (s : State) (n : Nat) (f : Team → Team) : (modTeam s n f).hostOps = s.hostOps := rfl
@[simp] theorem modTeam_hostBefore (s : State) (n : Nat) (f : Team → Team) : (modTeam s n f).hostBefore = s.hostBefore := rfl
@[simp] theorem modTeam_sysOps (s : State) (n : Nat) (f : Team → Team) : (modTeam s n f).sysOps = s.sysOps := rfl
@[simp] theorem modTeam_biDir (s : State) (n : Nat) (f : Team → Team) : (modTeam s n f).biDir = s.biDir := rfl
@[simp] theorem modTeam_biWait (s : State) (n : Nat) (f : Team → Team) : (modTeam s n f).biWait = s.biWait := rfl
@[simp] theorem modTeam_localReq (s : State) (n : Nat) (f : Team → Team) : (modTeam s n f).localReq = s.localReq := rfl
@[simp] theorem modTeam_remoteReq (s : State) (n : Nat) (f : Team → Team) : (modTeam s n f).remoteReq = s.remoteReq := rfl
@[simp] theorem modTeam_hostReq (s : State) (n : Nat) (f : Team → Team) : (modTeam s n f).hostReq = s.hostReq := rfl
@[simp] theorem modTeam_cecnt (s : State) (n : Nat) (f : Team → Team) : (modTeam s n f).cecnt = s.cecnt := rfl
@[simp] theorem modTeam_uecnt (s : State) (n : Nat) (f : Team → Team) : (modTeam s n f).uecnt = s.uecnt := rfl
@[simp] theorem modTeam_assaymis (s : State) (n : Nat) (f : Team → Team) : (modTeam s n f).assaymis = s.assaymis := rfl
@[simp] theorem modTeam_ingot (s : State) (n : Nat) (f : Team → Team) : (modTeam s n f).ingot = s.ingot := rfl
@[simp] theorem modTeam_toHost (s : State) (n : Nat) (f : Team → Team) : (modTeam s n f).toHost = s.toHost := rfl

/-! ## modLaunch -/

@[simp] theorem modLaunch_variant (s : State) (n : Nat) (f : Launch → Launch) : (modLaunch s n f).variant = s.variant := rfl
@[simp] theorem modLaunch_flash (s : State) (n : Nat) (f : Launch → Launch) : (modLaunch s n f).flash = s.flash := rfl
@[simp] theorem modLaunch_power (s : State) (n : Nat) (f : Launch → Launch) : (modLaunch s n f).power = s.power := rfl
@[simp] theorem modLaunch_ready (s : State) (n : Nat) (f : Launch → Launch) : (modLaunch s n f).ready = s.ready := rfl
@[simp] theorem modLaunch_modules (s : State) (n : Nat) (f : Launch → Launch) : (modLaunch s n f).modules = s.modules := rfl
@[simp] theorem modLaunch_recoveryImage (s : State) (n : Nat) (f : Launch → Launch) : (modLaunch s n f).recoveryImage = s.recoveryImage := rfl
@[simp] theorem modLaunch_cycle (s : State) (n : Nat) (f : Launch → Launch) : (modLaunch s n f).cycle = s.cycle := rfl
@[simp] theorem modLaunch_free (s : State) (n : Nat) (f : Launch → Launch) : (modLaunch s n f).free = s.free := rfl
@[simp] theorem modLaunch_agenda (s : State) (n : Nat) (f : Launch → Launch) : (modLaunch s n f).agenda = s.agenda := rfl
@[simp] theorem modLaunch_issuing (s : State) (n : Nat) (f : Launch → Launch) : (modLaunch s n f).issuing = s.issuing := rfl
@[simp] theorem modLaunch_nextId (s : State) (n : Nat) (f : Launch → Launch) : (modLaunch s n f).nextId = s.nextId := rfl
@[simp] theorem modLaunch_parts (s : State) (n : Nat) (f : Launch → Launch) : (modLaunch s n f).parts = s.parts := rfl
@[simp] theorem modLaunch_teams (s : State) (n : Nat) (f : Launch → Launch) : (modLaunch s n f).teams = s.teams := rfl
@[simp] theorem modLaunch_groups (s : State) (n : Nat) (f : Launch → Launch) : (modLaunch s n f).groups = s.groups := rfl
@[simp] theorem modLaunch_cores (s : State) (n : Nat) (f : Launch → Launch) : (modLaunch s n f).cores = s.cores := rfl
@[simp] theorem modLaunch_quarters (s : State) (n : Nat) (f : Launch → Launch) : (modLaunch s n f).quarters = s.quarters := rfl
@[simp] theorem modLaunch_slices (s : State) (n : Nat) (f : Launch → Launch) : (modLaunch s n f).slices = s.slices := rfl
@[simp] theorem modLaunch_blocks (s : State) (n : Nat) (f : Launch → Launch) : (modLaunch s n f).blocks = s.blocks := rfl
@[simp] theorem modLaunch_requests (s : State) (n : Nat) (f : Launch → Launch) : (modLaunch s n f).requests = s.requests := rfl
@[simp] theorem modLaunch_pubs (s : State) (n : Nat) (f : Launch → Launch) : (modLaunch s n f).pubs = s.pubs := rfl
@[simp] theorem modLaunch_releases (s : State) (n : Nat) (f : Launch → Launch) : (modLaunch s n f).releases = s.releases := rfl
@[simp] theorem modLaunch_probes (s : State) (n : Nat) (f : Launch → Launch) : (modLaunch s n f).probes = s.probes := rfl
@[simp] theorem modLaunch_phasers (s : State) (n : Nat) (f : Launch → Launch) : (modLaunch s n f).phasers = s.phasers := rfl
@[simp] theorem modLaunch_objects (s : State) (n : Nat) (f : Launch → Launch) : (modLaunch s n f).objects = s.objects := rfl
@[simp] theorem modLaunch_fences (s : State) (n : Nat) (f : Launch → Launch) : (modLaunch s n f).fences = s.fences := rfl
@[simp] theorem modLaunch_hbm (s : State) (n : Nat) (f : Launch → Launch) : (modLaunch s n f).hbm = s.hbm := rfl
@[simp] theorem modLaunch_hbmPoison (s : State) (n : Nat) (f : Launch → Launch) : (modLaunch s n f).hbmPoison = s.hbmPoison := rfl
@[simp] theorem modLaunch_hbmCorrectable (s : State) (n : Nat) (f : Launch → Launch) : (modLaunch s n f).hbmCorrectable = s.hbmCorrectable := rfl
@[simp] theorem modLaunch_hostMem (s : State) (n : Nat) (f : Launch → Launch) : (modLaunch s n f).hostMem = s.hostMem := rfl
@[simp] theorem modLaunch_hostOps (s : State) (n : Nat) (f : Launch → Launch) : (modLaunch s n f).hostOps = s.hostOps := rfl
@[simp] theorem modLaunch_hostBefore (s : State) (n : Nat) (f : Launch → Launch) : (modLaunch s n f).hostBefore = s.hostBefore := rfl
@[simp] theorem modLaunch_sysOps (s : State) (n : Nat) (f : Launch → Launch) : (modLaunch s n f).sysOps = s.sysOps := rfl
@[simp] theorem modLaunch_biDir (s : State) (n : Nat) (f : Launch → Launch) : (modLaunch s n f).biDir = s.biDir := rfl
@[simp] theorem modLaunch_biWait (s : State) (n : Nat) (f : Launch → Launch) : (modLaunch s n f).biWait = s.biWait := rfl
@[simp] theorem modLaunch_localReq (s : State) (n : Nat) (f : Launch → Launch) : (modLaunch s n f).localReq = s.localReq := rfl
@[simp] theorem modLaunch_remoteReq (s : State) (n : Nat) (f : Launch → Launch) : (modLaunch s n f).remoteReq = s.remoteReq := rfl
@[simp] theorem modLaunch_hostReq (s : State) (n : Nat) (f : Launch → Launch) : (modLaunch s n f).hostReq = s.hostReq := rfl
@[simp] theorem modLaunch_cecnt (s : State) (n : Nat) (f : Launch → Launch) : (modLaunch s n f).cecnt = s.cecnt := rfl
@[simp] theorem modLaunch_uecnt (s : State) (n : Nat) (f : Launch → Launch) : (modLaunch s n f).uecnt = s.uecnt := rfl
@[simp] theorem modLaunch_assaymis (s : State) (n : Nat) (f : Launch → Launch) : (modLaunch s n f).assaymis = s.assaymis := rfl
@[simp] theorem modLaunch_ingot (s : State) (n : Nat) (f : Launch → Launch) : (modLaunch s n f).ingot = s.ingot := rfl
@[simp] theorem modLaunch_toHost (s : State) (n : Nat) (f : Launch → Launch) : (modLaunch s n f).toHost = s.toHost := rfl

/-! ## modPart -/

@[simp] theorem modPart_variant (s : State) (n : Nat) (f : Partition → Partition) : (modPart s n f).variant = s.variant := rfl
@[simp] theorem modPart_flash (s : State) (n : Nat) (f : Partition → Partition) : (modPart s n f).flash = s.flash := rfl
@[simp] theorem modPart_power (s : State) (n : Nat) (f : Partition → Partition) : (modPart s n f).power = s.power := rfl
@[simp] theorem modPart_ready (s : State) (n : Nat) (f : Partition → Partition) : (modPart s n f).ready = s.ready := rfl
@[simp] theorem modPart_modules (s : State) (n : Nat) (f : Partition → Partition) : (modPart s n f).modules = s.modules := rfl
@[simp] theorem modPart_recoveryImage (s : State) (n : Nat) (f : Partition → Partition) : (modPart s n f).recoveryImage = s.recoveryImage := rfl
@[simp] theorem modPart_cycle (s : State) (n : Nat) (f : Partition → Partition) : (modPart s n f).cycle = s.cycle := rfl
@[simp] theorem modPart_free (s : State) (n : Nat) (f : Partition → Partition) : (modPart s n f).free = s.free := rfl
@[simp] theorem modPart_agenda (s : State) (n : Nat) (f : Partition → Partition) : (modPart s n f).agenda = s.agenda := rfl
@[simp] theorem modPart_issuing (s : State) (n : Nat) (f : Partition → Partition) : (modPart s n f).issuing = s.issuing := rfl
@[simp] theorem modPart_nextId (s : State) (n : Nat) (f : Partition → Partition) : (modPart s n f).nextId = s.nextId := rfl
@[simp] theorem modPart_launches (s : State) (n : Nat) (f : Partition → Partition) : (modPart s n f).launches = s.launches := rfl
@[simp] theorem modPart_teams (s : State) (n : Nat) (f : Partition → Partition) : (modPart s n f).teams = s.teams := rfl
@[simp] theorem modPart_groups (s : State) (n : Nat) (f : Partition → Partition) : (modPart s n f).groups = s.groups := rfl
@[simp] theorem modPart_cores (s : State) (n : Nat) (f : Partition → Partition) : (modPart s n f).cores = s.cores := rfl
@[simp] theorem modPart_quarters (s : State) (n : Nat) (f : Partition → Partition) : (modPart s n f).quarters = s.quarters := rfl
@[simp] theorem modPart_slices (s : State) (n : Nat) (f : Partition → Partition) : (modPart s n f).slices = s.slices := rfl
@[simp] theorem modPart_blocks (s : State) (n : Nat) (f : Partition → Partition) : (modPart s n f).blocks = s.blocks := rfl
@[simp] theorem modPart_requests (s : State) (n : Nat) (f : Partition → Partition) : (modPart s n f).requests = s.requests := rfl
@[simp] theorem modPart_pubs (s : State) (n : Nat) (f : Partition → Partition) : (modPart s n f).pubs = s.pubs := rfl
@[simp] theorem modPart_releases (s : State) (n : Nat) (f : Partition → Partition) : (modPart s n f).releases = s.releases := rfl
@[simp] theorem modPart_probes (s : State) (n : Nat) (f : Partition → Partition) : (modPart s n f).probes = s.probes := rfl
@[simp] theorem modPart_phasers (s : State) (n : Nat) (f : Partition → Partition) : (modPart s n f).phasers = s.phasers := rfl
@[simp] theorem modPart_objects (s : State) (n : Nat) (f : Partition → Partition) : (modPart s n f).objects = s.objects := rfl
@[simp] theorem modPart_fences (s : State) (n : Nat) (f : Partition → Partition) : (modPart s n f).fences = s.fences := rfl
@[simp] theorem modPart_hbm (s : State) (n : Nat) (f : Partition → Partition) : (modPart s n f).hbm = s.hbm := rfl
@[simp] theorem modPart_hbmPoison (s : State) (n : Nat) (f : Partition → Partition) : (modPart s n f).hbmPoison = s.hbmPoison := rfl
@[simp] theorem modPart_hbmCorrectable (s : State) (n : Nat) (f : Partition → Partition) : (modPart s n f).hbmCorrectable = s.hbmCorrectable := rfl
@[simp] theorem modPart_hostMem (s : State) (n : Nat) (f : Partition → Partition) : (modPart s n f).hostMem = s.hostMem := rfl
@[simp] theorem modPart_hostOps (s : State) (n : Nat) (f : Partition → Partition) : (modPart s n f).hostOps = s.hostOps := rfl
@[simp] theorem modPart_hostBefore (s : State) (n : Nat) (f : Partition → Partition) : (modPart s n f).hostBefore = s.hostBefore := rfl
@[simp] theorem modPart_sysOps (s : State) (n : Nat) (f : Partition → Partition) : (modPart s n f).sysOps = s.sysOps := rfl
@[simp] theorem modPart_biDir (s : State) (n : Nat) (f : Partition → Partition) : (modPart s n f).biDir = s.biDir := rfl
@[simp] theorem modPart_biWait (s : State) (n : Nat) (f : Partition → Partition) : (modPart s n f).biWait = s.biWait := rfl
@[simp] theorem modPart_localReq (s : State) (n : Nat) (f : Partition → Partition) : (modPart s n f).localReq = s.localReq := rfl
@[simp] theorem modPart_remoteReq (s : State) (n : Nat) (f : Partition → Partition) : (modPart s n f).remoteReq = s.remoteReq := rfl
@[simp] theorem modPart_hostReq (s : State) (n : Nat) (f : Partition → Partition) : (modPart s n f).hostReq = s.hostReq := rfl
@[simp] theorem modPart_cecnt (s : State) (n : Nat) (f : Partition → Partition) : (modPart s n f).cecnt = s.cecnt := rfl
@[simp] theorem modPart_uecnt (s : State) (n : Nat) (f : Partition → Partition) : (modPart s n f).uecnt = s.uecnt := rfl
@[simp] theorem modPart_assaymis (s : State) (n : Nat) (f : Partition → Partition) : (modPart s n f).assaymis = s.assaymis := rfl
@[simp] theorem modPart_ingot (s : State) (n : Nat) (f : Partition → Partition) : (modPart s n f).ingot = s.ingot := rfl
@[simp] theorem modPart_toHost (s : State) (n : Nat) (f : Partition → Partition) : (modPart s n f).toHost = s.toHost := rfl

/-! ## modCore -/

@[simp] theorem modCore_variant (s : State) (n : Nat) (f : Core → Core) : (modCore s n f).variant = s.variant := rfl
@[simp] theorem modCore_flash (s : State) (n : Nat) (f : Core → Core) : (modCore s n f).flash = s.flash := rfl
@[simp] theorem modCore_power (s : State) (n : Nat) (f : Core → Core) : (modCore s n f).power = s.power := rfl
@[simp] theorem modCore_ready (s : State) (n : Nat) (f : Core → Core) : (modCore s n f).ready = s.ready := rfl
@[simp] theorem modCore_modules (s : State) (n : Nat) (f : Core → Core) : (modCore s n f).modules = s.modules := rfl
@[simp] theorem modCore_recoveryImage (s : State) (n : Nat) (f : Core → Core) : (modCore s n f).recoveryImage = s.recoveryImage := rfl
@[simp] theorem modCore_cycle (s : State) (n : Nat) (f : Core → Core) : (modCore s n f).cycle = s.cycle := rfl
@[simp] theorem modCore_free (s : State) (n : Nat) (f : Core → Core) : (modCore s n f).free = s.free := rfl
@[simp] theorem modCore_agenda (s : State) (n : Nat) (f : Core → Core) : (modCore s n f).agenda = s.agenda := rfl
@[simp] theorem modCore_issuing (s : State) (n : Nat) (f : Core → Core) : (modCore s n f).issuing = s.issuing := rfl
@[simp] theorem modCore_nextId (s : State) (n : Nat) (f : Core → Core) : (modCore s n f).nextId = s.nextId := rfl
@[simp] theorem modCore_parts (s : State) (n : Nat) (f : Core → Core) : (modCore s n f).parts = s.parts := rfl
@[simp] theorem modCore_launches (s : State) (n : Nat) (f : Core → Core) : (modCore s n f).launches = s.launches := rfl
@[simp] theorem modCore_teams (s : State) (n : Nat) (f : Core → Core) : (modCore s n f).teams = s.teams := rfl
@[simp] theorem modCore_groups (s : State) (n : Nat) (f : Core → Core) : (modCore s n f).groups = s.groups := rfl
@[simp] theorem modCore_quarters (s : State) (n : Nat) (f : Core → Core) : (modCore s n f).quarters = s.quarters := rfl
@[simp] theorem modCore_slices (s : State) (n : Nat) (f : Core → Core) : (modCore s n f).slices = s.slices := rfl
@[simp] theorem modCore_blocks (s : State) (n : Nat) (f : Core → Core) : (modCore s n f).blocks = s.blocks := rfl
@[simp] theorem modCore_requests (s : State) (n : Nat) (f : Core → Core) : (modCore s n f).requests = s.requests := rfl
@[simp] theorem modCore_pubs (s : State) (n : Nat) (f : Core → Core) : (modCore s n f).pubs = s.pubs := rfl
@[simp] theorem modCore_releases (s : State) (n : Nat) (f : Core → Core) : (modCore s n f).releases = s.releases := rfl
@[simp] theorem modCore_probes (s : State) (n : Nat) (f : Core → Core) : (modCore s n f).probes = s.probes := rfl
@[simp] theorem modCore_phasers (s : State) (n : Nat) (f : Core → Core) : (modCore s n f).phasers = s.phasers := rfl
@[simp] theorem modCore_objects (s : State) (n : Nat) (f : Core → Core) : (modCore s n f).objects = s.objects := rfl
@[simp] theorem modCore_fences (s : State) (n : Nat) (f : Core → Core) : (modCore s n f).fences = s.fences := rfl
@[simp] theorem modCore_hbm (s : State) (n : Nat) (f : Core → Core) : (modCore s n f).hbm = s.hbm := rfl
@[simp] theorem modCore_hbmPoison (s : State) (n : Nat) (f : Core → Core) : (modCore s n f).hbmPoison = s.hbmPoison := rfl
@[simp] theorem modCore_hbmCorrectable (s : State) (n : Nat) (f : Core → Core) : (modCore s n f).hbmCorrectable = s.hbmCorrectable := rfl
@[simp] theorem modCore_hostMem (s : State) (n : Nat) (f : Core → Core) : (modCore s n f).hostMem = s.hostMem := rfl
@[simp] theorem modCore_hostOps (s : State) (n : Nat) (f : Core → Core) : (modCore s n f).hostOps = s.hostOps := rfl
@[simp] theorem modCore_hostBefore (s : State) (n : Nat) (f : Core → Core) : (modCore s n f).hostBefore = s.hostBefore := rfl
@[simp] theorem modCore_sysOps (s : State) (n : Nat) (f : Core → Core) : (modCore s n f).sysOps = s.sysOps := rfl
@[simp] theorem modCore_biDir (s : State) (n : Nat) (f : Core → Core) : (modCore s n f).biDir = s.biDir := rfl
@[simp] theorem modCore_biWait (s : State) (n : Nat) (f : Core → Core) : (modCore s n f).biWait = s.biWait := rfl
@[simp] theorem modCore_localReq (s : State) (n : Nat) (f : Core → Core) : (modCore s n f).localReq = s.localReq := rfl
@[simp] theorem modCore_remoteReq (s : State) (n : Nat) (f : Core → Core) : (modCore s n f).remoteReq = s.remoteReq := rfl
@[simp] theorem modCore_hostReq (s : State) (n : Nat) (f : Core → Core) : (modCore s n f).hostReq = s.hostReq := rfl
@[simp] theorem modCore_cecnt (s : State) (n : Nat) (f : Core → Core) : (modCore s n f).cecnt = s.cecnt := rfl
@[simp] theorem modCore_uecnt (s : State) (n : Nat) (f : Core → Core) : (modCore s n f).uecnt = s.uecnt := rfl
@[simp] theorem modCore_assaymis (s : State) (n : Nat) (f : Core → Core) : (modCore s n f).assaymis = s.assaymis := rfl
@[simp] theorem modCore_ingot (s : State) (n : Nat) (f : Core → Core) : (modCore s n f).ingot = s.ingot := rfl
@[simp] theorem modCore_toHost (s : State) (n : Nat) (f : Core → Core) : (modCore s n f).toHost = s.toHost := rfl

/-! ## modQuart -/

@[simp] theorem modQuart_variant (s : State) (n : Nat) (f : Quarter → Quarter) : (modQuart s n f).variant = s.variant := rfl
@[simp] theorem modQuart_flash (s : State) (n : Nat) (f : Quarter → Quarter) : (modQuart s n f).flash = s.flash := rfl
@[simp] theorem modQuart_power (s : State) (n : Nat) (f : Quarter → Quarter) : (modQuart s n f).power = s.power := rfl
@[simp] theorem modQuart_ready (s : State) (n : Nat) (f : Quarter → Quarter) : (modQuart s n f).ready = s.ready := rfl
@[simp] theorem modQuart_modules (s : State) (n : Nat) (f : Quarter → Quarter) : (modQuart s n f).modules = s.modules := rfl
@[simp] theorem modQuart_recoveryImage (s : State) (n : Nat) (f : Quarter → Quarter) : (modQuart s n f).recoveryImage = s.recoveryImage := rfl
@[simp] theorem modQuart_cycle (s : State) (n : Nat) (f : Quarter → Quarter) : (modQuart s n f).cycle = s.cycle := rfl
@[simp] theorem modQuart_free (s : State) (n : Nat) (f : Quarter → Quarter) : (modQuart s n f).free = s.free := rfl
@[simp] theorem modQuart_agenda (s : State) (n : Nat) (f : Quarter → Quarter) : (modQuart s n f).agenda = s.agenda := rfl
@[simp] theorem modQuart_issuing (s : State) (n : Nat) (f : Quarter → Quarter) : (modQuart s n f).issuing = s.issuing := rfl
@[simp] theorem modQuart_nextId (s : State) (n : Nat) (f : Quarter → Quarter) : (modQuart s n f).nextId = s.nextId := rfl
@[simp] theorem modQuart_parts (s : State) (n : Nat) (f : Quarter → Quarter) : (modQuart s n f).parts = s.parts := rfl
@[simp] theorem modQuart_launches (s : State) (n : Nat) (f : Quarter → Quarter) : (modQuart s n f).launches = s.launches := rfl
@[simp] theorem modQuart_teams (s : State) (n : Nat) (f : Quarter → Quarter) : (modQuart s n f).teams = s.teams := rfl
@[simp] theorem modQuart_groups (s : State) (n : Nat) (f : Quarter → Quarter) : (modQuart s n f).groups = s.groups := rfl
@[simp] theorem modQuart_cores (s : State) (n : Nat) (f : Quarter → Quarter) : (modQuart s n f).cores = s.cores := rfl
@[simp] theorem modQuart_slices (s : State) (n : Nat) (f : Quarter → Quarter) : (modQuart s n f).slices = s.slices := rfl
@[simp] theorem modQuart_blocks (s : State) (n : Nat) (f : Quarter → Quarter) : (modQuart s n f).blocks = s.blocks := rfl
@[simp] theorem modQuart_requests (s : State) (n : Nat) (f : Quarter → Quarter) : (modQuart s n f).requests = s.requests := rfl
@[simp] theorem modQuart_pubs (s : State) (n : Nat) (f : Quarter → Quarter) : (modQuart s n f).pubs = s.pubs := rfl
@[simp] theorem modQuart_releases (s : State) (n : Nat) (f : Quarter → Quarter) : (modQuart s n f).releases = s.releases := rfl
@[simp] theorem modQuart_probes (s : State) (n : Nat) (f : Quarter → Quarter) : (modQuart s n f).probes = s.probes := rfl
@[simp] theorem modQuart_phasers (s : State) (n : Nat) (f : Quarter → Quarter) : (modQuart s n f).phasers = s.phasers := rfl
@[simp] theorem modQuart_objects (s : State) (n : Nat) (f : Quarter → Quarter) : (modQuart s n f).objects = s.objects := rfl
@[simp] theorem modQuart_fences (s : State) (n : Nat) (f : Quarter → Quarter) : (modQuart s n f).fences = s.fences := rfl
@[simp] theorem modQuart_hbm (s : State) (n : Nat) (f : Quarter → Quarter) : (modQuart s n f).hbm = s.hbm := rfl
@[simp] theorem modQuart_hbmPoison (s : State) (n : Nat) (f : Quarter → Quarter) : (modQuart s n f).hbmPoison = s.hbmPoison := rfl
@[simp] theorem modQuart_hbmCorrectable (s : State) (n : Nat) (f : Quarter → Quarter) : (modQuart s n f).hbmCorrectable = s.hbmCorrectable := rfl
@[simp] theorem modQuart_hostMem (s : State) (n : Nat) (f : Quarter → Quarter) : (modQuart s n f).hostMem = s.hostMem := rfl
@[simp] theorem modQuart_hostOps (s : State) (n : Nat) (f : Quarter → Quarter) : (modQuart s n f).hostOps = s.hostOps := rfl
@[simp] theorem modQuart_hostBefore (s : State) (n : Nat) (f : Quarter → Quarter) : (modQuart s n f).hostBefore = s.hostBefore := rfl
@[simp] theorem modQuart_sysOps (s : State) (n : Nat) (f : Quarter → Quarter) : (modQuart s n f).sysOps = s.sysOps := rfl
@[simp] theorem modQuart_biDir (s : State) (n : Nat) (f : Quarter → Quarter) : (modQuart s n f).biDir = s.biDir := rfl
@[simp] theorem modQuart_biWait (s : State) (n : Nat) (f : Quarter → Quarter) : (modQuart s n f).biWait = s.biWait := rfl
@[simp] theorem modQuart_localReq (s : State) (n : Nat) (f : Quarter → Quarter) : (modQuart s n f).localReq = s.localReq := rfl
@[simp] theorem modQuart_remoteReq (s : State) (n : Nat) (f : Quarter → Quarter) : (modQuart s n f).remoteReq = s.remoteReq := rfl
@[simp] theorem modQuart_hostReq (s : State) (n : Nat) (f : Quarter → Quarter) : (modQuart s n f).hostReq = s.hostReq := rfl
@[simp] theorem modQuart_cecnt (s : State) (n : Nat) (f : Quarter → Quarter) : (modQuart s n f).cecnt = s.cecnt := rfl
@[simp] theorem modQuart_uecnt (s : State) (n : Nat) (f : Quarter → Quarter) : (modQuart s n f).uecnt = s.uecnt := rfl
@[simp] theorem modQuart_assaymis (s : State) (n : Nat) (f : Quarter → Quarter) : (modQuart s n f).assaymis = s.assaymis := rfl
@[simp] theorem modQuart_ingot (s : State) (n : Nat) (f : Quarter → Quarter) : (modQuart s n f).ingot = s.ingot := rfl
@[simp] theorem modQuart_toHost (s : State) (n : Nat) (f : Quarter → Quarter) : (modQuart s n f).toHost = s.toHost := rfl

/-! ## modSlice -/

@[simp] theorem modSlice_variant (s : State) (n : Nat) (f : Slice → Slice) : (modSlice s n f).variant = s.variant := rfl
@[simp] theorem modSlice_flash (s : State) (n : Nat) (f : Slice → Slice) : (modSlice s n f).flash = s.flash := rfl
@[simp] theorem modSlice_power (s : State) (n : Nat) (f : Slice → Slice) : (modSlice s n f).power = s.power := rfl
@[simp] theorem modSlice_ready (s : State) (n : Nat) (f : Slice → Slice) : (modSlice s n f).ready = s.ready := rfl
@[simp] theorem modSlice_modules (s : State) (n : Nat) (f : Slice → Slice) : (modSlice s n f).modules = s.modules := rfl
@[simp] theorem modSlice_recoveryImage (s : State) (n : Nat) (f : Slice → Slice) : (modSlice s n f).recoveryImage = s.recoveryImage := rfl
@[simp] theorem modSlice_cycle (s : State) (n : Nat) (f : Slice → Slice) : (modSlice s n f).cycle = s.cycle := rfl
@[simp] theorem modSlice_free (s : State) (n : Nat) (f : Slice → Slice) : (modSlice s n f).free = s.free := rfl
@[simp] theorem modSlice_agenda (s : State) (n : Nat) (f : Slice → Slice) : (modSlice s n f).agenda = s.agenda := rfl
@[simp] theorem modSlice_issuing (s : State) (n : Nat) (f : Slice → Slice) : (modSlice s n f).issuing = s.issuing := rfl
@[simp] theorem modSlice_nextId (s : State) (n : Nat) (f : Slice → Slice) : (modSlice s n f).nextId = s.nextId := rfl
@[simp] theorem modSlice_parts (s : State) (n : Nat) (f : Slice → Slice) : (modSlice s n f).parts = s.parts := rfl
@[simp] theorem modSlice_launches (s : State) (n : Nat) (f : Slice → Slice) : (modSlice s n f).launches = s.launches := rfl
@[simp] theorem modSlice_teams (s : State) (n : Nat) (f : Slice → Slice) : (modSlice s n f).teams = s.teams := rfl
@[simp] theorem modSlice_groups (s : State) (n : Nat) (f : Slice → Slice) : (modSlice s n f).groups = s.groups := rfl
@[simp] theorem modSlice_cores (s : State) (n : Nat) (f : Slice → Slice) : (modSlice s n f).cores = s.cores := rfl
@[simp] theorem modSlice_quarters (s : State) (n : Nat) (f : Slice → Slice) : (modSlice s n f).quarters = s.quarters := rfl
@[simp] theorem modSlice_blocks (s : State) (n : Nat) (f : Slice → Slice) : (modSlice s n f).blocks = s.blocks := rfl
@[simp] theorem modSlice_requests (s : State) (n : Nat) (f : Slice → Slice) : (modSlice s n f).requests = s.requests := rfl
@[simp] theorem modSlice_pubs (s : State) (n : Nat) (f : Slice → Slice) : (modSlice s n f).pubs = s.pubs := rfl
@[simp] theorem modSlice_releases (s : State) (n : Nat) (f : Slice → Slice) : (modSlice s n f).releases = s.releases := rfl
@[simp] theorem modSlice_probes (s : State) (n : Nat) (f : Slice → Slice) : (modSlice s n f).probes = s.probes := rfl
@[simp] theorem modSlice_phasers (s : State) (n : Nat) (f : Slice → Slice) : (modSlice s n f).phasers = s.phasers := rfl
@[simp] theorem modSlice_objects (s : State) (n : Nat) (f : Slice → Slice) : (modSlice s n f).objects = s.objects := rfl
@[simp] theorem modSlice_fences (s : State) (n : Nat) (f : Slice → Slice) : (modSlice s n f).fences = s.fences := rfl
@[simp] theorem modSlice_hbm (s : State) (n : Nat) (f : Slice → Slice) : (modSlice s n f).hbm = s.hbm := rfl
@[simp] theorem modSlice_hbmPoison (s : State) (n : Nat) (f : Slice → Slice) : (modSlice s n f).hbmPoison = s.hbmPoison := rfl
@[simp] theorem modSlice_hbmCorrectable (s : State) (n : Nat) (f : Slice → Slice) : (modSlice s n f).hbmCorrectable = s.hbmCorrectable := rfl
@[simp] theorem modSlice_hostMem (s : State) (n : Nat) (f : Slice → Slice) : (modSlice s n f).hostMem = s.hostMem := rfl
@[simp] theorem modSlice_hostOps (s : State) (n : Nat) (f : Slice → Slice) : (modSlice s n f).hostOps = s.hostOps := rfl
@[simp] theorem modSlice_hostBefore (s : State) (n : Nat) (f : Slice → Slice) : (modSlice s n f).hostBefore = s.hostBefore := rfl
@[simp] theorem modSlice_sysOps (s : State) (n : Nat) (f : Slice → Slice) : (modSlice s n f).sysOps = s.sysOps := rfl
@[simp] theorem modSlice_biDir (s : State) (n : Nat) (f : Slice → Slice) : (modSlice s n f).biDir = s.biDir := rfl
@[simp] theorem modSlice_biWait (s : State) (n : Nat) (f : Slice → Slice) : (modSlice s n f).biWait = s.biWait := rfl
@[simp] theorem modSlice_localReq (s : State) (n : Nat) (f : Slice → Slice) : (modSlice s n f).localReq = s.localReq := rfl
@[simp] theorem modSlice_remoteReq (s : State) (n : Nat) (f : Slice → Slice) : (modSlice s n f).remoteReq = s.remoteReq := rfl
@[simp] theorem modSlice_hostReq (s : State) (n : Nat) (f : Slice → Slice) : (modSlice s n f).hostReq = s.hostReq := rfl
@[simp] theorem modSlice_cecnt (s : State) (n : Nat) (f : Slice → Slice) : (modSlice s n f).cecnt = s.cecnt := rfl
@[simp] theorem modSlice_uecnt (s : State) (n : Nat) (f : Slice → Slice) : (modSlice s n f).uecnt = s.uecnt := rfl
@[simp] theorem modSlice_assaymis (s : State) (n : Nat) (f : Slice → Slice) : (modSlice s n f).assaymis = s.assaymis := rfl
@[simp] theorem modSlice_ingot (s : State) (n : Nat) (f : Slice → Slice) : (modSlice s n f).ingot = s.ingot := rfl
@[simp] theorem modSlice_toHost (s : State) (n : Nat) (f : Slice → Slice) : (modSlice s n f).toHost = s.toHost := rfl

/-! ## modBlock -/

@[simp] theorem modBlock_variant (s : State) (n : Nat) (f : TlbBlock → TlbBlock) : (modBlock s n f).variant = s.variant := rfl
@[simp] theorem modBlock_flash (s : State) (n : Nat) (f : TlbBlock → TlbBlock) : (modBlock s n f).flash = s.flash := rfl
@[simp] theorem modBlock_power (s : State) (n : Nat) (f : TlbBlock → TlbBlock) : (modBlock s n f).power = s.power := rfl
@[simp] theorem modBlock_ready (s : State) (n : Nat) (f : TlbBlock → TlbBlock) : (modBlock s n f).ready = s.ready := rfl
@[simp] theorem modBlock_modules (s : State) (n : Nat) (f : TlbBlock → TlbBlock) : (modBlock s n f).modules = s.modules := rfl
@[simp] theorem modBlock_recoveryImage (s : State) (n : Nat) (f : TlbBlock → TlbBlock) : (modBlock s n f).recoveryImage = s.recoveryImage := rfl
@[simp] theorem modBlock_cycle (s : State) (n : Nat) (f : TlbBlock → TlbBlock) : (modBlock s n f).cycle = s.cycle := rfl
@[simp] theorem modBlock_free (s : State) (n : Nat) (f : TlbBlock → TlbBlock) : (modBlock s n f).free = s.free := rfl
@[simp] theorem modBlock_agenda (s : State) (n : Nat) (f : TlbBlock → TlbBlock) : (modBlock s n f).agenda = s.agenda := rfl
@[simp] theorem modBlock_issuing (s : State) (n : Nat) (f : TlbBlock → TlbBlock) : (modBlock s n f).issuing = s.issuing := rfl
@[simp] theorem modBlock_nextId (s : State) (n : Nat) (f : TlbBlock → TlbBlock) : (modBlock s n f).nextId = s.nextId := rfl
@[simp] theorem modBlock_parts (s : State) (n : Nat) (f : TlbBlock → TlbBlock) : (modBlock s n f).parts = s.parts := rfl
@[simp] theorem modBlock_launches (s : State) (n : Nat) (f : TlbBlock → TlbBlock) : (modBlock s n f).launches = s.launches := rfl
@[simp] theorem modBlock_teams (s : State) (n : Nat) (f : TlbBlock → TlbBlock) : (modBlock s n f).teams = s.teams := rfl
@[simp] theorem modBlock_groups (s : State) (n : Nat) (f : TlbBlock → TlbBlock) : (modBlock s n f).groups = s.groups := rfl
@[simp] theorem modBlock_cores (s : State) (n : Nat) (f : TlbBlock → TlbBlock) : (modBlock s n f).cores = s.cores := rfl
@[simp] theorem modBlock_quarters (s : State) (n : Nat) (f : TlbBlock → TlbBlock) : (modBlock s n f).quarters = s.quarters := rfl
@[simp] theorem modBlock_slices (s : State) (n : Nat) (f : TlbBlock → TlbBlock) : (modBlock s n f).slices = s.slices := rfl
@[simp] theorem modBlock_requests (s : State) (n : Nat) (f : TlbBlock → TlbBlock) : (modBlock s n f).requests = s.requests := rfl
@[simp] theorem modBlock_pubs (s : State) (n : Nat) (f : TlbBlock → TlbBlock) : (modBlock s n f).pubs = s.pubs := rfl
@[simp] theorem modBlock_releases (s : State) (n : Nat) (f : TlbBlock → TlbBlock) : (modBlock s n f).releases = s.releases := rfl
@[simp] theorem modBlock_probes (s : State) (n : Nat) (f : TlbBlock → TlbBlock) : (modBlock s n f).probes = s.probes := rfl
@[simp] theorem modBlock_phasers (s : State) (n : Nat) (f : TlbBlock → TlbBlock) : (modBlock s n f).phasers = s.phasers := rfl
@[simp] theorem modBlock_objects (s : State) (n : Nat) (f : TlbBlock → TlbBlock) : (modBlock s n f).objects = s.objects := rfl
@[simp] theorem modBlock_fences (s : State) (n : Nat) (f : TlbBlock → TlbBlock) : (modBlock s n f).fences = s.fences := rfl
@[simp] theorem modBlock_hbm (s : State) (n : Nat) (f : TlbBlock → TlbBlock) : (modBlock s n f).hbm = s.hbm := rfl
@[simp] theorem modBlock_hbmPoison (s : State) (n : Nat) (f : TlbBlock → TlbBlock) : (modBlock s n f).hbmPoison = s.hbmPoison := rfl
@[simp] theorem modBlock_hbmCorrectable (s : State) (n : Nat) (f : TlbBlock → TlbBlock) : (modBlock s n f).hbmCorrectable = s.hbmCorrectable := rfl
@[simp] theorem modBlock_hostMem (s : State) (n : Nat) (f : TlbBlock → TlbBlock) : (modBlock s n f).hostMem = s.hostMem := rfl
@[simp] theorem modBlock_hostOps (s : State) (n : Nat) (f : TlbBlock → TlbBlock) : (modBlock s n f).hostOps = s.hostOps := rfl
@[simp] theorem modBlock_hostBefore (s : State) (n : Nat) (f : TlbBlock → TlbBlock) : (modBlock s n f).hostBefore = s.hostBefore := rfl
@[simp] theorem modBlock_sysOps (s : State) (n : Nat) (f : TlbBlock → TlbBlock) : (modBlock s n f).sysOps = s.sysOps := rfl
@[simp] theorem modBlock_biDir (s : State) (n : Nat) (f : TlbBlock → TlbBlock) : (modBlock s n f).biDir = s.biDir := rfl
@[simp] theorem modBlock_biWait (s : State) (n : Nat) (f : TlbBlock → TlbBlock) : (modBlock s n f).biWait = s.biWait := rfl
@[simp] theorem modBlock_localReq (s : State) (n : Nat) (f : TlbBlock → TlbBlock) : (modBlock s n f).localReq = s.localReq := rfl
@[simp] theorem modBlock_remoteReq (s : State) (n : Nat) (f : TlbBlock → TlbBlock) : (modBlock s n f).remoteReq = s.remoteReq := rfl
@[simp] theorem modBlock_hostReq (s : State) (n : Nat) (f : TlbBlock → TlbBlock) : (modBlock s n f).hostReq = s.hostReq := rfl
@[simp] theorem modBlock_cecnt (s : State) (n : Nat) (f : TlbBlock → TlbBlock) : (modBlock s n f).cecnt = s.cecnt := rfl
@[simp] theorem modBlock_uecnt (s : State) (n : Nat) (f : TlbBlock → TlbBlock) : (modBlock s n f).uecnt = s.uecnt := rfl
@[simp] theorem modBlock_assaymis (s : State) (n : Nat) (f : TlbBlock → TlbBlock) : (modBlock s n f).assaymis = s.assaymis := rfl
@[simp] theorem modBlock_ingot (s : State) (n : Nat) (f : TlbBlock → TlbBlock) : (modBlock s n f).ingot = s.ingot := rfl
@[simp] theorem modBlock_toHost (s : State) (n : Nat) (f : TlbBlock → TlbBlock) : (modBlock s n f).toHost = s.toHost := rfl

/-! ## modPhaser -/

@[simp] theorem modPhaser_variant (s : State) (n : Nat) (f : Phaser → Phaser) : (modPhaser s n f).variant = s.variant := rfl
@[simp] theorem modPhaser_flash (s : State) (n : Nat) (f : Phaser → Phaser) : (modPhaser s n f).flash = s.flash := rfl
@[simp] theorem modPhaser_power (s : State) (n : Nat) (f : Phaser → Phaser) : (modPhaser s n f).power = s.power := rfl
@[simp] theorem modPhaser_ready (s : State) (n : Nat) (f : Phaser → Phaser) : (modPhaser s n f).ready = s.ready := rfl
@[simp] theorem modPhaser_modules (s : State) (n : Nat) (f : Phaser → Phaser) : (modPhaser s n f).modules = s.modules := rfl
@[simp] theorem modPhaser_recoveryImage (s : State) (n : Nat) (f : Phaser → Phaser) : (modPhaser s n f).recoveryImage = s.recoveryImage := rfl
@[simp] theorem modPhaser_cycle (s : State) (n : Nat) (f : Phaser → Phaser) : (modPhaser s n f).cycle = s.cycle := rfl
@[simp] theorem modPhaser_free (s : State) (n : Nat) (f : Phaser → Phaser) : (modPhaser s n f).free = s.free := rfl
@[simp] theorem modPhaser_agenda (s : State) (n : Nat) (f : Phaser → Phaser) : (modPhaser s n f).agenda = s.agenda := rfl
@[simp] theorem modPhaser_issuing (s : State) (n : Nat) (f : Phaser → Phaser) : (modPhaser s n f).issuing = s.issuing := rfl
@[simp] theorem modPhaser_nextId (s : State) (n : Nat) (f : Phaser → Phaser) : (modPhaser s n f).nextId = s.nextId := rfl
@[simp] theorem modPhaser_parts (s : State) (n : Nat) (f : Phaser → Phaser) : (modPhaser s n f).parts = s.parts := rfl
@[simp] theorem modPhaser_launches (s : State) (n : Nat) (f : Phaser → Phaser) : (modPhaser s n f).launches = s.launches := rfl
@[simp] theorem modPhaser_teams (s : State) (n : Nat) (f : Phaser → Phaser) : (modPhaser s n f).teams = s.teams := rfl
@[simp] theorem modPhaser_groups (s : State) (n : Nat) (f : Phaser → Phaser) : (modPhaser s n f).groups = s.groups := rfl
@[simp] theorem modPhaser_cores (s : State) (n : Nat) (f : Phaser → Phaser) : (modPhaser s n f).cores = s.cores := rfl
@[simp] theorem modPhaser_quarters (s : State) (n : Nat) (f : Phaser → Phaser) : (modPhaser s n f).quarters = s.quarters := rfl
@[simp] theorem modPhaser_slices (s : State) (n : Nat) (f : Phaser → Phaser) : (modPhaser s n f).slices = s.slices := rfl
@[simp] theorem modPhaser_blocks (s : State) (n : Nat) (f : Phaser → Phaser) : (modPhaser s n f).blocks = s.blocks := rfl
@[simp] theorem modPhaser_requests (s : State) (n : Nat) (f : Phaser → Phaser) : (modPhaser s n f).requests = s.requests := rfl
@[simp] theorem modPhaser_pubs (s : State) (n : Nat) (f : Phaser → Phaser) : (modPhaser s n f).pubs = s.pubs := rfl
@[simp] theorem modPhaser_releases (s : State) (n : Nat) (f : Phaser → Phaser) : (modPhaser s n f).releases = s.releases := rfl
@[simp] theorem modPhaser_probes (s : State) (n : Nat) (f : Phaser → Phaser) : (modPhaser s n f).probes = s.probes := rfl
@[simp] theorem modPhaser_objects (s : State) (n : Nat) (f : Phaser → Phaser) : (modPhaser s n f).objects = s.objects := rfl
@[simp] theorem modPhaser_fences (s : State) (n : Nat) (f : Phaser → Phaser) : (modPhaser s n f).fences = s.fences := rfl
@[simp] theorem modPhaser_hbm (s : State) (n : Nat) (f : Phaser → Phaser) : (modPhaser s n f).hbm = s.hbm := rfl
@[simp] theorem modPhaser_hbmPoison (s : State) (n : Nat) (f : Phaser → Phaser) : (modPhaser s n f).hbmPoison = s.hbmPoison := rfl
@[simp] theorem modPhaser_hbmCorrectable (s : State) (n : Nat) (f : Phaser → Phaser) : (modPhaser s n f).hbmCorrectable = s.hbmCorrectable := rfl
@[simp] theorem modPhaser_hostMem (s : State) (n : Nat) (f : Phaser → Phaser) : (modPhaser s n f).hostMem = s.hostMem := rfl
@[simp] theorem modPhaser_hostOps (s : State) (n : Nat) (f : Phaser → Phaser) : (modPhaser s n f).hostOps = s.hostOps := rfl
@[simp] theorem modPhaser_hostBefore (s : State) (n : Nat) (f : Phaser → Phaser) : (modPhaser s n f).hostBefore = s.hostBefore := rfl
@[simp] theorem modPhaser_sysOps (s : State) (n : Nat) (f : Phaser → Phaser) : (modPhaser s n f).sysOps = s.sysOps := rfl
@[simp] theorem modPhaser_biDir (s : State) (n : Nat) (f : Phaser → Phaser) : (modPhaser s n f).biDir = s.biDir := rfl
@[simp] theorem modPhaser_biWait (s : State) (n : Nat) (f : Phaser → Phaser) : (modPhaser s n f).biWait = s.biWait := rfl
@[simp] theorem modPhaser_localReq (s : State) (n : Nat) (f : Phaser → Phaser) : (modPhaser s n f).localReq = s.localReq := rfl
@[simp] theorem modPhaser_remoteReq (s : State) (n : Nat) (f : Phaser → Phaser) : (modPhaser s n f).remoteReq = s.remoteReq := rfl
@[simp] theorem modPhaser_hostReq (s : State) (n : Nat) (f : Phaser → Phaser) : (modPhaser s n f).hostReq = s.hostReq := rfl
@[simp] theorem modPhaser_cecnt (s : State) (n : Nat) (f : Phaser → Phaser) : (modPhaser s n f).cecnt = s.cecnt := rfl
@[simp] theorem modPhaser_uecnt (s : State) (n : Nat) (f : Phaser → Phaser) : (modPhaser s n f).uecnt = s.uecnt := rfl
@[simp] theorem modPhaser_assaymis (s : State) (n : Nat) (f : Phaser → Phaser) : (modPhaser s n f).assaymis = s.assaymis := rfl
@[simp] theorem modPhaser_ingot (s : State) (n : Nat) (f : Phaser → Phaser) : (modPhaser s n f).ingot = s.ingot := rfl
@[simp] theorem modPhaser_toHost (s : State) (n : Nat) (f : Phaser → Phaser) : (modPhaser s n f).toHost = s.toHost := rfl

/-! ## Fresh numbers and free values -/

@[simp] theorem freshId_variant (s : State) : (freshId s).2.variant = s.variant := rfl
@[simp] theorem freshId_flash (s : State) : (freshId s).2.flash = s.flash := rfl
@[simp] theorem freshId_power (s : State) : (freshId s).2.power = s.power := rfl
@[simp] theorem freshId_ready (s : State) : (freshId s).2.ready = s.ready := rfl
@[simp] theorem freshId_modules (s : State) : (freshId s).2.modules = s.modules := rfl
@[simp] theorem freshId_recoveryImage (s : State) : (freshId s).2.recoveryImage = s.recoveryImage := rfl
@[simp] theorem freshId_cycle (s : State) : (freshId s).2.cycle = s.cycle := rfl
@[simp] theorem freshId_free (s : State) : (freshId s).2.free = s.free := rfl
@[simp] theorem freshId_agenda (s : State) : (freshId s).2.agenda = s.agenda := rfl
@[simp] theorem freshId_issuing (s : State) : (freshId s).2.issuing = s.issuing := rfl
@[simp] theorem freshId_parts (s : State) : (freshId s).2.parts = s.parts := rfl
@[simp] theorem freshId_launches (s : State) : (freshId s).2.launches = s.launches := rfl
@[simp] theorem freshId_teams (s : State) : (freshId s).2.teams = s.teams := rfl
@[simp] theorem freshId_groups (s : State) : (freshId s).2.groups = s.groups := rfl
@[simp] theorem freshId_cores (s : State) : (freshId s).2.cores = s.cores := rfl
@[simp] theorem freshId_quarters (s : State) : (freshId s).2.quarters = s.quarters := rfl
@[simp] theorem freshId_slices (s : State) : (freshId s).2.slices = s.slices := rfl
@[simp] theorem freshId_blocks (s : State) : (freshId s).2.blocks = s.blocks := rfl
@[simp] theorem freshId_requests (s : State) : (freshId s).2.requests = s.requests := rfl
@[simp] theorem freshId_pubs (s : State) : (freshId s).2.pubs = s.pubs := rfl
@[simp] theorem freshId_releases (s : State) : (freshId s).2.releases = s.releases := rfl
@[simp] theorem freshId_probes (s : State) : (freshId s).2.probes = s.probes := rfl
@[simp] theorem freshId_phasers (s : State) : (freshId s).2.phasers = s.phasers := rfl
@[simp] theorem freshId_objects (s : State) : (freshId s).2.objects = s.objects := rfl
@[simp] theorem freshId_fences (s : State) : (freshId s).2.fences = s.fences := rfl
@[simp] theorem freshId_hbm (s : State) : (freshId s).2.hbm = s.hbm := rfl
@[simp] theorem freshId_hbmPoison (s : State) : (freshId s).2.hbmPoison = s.hbmPoison := rfl
@[simp] theorem freshId_hbmCorrectable (s : State) : (freshId s).2.hbmCorrectable = s.hbmCorrectable := rfl
@[simp] theorem freshId_hostMem (s : State) : (freshId s).2.hostMem = s.hostMem := rfl
@[simp] theorem freshId_hostOps (s : State) : (freshId s).2.hostOps = s.hostOps := rfl
@[simp] theorem freshId_hostBefore (s : State) : (freshId s).2.hostBefore = s.hostBefore := rfl
@[simp] theorem freshId_sysOps (s : State) : (freshId s).2.sysOps = s.sysOps := rfl
@[simp] theorem freshId_biDir (s : State) : (freshId s).2.biDir = s.biDir := rfl
@[simp] theorem freshId_biWait (s : State) : (freshId s).2.biWait = s.biWait := rfl
@[simp] theorem freshId_localReq (s : State) : (freshId s).2.localReq = s.localReq := rfl
@[simp] theorem freshId_remoteReq (s : State) : (freshId s).2.remoteReq = s.remoteReq := rfl
@[simp] theorem freshId_hostReq (s : State) : (freshId s).2.hostReq = s.hostReq := rfl
@[simp] theorem freshId_cecnt (s : State) : (freshId s).2.cecnt = s.cecnt := rfl
@[simp] theorem freshId_uecnt (s : State) : (freshId s).2.uecnt = s.uecnt := rfl
@[simp] theorem freshId_assaymis (s : State) : (freshId s).2.assaymis = s.assaymis := rfl
@[simp] theorem freshId_ingot (s : State) : (freshId s).2.ingot = s.ingot := rfl
@[simp] theorem freshId_toHost (s : State) : (freshId s).2.toHost = s.toHost := rfl
@[simp] theorem freeChoice_variant (s : State) (n : Nat) : (freeChoice s n).2.variant = s.variant := rfl
@[simp] theorem freeWord_variant (s : State) : (freeWord s).2.variant = s.variant := rfl
@[simp] theorem freeChoice_flash (s : State) (n : Nat) : (freeChoice s n).2.flash = s.flash := rfl
@[simp] theorem freeWord_flash (s : State) : (freeWord s).2.flash = s.flash := rfl
@[simp] theorem freeChoice_power (s : State) (n : Nat) : (freeChoice s n).2.power = s.power := rfl
@[simp] theorem freeWord_power (s : State) : (freeWord s).2.power = s.power := rfl
@[simp] theorem freeChoice_ready (s : State) (n : Nat) : (freeChoice s n).2.ready = s.ready := rfl
@[simp] theorem freeWord_ready (s : State) : (freeWord s).2.ready = s.ready := rfl
@[simp] theorem freeChoice_modules (s : State) (n : Nat) : (freeChoice s n).2.modules = s.modules := rfl
@[simp] theorem freeWord_modules (s : State) : (freeWord s).2.modules = s.modules := rfl
@[simp] theorem freeChoice_recoveryImage (s : State) (n : Nat) : (freeChoice s n).2.recoveryImage = s.recoveryImage := rfl
@[simp] theorem freeWord_recoveryImage (s : State) : (freeWord s).2.recoveryImage = s.recoveryImage := rfl
@[simp] theorem freeChoice_cycle (s : State) (n : Nat) : (freeChoice s n).2.cycle = s.cycle := rfl
@[simp] theorem freeWord_cycle (s : State) : (freeWord s).2.cycle = s.cycle := rfl
@[simp] theorem freeChoice_agenda (s : State) (n : Nat) : (freeChoice s n).2.agenda = s.agenda := rfl
@[simp] theorem freeWord_agenda (s : State) : (freeWord s).2.agenda = s.agenda := rfl
@[simp] theorem freeChoice_issuing (s : State) (n : Nat) : (freeChoice s n).2.issuing = s.issuing := rfl
@[simp] theorem freeWord_issuing (s : State) : (freeWord s).2.issuing = s.issuing := rfl
@[simp] theorem freeChoice_nextId (s : State) (n : Nat) : (freeChoice s n).2.nextId = s.nextId := rfl
@[simp] theorem freeWord_nextId (s : State) : (freeWord s).2.nextId = s.nextId := rfl
@[simp] theorem freeChoice_parts (s : State) (n : Nat) : (freeChoice s n).2.parts = s.parts := rfl
@[simp] theorem freeWord_parts (s : State) : (freeWord s).2.parts = s.parts := rfl
@[simp] theorem freeChoice_launches (s : State) (n : Nat) : (freeChoice s n).2.launches = s.launches := rfl
@[simp] theorem freeWord_launches (s : State) : (freeWord s).2.launches = s.launches := rfl
@[simp] theorem freeChoice_teams (s : State) (n : Nat) : (freeChoice s n).2.teams = s.teams := rfl
@[simp] theorem freeWord_teams (s : State) : (freeWord s).2.teams = s.teams := rfl
@[simp] theorem freeChoice_groups (s : State) (n : Nat) : (freeChoice s n).2.groups = s.groups := rfl
@[simp] theorem freeWord_groups (s : State) : (freeWord s).2.groups = s.groups := rfl
@[simp] theorem freeChoice_cores (s : State) (n : Nat) : (freeChoice s n).2.cores = s.cores := rfl
@[simp] theorem freeWord_cores (s : State) : (freeWord s).2.cores = s.cores := rfl
@[simp] theorem freeChoice_quarters (s : State) (n : Nat) : (freeChoice s n).2.quarters = s.quarters := rfl
@[simp] theorem freeWord_quarters (s : State) : (freeWord s).2.quarters = s.quarters := rfl
@[simp] theorem freeChoice_slices (s : State) (n : Nat) : (freeChoice s n).2.slices = s.slices := rfl
@[simp] theorem freeWord_slices (s : State) : (freeWord s).2.slices = s.slices := rfl
@[simp] theorem freeChoice_blocks (s : State) (n : Nat) : (freeChoice s n).2.blocks = s.blocks := rfl
@[simp] theorem freeWord_blocks (s : State) : (freeWord s).2.blocks = s.blocks := rfl
@[simp] theorem freeChoice_requests (s : State) (n : Nat) : (freeChoice s n).2.requests = s.requests := rfl
@[simp] theorem freeWord_requests (s : State) : (freeWord s).2.requests = s.requests := rfl
@[simp] theorem freeChoice_pubs (s : State) (n : Nat) : (freeChoice s n).2.pubs = s.pubs := rfl
@[simp] theorem freeWord_pubs (s : State) : (freeWord s).2.pubs = s.pubs := rfl
@[simp] theorem freeChoice_releases (s : State) (n : Nat) : (freeChoice s n).2.releases = s.releases := rfl
@[simp] theorem freeWord_releases (s : State) : (freeWord s).2.releases = s.releases := rfl
@[simp] theorem freeChoice_probes (s : State) (n : Nat) : (freeChoice s n).2.probes = s.probes := rfl
@[simp] theorem freeWord_probes (s : State) : (freeWord s).2.probes = s.probes := rfl
@[simp] theorem freeChoice_phasers (s : State) (n : Nat) : (freeChoice s n).2.phasers = s.phasers := rfl
@[simp] theorem freeWord_phasers (s : State) : (freeWord s).2.phasers = s.phasers := rfl
@[simp] theorem freeChoice_objects (s : State) (n : Nat) : (freeChoice s n).2.objects = s.objects := rfl
@[simp] theorem freeWord_objects (s : State) : (freeWord s).2.objects = s.objects := rfl
@[simp] theorem freeChoice_fences (s : State) (n : Nat) : (freeChoice s n).2.fences = s.fences := rfl
@[simp] theorem freeWord_fences (s : State) : (freeWord s).2.fences = s.fences := rfl
@[simp] theorem freeChoice_hbm (s : State) (n : Nat) : (freeChoice s n).2.hbm = s.hbm := rfl
@[simp] theorem freeWord_hbm (s : State) : (freeWord s).2.hbm = s.hbm := rfl
@[simp] theorem freeChoice_hbmPoison (s : State) (n : Nat) : (freeChoice s n).2.hbmPoison = s.hbmPoison := rfl
@[simp] theorem freeWord_hbmPoison (s : State) : (freeWord s).2.hbmPoison = s.hbmPoison := rfl
@[simp] theorem freeChoice_hbmCorrectable (s : State) (n : Nat) : (freeChoice s n).2.hbmCorrectable = s.hbmCorrectable := rfl
@[simp] theorem freeWord_hbmCorrectable (s : State) : (freeWord s).2.hbmCorrectable = s.hbmCorrectable := rfl
@[simp] theorem freeChoice_hostMem (s : State) (n : Nat) : (freeChoice s n).2.hostMem = s.hostMem := rfl
@[simp] theorem freeWord_hostMem (s : State) : (freeWord s).2.hostMem = s.hostMem := rfl
@[simp] theorem freeChoice_hostOps (s : State) (n : Nat) : (freeChoice s n).2.hostOps = s.hostOps := rfl
@[simp] theorem freeWord_hostOps (s : State) : (freeWord s).2.hostOps = s.hostOps := rfl
@[simp] theorem freeChoice_hostBefore (s : State) (n : Nat) : (freeChoice s n).2.hostBefore = s.hostBefore := rfl
@[simp] theorem freeWord_hostBefore (s : State) : (freeWord s).2.hostBefore = s.hostBefore := rfl
@[simp] theorem freeChoice_sysOps (s : State) (n : Nat) : (freeChoice s n).2.sysOps = s.sysOps := rfl
@[simp] theorem freeWord_sysOps (s : State) : (freeWord s).2.sysOps = s.sysOps := rfl
@[simp] theorem freeChoice_biDir (s : State) (n : Nat) : (freeChoice s n).2.biDir = s.biDir := rfl
@[simp] theorem freeWord_biDir (s : State) : (freeWord s).2.biDir = s.biDir := rfl
@[simp] theorem freeChoice_biWait (s : State) (n : Nat) : (freeChoice s n).2.biWait = s.biWait := rfl
@[simp] theorem freeWord_biWait (s : State) : (freeWord s).2.biWait = s.biWait := rfl
@[simp] theorem freeChoice_localReq (s : State) (n : Nat) : (freeChoice s n).2.localReq = s.localReq := rfl
@[simp] theorem freeWord_localReq (s : State) : (freeWord s).2.localReq = s.localReq := rfl
@[simp] theorem freeChoice_remoteReq (s : State) (n : Nat) : (freeChoice s n).2.remoteReq = s.remoteReq := rfl
@[simp] theorem freeWord_remoteReq (s : State) : (freeWord s).2.remoteReq = s.remoteReq := rfl
@[simp] theorem freeChoice_hostReq (s : State) (n : Nat) : (freeChoice s n).2.hostReq = s.hostReq := rfl
@[simp] theorem freeWord_hostReq (s : State) : (freeWord s).2.hostReq = s.hostReq := rfl
@[simp] theorem freeChoice_cecnt (s : State) (n : Nat) : (freeChoice s n).2.cecnt = s.cecnt := rfl
@[simp] theorem freeWord_cecnt (s : State) : (freeWord s).2.cecnt = s.cecnt := rfl
@[simp] theorem freeChoice_uecnt (s : State) (n : Nat) : (freeChoice s n).2.uecnt = s.uecnt := rfl
@[simp] theorem freeWord_uecnt (s : State) : (freeWord s).2.uecnt = s.uecnt := rfl
@[simp] theorem freeChoice_assaymis (s : State) (n : Nat) : (freeChoice s n).2.assaymis = s.assaymis := rfl
@[simp] theorem freeWord_assaymis (s : State) : (freeWord s).2.assaymis = s.assaymis := rfl
@[simp] theorem freeChoice_ingot (s : State) (n : Nat) : (freeChoice s n).2.ingot = s.ingot := rfl
@[simp] theorem freeWord_ingot (s : State) : (freeWord s).2.ingot = s.ingot := rfl
@[simp] theorem freeChoice_toHost (s : State) (n : Nat) : (freeChoice s n).2.toHost = s.toHost := rfl
@[simp] theorem freeWord_toHost (s : State) : (freeWord s).2.toHost = s.toHost := rfl

/-! ## An object after its own update, and the others -/

@[simp] theorem grpAt_modGrp_same (s : State) (g : Nat) (f : Group → Group) : grpAt (modGrp s g f) g = f (grpAt s g) := by
  simp [grpAt, modGrp, putGrp]
theorem grpAt_modGrp_ne (s : State) (g : Nat) (f : Group → Group) (k : Nat) (h : k ≠ g) : grpAt (modGrp s g f) k = grpAt s k := by
  simp [grpAt, modGrp, putGrp, mapGet_mapPut_ne _ _ _ h]
@[simp] theorem teamAt_modTeam_same (s : State) (n : Nat) (f : Team → Team) : teamAt (modTeam s n f) n = f (teamAt s n) := by
  simp [teamAt, modTeam]
theorem teamAt_modTeam_ne (s : State) (n : Nat) (f : Team → Team) (k : Nat) (h : k ≠ n) : teamAt (modTeam s n f) k = teamAt s k := by
  simp [teamAt, modTeam, mapGet_mapPut_ne _ _ _ h]
@[simp] theorem launchAt_modLaunch_same (s : State) (n : Nat) (f : Launch → Launch) : launchAt (modLaunch s n f) n = f (launchAt s n) := by
  simp [launchAt, modLaunch]
theorem launchAt_modLaunch_ne (s : State) (n : Nat) (f : Launch → Launch) (k : Nat) (h : k ≠ n) : launchAt (modLaunch s n f) k = launchAt s k := by
  simp [launchAt, modLaunch, mapGet_mapPut_ne _ _ _ h]
@[simp] theorem partAt_modPart_same (s : State) (n : Nat) (f : Partition → Partition) : partAt (modPart s n f) n = f (partAt s n) := by
  simp [partAt, modPart]
theorem partAt_modPart_ne (s : State) (n : Nat) (f : Partition → Partition) (k : Nat) (h : k ≠ n) : partAt (modPart s n f) k = partAt s k := by
  simp [partAt, modPart, mapGet_mapPut_ne _ _ _ h]
@[simp] theorem coreAt_modCore_same (s : State) (n : Nat) (f : Core → Core) : coreAt (modCore s n f) n = f (coreAt s n) := by
  simp [coreAt, modCore]
theorem coreAt_modCore_ne (s : State) (n : Nat) (f : Core → Core) (k : Nat) (h : k ≠ n) : coreAt (modCore s n f) k = coreAt s k := by
  simp [coreAt, modCore, mapGet_mapPut_ne _ _ _ h]
@[simp] theorem quartAt_modQuart_same (s : State) (n : Nat) (f : Quarter → Quarter) : quartAt (modQuart s n f) n = f (quartAt s n) := by
  simp [quartAt, modQuart]
theorem quartAt_modQuart_ne (s : State) (n : Nat) (f : Quarter → Quarter) (k : Nat) (h : k ≠ n) : quartAt (modQuart s n f) k = quartAt s k := by
  simp [quartAt, modQuart, mapGet_mapPut_ne _ _ _ h]
@[simp] theorem sliceAt_modSlice_same (s : State) (n : Nat) (f : Slice → Slice) : sliceAt (modSlice s n f) n = f (sliceAt s n) := by
  simp [sliceAt, modSlice]
theorem sliceAt_modSlice_ne (s : State) (n : Nat) (f : Slice → Slice) (k : Nat) (h : k ≠ n) : sliceAt (modSlice s n f) k = sliceAt s k := by
  simp [sliceAt, modSlice, mapGet_mapPut_ne _ _ _ h]
@[simp] theorem blockAt_modBlock_same (s : State) (n : Nat) (f : TlbBlock → TlbBlock) : blockAt (modBlock s n f) n = f (blockAt s n) := by
  simp [blockAt, modBlock]
theorem blockAt_modBlock_ne (s : State) (n : Nat) (f : TlbBlock → TlbBlock) (k : Nat) (h : k ≠ n) : blockAt (modBlock s n f) k = blockAt s k := by
  simp [blockAt, modBlock, mapGet_mapPut_ne _ _ _ h]
@[simp] theorem phaserAt_modPhaser_same (s : State) (n : Nat) (f : Phaser → Phaser) : phaserAt (modPhaser s n f) n = f (phaserAt s n) := by
  simp [phaserAt, modPhaser]
theorem phaserAt_modPhaser_ne (s : State) (n : Nat) (f : Phaser → Phaser) (k : Nat) (h : k ≠ n) : phaserAt (modPhaser s n f) k = phaserAt s k := by
  simp [phaserAt, modPhaser, mapGet_mapPut_ne _ _ _ h]
@[simp] theorem grpAt_putGrp_same (s : State) (g : Nat) (x : Group) : grpAt (putGrp s g x) g = x := by
  simp [grpAt, putGrp]
theorem grpAt_putGrp_ne (s : State) (g k : Nat) (x : Group) (h : k ≠ g) : grpAt (putGrp s g x) k = grpAt s k := by
  simp [grpAt, putGrp, mapGet_mapPut_ne _ _ _ h]

/-! ## Other objects after an update -/

@[simp] theorem teamAt_putGrp (s : State) (g : Nat) (x : Group) (k : Nat) : teamAt (putGrp s g x) k = teamAt s k := rfl
@[simp] theorem launchAt_putGrp (s : State) (g : Nat) (x : Group) (k : Nat) : launchAt (putGrp s g x) k = launchAt s k := rfl
@[simp] theorem partAt_putGrp (s : State) (g : Nat) (x : Group) (k : Nat) : partAt (putGrp s g x) k = partAt s k := rfl
@[simp] theorem coreAt_putGrp (s : State) (g : Nat) (x : Group) (k : Nat) : coreAt (putGrp s g x) k = coreAt s k := rfl
@[simp] theorem quartAt_putGrp (s : State) (g : Nat) (x : Group) (k : Nat) : quartAt (putGrp s g x) k = quartAt s k := rfl
@[simp] theorem sliceAt_putGrp (s : State) (g : Nat) (x : Group) (k : Nat) : sliceAt (putGrp s g x) k = sliceAt s k := rfl
@[simp] theorem blockAt_putGrp (s : State) (g : Nat) (x : Group) (k : Nat) : blockAt (putGrp s g x) k = blockAt s k := rfl
@[simp] theorem phaserAt_putGrp (s : State) (g : Nat) (x : Group) (k : Nat) : phaserAt (putGrp s g x) k = phaserAt s k := rfl
@[simp] theorem teamAt_modGrp (s : State) (g : Nat) (f : Group → Group) (k : Nat) : teamAt (modGrp s g f) k = teamAt s k := rfl
@[simp] theorem launchAt_modGrp (s : State) (g : Nat) (f : Group → Group) (k : Nat) : launchAt (modGrp s g f) k = launchAt s k := rfl
@[simp] theorem partAt_modGrp (s : State) (g : Nat) (f : Group → Group) (k : Nat) : partAt (modGrp s g f) k = partAt s k := rfl
@[simp] theorem coreAt_modGrp (s : State) (g : Nat) (f : Group → Group) (k : Nat) : coreAt (modGrp s g f) k = coreAt s k := rfl
@[simp] theorem quartAt_modGrp (s : State) (g : Nat) (f : Group → Group) (k : Nat) : quartAt (modGrp s g f) k = quartAt s k := rfl
@[simp] theorem sliceAt_modGrp (s : State) (g : Nat) (f : Group → Group) (k : Nat) : sliceAt (modGrp s g f) k = sliceAt s k := rfl
@[simp] theorem blockAt_modGrp (s : State) (g : Nat) (f : Group → Group) (k : Nat) : blockAt (modGrp s g f) k = blockAt s k := rfl
@[simp] theorem phaserAt_modGrp (s : State) (g : Nat) (f : Group → Group) (k : Nat) : phaserAt (modGrp s g f) k = phaserAt s k := rfl
@[simp] theorem teamAt_modThread (s : State) (g l : Nat) (f : Thread → Thread) (k : Nat) : teamAt (modThread s g l f) k = teamAt s k := rfl
@[simp] theorem launchAt_modThread (s : State) (g l : Nat) (f : Thread → Thread) (k : Nat) : launchAt (modThread s g l f) k = launchAt s k := rfl
@[simp] theorem partAt_modThread (s : State) (g l : Nat) (f : Thread → Thread) (k : Nat) : partAt (modThread s g l f) k = partAt s k := rfl
@[simp] theorem coreAt_modThread (s : State) (g l : Nat) (f : Thread → Thread) (k : Nat) : coreAt (modThread s g l f) k = coreAt s k := rfl
@[simp] theorem quartAt_modThread (s : State) (g l : Nat) (f : Thread → Thread) (k : Nat) : quartAt (modThread s g l f) k = quartAt s k := rfl
@[simp] theorem sliceAt_modThread (s : State) (g l : Nat) (f : Thread → Thread) (k : Nat) : sliceAt (modThread s g l f) k = sliceAt s k := rfl
@[simp] theorem blockAt_modThread (s : State) (g l : Nat) (f : Thread → Thread) (k : Nat) : blockAt (modThread s g l f) k = blockAt s k := rfl
@[simp] theorem phaserAt_modThread (s : State) (g l : Nat) (f : Thread → Thread) (k : Nat) : phaserAt (modThread s g l f) k = phaserAt s k := rfl
@[simp] theorem grpAt_modTeam (s : State) (n : Nat) (f : Team → Team) (k : Nat) : grpAt (modTeam s n f) k = grpAt s k := rfl
@[simp] theorem launchAt_modTeam (s : State) (n : Nat) (f : Team → Team) (k : Nat) : launchAt (modTeam s n f) k = launchAt s k := rfl
@[simp] theorem partAt_modTeam (s : State) (n : Nat) (f : Team → Team) (k : Nat) : partAt (modTeam s n f) k = partAt s k := rfl
@[simp] theorem coreAt_modTeam (s : State) (n : Nat) (f : Team → Team) (k : Nat) : coreAt (modTeam s n f) k = coreAt s k := rfl
@[simp] theorem quartAt_modTeam (s : State) (n : Nat) (f : Team → Team) (k : Nat) : quartAt (modTeam s n f) k = quartAt s k := rfl
@[simp] theorem sliceAt_modTeam (s : State) (n : Nat) (f : Team → Team) (k : Nat) : sliceAt (modTeam s n f) k = sliceAt s k := rfl
@[simp] theorem blockAt_modTeam (s : State) (n : Nat) (f : Team → Team) (k : Nat) : blockAt (modTeam s n f) k = blockAt s k := rfl
@[simp] theorem phaserAt_modTeam (s : State) (n : Nat) (f : Team → Team) (k : Nat) : phaserAt (modTeam s n f) k = phaserAt s k := rfl
@[simp] theorem grpAt_modLaunch (s : State) (n : Nat) (f : Launch → Launch) (k : Nat) : grpAt (modLaunch s n f) k = grpAt s k := rfl
@[simp] theorem teamAt_modLaunch (s : State) (n : Nat) (f : Launch → Launch) (k : Nat) : teamAt (modLaunch s n f) k = teamAt s k := rfl
@[simp] theorem partAt_modLaunch (s : State) (n : Nat) (f : Launch → Launch) (k : Nat) : partAt (modLaunch s n f) k = partAt s k := rfl
@[simp] theorem coreAt_modLaunch (s : State) (n : Nat) (f : Launch → Launch) (k : Nat) : coreAt (modLaunch s n f) k = coreAt s k := rfl
@[simp] theorem quartAt_modLaunch (s : State) (n : Nat) (f : Launch → Launch) (k : Nat) : quartAt (modLaunch s n f) k = quartAt s k := rfl
@[simp] theorem sliceAt_modLaunch (s : State) (n : Nat) (f : Launch → Launch) (k : Nat) : sliceAt (modLaunch s n f) k = sliceAt s k := rfl
@[simp] theorem blockAt_modLaunch (s : State) (n : Nat) (f : Launch → Launch) (k : Nat) : blockAt (modLaunch s n f) k = blockAt s k := rfl
@[simp] theorem phaserAt_modLaunch (s : State) (n : Nat) (f : Launch → Launch) (k : Nat) : phaserAt (modLaunch s n f) k = phaserAt s k := rfl
@[simp] theorem grpAt_modPart (s : State) (n : Nat) (f : Partition → Partition) (k : Nat) : grpAt (modPart s n f) k = grpAt s k := rfl
@[simp] theorem teamAt_modPart (s : State) (n : Nat) (f : Partition → Partition) (k : Nat) : teamAt (modPart s n f) k = teamAt s k := rfl
@[simp] theorem launchAt_modPart (s : State) (n : Nat) (f : Partition → Partition) (k : Nat) : launchAt (modPart s n f) k = launchAt s k := rfl
@[simp] theorem coreAt_modPart (s : State) (n : Nat) (f : Partition → Partition) (k : Nat) : coreAt (modPart s n f) k = coreAt s k := rfl
@[simp] theorem quartAt_modPart (s : State) (n : Nat) (f : Partition → Partition) (k : Nat) : quartAt (modPart s n f) k = quartAt s k := rfl
@[simp] theorem sliceAt_modPart (s : State) (n : Nat) (f : Partition → Partition) (k : Nat) : sliceAt (modPart s n f) k = sliceAt s k := rfl
@[simp] theorem blockAt_modPart (s : State) (n : Nat) (f : Partition → Partition) (k : Nat) : blockAt (modPart s n f) k = blockAt s k := rfl
@[simp] theorem phaserAt_modPart (s : State) (n : Nat) (f : Partition → Partition) (k : Nat) : phaserAt (modPart s n f) k = phaserAt s k := rfl
@[simp] theorem grpAt_modCore (s : State) (n : Nat) (f : Core → Core) (k : Nat) : grpAt (modCore s n f) k = grpAt s k := rfl
@[simp] theorem teamAt_modCore (s : State) (n : Nat) (f : Core → Core) (k : Nat) : teamAt (modCore s n f) k = teamAt s k := rfl
@[simp] theorem launchAt_modCore (s : State) (n : Nat) (f : Core → Core) (k : Nat) : launchAt (modCore s n f) k = launchAt s k := rfl
@[simp] theorem partAt_modCore (s : State) (n : Nat) (f : Core → Core) (k : Nat) : partAt (modCore s n f) k = partAt s k := rfl
@[simp] theorem quartAt_modCore (s : State) (n : Nat) (f : Core → Core) (k : Nat) : quartAt (modCore s n f) k = quartAt s k := rfl
@[simp] theorem sliceAt_modCore (s : State) (n : Nat) (f : Core → Core) (k : Nat) : sliceAt (modCore s n f) k = sliceAt s k := rfl
@[simp] theorem blockAt_modCore (s : State) (n : Nat) (f : Core → Core) (k : Nat) : blockAt (modCore s n f) k = blockAt s k := rfl
@[simp] theorem phaserAt_modCore (s : State) (n : Nat) (f : Core → Core) (k : Nat) : phaserAt (modCore s n f) k = phaserAt s k := rfl
@[simp] theorem grpAt_modQuart (s : State) (n : Nat) (f : Quarter → Quarter) (k : Nat) : grpAt (modQuart s n f) k = grpAt s k := rfl
@[simp] theorem teamAt_modQuart (s : State) (n : Nat) (f : Quarter → Quarter) (k : Nat) : teamAt (modQuart s n f) k = teamAt s k := rfl
@[simp] theorem launchAt_modQuart (s : State) (n : Nat) (f : Quarter → Quarter) (k : Nat) : launchAt (modQuart s n f) k = launchAt s k := rfl
@[simp] theorem partAt_modQuart (s : State) (n : Nat) (f : Quarter → Quarter) (k : Nat) : partAt (modQuart s n f) k = partAt s k := rfl
@[simp] theorem coreAt_modQuart (s : State) (n : Nat) (f : Quarter → Quarter) (k : Nat) : coreAt (modQuart s n f) k = coreAt s k := rfl
@[simp] theorem sliceAt_modQuart (s : State) (n : Nat) (f : Quarter → Quarter) (k : Nat) : sliceAt (modQuart s n f) k = sliceAt s k := rfl
@[simp] theorem blockAt_modQuart (s : State) (n : Nat) (f : Quarter → Quarter) (k : Nat) : blockAt (modQuart s n f) k = blockAt s k := rfl
@[simp] theorem phaserAt_modQuart (s : State) (n : Nat) (f : Quarter → Quarter) (k : Nat) : phaserAt (modQuart s n f) k = phaserAt s k := rfl
@[simp] theorem grpAt_modSlice (s : State) (n : Nat) (f : Slice → Slice) (k : Nat) : grpAt (modSlice s n f) k = grpAt s k := rfl
@[simp] theorem teamAt_modSlice (s : State) (n : Nat) (f : Slice → Slice) (k : Nat) : teamAt (modSlice s n f) k = teamAt s k := rfl
@[simp] theorem launchAt_modSlice (s : State) (n : Nat) (f : Slice → Slice) (k : Nat) : launchAt (modSlice s n f) k = launchAt s k := rfl
@[simp] theorem partAt_modSlice (s : State) (n : Nat) (f : Slice → Slice) (k : Nat) : partAt (modSlice s n f) k = partAt s k := rfl
@[simp] theorem coreAt_modSlice (s : State) (n : Nat) (f : Slice → Slice) (k : Nat) : coreAt (modSlice s n f) k = coreAt s k := rfl
@[simp] theorem quartAt_modSlice (s : State) (n : Nat) (f : Slice → Slice) (k : Nat) : quartAt (modSlice s n f) k = quartAt s k := rfl
@[simp] theorem blockAt_modSlice (s : State) (n : Nat) (f : Slice → Slice) (k : Nat) : blockAt (modSlice s n f) k = blockAt s k := rfl
@[simp] theorem phaserAt_modSlice (s : State) (n : Nat) (f : Slice → Slice) (k : Nat) : phaserAt (modSlice s n f) k = phaserAt s k := rfl
@[simp] theorem grpAt_modBlock (s : State) (n : Nat) (f : TlbBlock → TlbBlock) (k : Nat) : grpAt (modBlock s n f) k = grpAt s k := rfl
@[simp] theorem teamAt_modBlock (s : State) (n : Nat) (f : TlbBlock → TlbBlock) (k : Nat) : teamAt (modBlock s n f) k = teamAt s k := rfl
@[simp] theorem launchAt_modBlock (s : State) (n : Nat) (f : TlbBlock → TlbBlock) (k : Nat) : launchAt (modBlock s n f) k = launchAt s k := rfl
@[simp] theorem partAt_modBlock (s : State) (n : Nat) (f : TlbBlock → TlbBlock) (k : Nat) : partAt (modBlock s n f) k = partAt s k := rfl
@[simp] theorem coreAt_modBlock (s : State) (n : Nat) (f : TlbBlock → TlbBlock) (k : Nat) : coreAt (modBlock s n f) k = coreAt s k := rfl
@[simp] theorem quartAt_modBlock (s : State) (n : Nat) (f : TlbBlock → TlbBlock) (k : Nat) : quartAt (modBlock s n f) k = quartAt s k := rfl
@[simp] theorem sliceAt_modBlock (s : State) (n : Nat) (f : TlbBlock → TlbBlock) (k : Nat) : sliceAt (modBlock s n f) k = sliceAt s k := rfl
@[simp] theorem phaserAt_modBlock (s : State) (n : Nat) (f : TlbBlock → TlbBlock) (k : Nat) : phaserAt (modBlock s n f) k = phaserAt s k := rfl
@[simp] theorem grpAt_modPhaser (s : State) (n : Nat) (f : Phaser → Phaser) (k : Nat) : grpAt (modPhaser s n f) k = grpAt s k := rfl
@[simp] theorem teamAt_modPhaser (s : State) (n : Nat) (f : Phaser → Phaser) (k : Nat) : teamAt (modPhaser s n f) k = teamAt s k := rfl
@[simp] theorem launchAt_modPhaser (s : State) (n : Nat) (f : Phaser → Phaser) (k : Nat) : launchAt (modPhaser s n f) k = launchAt s k := rfl
@[simp] theorem partAt_modPhaser (s : State) (n : Nat) (f : Phaser → Phaser) (k : Nat) : partAt (modPhaser s n f) k = partAt s k := rfl
@[simp] theorem coreAt_modPhaser (s : State) (n : Nat) (f : Phaser → Phaser) (k : Nat) : coreAt (modPhaser s n f) k = coreAt s k := rfl
@[simp] theorem quartAt_modPhaser (s : State) (n : Nat) (f : Phaser → Phaser) (k : Nat) : quartAt (modPhaser s n f) k = quartAt s k := rfl
@[simp] theorem sliceAt_modPhaser (s : State) (n : Nat) (f : Phaser → Phaser) (k : Nat) : sliceAt (modPhaser s n f) k = sliceAt s k := rfl
@[simp] theorem blockAt_modPhaser (s : State) (n : Nat) (f : Phaser → Phaser) (k : Nat) : blockAt (modPhaser s n f) k = blockAt s k := rfl

end Sys2Proof.Machine
end

