-- ==== Sys2Proof/Laws/Frames.lean ====
section
/-! SUPPORT. Frames.lean: what the shared operations of an issue leave alone: instruction fetch, block entry,
the issue stage's notes, mailboxes and escalation. -/

namespace Sys2Proof.Machine

/-! ## States that agree -/

theorem sameMemory_refl (s : State) : SameMemory s s := ⟨rfl, rfl, rfl, fun _ => rfl⟩
theorem sameRegisters_refl (s : State) : SameRegisters s s := fun _ => ⟨rfl, fun _ => ⟨rfl, rfl⟩⟩
theorem sameStatus_refl (s : State) : SameStatus s s := fun _ => ⟨rfl, rfl, rfl, rfl, rfl, rfl, rfl⟩
theorem sameTrap_refl (s : State) : SameTrap s s := fun _ => ⟨rfl, rfl, rfl, rfl, rfl, rfl, rfl⟩

theorem sameMemory_trans {s t u : State} (h : SameMemory s t) (k : SameMemory t u) : SameMemory s u :=
  ⟨h.1.trans k.1, h.2.1.trans k.2.1, h.2.2.1.trans k.2.2.1, fun x => (h.2.2.2 x).trans (k.2.2.2 x)⟩

theorem sameRegisters_trans {s t u : State} (h : SameRegisters s t) (k : SameRegisters t u) :
    SameRegisters s u := fun g =>
  ⟨(h g).1.trans (k g).1, fun l => ⟨((h g).2 l).1.trans ((k g).2 l).1, ((h g).2 l).2.trans ((k g).2 l).2⟩⟩

theorem sameStatus_trans {s t u : State} (h : SameStatus s t) (k : SameStatus t u) : SameStatus s u := fun g => by
  obtain ⟨a, b, c, d, e, f, i⟩ := h g
  obtain ⟨a', b', c', d', e', f', i'⟩ := k g
  exact ⟨a.trans a', b.trans b', c.trans c', d.trans d', e.trans e', f.trans f', i.trans i'⟩

theorem sameTrap_trans {s t u : State} (h : SameTrap s t) (k : SameTrap t u) : SameTrap s u := fun g => by
  obtain ⟨a, b, c, d, e, f, i⟩ := h g
  obtain ⟨a', b', c', d', e', f', i'⟩ := k g
  exact ⟨a.trans a', b.trans b', c.trans c', d.trans d', e.trans e', f.trans f', i.trans i'⟩

/-! ## A change of one group -/

theorem sameMemory_modGrp (s : State) (g : Nat) (f : Group → Group) : SameMemory s (modGrp s g f) :=
  ⟨rfl, rfl, rfl, fun _ => rfl⟩

theorem sameRegisters_modGrp (s : State) (g : Nat) (f : Group → Group)
    (h : (grpAt s g).s = (f (grpAt s g)).s ∧ ∀ l, ((grpAt s g).thread l).v = ((f (grpAt s g)).thread l).v ∧
      ((grpAt s g).thread l).p = ((f (grpAt s g)).thread l).p) : SameRegisters s (modGrp s g f) := fun k => by
  by_cases hk : k = g
  · subst hk; rw [grpAt_modGrp_same]; exact h
  · rw [grpAt_modGrp_ne s _ f _ hk]; exact ⟨rfl, fun _ => ⟨rfl, rfl⟩⟩

theorem sameStatus_modGrp (s : State) (g : Nat) (f : Group → Group)
    (h : ∀ x, (f x).fflags = x.fflags ∧ (f x).ftrapen = x.ftrapen ∧ (f x).rmode = x.rmode ∧ (f x).xvec = x.xvec ∧
      (f x).xscratch = x.xscratch ∧ (f x).txcfg = x.txcfg ∧ (f x).xa = x.xa) : SameStatus s (modGrp s g f) := fun k => by
  by_cases hk : k = g
  · subst hk; rw [grpAt_modGrp_same]
    obtain ⟨a, b, c, d, e, f, i⟩ := h (grpAt s k)
    exact ⟨a.symm, b.symm, c.symm, d.symm, e.symm, f.symm, i.symm⟩
  · rw [grpAt_modGrp_ne s _ f _ hk]; exact ⟨rfl, rfl, rfl, rfl, rfl, rfl, rfl⟩

theorem sameTrap_modGrp (s : State) (g : Nat) (f : Group → Group)
    (h : ∀ x, (f x).xpc = x.xpc ∧ (f x).xfirst = x.xfirst ∧ (f x).xaddr = x.xaddr ∧ (f x).xcause = x.xcause ∧
      (f x).xstat = x.xstat ∧ (f x).progidx = x.progidx ∧ (f x).priv = x.priv) : SameTrap s (modGrp s g f) := fun k => by
  by_cases hk : k = g
  · subst hk; rw [grpAt_modGrp_same]
    obtain ⟨a, b, c, d, e, f, i⟩ := h (grpAt s k)
    exact ⟨a.symm, b.symm, c.symm, d.symm, e.symm, f.symm, i.symm⟩
  · rw [grpAt_modGrp_ne s _ f _ hk]; exact ⟨rfl, rfl, rfl, rfl, rfl, rfl, rfl⟩

/-! ## Changes of threads -/

/-- The thread of a lane after one lane's thread changes. -/
theorem thread_modThread (g : Group) (l k : Nat) (f : Thread → Thread) :
    (g.modThread l f).thread k = if k = l ∧ l < g.threads.length then f (g.thread k) else g.thread k := by
  simp only [Group.thread, Group.modThread]
  generalize g.threads = ts
  induction ts generalizing l k with
  | nil => simp [listMod]
  | cons t ts ih =>
    cases l with
    | zero => cases k <;> simp [listMod]
    | succ l =>
      cases k with
      | zero => simp [listMod]
      | succ k => simpa [listMod] using ih l k

/-- The thread of a lane after the lanes of a mask change. -/
theorem thread_modLanes (g : Group) (m : Mask) (f : Nat → Thread → Thread) (k : Nat) :
    (g.modLanes m f).thread k =
      if k < g.threads.length ∧ hasBit m k = true then f k (g.thread k) else g.thread k := by
  simp only [Group.thread, Group.modLanes, List.getD_eq_getElem?_getD, List.getElem?_mapIdx]
  by_cases h : k < g.threads.length
  · simp only [List.getElem?_eq_getElem h, h, true_and]
    cases hb : hasBit m k <;> simp
  · simp [h]

/-! ## Fetching and entering blocks -/

/-- Fetching changes no group, team, partition, quarter or memory: it fills instruction lines, pins pages and posts
mailbox records. -/
def FetchOnly (s t : State) : Prop :=
  t.groups = s.groups ∧ t.teams = s.teams ∧ t.parts = s.parts ∧ t.quarters = s.quarters ∧
    t.hbm = s.hbm ∧ t.hostMem = s.hostMem ∧ t.cycle = s.cycle

theorem FetchOnly.refl (s : State) : FetchOnly s s := ⟨rfl, rfl, rfl, rfl, rfl, rfl, rfl⟩

theorem FetchOnly.trans {s t u : State} (h : FetchOnly s t) (k : FetchOnly t u) : FetchOnly s u := by
  obtain ⟨a, b, d, e, f, g, i⟩ := h
  obtain ⟨a', b', d', e', f', g', i'⟩ := k
  exact ⟨a'.trans a, b'.trans b, d'.trans d, e'.trans e, f'.trans f, g'.trans g, i'.trans i⟩

theorem fetchOnly_modCore (s : State) (c : Nat) (f : Core → Core) : FetchOnly s (modCore s c f) :=
  ⟨rfl, rfl, rfl, rfl, rfl, rfl, rfl⟩

theorem fetchOnly_pinPage (s : State) (lid page : Nat) : FetchOnly s (pinPage s lid page) := by
  unfold pinPage
  split
  · exact FetchOnly.refl s
  · exact ⟨rfl, rfl, rfl, rfl, rfl, rfl, rfl⟩

theorem fetchOnly_sendFetch (s : State) (core lid asid line : Nat) (who : Option (Nat × Word × Nat)) :
    FetchOnly s (sendFetch s core lid asid line who) := by
  unfold sendFetch
  split
  · exact FetchOnly.refl s
  · exact ⟨rfl, rfl, rfl, rfl, rfl, rfl, rfl⟩

theorem fetchOnly_fillInstr (s : State) (core lid va : Nat) (who : Option (Nat × Word × Nat)) :
    FetchOnly s (fillInstr s core lid va who) := by
  unfold fillInstr
  simp only
  split
  · exact FetchOnly.refl s
  · split
    · have h := (fetchOnly_sendFetch s core lid (launchAt s lid).asid (va / 128) who).trans
        (fetchOnly_modCore _ core fun c =>
          putInstr c (launchAt s lid).asid (va / 128) ‹_› (linePoison s lid (launchAt s lid).asid (va / 128)))
      split
      · exact h.trans (fetchOnly_pinPage ..)
      · exact h
    · exact FetchOnly.refl s

theorem fetchOnly_fetchFor (s : State) (g : Nat) (pc : Word) (l va : Nat) : FetchOnly s (fetchFor s g pc l va) :=
  (fetchOnly_fillInstr ..).trans (fetchOnly_fillInstr ..)

theorem fetchOnly_fetchLines (s : State) (g va : Nat) : FetchOnly s (fetchLines s g va) := fetchOnly_fetchFor ..

/-- A record that no group raised, and that none waits for, changes a mailbox only (R374). -/
theorem fetchOnly_postBadWalk (s : State) (core lid asid va : Nat) : FetchOnly s (postBadWalk s core lid asid va) := by
  unfold postBadWalk escalateFree postEscalation
  split
  · simp only
    split <;> exact fetchOnly_modCore ..
  · exact FetchOnly.refl s

theorem fetchOnly_dropHint (s : State) (core lid asid va n : Nat) : FetchOnly s (dropHint s core lid asid va n) := by
  unfold dropHint
  simp only
  split
  · split
    · exact fetchOnly_modCore ..
    · split
      · exact fetchOnly_modCore ..
      · exact (fetchOnly_modCore ..).trans (fetchOnly_modCore ..)
  · exact fetchOnly_modCore ..

theorem fetchOnly_prefetchInstr (s : State) (core lid va n : Nat) : FetchOnly s (prefetchInstr s core lid va n) := by
  induction n generalizing s va with
  | zero => exact FetchOnly.refl s
  | succ n ih =>
    unfold prefetchInstr
    simp only
    split
    · exact (fetchOnly_fillInstr ..).trans (ih ..)
    · exact (fetchOnly_postBadWalk ..).trans (fetchOnly_dropHint ..)
    · exact fetchOnly_dropHint ..

theorem FetchOnly.grpAt {s t : State} (h : FetchOnly s t) (g : Nat) : grpAt t g = grpAt s g := by
  simp only [Machine.grpAt, h.1]

theorem FetchOnly.sameMemory {s t : State} (h : FetchOnly s t) : SameMemory s t :=
  ⟨h.2.2.2.2.1.symm, h.2.2.2.2.2.1.symm, h.2.2.1.symm, fun k => by simp only [teamAt, h.2.1]⟩

theorem FetchOnly.sameRegisters {s t : State} (h : FetchOnly s t) : SameRegisters s t := fun g => by
  rw [h.grpAt]; exact ⟨rfl, fun _ => ⟨rfl, rfl⟩⟩

theorem FetchOnly.sameStatus {s t : State} (h : FetchOnly s t) : SameStatus s t := fun g => by
  rw [h.grpAt]; exact ⟨rfl, rfl, rfl, rfl, rfl, rfl, rfl⟩

theorem FetchOnly.sameTrap {s t : State} (h : FetchOnly s t) : SameTrap s t := fun g => by
  rw [h.grpAt]; exact ⟨rfl, rfl, rfl, rfl, rfl, rfl, rfl⟩

/-! ## What an operation leaves alone, all at once -/

/-- Memory, registers, status and trap registers all read as before. -/
def Still (s t : State) : Prop := SameMemory s t ∧ SameRegisters s t ∧ SameStatus s t ∧ SameTrap s t

theorem Still.refl (s : State) : Still s s :=
  ⟨sameMemory_refl s, sameRegisters_refl s, sameStatus_refl s, sameTrap_refl s⟩

theorem Still.trans {s t u : State} (h : Still s t) (k : Still t u) : Still s u :=
  ⟨sameMemory_trans h.1 k.1, sameRegisters_trans h.2.1 k.2.1, sameStatus_trans h.2.2.1 k.2.2.1, sameTrap_trans h.2.2.2 k.2.2.2⟩

theorem FetchOnly.still {s t : State} (h : FetchOnly s t) : Still s t :=
  ⟨h.sameMemory, h.sameRegisters, h.sameStatus, h.sameTrap⟩

/-- A change of one lane's thread that keeps its registers. -/
theorem still_modThread (s : State) (g l : Nat) (f : Thread → Thread) (h : ∀ t, (f t).v = t.v ∧ (f t).p = t.p) :
    Still s (modThread s g l f) := by
  refine ⟨sameMemory_modGrp .., sameRegisters_modGrp _ _ _ ⟨rfl, fun k => ?_⟩,
    sameStatus_modGrp _ _ _ fun _ => ⟨rfl, rfl, rfl, rfl, rfl, rfl, rfl⟩,
    sameTrap_modGrp _ _ _ fun _ => ⟨rfl, rfl, rfl, rfl, rfl, rfl, rfl⟩⟩
  rw [thread_modThread]
  split
  · exact ⟨(h _).1.symm, (h _).2.symm⟩
  · exact ⟨rfl, rfl⟩

theorem still_modQuart (s : State) (n : Nat) (f : Quarter → Quarter) : Still s (modQuart s n f) :=
  ⟨⟨rfl, rfl, rfl, fun _ => rfl⟩, fun _ => ⟨rfl, fun _ => ⟨rfl, rfl⟩⟩,
    fun _ => ⟨rfl, rfl, rfl, rfl, rfl, rfl, rfl⟩, fun _ => ⟨rfl, rfl, rfl, rfl, rfl, rfl, rfl⟩⟩

theorem still_modCore (s : State) (n : Nat) (f : Core → Core) : Still s (modCore s n f) :=
  ⟨⟨rfl, rfl, rfl, fun _ => rfl⟩, fun _ => ⟨rfl, fun _ => ⟨rfl, rfl⟩⟩,
    fun _ => ⟨rfl, rfl, rfl, rfl, rfl, rfl, rfl⟩, fun _ => ⟨rfl, rfl, rfl, rfl, rfl, rfl, rfl⟩⟩

theorem still_modLaunch (s : State) (n : Nat) (f : Launch → Launch) : Still s (modLaunch s n f) :=
  ⟨⟨rfl, rfl, rfl, fun _ => rfl⟩, fun _ => ⟨rfl, fun _ => ⟨rfl, rfl⟩⟩,
    fun _ => ⟨rfl, rfl, rfl, rfl, rfl, rfl, rfl⟩, fun _ => ⟨rfl, rfl, rfl, rfl, rfl, rfl, rfl⟩⟩

/-- A fold of operations that each leave everything alone. -/
theorem still_foldl {α : Type} (f : State → α → State) (h : ∀ s a, Still s (f s a)) (xs : List α) (s : State) :
    Still s (xs.foldl f s) := by
  induction xs generalizing s with
  | nil => exact Still.refl s
  | cons x xs ih => exact (h s x).trans (ih _)

theorem enterBlock_v (t : Thread) (va : Word) (h : Header) : (enterBlock t va h).v = t.v := by
  unfold enterBlock; rfl

theorem enterBlock_p (t : Thread) (va : Word) (h : Header) : (enterBlock t va h).p = t.p := by
  unfold enterBlock; rfl

/-- A lane that enters blocks keeps its registers (R33, R355). -/
theorem still_enterLane (s : State) (g l n : Nat) : Still s (enterLane s g l n) := by
  induction n generalizing s with
  | zero => exact Still.refl s
  | succ n ih =>
    unfold enterLane
    split
    · have hf := (fetchOnly_fetchLines s g ((grpAt s g).thread l).pc.toNat).still
      simp only
      split
      · exact hf
      · split
        · exact hf
        · refine hf.trans (Still.trans ?_ (ih _))
          refine Still.trans ?_ (fetchOnly_prefetchInstr ..).still
          refine Still.trans ?_ (still_modThread _ _ _ _ fun t => ⟨enterBlock_v .., enterBlock_p ..⟩)
          split
          · exact Still.refl _
          · exact (fetchOnly_fetchFor ..).still
    · exact Still.refl s

theorem thread_releaseRecon (g : Group) (l : Nat) :
    ((releaseRecon g).thread l).v = (g.thread l).v ∧ ((releaseRecon g).thread l).p = (g.thread l).p := by
  simp only [Group.thread, releaseRecon, List.getD_eq_getElem?_getD, List.getElem?_mapIdx]
  cases h : g.threads[l]? with
  | none => exact ⟨rfl, rfl⟩
  | some t =>
    simp only [Option.map_some, Option.getD_some]
    split
    · split <;> exact ⟨rfl, rfl⟩
    · exact ⟨rfl, rfl⟩

/-- The lanes that enter blocks keep everything but their place in the program. -/
theorem still_enterBlocks (s : State) (g : Nat) : Still s (enterBlocks s g) := by
  unfold enterBlocks
  refine Still.trans (still_foldl (fun s l => enterLane s g l headerRun) (fun s l => still_enterLane s g l headerRun) (List.range (grpAt s g).width) s) ?_
  refine ⟨sameMemory_modGrp .., sameRegisters_modGrp _ _ _ ⟨rfl, fun k => ?_⟩,
    sameStatus_modGrp _ _ _ fun _ => ⟨rfl, rfl, rfl, rfl, rfl, rfl, rfl⟩,
    sameTrap_modGrp _ _ _ fun _ => ⟨rfl, rfl, rfl, rfl, rfl, rfl, rfl⟩⟩
  exact ⟨(thread_releaseRecon _ k).1.symm, (thread_releaseRecon _ k).2.symm⟩

/-! ## The issue stage's notes, and causes -/

/-- The mark that a lane aborts keeps its registers; they go back when the abort is taken (R325). -/
theorem still_abortLane (s : State) (g l c k : Nat) : Still s (abortLane s g l c k) :=
  still_modThread _ _ _ _ fun t => by split <;> exact ⟨rfl, rfl⟩

theorem still_abortLanes (s : State) (g : Nat) (m : Mask) (c k : Nat) : Still s (abortLanes s g m c k) :=
  still_foldl _ (fun s l => still_abortLane s g l c k) _ _

theorem still_notePick (s : State) (i : Issue) (it : Item) : Still s (notePick s i it) := still_modQuart ..

theorem still_countCause (s : State) (lid : Nat) (c : CauseCode) : Still s (countCause s lid c) := still_modLaunch ..

/-- A group's mark that it is held. -/
theorem still_held (s : State) (g : Nat) (x : Held) : Still s (modGrp s g fun y => { y with held := x }) :=
  ⟨sameMemory_modGrp .., sameRegisters_modGrp _ _ _ ⟨rfl, fun _ => ⟨rfl, rfl⟩⟩,
    sameStatus_modGrp _ _ _ fun _ => ⟨rfl, rfl, rfl, rfl, rfl, rfl, rfl⟩,
    sameTrap_modGrp _ _ _ fun _ => ⟨rfl, rfl, rfl, rfl, rfl, rfl, rfl⟩⟩

/-- Posting an escalation changes a mailbox and the mark that its group is held (R374). -/
theorem still_postEscalation (s : State) (core : Nat) (r : MboxRec) (w : Waiter) :
    Still s (postEscalation s core r w) := by
  unfold postEscalation
  simp only
  split
  · split
    · exact (still_modCore ..).trans (still_held ..)
    · exact (still_modCore ..).trans (still_held ..)
    · exact still_modCore ..
  · split
    · exact (still_modCore ..).trans (still_held ..)
    · exact (still_modCore ..).trans (still_held ..)
    · exact still_modCore ..

/-- An escalation leaves memory, registers and the banked registers alone (R368 step 1, R374). -/
theorem still_escalate (s : State) (gid : Nat) (pc : Word) (c : Cause) (orig : Nat) :
    Still s (escalate s gid pc c orig) := by
  unfold escalate
  simp only
  refine Still.trans ?_ (still_postEscalation ..)
  refine Still.trans ?_ (still_countCause ..)
  have h : Still s (modGrp s gid fun g => { g with heldCause := some c }) :=
    ⟨sameMemory_modGrp .., sameRegisters_modGrp _ _ _ ⟨rfl, fun _ => ⟨rfl, rfl⟩⟩,
      sameStatus_modGrp _ _ _ fun _ => ⟨rfl, rfl, rfl, rfl, rfl, rfl, rfl⟩,
      sameTrap_modGrp _ _ _ fun _ => ⟨rfl, rfl, rfl, rfl, rfl, rfl, rfl⟩⟩
  split
  · exact h.trans ⟨⟨rfl, rfl, rfl, fun _ => rfl⟩, fun _ => ⟨rfl, fun _ => ⟨rfl, rfl⟩⟩,
      fun _ => ⟨rfl, rfl, rfl, rfl, rfl, rfl, rfl⟩, fun _ => ⟨rfl, rfl, rfl, rfl, rfl, rfl, rfl⟩⟩
  · exact h

/-! ## Writes of registers -/

/-- A write of one vector register leaves every other one, of every lane, alone. -/
theorem readV_modThread_writeV_ne (g : Group) (l n : Nat) (x : Word) : ∀ k m, (k ≠ l ∨ m ≠ n) →
    readV ((g.modThread l fun t => writeV { t with poison := t.poison.filter (· ≠ n) } n x).thread k) m = readV (g.thread k) m := by
  intro k m h
  rw [thread_modThread]
  split
  · rename_i hh
    obtain ⟨rfl, _⟩ := hh
    simp at h
    simp [readV, writeV, mapGet_mapSet_ne _ _ _ h]
  · rfl

/-- The bits of a predicate register after one is set or cleared. -/
theorem getLsbD_bitMask : ∀ p : BitVec 7, ∀ i, i < 7 → ∀ j, j < 8 → ((p ||| bitMask 7 i).getLsbD j = (p.getLsbD j || (decide (i = j)))) ∧ ((p &&& ~~~ bitMask 7 i).getLsbD j = (p.getLsbD j && (decide (i ≠ j)))) := by
      decide +kernel
theorem bitMask_of_le : ∀ i, 7 ≤ i →  bitMask 7 i = 0 := by
  intro i h; unfold bitMask; apply BitVec.eq_of_toNat_eq; simp
  have : 2^7 ∣ 2 ^ i := Nat.pow_dvd_pow _ h
  omega

theorem readP_writeP_ne (t : Thread) (i j : Nat) (b : Bool) (hj : j < 8) (h : j ≠ i) : readP (writeP t i b) j = readP t j := by
  unfold readP writeP
  split
  · rfl
  · split
    · rfl
    · by_cases hi : i < 7
      · have := getLsbD_bitMask t.p i hi j hj
        cases b <;> simp [hasBit, this, Ne.symm h]
      · have := bitMask_of_le i (by omega)
        rw [this]
        cases b <;> simp only [Bool.false_eq_true, if_false, if_true]
        · rw [show ~~~(0 : BitVec 7) = BitVec.allOnes 7 from rfl, BitVec.and_allOnes]
        · rw [show t.p ||| 0 = t.p from BitVec.or_zero]

/-- A register write changes the register it names and nothing else of the group. -/
theorem applyWrite_frame (g : Group) (w : RegWrite) :
    let x := applyWrite g w
    (∀ n, w.dest ≠ .s n → readS x n = readS g n) ∧
    (∀ l n, w.dest ≠ .v l n → readV (x.thread l) n = readV (g.thread l) n) ∧
    (∀ l p, p < 8 → w.dest ≠ .p l p → readP (x.thread l) p = readP (g.thread l) p) ∧
    x.fflags = g.fflags ∧ 
    x.ftrapen = g.ftrapen ∧ x.rmode = g.rmode ∧ x.xa = g.xa ∧ x.xpc = g.xpc ∧ x.xcause = g.xcause ∧
    x.xvec = g.xvec ∧ x.xscratch = g.xscratch ∧ x.txcfg = g.txcfg ∧ x.priv = g.priv := by
  obtain ⟨l, d, v⟩ := w
  cases d with
  | v l n =>
    have key : ∀ y : Group, y = (g.modThread l fun t => writeV { t with poison := t.poison.filter (· ≠ n) } n v) →
      (∀ n, readS y n = readS g n) ∧
      (∀ k m, Dest.v l n ≠ .v k m → readV (y.thread k) m = readV (g.thread k) m) ∧
      (∀ l p, readP (y.thread l) p = readP (g.thread l) p) := by
      rintro y rfl
      refine ⟨fun _ => rfl, fun k m h => readV_modThread_writeV_ne _ _ _ _ _ _ ?_, fun k p => ?_⟩
      · simp at h; by_cases hk : k = l
        · right; intro hm; exact h hk.symm hm.symm
        · left; exact hk
      · rw [thread_modThread]; split <;> rfl
    obtain ⟨a, b, c⟩ := key _ rfl
    exact ⟨fun n _ => a n, b, fun l p _ _ => c l p, rfl, rfl, rfl, rfl, rfl, rfl, rfl, rfl, rfl, rfl⟩
  | s n =>
    refine ⟨fun m h => ?_, fun _ _ _ => rfl, fun _ _ _ _ => rfl, rfl, rfl, rfl, rfl, rfl, rfl, rfl, rfl, rfl, rfl⟩
    simp at h
    simp [applyWrite, readS, writeS, mapGet_mapSet_ne _ _ _ (Ne.symm h)]
  | p l n =>
    refine ⟨fun m h => rfl, fun k m h => ?_, fun k m hm h => ?_, rfl, rfl, rfl, rfl, rfl, rfl, rfl, rfl, rfl, rfl⟩
    · simp only [applyWrite]
      rw [thread_modThread]; split
      · unfold writeP; split <;> rfl
      · rfl
    · simp only [applyWrite]
      rw [thread_modThread]; split
      · rename_i hh; obtain ⟨rfl, _⟩ := hh
        simp at h
        exact readP_writeP_ne _ _ _ _ hm (Ne.symm h)
      · rfl

/-- Register writes change the registers they name and nothing else of the group. -/
theorem applyWrites_frame (ws : List RegWrite) : ∀ (g : Group),
    let x := applyWrites g ws
    (∀ n, (∀ w ∈ ws, w.dest ≠ .s n) → readS x n = readS g n) ∧
    (∀ l n, (∀ w ∈ ws, w.dest ≠ .v l n) → readV (x.thread l) n = readV (g.thread l) n) ∧
    (∀ l p, p < 8 → (∀ w ∈ ws, w.dest ≠ .p l p) → readP (x.thread l) p = readP (g.thread l) p) ∧
    x.fflags = g.fflags ∧ 
    x.ftrapen = g.ftrapen ∧ x.rmode = g.rmode ∧ x.xa = g.xa ∧ x.xpc = g.xpc ∧ x.xcause = g.xcause ∧
    x.xvec = g.xvec ∧ x.xscratch = g.xscratch ∧ x.txcfg = g.txcfg ∧ x.priv = g.priv := by
  induction ws with
  | nil => intro g; exact ⟨fun _ _ => rfl, fun _ _ _ => rfl, fun _ _ _ _ => rfl, rfl, rfl, rfl, rfl, rfl, rfl, rfl, rfl, rfl, rfl⟩
  | cons w ws ih =>
    intro g
    obtain ⟨a1, a2, a3, a4, a5, a6, a7, a8, a9, a10, a11, a12, a13⟩ := applyWrite_frame g w
    obtain ⟨b1, b2, b3, b4, b5, b6, b7, b8, b9, b10, b11, b12, b13⟩ := ih (applyWrite g w)
    refine ⟨fun n h => (b1 n fun w hw => h w (.tail _ hw)).trans (a1 n (h w (.head _))), fun l n h => (b2 l n fun w hw => h w (.tail _ hw)).trans (a2 l n (h w (.head _))),
      fun l n hn h => (b3 l n hn fun w hw => h w (.tail _ hw)).trans (a3 l n hn (h w (.head _))), b4.trans a4, b5.trans a5, b6.trans a6, b7.trans a7, b8.trans a8, b9.trans a9, b10.trans a10, b11.trans a11, b12.trans a12, b13.trans a13⟩


/-! ## The issue of an item -/

theorem advance_v (t : Thread) (next : Word) (r : Option (Fin 768)) : (advance t next r).v = t.v := by
  unfold advance; split
  · split <;> rfl
  · rfl

theorem advance_p (t : Thread) (next : Word) (r : Option (Fin 768)) : (advance t next r).p = t.p := by
  unfold advance; split
  · split <;> rfl
  · rfl

/-- Two groups with the same registers, status and trap registers. -/
def GroupStill (g h : Group) : Prop :=
  (g.s = h.s ∧ ∀ l, (g.thread l).v = (h.thread l).v ∧ (g.thread l).p = (h.thread l).p) ∧
  (g.fflags = h.fflags ∧ g.ftrapen = h.ftrapen ∧ g.rmode = h.rmode ∧ g.xvec = h.xvec ∧ g.xscratch = h.xscratch ∧
    g.txcfg = h.txcfg ∧ g.xa = h.xa) ∧
  g.xpc = h.xpc ∧ g.xfirst = h.xfirst ∧ g.xaddr = h.xaddr ∧ g.xcause = h.xcause ∧ g.xstat = h.xstat ∧
    g.progidx = h.progidx ∧ g.priv = h.priv

theorem GroupStill.refl (g : Group) : GroupStill g g :=
  ⟨⟨rfl, fun _ => ⟨rfl, rfl⟩⟩, ⟨rfl, rfl, rfl, rfl, rfl, rfl, rfl⟩, rfl, rfl, rfl, rfl, rfl, rfl, rfl⟩

theorem GroupStill.trans {g h k : Group} (a : GroupStill g h) (b : GroupStill h k) : GroupStill g k := by
  obtain ⟨⟨a1, a2⟩, ⟨a3, a4, a5, a6, a7, a8, a9⟩, c1, c2, c3, c4, c5, c6, c7⟩ := a
  obtain ⟨⟨b1, b2⟩, ⟨b3, b4, b5, b6, b7, b8, b9⟩, d1, d2, d3, d4, d5, d6, d7⟩ := b
  exact ⟨⟨a1.trans b1, fun l => ⟨(a2 l).1.trans (b2 l).1, (a2 l).2.trans (b2 l).2⟩⟩,
    ⟨a3.trans b3, a4.trans b4, a5.trans b5, a6.trans b6, a7.trans b7, a8.trans b8, a9.trans b9⟩, c1.trans d1,
    c2.trans d2, c3.trans d3, c4.trans d4, c5.trans d5, c6.trans d6, c7.trans d7⟩

/-- Groups that agree in every field that matters. -/
theorem GroupStill.of_fields {g h k : Group} (h1 : h.s = k.s) (h2 : h.threads = k.threads) (h3 : h.fflags = k.fflags)
    (h4 : h.ftrapen = k.ftrapen) (h5 : h.rmode = k.rmode) (h6 : h.xvec = k.xvec) (h7 : h.xscratch = k.xscratch)
    (h8 : h.txcfg = k.txcfg) (h9 : h.xa = k.xa) (h10 : h.xpc = k.xpc) (h11 : h.xfirst = k.xfirst)
    (h12 : h.xaddr = k.xaddr) (h13 : h.xcause = k.xcause) (h14 : h.xstat = k.xstat) (h15 : h.progidx = k.progidx)
    (h16 : h.priv = k.priv) (a : GroupStill g h) : GroupStill g k := by
  refine a.trans ⟨⟨h1, fun l => ?_⟩, ⟨h3, h4, h5, h6, h7, h8, h9⟩, h10, h11, h12, h13, h14, h15, h16⟩
  simp only [Group.thread, h2, and_self]

/-- A change of one group that keeps its registers, status and trap registers. -/
theorem still_modGrp (s : State) (n : Nat) (f : Group → Group) (h : GroupStill (grpAt s n) (f (grpAt s n))) :
    Still s (modGrp s n f) := by
  have key : ∀ k, GroupStill (grpAt s k) (grpAt (modGrp s n f) k) := fun k => by
    by_cases hk : k = n
    · subst hk; rw [grpAt_modGrp_same]; exact h
    · rw [grpAt_modGrp_ne s _ f _ hk]; exact GroupStill.refl _
  exact ⟨sameMemory_modGrp .., fun k => (key k).1, fun k => (key k).2.1, fun k => (key k).2.2⟩

/-- Changing lanes' threads but not their registers. -/
theorem groupStill_modLanes (g : Group) (m : Mask) (f : Nat → Thread → Thread)
    (h : ∀ l t, (f l t).v = t.v ∧ (f l t).p = t.p) : GroupStill g (g.modLanes m f) := by
  refine ⟨⟨rfl, fun l => ?_⟩, ⟨rfl, rfl, rfl, rfl, rfl, rfl, rfl⟩, rfl, rfl, rfl, rfl, rfl, rfl, rfl⟩
  rw [thread_modLanes]
  split
  · exact ⟨(h _ _).1.symm, (h _ _).2.symm⟩
  · exact ⟨rfl, rfl⟩

theorem groupStill_countPcs (s : State) (g : Group) (pc : Word) : GroupStill g (countPcs s g pc) := GroupStill.refl _

theorem groupStill_raiseFlag (g : Group) (f : Option (Fin 12)) : GroupStill g (raiseFlag g f) := by
  cases f <;> exact GroupStill.refl _

theorem countItem_regs (t : Thread) : (countItem t).v = t.v ∧ (countItem t).p = t.p := by
  unfold countItem
  simp only
  split <;> split <;> exact ⟨rfl, rfl⟩

/-- The issue of an item changes no byte of memory, no register, no status and no trap register (R15, R358). -/
theorem still_finishIssue (s : State) (i : Issue) (it : Item) (ex : Mask) (e : Effect) :
    Still s (finishIssue s i it ex e) := by
  unfold finishIssue
  simp only
  refine Still.trans ?_ (still_enterBlocks ..)
  refine Still.trans ?_ (still_abortLanes ..)
  refine Still.trans ?_ (still_notePick ..)
  refine Still.trans ?_ (still_modQuart ..)
  refine still_modGrp _ _ _ ?_
  refine GroupStill.trans (groupStill_countPcs s _ i.pc) ?_
  refine GroupStill.trans (groupStill_raiseFlag _ it.hdr.ctl.setf) ?_
  generalize raiseFlag (countPcs s (grpAt s i.gid) i.pc) it.hdr.ctl.setf = g
  have step1 : GroupStill g (if e.yields then { g with lowPcs := g.lowPcs ++ [(i.act, 0)] } else g) := by
    split <;> exact GroupStill.refl _
  refine GroupStill.trans step1 ?_
  generalize (if e.yields then { g with lowPcs := g.lowPcs ++ [(i.act, 0)] } else g) = g
  have step2 : GroupStill g (if it.guardExit then
        g.modLanes (i.act &&& ~~~ex) fun _ t => if t.wait = .aborting then t else endThread t
      else g) := by
    split
    · refine groupStill_modLanes _ _ _ fun l t => ?_
      split <;> exact ⟨rfl, rfl⟩
    · exact GroupStill.refl _
  refine GroupStill.trans step2 ?_
  generalize (if it.guardExit then
        g.modLanes (i.act &&& ~~~ex) fun _ t => if t.wait = .aborting then t else endThread t
      else g) = g
  refine GroupStill.of_fields rfl rfl rfl rfl rfl rfl rfl rfl rfl rfl rfl rfl rfl rfl rfl rfl ?_
  split
  · exact GroupStill.refl _
  · refine groupStill_modLanes _ _ _ fun l t => ?_
    have items := countItem_regs t
    generalize countItem t = u at items
    rw [← items.1, ← items.2]
    split
    · split
      · unfold jumpTo; exact ⟨rfl, rfl⟩
      · exact ⟨advance_v .., advance_p ..⟩
    · exact ⟨advance_v .., advance_p ..⟩

end Sys2Proof.Machine
end

