-- ==== Sys2Proof/Laws/Issue.lean ====
section
/-! SUPPORT. Issue.lean: what the issue of an item gives, said once for every instruction of code. -/

namespace Sys2Proof.Machine

/-! ## Masks -/

theorem getLsbD_maskOf (xs : List Nat) (i : Nat) (h : i < 64) : (maskOf 64 xs).getLsbD i = xs.contains i := by
  induction xs with
  | nil => simp [maskOf]
  | cons x xs ih =>
    have hb : (bitMask 64 x).getLsbD i = decide (i = x) := by
      simp only [bitMask, BitVec.getLsbD_ofNat, Nat.one_shiftLeft, Nat.testBit_two_pow, h, decide_true, Bool.true_and]
      rcases Nat.lt_trichotomy x i with hx | hx | hx <;> simp <;> omega
    simp [maskOf, ih, hb]

theorem hasBit_maskWhere (w : Nat) (f : Nat → Bool) (i : Nat) (h : i < 64) :
    hasBit (maskWhere w f) i = (decide (i < w) && f i) := by
  simp [hasBit, maskWhere, getLsbD_maskOf _ _ h, List.contains_eq_mem, List.mem_filter]

theorem maskOf_lanesOf_maskWhere (w : Nat) (f : Nat → Bool) :
    maskOf 64 (lanesOf w (maskWhere w f)) = maskWhere w f := by
  apply BitVec.eq_of_getLsbD_eq
  intro i hi
  rw [getLsbD_maskOf _ _ hi]
  have := hasBit_maskWhere w f i hi
  simp only [hasBit] at this
  simp [lanesOf, List.contains_eq_mem, List.mem_filter, hasBit, this]

@[simp] theorem lanesOf_zero (w : Nat) : lanesOf w 0 = [] := by simp [lanesOf, hasBit]

/-- An item without vector destinations, or without transactional lanes, saves nothing for an abort. -/
theorem saveTxUndo_none (s : State) (gid : Nat) (regs ls : List Nat)
    (h : regs = [] ∨ ∀ l ∈ ls, ((grpAt s gid).thread l).tx.active = false) :
    saveTxUndo s gid regs ls = (s, ls) := by
  induction ls with
  | nil => rfl
  | cons l ls ih =>
    have ih := ih (h.imp id fun h l hl => h l (List.mem_cons_of_mem _ hl))
    rcases h with h | h
    · subst h; simp [saveTxUndo, ih]
    · simp [saveTxUndo, ih, h l (by simp)]

@[simp] theorem abortLanes_zero (s : State) (gid c k : Nat) : abortLanes s gid 0 c k = s := by
  show List.foldl _ s (lanesOf _ 0) = s
  rw [lanesOf_zero]; rfl

/-! ## The issue of an item -/

theorem txLanes_none {g : Group} (h : ∀ l, (g.thread l).tx.active = false) : g.txLanes = 0 := by
  have : (List.range g.width).filter (fun l => (g.thread l).status == .running && (g.thread l).tx.active) = [] := by
    simp [h]
  simp [Group.txLanes, maskWhere, this, maskOf]

theorem usesOf_ready {g : Group} {it : Item} (h : ∀ u ∈ usesOf g it, u = .ready) :
    ((usesOf g it).findSome? fun u => match u with | .raises c => some c | _ => none) = none ∧
      (usesOf g it).any (· == .waits) = false := by
  constructor
  · rw [List.findSome?_eq_none_iff]
    intro u hu; rw [h u hu]
  · rw [List.any_eq_false]
    intro u hu; rw [h u hu]; decide

/-- What an item that issues gives, whatever its body answers. -/
theorem runItem_issues {it : Item} {body : Issue → Mask → State → Body} {s : State} {i : Issue} {ex : Mask}
    (h : Issues it s i ex) :
    runItem it body s =
      match body i ex s with
      | .wait => notIssued s
      | .begun s3 => .next s3
      | .fault c => .next (raiseExec s i it ex c)
      | .laneFault c s3 =>
        .next (deliver (notePick s3 i it) { i with act := i.act &&& ~~~(grpAt s i.gid).txLanes } i.pc c)
      | .trap c => .next (raiseTrap (notePick s i it) i ex c)
      | .done e s3 => .next (finishIssue s3 i it (e.ran.getD ex) e) := by
  obtain ⟨⟨hi, hf, hde, hd, hdef, hh, ha, hw, hs, hu⟩, hc, rfl, hne, htx, hsp, hacc, huses, hsb, hp⟩ := h
  unfold Decodes at hc
  obtain ⟨hu1, hu2⟩ := usesOf_ready huses
  have hbad : (if it.guardExit then i.act &&& (grpAt s i.gid).txLanes
      else if (it.txBad || namesStream it) = true then execLanes (grpAt s i.gid) i.act it.hdr &&& (grpAt s i.gid).txLanes
      else 0) = 0 := by
    by_cases h : it.txBad = true ∨ namesStream it = true ∨ it.guardExit = true ∨ vDests it ≠ []
    · rw [txLanes_none (htx h)]; simp
    · simp only [not_or, Bool.not_eq_true, ne_eq, Decidable.not_not] at h
      simp [h.1, h.2.1, h.2.2.1]
  have hundo : ∀ ls, saveTxUndo s i.gid (vDests it) ls = (s, ls) := by
    intro ls
    apply saveTxUndo_none
    by_cases h : vDests it = []
    · exact .inl h
    · exact .inr fun l _ => htx (.inr (.inr (.inr h))) l
  have hmask : maskOf 64 (lanesOf (grpAt s i.gid).width (execLanes (grpAt s i.gid) i.act it.hdr)) =
      execLanes (grpAt s i.gid) i.act it.hdr := maskOf_lanesOf_maskWhere _ _
  have hz : ∀ m : Mask, m &&& ~~~(0 : Mask) = m := fun m => by
    show m &&& BitVec.allOnes 64 = m
    exact BitVec.and_allOnes
  unfold runItem
  simp only [hi, hf, hde, hd, hdef, hh, ha, hw, hs, hu, hc, hbad, abortLanes_zero, hz, hacc, hsb, hp, hundo, hmask,
    hne, hsp, hu2, Bool.not_true, Bool.or_self, Bool.false_eq_true, if_false, decide_false, Bool.false_and]
  split
  · rename_i c hcause; exact absurd (hcause.symm.trans hu1) (by simp)
  · rfl

/-- An item that issues takes the effect that its body gives. -/
theorem runItem_done {it : Item} {body : Issue → Mask → State → Body} {s s' : State} {i : Issue} {ex : Mask}
    {e : Effect} (h : Issues it s i ex) (hb : body i ex s = .done e s') :
    runItem it body s = .next (finishIssue s' i it (e.ran.getD ex) e) := by rw [runItem_issues h, hb]

/-- An item that is ready and raises a cause at decode raises it (R41). -/
theorem runItem_cause {it : Item} {body : Issue → Mask → State → Body} {s : State} {i : Issue} {c : Cause}
    (h : MayIssue it s i) (hc : decodeCause s i.gid it (pairBanksBad (grpAt s i.gid) i.act it) = some c) :
    runItem it body s = .next (raiseItem s i it c) := by
  obtain ⟨hi, hf, hde, hd, hdef, hh, ha, hw, hs, hu⟩ := h
  unfold runItem
  simp only [hi, hf, hde, hd, hdef, hh, ha, hw, hs, hu, hc, Bool.not_true, Bool.or_self, Bool.false_eq_true, if_false]

/-! ## Checks -/

theorem and_not_zero (m : Mask) : m &&& ~~~(0 : Mask) = m := by
  show m &&& BitVec.allOnes 64 = m
  exact BitVec.and_allOnes

/-- An item whose lanes fail no check goes on with all of them. -/
theorem checked_nil {i : Issue} {ex : Mask} {s : State} {pick : List Fail → Option Cause} {k : Mask → State → Body}
    (hp : pick [] = none) (hne : ex ≠ 0) :
    checked i ex s [] pick k =
      match k ex s with
      | .done e s => .done { e with ran := e.ran <|> some ex } s
      | b => b := by
  have hs : splitFails s i.gid [] = (s, 0, []) := by simp [splitFails, maskOf]
  simp only [checked, hs, hp, and_not_zero, hne, if_false] <;> rfl

@[simp] theorem lowestFail_nil : lowestFail [] = none := rfl
@[simp] theorem firstTarget_nil : firstTarget [] = none := rfl

/-- A lane of a mask's list is in the mask. -/
theorem hasBit_of_mem_lanesOf {w : Nat} {m : Mask} {l : Nat} (h : l ∈ lanesOf w m) : hasBit m l = true := by
  simp only [lanesOf, List.mem_filter] at h; exact h.2

/-- Filtering per-lane data of the executing lanes by the executing lanes leaves it whole. -/
theorem filter_lanes {α : Type} (w : Nat) (m : Mask) (f : Nat → α) (key : α → Nat) (hk : ∀ l, key (f l) = l) :
    ((lanesOf w m).map f).filter (fun e => hasBit m (key e)) = (lanesOf w m).map f := by
  rw [List.filter_eq_self]
  intro e he
  obtain ⟨l, hl, rfl⟩ := List.mem_map.1 he
  rw [hk]; exact hasBit_of_mem_lanesOf hl

@[simp] theorem abortCapacity_nil (s : State) (gid : Nat) (ex : Mask) : abortCapacity s gid [] ex = (s, ex) := by
  simp only [abortCapacity, List.foldl_nil, maskOf]
  congr 1
  exact and_not_zero ex

theorem mem_of_mem_dedup {xs : List Nat} {p : Nat} (h : p ∈ dedup xs) : p ∈ xs := by
  induction xs with
  | nil => simp [dedup] at h
  | cons x xs ih =>
    unfold dedup at h
    rcases List.mem_cons.1 h with h | h
    · simp [h]
    · exact List.mem_cons_of_mem _ (ih (List.mem_filter.1 h).1)

/-- A store or update whose lanes fail no check, and whose pages have all answered, goes on. -/
theorem probed_ok {i : Issue} {ex : Mask} {s : State} {pages : List (Nat × Word × Nat)}
    {wr : Bool} {k : Mask → State → Body} (hp : probesAnswered i s pages) (hne : ex ≠ 0) :
    probed i ex s pages wr [] k =
      match k ex (clearProbes s i) with
      | .done e s => .done { e with ran := e.ran <|> some ex } s
      | b => b := by
  have q : ∀ p ∈ dedup (pages.map (·.2.2)), ∃ x, probeOf s i.gid i.pc p = some x ∧ x.answered = some .yes := by
    intro p hpp
    obtain ⟨e, he, rfl⟩ := List.mem_map.1 (mem_of_mem_dedup hpp)
    exact hp e he
  have a1 : ((dedup (pages.map (·.2.2))).any fun p => (probeOf s i.gid i.pc p).isNone) = false := by
    rw [List.any_eq_false]; intro p hpp; obtain ⟨x, hx, _⟩ := q p hpp; simp [hx]
  have a2 : ((dedup (pages.map (·.2.2))).any fun p =>
      ((probeOf s i.gid i.pc p).bind (·.answered)).isNone) = false := by
    rw [List.any_eq_false]; intro p hpp; obtain ⟨x, hx, hy⟩ := q p hpp; simp [hx, hy]
  have a3 : pages.filterMap (fun e => ((probeOf s i.gid i.pc e.2.2).bind (·.answered)).bind fun r =>
      (residentCause r).map fun c => laneFail e.1 5 c e.2.1 wr) = [] := by
    rw [List.filterMap_eq_nil_iff]; intro e he; obtain ⟨x, hx, hy⟩ := hp e he; simp [hx, hy, residentCause]
  unfold probed
  simp only [a1, a2, a3, Bool.false_eq_true, if_false, List.append_nil]
  exact checked_nil lowestFail_nil hne

/-- The addresses of the executing lanes, filtered by them. -/
theorem filter_laneNats {addr : State → Nat → Nat → Word} {i : Issue} {ex : Mask} {s : State} :
    (laneNats addr i ex s).filter (fun e => hasBit ex e.1) = laneNats addr i ex s := by
  simp only [laneNats, laneAddrs, lanes, List.map_map, Function.comp_def]
  exact filter_lanes _ _ (fun l => (l, (addr s i.gid l).toNat)) (fun t => t.1) fun _ => rfl

/-! ## Instructions in the terms of Safety.lean -/

/-- An instruction that runs an item takes the effect that the item's body gives. -/
theorem takes_of {ins : Instr} {it : Item} {body : Issue → Mask → State → Body}
    {ok : Issue → Mask → State → Prop} {e : Issue → Mask → State → Effect} {post : Issue → Mask → State → State}
    (hx : ∀ s, exec ins s = runItem it body s)
    (hb : ∀ s i ex, Issues it s i ex → ok i ex s → body i ex s = .done (e i ex s) (post i ex s)) :
    Takes ins it ok e post := fun s i ex h hok => by
  rw [hx, runItem_done h (hb s i ex h hok)]

/-- An instruction whose lanes each compute a result. -/
theorem computes_of {ins : Instr} {it : Item} {d : Opnd} {k : Nat} {f : Group → Nat → List Word → Word}
    {ff : Group → Nat → List Word → FF}
    (hx : ∀ s, exec ins s = runItem it (laneBody it d k fun g l xs => (f g l xs, ff g l xs)) s) :
    Computes ins it .ready d k f ff :=
  takes_of hx fun s i ex _ _ => by
    simp [laneBody, laneValues, laneFlags, lanes, List.map_map, Function.comp_def]

/-- An instruction whose lanes each compute a result and raise no flag. -/
theorem computesPure_of {ins : Instr} {it : Item} {d : Opnd} {f : List Word → Word}
    (hx : ∀ s, exec ins s = runPure it d f s) : ComputesPure ins it d f := computes_of hx

/-- An instruction of the D unit. -/
theorem computes_div {ins : Instr} {it : Item} {d : Opnd} {k : Nat} {f : Group → Nat → List Word → Word}
    {ff : Group → Nat → List Word → FF} {fn : Group → List Word → Word × FF}
    (hx : ∀ s, exec ins s = runDiv it d k fn s) (h1 : ∀ g l xs, (fn g xs).1 = f g l xs)
    (h2 : ∀ g l xs, (fn g xs).2 = ff g l xs) :
    Computes ins it .div d k f ff := by
  obtain rfl : (fun g _ xs => (fn g xs).1) = f := by funext g l xs; exact h1 g l xs
  obtain rfl : (fun g _ xs => (fn g xs).2) = ff := by funext g l xs; exact h2 g l xs
  exact takes_of hx fun s i ex _ _ => by
    simp [laneBody, laneValues, laneFlags, lanes, List.map_map, Function.comp_def]

/-- An instruction whose lanes each compute a predicate. -/
theorem computesPred_of {ins : Instr} {it : Item} {pd : Fin 8} {f : Group → Nat → List Word → Bool}
    {ff : Group → Nat → List Word → FF}
    (hx : ∀ s, exec ins s = runItem it (predBody it pd fun g l xs => (f g l xs, ff g l xs)) s) :
    ComputesPred ins it pd f ff :=
  takes_of hx fun s i ex _ _ => by
    simp [predBody, laneFlags, lanes, List.map_map, Function.comp_def]

/-- An instruction whose lanes read the sources of other lanes. -/
theorem crosses_of {ins : Instr} {it : Item} {d : Opnd}
    {f : Group → Mask → (Nat → Word) → (Nat → Word) → Nat → Word}
    (hx : ∀ s, exec ins s = runCross it d f s) : Crosses ins it d f :=
  takes_of hx fun s i ex _ _ => by simp [lanes]

end Sys2Proof.Machine
end

