-- ==== Sys2Proof/Tests/Slice0.lean ====
section
/-! SUPPORT. Slice0.lean: the tests of this model. Expected values are worked out from the specification's
own encodings and tables; the witnesses show that the hypotheses of the statements can be met. -/

namespace Sys2Proof.Tests

-- One test after another: side by side their evaluations take more memory than the build has.
set_option Elab.async false

open Sys2Proof Sys2Proof.Machine

/-- Unguarded, with no control clause. -/
def h0 : Hdr := ⟨⟨0, 0, none, false⟩, ⟨7, false⟩, .none⟩

/-! ## Words written out in the specification decode to their instructions -/

/-- The worked encoding of `(p3) IADD.I32 v10, v20, v29 :: dist=2 wait=f0+f4 set=f1 yield`, and LEA's family in the
L form, `IADD.I64 v7, v7, 0x100000000` (R15 to R19). -/
theorem test_decode_integer :
    decodeTableWord 96 0x00050000E828050620220229 =
      some (.iaddS ⟨⟨2, 0x011, some 1, true⟩, ⟨3, false⟩, .none⟩ .i32 false (.v 10) (.v 20) (.v 29)) ∧
    decodeTableWord 128 0x00000001000000000B01C077101E0002 =
      some (.iaddL h0 .i64 false (.v 7) (.v 7) 0x100000000) := by decide +kernel

/-- The worked encoding of `IADD.I64 v8, v1, v2 || FMUL.F32 v16, v1, v11 :: set=f2` (R20). -/
theorem test_decode_paired : decodeTableWord 96 0x005820C80200408023C40001 =
    some (.pairedWord ⟨⟨0, 0, some 2, false⟩, ⟨7, false⟩, .none⟩ 0x01 0x32 (.v 8) (.v 1) (.v 2) (.v 16) (.v 11)) := by
  decide +kernel

/-- `FFMA.F32.RTZ v6, v1, v2, v3` and `FMUL.F32 v6, sq1, sq0`. -/
theorem test_decode_float :
    decodeTableWord 96 0x002100601002030E619E0001 = some (.ffma h0 .f32 .rtz (.v 6) (.v 1) (.v 2) (.v 3)) ∧
    decodeTableWord 96 0x000100180602030E611E0001 = some (.fmul h0 .f32 .rne (.v 6) (.sq 1) (.sq 0)) := by
  decide +kernel

/-- `MOVI v1, 42` and `MOVL v2, 0x10000000` of the kernel image. -/
theorem test_decode_moves : decodeTableWord 64 0x000A8017705E0000 = some (.movi h0 (.v 1) 42) ∧
    decodeTableWord 128 0x000000001000000000000027709E0002 = some (.movl h0 (.v 2) 0x10000000) := by decide +kernel

/-- `EXIT`, `SLEEP 100`, `BRX v12`, `RET v40`, `TRAP 5` and `ERET`. -/
theorem test_decode_control : decodeTableWord 64 0x00000007019E0000 = some (.exit h0) ∧
    decodeTableWord 64 0x00190007031E0000 = some (.sleep h0 100) ∧
    decodeTableWord 96 0x000000000018000E011E0001 = some (.brx h0 (.v 12)) ∧
    decodeTableWord 64 0x00000287015E0000 = some (.ret h0 (.v 40)) ∧
    decodeTableWord 64 0x00014007025E0000 = some (.trap h0 5) ∧
    decodeTableWord 64 0x00000007029E0000 = some (.eret h0) := by decide +kernel

/-- `CAS.N64.ACQ.PART v8, v9, v10, v11`, `CPY.DSP v4, v5, v6` and `FENCE.AR.PART`. -/
theorem test_decode_memory :
    decodeTableWord 96 0x320781605012040F201E0001 =
      some (.cas h0 .n64 false .acq .part (.v 8) (.v 9) (.v 10) (.v 11)) ∧
    decodeTableWord 96 0x000100C02808000F421E0001 = some (.cpy h0 false true .none (.v 4) (.v 5) (.v 6)) ∧
    decodeTableWord 96 0x330000000000000F831E0001 = some (.fence h0 .ar .part) := by decide +kernel

/-- `MMA.E4M3x8.K32.BS cv0, v64, v68, s5`. -/
theorem test_decode_matrix : decodeTableWord 96 0x880AE8A22080000F609E0001 =
    some (.mma h0 .e4m3x8 0 1 (.v 64) (some (.v 68)) (.s 5)) := by decide +kernel

/-- `COMPACT v10, v3, p2`, `SRED.ADD.F32.HEAD v12, v3, v4` and `PHNXT.SPEC v2`. -/
theorem test_decode_lanes_and_phasers :
    decodeTableWord 96 0x000100000006050EC31E0001 = some (.compact h0 ⟨2, false⟩ (.v 10) (.v 3)) ∧
    decodeTableWord 96 0xF00100002006060EC41E0001 =
      some (.sred h0 .add .f32 .rne none (.v 12) (.v 3) (.v 4)) ∧
    decodeTableWord 96 0x000080000004000F821E0001 = some (.phnxtSpec h0 (.v 2)) := by decide +kernel

/-- `TXB.ORD v2, v1` and `TXA 5`. -/
theorem test_decode_transactions :
    decodeTableWord 96 0x000080000002010FA01E0001 = some (.txbOrd h0 (.v 2) (.v 1)) ∧
    decodeTableWord 64 0x00014007D09E0000 = some (.txa h0 5) := by decide +kernel

/-- `CSRR v60, xcause`, `CSRW.CLR zero, fflags, v5`, `L2WAY v4, v5`, `GETTIME v9`, `MBOX v63, v62, v61` and `HALT 2`. -/
theorem test_decode_system : decodeTableWord 96 0x1300000000001E0FC01E0001 = some (.csrr h0 0x13 (.v 60)) ∧
    decodeTableWord 96 0x00010000000BFF8FC09E0001 = some (.csrw h0 0x00 .clr .zero (.v 5)) ∧
    decodeTableWord 96 0x00000000000A020FC19E0001 = some (.l2way h0 (.v 4) (.v 5)) ∧
    decodeTableWord 96 0x000000000000048FC21E0001 = some (.gettime h0 (.v 9)) ∧
    decodeTableWord 96 0x00000001E87C1F8FC29E0001 = some (.mbox h0 (.v 63) (.v 62) (.v 61)) ∧
    decodeTableWord 64 0x00008007E19E0000 = some (.halt h0 2) := by decide +kernel

/-- MOVI runs as the first item after its word is placed: the lanes move past it. -/
theorem test_placed_item_runs :
    (match step (State.reset.withFetchWord 64 0x000A8017705E0000) with
      | .next t => ((grpAt t 0).thread 3).pc == 0x10010 && (grpAt t 0).ops.map (·.writes.length) == [16]
      | _ => false) = true := by decide +kernel

/-! ## Well-formedness -/

/-- The header of an item that retains its source A, B or C. -/
def hRet (r : Retain) : Hdr := ⟨⟨0, 0, none, false⟩, ⟨7, false⟩, r⟩

/-- Items that break the rule on types of their instruction (R40). -/
theorem test_wf_refuses_types : ([
    .iaddS h0 .f32 false (.v 3) (.v 1) (.v 2), .iaddL h0 .none false (.v 3) (.v 1) 1, .imulh h0 .i8 (.v 3) (.v 1) (.v 2),
    .imad h0 .f32 (.v 3) (.v 1) (.v 2) (.v 4), .iabs h0 .n32 false (.v 3) (.v 1), .leaS h0 .n32 0 (.v 3) (.v 1) (.v 2),
    .andL h0 .i64 (.v 3) (.v 1) 1, .shlS h0 .i32 (.v 3) (.v 1) (.v 2), .sarS h0 .n32 (.v 3) (.v 1) (.v 2),
    .shf h0 .i64 false (.v 3) (.v 1) (.v 2) (.v 4), .bfx h0 .n32 (.v 3) (.v 1) (.v 2),
    .bfi h0 .n32 (.v 3) (.v 1) (.v 2) (.v 4), .popc h0 .i32 (.v 3) (.v 1), .padd h0 .i32 false (.v 3) (.v 1) (.v 2),
    .fadd h0 .i32 .rne (.v 3) (.v 1) (.v 2), .fcmp h0 .f32x2 .lt 1 (.v 1) (.v 2),
    .fdot2 h0 .f32 .rne (.v 3) (.v 1) (.v 2) (.v 4), .fclass h0 .bf16x4 (.v 3) (.v 1),
    .fcvt h0 .i32 .f32 .rne false (.v 3) (.v 1), .f2i h0 .f32 .f32 .rne (.v 3) (.v 1),
    .i2f h0 .f32 .f32 .rne (.v 3) (.v 1), .xadd h0 .e4m3 0 (.v 1), .xmac h0 .i32 0 (.v 1) (.v 2),
    .xrnd h0 .f32x2 .rne false 0 (.v 3), .scan h0 .add .e4m3 .rne false (some 1) (.v 3) (.v 1) (.v 0),
    .rand h0 .n32 (.v 3), .ldS h0 .none 0 none .normal (.v 3) (.v 1) (.v 2), .cas h0 .i8 false .none .thr (.v 3) (.v 1)
      (.v 2) (.v 4), .red h0 .add .i8 false none (.v 3) (.v 1) (.v 2), .xred h0 .f32 .f32 false (.v 1) (.v 2),
    .xfin h0 .f16 .rne false none (.v 3) (.v 1), .mma h0 .f32 0 0 (.v 1) none (.v 2),
    .mldc h0 .e4m3 0 false (.v 1) (.v 2), .gres h0 (.typed .f32x2 .rne (.v 3)) (.v 1)] : List Instr).all
      (fun i => !i.wf) = true := by decide

/-- Items that break another rule of their instruction: fields that must be zero, fields that go together, retained
sources, operand indices that name nothing, unassigned CSRs (R21, R31, R40). -/
theorem test_wf_refuses_fields : ([
    .nopC (hRet .a), .sleep (hRet .b) 1, .brx h0 (.reserved 767), .callx h0 (.v 1) (.reserved 5),
    .iaddS (hRet .b) .i32 false (.v 3) (.v 1) (.s 1), .iaddS (hRet .c) .i32 false (.v 3) (.v 1) (.v 2),
    .icmpS h0 .i32 .un 1 (.v 1) (.v 2), .icmpL h0 .i32 .ord 1 (.v 1) 0, .fcvt h0 .f32 .f64 .rne true (.v 3) (.v 1),
    .fpack h0 .e2m1x16 .f32 .rne true (.v 3) (.v 1) (.v 2) 0, .fpack h0 .e4m3x8 .bf16x4 .rne false (.v 3) (.v 1) (.v 2) 2,
    .funpk h0 .bf16x4 .e4m3x8 .rne (.v 3) (.v 1) (.v 2) 2, .vote h0 .eq 1 ⟨2, false⟩ (.v 1),
    .vote h0 .all 1 ⟨2, false⟩ (.v 1), .scan h0 .and .f32 .rne false (some 1) (.v 3) (.v 1) (.v 0),
    .scan h0 .add .i32 .rtz false (some 1) (.v 3) (.v 1) (.v 0), .scan h0 .add .i32 .rne false (some 1) (.v 3) (.v 1) (.v 2),
    .stS h0 .i32 0 none .nl (.v 3) (.v 1) (.v 2), .prefS h0 true true 0 0 (.v 1) (.v 2), .linv (hRet .a) false none,
    .cas h0 .i32 false .none .part (.v 3) (.v 1) (.v 2) (.v 4), .mma h0 .e2m1x16 0 0 (.v 1) none (.v 2),
    .mma h0 .bf16x4 0 0 (.v 1) (some (.v 4)) (.v 2), .mdrn h0 .i64 .rne 0 0 true,
    .msta h0 .f32 .rtz .overwrite 0 false (.v 1) (.v 2), .msta h0 .bf16 .rne .add 0 false (.v 1) (.v 2),
    .phreg h0 .none (.v 1), .csrr h0 0x03 (.v 3), .csrw h0 0x52 .set .zero (.v 1),
    .pairedWord (hRet .a) 1 1 (.v 3) (.s 1) (.v 2) (.v 4) (.v 5), .unassignedEncoding .reservedOpc] : List Instr).all
      (fun i => !i.wf) = true := by decide

/-- Their neighbours that keep the rules. -/
theorem test_wf_accepts : ([
    .iaddS (hRet .b) .i32 false (.v 3) (.v 1) (.v 2), .shlS h0 .n32 (.v 3) (.v 1) (.v 2),
    .fcvt h0 .e4m3 .f64 .rne true (.v 3) (.v 1), .fpack h0 .e4m3x8 .bf16x4 .rne false (.v 3) (.v 1) (.v 2) 1,
    .vote h0 .eq 1 ⟨0, false⟩ (.v 1), .vote h0 .all 1 ⟨2, false⟩ (.v 0), .cas h0 .i32 false .rel .part (.v 3) (.v 1) (.v 2)
      (.v 4), .mma h0 .e2m1x16 0 0 (.v 1) (some (.v 4)) (.v 2), .mdrn h0 .i64 .rne 0 0 false, .brx h0 (.reserved 831), .csrr h0 0x51 (.v 3)] :
      List Instr).all (·.wf) = true := by decide

/-! ## Witnesses: items that issue -/

/-- What `Issues` asks, as a computation. -/
def issuesB (it : Item) (s : State) (i : Issue) (ex : Mask) : Bool :=
  let g := grpAt s i.gid
  decide (s.issuing = some i) && groupFree s g && !descrElsewhere g i.pc && distOk s g it.hdr.ctl && decide (deferredFor g it = none) && !it.hold &&
    !heldAcc g it && waitOk g it.hdr.ctl && setfOk g it.hdr.ctl && unitOk s i.gid it &&
    decide (decodeCause s i.gid it (pairBanksBad g i.act it) = none) && decide (ex = execLanes g i.act it.hdr) &&
    decide (ex ≠ 0) && g.threads.all (fun t => !t.tx.active) && decide (g.spec.st ≠ .speculating) && !heldAccess g it ex &&
    (usesOf g it).all (fun u => decide (u = .ready)) && !streamBlocked s i.gid it ex &&
    decide (poisonRead s i.gid it ex = none)

theorem tx_inactive {g : Group} (h : g.threads.all (fun t => !t.tx.active) = true) (l : Nat) :
    (g.thread l).tx.active = false := by
  simp only [Group.thread, List.getD_eq_getElem?_getD]
  cases hl : g.threads[l]? with
  | none => rfl
  | some t =>
    have := List.all_eq_true.1 h t (List.mem_of_getElem? hl)
    simpa using this

theorem issues_of {it : Item} {s : State} {i : Issue} {ex : Mask} (h : issuesB it s i ex = true) : Issues it s i ex := by
  simp only [issuesB, Bool.and_eq_true, decide_eq_true_eq, Bool.not_eq_true'] at h
  obtain ⟨⟨⟨⟨⟨⟨⟨⟨⟨⟨⟨⟨⟨⟨⟨⟨⟨⟨a1, a2⟩, a3⟩, a4⟩, a5⟩, a6⟩, a7⟩, a8⟩, a9⟩, a10⟩, a11⟩, a12⟩, a13⟩, a14⟩, a15⟩, a16⟩,
    a17⟩, a18⟩, a19⟩ := h
  exact ⟨⟨a1, a2, a3, a4, a5, a6, a7, a8, a9, a10⟩, a11, a12, a13, fun _ l => tx_inactive a14 l, a15, a16,
    fun u hu => of_decide_eq_true (List.all_eq_true.1 a17 u hu), a18, a19⟩

/-- A NOP placed for a group of 16 lanes in a launch of 4,096 bytes of scratchpad, four tiles, 64 window rows and the ranges
0x10000 (code) and 0x20000 (data); v1 of each lane is 0x20000, v2 is 8, s0 is 0x40. -/
def s0 : State :=
  let s := placeItem State.reset 64 0x00000007001E0000
  let s := modLaunch s 0 fun l => { l with
    desc := l.desc + BitVec.ofNat 2048 ((4096 <<< (8 * 152 + 10)) + (4 <<< (8 * 152 + 41)) + (64 <<< (8 * 152 + 46)))
    ranges := l.ranges ++ [⟨0x20000, 1, true, true, false, false, false, false, false⟩] }
  modGrp s 0 fun g => { g with
    s := [(0, 0x40)], threads := g.threads.map fun t => { t with v := [(1, 0x20000), (2, 8)] } }

/-- The same in privileged mode. -/
def s0p : State := modGrp s0 0 fun g => { g with priv := true, handler := 0xFFFF }

def i0 : Issue := ⟨0, 0x10008, 8, 0xFFFF⟩

/-- Every shape of item that the statements on computing instructions name. -/
def shapes : List Item := [
    aItem h0 [.v 1, .v 2] (.v 3), aItem h0 [.v 1] (.v 3), aItem h0 [.v 1, .v 2, .v 4] (.v 3),
    laneItem h0 (mUnit .i32) (some 4) [.v 1, .v 2] (.v 3), laneItem h0 (mUnit .i64) (some 4) [.v 1, .v 2, .v 4] (.v 3),
    laneItem h0 .m (some 4) [.v 1, .v 2, .v 4] (.v 3), divisionItem h0 .i32 (.v 1) (.v 2) (.v 3),
    divisionItem h0 .i64 (.v 1) (.v 2) (.v 3), predItem h0 .a [.v 1, .v 2], predItem h0 .f [.v 1, .v 2],
    f64Item h0 .f64 [.v 1, .v 2, .v 4] (.v 3), fItem h0 [.v 1, .v 2, .v 3] (.v 3),
    { laneItem h0 (dUnit 64) none [.v 1, .v 2] (.v 3) with least := 44 }, xItem h0 [0, 1] [], xItem h0 [0] [.v 1, .v 2],
    { xItem h0 [0] [.v 1] with needsXf64 := true },
    { xItem h0 [0] [] with dsts := [.v 3], dstVs := true, txBad := true, specHold := true, least := 20 },
    xlItem h0 8 [.v 1, .v 2] (.v 3), { hdr := h0, cls := .xlane, lat := some 8, srcs := [.v 1] },
    scanItem h0 .f32 none (.v 3) (.v 1) (.v 2),
    { hdr := h0, cls := .other, srcs := [.v 1], dsts := [.v 3], dstVs := true, txBad := true, least := 24 }, mvItem h0 [.v 1, .v 2] [.v 3], mvItem h0 [] [.v 3],
    { hdr := h0, cls := .other, dsts := [.v 3], dstVs := true, txBad := true, specHold := true, guardExit := true },
    ctrlItem h0, { ctrlItem h0 with txBad := true, specHold := true }, { ctrlItem h0 with dsts := [.v 3] },
    { hdr := h0, cls := .mem, lat := some 1, txBad := true }, sqItem h0 [] [.v 3] none,
    { hdr := h0, cls := .other, txBad := true, specHold := true }, { txItem h0 [.v 1] [.v 3] with txBad := true },
    { txItem h0 [] [.v 3] with lat := some 4 }, matItem h0 [.s 0], sysItem h0 [.v 1] [.v 3], phItem h0 [.v 1] [],
    pairItem h0 0x01 0x32 (.v 8) (.v 1) (.v 2) (.v 16) (.v 11)]

/-- Each of them issues in a state. -/
theorem witness_items : ∀ it ∈ shapes, Issues it s0 i0 0xFFFF := fun it h =>
  issues_of (List.all_eq_true.1 (by decide +kernel : shapes.all (issuesB · s0 i0 0xFFFF) = true) it h)

/-! ## Witnesses: statements on instructions with conditions of their own -/

/-- XSAVE, XLOAD and PCFG: an offset that is a multiple of 8, with the image in scratchpad. -/
theorem witness_images : Issues { xItem h0 [0] [.s 0] with access := true, writesMem := true } s0 i0 0xFFFF ∧
    Issues { hdr := h0, cls := .other, srcs := [.s 0], txBad := true, specHold := true, access := true } s0 i0 0xFFFF ∧
    (scalarOf s0 0 0xFFFF (.s 0)).toNat % 8 = 0 ∧
    scalarOf s0 0 0xFFFF (.s 0) = 0x40 ∧ scratchHas (launchOf s0 0) 0x40 536 = true ∧
    scratchHas (launchOf s0 0) 0x40 (benesBytes 7) = true ∧ scratchBad s0 0 0x40 536 = false ∧
    scratchBad s0 0 0x40 (benesBytes 7) = false ∧
    Issues { xItem h0 [0] [.s 0] with access := true, xaFresh := true } s0 i0 0xFFFF :=
  ⟨issues_of (by decide +kernel), issues_of (by decide +kernel), by decide +kernel, by decide +kernel, by decide +kernel,
    by decide +kernel, by decide +kernel, by decide +kernel, issues_of (by decide +kernel)⟩

/-- The group with a header of R32 at 0x10000, the branch target. -/
def sHead : State := modCore s0 0 fun c => { c with icache := [(0, 0x10000 / 128, BitVec.ofNat 1024 0x00020083, 0)] }

/-- Whether a fetch gives an item. -/
def fetches (s : State) (va v n : Nat) : Bool :=
  match fetchItem (fetchLines s 0 va) 0 va with
  | .ok e => decide (e = (v, n))
  | .error _ => false

theorem fetch_of {s : State} {va v n : Nat} (h : fetches s va v n = true) :
    fetchItem (fetchLines s 0 va) 0 va = .ok (v, n) := by
  unfold fetches at h
  generalize fetchItem (fetchLines s 0 va) 0 va = x at h ⊢
  cases x with
  | error e => simp at h
  | ok e => simpa using h

/-- A transfer to a block header that can be fetched. -/
theorem witness_transfer : Issues (ctrlItem h0) sHead i0 0xFFFF ∧
    i0.pc + 4 * (-2 : BitVec 18).signExtend 64 = 0x10000 ∧ 0x10000 % 4 = 0 ∧
    fetchItem (fetchLines sHead 0 0x10000) 0 0x10000 = .ok (0x20083, 2) ∧ 0x20083 % 4 = 3 :=
  ⟨issues_of (by decide +kernel), by decide +kernel, by decide, fetch_of (by decide +kernel), by decide⟩

/-- EXIT of all the threads of a group that has no fault kept for it; ERET in privileged mode with nothing in flight; the
other privileged instructions. -/
theorem witness_exit_eret : Issues { ctrlItem h0 with txBad := true, specHold := true } s0 i0 0xFFFF ∧
    (grpAt s0 0).deferred = [] ∧ (∀ e ∈ (grpAt s0 0).queues, e.2.isLoad = true ∨ e.2.st ≠ .faulted ∨ e.2.fault = none) ∧
    Issues { hdr := h0, cls := .ctrl, privileged := true, txBad := true } s0p i0 0xFFFF ∧
    (grpAt s0p 0).xpc.toNat % 4 = 0 ∧ (grpAt s0p 0).ops = [] ∧
    Issues { sysItem h0 [.v 1] [.v 3] with privileged := true, txBad := true, specHold := true } s0p i0 0xFFFF ∧
    freeSlot (coreAt s0p 0) [4, 5, 6, 7] = some 4 :=
  ⟨issues_of (by decide +kernel), by decide +kernel, by decide +kernel, issues_of (by decide +kernel), by decide +kernel,
    by decide +kernel, issues_of (by decide +kernel), by decide +kernel⟩

/-- LD at 0x20000, aligned and readable. -/
theorem witness_loads : Issues { memItem h0 [.v 1] [.v 3] with unit := .ls, track := .load } s0 i0 0xFFFF ∧
    (let as := laneNats (fun s gid l => readOpnd s gid l (.v 1) + 8) i0 0xFFFF s0
     loadFails s0 0 0 8 (laneAddrs (fun s gid l => readOpnd s gid l (.v 1) + 8) i0 0xFFFF s0) = [] ∧
      poisonHit s0 0 (launchAt s0 0).asid as = [] ∧ readOverflow s0 0 false 8 as = [] ∧ ownHeld (grpAt s0 0) as 8 = false ∧
      shortOf s0 0 (laneAddrs (fun s gid l => readOpnd s gid l (.v 1) + 8) i0 0xFFFF s0) = false) :=
  ⟨issues_of (by decide +kernel), by decide +kernel⟩

/-- ST at 0x20000, aligned and writable, whose bytes the lanes' lines take; a publishing release of ST.REL. -/
theorem witness_stores :
    Issues { memItem h0 [.v 1, .v 2] [] with unit := .ls, writesMem := true } s0 i0 0xFFFF ∧
    (let adr := fun (s : State) gid l => readOpnd s gid l (.v 1) + 8
     let as := laneNats adr i0 0xFFFF s0
     storeFails (launchAt s0 0) 8 8 false true (laneAddrs adr i0 0xFFFF s0) = [] ∧
      probePages s0 0 0 8 (laneAddrs adr i0 0xFFFF s0) = [] ∧ writeOverflow s0 0 false as = [] ∧
      ownHeld (grpAt s0 0) as 8 = false ∧ ownUnperformed (grpAt s0 0) 0xFFFF = false ∧
      shortOf s0 0 (laneAddrs adr i0 0xFFFF s0) = false ∧
      (storeLanes 0 0 0 8 false s0 (as.map fun e => (e.1, e.2, 8))).isSome = true ∧
      publishesAt (launchAt s0 0) .part = true) :=
  ⟨issues_of (by decide +kernel), by decide +kernel⟩

/-- LDS and STS at offset 0x40. -/
theorem witness_scratchpad :
    Issues { memItem h0 [.s 0] [.v 3] with specHold := true, scratch := true, track := .load } s0 i0 0xFFFF ∧
    Issues { memItem h0 [.s 0, .v 2] [] with specHold := true, writesMem := true, scratch := true } s0 i0 0xFFFF ∧
    (let adr := fun (s : State) gid l => readOpnd s gid l (.s 0) + 0
     let as := laneNats adr i0 0xFFFF s0
     scratchFails (launchOf s0 0) 8 8 true (laneAddrs adr i0 0xFFFF s0) = [] ∧
      scratchPoisoned s0 0 8 (laneAddrs adr i0 0xFFFF s0) = [] ∧ readOverflow s0 0 true 8 as = [] ∧
      writeOverflow s0 0 true as = [] ∧ scratchBlocked s0 0 8 true as = false ∧ scratchBlocked s0 0 8 false as = false) :=
  ⟨issues_of (by decide +kernel), issues_of (by decide +kernel), by decide +kernel⟩

/-- LDX and STX at offset 8 of 4,096 carved bytes. -/
theorem witness_carved :
    let s := modCore s0 0 fun c => { c with carved := 4096 }
    Issues (carvedItem h0 [.v 2] [.v 3] false) s i0 0xFFFF ∧
    (let adr := fun (s : State) gid l => readOpnd s gid l (.v 2) + 0
     (∀ a ∈ laneAddrs adr i0 0xFFFF s, a.2.toNat % 8 = 0 ∧ a.2.toNat + 8 ≤ (coreAt s 0).carved) ∧
      shortOf s 0 (laneAddrs adr i0 0xFFFF s) = false) :=
  ⟨issues_of (by decide +kernel), by decide +kernel⟩

/-- RED in memory at 0x20000 and at the scratchpad at 0x40. -/
theorem witness_updates :
    Issues (updItem h0 [.v 1, .v 2] [.v 3] true false) s0 i0 0xFFFF ∧
    Issues (updItem h0 [.s 0, .v 2] [.v 3] true true) s0 i0 0xFFFF ∧
    storeFails (launchAt s0 0) 8 8 false true (laneAddrs (fun s gid l => readOpnd s gid l (.v 1)) i0 0xFFFF s0) = [] ∧
    probePages s0 0 0 8 (laneAddrs (fun s gid l => readOpnd s gid l (.v 1)) i0 0xFFFF s0) = [] ∧
    (lanesOf 64 0xFFFF).length ≤ freeEntries s0 0 ∧
    (let js := joinCells s0 [] ((lanesOf 64 0xFFFF).map fun l => (l, 0x20000, SliceKind.red .add .n64 1 l))
     let at_ := js.2.map fun e => (e.1, e.2.1)
     ownHeld (grpAt s0 0) (at_.map fun e => (e.1, e.2 / 32 * 32)) 32 = false ∧
      heldUpdate js.1 0 8 false at_ = false) ∧
    (let as := laneAddrs (fun s gid l => readOpnd s gid l (.s 0)) i0 0xFFFF s0
     scratchFails (launchAt s0 0) 8 8 true as = [] ∧ scratchPoisoned s0 0 8 (as.map fun e => (e.1, e.2.toNat)) = [] ∧
      scratchBlocked s0 0 8 true (as.map fun e => (e.1, e.2.toNat)) = false ∧
      heldUpdate s0 0 8 true (as.map fun e => (e.1, e.2.toNat)) = false) :=
  ⟨issues_of (by decide +kernel), issues_of (by decide +kernel), by decide +kernel⟩

/-- A bound, running queue of the group. -/
def sQueue : State := modGrp s0 0 fun g => { g with
  queues := [(3, { (default : Queue) with st := .running, free := 2, logd := 1, ctx := some 0 })] }

/-- SQCFG with a descriptor of zeros in memory and a binding word of depth 2; the queue instructions on a bound and on an
unbound queue. -/
theorem witness_streams : Issues (sqItem h0 [.v 1, .v 2] [] (some 5)) s0 i0 0xFFFF ∧
    (match readDesc s0 i0 true 0 0x40 with | .has d _ => decide (d = 0) | _ => false) = true ∧
    (grpAt s0 0).descr = none ∧ descFault s0 0 0x20000 = none ∧ ownHeld (grpAt s0 0) (descParts 0 0x20000) 8 = false ∧
    2 ≤ freeEntries s0 0 ∧ bindFault s0 0 5 0 (1 * 2 ^ 20) 0 = none ∧ freeContext s0 0 = some 0 ∧
    Issues (sqItem h0 [] [] (some 3)) sQueue i0 0xFFFF ∧ ((grpAt sQueue 0).queue 3).bound = true ∧
    ((grpAt sQueue 0).queue 3).st ≠ .faulted ∧ ((grpAt s0 0).queue 3).bound = false :=
  ⟨issues_of (by decide +kernel), by decide +kernel, by decide +kernel, by decide +kernel, by decide +kernel,
    by decide +kernel, by decide +kernel, by decide +kernel, issues_of (by decide +kernel), by decide +kernel⟩

/-- CPY from 0x20000 to 0x20000 of 8 bytes, with room; CSEAL, CWAIT and CPOLL with no copy under way. -/
theorem witness_copies : Issues { sqItem h0 [.v 1, .v 1, .v 2] [] none with writesMem := true } s0 i0 0xFFFF ∧
    (∀ l ∈ lanes i0 0xFFFF s0, copyFail (launchOf s0 0) false false
      (l, readOpnd s0 0 l (.v 1), readOpnd s0 0 l (.v 1), readOpnd s0 0 l (.v 2)) = none) ∧
    (coreAt s0 0).copies.length + 16 ≤ Config.copySlots ∧
    (∀ l ∈ lanes i0 0xFFFF s0, batchCopies s0 0 l (((grpAt s0 0).thread l).batch + 1) = []) :=
  ⟨issues_of (by decide +kernel), by decide +kernel⟩

/-- A declaration of one group of 16 lanes at offset 0x40, and a declared convergence register that lanes 0 to 15 sign. -/
def sDecl : State := modTeam s0 0 fun t => { t with scratch := memWriteLE [] 0x40 40 (0x80 + 0xFFFF * 2 ^ 64) }
def sRound : State := modQuart s0 0 fun q =>
  { q with cvs := [(0, { (default : CvReg) with st := .declared, members := [(0, 0xFFFF)] })] }

theorem witness_mdecl : Issues { matItem h0 [.s 0] with access := true } sDecl i0 0xFFFF ∧ mdeclPending sDecl 0 0 = false ∧
    (scalarOf sDecl 0 0xFFFF (.s 0)).toNat % 8 = 0 ∧ scratchHas (launchOf sDecl 0) 0x40 40 = true ∧
    scratchBad sDecl 0 0x40 40 = false ∧
    declState (cvAt (quartAt sDecl 0) 0) 0 = false ∧ (grpAt sDecl 0).quart = 0 ∧
    declMembers sDecl 0 (scratchRead sDecl 0 0x40 40) = some [(0, 0xFFFF)] :=
  ⟨issues_of (by decide +kernel), by decide +kernel⟩

/-- MMA.F64.K16 cv0, v64, zero: every lane signs, with tile 0 (R249, R251). -/
theorem witness_mma : Issues { matItem h0 [.v 64, .zero] with noBanks := true } sRound i0 0xFFFF ∧
    (let r := cvAt (quartAt sRound 0) 0
     r.st ≠ .free ∧ r.team = 0 ∧
      (∀ l ∈ lanes i0 0xFFFF sRound, (0, l) ∈ signersOf r.members ∧ signatureOf r (0, l) = none) ∧
      64 + rowsPer r.members * rowWords .f64 1 ≤ (launchOf sRound 0).regs ∧ leadOf sRound r = some (0, 0) ∧
      ctlFault sRound 0 0 .f64 1 false 0 = none ∧ signPoison (grpAt sRound 0) (lanes i0 0xFFFF sRound) 64 64 0 0 = none ∧
      stagedNow (quartAt sRound 0) + stagingOf .f64 1 false ≤ Config.stagingBytes ∧
      (quartAt sRound 0).ops.length < Config.matrixQueue) :=
  ⟨issues_of (by decide +kernel), by decide +kernel⟩

/-- MLDB of 4 window words from row 2 and MLDC, MSTA and MDRN of tile 1, at addresses that stay at 0x20000; MZERO of
tiles 0 and 3. -/
theorem witness_tiles : Issues { matItem h0 [.v 1, .zero, .v 2] with access := true, writesMem := true } s0 i0 0xFFFF ∧
    (let x : Word := 2 + 4 * 2 ^ 10
     bits x.toNat 21 43 = 0 ∧ bits x.toNat 10 11 ≠ 0 ∧ 2 + 4 ≤ (launchOf s0 0).brows) ∧
    sweepFault s0 0 0 ⟨false, 0x20000, 0, 4, 8, 8, false⟩ 8 = none ∧
    physTiles s0 0 0 1 false = some [1] ∧ physTiles s0 0 0 2 true = some [2, 3] ∧
    sweepFault s0 0 0 ⟨false, 0x20000, 0, 64, 4, 4, true⟩ 4 = none ∧
    sweepFault s0 0 0 ⟨false, 0x20000, 0, 64, 64, 64, true⟩ 64 = none ∧ queueFull s0 0 = false ∧
    ((grpAt s0 0).drain 2).active = false ∧ drainWidth .bf16x4 = (grpAt s0 0).width ∧
    (∀ t ∈ [0, 3], (physTile s0 0 0 t).isSome = true) :=
  ⟨issues_of (by decide +kernel), by decide +kernel⟩

/-- MACQ of 12 tiles, all that the pool holds (R266). -/
theorem witness_reservation : 12 ≤ 16 ∧ (launchAt s0 (teamAt s0 0).lid).atiles + 12 ≤ 16 ∧
    (quartAt s0 0).reserved = none ∧ 12 ≤ poolOf s0 0 ∧ (quartAt s0 0).claimant = none := by decide +kernel

/-- A launch with one phaser, of which the group is a SIGWAIT member that has signalled no phase. -/
def sPhaser : State :=
  let s := modLaunch s0 0 fun l => { l with
    desc := l.desc + BitVec.ofNat 2048 (1 <<< (8 * 160 + 11)), phaserTable := [1 + 6 * 2] }
  { s with phasers := [(7, { (default : Phaser) with scope := .part, members := [⟨0, .sigwait, none⟩] })] }

/-- What an instruction finds, as a computation. -/
theorem found_of {x : PhFind} {n : Nat} (h : (match x with | .found m => decide (m = n) | _ => false) = true) :
    x = .found n := by
  cases x <;> simp_all

theorem witness_phasers : Issues (phItem h0 [.zero] []) sPhaser i0 0xFFFF ∧
    findPhaser sPhaser 0 (scalarOf sPhaser 0 0xFFFF .zero) none = .found 7 ∧
    findPhaser sPhaser 0 (scalarOf sPhaser 0 0xFFFF .zero) (some fun m => m = .sigwait) = .found 7 ∧
    findPhaser sPhaser 0 (scalarOf sPhaser 0 0xFFFF .zero) (some signalsMode) = .found 7 ∧
    farAhead i0 0xFFFF sPhaser 7 = false :=
  ⟨issues_of (by decide +kernel), found_of (by decide +kernel), found_of (by decide +kernel), found_of (by decide +kernel),
    by decide +kernel⟩

/-- GRED for the present round and for the next, and GRES for the round before: the object has completed round 0. -/
def sObject : State := { s0 with objects := [(5, { (default : RunObj) with round := 1, result := some (9, 0) })] }

theorem witness_runner : Issues (runItemNet h0 [.s 0] []) sObject i0 0xFFFF ∧
    runnerFault sObject 5 (5 + 2 * 2 ^ 16 + 2 ^ 48) = none ∧
    hRound (5 + 2 * 2 ^ 16 + 2 ^ 48) = (objAt sObject 5).round.toNat ∧
    countBad (objAt sObject 5) (hCount (5 + 2 * 2 ^ 16 + 2 ^ 48)) = false ∧ mayContribute sObject 5 2 1 = true ∧
    hRound (5 + 2 * 2 ^ 16 + 2 * 2 ^ 48) = ((objAt sObject 5).round.toNat + 1) % 2 ^ 16 ∧
    (hRound 5 + 1) % 2 ^ 16 = (objAt sObject 5).round.toNat ∧ (objAt sObject 5).result = some (9, 0) :=
  ⟨issues_of (by decide +kernel), by decide +kernel⟩

/-- A P word of two operations of the table; an item that cannot be decoded at a group that may issue. -/
theorem witness_paired : Issues (pairItem h0 0x01 0x32 (.v 8) (.v 1) (.v 2) (.v 16) (.v 11)) s0 i0 0xFFFF ∧
    (pairEntry 0x01).isSome = true ∧ (pairEntry 0x32).isSome = true ∧ s0.issuing = some i0 ∧
    groupFree s0 (grpAt s0 0) = true :=
  ⟨issues_of (by decide +kernel), by decide +kernel⟩

/-! ## Witnesses: events -/

/-- An instruction in flight in every lane of the group, and the state that has it alone. -/
def opIn (k : OpKind) : Op := { (default : Op) with id := 4, kind := k, lanes := 0xFFFF, left := 0xFFFF }
def sOp (o : Op) : State := modGrp s0 0 fun g => { g with ops := [o] }

/-- An op that may complete; one that is not due. -/
def completesB (s : State) (o : Op) : Bool :=
  decide (mapFind s.groups 0 = some (grpAt s 0)) && decide (opOf (grpAt s 0) 4 = some o) && !o.fixed && (grpAt s 0).resident &&
    decide (o.due ≤ s.cycle)

theorem witness_completion_and_scheduler :
    completesB (sOp (opIn .ready)) (opIn .ready) = true ∧ (opIn .ready).left &&& 1 ≠ 0 ∧
    completesB (sOp (opIn (.csrw 0 .write 5 .zero))) (opIn (.csrw 0 .write 5 .zero)) = true ∧
    completesB (sOp (opIn (.mdecl 2 false [(0, 0xFFFF)]))) (opIn (.mdecl 2 false [(0, 0xFFFF)])) = true ∧
    (let o := { opIn .ready with due := 9 }
     opOf (grpAt (sOp o) 0) 4 = some o ∧ (sOp o).cycle < o.due) ∧
    (let g := { grpAt s0 0 with counts := [(8, 64)], waiting := 32, lowPcs := [(0xFFFF, 64)] }
     64 ≤ mapGet 0 g.counts 8 ∧ 8 ∉ g.promoted ∧ g.waiting = 32 ∧
      ∃ e ∈ g.lowPcs, e.1 &&& g.activeAt (g.thread 0).pc ≠ 0 ∧ 64 ≤ e.2) ∧
    (let s := modThread (modThread s0 0 0 fun t => { t with wait := .sleep 9 }) 0 1 fun t => { t with wait := .park 9 }
     ((grpAt s 0).thread 0).wait = .sleep 9 ∧ ((grpAt s 0).thread 1).wait = .park 9) := by decide +kernel

theorem witness_mailboxes :
    (let s := modGrp (modCore s0 0 fun c => { c with unposted := [(default, .group 0)] }) 0 fun g =>
      { g with held := .unposted }
     (coreAt s 0).unposted = [(default, .group 0)] ∧
      stillWaits (modCore s 0 fun c => { c with unposted := [] }) (.group 0) = true ∧
      freeSlot (coreAt s 0) [0, 1] = some 0) ∧
    (slotAt (coreAt s0 0) 0).full = false ∧
    (let s := modGrp (modCore s0 0 fun c =>
      { c with slots := [(1, { (default : Slot) with full := true, waiter := .group 0 })] }) 0 fun g =>
      { g with held := .posted 1 }
     let x := slotAt (coreAt s 0) 1
     let t := modCore s 0 fun c => { c with slots := mapPut c.slots 1 { x with reply := 0, replied := true, waiter := .nobody } }
     x.full = true ∧ x.replied = false ∧ x.waiter = .group 0 ∧ x.record.cause ≠ CauseCode.lease.num ∧
      heldAt t 0 1 = true) := by decide +kernel

/-- Page tables that map the page at 0x20000 to frame 4, readable and writable, with A and D set; and a clean, valid
line of that page in its slice. -/
def sPaged : State := sysWrite (sysWrite (sysWrite (sysWrite s0 0 0 (leBytes 8 0x10001)) 0 0x10000 (leBytes 8 0x20001))
  0 0x20000 (leBytes 8 0x30001)) 0 0x30010 (leBytes 8 0x40037)
def lineNo : Nat := 0x20000 / 128
def x0 : L2Line := { (default : L2Line) with line := lineNo, wok := true, valid := 0xF#4, pa := 0x40000 }
def sLine (x : L2Line) : State := modSlice sPaged 0 fun sl => { sl with lines := [x] }

def readOf (r : Reader) (st : ReqStage) : Request := { (default : Request) with line := lineNo, reader := r, stage := st }
def sRead (s : State) (r : Request) : State := { s with requests := [(5, r)] }

theorem witness_reads :
    (let r := readOf (.noAlloc 0 8 0) .waiting
     let s := sRead (sLine x0) r
     mapFind s.requests 5 = some r ∧ sliceOf s r.lid r.asid (r.line * 128) = 0 ∧ (sliceAt s 0).gated = false ∧
      findL2 (sliceAt s 0) r.asid r.line = some x0 ∧ x0.place ≠ 2 ∧ x0.valid = 0xF#4 ∧
      readSealed s 0 r.asid r.line 0xF#4 = false ∧ ownStores s 0 5 r = false ∧ readWaits s 0 5 r false = false) ∧
    (let r := readOf (.l1 0 8 0 false) .sent
     let s := sRead sPaged r
     mapFind s.requests 5 = some r ∧ hasEntry s r.core 5 = true ∧ sliceOf s r.lid r.asid (r.line * 128) = 0 ∧
      (sliceAt s 0).gated = false ∧ findL2 (sliceAt s 0) r.asid r.line = none ∧
      findMiss (sliceAt s 0) r.asid r.line = none ∧ readWaits s 0 5 r true = false) ∧
    (let s := modSlice s0 0 fun sl => { sl with leases := [(3, 9, 0)] }
     ((3 : BitVec 16).toNat, 9, 0) ∈ (sliceAt s 0).leases ∧ 0 ≤ gtOf s) ∧
    (let r := readOf (.noAlloc 0 8 0) (.answered 5 0 0 [] 0)
     mapFind (sRead s0 r).requests 5 = some r ∧ fillBefore (sRead s0 r) 5 r = false) ∧
    (let r := readOf (.l1 0 8 0 false) (.answered 5 0 0 [] 0)
     mapFind (sRead s0 r).requests 5 = some r ∧ fillBefore (sRead s0 r) 5 r = false ∧
      (fillL1 (sRead s0 r) 0 r 5 0 0 [] 0 false).isSome = true) := by
  decide +kernel

/-- A miss of that line before and after its translation; the entry that translates it. -/
def missOf (pa : Option Nat) : Miss := { (default : Miss) with line := lineNo, pa := pa }
def sMiss (pa : Option Nat) : State := modSlice sPaged 0 fun sl => { sl with misses := [missOf pa] }
def tlb0 : TlbEntry := { (default : TlbEntry) with page := 2, entry := 0x40037 }
/-- An update of that page's entry, which memory holds without D. -/
def ad0 : AdUpdate := { (default : AdUpdate) with va := 0x20000, entryPa := 0x30010, old := 0x40037, new := 0x40037 }

/-- That miss in a slice whose set is full of other clean lines. -/
def sFull : State := modSlice (sMiss (some 0x40000)) 0 fun sl => { sl with
  lines := (List.range 16).map fun i => { x0 with line := lineNo + Config.sliceSets * (i + 1), way := i } }

def isLeaf (w : Walk) (e epa : Nat) : Bool :=
  match w with
  | .leaf _ x y _ => decide (x = e ∧ y = epa)
  | _ => false

theorem witness_translation :
    (let s := modBlock (sMiss none) 0 fun b => { b with entries := [tlb0] }
     findMiss (sliceAt s 0) 0 lineNo = some (missOf none) ∧ (blockAt s 0).updates = [] ∧
      (tlbHit s 0 0 lineNo false).isSome = true) ∧
    (let s := sMiss none
     let t := walkReads s 0 0 lineNo
     findMiss (sliceAt s 0) 0 lineNo = some (missOf none) ∧ (blockAt s 0).updates = [] ∧
      tlbHit s 0 0 lineNo false = none ∧ isLeaf (walk t (slicePart t 0) 0 (lineNo * 128)) 0x40037 0x30010 = true ∧
      entryAllows t 0 0 lineNo 0x40037 false = true ∧ adBits 0x40037 false = 0x40037) ∧
    (let s := modBlock (sMiss none) 0 fun b => { b with updates := [ad0] }
     (blockAt s 0).updates = [ad0] ∧ ad0.slice = 0 ∧ ad0.asid = 0 ∧ ad0.va / 128 = lineNo ∧
      readEntry (countAccess s ad0.part (dieOf 0) ad0.entryPa) ad0.part ad0.entryPa = some ad0.old.toNat ∧
      pteV ad0.new.toNat = true ∧ pteLeaf ad0.new.toNat = true) ∧
    (let s := sMiss (some 0x40000)
     findMiss (sliceAt s 0) 0 lineNo = some (missOf (some 0x40000)) ∧
      (match homeOf (partAt s (slicePart s 0)) 0x40000 with
        | some (.hbm a) => decide (exposedHeld s a true = [])
        | _ => false) = true ∧
      findL2 (sliceAt s 0) 0 lineNo = none ∧ freeWay s 0 0 lineNo = some 0) ∧
    (let s := sFull
     findMiss (sliceAt s 0) 0 lineNo = some (missOf (some 0x40000)) ∧ findL2 (sliceAt s 0) 0 lineNo = none ∧
      freeWay s 0 0 lineNo = none ∧ (victimLines s 0 0 lineNo).length = 16) := by decide +kernel

/-- That line with a dirty sector. -/
def x1 : L2Line := { x0 with dirty := 1 }

def wroteBack (r : Option (State × Bool)) : Bool :=
  match r with
  | some (_, true) => true
  | _ => false

def goesTo (r : Option (State ⊕ Nat)) (pa : Nat) : Bool :=
  match r with
  | some (.inr x) => x = pa
  | _ => false
def misses (r : Option (State ⊕ Nat)) : Bool :=
  match r with
  | some (.inl _) => true
  | _ => false

theorem witness_writeback :
    (let s := modBlock (sLine x1) 0 fun b => { b with entries := [tlb0] }
     findL2 (sliceAt s 0) 0 lineNo = some x1 ∧ mayEvict s 0 x1 = true ∧ wroteBack (writeBack s 0 x1) = true ∧
      x1.dirty ≠ 0 ∧ (tlbHit s 0 x1.asid x1.line true).isSome = true ∧ findMiss (sliceAt s 0) x1.asid x1.line = none ∧
      goesTo (writeTarget s 0 x1) 0x40000 = true ∧ (homeOf (partAt s (slicePart s 0)) 0x40000).isSome = true ∧
      snapLaunches s (slicePart s 0) x1.asid (x1.line * 128) = []) ∧
    tlbHit (sLine x1) 0 x1.asid x1.line true = none ∧ misses (writeTarget (sLine x1) 0 x1) = true := by decide +kernel

/-- A release that has sent its publications, one that has not, and one that waits for the publication 9. -/
def relOf (st : RelStage) (pubs markers : List Nat) : Release :=
  { (default : Release) with stage := st, pubs := pubs, markers := markers }
def sRel (r : Release) : State := { s0 with releases := [(6, r)] }

theorem witness_releases :
    mapFind (sRel (relOf .sent [] [])).releases 6 = some (relOf .sent [] []) ∧
    allApplied (sRel (relOf .sent [] [])) [] = true ∧
    mapFind (sRel (relOf .waiting [] [])).releases 6 = some (relOf .waiting [] []) ∧
    (relOf .waiting [] []).publishes = false ∧
    (let s := { sRel (relOf .sent [9] []) with pubs := [(9, default)] }
     mapFind s.releases 6 = some (relOf .sent [9] []) ∧ allApplied s [9] = false) ∧
    mapFind (sRel (relOf .sent [] [1])).releases 6 = some (relOf .sent [] [1]) ∧
    1 ∈ (relOf .sent [] [1]).markers ∧ (sRel (relOf .sent [] [1])).pubs = [] ∧
    (let p : Probe := { (default : Probe) with page := 2 }
     let s := { sPaged with probes := [(7, p)] }
     mapFind s.probes 7 = some p ∧ p.answered = none ∧ hasEntry s p.core 7 = true) := by decide +kernel

/-- One operation of each kind on that line, as it waits at its slice. -/
def pubOf (k : SliceKind) (st : PubStage) : Pub :=
  { (default : Pub) with va := 0x20000, kind := k, sender := .item 0 4 0, stage := st }
def sPub (p : Pub) : State := { sLine x0 with pubs := [(8, p)] }

def isYes : Ready → Bool
  | .yes => true
  | _ => false

def appliesB (p : Pub) : Bool :=
  let s := sPub p
  decide (mapFind s.pubs 8 = some p) && decide (p.stage = .queued) && !p.sp && decide (pubSlice s p = 0) &&
    !(sliceAt s 0).gated && decide ((sliceAt s 0).busy ≤ s.cycle) && itsTurn s 0 8 p &&
    isYes (readyLines s 0 (ownLock s 8) (touchesOf p)) && decide (p.poison = 0) && !readsPoison s 0 p && !isShadow s p.lid

theorem witness_operations :
    (let p := pubOf (.write 5 1) .travelling
     let s := sPub p
     mapFind s.pubs 8 = some p ∧ p.sp = false ∧ behind s p = false ∧ (sliceAt s (pubSlice s p)).gated = false ∧
      fenceOf s p = none ∧ hasEntry s p.core p.seq = true) ∧
    ([SliceKind.write 5 1, .cas .n64 0 1 0, .red .add .n64 1 0, .xred .f32 .f32 [1], .xfin .f32 .rne 0,
      .tileAdd false [1, 2]].all fun k => appliesB (pubOf k .queued)) = true := by decide +kernel
/-- A line of host memory whose first half is held modified; the partition exposes its first 64 KiB at 0x100000. -/
def xHost : L2Line := { (default : L2Line) with place := 2, pa := 2 ^ 51 + 0x20000, valid := 0xF#4, half0 := .m }
def sHost (x : L2Line) : State := modSlice (modPart s0 0 fun p => { p with hdmRanges := [(0, 0, 0x10000, 0x100000)] }) 0
  fun sl => { sl with lines := [x] }

theorem witness_snoops :
    (sHost xHost).hostOps = [] ∧ holdersOf (sHost xHost) (0x20000 / 64) = [(0, xHost, 0)] ∧
    xHost.expiry ≤ gtOf (sHost xHost) ∧ (sliceAt (sHost xHost) 0).floor0 ≤ gtOf (sHost xHost) ∧
    xHost.hold ≤ (sHost xHost).cycle ∧ halfLocked (sHost xHost) 0 xHost 0 true = false ∧
    halfLocked (sHost xHost) 0 xHost 0 false = false ∧
    (let x := { xHost with expiry := 9 }
     holdersOf (sHost x) (0x20000 / 64) = [(0, x, 0)] ∧ gtOf (sHost x) < x.expiry) := by decide +kernel

/-- A write that waits at the slice for that line before a SnpInv comes (R78). -/
theorem witness_host_waits :
    (let p : Pub := { (default : Pub) with kind := .write 5 1, sender := .item 0 4 0, stage := .queued }
     let s := { modSlice (sHost xHost) 0 fun sl => { sl with waiting := [8] } with pubs := [(8, p)] }
     s.hostOps = [] ∧ s.hostBefore = [] ∧ (0, xHost, 0) ∈ holdersOf s (0x20000 / 64) ∧ xHost.ask 0 = none ∧
      8 ∈ waitersOf s 0 xHost.asid xHost.line ∧ 8 ∈ hostEarlier s (.snpInv 0x20000)) ∧
    hostEarlier (sHost xHost) (.snpInv 0x20000) = [] ∧ hostEarlier (sHost xHost) (.own 0x100020) = [] ∧
    (sHost xHost).hostBefore = [] := by decide +kernel

theorem witness_host_accesses :
    (let s := sHost default
     s.hostOps = [] ∧ exposed s (64 * (0x100020 / 64)) ≠ none ∧ (exposed s 0x100020).isSome = true ∧
      (∀ e ∈ copiesOf s (((exposed s 0x100020).getD (0, 0)).2), e.2.dirty = 0 ∧ mayInvalidate s e.1 e.2 = true) ∧
      s.biDir.length < Config.biDirectory ∧ 32 ≤ 64 - 0x100020 % 64 ∧ exposed s (64 * (0x30000 / 64)) = none) ∧
    (let s := { s0 with biWait := [(5, true)] }
     s.biWait.find? (fun w => w.1 = 320 / 64) = some (5, true)) ∧
    (let x := { xHost with half0 := .i, ask0 := some true }
     (sliceAt (sHost x) 0).lines = [x] ∧ x.place = 2 ∧ hostHalf x.pa + 0 = 0x20000 / 64 ∧ (x.ask 0).isSome = true) := by
  decide +kernel

/-- A copy of 8 bytes that is under way; one whose bytes have been copied. -/
def copyOf (done : Nat) : Copy := { (default : Copy) with id := 3, src := 0x20000, dst := 0x20040, len := 8, done := done }
def sCopy (done : Nat) : State := modCore sPaged 0 fun c => { c with copies := [copyOf done] }
/-- A line read of each client of the port that has been answered. -/
def sAnswer (r : Reader) : State := { s0 with requests := [(5, readOf r (.answered 9 0 0 [] 0))] }
/-- A queue with one entry being written, and one that is stopping. -/
def sOut (st : QState) (outs : List QEntry) : State := modGrp s0 0 fun g => { g with
  queues := [(3, { (default : Queue) with st := st, outs := outs, filled := 1, ctx := some 2 })] }

def isCopy (c : Option Client) (x : Copy) : Bool :=
  match c with
  | some (.copy y) => decide (y = x)
  | _ => false

/-- A client's turn with no step of a stream to make, a stream with such a step, and accesses that no lock keeps. -/
theorem witness_port :
    advanceContexts (sCopy 0) 0 = none ∧ (advanceContexts (sOut .running [default]) 0).isSome = true ∧
    arrivalBlocked s0 0 3 lineNo = false ∧ copyBlocked (sCopy 0) (copyOf 0) 8 true = false := by decide +kernel

theorem witness_stream_events :
    ([Reader.stream 0 3, .copy 3, .matrix 0 0 1].all fun r =>
      decide (mapFind (sAnswer r).requests 5 = some (readOf r (.answered 9 0 0 [] 0)))) = true ∧
    (let s := sCopy 0
     (coreAt s 0).portCycle ≠ some s.cycle ∧
      isCopy ((clientsOf s 0)[(coreAt s 0).rr % (clientsOf s 0).length]?) (copyOf 0) = true ∧
      (serveClient s 0 (.copy (copyOf 0))).isSome = true) ∧
    (let s := modCore s0 0 fun c => { c with portCycle := some s0.cycle }
     (coreAt s 0).portCycle = some s.cycle) ∧
    (let s := sOut .running [default]
     contextOf s 0 2 = some (0, 3) ∧ ((grpAt s 0).queue 3).outs = [default] ∧ (default : QEntry).complete = true ∧
      allApplied s (default : QEntry).pubs = true) ∧
    (let s := sOut .stopping []
     ((grpAt s 0).queue 3).st = .stopping ∧ drained s 0 3 = true) ∧
    (let s := sCopy 8
     copyAt s 0 3 = some (copyOf 8) ∧ (copyOf 8).req = none ∧ (copyOf 8).stopped = none ∧ (copyOf 8).pubs = [] ∧
      (copyOf 8).len ≤ (copyOf 8).done) := by decide +kernel

/-- A matrix operation in the queue of quarter 0, and a state whose quarter holds only it. -/
def matOf (k : MatKind) : MatOp := { (default : MatOp) with id := 7, tiles := [1], kind := k }
def sMat (o : MatOp) : State := { modQuart s0 0 fun q => { q with ops := [o] } with cycle := 9999 }
def mma0 : MatKind := .mma .f64 1 false 0 [] [(0, 0xFFFF)] []
def cv0 : CvReg := { (default : CvReg) with
  st := .signing, members := [(0, 3)], kb := 1, complete := some 1
  signed := [{ (default : Signature) with checked := true }, { (default : Signature) with lane := 1, checked := true }] }

/-- A transfer from scratchpad to tile 1, in turn, whose words no lock keeps; a reservation whose team has executed MREL. -/
theorem witness_sweeps :
    (let o := matOf (.mldc .f32 true 0x40 0)
     let s := sMat o
     matOpAt (quartAt s 0) 7 = some o ∧ (sweepOf o.kind).isSome = true ∧ o.prog < 64 ∧ matReady s (quartAt s 0) o = true ∧
      (sweepOf o.kind).all (fun w => w.sp && !rowPoisoned s (quartAt s 0) o w &&
        (List.range w.count).all fun k => !spBlocked { s with free := s.free + 1 } o w (k + 1)) = true) ∧
    (let s := modQuart (modGrp s0 0 fun g => { g with ops := [opIn .mrel] }) 0 fun q => { q with reserved := some (0, 3) }
     (quartAt s 0).reserved = some (0, 3) ∧ (quartAt s 0).ops = [] ∧
      ∃ e ∈ s.groups, e.2.team = 0 ∧ e.2.quart = 0 ∧ ∃ o ∈ e.2.ops, o.kind = .mrel) := by decide +kernel

theorem witness_matrix_events :
    (let s := modQuart s0 0 fun q => { q with cvs := [(2, cv0)] }
     (leadOf s cv0).bind (signatureOf cv0) = some { (default : Signature) with checked := true } ∧
      allSigned s cv0 = true ∧ cv0.complete = some 1 ∧ (quartAt s 0).ops.length < Config.matrixQueue) ∧
    nextMma (sMat (matOf mma0)) (quartAt (sMat (matOf mma0)) 0) = some (matOf mma0) ∧
    mmaPoisoned (sMat (matOf mma0)) 0 (quartAt (sMat (matOf mma0)) 0) (matOf mma0) = false ∧
    (let o := { matOf mma0 with running := true }
     (quartAt (sMat o) 0).ops.find? (fun o => o.id = 7 && o.running && o.off = 0) = some o ∧
      o.start + mmaCycles .f64 (1 - o.prog) + 24 ≤ (sMat o).cycle) ∧
    (let o := matOf .mzero
     matOpAt (quartAt (sMat o) 0) 7 = some o ∧ matReady (sMat o) (quartAt (sMat o) 0) o = true) ∧
    (let o := { matOf (.mldc .f32 false 0x20000 0) with prog := 64 }
     matOpAt (quartAt (sMat o) 0) 7 = some o ∧ (sweepOf o.kind).isSome = true ∧ o.req = none ∧
      allApplied (sMat o) o.pubs = true) ∧
    (let o := matOf (.mdrn 1)
     let s := sMat o
     (quartAt s (grpAt s 0).quart).ops.find? (fun o => o.gid = 0 && o.kind = .mdrn 1) = some o ∧
      switchingFor s o = false ∧ matReady s (quartAt s 0) o = true ∧ ((grpAt s 0).drain 1).rows.length < 2) ∧
    (let s := modQuart s0 0 fun q => { q with reserved := some (1, 3), claimant := some (1, 0) }
     (quartAt s 0).reserved = some (1, 3) ∧ (∀ e ∈ s.groups, e.2.team ≠ 1) ∧ (quartAt s 0).ops = [] ∧
      (quartAt s 0).claimant = some (1, 0)) := by decide +kernel
/-- A phaser whose one member waits to leave it, so that its phase can end. -/
def pLeaves : Phaser := { (default : Phaser) with scope := .part, members := [⟨0, .wait, some .none⟩], due := some 0 }
def sInst (p : Phaser) : State := { s0 with phasers := [(7, p)] }

theorem witness_phases :
    mapFind (sInst pLeaves).phasers 7 = some pLeaves ∧ pLeaves.due = some 0 ∧ phaseOver (sInst pLeaves) pLeaves = true ∧
    speculators (sInst pLeaves) 7 = [] ∧
    (let p : Phaser := { (default : Phaser) with scope := .part, members := [⟨0, .sigwait, none⟩] }
     mapFind (sInst p).phasers 7 = some p ∧ phaseOver (sInst p) p = false) ∧
    (let g := { grpAt s0 0 with spec := { (grpAt s0 0).spec with rollback := true } }
     mapFind (putGrp s0 0 g).groups 0 = some g ∧ g.ops = []) := by decide +kernel

/-- GRED and GRES in flight for an object; a joined object of a part with ports. -/
def sRun (k : OpKind) (o : RunObj) : State := { sOp (opIn k) with objects := [(5, o)] }

theorem witness_runner_events :
    (let s := sRun (.gred 5 0 2 9 0) default
     opOf (grpAt s 0) 4 = some (opIn (.gred 5 0 2 9 0)) ∧ (objAt s 5).round.toNat = 0 ∧ countBad (objAt s 5) 2 = false ∧
      (objAt s 5).got + 1 ≠ 2) ∧
    (let o : RunObj := { (default : RunObj) with round := 1, result := some (9, 0) }
     let s := sRun (.gres 5 0 .f32 .rne (.v 3) none) o
     opOf (grpAt s 0) 4 = some (opIn (.gres 5 0 .f32 .rne (.v 3) none)) ∧ (objAt s 5).result = some (9, 0) ∧
      (0 + 1) % 2 ^ 16 = (objAt s 5).round.toNat) ∧
    (let s := { s0 with objects := [(5, { (default : RunObj) with joined := true })] }
     s.variant.scaleout = true ∧ (objAt s (objNo 0 5)).joined = true ∧ (objAt s 5).round = 0 ∧
      countBad (objAt s 5) 2 = false ∧ mayContribute s 5 2 1 = true) ∧
    { s0 with variant := .xb4s }.variant.scaleout = false := by decide +kernel

/-- Lane 0 in a transaction that stands at its TXE; a round of it at a stage. -/
def sTx (w : Wait) (f : Tx → Tx) : State := modThread s0 0 0 fun t =>
  { t with wait := w, tx := f { t.tx with active := true, firstOp := 1 } }
def sStage (st : RoundStage) (todo : List (Bool × Nat)) : State :=
  setRound (sTx (.txe 4 true) id) 0 fun r => { r with stage := st, lanes := [0], rel := 6, todo := todo }

theorem witness_rounds :
    (let s := sTx (.txe 4 true) id
     let g := grpAt s 0
     g.round.stage = .idle ∧ g.resident = true ∧ (coreAt s g.core).switching = 0 ∧ lanesOf g.width g.txLanes = [0] ∧
      atTxe (g.thread 0) = true ∧ (g.thread 0).tx.ord = false) ∧
    (grpAt (sStage .releasing []) 0).round.stage = .releasing ∧ released (sStage .releasing []) 6 = true ∧
    (grpAt (sStage .locking [(false, 4096)]) 0).round.todo = [(false, 4096)] ∧
    othersLocks (sStage .locking [(false, 4096)]) 0 false 4096 = [] ∧
    (grpAt (sStage .validating []) 0).round.stage = .validating ∧ (grpAt (sStage .validating []) 0).round.checks = [] ∧
    (grpAt (sStage .applying []) 0).round.stage = .applying ∧ (grpAt (sStage .applying []) 0).round.todo = [] ∧
    (grpAt (sStage .applying []) 0).round.lanes.getLast? = some 0 ∧
    (grpAt (sStage .applying []) 0).round.ordered = false := by decide +kernel

/-- Locks: of a sector of a line that its slice holds, with the crucible free; and of one that an irrevocable
transaction of another group holds. -/
theorem witness_locks :
    (let s := modSlice (sStage .locking [(false, 4096)]) 0 fun sl => { sl with lines := [x0] }
     commitFree s 0 false 4096 = true ∧ (match commitLine s 0 false 4096 true false with | .yes => true | _ => false) = true) ∧
    (let s := modSlice (sStage .locking [(false, 4096)]) 0 fun sl => { sl with locks := [⟨0, 4096, 9, 3, false, true⟩] }
     ∃ l ∈ othersLocks s 0 false 4096, l.irrev = true) := by decide +kernel

theorem witness_aborts_and_tokens :
    (let g := grpAt (sTx .aborting id) 0
     (g.thread 0).status = .running ∧ (g.thread 0).wait = .aborting ∧ g.ops = [] ∧ 0 < g.threads.length) ∧
    (let g := grpAt (sTx .none fun t => { t with items := 65536 }) 0
     (g.thread 0).status = .running ∧ (g.thread 0).tx.active = true ∧ (g.thread 0).wait ≠ .aborting ∧ 0 ∉ g.round.lanes ∧
      65536 ≤ (g.thread 0).tx.items) ∧
    (let s := sTx (.txe 4 true) fun t => { t with ord := true }
     (launchAt s 0).det = false ∧ (launchAt s 0).token = none ∧ (launchGroups s 0).find? (holdsNext s) = some 0) ∧
    (let s := sTx (.txb 4) fun t => { t with active := false, wants := some none }
     ((grpAt s 0).thread 0).wait = .txb 4 ∧ ((grpAt s 0).thread 0).tx.wants = some none ∧ (grpAt s 0).resident = true ∧
      (partAt s (launchOf s 0).part).irrevToken = none) ∧
    (let s := sTx (.txb 4) fun t => { t with active := false, wants := some (some 6) }
     ((grpAt s 0).thread 0).tx.wants = some (some 6) ∧ released s 6 = true) := by decide +kernel

/-- Queue 0 of function 0 with one entry. -/
def sEntry (x : Nat) : State := modQueue (sysWrite s0 0 0x50000 (leBytes 64 x)) 0 0 fun c =>
  { c with qbase := 0x50000, logn := 4, en := true, tail := 1 }
def sRing (r : Ring) : State := modRing s0 0 1 fun _ => r

theorem witness_queue_entries :
    nextCommand (sEntry 0) 0 0 = some .nop ∧ nextCommand (sEntry (1 + 0x60000 * 2 ^ 64)) 0 0 = some (.launch 0x60000) ∧
    (queueAt (sEntry (1 + 0x60000 * 2 ^ 64)) 0 0).pending = none ∧
    (let t := takeEntry (sEntry (1 + 0x60000 * 2 ^ 64)) 0 0
     functionBlocked t 0 = false ∧ waitingEntries t 0 = []) ∧
    (let s := modQueue s0 0 0 fun c => { c with pending := some (4, 0x60000) }
     (queueAt s 0 0).pending = some (4, 0x60000) ∧ functionBlocked s 0 = false ∧ (∀ m ∈ waitingEntries s 0, 4 ≤ m)) ∧
    nextCommand (sEntry (2 + 7 * 2 ^ 64)) 0 0 = some (.stop 7) ∧ nextCommand (sEntry (3 + 7 * 2 ^ 64)) 0 0 = some (.switch 7) ∧
    nextCommand (sEntry 9) 0 0 = some .malformed ∧ partExists s0 (0 / 3) = true := by decide +kernel

theorem witness_records :
    (let r : Ring := { (default : Ring) with logn := 6, held := [5], heldOf := [none] }
     (ringAt (sRing r) 0 1).held = [5] ∧ (ringAt (sRing r) 0 1).heldOf = [none] ∧ ringOpen (ringAt (sRing r) 0 1) (recordsComing (sRing r) 0 1) = true) ∧
    (let r := ringAt (sRing { (default : Ring) with cnt := 1, pend := 1 }) 0 1
     r.cnt ≠ 0 ∧ r.cnt ≤ r.pend) ∧
    (partAt (modPart s0 0 fun p => { p with recheck := true }) 0).recheck = true ∧
    dependenceSealed (modPart s0 0 fun p => { p with recheck := true }) 0 = false := by decide +kernel

/-- A launch whose tables lie in the mapped page, there executable too: one range, of that page; a header of R32 at its
code. -/
def sTables : State := sysWrite (sysWrite (sysWrite sPaged 0 0x30010 (leBytes 8 0x4003F)) 0 0x40000
  (leBytes 16 (0x20000 + (1 + 7 * 2 ^ 36) * 2 ^ 64))) 0 0x40300 (leBytes 8 0x00020083)
def lTables (st : LaunchState) (snap : Bool) : Launch := { (default : Launch) with
  st := st
  desc := BitVec.ofNat 2048 (0x20300 + (0x20100 <<< 64) + (0x20000 <<< 128) + (1 <<< (8 * 144)) + (1 <<< (8 * 144 + 16)) +
    (1 <<< (8 * 144 + 32)) + (1 <<< (8 * 144 + 48)) + (64 <<< (8 * 152)) + (1 <<< (8 * 160)) +
    (if snap then 1 <<< (8 * 160 + 18) else 0)) }
def sWaits (l : Launch) : State := { sTables with launches := [(2, l)] }

def okTables (x : Except (Nat × Nat) Launch) : Bool :=
  match x with
  | .ok _ => true
  | .error _ => false
def badTables (x : Except (Nat × Nat) Launch) : Bool :=
  match x with
  | .error e => decide (e = (2, 0xFE))
  | .ok _ => false
def pinned : Setup → Bool
  | .ready _ => true
  | _ => false
def failsAt : Setup → Nat → Bool
  | .fails _ i, j => i = j
  | _, _ => false

theorem witness_launch_starts :
    (let l := lTables .waiting false
     mapFind (sWaits l).launches 2 = some l ∧ l.st = .waiting ∧ l.ndep = 0 ∧ okTables (checkTables (sWaits l) l) = true) ∧
    (let l : Launch := { (default : Launch) with st := .waiting }
     l.ndep = 0 ∧ badTables (checkTables (sWaits l) l) = true) ∧
    (let l := { lTables .starting true with ranges := [⟨0x20000, 1, true, true, true, true, false, false, false⟩] }
     mapFind (sWaits l).launches 2 = some l ∧ pinned (pinPages 2 (sWaits l) (residentPages l)) = true ∧ l.armed = false ∧
      l.snapOn = true ∧ snapDirty (sWaits l) l = [] ∧ (reserveLaunch (sWaits l) 2).isSome = true) ∧
    (let l := { lTables .starting true with ranges := [⟨0x20000, 1, true, true, true, true, false, false, false⟩] }
     let s := { sPaged with launches := [(2, l)] }
     failsAt (pinPages 2 s (residentPages l)) 0 = true) := by decide +kernel

/-- Team 1 of the launch, queued on a core. -/
def sQueued (core : Nat) : State :=
  modCore { s0 with teams := mapPut s0.teams 1 { (default : Team) with index := 1, st := .queued, core := core } } core
    fun c => { c with queues := [(0, [1])] }
/-- Two teams in the queue of core 2. -/
def sSteal : State := modCore { sQueued 2 with
  teams := mapPut (sQueued 2).teams 2 { (default : Team) with index := 2, st := .queued, core := 2 } } 2 fun c => { c with
    queues := [(0, [1, 2])] }
def sEnding (step : Nat) : State := modTeam (modGrp s0 0 fun g =>
  { g with threads := g.threads.map fun t => { t with status := .exited } }) 0 fun t => { t with endStep := step }
/-- Every thread of the group waits at a REGROUP of two groups, at a header. -/
def sRegroup : State := modTeam (modGrp sHead 0 fun g =>
  { g with threads := g.threads.map fun t => { t with pc := 0x10000, wait := .regroup 2 (.v 3) } }) 0
  fun t => { t with regroups := [(0, [0])] }

theorem witness_teams :
    (let l := launchAt s0 0
     mapFind s0.launches 0 = some l ∧ l.st = .running ∧ l.shadow = none ∧ l.nextDeal < l.nteams ∧ dealCores s0 l ≠ [] ∧
      (queuedTeams s0 ((dealCores s0 l).getD 0 0) l.prio).length < Config.teamQueue) ∧
    (topQueue (sQueued 1) 1 = some (0, [1]) ∧ (coreAt (sQueued 1) 1).switching = 0 ∧
      (coreAt (sQueued 1) 2).switching = 0 ∧ savedFirst (sQueued 1) 1 0 = false ∧ detWaits (sQueued 1) 1 = false ∧
      (findPlacing (sQueued 1) (launchAt (sQueued 1) (teamAt (sQueued 1) 1).lid) 1).isSome = true) ∧
    (topQueue sSteal 1 = none ∧ coreEnabled sSteal 1 = true ∧ (coreAt sSteal 1).switching = 0 ∧
      (victims 1).head? = some 2 ∧ (stealable sSteal 1 2).isSome = true) ∧
    startPlaced (sQueued 1) 1 = none ∧
    (let s := modTeam s0 0 fun t => { t with st := .placing }
     ∃ e ∈ s.teams, placedAt s 0 e.2 = true) ∧
    ((teamAt (sEnding 0) 0).st = .running ∧ (launchAt (sEnding 0) 0).st ≠ .ending ∧ teamAlive (sEnding 0) 0 = false ∧
      teamQuiet (sEnding 1) 0 = true ∧ teamApplied (sEnding 2) 0 = true ∧ (teamAt (sEnding 3) 0).endRel = none ∧
      (teamAt (sEnding 3) 0).pair = false ∧ (teamAt (sEnding 4) 0).rerunOf = none ∧
      assayEligible (sEnding 4) (launchAt (sEnding 4) 0) = false) ∧
    (mapFind (teamAt sRegroup 0).regroups 0 = some [0] ∧ regroupMembers sRegroup 0 [0] = [0] ∧
      regroupReady sRegroup 0 = true ∧ (survivors sRegroup [0]).length = 16 ∧ fetches sRegroup 0x10000 0x20083 2 = true ∧
      0x20083 % 4 = 3) := by decide +kernel

def sSaved (core : Nat) : State := { modCore s0 core fun c => { c with
  qlen := 1, saved := [{ (default : Saved) with teams := [1], pools := [(core, (0, 0))] }] } with cycle := 9999 }

theorem witness_switches :
    (let s := modCore s0 0 fun c => { c with switchAsked := true }
     draining s 0 = false ∧ switchUnits s 0 = [[0]] ∧ switchable s [0] = true ∧ (coreAt s 0).switchAsked = true) ∧
    (let s := modCore s0 0 fun c => { c with switching := 1 }
     draining s 0 = true ∧ unitDrained s (switchingUnit s 0) = true) ∧
    (switchUnits (sSaved 0) 0 = [[0]] ∧ switchable (sSaved 0) [0] = true ∧ quantumOut (sSaved 0) 0 = true ∧
      equalWaits (sSaved 0) [0] = true) ∧ quantumOut s0 0 = false ∧
    (nextContext (sSaved 1) 1).isSome = true := by decide +kernel
/-- A sampled team and its second run, which has ended. -/
def sAssay (runs : List (Nat × Word)) : State :=
  modTeam { s0 with teams := mapPut s0.teams 9 { (default : Team) with lid := 3, st := .done, rerunOf := some 0, sig := 5 } } 0
    fun t => { t with runs := runs }

theorem witness_reliability :
    (s0.variant.assay = true ∧ partExists s0 0 = true ∧ bits (0x100 : Word).toNat 0 9 ≤ 256) ∧
    (let s := sAssay [(0, 5)]
     (mapFind s.teams 9).map (·.st) = some .done ∧ (teamAt s 9).rerunOf = some 0 ∧ s.pubs = [] ∧
      (mapFind s.teams 0).isSome = true ∧ (launchAt s (teamAt s 0).lid).st = .running ∧ (teamAt s 0).runs = [(0, 5)] ∧
      5 = (teamAt s 9).sig) ∧
    (teamAt (sAssay [(0, 5), (1, 6)]) 0).runs = [(0, 5), (1, 6)] := by decide +kernel

/-- A partition with a carve change to come. -/
def sCarve (ways w : Nat) (busy : Bool) : State := modPart s0 0 fun p =>
  { p with ways := ways, carveQueue := [(w, none)], carveBusy := busy }

theorem witness_partitions :
    (partAt (sCarve 4 2 false) 0).carveQueue = [(2, none)] ∧ 2 ≤ (partAt (sCarve 4 2 false) 0).ways ∧
    (partAt (sCarve 4 14 false) 0).ways < 14 ∧ (partAt (sCarve 4 14 false) 0).carveBusy = false ∧
    (partAt (sCarve 4 14 true) 0).carveBusy = true ∧ linesIn (sCarve 4 14 true) (partAt (sCarve 4 14 true) 0) 14 = [] ∧
    (partAt s0 0).clusters.contains (Config.clustersPerDie * 0 + 3 / 4) = true ∧
    s0.power = .running ∧ 8 % 2 ^ 3 = 0 ∧ 8 + 2 ^ 3 ≤ s0.variant.clusters ∧
    (∀ i, i < 2 ^ 3 → partOfCluster s0 (8 + i) = none) ∧ partOfCluster s0 (0 + 0) ≠ none ∧
    (mapFind s0.parts 0).isSome = true ∧ s0.ingot.sealing = none ∧ (partAt s0 0).tearing = false ∧
    (let s := { modPart s0 0 fun p => { p with tearing := true } with launches := [] }
     (partAt s 0).tearing = true ∧ (∀ e ∈ s.launches, e.2.part ≠ 0)) := by decide +kernel

/-- Registers of channel 3 of die 0 and of slot 1 of core 2; a function without a partition; memory that no slice holds;
a part with ports and a launch on it. -/
theorem witness_register_accesses :
    0 < s0.variant.dies ∧ ((partOfCluster s0 0).filter fun p =>
      (partAt s0 p).clusters.contains (Config.clustersPerDie * 0 + 3 / 4)) = some 0 ∧
    ((partOfCluster s0 40).filter fun p =>
      (partAt s0 p).clusters.contains (Config.clustersPerDie * 0 + 3 / 4)) = none ∧
    2 < Config.coresPerCluster ∧ partExists s0 (partOfVf 30) = false ∧ s0.sysOps = [] ∧ partOfCluster s0 0 = some 0 ∧
    (∀ k ∈ (partAt s0 0).clusters, (sliceAt s0 k).lines = []) ∧ s0.variant.scaleout = true ∧
    (mapFind s0.launches 0).isSome = true ∧ 5 < Config.launchObjects := by decide +kernel

theorem witness_power :
    mayStart State.reset = true ∧ State.reset.power ≠ .recovery ∧ State.reset.flash.failedWarm < 3 ∧
    (let s := { State.reset with flash := { State.reset.flash with allTorn := true } }
     mayStart s = true ∧ s.flash.allTorn = true ∧ s.flash.failedWarm < 3) ∧
    (let s := { State.reset with power := .failed, flash := { State.reset.flash with failedCold := 3 } }
     s.power = .failed ∧ 3 ≤ s.flash.failedCold) ∧
    { State.reset with power := .recovery }.power = .recovery ∧
    (0 < s0.variant.clusters ∧ (sliceAt s0 0).gated = false ∧ (sliceAt s0 0).lines = [] ∧ (sliceAt s0 0).misses = [] ∧
      (sliceAt s0 0).waiting = []) ∧
    (sliceAt (modSlice s0 0 fun x => { x with gated := true }) 0).gated = true ∧
    (s0.variant.scaleout = true ∧ partExists s0 0 = true ∧
      (∀ i, i < [(1 : Byte), 2].length → backedHbm (partAt s0 0) (0x1000 + i) = true)) := by decide +kernel

/-- An operation of the ingot interface that runs, on partition 0, with a bond of no member. -/
def sIngot (op : Nat) (f : Ingot → Ingot) : State := modIngot s0 fun g => f { g with busy := true, runOp := op }
def bond0 : Bond := { (default : Bond) with n := 1 }

def ingotRuns (s : State) (op : Nat) : Bool :=
  s.ingot.busy && decide (s.ingot.runOp = op) && !s.flash.rolledBack && partExists s s.ingot.runPart
def endsWith {α : Type} (x : Except Nat α) (n : Nat) : Bool :=
  match x with
  | .error e => e = n
  | .ok _ => false
def noStatements (x : Except Nat (List Statement)) : Bool :=
  match x with
  | .ok [] => true
  | _ => false

/-- What an operation of the ingot interface asks of the state alone. Where it asks that a report or a statement
verifies, or that a wrapped key is one of this device's, that is a question to the opaque functions of Config, which no
concrete state can settle: SEAL's terms, WRAP's report, RESTORE's image and the sealing members' statements have no
witness here. SEALFIN and RESTOREFIN have one with a bond that asks for no statement. -/
theorem witness_ingots :
    ([1, 2, 3, 4, 5, 6, 7].all fun op => ingotRuns (sIngot op id) op) = true ∧
    endsWith (sealTerms (abandonSeal (sIngot 3 id))) 1 = true ∧
    (let s := sIngot 3 fun g => { g with stage := 1, sealing := some bond0 }
     (modLaunch s 0 fun l => { l with st := .finished }).launches.all fun e => e.2.part = 0 && e.2.st = .finished) = true ∧
    (let s := sIngot 3 fun g => { g with stage := 2, sealing := some bond0 }
     flushed s (partAt s 0) 0 = true) ∧
    (let s := sIngot 4 fun g => { g with sealing := some bond0, capacity := 448, stop := true }
     noStatements (checkStatements bond0 (statementsAt s (argOf s 0) bond0.k) 0x81 bond0.n (some myDevid)) = true ∧
      s.ingot.pos + (448 + 832 * bond0.k) ≤ s.ingot.capacity) ∧
    (sIngot 4 id).ingot.sealing = none ∧
    (let s := { sIngot 6 id with launches := [] }
     restorable s 0 = true ∧ endsWith (restoreTerms s) 5 = true) ∧
    (let s := sIngot 7 fun g => { g with claim := some bond0 }
     noStatements (checkStatements bond0 (statementsAt s (argOf s 0) bond0.k) 0x82 (bond0.n + 1) (some myDevid)) = true ∧
      lineageAt s bond0.l = none ∧ s.flash.lineage.length < Config.lineageEntries) ∧
    (sIngot 7 id).ingot.claim = none := by decide +kernel

/-- A witness's answer to a request is of one of the three kinds that the statement names, whatever the opaque functions
answer. -/
theorem witness_requests (s : State) : ∃ x w, witnessed s = (x, w) ∧
    ((∃ e, w = .bad e) ∨ w = .refused ∨ ∃ e k, w = .row e k) := by
  generalize witnessed s = p
  obtain ⟨x, w⟩ := p
  exact ⟨x, w, rfl, by cases w <;> simp⟩

/-- Rows of the witness's table (R435). -/
theorem witness_rows : (let x : Statement := { (default : Statement) with kind := 2, n := 4 }
    let e : Lineage := { (default : Lineage) with r := 3, st := .sealed }
    e.r + 1 = x.n ∧ e.st = .sealed ∧ e.digest = x.digest) ∧
    (let x : Statement := { (default : Statement) with kind := 3, n := 4 }
     let e : Lineage := { (default : Lineage) with r := 4, st := .claimed }
     e.r = x.n ∧ e.st = .claimed ∧ e.holder = x.holder) := by decide

/-! ## Witnesses: the machine as a whole -/

def isNopc (x : Except DecodeError Instr) : Bool :=
  match x with
  | .ok i => decide (i = .nopC h0)
  | .error _ => false

/-- An item that is encoded, and its encoding. -/
theorem witness_encoding : (Instr.nopC h0).wf = true ∧ (encode (.nopC h0)).isSome = true ∧
    isNopc (decode (Raw.ofBits 0x00000007001E0000)) = true := by decide +kernel

/-- What an outcome gives. -/
def isNext (o : Option Out) (p : State → Bool) : Bool :=
  match o with
  | some (.next t) => p t
  | _ => false
def itemIs {ε : Type} (x : Except ε (Instr × Nat)) (n : Nat) : Bool :=
  match x with
  | .ok e => decide (e = (.nopC h0, n))
  | .error _ => false
def fetchesAt (s : State) (va v n : Nat) : Bool :=
  match fetchItem s 0 va with
  | .ok e => decide (e = (v, n))
  | .error _ => false

theorem witness_steps :
    s0.agenda = [.pick 0 0] ∧
    ((lanesOf (grpAt s0 0).width 0xFFFF).all fun l => ((grpAt s0 0).thread l).block.any fun b =>
      decide (0x10008 + 4 * 2 ≤ b.stop.toNat)) = true ∧ fetchesAt s0 0x10008 0x00000007001E0000 2 = true ∧
    0x00000007001E0000 % 4 ≠ 3 ∧
    itemIs (itemAt (fetchLines s0 0 0x10008) 0 0x10008 0xFFFF) 8 = true ∧
    (match exec (.nopC h0) { fetchLines s0 0 0x10008 with issuing := some ⟨0, 0x10008, 8, 0xFFFF⟩ } with
      | .next t => t.issuing.isSome | _ => false) = true ∧
    (let s := { s0 with agenda := [] }
     let u := enterBlocks s 0
     (quartAt s0 0).pickCycle ≠ some s0.cycle ∧ (coreAt s0 (0 / 4)).switching = 0 ∧ groupFree s0 (grpAt s0 0) = true ∧
      quarterGroups s 0 = [0] ∧ quarterGroups u 0 = [0] ∧ rankedPcs (grpAt u 0) = [0x10008] ∧
      isNext (issueAt u 0 0x10008 ((grpAt u 0).activeAt 0x10008)) (fun _ => true) = true) ∧
    (let s := { sAnswer (.noAlloc 0 8 0) with agenda := [] }
     s.power = .running ∧ (dueEvent s).isSome = true) ∧
    (let s := { State.reset with power := .running }
     s.agenda = [] ∧ (dueEvent s).isNone = true ∧ s.groups = []) := by decide +kernel

/-- The memories of the reset state are in canonical form, and it steps. -/
theorem witness_memories : MemoriesWf State.reset ∧ isNext (some (step State.reset)) (fun _ => true) = true := by
  refine ⟨by unfold MemoriesWf; decide, by decide +kernel⟩

/-! ## Witnesses: causes and frames -/

/-- What `MayIssue` asks, as a computation. -/
theorem may_of {it : Item} {s : State} {i : Issue} {ex : Mask} (h : issuesB { it with privileged := false } s i ex = true) :
    MayIssue it s i := (issues_of h).1

/-- A cause in user mode; TRAP in user and in privileged mode; a privileged item in user mode. -/
theorem witness_causes : (grpAt s0 0).priv = false ∧ CauseCode.escalated .swtrap = false ∧
    (grpAt s0 0).spec.st ≠ .speculating ∧ (grpAt s0 0).spec.st ≠ .stalled ∧
    ({ (default : Cause) with code := .prot, sub := 3, lane := 5, wr := true } : Cause).sub < 256 ∧
    Issues { ctrlItem h0 with txBad := true, specHold := true } s0 i0 0xFFFF ∧
    Issues { ctrlItem h0 with txBad := true, specHold := true } s0p i0 0xFFFF ∧ (grpAt s0p 0).priv = true ∧
    MayIssue { hdr := h0, cls := .ctrl, privileged := true, txBad := true } s0 i0 ∧
    MayIssue { sysItem h0 [.v 1, .v 2] [.v 3] with privileged := true, txBad := true, specHold := true } s0 i0 ∧
    MayIssue { sysItem h0 [] [.v 3] with privileged := csrPriv 0x13, least := 6 } s0 i0 ∧
    MayIssue (illegalItem s0) s0 i0 ∧ csrPriv 0x13 = true ∧
    [Opnd.v 1, .v 2].any (badSource (launchOf s0 0).regs false) = false ∧
    [Opnd.v 3].any (badDest (launchOf s0 0).regs false) = false := by
  refine ⟨by decide +kernel, by decide, by decide +kernel, by decide +kernel, by decide, issues_of (by decide +kernel),
    issues_of (by decide +kernel), by decide +kernel, may_of (ex := 0xFFFF) (by decide +kernel),
    may_of (ex := 0xFFFF) (by decide +kernel), may_of (ex := 0xFFFF) (by decide +kernel), ?_, by decide, by decide +kernel,
    by decide +kernel⟩
  unfold MayIssue
  decide +kernel

/-- A poisoned word of scratchpad is consumed by LDS with UNCORR (R391); a clean sector of a line is dropped (R390). -/
theorem test_soft_errors :
    ((firstFail (scratchPoisoned (softError s0 (.scratch 0 0x40)) 0 4 [(2, 0x44)])).map (·.code)) = some .uncorr ∧
    scratchPoisoned (scratchWrite (softError s0 (.scratch 0 0x40)) 0 0x40 8 5) 0 4 [(2, 0x44)] = [] ∧
    (softError s0 .corrected).cecnt = 1 := by decide +kernel

/-- A load whose lanes are not aligned, and a store past the scratchpad; addresses at the bounds of each check. -/
theorem witness_bad_addresses :
    Issues { memItem h0 [.v 1, .v 2] [.v 3] with unit := .ls } s0 i0 0xFFFF ∧
    ((lowestFail (loadFails s0 0 0 8 (laneAddrs (fun s gid l => readOpnd s gid l (.v 1) + 4) i0 0xFFFF s0))).map
      (·.code)) = some .misalign ∧
    Issues { memItem h0 [.s 0, .v 2] [] with specHold := true, writesMem := true } s0 i0 0xFFFF ∧
    ((lowestFail (scratchFails (launchOf s0 0) 8 8 true
      (laneAddrs (fun s gid l => readOpnd s gid l (.s 0) + 0xFC0) i0 0xFFFF s0))).map (·.code)) = some .scratch ∧
    (0x41 : Word).toNat % 8 ≠ 0 ∧ (0x1000 : Word).toNat % 8 = 0 ∧ scratchHas (launchOf s0 0) 0x1000 8 = false ∧
    2 ^ 52 ≤ (0x10000000000000 : Word).toNat ∧ (0xFFFFFFFFFFFFC : Word).toNat < 2 ^ 52 ∧
    (0xFFFFFFFFFFFFC : Word).toNat % 8 ≠ 0 ∧ (0x30000 : Word).toNat % 8 = 0 ∧ rangeOf (launchAt s0 0) 0x30000 = none :=
  ⟨issues_of (by decide +kernel), by decide +kernel, issues_of (by decide +kernel), by decide +kernel⟩

/-- Guarded by p7 negated, which holds in no lane. -/
def hOff : Hdr := ⟨⟨0, 0, none, false⟩, ⟨7, true⟩, .none⟩

theorem witness_guarded_off : MayIssue (aItem hOff [.v 1, .v 2] (.v 3)) s0 i0 ∧
    Decodes (aItem hOff [.v 1, .v 2] (.v 3)) s0 i0 ∧
    execLanes (grpAt s0 0) i0.act (aItem hOff [.v 1, .v 2] (.v 3)).hdr = 0 ∧ (grpAt s0 0).spec.st ≠ .speculating := by
  unfold MayIssue Decodes
  decide +kernel

/-- An instruction of the kind that IssueKeepsRegistersAndMemory speaks of: MOVI computes a value. -/
theorem witness_computes : ComputesPure (.movi h0 (.v 1) 42) (mvItem h0 [] [.v 1]) (.v 1) (fun _ => (42 : BitVec 23).signExtend 64) ∧
    namesStream (mvItem h0 [] [.v 1]) = false ∧ Issues (mvItem h0 [] [.v 1]) s0 i0 0xFFFF :=
  ⟨computes_of fun _ => rfl, by decide, issues_of (by decide +kernel)⟩

/-- Registers in canonical form, of which one is written; a group with a lane 3. -/
theorem witness_registers : canonFrom 0 0 ((grpAt s0 0).thread 3).v = true ∧ canonFrom 0 0 (grpAt s0 0).s = true ∧
    3 < (grpAt s0 0).threads.length := by decide +kernel

/-- STS and LDS at offset 0x40 answer next states. -/
theorem witness_scratchpad_steps :
    isNext (some (exec (.stsL h0 .n64 (.v 2) (.s 0) 0) s0)) (fun t => (teamAt t 0).scratch.length == 1) = true ∧
    isNext (some (exec (.ldsL h0 .n64 (.v 3) (.s 0) 0) s0)) (fun t => ((grpAt t 0).ops.length == 1)) = true := by
  decide +kernel

end Sys2Proof.Tests
end

section
/-! PROOF. RegisterAccesses.lean: the registers at their addresses, the fields of a mailbox record, registers of a
function without a partition, and a management core's access to memory that no slice holds. -/

namespace Sys2Proof.Machine

/-! ## Addresses in the register space of a management core (R73, R374) -/

theorem dies_le (v : Variant) : v.dies ≤ 4 := by cases v <;> decide

/-- The counters of a channel lie by die, channel and kind (R73). -/
theorem managerReg_counter {s : State} {die chan which : Nat} (hd : die < s.variant.dies) (hc : chan < 64)
    (hw : which < 3) :
    managerReg s (0x02000000 + 0x10000 * die + 0x40 * chan + 8 * which) = .counter die chan which := by
  have hdies := dies_le s.variant
  generalize ha : 0x02000000 + 0x10000 * die + 0x40 * chan + 8 * which = a
  have health : ¬ a / 8 = 0x01000000 / 8 := by omega
  have low : ¬ 0x03000000 ≤ a := by omega
  have high : 0x02000000 ≤ a := by omega
  have hoff : (a - 0x02000000) % 0x10000 = 0x40 * chan + 8 * which := by omega
  have hdie : (a - 0x02000000) / 0x10000 = die := by omega
  have hchan : (0x40 * chan + 8 * which) / 0x40 = chan := by omega
  have hwhich : (0x40 * chan + 8 * which) % 0x40 = 8 * which := by omega
  have inside : (decide (s.variant.dies ≤ die) || decide (0x1000 ≤ 0x40 * chan + 8 * which) ||
      decide (0x18 ≤ 8 * which)) = false := by
    simp only [Bool.or_eq_false_iff, decide_eq_false_iff_not]; omega
  simp [managerReg, health, low, high, hoff, hdie, hchan, hwhich, inside]

/-- The words of a mailbox slot lie by core of the cluster, slot and word (R374). -/
theorem managerReg_slot (s : State) {c n k : Nat} (hc : c < Config.coresPerCluster) (hn : n < 8) (hk : k < 8) :
    managerReg s (0x03000000 + 0x400 * c + 0x40 * n + 8 * k) = .slot c n k := by
  generalize ha : 0x03000000 + 0x400 * c + 0x40 * n + 8 * k = a
  have health : ¬ a / 8 = 0x01000000 / 8 := by omega
  have high : 0x03000000 ≤ a := by omega
  have hoff : (a - 0x03000000) % 0x400 = 0x40 * n + 8 * k := by omega
  have hcore : (a - 0x03000000) / 0x400 = c := by omega
  have inside : 0x40 * n + 8 * k < 0x200 := by omega
  have hslot : (0x40 * n + 8 * k) / 0x40 = n := by omega
  have hword : 8 * k % 0x40 / 8 = k := by omega
  simp [managerReg, health, high, hoff, hcore, Nat.not_le.mpr hc, inside, hslot, hword]

/-! ## Request counters (R73) -/

/-- The partition of a cluster, where it owns a channel: the one that reads and writes the channel's counters. -/
def channelOwner (s : State) (cluster die chan : Nat) : Option Nat :=
  (partOfCluster s cluster).filter fun p => (partAt s p).clusters.contains (Config.clustersPerDie * die + chan / 4)

theorem ownsChannel_eq_isSome (s : State) (cluster die chan : Nat) :
    ownsChannel s cluster die chan = (channelOwner s cluster die chan).isSome := by
  unfold ownsChannel channelOwner
  cases partOfCluster s cluster <;> simp [Option.filter, apply_ite]

theorem counterValue_eq (s : State) (die chan : Nat) {which : Nat} (hw : which < 3) :
    counterValue s die chan which =
      mapGet 0 (if which = 0 then s.localReq else if which = 1 then s.remoteReq else s.hostReq) (64 * die + chan) := by
  match which, hw with
  | 0, _ | 1, _ | 2, _ => rfl

theorem execRequestCounterWrite_of_not_owned {s : State} {p die chan : Nat} (which : Nat) (val : Word)
    (h : (partAt s p).clusters.contains (Config.clustersPerDie * die + chan / 4) = false) :
    execRequestCounterWrite p die chan which val s = .next s := by
  unfold execRequestCounterWrite
  rw [h]
  rfl

section Counter
variable {s : State} {die chan which : Nat} (cluster : Nat) (val : Word)

theorem managerRead_counter (hd : die < s.variant.dies) (hc : chan < 64) (hw : which < 3) :
    managerRead s cluster (0x02000000 + 0x10000 * die + 0x40 * chan + 8 * which) =
      if (channelOwner s cluster die chan).isNone then 0 else counterValue s die chan which := by
  simp only [managerRead, managerReg_counter hd hc hw, ownsChannel_eq_isSome]
  cases channelOwner s cluster die chan <;> rfl

theorem managerWrite_counter_of_no_owner (hd : die < s.variant.dies) (hc : chan < 64) (hw : which < 3)
    (h : channelOwner s cluster die chan = none) :
    managerWrite cluster (0x02000000 + 0x10000 * die + 0x40 * chan + 8 * which) val s = .next s := by
  simp only [managerWrite, managerReg_counter hd hc hw]
  split
  · rename_i p hp
    rw [channelOwner, hp, Option.filter_some_eq_none, Bool.not_eq_true] at h
    exact execRequestCounterWrite_of_not_owned which val h
  · rfl

theorem managerWrite_counter_of_owner {p : Nat} (hd : die < s.variant.dies) (hc : chan < 64) (hw : which < 3)
    (h : channelOwner s cluster die chan = some p) :
    managerWrite cluster (0x02000000 + 0x10000 * die + 0x40 * chan + 8 * which) val s =
      execRequestCounterWrite p die chan which val s := by
  have hp : partOfCluster s cluster = some p := (Option.filter_eq_some_iff.mp h).1
  simp only [managerWrite, managerReg_counter hd hc hw, hp]

end Counter

/-! ## Mailbox slots (R374) -/

theorem slotWord_of_lt (x : Slot) {k : Nat} (h : k < 4) : slotWord x k = recordWord x.record k := by
  match k, h with
  | 0, _ | 1, _ | 2, _ | 3, _ => rfl

/-- The control byte of a slot, of its two flags. -/
theorem getLsbD_flags : ∀ full replied : Bool,
    (BitVec.ofNat 64 (full.toNat + 2 * replied.toNat)).getLsbD 0 = full ∧
    (BitVec.ofNat 64 (full.toNat + 2 * replied.toNat)).getLsbD 1 = replied := by decide

theorem slotWord_control (x : Slot) : (slotWord x 5).getLsbD 0 = x.full ∧ (slotWord x 5).getLsbD 1 = x.replied :=
  getLsbD_flags x.full x.replied

section Slot
variable (s : State) (cluster : Nat) {c n k : Nat} (val : Word)

theorem managerRead_slot (hc : c < Config.coresPerCluster) (hn : n < 8) (hk : k < 8) :
    managerRead s cluster (0x03000000 + 0x400 * c + 0x40 * n + 8 * k) =
      slotWord (slotAt (coreAt s (Config.coresPerCluster * cluster + c)) n) k := by
  simp only [managerRead, managerReg_slot s hc hn hk]

theorem managerWrite_reply (hc : c < Config.coresPerCluster) (hn : n < 8) :
    managerWrite cluster (0x03000000 + 0x400 * c + 0x40 * n + 8 * 4) val s =
      execMailboxReply (Config.coresPerCluster * cluster + c) n val s := by
  simp only [managerWrite, managerReg_slot s hc hn (show 4 < 8 by decide)]

theorem managerWrite_control (hc : c < Config.coresPerCluster) (hn : n < 8) :
    managerWrite cluster (0x03000000 + 0x400 * c + 0x40 * n + 8 * 5) val s =
      execMailboxControlClear (Config.coresPerCluster * cluster + c) n (val.getLsbD 0) (val.getLsbD 1) s := by
  have bit0 : decide (val.toNat % 2 = 1) = val.getLsbD 0 := (Nat.testBit_zero _).symm
  have bit1 : decide (val.toNat / 2 % 2 = 1) = val.getLsbD 1 := by
    rw [BitVec.getLsbD, Nat.testBit_succ, Nat.testBit_zero]
  simp only [managerWrite, managerReg_slot s hc hn (show 5 < 8 by decide), bit0, bit1]

end Slot

/-- A field of a word that is given by its value. -/
theorem extractLsb'_ofNat_eq {x lo w v : Nat} (h : x % 2 ^ 64 / 2 ^ lo % 2 ^ w = v % 2 ^ w) :
    (BitVec.ofNat 64 x).extractLsb' lo w = BitVec.ofNat w v := by
  apply BitVec.eq_of_toNat_eq
  rw [BitVec.extractLsb'_toNat, BitVec.toNat_ofNat, BitVec.toNat_ofNat, Nat.shiftRight_eq_div_pow, h]

/-- Word 0 of a mailbox record holds its kind, cause, place and ASID, each in its field (R374). -/
theorem recordWord_fields (r : MboxRec) : (recordWord r 0).extractLsb' 0 8 = BitVec.ofNat 8 r.kind ∧
    (recordWord r 0).extractLsb' 8 8 = BitVec.ofNat 8 r.cause ∧
    (recordWord r 0).extractLsb' 16 8 = BitVec.ofNat 8 r.orig ∧
    (recordWord r 0).extractLsb' 24 4 = BitVec.ofNat 4 r.slot ∧
    (recordWord r 0).extractLsb' 28 2 = BitVec.ofNat 2 r.quarter ∧
    (recordWord r 0).extractLsb' 30 3 = BitVec.ofNat 3 r.core ∧ (recordWord r 0).extractLsb' 33 15 = 0 ∧
    (recordWord r 0).extractLsb' 48 16 = BitVec.ofNat 16 r.asid := by
  refine ⟨?kind, ?cause, ?orig, ?slot, ?quarter, ?core, extractLsb'_ofNat_eq (v := 0) ?reserved, ?asid⟩
  case reserved => omega
  all_goals exact extractLsb'_ofNat_eq (by omega)

/-! ## Functions without a partition (R405), and IMEXT (R6) -/

theorem funcRead_of_no_part {s : State} {vf : Nat} (off : Nat) (h : partExists s (partOfVf vf) = false) :
    funcRead s vf off = 0 := by
  simp [funcRead, h]

/-- Each register of a virtual function discards its write where the function's partition is not there. -/
theorem funcWrite_of_no_part {s : State} {vf : Nat} (off : Nat) (val : Word)
    (h : partExists s (partOfVf vf) = false) : funcWrite vf off val s = .next s := by
  unfold funcWrite
  split
  case isTrue => split <;> simp [execRegisterWrite, execQtailWrite, h]
  case isFalse =>
    split
    case isTrue => split <;> simp [execRegisterWrite, execRheadWrite, h]
    case isFalse => rfl

theorem ingotWord_imext (g : Ingot) (k : Nat) : ingotWord g (6 + k) = 0 := by
  simp [ingotWord, show 6 + k ≠ 5 by omega, show ¬ 6 + k < 5 by omega]

theorem physicalRead_imext (s : State) (k : Nat) : physicalRead s (0x6030 + 8 * k) = 0 := by
  have below : ¬ 0x6030 + 8 * k < 0x6000 := by omega
  have word : (0x6030 + 8 * k - 0x6000) / 8 = 6 + k := by omega
  simp [physicalRead, below, word, ingotWord_imext]

/-! ## What applying bytes leaves of the accesses that wait -/

theorem foldl_sysOps {α : Type} {f : State → α → State} (h : ∀ s a, (f s a).sysOps = s.sysOps) (xs : List α) :
    ∀ s, (xs.foldl f s).sysOps = s.sysOps := by
  induction xs with
  | nil => intro s; rfl
  | cons x xs ih => intro s; rw [List.foldl_cons, ih, h]

@[simp] theorem homeWrite_sysOps (s : State) (part : Nat) (b : Byte) (h : Home) :
    (homeWrite s part b h).sysOps = s.sysOps := by cases h <;> rfl

@[simp] theorem forgetEntries_sysOps (s : State) (a n : Nat) : (forgetEntries s a n).sysOps = s.sysOps := rfl

@[simp] theorem storeBytes_sysOps (part : Nat) (bs : List Byte) :
    ∀ s pa, (storeBytes s part pa bs).sysOps = s.sysOps := by
  induction bs with
  | nil => intro s pa; rfl
  | cons b bs ih =>
    intro s pa
    rw [storeBytes, ih]
    split <;> simp

@[simp] theorem cleanSectors_sysOps (s : State) (part pa n : Nat) : (cleanSectors s part pa n).sysOps = s.sysOps := by
  unfold cleanSectors
  split <;> rfl

@[simp] theorem sysApply_sysOps (s : State) (part pa : Nat) (bs : List Byte) :
    (sysApply s part pa bs).sysOps = s.sysOps := by
  have stored : (cleanSectors (storeBytes s part pa bs) part pa bs.length).sysOps = s.sysOps := by simp
  exact (foldl_sysOps (fun _ _ => foldl_sysOps (fun _ _ => modSlice_sysOps ..) _ _) _ _).trans stored

/-! ## An access that meets no line and no other access (R273) -/

theorem paHolders_nil {s : State} {part : Nat} (h : ∀ k ∈ (partAt s part).clusters, (sliceAt s k).lines = [])
    (pa : Nat) : paHolders s part pa = [] :=
  List.flatMap_eq_nil_iff.mpr fun k hk => by simp [h k hk]

theorem sysLines_nil {s : State} {part : Nat} (h : ∀ k ∈ (partAt s part).clusters, (sliceAt s k).lines = [])
    (o : SysOp) (ho : o.part = part) : sysLines s o = [] := by
  simp [sysLines, ho, paHolders_nil h]

theorem sysReady_of_no_lines {s : State} {o : SysOp} (ha : o.arrived = true) (hl : sysLines s o = []) :
    sysReady s o = true := by
  simp [sysReady, ha, hl]

/-- With no access before it and no line of a slice in its way, an access is made at once, as it reaches the slices. -/
theorem sysPost_alone {s : State} {agent : SysAgent} {part pa n : Nat} {job : SysJob} {o : SysOp}
    (hs : s.sysOps = []) (ho : sysArrive s ⟨agent, part, pa, n, job, false, []⟩ = o)
    (hr : sysReady { s with sysOps := [o] } o = true) (hm : (sysMake s o).sysOps = []) :
    sysPost s agent part pa n job = sysMake s o := by
  have none_left : { s with sysOps := [] } = s := by rw [← hs]
  have made : sysStep { s with sysOps := [o] } = some (sysMake s o) := by
    have nothing_arrives : { sysMake s o with sysOps := [] } = sysMake s o := by rw [← hm]
    simp [sysStep, hr, none_left, hm, sysArrivals, nothing_arrives]
  simp [sysPost, hs, sysArrivals, ho, sysRun, made]

/-- A management core's access to memory that no slice holds is made at once (R273). -/
theorem managerAccess_of_no_lines {s : State} {cluster part pa n : Nat} {job : SysJob}
    (hs : s.sysOps = []) (hp : partOfCluster s cluster = some part)
    (hl : ∀ k ∈ (partAt s part).clusters, (sliceAt s k).lines = [])
    (hj : ∀ vf ring rec of, job ≠ .record vf ring rec of)
    (hm : (sysMake s ⟨.manager cluster, part, pa, n, job, true, []⟩).sysOps = []) :
    managerAccess s cluster pa n job = sysMake s ⟨.manager cluster, part, pa, n, job, true, []⟩ := by
  have arrives : sysArrive s ⟨.manager cluster, part, pa, n, job, false, []⟩ =
      ⟨.manager cluster, part, pa, n, job, true, []⟩ := by
    cases job with
    | record vf ring rec of => exact absurd rfl (hj vf ring rec of)
    | _ => simp [sysArrive, sysLines_nil hl]
  simp only [managerAccess, hp]
  exact sysPost_alone hs arrives (sysReady_of_no_lines rfl (sysLines_nil hl _ rfl)) hm

/-! ## The statement -/

/-- Settles O48: each register is found by its address, and an access that meets no line is made as it arrives. -/
theorem registerAccessesComplete : Obligations.RegisterAccessesComplete := by
  unfold Obligations.RegisterAccessesComplete
  refine ⟨?read, ?write, ?counter, ?slot, recordWord_fields, ?noPart, fun s k _ => physicalRead_imext s k, ?access,
    ?join⟩
  case read => intro s r rest h; simp only [step, h, runAction]
  case write => intro s r val rest h; simp only [step, h, runAction]
  case counter =>
    intro s cluster die chan which val hd hc hw
    exact ⟨(managerRead_counter cluster hd hc hw).trans (by rw [counterValue_eq s die chan hw]; rfl),
      managerWrite_counter_of_no_owner cluster val hd hc hw, fun p => managerWrite_counter_of_owner cluster val hd hc hw⟩
  case slot =>
    intro s cluster c n k val hc hn hk
    refine ⟨managerRead_slot s cluster hc hn hk, slotWord_of_lt _, rfl, (slotWord_control _).1, (slotWord_control _).2,
      ?_, ?_⟩
    · rintro rfl; exact managerWrite_reply s cluster val hc hn
    · rintro rfl; exact managerWrite_control s cluster val hc hn
  case noPart => exact fun s vf off val h => ⟨funcRead_of_no_part off h, funcWrite_of_no_part off val h⟩
  case access =>
    intro s cluster part pa bs hs hp hl
    exact ⟨managerAccess_of_no_lines hs hp hl (by simp) (by simp [sysMake, hs]),
      managerAccess_of_no_lines hs hp hl (by simp) hs⟩
  case join => intro s lid obj hv hlaunch hobj; simp [joinObject, hv, hlaunch, hobj]

end Sys2Proof.Machine
end

section
/-! PROOF. Accesses.lean: LD, ST, LDX, STX, PREF and LINV of an item that issues, lane by lane once its checks have
passed; and the causes that failed checks raise (R67, R143 to R150). -/

namespace Sys2Proof.Machine

/-! ## An item that issues -/

theorem exec_ne_zero_of_issues {it : Item} {s : State} {i : Issue} {ex : Mask} (h : Issues it s i ex) : ex ≠ 0 := by
  obtain ⟨-, -, -, hne, -⟩ := h
  exact hne

theorem speculates_eq_false_of_issues {it : Item} {s : State} {i : Issue} {ex : Mask} (h : Issues it s i ex) :
    (grpAt s i.gid).speculates = false := by
  obtain ⟨-, -, -, -, -, hspec, -⟩ := h
  exact decide_eq_false hspec

/-! ## Lists of which all, or nothing, is kept (this file builds on core Lean's list lemmas, without Mathlib's) -/

theorem filter_const_true {α : Type} (xs : List α) : (xs.filter fun _ => true) = xs :=
  List.filter_eq_self.mpr fun _ _ => rfl

theorem filter_const_false {α : Type} (xs : List α) : (xs.filter fun _ => false) = [] :=
  List.filter_eq_nil_iff.mpr fun _ _ => Bool.false_ne_true

section Access
variable {it : Item} {ty : Ty} {ch : CHint} {d : Opnd} {addr : State → Nat → Nat → Word}
  {s : State} {i : Issue} {ex : Mask}

/-! ## The lanes' addresses -/

theorem map_lanes_eq_laneAddrs :
    ((lanesOf (grpAt s i.gid).width ex).map fun l => (l, addr s i.gid l)) = laneAddrs addr i ex s := rfl

theorem map_laneAddrs_eq_laneNats :
    ((laneAddrs addr i ex s).map fun e => (e.1, e.2.toNat)) = laneNats addr i ex s := rfl

/-! ## LD (R144, R145) -/

/-- The accesses that are served at once, and those that wait for a request. -/
theorem partition_req (as : List LaneAcc) :
    (as.partition fun a => a.req.isNone) = (as.filter (·.req.isNone), as.filter (·.req.isSome)) := by
  rw [List.partition_eq_filter_filter]
  congr 2
  funext a
  cases h : a.req <;> simp [h]

/-- LD whose lanes pass their checks: each lane reads, from where its bytes are, or by a request to the slices. -/
theorem ldBody_eq_done {acq : Option Scope} (h : Issues it s i ex)
    (hfail : loadFails s (lidOf s i.gid) (grpAt s i.gid).core (bytesOf ty) (laneAddrs addr i ex s) = [])
    (hpoison : poisonHit s (grpAt s i.gid).core (launchAt s (lidOf s i.gid)).asid (laneNats addr i ex s) = [])
    (hroom : readOverflow (consumeAll s i.gid it) i.gid false (bytesOf ty) (laneNats addr i ex s) = [])
    (hown : ownHeld (grpAt s i.gid) (laneNats addr i ex s) (bytesOf ty) = false)
    (hshort : shortOf s (grpAt s i.gid).core (laneAddrs addr i ex s) = false) :
    let g := grpAt s i.gid
    let lid := lidOf s i.gid
    let as := laneNats addr i ex s
    let r := loadLanes ⟨lid, g.core, i.pc, ch = .nl || acq = some .sys, ch = .strm⟩ i.gid ty
      (pinLoads (consumeAll s i.gid it) lid (bytesOf ty) as) as
    let todo := r.2.filter (·.req.isSome)
    ldBody it ty acq ch d addr i ex s = .done
      { writes := (r.2.filter (·.req.isNone)).flatMap fun a =>
          resultWrite d ((lanesOf 64 ex).headD 0) a.lane (loadExt ty (bytesOf ty) a.data.toNat)
        least := if todo.isEmpty then l1Latency else sliceLatency r.1 lid g.core (todo.map fun a => (a.lane, a.va))
        kind := .load d todo, holds := if acq.isSome then .all else .none
        elements := coalesced as, ran := some ex } r.1 := by
  unfold ldBody
  simp only [map_lanes_eq_laneAddrs, map_laneAddrs_eq_laneNats, hfail, hpoison, hshort, hroom, hown, List.isEmpty_nil,
    checked_nil lowestFail_nil (exec_ne_zero_of_issues h), filter_laneNats, abortCapacity_nil, partition_req,
    speculates_eq_false_of_issues h, Bool.false_and, Bool.or_self, Bool.false_eq_true, if_true, if_false]
  rfl

/-! ## ST (R137, R145) -/

/-- The executing lanes with their addresses and the values that they store. -/
def laneStores (addr : State → Nat → Nat → Word) (d : Opnd) (i : Issue) (ex : Mask) (s : State) :
    List (Nat × Nat × Word) :=
  (lanes i ex s).map fun l => (l, (addr s i.gid l).toNat, readOpnd s i.gid l d)

theorem map_lanes_eq_laneStores :
    ((lanesOf (grpAt s i.gid).width ex).map fun l => (l, (addr s i.gid l).toNat, readOpnd s i.gid l d)) =
      laneStores addr d i ex s := rfl

theorem map_laneStores_eq_laneNats :
    ((laneStores addr d i ex s).map fun e => (e.1, e.2.1)) = laneNats addr i ex s := by
  simp only [laneStores, laneNats, laneAddrs, List.map_map, Function.comp_def]

theorem filter_laneStores :
    (laneStores addr d i ex s).filter (fun e => hasBit ex e.1) = laneStores addr d i ex s :=
  filter_lanes _ _ (fun l => (l, (addr s i.gid l).toNat, readOpnd s i.gid l d)) (fun e => e.1) fun _ => rfl

/-- A release begins, and its item takes effect in the lanes that execute. -/
theorem storeRelease_eq_done (i : Issue) (ex : Mask) (s : State) (lid n : Nat) (strm : Bool)
    (xs : List (Nat × Nat × Word)) : ∃ e t, storeRelease i ex s lid n strm xs = .done e t ∧ e.ran = none := by
  unfold storeRelease
  exact ⟨_, _, rfl, rfl⟩

/-- What an item that takes effect ran in, where its body does not say: the lanes that passed its checks. -/
def ranIn (ex : Mask) : Body → Body
  | .done e s => .done { e with ran := e.ran <|> some ex } s
  | b => b

/-- A store by lane takes effect, or waits for the L1. -/
def storesDone (elements : Nat) (ex : Mask) : Option State → Body
  | some t => .done { elements := elements, ran := some ex } t
  | none => .wait

theorem ranIn_done {b : Body} {ex : Mask} {e : Effect} {t : State} (h : b = .done e t) (hr : e.ran = none) :
    ranIn ex b = .done { e with ran := some ex } t := by
  simp [h, ranIn, hr]

section Store
variable {rel : Option Scope} (h : Issues it s i ex)
  (hfail : storeFails (launchAt s (lidOf s i.gid)) (bytesOf ty) (bytesOf ty) false true (laneAddrs addr i ex s) = [])
  (hprobes : probesAnswered i s
    (probePages s (lidOf s i.gid) (grpAt s i.gid).core (bytesOf ty) (laneAddrs addr i ex s)))
  (hroom : writeOverflow (consumeAll (clearProbes s i) i.gid it) i.gid false (laneNats addr i ex s) = [])
  (hown : ownHeld (grpAt s i.gid) (laneNats addr i ex s) (bytesOf ty) = false)
  (hrel : rel.isSome = true → ownUnperformed (grpAt s i.gid) ex = false)
  (hshort : shortOf s (grpAt s i.gid).core (laneAddrs addr i ex s) = false)
include h hfail hprobes hroom hown hrel hshort

/-- ST whose lanes pass their checks: it stores by lane, or at a publishing scope begins its release. -/
theorem stBody_of_checks : stBody it ty rel ch d addr i ex s =
    ranIn ex (if rel.any (publishesAt (launchAt s (lidOf s i.gid))) then
      storeRelease i ex (consumeAll (clearProbes s i) i.gid it) (lidOf s i.gid) (bytesOf ty) (ch = .strm)
        (laneStores addr d i ex s)
    else storesDone (coalesced (laneNats addr i ex s)) ex (storeLanes (lidOf s i.gid) (grpAt s i.gid).core i.gid
      (bytesOf ty) (ch = .strm) (consumeAll (clearProbes s i) i.gid it) (laneStores addr d i ex s))) := by
  have hun : (rel.isSome && ownUnperformed (grpAt s i.gid) ex) = false := by
    cases hr : rel.isSome
    · rfl
    · exact hrel hr
  unfold stBody
  simp only [map_lanes_eq_laneAddrs, map_lanes_eq_laneStores, hfail, hshort, List.all_nil, filter_const_true,
    probed_ok hprobes (exec_ne_zero_of_issues h), filter_laneStores, map_laneStores_eq_laneNats, hroom,
    abortCapacity_nil, hown, hun, speculates_eq_false_of_issues h, Bool.false_and, Bool.or_self, Bool.false_eq_true,
    if_false]
  cases rel <;> rfl

end Store

/-! ## LDX and STX (R148) -/

/-- Offsets that are aligned and below the carved size pass every check (R143). -/
theorem carvedFails_eq_nil {size n : Nat} {wr : Bool} {as : List (Nat × Word)}
    (h : ∀ a ∈ as, a.2.toNat % n = 0 ∧ a.2.toNat + n ≤ size) : carvedFails size n wr as = [] := by
  rw [carvedFails, List.filterMap_eq_nil_iff]
  intro a ha
  obtain ⟨aligned, inside⟩ := h a ha
  simp [aligned, inside]

/-- The operations of LDX and STX: one for each executing lane. -/
theorem filter_carvedKinds (kind : Nat → SliceKind) :
    ((laneAddrs addr i ex s).map fun e => (e.1, e.2.toNat, kind e.1)).filter (fun e => hasBit ex e.1) =
      (laneNats addr i ex s).map fun e => (e.1, e.2, kind e.1) := by
  simp only [laneNats, laneAddrs, lanes, List.map_map, Function.comp_def]
  exact filter_lanes _ _ (fun l => (l, (addr s i.gid l).toNat, kind l)) (fun e => e.1) fun _ => rfl

/-- LDX or STX whose lanes pass their checks sends one operation for each. -/
theorem carvedBody_of_checks {store : Bool} (h : Issues it s i ex)
    (hfail : ∀ a ∈ laneAddrs addr i ex s,
      a.2.toNat % bytesOf ty = 0 ∧ a.2.toNat + bytesOf ty ≤ (coreAt s (grpAt s i.gid).core).carved)
    (hshort : shortOf s (grpAt s i.gid).core (laneAddrs addr i ex s) = false) :
    let r := sendItems (consumeAll s i.gid it) i (grpAt s i.gid).nextOp ((laneNats addr i ex s).map fun e =>
      (e.1, e.2, if store then SliceKind.stx (readOpnd s i.gid e.1 d) (bytesOf ty) else .ldx (bytesOf ty) e.1 ty))
    carvedBody it ty d store addr i ex s =
      .done { kind := .applied (if store then .zero else d) r.2, ran := some ex } r.1 := by
  unfold carvedBody
  simp only [map_lanes_eq_laneAddrs, hshort, carvedFails_eq_nil hfail, checked_nil lowestFail_nil
    (exec_ne_zero_of_issues h), Bool.false_eq_true, if_false]
  rw [filter_carvedKinds fun l => if store then SliceKind.stx (readOpnd s i.gid l d) (bytesOf ty)
    else .ldx (bytesOf ty) l ty]
  rfl

/-! ## PREF and LINV (R149, R150) -/

/-- PREF treats its hints lane by lane, with entries free for their lines. -/
theorem prefBody_of_not_short {l2 res : Bool} {lc : Nat}
    (hshort : shortOf (consumeAll s i.gid it) (grpAt s i.gid).core (laneAddrs addr i ex s) = false) :
    prefBody it l2 res lc addr i ex s = .done { lat := some 1 } ((laneAddrs addr i ex s).foldl (fun t e =>
      if !hintOk t (lidOf s i.gid) e.2 then dropBadHint t (grpAt s i.gid).core (lidOf s i.gid) e.2
      else if res then walkLine t (grpAt s i.gid).core (lidOf s i.gid) e.2.toNat 1
      else prefetchLine t (grpAt s i.gid).core (lidOf s i.gid) e.2.toNat lc l2 1) (consumeAll s i.gid it)) := by
  unfold prefBody
  simp only [map_lanes_eq_laneAddrs, hshort, Bool.false_eq_true, if_false]

end Access

/-- The item of LINV: its sources are the registers of its range, where it has one. -/
def linvItem (h : Hdr) (rng : Option (Opnd × Opnd)) : Item :=
  { memItem h (rng.elim [] fun r => [r.1, r.2]) [] with txBad := true, specHold := true }

/-- The body of LINV: it invalidates, or publishes, each line of the group's ASID that its ranges reach. -/
def linvBody (it : Item) (pub : Bool) (rng : Option (Opnd × Opnd)) (i : Issue) (ex : Mask) (s : State) : Body :=
  let core := (grpAt s i.gid).core
  let s1 := consumeAll s i.gid it
  let reached := (coreAt s1 core).l1.filter fun x => x.asid = asidOf s1 i.gid &&
    (linvRanges s i.gid (lanes i ex s) rng).any fun r =>
      r.1 < r.2 && x.line * 128 < r.2 && r.1 < x.line * 128 + 128
  let r := reached.foldl (linvLine core i.gid pub) (s1, [])
  .done { kind := if pub then .sending r.2 else .ready } r.1

theorem exec_linv (h : Hdr) (pub : Bool) (rng : Option (Opnd × Opnd)) (s : State) :
    exec (.linv h pub rng) s = runItem (linvItem h rng) (linvBody (linvItem h rng) pub rng) s := by
  cases rng <;> rfl

/-- LINV of everything reaches the lines whose address is one of the 2^52. -/
theorem any_linvRanges_none (s : State) (gid : Nat) (ls : List Nat) (line : Nat) :
    ((linvRanges s gid ls none).any fun r => r.1 < r.2 && line * 128 < r.2 && r.1 < line * 128 + 128) =
      decide (line * 128 < 2 ^ 52) := by
  simp [linvRanges]

/-! ## A failed check of a group without transactions -/

section Fault
variable {it : Item} {s : State} {i : Issue} {ex : Mask} {fs : List Fail} {c : Cause}

theorem hasBit_zero (l : Nat) : hasBit (0#64) l = false := by simp [hasBit]

/-- Where no lane is in a transaction, every failure is left to be raised (R322). -/
theorem splitFails_of_no_tx (htx : ∀ l, ((grpAt s i.gid).thread l).tx.active = false) :
    splitFails s i.gid fs = (s, 0, fs) := by
  have no_lane : ∀ l, hasBit (grpAt s i.gid).txLanes l = false := fun l => by
    rw [txLanes_none htx]
    exact hasBit_zero l
  simp only [splitFails, no_lane, Bool.false_and, Bool.not_false, filter_const_false, filter_const_true, List.foldl_nil,
    List.map_nil]
  rfl

theorem checked_of_lowestFail {k : Mask → State → Body} (htx : ∀ l, ((grpAt s i.gid).thread l).tx.active = false)
    (hc : lowestFail fs = some c) : checked i ex s fs lowestFail k = .laneFault c s := by
  simp only [checked, splitFails_of_no_tx htx, hc]

/-- A fault of an item's lanes is delivered at the item, which takes no effect (R143, R365). -/
theorem runItem_laneFault {body : Issue → Mask → State → Body} (h : Issues it s i ex)
    (htx : ∀ l, ((grpAt s i.gid).thread l).tx.active = false) (hb : body i ex s = .laneFault c s) :
    runItem it body s = .next (deliver (notePick s i it) i i.pc c) := by
  rw [runItem_issues h, hb]
  simp only [txLanes_none htx, and_not_zero]

theorem isEmpty_eq_false_of_lowestFail (hc : lowestFail fs = some c) : fs.isEmpty = false := by
  cases fs with
  | nil => simp at hc
  | cons f fs => rfl

/-- LD with a lane that fails its checks raises the cause of the lowest one. -/
theorem ldBody_eq_laneFault {ty : Ty} {acq : Option Scope} {ch : CHint} {d : Opnd} {addr : State → Nat → Nat → Word}
    (htx : ∀ l, ((grpAt s i.gid).thread l).tx.active = false)
    (hshort : shortOf s (grpAt s i.gid).core (laneAddrs addr i ex s) = false)
    (hc : lowestFail (loadFails s (lidOf s i.gid) (grpAt s i.gid).core (bytesOf ty) (laneAddrs addr i ex s)) =
      some c) :
    ldBody it ty acq ch d addr i ex s = .laneFault c s := by
  unfold ldBody
  simp only [map_lanes_eq_laneAddrs, hshort, isEmpty_eq_false_of_lowestFail hc, checked_of_lowestFail htx hc,
    Bool.false_eq_true, if_false]

/-- STS with a lane that fails its checks raises the cause of the lowest one. -/
theorem stsBody_eq_laneFault {ty : Ty} {d : Opnd} {addr : State → Nat → Nat → Word}
    (htx : ∀ l, ((grpAt s i.gid).thread l).tx.active = false)
    (hc : lowestFail (scratchFails (launchOf s i.gid) (bytesOf ty) (bytesOf ty) true (laneAddrs addr i ex s)) =
      some c) :
    stsBody it ty d addr i ex s = .laneFault c s := by
  unfold stsBody
  simp only [map_lanes_eq_laneAddrs, checked_of_lowestFail htx hc]

end Fault

/-! ## The checks (R67, R143) -/

section Checks
variable (l : Launch) {n al lane : Nat} {a : Word} (rd wr : Bool)

theorem scratchFails_cons_misalign (as : List (Nat × Word)) (ha : a.toNat % al ≠ 0) :
    scratchFails l n al wr ((lane, a) :: as) =
      laneFail lane 0 .misalign a wr :: scratchFails l n al wr as := by
  simp [scratchFails, ha]

theorem scratchFails_cons_outside (as : List (Nat × Word)) (ha : a.toNat % al = 0)
    (hs : scratchHas l a.toNat n = false) :
    scratchFails l n al wr ((lane, a) :: as) = laneFail lane 1 .scratch a wr :: scratchFails l n al wr as := by
  simp [scratchFails, ha, hs]

theorem rangeCheck_past_space (h : 2 ^ 52 ≤ a.toNat) : rangeCheck l a n al rd wr = some .prot := if_pos h

theorem rangeCheck_misaligned (h : a.toNat < 2 ^ 52) (ha : a.toNat % al ≠ 0) :
    rangeCheck l a n al rd wr = some .misalign := by
  rw [rangeCheck, if_neg (Nat.not_le.mpr h), if_pos ha]

theorem rangeCheck_no_range (h : a.toNat < 2 ^ 52) (ha : a.toNat % al = 0) (hr : rangeOf l a.toNat = none) :
    rangeCheck l a n al rd wr = some .lease := by
  rw [rangeCheck, if_neg (Nat.not_le.mpr h)]
  simp [ha, hr]

end Checks

theorem mem_of_minBy {α : Type} {key : α → Nat} {xs : List α} {y : α} (h : minBy key xs = some y) : y ∈ xs := by
  induction xs generalizing y with
  | nil => simp [minBy] at h
  | cons x xs ih =>
    simp only [minBy] at h
    split at h
    next => obtain rfl := Option.some.inj h; exact List.mem_cons_self
    next z hz =>
      split at h <;> obtain rfl := Option.some.inj h
      · exact List.mem_cons_self
      · exact List.mem_cons_of_mem _ (ih hz)

/-- A key that no other element undercuts is the least. -/
theorem minBy_cons_of_le {α : Type} {key : α → Nat} {x : α} {xs : List α} (h : ∀ y ∈ xs, key x ≤ key y) :
    minBy key (x :: xs) = some x := by
  rw [minBy]
  split
  next => rfl
  next y hy => rw [if_pos (h y (mem_of_minBy hy))]

/-- The failure that comes first, in the lowest lane and the earliest check, is the one reported. -/
theorem lowestFail_cons {l k : Nat} {c : Cause} {fs : List Fail} (hl : ∀ f ∈ fs, l ≤ f.1)
    (hk : ∀ f ∈ fs, f.1 = l → k < f.2.1) (h64 : k < 64) : lowestFail ((l, k, c) :: fs) = some c := by
  have least : ∀ f ∈ fs, 64 * l + k ≤ 64 * f.1 + f.2.1 := fun f hf => by
    rcases Nat.lt_or_eq_of_le (hl f hf) with h | h
    · omega
    · have := hk f hf h.symm
      omega
  rw [lowestFail, minBy_cons_of_le least]
  rfl

/-! ## The statements -/

/-- Settles O16: LD reads lane by lane once its checks have passed. -/
theorem loadsComplete : Obligations.LoadsComplete := by
  unfold Obligations.LoadsComplete
  constructor
  · intro h ty sc acq ch d a b s i ex hi g lid n s1 as hfail hpoison hroom hown hshort how r todo
    exact runItem_done hi (ldBody_eq_done hi hfail hpoison hroom hown hshort)
  · intro h ty ch d a imm s i ex hi g lid n s1 as hfail hpoison hroom hown hshort how r todo
    exact runItem_done hi (ldBody_eq_done hi hfail hpoison hroom hown hshort)

/-- Settles O17: the lanes' bytes are stored in ascending order, or the release of ST.REL begins. -/
theorem storesComplete : Obligations.StoresComplete := by
  unfold Obligations.StoresComplete
  intro stores
  have of_body {ins it ty rel ch d addr} (hx : ∀ s, exec ins s = runItem it (stBody it ty rel ch d addr) s) :
      stores ins it ty rel ch d addr := by
    intro s i ex h g lid n s1 as vals hfail hprobes hroom hown hrel hshort
    have hb := stBody_of_checks (ch := ch) (d := d) h hfail hprobes hroom hown hrel hshort
    split
    case isTrue hpub =>
      obtain ⟨e, t, hdone, hran⟩ := storeRelease_eq_done i ex s1 lid n (ch = .strm) vals
      refine ⟨e, t, hdone, ?_⟩
      rw [if_pos hpub] at hb
      rw [hx, runItem_done h (hb.trans (ranIn_done hdone hran))]
      rfl
    case isFalse hpub =>
      intro t ht
      rw [if_neg hpub] at hb
      rw [hx, runItem_done h (hb.trans (congrArg (ranIn ex) (congrArg (storesDone _ ex) ht)))]
      rfl
  exact ⟨fun h ty sc rel ch d a b => of_body fun _ => rfl, fun h ty ch d a imm => of_body fun _ => rfl⟩

/-- Settles O19: an operation by lane for LDX and STX, a hint by lane for PREF, and the lines that LINV reaches. -/
theorem carvedAccessesAndHintsComplete : Obligations.CarvedAccessesAndHintsComplete := by
  unfold Obligations.CarvedAccessesAndHintsComplete
  refine ⟨?carved, ?prefS, ?prefL, ?linvAll, ?linvRanges⟩
  case carved =>
    intro carved
    have of_body {ins it ty d store addr} (hx : ∀ s, exec ins s = runItem it (carvedBody it ty d store addr) s) :
        carved ins it ty d store addr := by
      intro s i ex h g s1 hfail hshort r
      rw [hx]
      exact runItem_done h (carvedBody_of_checks h hfail hshort)
    exact ⟨fun h ty sc d a b => ⟨of_body fun _ => rfl, of_body fun _ => rfl⟩,
      fun h ty d a imm => ⟨of_body fun _ => rfl, of_body fun _ => rfl⟩⟩
  case prefS =>
    exact fun h l2 res lc sc a b s i ex hi hs => runItem_done hi (prefBody_of_not_short hs)
  case prefL =>
    exact fun h l2 res lc a imm s i ex hi hs => runItem_done hi (prefBody_of_not_short hs)
  case linvAll =>
    intro h pub
    refine takes_of (exec_linv h pub none) fun s i ex _ _ => ?_
    simp only [linvBody, any_linvRanges_none]
    rfl
  case linvRanges =>
    intro h pub a b
    refine takes_of (exec_linv h pub (some (a, b))) fun s i ex _ _ => ?_
    simp only [linvBody, linvRanges, List.any_map]
    rfl

/-- Settles O56: a failed check is delivered as the cause of the lowest failing lane, and nothing else changes. -/
theorem badAddressesFault : Obligations.BadAddressesFault := by
  unfold Obligations.BadAddressesFault
  refine ⟨?load, ?store, fun l n al wr lane a as => scratchFails_cons_misalign l wr as,
    fun l n al wr lane a as => scratchFails_cons_outside l wr as, fun l a n al rd wr => ⟨rangeCheck_past_space l rd wr,
      rangeCheck_misaligned l rd wr, rangeCheck_no_range l rd wr⟩, fun l k c fs => lowestFail_cons⟩
  case load =>
    intro h ty sc acq ch d a b s i ex c hi htx hshort hc
    exact runItem_laneFault hi htx (ldBody_eq_laneFault htx hshort hc)
  case store =>
    intro h ty d a imm s i ex c hi htx _ hc
    exact runItem_laneFault hi htx (stsBody_eq_laneFault htx hc)

end Sys2Proof.Machine
end

section
/-! PROOF. Slices.lean: read requests at a slice and their answers, translation and fills (R56 to R62, R76, R77, R131);
write-backs, releases, fence markers and residency probes (R59, R60, R68, R70, R80, R81, R281). -/

namespace Sys2Proof.Machine

/-! ## Events that may find nothing to do -/

theorem next_getD_of_eq_some {o : Option State} {s t : State} (h : o = some t) :
    (Host.Outcome.next (o.getD s) : Out) = .next t := by rw [h, Option.getD_some]

theorem next_getD_of_eq_none {o : Option State} {s : State} (h : o = none) :
    (Host.Outcome.next (o.getD s) : Out) = .next s := by rw [h, Option.getD_none]

/-! ## Read requests (R77, R131, R276) -/

theorem holdRead_of_not_irrev {s : State} {k : Nat} {r : Request} (h : ∀ g p l e, r.reader ≠ .irrev g p l e) :
    holdRead s k r = some s := by
  unfold holdRead
  split
  next hr => exact absurd hr (h _ _ _ _)
  next => rfl

section Serve
variable {s : State} {k req : Nat} {r : Request} {x : L2Line}

theorem lineReady_of_valid (lid : Nat) (first : Bool) (hp : x.place ≠ 2) (hv : x.valid = 0xF#4) :
    lineReady s k x lid first = (true, none) := by
  simp [lineReady, hp, hv]

/-- A request whose line is there, whole, and which nothing holds back is answered. -/
theorem serveHere_of_line (hx : findL2 (sliceAt s k) r.asid r.line = some x) (hp : x.place ≠ 2)
    (hv : x.valid = 0xF#4) (hsealed : readSealed s k r.asid r.line 0xF = false) (hown : ownStores s k req r = false)
    (hwaits : readWaits s k req r false = false) (hi : ∀ g p l e, r.reader ≠ .irrev g p l e) :
    serveHere s k req r = some (answerRead s k req r x) := by
  simp only [serveHere, hx, lineReady_of_valid _ _ hp hv, hsealed, hown, hwaits, holdRead_of_not_irrev hi, Bool.or_self,
    Bool.false_eq_true, if_false, Option.map_some]

/-- A request whose line is neither there nor on its way starts a miss. -/
theorem serveHere_of_no_line (hx : findL2 (sliceAt s k) r.asid r.line = none)
    (hm : findMiss (sliceAt s k) r.asid r.line = none) :
    serveHere s k req r = some (startMiss s k r.lid r.asid r.line false false
      (r.hintFirst || match r.reader with | .l1 _ _ _ f => f | _ => false)) := by
  cases hrd : r.reader <;> simp only [serveHere, hx, hm, hrd]

/-- A request that waits at its slice goes on. -/
theorem serveRead_of_waiting (hr : mapFind s.requests req = some r) (hst : r.stage = .waiting)
    (hg : (sliceAt s (sliceOf s r.lid r.asid (r.line * 128))).gated = false) (hw : r.reader ≠ .walk) :
    serveRead s req = serveHere s (sliceOf s r.lid r.asid (r.line * 128)) req r := by
  have same : { r with stage := .waiting } = r := by rw [← hst]
  simp [serveRead, hr, hst, hg, hw, same]

/-- A request that reaches its slice joins those that wait there, and goes on. -/
theorem serveRead_of_sent (hr : mapFind s.requests req = some r) (hst : r.stage = .sent)
    (he : hasEntry s r.core req = true) (hg : (sliceAt s (sliceOf s r.lid r.asid (r.line * 128))).gated = false)
    (hwaits : readWaits s (sliceOf s r.lid r.asid (r.line * 128)) req r true = false) (hw : r.reader ≠ .walk) :
    let k := sliceOf s r.lid r.asid (r.line * 128)
    let t := modSlice { s with requests := mapPut s.requests req { r with stage := .waiting } } k fun sl =>
      { sl with waiting := sl.waiting ++ [req] }
    serveRead s req = some ((serveHere t k req { r with stage := .waiting }).getD t) := by
  simp [serveRead, hr, hst, he, hg, hwaits, hw]

end Serve

/-- The answer to a request of the L1 fills it, and serves the accesses that wait. -/
theorem fillReturn_of_l1 {s t : State} {req : Nat} {r : Request} {d : Line} {stop lc : Nat} {vers : List (BitVec 48)}
    {poison : BitVec 4} {g : Nat} {p : Word} {l : Nat} {first : Bool} (hr : mapFind s.requests req = some r)
    (hst : r.stage = .answered d stop lc vers poison) (hrd : r.reader = .l1 g p l first)
    (hb : fillBefore s req r = false) (hf : fillL1 s g r d stop lc vers poison first = some t) :
    fillReturn s req = some { serveAll t req d vers poison with
      requests := mapErase (serveAll t req d vers poison).requests req } := by
  simp [fillReturn, hr, hst, hrd, hb, hf]

/-- The answer to a read that takes no lease serves the accesses that wait. -/
theorem fillReturn_of_noAlloc {s : State} {req : Nat} {r : Request} {d : Line} {stop lc : Nat}
    {vers : List (BitVec 48)} {poison : BitVec 4} {g : Nat} {p : Word} {l : Nat} (hr : mapFind s.requests req = some r)
    (hst : r.stage = .answered d stop lc vers poison) (hrd : r.reader = .noAlloc g p l)
    (hb : fillBefore s req r = false) :
    fillReturn s req = some { serveAll s req d vers poison with
      requests := mapErase (serveAll s req d vers poison).requests req } := by
  simp [fillReturn, hr, hst, hrd, hb]

/-! ## Leases (R80) -/

theorem discardLease_of_expired {s : State} {k asid line exp : Nat} (hm : (asid, line, exp) ∈ (sliceAt s k).leases)
    (he : exp ≤ gtOf s) : discardLease s k asid line = some (modSlice s k fun sl => { sl with
      leases := sl.leases.filter fun e => !(e.1 = asid && e.2.1 = line && decide (e.2.2 ≤ gtOf s)) }) := by
  have found : ((sliceAt s k).leases.any fun e => e.1 = asid && e.2.1 = line && decide (e.2.2 ≤ gtOf s)) = true :=
    List.any_eq_true.mpr ⟨_, hm, by simp [he]⟩
  rw [discardLease, if_pos found]

/-! ## Translation (R56 to R62) -/

section Walk
variable {s : State} {k asid line : Nat} {m : Miss}

/-- An entry of the block translates a miss. -/
theorem tlbWalk_of_tlbHit {t : TlbEntry} (hm : findMiss (sliceAt s k) asid line = some m) (hpa : m.pa = none)
    (hf : m.failed = 0) (hu : (blockAt s (blockNo k)).updates = []) (ht : tlbHit s k asid line m.write = some t) :
    tlbWalk s k asid line = some (resolveMiss s k asid line t) := by
  simp [tlbWalk, hm, hpa, hf, hu, ht]

/-- Without one, the walk's leaf is used. -/
theorem tlbWalk_of_leaf {n e epa : Nat} {large : Bool} (hm : findMiss (sliceAt s k) asid line = some m)
    (hpa : m.pa = none) (hf : m.failed = 0) (hu : (blockAt s (blockNo k)).updates = [])
    (ht : tlbHit s k asid line m.write = none)
    (hw : walk (walkReads s k asid line) (slicePart (walkReads s k asid line) k) asid (line * 128) =
      .leaf n e epa large) :
    tlbWalk s k asid line = some (useLeaf (walkReads s k asid line) k asid line e epa large m.write) := by
  simp [tlbWalk, hm, hpa, hf, hu, ht, hw]

/-- A leaf that allows the access and has its bits set translates the miss. -/
theorem useLeaf_of_allowed {e epa : Nat} {large write : Bool} (ha : entryAllows s k asid line e write = true)
    (hb : adBits e write = e) : useLeaf s k asid line e epa large write =
      resolveMiss (addTlb s k (leafEntry s k asid line e epa large)) k asid line
        (leafEntry s k asid line e epa large) := by
  simp [useLeaf, ha, hb]

/-- A swap that finds the entry unchanged sets its bits, and the entry that stands then translates the miss (R62). -/
theorem adSwap_of_unchanged {u : AdUpdate} {rest : List AdUpdate} (hu : (blockAt s (blockNo k)).updates = u :: rest)
    (hk : u.slice = k) (ha : u.asid = asid) (hl : u.va / 128 = line)
    (hr : readEntry (countAccess s u.part (dieOf k) u.entryPa) u.part u.entryPa = some u.old.toNat)
    (hv : pteV u.new.toNat = true) (hleaf : pteLeaf u.new.toNat = true) :
    adSwap s k asid line =
      let s1 := countAccess s u.part (dieOf k) u.entryPa
      let put := match homeOf (partAt s1 u.part) u.entryPa with
        | some h => homeWriteLE s1 u.part h 8 u.new.toNat
        | none => s1
      let t := modBlock put (blockNo k) fun x => { x with updates := rest }
      let x := leafEntry t k asid line u.new.toNat u.entryPa u.large
      some (resolveMiss (addTlb t k x) k asid line x) := by
  cases hh : homeOf (partAt (countAccess s u.part (dieOf k) u.entryPa) u.part) u.entryPa <;>
    simp [adSwap, hu, hk, ha, hl, hr, hv, hleaf, hh]

end Walk

/-! ## Fills (R76, R81) -/

section Fill
variable {s : State} {k asid line : Nat} {m : Miss} {pa a : Nat}

/-- A line comes from HBM into a free way. -/
theorem memoryFill_of_freeWay {way : Nat} (hm : findMiss (sliceAt s k) asid line = some m) (hpa : m.pa = some pa)
    (hh : homeOf (partAt s (slicePart s k)) pa = some (.hbm a)) (hn : m.nofill = false) (hp : m.place ≠ 2)
    (he : exposedHeld s a true = []) (hx : findL2 (sliceAt s k) asid line = none)
    (hw : freeWay s k asid line = some way) :
    let t := correctLine (countAccess s (slicePart s k) (dieOf k) pa) a
    memoryFill s k asid line = some
      (installLine t k way m pa 0xF#4 (memPoison t (slicePart s k) pa) (memLine t (slicePart s k) pa)) := by
  simp [memoryFill, hm, hpa, hh, hn, hp, he, hx, hw]

/-- In a full set a victim leaves first. -/
theorem memoryFill_of_full (hm : findMiss (sliceAt s k) asid line = some m) (hpa : m.pa = some pa)
    (hh : homeOf (partAt s (slicePart s k)) pa = some (.hbm a)) (hn : m.nofill = false)
    (he : exposedHeld s a true = []) (hx : findL2 (sliceAt s k) asid line = none)
    (hw : freeWay s k asid line = none) : memoryFill s k asid line = evictVictim s k asid line := by
  simp [memoryFill, hm, hpa, hh, hn, he, hx, hw]

/-- The victim is the line that the open choice names. -/
theorem evictVictim_of_choice {x : L2Line} (hx : (victimLines s k asid line)[
      Config.freeChoice s.free % (victimLines s k asid line).length]? = some x) :
    evictVictim s k asid line = (evictLine { s with free := s.free + 1 } k x).map (·.1) := by
  have some_victim : (victimLines s k asid line).isEmpty = false := by
    cases hv : victimLines s k asid line with
    | nil => simp [hv] at hx
    | cons y ys => rfl
  simp only [evictVictim, some_victim, freeChoice, List.getD_eq_getElem?_getD, hx, Option.getD_some,
    Bool.false_eq_true, if_false]

theorem mem_victimLines {x : L2Line} (h : x ∈ victimLines s k asid line) :
    x ∈ (sliceAt s k).lines ∧ mayEvict s k x = true ∧ sliceSet x.asid x.line = sliceSet asid line := by
  have eligible : x ∈ (sliceAt s k).lines.filter fun x =>
      sliceSet x.asid x.line = sliceSet asid line && mayEvict s k x := by
    unfold victimLines at h
    simp only at h
    split at h
    · exact (List.mem_filter.mp h).1
    · exact h
  obtain ⟨here, ok⟩ := List.mem_filter.mp eligible
  simp only [Bool.and_eq_true, decide_eq_true_eq] at ok
  exact ⟨here, ok.2, ok.1⟩

end Fill

/-! ## Write-backs (R59, R60, R70, R80) -/

section WriteBack
variable {s : State} {k : Nat} {x : L2Line}

theorem writebackLine_of_evictLine {asid line : Nat} {t : State} {b : Bool}
    (hx : findL2 (sliceAt s k) asid line = some x) (he : mayEvict s k x = true)
    (hl : evictLine s k x = some (t, b)) : writebackLine s k asid line = some t := by
  simp [writebackLine, hx, he, hl]

/-- A line leaves once its write-back has been accepted, and its lease is kept. -/
theorem evictLine_of_writeBack {t : State} (hw : writeBack s k x = some (t, true)) :
    evictLine s k x = some (keepLease (dropLine (cleanEvicts t x) k x.asid x.line) k x, true) := by
  simp [evictLine, hw]

theorem writeBack_clean (h : x.dirty = 0) : writeBack s k x = some (s, true) := by
  rw [writeBack, if_pos h]

theorem writeTarget_of_tlbHit {e : TlbEntry} (he : tlbHit s k x.asid x.line true = some e)
    (hm : findMiss (sliceAt s k) x.asid x.line = none) :
    writeTarget s k x = some (if pteW e.entry.toNat = true then .inr (entryPaOf e x.line)
      else .inl (startMiss s k x.lid x.asid x.line true true false)) := by
  simp only [writeTarget, he, hm]
  split <;> rfl

theorem writeTarget_of_no_entry (he : tlbHit s k x.asid x.line true = none)
    (hm : findMiss (sliceAt s k) x.asid x.line = none) :
    writeTarget s k x = some (.inl (startMiss s k x.lid x.asid x.line true true false)) := by
  simp only [writeTarget, he, hm]

/-- A line that is not translated for writing has only begun its walk. -/
theorem writeBack_of_begun {t : State} (hd : x.dirty ≠ 0) (hw : writeTarget s k x = some (.inl t)) :
    writeBack s k x = some (t, false) := by
  simp only [writeBack, hd, hw, if_false]

/-- With its snapshots taken, a line is written to HBM, its poison with it, and the entries under its dirty sectors are
forgotten. -/
theorem writeBack_hbm {t : State} {pa a : Nat} (hd : x.dirty ≠ 0) (hw : writeTarget s k x = some (.inr pa))
    (hh : homeOf (partAt s (slicePart s k)) pa = some (.hbm a))
    (hs : snapshots pa s (snapLaunches s (slicePart s k) x.asid (x.line * 128)) = (t, none)) :
    writeBack s k x =
      let u := homeWriteMask (forgetSectors (countAccess t (slicePart s k) (dieOf k) pa) a x.dirty) (slicePart s k)
        (.hbm a) x.data.toNat (bytesOfSectors x.dirty).toNat 0 128
      some (modLine (putPoison u a x.dirty x.poison) k x.asid x.line fun y => { y with dirty := 0 }, true) := by
  simp only [writeBack, hd, hw, hh, hs, if_false]

end WriteBack

/-! ## Releases, fence markers and residency probes (R65, R68, R281) -/

section Release
variable {s : State} {rel : Nat} {r : Release}

theorem advanceRelease_unapplied (hr : mapFind s.releases rel = some r) (ha : allApplied s r.pubs = false) :
    advanceRelease s rel = none := by
  simp [advanceRelease, hr, ha]

/-- A release whose publications are applied and whose markers are answered goes on. -/
theorem advanceRelease_sent (hr : mapFind s.releases rel = some r) (ha : allApplied s r.pubs = true)
    (hst : r.stage = .sent) (hm : r.markers = []) : advanceRelease s rel = some (afterRelease s rel r) := by
  simp [advanceRelease, hr, ha, hst, hm]

/-- One that publishes nothing goes on at once. -/
theorem advanceRelease_waiting (hr : mapFind s.releases rel = some r) (ha : allApplied s r.pubs = true)
    (hst : r.stage = .waiting) (hp : r.publishes = false) : advanceRelease s rel = some (afterRelease s rel r) := by
  simp [advanceRelease, hr, ha, hst, hp]

/-- A die answers a release's marker when no publication of the group there is from before the marker. -/
theorem answerMarker_of_none_before {die : Nat} (hr : mapFind s.releases rel = some r) (hst : r.stage = .sent)
    (hd : die ∈ r.markers)
    (hb : ∀ e ∈ s.pubs, e.2.sp = true ∨ e.2.sender.counted ≠ some r.gid ∨ dieOf (pubSlice s e.2) ≠ die ∨
      r.mark ≤ e.2.seq ∨ e.2.stage = .held) :
    answerMarker s rel die = some (setRelease s rel { r with markers := r.markers.filter (· ≠ die) }) := by
  have none_before : (s.pubs.any fun e => !e.2.sp && e.2.sender.counted = some r.gid &&
      dieOf (pubSlice s e.2) = die && decide (e.2.seq < r.mark) && !(decide (e.2.stage = .held))) = false := by
    rw [List.any_eq_false]
    intro e he
    rcases hb e he with hsp | hcounted | hdie | hseq | hheld
    · simp [hsp]
    · simp [hcounted]
    · simp [hdie]
    · simp [Nat.not_lt.mpr hseq]
    · simp [hheld]
  simp only [answerMarker, hr, hst, none_before, List.contains_iff_mem.mpr hd, decide_true, Bool.not_true, Bool.or_self,
    Bool.false_eq_true, if_false]

end Release

/-- A probe is answered with what the walk finds, and a resident page is pinned. -/
theorem answerProbe_of_entry {s : State} {id : Nat} {p : Probe} (hp : mapFind s.probes id = some p)
    (ha : p.answered = none) (he : hasEntry s p.core id = true) :
    let asid := (launchAt s p.lid).asid
    let k := sliceOf s p.lid asid (p.page * 65536)
    let t := if (tlbHit s k asid (p.page * 65536 / 128) false).isSome then s
      else walkReads s k asid (p.page * 65536 / 128)
    let r := residency t p.lid asid (p.page * 65536)
    let u := if r = .yes then pinPage t p.lid p.page else t
    answerProbe s id = some { u with probes := mapPut u.probes id { p with answered := some r } } := by
  simp only [answerProbe, hp, ha, he, Option.isSome_none, Bool.not_true, Bool.or_self, Bool.false_eq_true, if_false]

/-! ## The statements -/

/-- Settles O31: reads are answered, misses translated and lines filled. -/
theorem sliceReadsAndFillsComplete : Obligations.SliceReadsAndFillsComplete := by
  unfold Obligations.SliceReadsAndFillsComplete
  refine ⟨?answered, ?misses, ?lease, ?noAlloc, ?l1, ?entry, ?walk, ?swap, ?fill, ?evict, fun s k asid line x hx =>
    mem_victimLines hx⟩
  case answered =>
    intro s req r x hr hst k hg hx hp hv hsealed hown hwaits hw hi
    exact next_getD_of_eq_some ((serveRead_of_waiting hr hst hg hw).trans
      (serveHere_of_line hx hp hv hsealed hown hwaits hi))
  case misses =>
    intro s req r hr hst he k t hg hx hm hwaits hw
    have joined_slice : sliceAt t k = { sliceAt s k with waiting := (sliceAt s k).waiting ++ [req] } :=
      sliceAt_modSlice_same ..
    have started := serveHere_of_no_line (s := t) (k := k) (req := req) (r := { r with stage := .waiting })
      (by rw [joined_slice]; exact hx) (by rw [joined_slice]; exact hm)
    exact next_getD_of_eq_some ((serveRead_of_sent hr hst he hg hwaits hw).trans
      (congrArg (fun o : Option State => some (o.getD t)) started))
  case lease => exact fun s k asid line exp hm he => next_getD_of_eq_some (discardLease_of_expired hm he)
  case noAlloc =>
    exact fun s req r d stop lc vers poison g p l hr hst hrd hb =>
      next_getD_of_eq_some (fillReturn_of_noAlloc hr hst hrd hb)
  case l1 =>
    exact fun s req r d stop lc vers poison g p l first t hr hst hrd hb hf =>
      next_getD_of_eq_some (fillReturn_of_l1 hr hst hrd hb hf)
  case entry =>
    exact fun s k asid va wr m t hm hpa hf hu ht => next_getD_of_eq_some (tlbWalk_of_tlbHit hm hpa hf hu ht)
  case walk =>
    intro s k asid va wr m n e epa large line t hm hpa hf hu ht hw ha hb
    exact next_getD_of_eq_some ((tlbWalk_of_leaf hm hpa hf hu ht hw).trans (congrArg some (useLeaf_of_allowed ha hb)))
  case swap =>
    exact fun s k asid va u rest hu hk ha hl hr hv hleaf =>
      next_getD_of_eq_some (adSwap_of_unchanged hu hk ha hl hr hv hleaf)
  case fill =>
    exact fun s k asid line m pa a way hm hpa hh hn hp he hx hw =>
      next_getD_of_eq_some (memoryFill_of_freeWay hm hpa hh hn hp he hx hw)
  case evict =>
    intro s k asid line m pa a x hm hpa hh hn he hx hw hv
    exact congrArg (fun o : Option State => Host.Outcome.next (o.getD s))
      ((memoryFill_of_full hm hpa hh hn he hx hw).trans (evictVictim_of_choice hv))

/-- Settles O32: write-backs, the snapshot pool, releases, fence markers and residency probes. -/
theorem writebacksAndReleasesComplete : Obligations.WritebacksAndReleasesComplete := by
  unfold Obligations.WritebacksAndReleasesComplete
  refine ⟨?leaves, fun s k x => writeBack_clean, fun s k x e => writeTarget_of_tlbHit,
    fun s k x => writeTarget_of_no_entry, fun s k x t => writeBack_of_begun, fun s k x pa a t => writeBack_hbm,
    fun s part frames => rfl, ?sent, ?waiting, ?unapplied, ?marker, ?probe⟩
  case leaves =>
    exact fun s k asid line x t hx he hw =>
      next_getD_of_eq_some (writebackLine_of_evictLine hx he (evictLine_of_writeBack hw))
  case sent => exact fun s rel r hr ha hst hm => next_getD_of_eq_some (advanceRelease_sent hr ha hst hm)
  case waiting => exact fun s rel r hr ha hst hp => next_getD_of_eq_some (advanceRelease_waiting hr ha hst hp)
  case unapplied => exact fun s rel r hr ha => next_getD_of_eq_none (advanceRelease_unapplied hr ha)
  case marker => exact fun s rel die r hr hst hd hb => next_getD_of_eq_some (answerMarker_of_none_before hr hst hd hb)
  case probe => exact fun s id p hp ha he => next_getD_of_eq_some (answerProbe_of_entry hp ha he)

end Sys2Proof.Machine
end

section
/-! PROOF. Launches.lean: queue entries, records and interrupts of rings, dependences, and the start of a launch
(R345, R406 to R414). -/

namespace Sys2Proof.Machine

/-! ## Queue entries (R407 to R409) -/

section Queue
variable {s : State} {vf q : Nat}

theorem nopEntry_of_nop (h : nextCommand s vf q = some .nop) : nopEntry s vf q = some (takeEntry s vf q) := by
  simp only [nopEntry, h]

/-- A LAUNCH entry is accepted as it is read, where its function accepts launches and none waits. -/
theorem launchEntry_of_read {pa : Nat} (hp : (queueAt s vf q).pending = none)
    (h : nextCommand s vf q = some (.launch pa)) (hb : functionBlocked (takeEntry s vf q) vf = false)
    (hw : waitingEntries (takeEntry s vf q) vf = []) :
    launchEntry s vf q = some (acceptAt (takeEntry s vf q) vf q pa) := by
  simp [launchEntry, hp, h, hb, hw]

/-- A LAUNCH entry that has waited longest is accepted once its function accepts launches. -/
theorem launchEntry_of_pending {n pa : Nat} (hp : (queueAt s vf q).pending = some (n, pa))
    (hb : functionBlocked s vf = false) (hn : ∀ m ∈ waitingEntries s vf, n ≤ m) :
    launchEntry s vf q = some (acceptAt (modQueue s vf q fun c => { c with pending := none }) vf q pa) := by
  have longest : ((waitingEntries s vf).any fun m => decide (m < n)) = false := by
    simpa using hn
  simp only [launchEntry, hp, hb, longest, Bool.or_self, Bool.false_eq_true, if_false]

theorem endEntry_of_stop {tag : Nat} (h : nextCommand s vf q = some (.stop tag)) :
    endEntry s vf q = some ((taggedLaunches s vf tag).foldl (fun s lid => endAndSettle s lid stEnded 3 0)
      (takeEntry s vf q)) := by
  simp only [endEntry, h]

theorem switchEntry_of_switch {tag : Nat} (h : nextCommand s vf q = some (.switch tag)) :
    switchEntry s vf q = some ((coresOf (takeEntry s vf q) (taggedLaunches (takeEntry s vf q) vf tag)).foldl
      (fun s c => modCore s c fun c => { c with switchAsked := true }) (takeEntry s vf q)) := by
  simp only [switchEntry, h]

theorem malformedEntry_of_malformed (h : nextCommand s vf q = some .malformed) :
    malformedEntry s vf q = some (postRecord (takeEntry s vf q) vf 0 malformedRecord none) := by
  simp only [malformedEntry, h]

theorem execQtailWrite_of_partExists (val : BitVec 16) (h : partExists s (partOfVf vf) = true) :
    execQtailWrite vf q val s = .next (askRecheck (modQueue s vf q fun c =>
      { c with tail := val.toNat, head := if c.en then c.head else val.toNat }) (partOfVf vf)) := by
  simp only [execQtailWrite, h, Bool.not_true, Bool.false_eq_true, if_false]

end Queue

/-! ## Rings (R413, R414) -/

section Ring
variable {s : State} {vf ring : Nat}

/-- The oldest record that a ring has held is written. -/
theorem writeHeld_of_ringOpen {rec : BitVec 256} {held : List (BitVec 256)} {of : Option Nat}
    {heldOf : List (Option Nat)} (hh : (ringAt s vf ring).held = rec :: held)
    (ho : (ringAt s vf ring).heldOf = of :: heldOf)
    (hr : ringOpen (ringAt s vf ring) (recordsComing s vf ring) = true) :
    writeHeld s vf ring = some (writeRecord
      (modRing s vf ring fun r => { r with held := held, heldOf := heldOf }) vf ring rec of) := by
  simp only [writeHeld, hh, ho, hr, Bool.not_true, Bool.false_eq_true, if_false]

theorem execRheadWrite_of_partExists (val : BitVec 17) (h : partExists s (partOfVf vf) = true) :
    execRheadWrite vf ring val s = .next (modRing s vf ring fun r => { r with rhead := val.toNat }) := by
  rw [execRheadWrite, if_pos h]

/-- A ring whose count, or whose time, has reached its threshold interrupts the host. -/
theorem ringInterrupt_of_threshold
    (h : ((ringAt s vf ring).cnt ≠ 0 ∧ (ringAt s vf ring).cnt ≤ (ringAt s vf ring).pend) ∨
      ((ringAt s vf ring).ticks ≠ 0 ∧ (ringAt s vf ring).pend ≠ 0 ∧
        (ringAt s vf ring).first + (ringAt s vf ring).ticks ≤ gtOf s)) :
    ringInterrupt s vf ring = some (modRing (say s (.interrupt vf (ringAt s vf ring).vec)) vf ring fun r =>
      { r with pend := 0 }) := by
  unfold ringInterrupt
  rw [if_pos]
  simpa [and_assoc] using h

end Ring

/-! ## Dependences (R412) -/

theorem checkDependences_of_recheck {s : State} {part : Nat} (hr : (partAt s part).recheck = true)
    (hs : dependenceSealed s part = false) :
    let t := modPart s part fun p => { p with recheck := false }
    checkDependences s part = some { t with launches := t.launches.map fun e =>
      if (e.2.part = part && decide (e.2.st = .waiting)) = true then
        let ds := (List.range e.2.ndep).map (dependence s e.2)
        (e.1, { e.2 with depMet := ds.map (·.1), depFail := ds.any (·.2) })
      else e } := by
  simp only [checkDependences, hr, hs, Bool.not_true, Bool.or_self, Bool.false_eq_true, if_false]

/-! ## The start of a launch (R65, R345) -/

section Start
variable {s t : State} {lid : Nat} {l : Launch}

theorem all_depMet (hd : ∀ i, i < l.ndep → l.depMet.getD i false = true) :
    ((List.range l.ndep).all fun i => l.depMet.getD i false) = true := by
  rw [List.all_eq_true]
  exact fun i hi => hd i (List.mem_range.mp hi)

/-- A launch whose dependences are met is rejected for tables that are malformed. -/
theorem startLaunch_of_bad_tables {d a : Nat} (hl : mapFind s.launches lid = some l) (hst : l.st = .waiting)
    (hd : ∀ i, i < l.ndep → l.depMet.getD i false = true) (h : checkTables s l = .error (d, a)) :
    startLaunch s lid = some (endAndSettle s lid stRejected d a) := by
  simp only [startLaunch, hl, hst, all_depMet hd, h, Bool.not_true, Bool.false_eq_true, if_false]

/-- With tables that pass, it takes them and starts. -/
theorem startLaunch_of_good_tables {l' : Launch} (hl : mapFind s.launches lid = some l) (hst : l.st = .waiting)
    (hd : ∀ i, i < l.ndep → l.depMet.getD i false = true) (h : checkTables s l = .ok l') :
    startLaunch s lid = some { s with launches := mapPut s.launches lid { l' with st := .starting } } := by
  simp only [startLaunch, hl, hst, all_depMet hd, h, Bool.not_true, Bool.false_eq_true, if_false]

/-- One with a page that cannot be made resident is rejected. -/
theorem startLaunch_of_pin_fails {i : Nat} (hl : mapFind s.launches lid = some l) (hst : l.st = .starting)
    (hp : pinPages lid s (residentPages l) = .fails t i) :
    startLaunch s lid = some (endAndSettle t lid stRejected 8 i) := by
  simp only [startLaunch, hl, hst, hp]

/-- One whose SNAP set is armed takes its phasers and objects. -/
theorem startLaunch_of_armed (hl : mapFind s.launches lid = some l) (hst : l.st = .starting)
    (hp : pinPages lid s (residentPages l) = .ready t) (ha : l.armed = true) :
    startLaunch s lid = reserveLaunch t lid := by
  simp [startLaunch, hl, hst, hp, ha]

/-- One whose dirty SNAP lines have all been written back arms its SNAP set. -/
theorem startLaunch_of_no_dirty (hl : mapFind s.launches lid = some l) (hst : l.st = .starting)
    (hp : pinPages lid s (residentPages l) = .ready t) (ha : l.armed = false) (hd : snapDirty t l = [])
    (hs : l.snapOn = true) :
    startLaunch s lid = some (modLaunch t lid fun x => { x with armed := x.snapOn, regions := loadRegions t x }) := by
  simp [startLaunch, hl, hst, hp, ha, hd, hs]

end Start

/-! ## The statement -/

/-- Settles O39: queue entries, rings, dependences, and each step of a launch's start. -/
theorem launchesComplete : Obligations.LaunchesComplete := by
  unfold Obligations.LaunchesComplete
  refine ⟨fun s vf q h => next_getD_of_eq_some (nopEntry_of_nop h), ?launch, ?pending,
    fun s vf q tag h => next_getD_of_eq_some (endEntry_of_stop h),
    fun s vf q tag h => next_getD_of_eq_some (switchEntry_of_switch h),
    fun s vf q h => next_getD_of_eq_some (malformedEntry_of_malformed h),
    fun s vf q val h => execQtailWrite_of_partExists val h, ?held,
    fun s vf ring val h => execRheadWrite_of_partExists val h,
    fun s vf ring h => next_getD_of_eq_some (ringInterrupt_of_threshold h),
    fun s part hr hs => next_getD_of_eq_some (checkDependences_of_recheck hr hs), fun s l i => rfl, ?tables,
    ?pinned, fun s lid l t i hl hst hp => next_getD_of_eq_some (startLaunch_of_pin_fails hl hst hp)⟩
  case launch => exact fun s vf q pa hp h hb hw => next_getD_of_eq_some (launchEntry_of_read hp h hb hw)
  case pending => exact fun s vf q n pa hp hb hn => next_getD_of_eq_some (launchEntry_of_pending hp hb hn)
  case held =>
    exact fun s vf ring rec held of heldOf hh ho hr => next_getD_of_eq_some (writeHeld_of_ringOpen hh ho hr)
  case tables =>
    intro s lid l hl hst hd
    exact ⟨fun d a h => next_getD_of_eq_some (startLaunch_of_bad_tables hl hst hd h),
      fun l' h => next_getD_of_eq_some (startLaunch_of_good_tables hl hst hd h)⟩
  case pinned =>
    intro s lid l t hl hst hp
    exact ⟨fun u ha hu => next_getD_of_eq_some ((startLaunch_of_armed hl hst hp ha).trans hu),
      fun ha hd hs => next_getD_of_eq_some (startLaunch_of_no_dirty hl hst hp ha hd hs)⟩

end Sys2Proof.Machine
end

section
/-! PROOF. SystemClass.lean: the instructions of class 0x380: control registers, instruction lines, carve changes, time,
messages and halting (R85, R382 to R386). -/

namespace Sys2Proof.Machine

/-- An instruction that always takes an effect takes the one that its item's body gives. -/
theorem takes_done {ins : Instr} {it : Item} {e : Issue → Mask → State → Effect} {post : Issue → Mask → State → State}
    (hx : ∀ s, exec ins s = runItem it (fun i ex s => .done (e i ex s) (post i ex s)) s) :
    Takes ins it always e post :=
  takes_of hx fun _ _ _ _ _ => rfl

/-! ## Instruction lines (R289, R383) -/

/-- The item of ICINV: its sources are the registers of its range, where it has one. -/
def icinvItem (h : Hdr) (rng : Option (Opnd × Opnd)) : Item :=
  { sysItem h (rng.elim [] fun r => [r.1, r.2]) [] with txBad := true }

/-- The body of ICINV: it drops the lines of the group's ASID that its ranges reach. -/
def icinvBody (rng : Option (Opnd × Opnd)) (i : Issue) (ex : Mask) (s : State) : Body :=
  .done {} (dropInstr s (grpAt s i.gid).core (asidOf s i.gid) (linvRanges s i.gid (lanes i ex s) rng))

theorem exec_icinv (h : Hdr) (rng : Option (Opnd × Opnd)) (s : State) :
    exec (.icinv h rng) s = runItem (icinvItem h rng) (icinvBody rng) s := by
  cases rng <;> rfl

/-! ## Messages (R385) -/

/-- The item of MBOX. -/
def mboxItem (h : Hdr) (d a b : Opnd) : Item :=
  { sysItem h [a, b] [d] with privileged := true, txBad := true, specHold := true }

/-- The record that an MBOX posts. -/
def mboxRecord (s : State) (gid : Nat) (ex : Mask) (a b : Opnd) : MboxRec :=
  { kind := (scalarOf s gid ex a).toNat % 128, cause := 0, orig := 0, slot := (grpAt s gid).slot
    quarter := (grpAt s gid).quarter, core := (grpAt s gid).core % Config.coresPerCluster, asid := asidOf s gid
    w1 := scalarOf s gid ex a, w2 := scalarOf s gid ex b, w3 := 0 }

/-- The body of MBOX: its record fills the first free slot of 4 to 7, and it waits while there is none. -/
def mboxBody (d a b : Opnd) (i : Issue) (ex : Mask) (s : State) : Body :=
  match freeSlot (coreAt s (grpAt s i.gid).core) [4, 5, 6, 7] with
  | none => .wait
  | some n =>
    let t := modCore s (grpAt s i.gid).core fun c =>
      fillSlot c n (mboxRecord s i.gid ex a b) (.mbox i.gid (grpAt s i.gid).nextOp)
    .done { kind := .mbox n d }
      (if (scalarOf s i.gid ex a).toNat % 128 = 1 then markUnreplayable t (lidOf t i.gid) else t)

theorem exec_mbox (h : Hdr) (d a b : Opnd) (s : State) :
    exec (.mbox h d a b) s = runItem (mboxItem h d a b) (mboxBody d a b) s := rfl

theorem mboxBody_of_freeSlot {d a b : Opnd} {i : Issue} {ex : Mask} {s : State} {n : Nat}
    (hn : freeSlot (coreAt s (grpAt s i.gid).core) [4, 5, 6, 7] = some n) :
    let t := modCore s (grpAt s i.gid).core fun c =>
      fillSlot c n (mboxRecord s i.gid ex a b) (.mbox i.gid (grpAt s i.gid).nextOp)
    mboxBody d a b i ex s = .done { kind := .mbox n d }
      (if (scalarOf s i.gid ex a).toNat % 128 = 1 then markUnreplayable t (lidOf t i.gid) else t) := by
  simp only [mboxBody, hn]

/-! ## The statement -/

/-- Settles O28: each instruction of the class runs its item, whose body takes the effect stated. -/
theorem systemComplete : Obligations.SystemComplete := by
  unfold Obligations.SystemComplete
  refine ⟨?csrr, ?csrw, ?icinv, ?l2way, ?gettime, ?mbox, ?halt⟩
  case csrr => exact fun h csrn d => takes_done fun _ => rfl
  case csrw => exact fun h csrn op d a => takes_done fun _ => rfl
  case icinv =>
    intro drops
    constructor
    · intro h
      refine takes_of (exec_icinv h none) fun s i ex _ _ => ?_
      simp only [icinvBody, dropInstr, any_linvRanges_none]
      rfl
    · intro h a b
      refine takes_of (exec_icinv h (some (a, b))) fun s i ex _ _ => ?_
      simp only [icinvBody, dropInstr, linvRanges, List.any_map]
      rfl
  case l2way =>
    intro joins
    exact ⟨fun h d a => takes_done fun _ => rfl, fun h d => takes_done fun _ => rfl⟩
  case gettime => exact fun h d => takes_done fun _ => rfl
  case mbox =>
    intro h d a b s i ex n it g w1 hi hn
    exact (exec_mbox h d a b s).trans (runItem_done hi (mboxBody_of_freeSlot hn))
  case halt => exact fun h code => takes_done fun _ => rfl

end Sys2Proof.Machine
end

section
/-! PROOF. SliceOperations.lean: operations at the slices, from their arrival to what the crucible makes of the bytes
(R78, R82, R152, R154 to R157, R261). -/

namespace Sys2Proof.Machine

/-! ## Arrival (R78, R152) -/

/-- A publication that no die counts reaches its slice and waits there for its turn. -/
theorem arrivePub_of_write {s : State} {id : Nat} {p : Pub} (hp : mapFind s.pubs id = some p)
    (hst : p.stage = .travelling) (hsp : p.sp = false) (hb : behind s p = false)
    (hg : (sliceAt s (pubSlice s p)).gated = false) (hf : fenceOf s p = none) (he : hasEntry s p.core p.seq = true)
    (hw : ∃ d m, p.kind = .write d m) :
    arrivePub s id = some (modSlice { s with pubs := mapPut s.pubs id { p with stage := .queued } } (pubSlice s p)
      fun sl => { sl with waiting := sl.waiting ++ [id] }) := by
  obtain ⟨d, m, hk⟩ := hw
  simp [arrivePub, hp, hst, hsp, hb, hg, hf, he, hk, bumpFence, SliceKind.reads]

/-! ## Application (R78, R82) -/

theorem carryPoison_zero (s : State) (k asid line : Nat) : carryPoison s k asid line 0 = s := if_pos rfl

theorem crucibleFree_of_idle {s : State} {k : Nat} (hg : (sliceAt s k).gated = false)
    (hb : (sliceAt s k).busy ≤ s.cycle) : crucibleFree s k = true := by
  simp [crucibleFree, hg, hb]

/-- An operation whose lines are ready, and that meets no poison, is applied when its turn comes. -/
theorem applyPub_of_ready {s : State} {k id : Nat} {p : Pub} (hp : mapFind s.pubs id = some p)
    (hst : p.stage = .queued) (hsp : p.sp = false) (hk : pubSlice s p = k) (hfree : crucibleFree s k = true)
    (hturn : itsTurn s k id p = true) (hready : readyLines s k (ownLock s id) (touchesOf p) = .yes)
    (hpoison : p.poison = 0) (hreads : readsPoison s k p = false) (hs : isShadow s p.lid = false) :
    let r := crucible (useCrucible s k (occupancy p.kind)) k p
    applyPub s k id = some (leavePub r.1 k id p r.2) := by
  have shadow : isShadow (useCrucible s k (occupancy p.kind)) p.lid = false := hs
  simp only [applyPub, hp, hst, hsp, hk, hfree, hturn, hready, hpoison, hreads, shadow, carryPoison_zero, decide_true,
    ne_eq, not_true_eq_false, decide_false, Bool.not_true, Bool.or_self, Bool.false_eq_true, if_false, ite_self]

/-- A step about operations of some kinds applies one of them. -/
theorem applyKind_of_applyPub {s t : State} {k id : Nat} {p : Pub} {ok : SliceKind → Bool}
    (hp : mapFind s.pubs id = some p) (hok : ok p.kind = true) (ht : applyPub s k id = some t) :
    applyKind s k id ok = .next t := by
  simp only [applyKind, hp, hok, ht, if_true, Option.getD_some]

/-! ## The crucible (R154 to R157) -/

section Crucible
variable {s : State} {k : Nat} {p : Pub} {ty : Ty} {lane : Nat}

theorem casApply_eq (ty : Ty) (w : Nat) (e n : Word) : casApply ty w e n =
    if w = e.toNat % 2 ^ (8 * bytesOf ty) then some (n.toNat % 2 ^ (8 * bytesOf ty)) else none := rfl

/-- CAS returns the old value, and writes the new one where the old one is as expected. -/
theorem crucible_cas {e n : Word} (hk : p.kind = .cas ty e n lane) :
    let w := sliceRead s k p.asid p.va (bytesOf ty)
    let t := sliceWrite s k p.lid p.asid p.va (bytesOf ty) (n.toNat % 2 ^ (8 * bytesOf ty)) (gtOf s)
    crucible s k p =
      if w = e.toNat % 2 ^ (8 * bytesOf ty) then
        (match p.sender.group with | some g => clearBackoff t g lane | none => t, some (lane, oldValue ty w, 0))
      else (s, some (lane, oldValue ty w, 0)) := by
  simp only [crucible, hk, casApply_eq]
  by_cases h : sliceRead s k p.asid p.va (bytesOf ty) = e.toNat % 2 ^ (8 * bytesOf ty)
  · cases p.sender.group <;> simp only [h, if_true]
  · simp only [h, if_false]

theorem crucible_red {op : COp} {v : Word} (hk : p.kind = .red op ty v lane) :
    let w := sliceRead s k p.asid p.va (bytesOf ty)
    crucible s k p = (sliceWrite s k p.lid p.asid p.va (bytesOf ty) (redApply op ty w v.toNat) (gtOf s),
      some (lane, oldValue ty w, 0)) := by
  simp only [crucible, hk]

theorem crucible_xred {cell src : Ty} {vs : List Word} (hk : p.kind = .xred cell src vs) :
    crucible s k p = (sliceWrite s k p.lid p.asid p.va (cellBytes cell)
      (vs.foldl (cellAdd cell src) (sliceRead s k p.asid p.va (cellBytes cell))) (gtOf s), none) := by
  simp only [crucible, hk]

theorem crucible_xfin {m : Rnd} (hk : p.kind = .xfin ty m lane) :
    let r := cellRound ty m (sliceRead s k p.asid p.va (cellBytes ty))
    crucible s k p = (s, some (lane, BitVec.ofNat 64 r.1, r.2)) := by
  simp only [crucible, hk]

end Crucible

/-! ## The statement -/

/-- Settles O33: an operation waits for its turn, is applied once its lines are ready, and the crucible acts on the
bytes as its kind says. -/
theorem sliceOperationsComplete : Obligations.SliceOperationsComplete := by
  unfold Obligations.SliceOperationsComplete
  refine ⟨?events, fun s k p ty e n l => crucible_cas, fun s k p op ty v l => crucible_red, fun ty w v => rfl,
    fun s k p cell src vs => crucible_xred, fun s k p ty m l => crucible_xfin⟩
  intro applies
  have of_kind {ev ok test} (event : Nat → Nat → State → Out) (hx : ∀ k id s, exec (ev k id) s = event k id s)
      (hevent : ∀ k id s, event k id s = applyKind s k id test) (htest : ∀ kind, ok kind → test kind = true) :
      applies ev ok := by
    intro s k id p hp hok hst hsp hk hg hb hturn hready hpoison hreads hs
    rw [hx, hevent]
    exact applyKind_of_applyPub hp (htest _ hok)
      (applyPub_of_ready hp hst hsp hk (crucibleFree_of_idle hg hb) hturn hready hpoison hreads hs)
  clear_value applies
  refine ⟨?arrive, of_kind execWriteApply (fun _ _ _ => rfl) (fun _ _ _ => rfl) ?write,
    of_kind execCrucibleCas (fun _ _ _ => rfl) (fun _ _ _ => rfl) ?cas,
    of_kind execCrucibleRed (fun _ _ _ => rfl) (fun _ _ _ => rfl) ?red,
    of_kind execCrucibleXred (fun _ _ _ => rfl) (fun _ _ _ => rfl) ?xred,
    of_kind execCrucibleXfin (fun _ _ _ => rfl) (fun _ _ _ => rfl) ?xfin,
    of_kind execTileAddOnStore (fun _ _ _ => rfl) (fun _ _ _ => rfl) ?tileAdd⟩
  case arrive =>
    exact fun s id p hp hst hsp hb hg hf he hw => next_getD_of_eq_some (arrivePub_of_write hp hst hsp hb hg hf he hw)
  case write => rintro _ ⟨d, m, rfl⟩; rfl
  case cas => rintro _ ⟨ty, e, n, l, rfl⟩; rfl
  case red => rintro _ ⟨op, ty, v, l, rfl⟩; rfl
  case xred => rintro _ ⟨c, t, vs, rfl⟩; rfl
  case xfin => rintro _ ⟨ty, m, l, rfl⟩; rfl
  case tileAdd => rintro _ ⟨x, vs, rfl⟩; rfl

end Sys2Proof.Machine
end

section
/-! PROOF. HostLink.lean: snoops of the host, its accesses to exposed frames, and its answers (R78, R87, R89, R91,
R92). -/

namespace Sys2Proof.Machine

/-! ## What leaves the host's side of the link alone -/

/-- The messages to the host, and what its accesses have found before them, are as they were. -/
def LinkKept (s t : State) : Prop := t.toHost = s.toHost ∧ t.hostBefore = s.hostBefore

theorem LinkKept.trans {s t u : State} (h : LinkKept s t) (k : LinkKept t u) : LinkKept s u := by
  obtain ⟨sent, before⟩ := h
  obtain ⟨sent', before'⟩ := k
  exact ⟨sent'.trans sent, before'.trans before⟩

theorem linkKept_foldl {α : Type} {f : State → α → State} (h : ∀ s a, LinkKept s (f s a)) (xs : List α) :
    ∀ s, LinkKept s (xs.foldl f s) := by
  induction xs with
  | nil => exact fun s => ⟨rfl, rfl⟩
  | cons x xs ih => exact fun s => (h s x).trans (ih _)

theorem linkKept_setHolders (s : State) (hs : List (Nat × L2Line × Nat)) (f : Nat → L2Line → L2Line) :
    LinkKept s (setHolders s hs f) :=
  linkKept_foldl (by intros; exact ⟨rfl, rfl⟩) hs s

theorem linkKept_enterDir (s : State) (a hpa : Nat) (owned : Bool) : LinkKept s (enterDir s a hpa owned) := ⟨rfl, rfl⟩

theorem linkKept_countHost (s : State) (a : Nat) : LinkKept s (countHost s a) := ⟨rfl, rfl⟩

theorem linkKept_correctLine (s : State) (a : Nat) : LinkKept s (correctLine s a) := ⟨rfl, rfl⟩

/-- The copies of an exposed line are dropped, and the half enters the directory (R91). -/
def takeCopies (s : State) (a hpa : Nat) : State :=
  enterDir (countHost ((copiesOf s a).foldl (fun s e => dropLine s e.1 e.2.asid e.2.line) s) a) a hpa true

theorem linkKept_takeCopies (s : State) (a hpa : Nat) : LinkKept s (takeCopies s a hpa) :=
  ((linkKept_foldl (by intros; exact ⟨rfl, rfl⟩) _ s).trans (linkKept_countHost _ a)).trans
    (linkKept_enterDir _ a hpa true)

/-! ## An access that arrives alone -/

theorem foundBefore_of_nil {s : State} (o : HostOp) (h : s.hostBefore = []) : foundBefore s o = [] := by
  simp [foundBefore, h]

theorem earlierWaits_of_not_found {s : State} {o : HostOp} (h : foundBefore s o = []) (k : Nat) (x : L2Line) :
    earlierWaits s o k x = false := by
  simp [earlierWaits, h]

/-- An access that is no write and no invalidation finds nothing before it. -/
theorem hostEarlier_of_no_write {s : State} {o : HostOp} (h : ∀ k x, o.writesLine s k x = false) :
    hostEarlier s o = [] := by
  simp [hostEarlier, h]

section Alone
variable {s t : State} {o : HostOp}

theorem hostStep_of_tryHost_none (hops : s.hostOps = [o]) (ht : tryHost s o = none) : hostStep s = none := by
  simp [hostStep, hops, hostStepFrom, ht]

/-- The access that waits ends: it has told the host its outcome, and waits no more. -/
theorem hostStep_of_ended (hops : s.hostOps = [o]) (hbefore : t.hostBefore = []) (ht : tryHost s o = some t)
    (hend : endsHost s t = true) : hostStep s = some { t with hostOps := [], hostBefore := [] } := by
  simp [hostStep, hops, hostStepFrom, ht, hend, hbefore]

theorem arriveHost_alone (hops : s.hostOps = []) (hearlier : hostEarlier s o = []) :
    arriveHost s [o] = (hostStep { s with hostOps := [o] }).getD { s with hostOps := [o] } := by
  simp [arriveHost, hops, hearlier]

theorem arriveHost_of_ended (hops : s.hostOps = []) (hbefore : s.hostBefore = []) (hearlier : hostEarlier s o = [])
    (ht : tryHost { s with hostOps := [o] } o = some t) (hkept : t.hostBefore = s.hostBefore)
    (hend : endsHost { s with hostOps := [o] } t = true) :
    arriveHost s [o] = { t with hostOps := [], hostBefore := [] } := by
  rw [arriveHost_alone hops hearlier, hostStep_of_ended rfl (hkept.trans hbefore) ht hend, Option.getD_some]

theorem arriveHost_of_waits (hops : s.hostOps = []) (hearlier : hostEarlier s o = [])
    (ht : tryHost { s with hostOps := [o] } o = none) : arriveHost s [o] = { s with hostOps := [o] } := by
  rw [arriveHost_alone hops hearlier, hostStep_of_tryHost_none rfl ht, Option.getD_none]

/-- An access that finds operations before it, and waits for them. -/
theorem arriveHost_of_found (hops : s.hostOps = []) (hbefore : s.hostBefore = []) (hearlier : hostEarlier s o ≠ [])
    (ht : tryHost { s with hostOps := [o], hostBefore := [(o, hostEarlier s o)] } o = none) :
    arriveHost s [o] = { s with hostOps := [o], hostBefore := [(o, hostEarlier s o)] } := by
  have arrives : arriveHost s [o] =
      (hostStep { s with hostOps := [o], hostBefore := [(o, hostEarlier s o)] }).getD
        { s with hostOps := [o], hostBefore := [(o, hostEarlier s o)] } := by
    simp [arriveHost, hops, hbefore, hearlier]
  rw [arrives, hostStep_of_tryHost_none rfl ht, Option.getD_none]

end Alone

/-! ## Snoops (R89) -/

section Ends
variable {s t : State}

theorem endsHost_of_snoop {hpa : Nat} {r : String} {d : Option (BitVec 512)} {p : Bool}
    (h : t.toHost = s.toHost ++ [.snoop hpa r d p]) : endsHost s t = true := by simp [endsHost, h]

theorem endsHost_of_readData {hpa : Nat} {bs : List Byte} {p : Bool}
    (h : t.toHost = s.toHost ++ [.readData hpa bs p]) : endsHost s t = true := by simp [endsHost, h]

theorem endsHost_of_written {hpa : Nat} (h : t.toHost = s.toHost ++ [.written hpa]) : endsHost s t = true := by
  simp [endsHost, h]

end Ends

section Snoop
variable {s : State} {hpa : Nat}

/-- A snoop's answer is one message. -/
theorem answerSnoop_says (s : State) (hpa : Nat) (hs : List (Nat × L2Line × Nat)) (plain forwarded : String)
    (keep : Bool) : (answerSnoop s hpa hs plain forwarded keep).hostBefore = s.hostBefore ∧
      ∃ r d p, (answerSnoop s hpa hs plain forwarded keep).toHost = s.toHost ++ [.snoop hpa r d p] := by
  unfold answerSnoop
  split
  · split <;> exact ⟨rfl, _, _, _, rfl⟩
  · exact ⟨rfl, _, _, _, rfl⟩

/-- A snoop that has been answered is over, whatever its holders become. -/
theorem arriveHost_of_answered {o : HostOp} {hs : List (Nat × L2Line × Nat)} {plain forwarded : String} {keep : Bool}
    {t : State} (hops : s.hostOps = []) (hbefore : s.hostBefore = []) (hearlier : hostEarlier s o = [])
    (ht : tryHost { s with hostOps := [o] } o = some t)
    (hkept : LinkKept (answerSnoop { s with hostOps := [o] } hpa hs plain forwarded keep) t) :
    arriveHost s [o] = { t with hostOps := [], hostBefore := [] } := by
  obtain ⟨sent, before⟩ := hkept
  obtain ⟨same, r, d, p, told⟩ := answerSnoop_says { s with hostOps := [o] } hpa hs plain forwarded keep
  exact arriveHost_of_ended hops hbefore hearlier ht (before.trans same) (endsHost_of_snoop (sent.trans told))

/-- SnpInv takes a half that no lease, floor, hold, lock or earlier operation keeps. -/
theorem trySnpInv_of_free (hfound : foundBefore s (.snpInv hpa) = [])
    (h : ∀ e ∈ holdersOf s (hpa / 64), e.2.1.expiry ≤ gtOf s ∧ (sliceAt s e.1).floor0 ≤ gtOf s ∧
      e.2.1.hold ≤ s.cycle ∧ halfLocked s e.1 e.2.1 e.2.2 true = false) :
    trySnpInv s hpa = some (setHolders (answerSnoop s hpa (holdersOf s (hpa / 64)) "RspIHitSE" "RspIFwdM" false)
      (holdersOf s (hpa / 64)) loseHalf) := by
  unfold trySnpInv
  simp only
  rw [if_neg]
  rw [Bool.not_eq_true, List.any_eq_false]
  rintro ⟨k, x, i⟩ hx
  obtain ⟨lease, floor, hold, lock⟩ := h _ hx
  simp [earlierWaits_of_not_found hfound, Nat.not_lt.mpr lease, Nat.not_lt.mpr floor, Nat.not_lt.mpr hold, lock]

/-- One holder that must not lose its half yet keeps SnpInv waiting. -/
theorem trySnpInv_of_kept {e : Nat × L2Line × Nat} (he : e ∈ holdersOf s (hpa / 64))
    (h : gtOf s < e.2.1.expiry ∨ e.2.1.ask e.2.2 = none ∧ earlierWaits s (.snpInv hpa) e.1 e.2.1 = true) :
    trySnpInv s hpa = none := by
  unfold trySnpInv
  simp only
  rw [if_pos]
  refine List.any_eq_true.mpr ⟨e, he, ?_⟩
  rcases h with lease | ⟨ask, earlier⟩
  · simp [lease]
  · simp [ask, earlier]

/-- SnpData and SnpCur wait only for holds, and for write locks of a half in M. -/
def SnoopFree (s : State) (hpa : Nat) : Prop :=
  ∀ e ∈ holdersOf s (hpa / 64), e.2.1.hold ≤ s.cycle ∧
    (e.2.1.mesi e.2.2 = .m → halfLocked s e.1 e.2.1 e.2.2 false = false)

theorem any_holders_eq_false (h : SnoopFree s hpa) : ((holdersOf s (hpa / 64)).any fun e =>
    decide (s.cycle < e.2.1.hold) || (e.2.1.mesi e.2.2 = .m && halfLocked s e.1 e.2.1 e.2.2 false)) = false := by
  rw [List.any_eq_false]
  intro e he
  obtain ⟨hold, lock⟩ := h e he
  simpa [Nat.not_lt.mpr hold] using lock

theorem trySnpData_of_free (h : SnoopFree s hpa) : trySnpData s hpa =
    some (setHolders (answerSnoop s hpa (holdersOf s (hpa / 64)) "RspSHitSE" "RspSFwdM" false)
      (holdersOf s (hpa / 64)) shareHalf) :=
  if_neg (Bool.not_eq_true _ ▸ any_holders_eq_false h)

theorem trySnpCur_of_free (h : SnoopFree s hpa) : trySnpCur s hpa =
    some (answerSnoop s hpa (holdersOf s (hpa / 64)) "RspVHitV" "RspVFwdV" true) :=
  if_neg (Bool.not_eq_true _ ▸ any_holders_eq_false h)

end Snoop

/-! ## Accesses to exposed frames (R91) -/

section Exposed
variable {s : State} {hpa part a : Nat}

/-- Nothing is cleaned where no copy is dirty, and no commit that has its stamp holds the half. -/
theorem cleanCopies_eq_none (h : ∀ e ∈ copiesOf s a, e.2.dirty = 0 ∧
      readSealed s e.1 e.2.asid e.2.line (BitVec.ofNat 4 (3 * 4 ^ (a / 64 % 2))) = false) :
    cleanCopies s a = none := by
  have no_seal : ((copiesOf s a).any fun e =>
      readSealed s e.1 e.2.asid e.2.line (BitVec.ofNat 4 (3 * 4 ^ (a / 64 % 2)))) = false :=
    List.any_eq_false.mpr fun e he => by simp [(h e he).2]
  have no_dirty : ((copiesOf s a).filter fun e => e.2.dirty ≠ 0) = [] :=
    List.filter_eq_nil_iff.mpr fun e he => by simp [(h e he).1]
  simp only [cleanCopies, no_seal, no_dirty, List.isEmpty_nil, Bool.false_eq_true, if_false, if_true]

theorem dirFull_eq_none (h : s.biDir.length < Config.biDirectory ∨ ∃ e ∈ s.biDir, e.1 = a / 64) :
    dirFull s a = none := by
  rw [dirFull, if_pos]
  simpa using h

/-- The half enters the directory, and the bytes that a read asks for are given. -/
def giveBytes (s : State) (hpa a n : Nat) : State :=
  let t := enterDir (countHost (correctLine s a) a) a hpa false
  say t (.readData hpa (memReadBytes t.hbm a n) (bytePoison t a || bytePoison t (a + n - 1)))

theorem giveBytes_says (s : State) (hpa a n : Nat) : (giveBytes s hpa a n).hostBefore = s.hostBefore ∧
    ∃ bs p, (giveBytes s hpa a n).toHost = s.toHost ++ [.readData hpa bs p] := by
  obtain ⟨sent, before⟩ := ((linkKept_correctLine s a).trans (linkKept_countHost _ a)).trans
    (linkKept_enterDir _ a hpa false)
  exact ⟨before, _, _, congrArg (· ++ [HostMsg.readData hpa _ _]) sent⟩

theorem tryRead_of_clean (n : Nat) (hx : exposed s hpa = some (part, a)) (hc : cleanCopies s a = none)
    (hd : dirFull s a = none) : tryRead s hpa n = some (giveBytes s hpa a n) := by
  simp only [tryRead, hx, hc, hd, giveBytes]

/-- A line that may be invalidated holds no lock. -/
theorem readSealed_of_mayInvalidate {k : Nat} {x : L2Line} (secs : BitVec 4) (h : mayInvalidate s k x = true) :
    readSealed s k x.asid x.line secs = false := by
  simp only [mayInvalidate, Bool.and_eq_true, Bool.not_eq_true', List.any_eq_false] at h
  obtain ⟨-, unlocked⟩ := h
  refine List.any_eq_false.mpr fun l hl => ?_
  simp only [Bool.and_eq_true]
  exact fun ⟨⟨here, _⟩, _⟩ => unlocked l hl here

/-- A write, or a request for ownership, takes copies that are clean and may be invalidated. -/
theorem tryOwn_of_free {o : HostOp} {done : Nat → Nat → State → State} (hx : exposed s hpa = some (part, a))
    (hfound : foundBefore s o = []) (hc : ∀ e ∈ copiesOf s a, e.2.dirty = 0 ∧ mayInvalidate s e.1 e.2 = true)
    (hd : s.biDir.length < Config.biDirectory ∨ ∃ e ∈ s.biDir, e.1 = a / 64) :
    tryOwn s hpa o done = some (done part a (takeCopies s a hpa)) := by
  have clean : cleanCopies s a = none :=
    cleanCopies_eq_none fun e he => ⟨(hc e he).1, readSealed_of_mayInvalidate _ (hc e he).2⟩
  have free : ((copiesOf s a).any fun e => !mayInvalidate s e.1 e.2 || earlierWaits s o e.1 e.2) = false :=
    List.any_eq_false.mpr fun e he => by simp [(hc e he).2, earlierWaits_of_not_found hfound]
  simp only [tryOwn, hx, clean, dirFull_eq_none hd, free, Bool.false_eq_true, if_false]
  rfl

/-- The half that a request for ownership is answered with. -/
def giveHalf (hpa a : Nat) (s : State) : State :=
  let t := correctLine s a
  let b := a / 64 * 64
  say t (.readData (hpa / 64 * 64) (memReadBytes t.hbm b 64) (bytePoison t b || bytePoison t (b + 32)))

theorem giveHalf_says (s : State) : (giveHalf hpa a s).hostBefore = s.hostBefore ∧
    ∃ bs p, (giveHalf hpa a s).toHost = s.toHost ++ [.readData (hpa / 64 * 64) bs p] := ⟨rfl, _, _, rfl⟩

theorem tryOwnership_of_free (hx : exposed s hpa = some (part, a)) (hfound : foundBefore s (.own hpa) = [])
    (hc : ∀ e ∈ copiesOf s a, e.2.dirty = 0 ∧ mayInvalidate s e.1 e.2 = true)
    (hd : s.biDir.length < Config.biDirectory ∨ ∃ e ∈ s.biDir, e.1 = a / 64) :
    tryOwnership s hpa = some (giveHalf hpa a (takeCopies s a hpa)) :=
  tryOwn_of_free hx hfound hc hd

/-- A write's bytes go to HBM, and the host is told. -/
theorem putHostBytes_says (bytes : List Byte) (s : State) :
    (putHostBytes hpa bytes part a s).hostBefore = s.hostBefore ∧
      (putHostBytes hpa bytes part a s).toHost = s.toHost ++ [.written hpa] := by
  obtain ⟨sent, before⟩ := linkKept_foldl (f := fun s (e : Byte × Nat) => homeWrite s part e.1 (.hbm (a + e.2)))
    (fun _ _ => ⟨rfl, rfl⟩) bytes.zipIdx (forgetEntries s a bytes.length)
  exact ⟨before, congrArg (· ++ [HostMsg.written hpa]) sent⟩

end Exposed

/-! ## An access of the host by halves -/

theorem splitRead_cons {hpa n : Nat} (fuel : Nat) (h : 0 < n) : splitRead (fuel + 1) hpa n =
    .read hpa (min n (64 - hpa % 64)) :: splitRead fuel (hpa + min n (64 - hpa % 64)) (n - min n (64 - hpa % 64)) := by
  rw [splitRead, if_neg (Nat.ne_of_gt h)]

theorem splitRead_zero (fuel hpa : Nat) : splitRead fuel hpa 0 = [] := by cases fuel <;> rfl

theorem splitRead_of_half {hpa n : Nat} (h : 0 < n) (hn : n ≤ 64 - hpa % 64) :
    splitRead (n + 1) hpa n = [.read hpa n] := by
  rw [splitRead_cons n h, Nat.min_eq_left hn, Nat.sub_self, splitRead_zero]

theorem splitWrite_cons {hpa : Nat} {bs : List Byte} (fuel : Nat) (h : bs ≠ []) : splitWrite (fuel + 1) hpa bs =
    .write hpa (bs.take (min bs.length (64 - hpa % 64))) :: splitWrite fuel (hpa + min bs.length (64 - hpa % 64))
      (bs.drop (min bs.length (64 - hpa % 64))) := by
  rw [splitWrite, if_neg (by simpa using h)]

theorem splitWrite_nil (fuel hpa : Nat) : splitWrite fuel hpa [] = [] := by cases fuel <;> rfl

theorem splitWrite_of_half {hpa : Nat} {bs : List Byte} (h : 0 < bs.length) (hn : bs.length ≤ 64 - hpa % 64) :
    splitWrite (bs.length + 1) hpa bs = [.write hpa bs] := by
  rw [splitWrite_cons bs.length (List.ne_nil_of_length_pos h), Nat.min_eq_left hn, List.take_length, List.drop_length,
    splitWrite_nil]

section Halves
variable {s : State} {hpa n : Nat} {bytes : List Byte}

theorem execHostMemRead_of_half (h : 0 < n) (hn : n ≤ 64 - hpa % 64) (hx : exposed s (64 * (hpa / 64)) ≠ none) :
    execHostMemRead hpa n s = .next (arriveHost s [.read hpa n]) := by
  simp [execHostMemRead, splitRead_of_half h hn, HostOp.half, hx]

theorem execHostMemWrite_of_half (h : 0 < bytes.length) (hn : bytes.length ≤ 64 - hpa % 64)
    (hx : exposed s (64 * (hpa / 64)) ≠ none) :
    execHostMemWrite hpa bytes s = .next (arriveHost s [.write hpa bytes]) := by
  simp [execHostMemWrite, splitWrite_of_half h hn, HostOp.half, hx]

theorem execHostMemRead_of_unexposed (h : 0 < n) (hx : exposed s (64 * (hpa / 64)) = none) :
    execHostMemRead hpa n s = .fault (.unmappedHostAccess hpa) := by
  simp [execHostMemRead, splitRead_cons n h, HostOp.half, hx]

theorem execHostMemWrite_of_unexposed (h : bytes ≠ []) (hx : exposed s (64 * (hpa / 64)) = none) :
    execHostMemWrite hpa bytes s = .fault (.unmappedHostAccess hpa) := by
  simp [execHostMemWrite, splitWrite_cons bytes.length h, HostOp.half, hx]

end Halves

/-! ## The host's answers (R87, R91, R92) -/

theorem execBiResponse_of_asked {s : State} {pa : Nat} {w : Nat × Bool}
    (h : s.biWait.find? (fun w => w.1 = pa / 64) = some w) :
    execBiResponse pa s = .next { s with
      biWait := s.biWait.filter (· ≠ w)
      biDir := if w.2 then s.biDir.filter fun e => e.2.1 ≠ w.1
        else s.biDir.map fun e => if e.2.1 = w.1 then (e.1, e.2.1, false) else e } := by
  simp only [execBiResponse, h]

/-! ## The statement -/

/-- Settles O34: a snoop or an access that arrives alone is answered and leaves nothing waiting, or waits for what keeps
its half; an access outside every exposed range stops; and the host's answers take their effect. -/
theorem hostLinkCompletes : Obligations.HostLinkCompletes := by
  unfold Obligations.HostLinkCompletes
  intro quiet done sealed
  refine ⟨?inv, ?shared, ?leased, ?found, ?read, ?write, ?own,
    fun s hpa n => execHostMemRead_of_unexposed, fun s hpa bytes => execHostMemWrite_of_unexposed,
    fun s pa w => execBiResponse_of_asked, ?answer⟩
  case inv =>
    rintro s hpa ⟨hops, hbefore, hearlier⟩ hfree
    exact congrArg Host.Outcome.next (arriveHost_of_answered hops hbefore hearlier
      (trySnpInv_of_free (foundBefore_of_nil _ hbefore) hfree) (linkKept_setHolders ..))
  case shared =>
    rintro s hpa ⟨hops, hbefore, hearlier⟩ hfree
    exact ⟨congrArg Host.Outcome.next (arriveHost_of_answered hops hbefore hearlier (trySnpData_of_free hfree)
        (linkKept_setHolders ..)),
      congrArg Host.Outcome.next (arriveHost_of_answered hops hbefore (hostEarlier_of_no_write fun _ _ => rfl)
        (trySnpCur_of_free hfree) ⟨rfl, rfl⟩)⟩
  case leased =>
    rintro s hpa e ⟨hops, -, hearlier⟩ he hlease
    exact congrArg Host.Outcome.next (arriveHost_of_waits hops hearlier (trySnpInv_of_kept he (.inl hlease)))
  case found =>
    rintro s hpa e hops hbefore he hask ⟨id, hwaits, hid⟩
    refine congrArg Host.Outcome.next (arriveHost_of_found hops hbefore (List.ne_nil_of_mem hid)
      (trySnpInv_of_kept he (.inr ⟨hask, ?_⟩)))
    exact List.any_eq_true.mpr ⟨id, hwaits, by simpa [foundBefore] using hid⟩
  case read =>
    rintro s hpa n part a ⟨hops, hbefore, hearlier⟩ hpos hn hhalf hx hcopies hdir
    refine (execHostMemRead_of_half hpos hn hhalf).trans (congrArg Host.Outcome.next ?_)
    obtain ⟨before, bs, p, told⟩ := giveBytes_says { s with hostOps := [.read hpa n] } hpa a n
    exact arriveHost_of_ended hops hbefore hearlier
      (tryRead_of_clean n hx (cleanCopies_eq_none hcopies) (dirFull_eq_none hdir)) before (endsHost_of_readData told)
  case write =>
    rintro s hpa bytes part a ⟨hops, hbefore, hearlier⟩ hpos hn hhalf hx hcopies hdir
    refine (execHostMemWrite_of_half hpos hn hhalf).trans (congrArg Host.Outcome.next ?_)
    obtain ⟨sent, before⟩ := linkKept_takeCopies { s with hostOps := [.write hpa bytes] } a hpa
    obtain ⟨before', told⟩ := putHostBytes_says (hpa := hpa) (part := part) (a := a) bytes
      (takeCopies { s with hostOps := [.write hpa bytes] } a hpa)
    exact arriveHost_of_ended hops hbefore hearlier
      (tryOwn_of_free hx (foundBefore_of_nil _ hbefore) hcopies hdir) (before'.trans before)
      (endsHost_of_written (told.trans (congrArg (· ++ [HostMsg.written hpa]) sent)))
  case own =>
    rintro s hpa part a ⟨hops, hbefore, hearlier⟩ hx hcopies hdir
    obtain ⟨sent, before⟩ := linkKept_takeCopies { s with hostOps := [.own hpa] } a hpa
    obtain ⟨before', bs, p, told⟩ := giveHalf_says (hpa := hpa) (a := a)
      (takeCopies { s with hostOps := [.own hpa] } a hpa)
    exact arriveHost_of_ended hops hbefore hearlier
      (tryOwnership_of_free hx (foundBefore_of_nil _ hbefore) hcopies hdir) (before'.trans before)
      (endsHost_of_readData (told.trans (congrArg (· ++ [HostMsg.readData _ bs p]) sent)))
  case answer =>
    intro s k hpa d own x i h
    exact next_getD_of_eq_some (congrArg (Option.map _) h)

end Sys2Proof.Machine
end

section
/-! PROOF. Partitions.lean: carve changes, request counters, the life of a partition, and the registers without a row of
their own (R73, R84, R85, R387, R389, R405, R406, R413, R423). -/

namespace Sys2Proof.Machine

/-! ## Carve changes (R84, R85) -/

section Carve
variable {s : State} {part w : Nat} {who : Option (Nat × Nat)} {rest : List (Nat × Option (Nat × Nat))}

/-- A write of the carve register joins the changes, unless it is 15 or finds one in progress. -/
theorem execCarvewWrite_eq (s : State) (part : Nat) (val : Word) : execCarvewWrite part val s = .next
    (if val.toNat % 16 = 15 ∨ ∃ e ∈ (partAt s part).carveQueue, e.1 ≤ 14 then s
      else modPart s part fun p => { p with carveQueue := p.carveQueue ++ [(val.toNat % 16, none)] }) := by
  simp only [execCarvewWrite, Bool.or_eq_true, decide_eq_true_eq, List.any_eq_true]
  split <;> rfl

/-- A change that takes no way ends at once. -/
theorem carveStep_of_no_way (hq : (partAt s part).carveQueue = (w, who) :: rest)
    (hw : w ≤ (partAt s part).ways ∨ 14 < w) : carveStep s part = some (finishCarve s part w who) := by
  simp [carveStep, hq, hw]

theorem carveStep_begins (hq : (partAt s part).carveQueue = (w, who) :: rest) (hw : (partAt s part).ways < w)
    (h14 : w ≤ 14) (hbusy : (partAt s part).carveBusy = false) :
    carveStep s part = some (modPart s part fun p => { p with carveBusy := true }) := by
  simp [carveStep, hq, Nat.not_le.mpr hw, Nat.not_lt.mpr h14, hbusy]

/-- A change that has begun ends once its ways are empty. -/
theorem carveStep_of_empty_ways (hq : (partAt s part).carveQueue = (w, who) :: rest) (hw : (partAt s part).ways < w)
    (h14 : w ≤ 14) (hbusy : (partAt s part).carveBusy = true) (hl : linesIn s (partAt s part) w = []) :
    carveStep s part = some (finishCarve s part w who) := by
  simp [carveStep, hq, Nat.not_le.mpr hw, Nat.not_lt.mpr h14, hbusy, hl]

end Carve

/-! ## Request counters (R73) -/

/-- A channel of the partition takes a write of each of its counters. -/
theorem execRequestCounterWrite_of_owned {s : State} {part die chan : Nat} (val : Word) (hc : chan < 64)
    (ho : (partAt s part).clusters.contains (Config.clustersPerDie * die + chan / 4) = true) :
    execRequestCounterWrite part die chan 0 val s =
      .next { s with localReq := mapSet 0 s.localReq (64 * die + chan) val } ∧
    execRequestCounterWrite part die chan 1 val s =
      .next { s with remoteReq := mapSet 0 s.remoteReq (64 * die + chan) val } ∧
    execRequestCounterWrite part die chan 2 val s =
      .next { s with hostReq := mapSet 0 s.hostReq (64 * die + chan) val } := by
  have taken : ¬ (!(partAt s part).clusters.contains (Config.clustersPerDie * die + chan / 4) ||
      decide (64 ≤ chan)) = true := by
    rw [ho]; simpa using hc
  exact ⟨if_neg taken, if_neg taken, if_neg taken⟩

/-! ## Partitions (R387, R389) -/

section Partitions
variable {s : State} {first logn part : Nat}

theorem execPartitionCreate_of_free (hpower : s.power = .running) (hlogn : logn ≤ 6) (halign : first % 2 ^ logn = 0)
    (hfit : first + 2 ^ logn ≤ s.variant.clusters) (hfree : ∀ i, i < 2 ^ logn → partOfCluster s (first + i) = none) :
    execPartitionCreate first logn s = .next { s with
      parts := mapPut s.parts first (newPartition first logn), flash := { s.flash with allTorn := false } } := by
  have free : ((List.range (2 ^ logn)).all fun i => (partOfCluster s (first + i)).isNone) = true :=
    List.all_eq_true.mpr fun i hi => by simp [hfree i (List.mem_range.mp hi)]
  simp only [execPartitionCreate, hpower, hlogn, halign, hfit, free, decide_true, Bool.and_self, if_true]

/-- A request for a cluster that a partition holds has no effect. -/
theorem execPartitionCreate_of_taken {i : Nat} (hi : i < 2 ^ logn) (htaken : partOfCluster s (first + i) ≠ none) :
    execPartitionCreate first logn s = .next s := by
  have taken : ((List.range (2 ^ logn)).all fun i => (partOfCluster s (first + i)).isNone) = false :=
    List.all_eq_false.mpr ⟨i, List.mem_range.mpr hi, by simpa using htaken⟩
  simp only [execPartitionCreate, taken, Bool.and_false, Bool.false_eq_true, if_false]

/-- A teardown first ends the partition's launches. -/
theorem tearDown_begins {p : Partition} (hp : mapFind s.parts part = some p) (hseal : s.ingot.sealing = none)
    (htearing : p.tearing = false) :
    tearDown s part = some (tearLaunches (modPart s part fun p => { p with tearing := true }) part) := by
  simp [tearDown, hp, hseal, htearing]

/-- Once they are over it releases the host's halves and resets the clusters. -/
theorem tearDown_of_no_launch {p : Partition} (hp : mapFind s.parts part = some p) (hseal : s.ingot.sealing = none)
    (htearing : p.tearing = true) (hlaunches : ∀ e ∈ s.launches, e.2.part ≠ part)
    (hops : ∀ o ∈ s.sysOps, o.part ≠ part ∨ o.agent ≠ .command) :
    let t := resetClusters ((hostLines s part).foldl (fun s e => releaseHost s e.1 e.2) s) part
    tearDown s part = some (if t.parts.isEmpty then { t with flash := { t.flash with allTorn := true } } else t) := by
  have none_incomplete : (s.launches.any fun e => e.2.part = part && e.2.incomplete && e.2.shadow.isNone) = false :=
    List.any_eq_false.mpr fun e he => by simp [hlaunches e he]
  have ended : launchesOver s part = true := List.all_eq_true.mpr fun e he => by simp [hlaunches e he]
  have no_command : (s.sysOps.any fun o => o.part = part && o.agent = .command) = false :=
    List.any_eq_false.mpr fun o ho => by
      rcases hops o ho with h | h <;> simp [h]
  simp [tearDown, hp, hseal, htearing, none_incomplete, ended, no_command]

end Partitions

/-! ## Registers without a row of their own (R405, R406, R413, R423) -/

/-- The registers of a partition, and of the queues and rings of its functions, take what is written (the virtual
function modulo 3: log entry 30). -/
theorem execRegisterWrite_of_partExists {s : State} {part : Nat} (val : Word) (h : partExists s part = true) :
    execRegisterWrite part .regbase val s = .next (modPart s part fun p => { p with regbase := val }) ∧
    execRegisterWrite part .asidbase val s = .next (modPart s part fun p => { p with asidbase := val }) ∧
    (∀ j q, q < 16 → execRegisterWrite part (.qbase j q) val s =
      .next (modQueue s (3 * part + j % 3) q fun c => if c.en then c else { c with qbase := val })) ∧
    (∀ j q, q < 16 → execRegisterWrite part (.qctl j q) val s =
      .next (modQueue s (3 * part + j % 3) q (writeQctl val))) ∧
    (∀ j r, r < 4 → execRegisterWrite part (.rctl j r) val s =
      .next (modRing s (3 * part + j % 3) r (writeRctl val))) := by
  refine ⟨?regbase, ?asidbase, ?qbase, ?qctl, ?rctl⟩
  case regbase => simp only [execRegisterWrite, h, if_true]
  case asidbase => simp only [execRegisterWrite, h, if_true]
  case qbase => intro j q hq; simp only [execRegisterWrite, h, hq, decide_true, Bool.and_self, if_true]
  case qctl => intro j q hq; simp only [execRegisterWrite, h, hq, decide_true, Bool.and_self, if_true]
  case rctl => intro j r hr; simp only [execRegisterWrite, h, hr, decide_true, Bool.and_self, if_true]

/-! ## The statement -/

/-- Settles O42: carve changes, request counters, creation and teardown of a partition, and its registers. -/
theorem partitionsComplete : Obligations.PartitionsComplete := by
  unfold Obligations.PartitionsComplete
  refine ⟨execCarvewWrite_eq, ?noWay, ?begins, ?empties, ?counters, ?create, ?taken, ?tear, ?torn, ?registers,
    fun _ _ _ => rfl, fun _ _ _ _ => rfl⟩
  case noWay => exact fun s part w who rest hq hw => next_getD_of_eq_some (carveStep_of_no_way hq hw)
  case begins => exact fun s part w who rest hq hw h14 hb => next_getD_of_eq_some (carveStep_begins hq hw h14 hb)
  case empties =>
    exact fun s part w who rest hq hw h14 hb hl => next_getD_of_eq_some (carveStep_of_empty_ways hq hw h14 hb hl)
  case counters => exact fun s part die chan val hc ho => execRequestCounterWrite_of_owned val hc ho
  case create =>
    exact fun s first logn hpower hlogn halign hfit hfree =>
      execPartitionCreate_of_free hpower hlogn halign hfit hfree
  case taken => exact fun s first logn i hi htaken => execPartitionCreate_of_taken hi htaken
  case tear => exact fun s part p hp hseal ht => next_getD_of_eq_some (tearDown_begins hp hseal ht)
  case torn =>
    exact fun s part p hp hseal ht hl ho => next_getD_of_eq_some (tearDown_of_no_launch hp hseal ht hl ho)
  case registers => exact fun s part val h => execRegisterWrite_of_partExists val h

end Sys2Proof.Machine
end

section
/-! PROOF. Power.lean: the machine right after reset, starts, recovery, slice power, throttling and data of other
devices (R73, R90, R401, R404, R416 to R420, R423). -/

namespace Sys2Proof.Machine

/-! ## Device reset (R90) -/

/-- A snoop that waits as the device resets is answered: the device holds its half no more. -/
theorem answerWaiting_of_snoop {s : State} {hpa : Nat}
    (h : s.hostOps = [.snpInv hpa] ∨ s.hostOps = [.snpData hpa] ∨ s.hostOps = [.snpCur hpa]) :
    answerWaiting s = say s (.snoop hpa "RspIHitI" none false) := by
  rcases h with h | h | h <;> simp only [answerWaiting, h, List.foldl_cons, List.foldl_nil]

/-! ## Starts (R404, R416 to R418) -/

section Start
variable {s : State} {modules : Nat}

/-- A cold start whose steps succeed, with the host link's four modules, trains every die and clears memory. -/
theorem coldStart_of_link (s : State) (hm : linkModules ≤ modules) : coldStart s true modules = startedUp
    { trainDies s (List.range s.variant.dies) with hbm := [], hbmPoison := [], hbmCorrectable := [] } modules := by
  simp only [coldStart, hm, decide_true, Bool.and_self, if_true]

/-- A cold start without them, or in which a step fails, is counted. -/
theorem coldStart_of_failure {ok : Bool} (s : State) (h : ok = false ∨ modules < linkModules) :
    coldStart s ok modules = { s with
      power := .failed, ready := false, flash := { s.flash with failedCold := s.flash.failedCold + 1 } } := by
  have fails : ¬ (ok && decide (linkModules ≤ modules)) = true := by
    rcases h with rfl | h
    · simp
    · simp [Nat.not_le.mpr h]
  exact if_neg fails

theorem execColdStart_of_mayStart (ok : Bool) (modules : Nat) (h : mayStart s = true) :
    execColdStart ok modules s = .next (coldStart s ok modules) := by
  rw [execColdStart, if_pos h]

theorem execStartTimeout_of_mayStart (h : mayStart s = true) :
    execStartTimeout s = .next (coldStart s false 0) := by
  rw [execStartTimeout, if_pos h]

/-- A warm start keeps memory, and trains the dies whose temperature has moved. -/
theorem execWarmStart_of_torn (h : mayStart s = true) (hpower : s.power ≠ .recovery) (htorn : s.flash.allTorn = true)
    (hwarm : s.flash.failedWarm < startTries) (hm : linkModules ≤ modules) :
    let d := driftedDies s (List.range s.variant.dies)
    execWarmStart true modules s = .next (startedUp (trainDies d.1 d.2) modules) := by
  simp only [execWarmStart, h, hpower, htorn, Nat.not_le.mpr hwarm, hm, decide_true, decide_false, Bool.not_true,
    Bool.or_self, Bool.and_self, Bool.false_eq_true, if_false, if_true]

theorem execRecoveryMode_of_failed (hpower : s.power = .failed) (hcold : startTries ≤ s.flash.failedCold) :
    execRecoveryMode s = .next { s with power := .recovery, recoveryImage := none } := by
  simp [execRecoveryMode, hpower, hcold]

theorem execRecoveryImageLoad_of_recovery (image : List Byte) (hpower : s.power = .recovery) :
    execRecoveryImageLoad image s =
      .next (if Config.firmwareVerifies image then { s with recoveryImage := some image } else s) := by
  cases hv : Config.firmwareVerifies image <;> simp [execRecoveryImageLoad, hpower, hv]

end Start

/-! ## Slice power (R90), and other devices (R420) -/

section Slice
variable {s : State} {k : Nat}

theorem gateSlice_of_empty (hk : k < s.variant.clusters) (hg : (sliceAt s k).gated = false)
    (hl : (sliceAt s k).lines = []) (hm : (sliceAt s k).misses = []) (hw : (sliceAt s k).waiting = []) :
    gateSlice s k = some (modSlice s k fun x => { x with gated := true }) := by
  simp [gateSlice, Nat.not_le.mpr hk, hg, hl, hm, hw]

theorem execSlicePowerRestore_of_gated (hg : (sliceAt s k).gated = true) :
    execSlicePowerRestore k s = .next (modSlice s k fun x => { x with gated := false }) := by
  rw [execSlicePowerRestore, if_pos hg]

end Slice

/-- Data of another device reach a partition's HBM on the part that has the ports. -/
theorem execRemoteMemoryMove_of_ports {s : State} {part pa : Nat} {bytes : List Byte}
    (hports : s.variant.scaleout = true) (hpart : partExists s part = true)
    (hbacked : ∀ i, i < bytes.length → backedHbm (partAt s part) (pa + i) = true) :
    execRemoteMemoryMove part pa bytes s = .next (sysPost s .device part pa bytes.length (.bytes bytes false)) := by
  have backed : ((List.range bytes.length).all fun i => backedHbm (partAt s part) (pa + i)) = true :=
    List.all_eq_true.mpr fun i hi => hbacked i (List.mem_range.mp hi)
  simp only [execRemoteMemoryMove, hports, hpart, backed, Bool.and_self, if_true]

/-! ## The machine right after reset (R416) -/

/-- The default bits are zeros, whatever their number: evaluating them is no option at IMEXT's 512. -/
theorem default_eq_zero (n : Nat) : (default : BitVec n) = 0 := BitVec.eq_of_toNat_eq (Nat.zero_mod _).symm

theorem imext_reset : State.reset.ingot.imext = 0 := default_eq_zero 512

theorem memoriesWf_reset : MemoriesWf State.reset := by
  refine ⟨rfl, rfl, ?parts, ?teams⟩ <;> exact fun e he => absurd he List.not_mem_nil

/-- A device that is down, and whose agenda is empty, makes a cold start. -/
theorem step_of_down {s : State} (ha : s.agenda = []) (hpower : s.power = .down) (h : mayStart s = true) :
    step s = .next (coldStart s true 8) := by
  simp [step, ha, ownStep, hpower, h]

/-- A cold start that succeeds leaves the device running and ready, with no failure counted and memory clear. -/
theorem coldStart_runs {modules : Nat} (s : State) (hm : linkModules ≤ modules) :
    (coldStart s true modules).power = .running ∧ (coldStart s true modules).ready = true ∧
      (coldStart s true modules).flash.failedCold = 0 ∧ (coldStart s true modules).hbm = [] := by
  rw [coldStart_of_link s hm]
  exact ⟨rfl, rfl, rfl, rfl⟩

/-! ## The statements -/

/-- Settles O43: reset, starts, recovery, slice power, throttling, and data of other devices. -/
theorem powerComplete : Obligations.PowerComplete := by
  unfold Obligations.PowerComplete
  refine ⟨fun _ => rfl, fun s hpa => answerWaiting_of_snoop, fun _ => ⟨rfl, rfl, rfl, rfl, rfl, rfl⟩, ?cold, ?failed,
    ?warm, ?timeout, fun s => execRecoveryMode_of_failed, fun s image => execRecoveryImageLoad_of_recovery image, ?gate,
    fun s k => execSlicePowerRestore_of_gated, fun _ _ _ _ => rfl, fun s part pa bytes => execRemoteMemoryMove_of_ports⟩
  case cold =>
    exact fun s modules h hm =>
      (execColdStart_of_mayStart true modules h).trans (congrArg Host.Outcome.next (coldStart_of_link s hm))
  case failed =>
    exact fun s ok modules h hfail =>
      (execColdStart_of_mayStart ok modules h).trans (congrArg Host.Outcome.next (coldStart_of_failure s hfail))
  case warm => exact fun s modules h hpower htorn hwarm hm => execWarmStart_of_torn h hpower htorn hwarm hm
  case timeout =>
    exact fun s h =>
      (execStartTimeout_of_mayStart h).trans (congrArg Host.Outcome.next (coldStart_of_failure s (.inl rfl)))
  case gate => exact fun s k hk hg hl hm hw => next_getD_of_eq_some (gateSlice_of_empty hk hg hl hm hw)

/-- Settles O49: the fields of the reset state are read off, and its first step is a cold start that succeeds. -/
theorem resetLeavesTheMachineDown : Obligations.ResetLeavesTheMachineDown := by
  unfold Obligations.ResetLeavesTheMachineDown
  refine ⟨rfl, rfl, rfl, rfl, rfl, rfl, rfl, rfl, rfl, rfl, rfl, rfl, rfl, rfl, rfl, rfl, imext_reset,
    memoriesWf_reset, step_of_down rfl rfl rfl, coldStart State.reset true 8, rfl,
    coldStart_runs State.reset (by decide)⟩

end Sys2Proof.Machine
end

section
/-! PROOF. StreamInstructions.lean: the instructions of class 0x280: binding, starting, stopping and reading a stream
queue, and copies (R114 to R122). -/

namespace Sys2Proof.Machine

/-! ## What each instruction runs -/

section Runs
variable (h : Hdr) (qn n : Fin 16) (flag dsp : Bool) (a b c d : Opnd) (s : State)

theorem exec_sqcfg : exec (.sqcfg h qn flag a b) s = execSqcfg h qn flag a b s := rfl
theorem exec_sqgo : exec (.sqgo h qn) s = execSqgo h qn s := rfl
theorem exec_sqstop : exec (.sqstop h qn flag) s = execSqstop h qn flag s := rfl
theorem exec_sqstat : exec (.sqstat h qn flag d) s = execSqstat h qn flag d s := rfl
theorem exec_cpy (hint : CpyHint) : exec (.cpy h flag dsp hint a b c) s = execCpy h flag dsp hint a b c s := rfl
theorem exec_cseal : exec (.cseal h d) s = execCseal h d s := rfl
theorem exec_cwait : exec (.cwait h n flag) s = execCwait h n flag s := rfl
theorem exec_cpoll : exec (.cpoll h n flag d) s = execCpoll h n flag d s := rfl

end Runs

/-! ## Binding a queue (R114) -/

section Bind
variable {h : Hdr} {qn : Fin 16} {sp : Bool} {a b : Opnd} {s t : State} {i : Issue} {ex : Mask}

/-- SQCFG that has its descriptor binds the queue, where the binding passes its checks. -/
theorem exec_sqcfg_of_has {d : BitVec 512} {ctx : Nat} (hi : Issues (sqItem h [a, b] [] (some qn.val)) s i ex)
    (hread : readDesc s i sp ((lanes i ex s).headD 0) (scalarOf s i.gid ex a) = .has d t)
    (hbind : bindFault t i.gid qn.val d (scalarOf t i.gid ex b).toNat ((lanes i ex s).headD 0) = none)
    (hctx : freeContext t (grpAt t i.gid).core = some ctx) :
    exec (.sqcfg h qn sp a b) s = .next (finishIssue
      (modGrp t i.gid fun g => g.modQueue qn.val fun _ => newQueue d (scalarOf t i.gid ex b).toNat ctx)
      i (sqItem h [a, b] [] (some qn.val)) ex {}) := by
  unfold lanes at hread hbind
  exact (exec_sqcfg ..).trans (runItem_done hi (by simp only [hread, hbind, hctx]))

/-- A descriptor in memory is loaded, where the load passes its checks and its core has room for the load. -/
theorem readDesc_begins {lane : Nat} {va : Word} (hnone : (grpAt s i.gid).descr = none)
    (hfault : descFault s i.gid va = none) (hown : ownHeld (grpAt s i.gid) (descParts lane va.toNat) 8 = false)
    (hroom : 2 ≤ freeEntries s (grpAt s i.gid).core) :
    readDesc s i false lane va = .begins (beginDesc s i lane va.toNat) := by
  simp only [readDesc, hnone, hfault, hown, Nat.not_lt.mpr hroom, Bool.false_eq_true, if_false, decide_false,
    Bool.or_self]

theorem exec_sqcfg_of_begins (hi : Issues (sqItem h [a, b] [] (some qn.val)) s i ex)
    (hread : readDesc s i sp ((lanes i ex s).headD 0) (scalarOf s i.gid ex a) = .begins t) :
    exec (.sqcfg h qn sp a b) s = .next t := by
  unfold lanes at hread
  refine (exec_sqcfg ..).trans ((runItem_issues hi).trans ?_)
  simp only [hread]

end Bind

/-! ## Starting, stopping and reading a queue (R115 to R117) -/

/-- A queue keeps no fault for its SQSTOP unless it is an outbound or copy stream in FAULTED. -/
theorem keptFault_eq_none {q : Queue} (h : q.st ≠ .faulted ∨ q.isLoad = true ∨ q.fault = none) :
    (if q.st = .faulted && !q.isLoad then q.fault else none) = none := by
  rcases h with h | h | h <;> simp [h]

/-! ## Copies (R118 to R122) -/

theorem stoppedFault_eq_none {cs : List Copy} (h : ∀ c ∈ cs, c.stopped = none) : stoppedFault cs = none := by
  have none_stopped : cs.filter (·.stopped.isSome) = [] :=
    List.filter_eq_nil_iff.mpr fun c hc => by simp [h c hc]
  rw [stoppedFault, none_stopped]
  rfl

theorem stoppedFault_nil : stoppedFault [] = none := rfl

/-- What CPOLL reads of a batch: 1 once no copy of it is incomplete, 2 where one has stopped. -/
theorem pollValue_eq (cs : List Copy) :
    (if cs.isEmpty then 1 else if cs.any (·.stopped.isSome) then 2 else 0 : Word) =
      if cs = [] then 1 else if ∃ c ∈ cs, c.stopped ≠ none then 2 else 0 := by
  simp only [List.isEmpty_iff, List.any_eq_true, Option.isSome_iff_ne_none]

/-! ## The statement -/

/-- Settles O21: each instruction runs its item, whose body takes the effect stated. -/
theorem streamsAndCopiesComplete : Obligations.StreamsAndCopiesComplete := by
  unfold Obligations.StreamsAndCopiesComplete
  refine ⟨?bind, ?begins, ?sqgo, ?unbound, ?bound, ?sqstat, ?cpy, ?cseal, ?cwait, ?cpoll⟩
  case bind =>
    intro h qn sp a b s i ex d ctx t it lane w hi hread hbind hctx
    exact exec_sqcfg_of_has hi hread hbind hctx
  case begins =>
    intro h qn a b s i ex lane va hi hnone hfault hown hroom
    exact exec_sqcfg_of_begins hi (readDesc_begins hnone hfault hown hroom)
  case sqgo =>
    intro h qn
    refine takes_of (exec_sqgo h qn) fun s i ex _ hbound => ?_
    simp only [hbound, Bool.not_true, Bool.false_eq_true, if_false]
  case unbound =>
    intro h qn disc
    refine takes_of (exec_sqstop h qn disc) fun s i ex _ hunbound => ?_
    simp only [hunbound, Bool.not_false, if_true, unchanged]
  case bound =>
    intro h qn disc
    refine takes_of (exec_sqstop h qn disc) fun s i ex _ ⟨hbound, hfault⟩ => ?_
    simp only [hbound, Bool.not_true, Bool.false_eq_true, if_false, keptFault_eq_none hfault]
  case sqstat => exact fun h qn clr d => takes_done (exec_sqstat h qn clr d)
  case cpy =>
    intro h ssp dsp hint a b c s i ex it args real core hi hfail hroom
    have no_fail : args.filterMap (copyFail (launchOf s i.gid) ssp dsp) = [] := List.filterMap_eq_nil_iff.mpr hfail
    have fits : ¬ Config.copySlots < (coreAt s core).copies.length + real.length := Nat.not_lt.mpr hroom
    simp only [args, real, core, lanes] at no_fail fits
    exact (exec_cpy ..).trans (runItem_done hi (by
      simp only [no_fail, lowestFail_nil, fits, if_false, args, real, core, lanes]))
  case cseal =>
    intro h d
    refine takes_of (exec_cseal h d) fun s i ex _ hempty => ?_
    have no_copy : (lanesOf (grpAt s i.gid).width ex).flatMap (fun l =>
        batchCopies s i.gid l (((grpAt s i.gid).thread l).batch + 1)) = [] := List.flatMap_eq_nil_iff.mpr hempty
    simp only [no_copy, List.any_nil, stoppedFault_nil, Bool.false_eq_true, if_false, lanes]
  case cwait =>
    intro h n rel
    refine takes_of (exec_cwait h n rel) fun s i ex _ hrun => ?_
    have no_fault : stoppedFault ((lanesOf (grpAt s i.gid).width ex).flatMap fun l =>
        batchCopies s i.gid l (batchOf ((grpAt s i.gid).thread l) n.val rel)) = none :=
      stoppedFault_eq_none fun c hc => by
        obtain ⟨l, hl, hcl⟩ := List.mem_flatMap.mp hc
        exact hrun l hl c hcl
    simp only [no_fault, lanes, unchanged]
  case cpoll =>
    intro h n rel d
    refine takes_of (exec_cpoll h n rel d) fun s i ex _ _ => ?_
    simp only [pollValue_eq, lanes, unchanged]

end Sys2Proof.Machine
end

section
/-! PROOF. StreamEvents.lean: lines that return at the line port, the turns of its clients, and the ends of stream
entries, of stopping queues and of copies (R96, R104, R108, R116, R118, R119). -/

namespace Sys2Proof.Machine

/-! ## Lines that return (R104, R108) -/

/-- An operation takes no poisoned byte from a line without poison (R391). -/
theorem matrixTakes_zero (o : MatOp) : matrixTakes o 0 = false := by
  unfold matrixTakes
  split
  case h_1 => rfl
  case h_2 => exact decide_eq_false (not_not_intro BitVec.zero_and)

theorem filter_matrixTakes_zero (o : Option MatOp) : (o.filter fun o => matrixTakes o 0) = none :=
  Option.filter_eq_none_iff.mpr fun o _ => by simp only [matrixTakes_zero, Bool.false_eq_true, not_false_eq_true]

section Return
variable {s : State} {req : Nat} {r : Request} {d : Line} {a b : Nat} {es : List (BitVec 48)} {p : BitVec 4}
  (hr : mapFind s.requests req = some r)
include hr

theorem portReturn_stream {gid q : Nat} (hst : r.stage = .answered d a b es p) (hto : r.reader = .stream gid q)
    (hfree : arrivalBlocked s gid q r.line = false) :
    portReturn s req = some (streamArrives { s with requests := mapErase s.requests req } gid q r.line d p) := by
  simp only [portReturn, hr, hst, hto, hfree, Bool.false_eq_true, if_false]

theorem portReturn_copy {id : Nat} (hst : r.stage = .answered d a b es p) (hto : r.reader = .copy id)
    (hfree : ∀ y, copyAt s r.core id = some y → copyBlocked s y y.chunk true = false) :
    portReturn s req = some (copyArrives { s with requests := mapErase s.requests req } r.core id d p) := by
  have unlocked : ((copyAt s r.core id).any fun y => copyBlocked s y y.chunk true) = false := by
    cases hy : copyAt s r.core id with
    | none => rfl
    | some y => exact hfree y hy
  simp only [portReturn, hr, hst, hto, unlocked, Bool.false_eq_true, if_false]

theorem portReturn_matrix {co q op : Nat} (hst : r.stage = .answered d a b es 0) (hto : r.reader = .matrix co q op) :
    portReturn s req = some (matrixReturn { s with requests := mapErase s.requests req } (quartNo co q) op d) := by
  simp only [portReturn, hr, hst, hto, filter_matrixTakes_zero]

end Return

/-! ## Turns at the port (R108) -/

theorem drop_zipIdx_of_getElem? {α : Type} {xs : List α} {k : Nat} {x : α} (h : xs[k]? = some x) :
    xs.zipIdx.drop k = (x, k) :: xs.zipIdx.drop (k + 1) := by
  have at_k : xs.zipIdx[k]? = some (x, k) := by
    rw [List.getElem?_zipIdx, h, Option.map_some, Nat.zero_add]
  rw [List.drop_eq_getElem?_toList_append, at_k]
  rfl

section Turn
variable {s t : State} {core : Nat}

/-- The client whose turn it is makes its request, and the turn passes to the next. -/
theorem portRequest_of_serves {c : Client} (hport : (coreAt s core).portCycle ≠ some s.cycle)
    (hc : (clientsOf s core)[(coreAt s core).rr % (clientsOf s core).length]? = some c)
    (hs : serveClient s core c = some t) :
    portRequest s core = some (modCore t core fun x =>
      { x with rr := (coreAt s core).rr % (clientsOf s core).length + 1, portCycle := some s.cycle }) := by
  have nonempty : (clientsOf s core).isEmpty = false :=
    List.isEmpty_eq_false_iff.mpr (List.ne_nil_of_mem (List.mem_of_getElem? hc))
  simp only [portRequest, hport, nonempty, if_false, Bool.false_eq_true, drop_zipIdx_of_getElem? hc, List.cons_append,
    List.findSome?_cons, hs, Option.map_some]

theorem portRequest_of_used (hport : (coreAt s core).portCycle = some s.cycle) : portRequest s core = none := by
  simp only [portRequest, hport, if_true]

theorem portStep_of_no_advance (h : advanceContexts s core = none) : portStep s core = portRequest s core := by
  simp only [portStep, h]

theorem portStep_of_advance (h : advanceContexts s core = some t) :
    portStep s core = some ((portRequest t core).getD t) := by
  simp only [portStep, h]

end Turn

/-! ## Ends (R96, R116, R118; this file builds on core Lean's lemmas, without Mathlib's) -/

theorem ite_decide_and {α : Type} (p q : Prop) [Decidable p] [Decidable q] (x y : α) :
    (if (decide p && decide q) = true then x else y) = if p ∧ q then x else y :=
  ite_congr (by simp only [Bool.and_eq_true, decide_eq_true_eq]) (fun _ => rfl) fun _ => rfl

section Ends
variable {s : State}

/-- The head entry of an outbound stream leaves, and with its last entry the stream is DONE. -/
theorem writtenHead_of_applied {gid qn : Nat} {e : QEntry} {es : List QEntry}
    (houts : ((grpAt s gid).queue qn).outs = e :: es) (hc : e.complete = true) (hp : allApplied s e.pubs = true) :
    writtenHead s gid qn = some (modGrp s gid fun g => g.modQueue qn fun q =>
      let x := { q.forgetTaken e.k with
        outs := es, filled := q.filled - 1, free := q.free + 1, pos := if q.kind = 4 then q.pos + 1 else q.pos }
      if x.entriesOf g.width ≤ e.k + 1 ∧ x.st = .running then { x with st := .done, ctx := none } else x) := by
  simp only [writtenHead, houts, hc, hp, Bool.not_true, Bool.or_self, Bool.false_eq_true, if_false, ite_decide_and]

theorem stopStream_of_drained {gid qn : Nat} {g : Group} (hg : mapFind s.groups gid = some g)
    (hst : (g.queue qn).st = .stopping) (hd : drained s gid qn = true) :
    stopStream s gid qn = some (modGrp s gid fun g =>
      let x := { g with queues := mapErase g.queues qn }
      if x.live = 0 then stopQueues x else x) := by
  simp only [stopStream, hg, hst, hd, decide_true, Bool.and_self, if_true]

theorem endCopy_of_applied {core id : Nat} {c : Copy} (hc : copyAt s core id = some c) (hreq : c.req = none)
    (hrun : c.stopped = none) (hpubs : c.pubs = []) (hlen : c.len ≤ c.done) :
    endCopy s core id =
      some (modCore s core fun x => { x with copies := x.copies.filter fun y => y.id ≠ id }) := by
  have all_applied : allApplied s [] = true := rfl
  simp only [endCopy, hc, hreq, hrun, hpubs, all_applied, hlen, Option.isNone_none, List.isEmpty_nil, if_true,
    Nat.add_zero, decide_true, Bool.and_self]

end Ends

/-! ## The statement -/

/-- Settles O35: returned lines, the clients' turns, and the ends of entries, queues and copies. -/
theorem streamAndCopyEventsComplete : Obligations.StreamAndCopyEventsComplete := by
  unfold Obligations.StreamAndCopyEventsComplete
  refine ⟨?returns, ?turn, ?used, ?advance, ?written, ?stopped, ?copied⟩
  case returns =>
    intro s core req r d a b c hr hst t
    exact ⟨fun gid q hto hfree => next_getD_of_eq_some (portReturn_stream hr hst hto hfree),
      fun n hto hfree => next_getD_of_eq_some (portReturn_copy hr hst hto hfree),
      fun co q op hto => next_getD_of_eq_some (portReturn_matrix hr hst hto)⟩
  case turn =>
    intro s core c t hadv hport k hc hs
    exact next_getD_of_eq_some ((portStep_of_no_advance hadv).trans (portRequest_of_serves hport hc hs))
  case used =>
    intro s core hadv hport
    exact next_getD_of_eq_none ((portStep_of_no_advance hadv).trans (portRequest_of_used hport))
  case advance => exact fun s core t hadv => next_getD_of_eq_some (portStep_of_advance hadv)
  case written =>
    intro s core ctx gid qn e es hctx houts hc hp
    exact next_getD_of_eq_some (by rw [hctx]; exact writtenHead_of_applied houts hc hp)
  case stopped =>
    intro s gid qn g hg hst hd
    exact next_getD_of_eq_some (stopStream_of_drained hg hst hd)
  case copied =>
    intro s core id c hc hreq hrun hpubs hlen
    exact next_getD_of_eq_some (endCopy_of_applied hc hreq hrun hpubs hlen)

end Sys2Proof.Machine
end

section
/-! PROOF. ScratchpadAccesses.lean: LDS and STS of an item that issues, once its checks have passed (R138, R139, R143,
R147, R318, R326, R336). -/

namespace Sys2Proof.Machine

/-- An item that waits, or that says itself what it ran in, is taken as it is. -/
theorem ranIn_wait_or_done {ex : Mask} {waits : Prop} [Decidable waits] {e : Effect} {t : State}
    (hr : e.ran = some ex) : ranIn ex (if waits then .wait else .done e t) = if waits then .wait else .done e t := by
  cases e
  cases hr
  split <;> rfl

section Access
variable {it : Item} {ty : Ty} {d : Opnd} {addr : State → Nat → Nat → Word} {s : State} {i : Issue} {ex : Mask}

theorem filter_laneAddrs : (laneAddrs addr i ex s).filter (fun e => hasBit ex e.1) = laneAddrs addr i ex s :=
  filter_lanes _ _ (fun l => (l, addr s i.gid l)) (fun e => e.1) fun _ => rfl

/-! ## LDS (R147, R318) -/

/-- The lanes whose read reaches the banks: those that their write records do not give every byte (R318). -/
def bankReaders (s : State) (gid n : Nat) (as : List (Nat × Nat)) : List (Nat × Nat) :=
  as.filter fun e =>
    let t := (grpAt s gid).thread e.1
    !(t.tx.active && (logBytes t.tx.writes true e.2 n).2 = fullMask n)

/-- What LDS answers for lanes that have passed their checks: it waits for locks, or reads lane by lane. -/
def ldsAnswer (ty : Ty) (d : Opnd) (gid : Nat) (ex : Mask) (s : State) (as : List (Nat × Nat)) : Body :=
  let bank := bankReaders s gid (bytesOf ty) as
  let r := ldsLanes gid (bytesOf ty) s as
  let b := bankAccess r.1 gid (bankLoad (bytesOf ty)) bank
  if scratchBlocked s gid (bytesOf ty) false bank then .wait
  else .done
    { writes := destWrites d (r.2.map fun e => (e.1, loadExt ty (bytesOf ty) e.2)), ran := some ex, least := b.2 } b.1

theorem ldsBody_of_checks (h : Issues it s i ex)
    (hfail : scratchFails (launchOf s i.gid) (bytesOf ty) (bytesOf ty) false (laneAddrs addr i ex s) = [])
    (hpoison : scratchPoisoned s i.gid (bytesOf ty) (laneAddrs addr i ex s) = [])
    (hroom : readOverflow (consumeAll s i.gid it) i.gid true (bytesOf ty) (laneNats addr i ex s) = []) :
    ldsBody it ty d addr i ex s = ldsAnswer ty d i.gid ex (consumeAll s i.gid it) (laneNats addr i ex s) := by
  unfold ldsBody ldsAnswer
  simp only [map_lanes_eq_laneAddrs, hfail, hpoison, List.isEmpty_nil, if_true,
    checked_nil lowestFail_nil (exec_ne_zero_of_issues h), filter_laneAddrs, map_laneAddrs_eq_laneNats, hroom,
    abortCapacity_nil, filter_laneNats, bankReaders]
  exact ranIn_wait_or_done rfl

/-! ## STS (R147, R318, R336) -/

/-- The lanes whose store meets the locks of the banks: those outside a transaction, and irrevocable ones. -/
def bankWriters (s : State) (gid : Nat) (as : List (Nat × Nat)) : List (Nat × Nat) :=
  as.filter fun e =>
    let t := (grpAt s gid).thread e.1
    !t.tx.active || t.tx.irrev

/-- The stores of the lanes, the lowest lane's first (R147). -/
def stsLanes (gid n : Nat) (s : State) (vals : List (Nat × Nat × Word)) : State :=
  vals.foldl (fun s e => stsLane gid n s e.1 e.2.1 e.2.2) s

/-- What STS answers for lanes that have passed their checks: it waits for locks, or stores lane by lane. -/
def stsAnswer (n gid : Nat) (ex : Mask) (s : State) (as : List (Nat × Nat)) (vals : List (Nat × Nat × Word)) : Body :=
  let bank := bankWriters s gid as
  let b := bankAccess s gid (bankLoad n) (bank.filter fun e => !((grpAt s gid).thread e.1).tx.active)
  if scratchBlocked s gid n true bank then .wait
  else .done { ran := some ex, least := b.2 } (stsLanes gid n b.1 vals)

theorem stsBody_of_checks (h : Issues it s i ex)
    (hfail : scratchFails (launchOf s i.gid) (bytesOf ty) (bytesOf ty) true (laneAddrs addr i ex s) = [])
    (hroom : writeOverflow (consumeAll s i.gid it) i.gid true (laneNats addr i ex s) = []) :
    stsBody it ty d addr i ex s = stsAnswer (bytesOf ty) i.gid ex (consumeAll s i.gid it) (laneNats addr i ex s)
      (laneStores addr d i ex s) := by
  unfold stsBody stsAnswer
  simp only [map_lanes_eq_laneAddrs, map_lanes_eq_laneStores, hfail,
    checked_nil lowestFail_nil (exec_ne_zero_of_issues h), filter_laneStores, map_laneStores_eq_laneNats, hroom,
    abortCapacity_nil, bankWriters, stsLanes]
  exact ranIn_wait_or_done rfl

end Access

/-! ## The statement -/

/-- Settles O18: once its checks have passed and no lock stands in the way, each lane reads or stores in turn. -/
theorem scratchpadAccessesComplete : Obligations.ScratchpadAccessesComplete := by
  unfold Obligations.ScratchpadAccessesComplete
  intro loads stores
  have loads_of_body {ins it ty d addr} (hx : ∀ s, exec ins s = runItem it (ldsBody it ty d addr) s) :
      loads ins it ty d addr := by
    intro s i ex h s1 as hfail hpoison hroom bank hfree r b
    rw [hx]
    exact runItem_done h ((ldsBody_of_checks h hfail hpoison hroom).trans (if_neg (ne_true_of_eq_false hfree)))
  have stores_of_body {ins it ty d addr} (hx : ∀ s, exec ins s = runItem it (stsBody it ty d addr) s) :
      stores ins it ty d addr := by
    intro s i ex h s1 as vals hfail hroom hfree b
    rw [hx]
    exact runItem_done h ((stsBody_of_checks h hfail hroom).trans (if_neg (ne_true_of_eq_false hfree)))
  exact ⟨fun h ty sc d a b => loads_of_body fun _ => rfl, fun h ty d a imm => loads_of_body fun _ => rfl,
    fun h ty sc d a b => stores_of_body fun _ => rfl, fun h ty d a imm => stores_of_body fun _ => rfl⟩

end Sys2Proof.Machine
end

section
/-! PROOF. ScratchpadFrames.lean: what LDS and STS leave alone: all but the scratchpad bytes at the lanes' offsets (R138,
R147). -/

namespace Sys2Proof.Machine

/-! ## What stays (R138, R147) -/

/-- What stays of a state where scratchpads may change: every other memory, every register and every status; and of a
scratchpad, the bytes that `stays` names by team and position. -/
def KeepsBytes (stays : Nat → Nat → Prop) (s t : State) : Prop :=
  (s.hbm = t.hbm ∧ s.hostMem = t.hostMem ∧ s.parts = t.parts ∧ SameRegisters s t ∧ SameStatus s t ∧ SameTrap s t) ∧
  ∀ k p, stays k p → memRead (teamAt t k).scratch p = memRead (teamAt s k).scratch p

section Keeps
variable {stays : Nat → Nat → Prop} {s t u : State}

theorem Still.keepsBytes (h : Still s t) : KeepsBytes stays s t := by
  obtain ⟨⟨hbm, host, parts, scratch⟩, regs, status, trap⟩ := h
  exact ⟨⟨hbm, host, parts, regs, status, trap⟩, fun k p _ => by rw [scratch k]⟩

theorem KeepsBytes.trans (h : KeepsBytes stays s t) (k : KeepsBytes stays t u) : KeepsBytes stays s u := by
  obtain ⟨⟨hbm, host, parts, regs, status, trap⟩, bytes⟩ := h
  obtain ⟨⟨hbm', host', parts', regs', status', trap'⟩, bytes'⟩ := k
  exact ⟨⟨hbm.trans hbm', host.trans host', parts.trans parts', sameRegisters_trans regs regs',
    sameStatus_trans status status', sameTrap_trans trap trap'⟩, fun k p hp => (bytes' k p hp).trans (bytes k p hp)⟩

end Keeps

/-! ## The banks and stream operands -/

theorem still_notIssued (s : State) : Still s { s with issuing := none } :=
  FetchOnly.still ⟨rfl, rfl, rfl, rfl, rfl, rfl, rfl⟩

theorem takeBanks_eq_cores (s : State) (core c : Nat) : ∃ cs, (takeBanks s core c).1 = { s with cores := cs } := by
  unfold takeBanks
  split
  · exact ⟨s.cores, rfl⟩
  · exact ⟨_, rfl⟩

/-- An access at the banks changes nothing but the cycles for which cores hold theirs (R139). -/
theorem bankAccess_eq_cores (s : State) (gid : Nat) (load : List Nat → Nat) (as : List (Nat × Nat)) :
    ∃ cs, (bankAccess s gid load as).1 = { s with cores := cs } := by
  obtain ⟨near, hnear⟩ := takeBanks_eq_cores s (grpAt s gid).core
    (load ((as.filter fun e => !farOffset s gid e.2).map (·.2)))
  obtain ⟨far, hfar⟩ := takeBanks_eq_cores { s with cores := near }
    (if (grpAt s gid).core % 2 = 0 then (grpAt s gid).core + 1 else (grpAt s gid).core - 1)
    (load ((as.filter fun e => farOffset s gid e.2).map (·.2)))
  refine ⟨far, ?_⟩
  simp only [bankAccess, enterBanks, hnear, hfar]

theorem still_cores (s : State) (cs : NMap Core) : Still s { s with cores := cs } :=
  FetchOnly.still ⟨rfl, rfl, rfl, rfl, rfl, rfl, rfl⟩

theorem still_bankAccess (s : State) (gid : Nat) (load : List Nat → Nat) (as : List (Nat × Nat)) :
    Still s (bankAccess s gid load as).1 := by
  obtain ⟨cs, hcs⟩ := bankAccess_eq_cores s gid load as
  rw [hcs]
  exact still_cores s cs

theorem dedup_sublist {α : Type} [BEq α] (xs : List α) : (dedup xs).Sublist xs := by
  induction xs with
  | nil => exact .slnil
  | cons x xs ih => exact (List.filter_sublist.trans ih).cons_cons x

/-- An item that names no stream consumes nothing. -/
theorem consumeAll_of_no_stream {it : Item} (s : State) (gid : Nat) (h : namesStream it = false) :
    consumeAll s gid it = s := by
  have reads : ∀ o ∈ dedup it.srcs, consume s gid o = s := fun o ho => by
    have hno := List.any_eq_false.mp h o (List.mem_append_left _ ((dedup_sublist it.srcs).subset ho))
    cases o with
    | sq n => exact absurd rfl hno
    | dp n => exact absurd rfl hno
    | _ => rfl
  unfold consumeAll
  generalize dedup it.srcs = os at reads
  induction os with
  | nil => rfl
  | cons o os ih =>
    rw [List.foldl_cons, reads o List.mem_cons_self]
    exact ih fun o ho => reads o (List.mem_cons_of_mem _ ho)

/-! ## Lanes outside transactions -/

section NoTx
variable {s : State} {gid n : Nat} (htx : ∀ l, ((grpAt s gid).thread l).tx.active = false)
include htx

theorem readOverflow_of_no_tx (scr : Bool) (as : List (Nat × Nat)) : readOverflow s gid scr n as = [] := by
  simp [readOverflow, htx]

theorem writeOverflow_of_no_tx (scr : Bool) (as : List (Nat × Nat)) : writeOverflow s gid scr as = [] := by
  simp [writeOverflow, htx]

theorem ldsLanes_of_no_tx (as : List (Nat × Nat)) : (ldsLanes gid n s as).1 = s := by
  induction as with
  | nil => rfl
  | cons e as ih =>
    obtain ⟨l, a⟩ := e
    simp [ldsLanes, ldsLane, htx, ih]

theorem stsLane_of_no_tx (l a : Nat) (x : Word) :
    stsLane gid n s l a x = scratchWrite s (grpAt s gid).team a n (bits x.toNat 0 (8 * n)) := by
  simp [stsLane, htx]

end NoTx

/-! ## Writes of scratchpad -/

theorem teamAt_scratchWrite_lid (s : State) (team off n x k : Nat) :
    (teamAt (scratchWrite s team off n x) k).lid = (teamAt s k).lid := by
  unfold scratchWrite
  by_cases hk : k = team
  · subst hk; rw [teamAt_modTeam_same]
  · rw [teamAt_modTeam_ne _ _ _ _ hk]

theorem launchOf_scratchWrite (s : State) (team off n x gid : Nat) :
    launchOf (scratchWrite s team off n x) gid = launchOf s gid :=
  congrArg (launchAt s) (teamAt_scratchWrite_lid s team off n x (grpAt s gid).team)

theorem keepsBytes_scratchWrite {stays : Nat → Nat → Prop} {s : State} {team off n : Nat} (x : Nat)
    (h : ∀ p, stays team p → let a := (scratchPos (launchAt s (teamAt s team).lid) off).getD off
      p < a ∨ a + n ≤ p) :
    KeepsBytes stays s (scratchWrite s team off n x) := by
  refine ⟨⟨rfl, rfl, rfl, sameRegisters_refl s, sameStatus_refl s, sameTrap_refl s⟩, fun k p hp => ?_⟩
  unfold scratchWrite
  by_cases hk : k = team
  · subst hk
    rw [teamAt_modTeam_same]
    exact memRead_memWriteLE_out _ _ _ _ _ (h p hp)
  · rw [teamAt_modTeam_ne _ _ _ _ hk]

/-- Stores of lanes outside transactions write the bytes at the lanes' offsets and nothing else. -/
theorem keepsBytes_stsLanes {stays : Nat → Nat → Prop} {gid n : Nat} (vals : List (Nat × Nat × Word)) :
    ∀ {s : State}, (∀ l, ((grpAt s gid).thread l).tx.active = false) →
      (∀ e ∈ vals, ∀ p, stays (grpAt s gid).team p →
        let a := (scratchPos (launchOf s gid) e.2.1).getD e.2.1
        p < a ∨ a + n ≤ p) →
      KeepsBytes stays s (stsLanes gid n s vals) := by
  induction vals with
  | nil => exact fun _ _ => (Still.refl _).keepsBytes
  | cons e vals ih =>
    intro s htx hout
    rw [stsLanes, List.foldl_cons, stsLane_of_no_tx htx]
    refine (keepsBytes_scratchWrite _ (hout e List.mem_cons_self)).trans (ih htx fun e' he' p hp => ?_)
    rw [launchOf_scratchWrite]
    exact hout e' (List.mem_cons_of_mem _ he') p hp

/-! ## Offsets in the scratchpad (R138) -/

theorem scratchHas_of_scratchFails_nil {l : Launch} {n al : Nat} {wr : Bool} {as : List (Nat × Word)}
    (h : scratchFails l n al wr as = []) {e : Nat × Word} (he : e ∈ as) : scratchHas l e.2.toNat n = true := by
  have hnone := List.filterMap_eq_nil_iff.mp h e he
  split at hnone
  · simp at hnone
  · split at hnone
    next hhas => exact hhas
    next => simp at hnone

theorem scratchPos_isSome_of_scratchHas {l : Launch} {off n : Nat} (h : scratchHas l off n = true) (hn : n ≠ 0) :
    (scratchPos l off).isSome = true := by
  unfold scratchHas at h
  cases hpos : scratchPos l off with
  | none => simp [hpos, hn] at h
  | some a => rfl

/-- A byte beside the `n` that a lane writes from its offset, where the offset is in the scratchpad. -/
theorem beside_of_scratchHas {l : Launch} {off n p : Nat} (h : scratchHas l off n = true)
    (hp : p < (scratchPos l off).getD 0 ∨ (scratchPos l off).getD 0 + n ≤ p) :
    p < (scratchPos l off).getD off ∨ (scratchPos l off).getD off + n ≤ p := by
  by_cases hn : n = 0
  · omega
  · obtain ⟨a, ha⟩ := Option.isSome_iff_exists.mp (scratchPos_isSome_of_scratchHas h hn)
    rwa [ha] at hp ⊢

/-! ## What runs of LDS and STS leave -/

section Runs
variable {it : Item} {ty : Ty} {d : Opnd} {addr : State → Nat → Nat → Word} {s t : State} {i : Issue} {ex : Mask}

/-- An item that waits leaves everything as it was, and one that takes effect leaves everything as its body did. -/
theorem still_of_runItem {body : Issue → Mask → State → Body} {waits : Prop} [Decidable waits] {e : Effect} {u : State}
    (h : Issues it s i ex) (hbody : body i ex s = if waits then .wait else .done e u)
    (hrun : runItem it body s = .next t) : Still s t ∨ Still u t := by
  rw [runItem_issues h, hbody] at hrun
  by_cases hw : waits
  · rw [if_pos hw] at hrun
    cases hrun
    exact .inl (still_notIssued s)
  · rw [if_neg hw] at hrun
    cases hrun
    exact .inr (still_finishIssue ..)

section NoTx
variable (h : Issues it s i ex) (htx : ∀ l, ((grpAt s i.gid).thread l).tx.active = false)
  (hstream : namesStream it = false)
include h htx hstream

theorem still_of_lds
    (hfail : scratchFails (launchOf s i.gid) (bytesOf ty) (bytesOf ty) false (laneAddrs addr i ex s) = [])
    (hpoison : scratchPoisoned s i.gid (bytesOf ty) (laneAddrs addr i ex s) = [])
    (hrun : runItem it (ldsBody it ty d addr) s = .next t) : Still s t := by
  have hs := consumeAll_of_no_stream s i.gid hstream
  have hbody := ldsBody_of_checks (d := d) h hfail hpoison (by rw [hs]; exact readOverflow_of_no_tx htx ..)
  obtain hstill | hstill := still_of_runItem h hbody hrun
  · exact hstill
  · rw [hs, ldsLanes_of_no_tx htx] at hstill
    exact (still_bankAccess ..).trans hstill

theorem keepsBytes_of_sts
    (hfail : scratchFails (launchOf s i.gid) (bytesOf ty) (bytesOf ty) true (laneAddrs addr i ex s) = [])
    (hrun : runItem it (stsBody it ty d addr) s = .next t) :
    KeepsBytes (fun k p => k = (grpAt s i.gid).team → ∀ l ∈ lanes i ex s,
      let a := (scratchPos (launchOf s i.gid) (addr s i.gid l).toNat).getD 0
      p < a ∨ a + bytesOf ty ≤ p) s t := by
  have hs := consumeAll_of_no_stream s i.gid hstream
  have hbody := stsBody_of_checks (d := d) h hfail (by rw [hs]; exact writeOverflow_of_no_tx htx ..)
  rw [hs] at hbody
  obtain hstill | hstill := still_of_runItem h hbody hrun
  · exact hstill.keepsBytes
  · obtain ⟨cs, hcs⟩ := bankAccess_eq_cores s i.gid (bankLoad (bytesOf ty))
      ((bankWriters s i.gid (laneNats addr i ex s)).filter fun e => !((grpAt s i.gid).thread e.1).tx.active)
    rw [hcs] at hstill
    refine (still_cores s cs).keepsBytes.trans
      ((keepsBytes_stsLanes (s := { s with cores := cs }) _ htx fun e he p hp => ?_).trans hstill.keepsBytes)
    obtain ⟨l, hl, rfl⟩ := List.mem_map.mp he
    exact beside_of_scratchHas (scratchHas_of_scratchFails_nil hfail (List.mem_map_of_mem hl)) (hp rfl l hl)

end NoTx
end Runs

/-! ## The statement -/

/-- Settles O59: outside transactions STS writes its lanes' bytes, and LDS nothing, and the issue itself writes none. -/
theorem scratchpadAccessesKeepTheRest : Obligations.ScratchpadAccessesKeepTheRest := by
  unfold Obligations.ScratchpadAccessesKeepTheRest
  intro same stores loads
  have stores_of_body {ins it ty d addr} (hx : ∀ s, exec ins s = runItem it (stsBody it ty d addr) s) :
      stores ins it (bytesOf ty) addr := by
    intro s i ex t h htx hstream hfail hrun
    exact keepsBytes_of_sts h htx hstream hfail ((hx s).symm.trans hrun)
  have loads_of_body {ins it ty d addr} (hx : ∀ s, exec ins s = runItem it (ldsBody it ty d addr) s) :
      loads ins it (bytesOf ty) addr := by
    intro s i ex t h htx hstream hfail hpoison hrun
    obtain ⟨⟨hbm, host, parts, scratch⟩, regs, status, trap⟩ :=
      still_of_lds h htx hstream hfail hpoison ((hx s).symm.trans hrun)
    exact ⟨⟨hbm, host, parts, regs, status, trap⟩, fun k => (scratch k).symm⟩
  clear_value stores loads
  exact ⟨fun h ty sc d a b => stores_of_body fun _ => rfl, fun h ty d a imm => stores_of_body fun _ => rfl,
    fun h ty sc d a b => loads_of_body fun _ => rfl, fun h ty d a imm => loads_of_body fun _ => rfl⟩

end Sys2Proof.Machine
end

section
/-! PROOF. Updates.lean: CAS, RED, XRED, XFIN and BOFF of an item that issues, once its checks have passed (R152 to R158,
R277, R282). -/

namespace Sys2Proof.Machine

/-! ## An update after its checks (R152) -/

section Update
variable {it : Item} {u : UpdateHow} {addr : Opnd} {kind : State → Nat → Nat → SliceKind} {s : State} {i : Issue}
  {ex : Mask}

/-- The operations that the executing lanes of an update ask for. -/
def laneUpdates (addr : Opnd) (kind : State → Nat → Nat → SliceKind) (i : Issue) (ex : Mask) (s : State) :
    List (Nat × Nat × SliceKind) :=
  (lanes i ex s).map fun l => (l, (readOpnd s i.gid l addr).toNat, kind s i.gid l)

theorem filter_laneUpdates :
    (laneUpdates addr kind i ex s).filter (fun e => hasBit ex e.1) = laneUpdates addr kind i ex s :=
  filter_lanes _ _ (fun l => (l, (readOpnd s i.gid l addr).toNat, kind s i.gid l)) (fun e => e.1) fun _ => rfl

/-- The lanes and addresses of operations. -/
def updateAddrs (ks : List (Nat × Nat × SliceKind)) : List (Nat × Nat) := ks.map fun e => (e.1, e.2.1)

/-- Operations at the scratchpad without a release, done at once in ascending order of lane (R152 step 5). -/
def applyAtBanks (u : UpdateHow) (i : Issue) (ex : Mask) (s : State) (ks : List (Nat × Nat × SliceKind)) : Body :=
  let r := spApplyAll i.gid u.d ((lanesOf 64 ex).headD 0) s ks
  let b := bankAccess r.1 i.gid (fun as => (ks.map fun k => bankCycles k.2.2).headD 0 * as.length) (updateAddrs ks)
  .done { writes := r.2.1, fflags := r.2.2, least := b.2, holds := if u.acq then .all else .none } b.1

/-- Operations that leave for their slices, or wait behind the release (R152 steps 3 and 6). -/
def sendUpdates (u : UpdateHow) (i : Issue) (ex : Mask) (lid core : Nat) (s : State)
    (ks : List (Nat × Nat × SliceKind)) : Body :=
  let r := issueUpdates s i ex u ks
  .done
    { kind := .applied u.d r.2
      least := if u.sp then scratchLatency r.1 i.gid (updateAddrs ks) else sliceLatency r.1 lid core (updateAddrs ks)
      holds := if u.acq then .all else if u.sp then .scratch else .none } r.1

/-- What an update whose lanes have passed their checks answers for its operations, joined by cell: it waits for earlier
operations and for locks, or is signed and takes effect. -/
def updateAnswer (u : UpdateHow) (g : Group) (lid : Nat) (i : Issue) (ex : Mask)
    (js : State × List (Nat × Nat × SliceKind)) : Body :=
  let ats := updateAddrs js.2
  if heldUpdate js.1 i.gid u.n u.sp ats ||
      (!u.sp && ownHeld g (ats.map fun e => (e.1, e.2 / 32 * 32)) (max 32 u.n)) then .wait
  else if u.sp && u.rel.isNone then
    if scratchBlocked js.1 i.gid u.n (!u.rd) ats then .wait
    else applyAtBanks u i ex (js.2.foldl (signUpdate true lid g.team) js.1) js.2
  else sendUpdates u i ex lid g.core (js.2.foldl (signUpdate u.sp lid g.team) js.1) js.2

/-- The checks of an update (R67, R143, R152 steps 1 and 2): then it goes on with the operations of the lanes left. -/
theorem updateBody_eq : updateBody it u addr kind i ex s =
    let g := grpAt s i.gid
    let lid := lidOf s i.gid
    let as := laneAddrs (fun s gid l => readOpnd s gid l addr) i ex s
    let answer := fun (ex' : Mask) (t : State) => updateAnswer u g lid i ex' (joinCells (consumeAll t i.gid it) []
      ((laneUpdates addr kind i ex s).filter fun e => hasBit ex' e.1))
    if u.sp then
      let fs := scratchFails (launchAt s lid) u.n u.al (!u.rd) as
      checked i ex s (if fs.isEmpty && u.rel.isNone then scratchPoisoned s i.gid u.n as else fs) lowestFail answer
    else
      let fs := storeFails (launchAt s lid) u.n u.al u.rd (!u.rd) as
      let ok := as.filter fun e => fs.all fun f => f.1 ≠ e.1
      if freeEntries s g.core < (lanes i ex s).length then .wait
      else probed i ex s (probePages s lid g.core u.n ok) (!u.rd) fs answer := rfl

/-- With no earlier operation and no lock in the way, an update is signed and takes effect. -/
theorem updateAnswer_of_free {g : Group} {lid : Nat} {js : State × List (Nat × Nat × SliceKind)}
    (hheld : heldUpdate js.1 i.gid u.n u.sp (updateAddrs js.2) = false)
    (hown : u.sp = false → ownHeld g ((updateAddrs js.2).map fun e => (e.1, e.2 / 32 * 32)) (max 32 u.n) = false)
    (hlocks : u.sp = true → u.rel = none → scratchBlocked js.1 i.gid u.n (!u.rd) (updateAddrs js.2) = false) :
    let signed := js.2.foldl (signUpdate u.sp lid g.team) js.1
    updateAnswer u g lid i ex js =
      if u.sp = true ∧ u.rel = none then applyAtBanks u i ex signed js.2
      else sendUpdates u i ex lid g.core signed js.2 := by
  unfold updateAnswer
  cases hsp : u.sp with
  | false =>
    rw [hsp] at hheld
    simp [hheld, hown hsp]
  | true =>
    rw [hsp] at hheld
    cases hrel : u.rel with
    | none => simp [hheld, hlocks hsp hrel]
    | some sc => simp [hheld]

/-- An update of scratchpad whose lanes pass their checks goes on with all of them. -/
theorem updateBody_of_scratch_checks (h : Issues it s i ex) (hsp : u.sp = true)
    (hfail : scratchFails (launchAt s (lidOf s i.gid)) u.n u.al (!u.rd)
      (laneAddrs (fun s gid l => readOpnd s gid l addr) i ex s) = [])
    (hpoison : u.rel = none →
      scratchPoisoned s i.gid u.n (laneAddrs (fun s gid l => readOpnd s gid l addr) i ex s) = []) :
    updateBody it u addr kind i ex s = ranIn ex (updateAnswer u (grpAt s i.gid) (lidOf s i.gid) i ex
      (joinCells (consumeAll s i.gid it) [] (laneUpdates addr kind i ex s))) := by
  have no_poison : (if u.rel.isNone then
      scratchPoisoned s i.gid u.n (laneAddrs (fun s gid l => readOpnd s gid l addr) i ex s) else []) = [] := by
    cases hrel : u.rel with
    | none => exact hpoison hrel
    | some sc => rfl
  simp only [updateBody_eq, hsp, if_true, hfail, List.isEmpty_nil, Bool.true_and, no_poison,
    checked_nil lowestFail_nil (exec_ne_zero_of_issues h), filter_laneUpdates]
  rfl

/-- An update of memory whose lanes pass their checks, and whose pages are resident, goes on with all of them. -/
theorem updateBody_of_memory_checks (h : Issues it s i ex) (hsp : u.sp = false)
    (hfail : storeFails (launchAt s (lidOf s i.gid)) u.n u.al u.rd (!u.rd)
      (laneAddrs (fun s gid l => readOpnd s gid l addr) i ex s) = [])
    (hprobes : probesAnswered i s (probePages s (lidOf s i.gid) (grpAt s i.gid).core u.n
      (laneAddrs (fun s gid l => readOpnd s gid l addr) i ex s)))
    (hroom : (lanes i ex s).length ≤ freeEntries s (grpAt s i.gid).core) :
    updateBody it u addr kind i ex s = ranIn ex (updateAnswer u (grpAt s i.gid) (lidOf s i.gid) i ex
      (joinCells (consumeAll (clearProbes s i) i.gid it) [] (laneUpdates addr kind i ex s))) := by
  simp only [updateBody_eq, hsp, Bool.false_eq_true, if_false, hfail, List.all_nil, filter_const_true,
    Nat.not_lt.mpr hroom, probed_ok hprobes (exec_ne_zero_of_issues h), filter_laneUpdates]
  rfl

end Update

/-! ## The statement -/

/-- Settles O20: an update whose checks have passed is done at the banks or sent, and BOFF draws from each thread's
generator. -/
theorem updatesComplete : Obligations.UpdatesComplete := by
  unfold Obligations.UpdatesComplete
  intro updates
  have of_body {ins it u a kind} (hx : ∀ s, exec ins s = runItem it (updateBody it u a kind) s) :
      updates ins it u a kind := by
    intro s i ex h lid as s0 js at_ hchecks hheld hbanks signed
    have hown (hsp : u.sp = false) :
        ownHeld (grpAt s i.gid) (at_.map fun e => (e.1, e.2 / 32 * 32)) (max 32 u.n) = false := by
      rw [if_neg (ne_true_of_eq_false hsp)] at hchecks
      obtain ⟨-, -, -, hown⟩ := hchecks
      exact hown
    have hbody : updateBody it u a kind i ex s = ranIn ex (updateAnswer u (grpAt s i.gid) lid i ex js) := by
      cases hsp : u.sp with
      | false =>
        have hs0 : s0 = clearProbes s i := if_neg (ne_true_of_eq_false hsp)
        rw [if_neg (ne_true_of_eq_false hsp)] at hchecks
        obtain ⟨hfail, hprobes, hroom, -⟩ := hchecks
        exact (updateBody_of_memory_checks h hsp hfail hprobes hroom).trans (by rw [← hs0]; rfl)
      | true =>
        have hs0 : s0 = s := if_pos hsp
        rw [if_pos hsp] at hchecks
        exact (updateBody_of_scratch_checks h hsp hchecks fun hrel => (hbanks hsp hrel).1).trans
          (by simp only [js, hs0]; rfl)
    rw [updateAnswer_of_free hheld hown fun hsp hrel => (hbanks hsp hrel).2] at hbody
    rw [hx]
    split
    case isTrue hat => exact runItem_done h (hbody.trans (congrArg (ranIn ex) (if_pos hat)))
    case isFalse hat => exact runItem_done h (hbody.trans (congrArg (ranIn ex) (if_neg hat)))
  clear_value updates
  exact ⟨fun h ty sp ord sc d a b c => of_body fun _ => rfl, fun h op ty sp rel d a b => of_body fun _ => rfl,
    fun h cty sty sp a b => of_body fun _ => rfl, fun h ty rnd sp acq d a => of_body fun _ => rfl,
    fun h => takes_done fun _ => rfl, fun h => takes_done fun _ => rfl⟩

end Sys2Proof.Machine
end

section
/-! PROOF. LaneMoves.lean: moves, predicates, random draws and identity, class 0x1C0 (R181 to R185). -/

namespace Sys2Proof.Machine

/-! ## The statement -/

/-- Settles O12: each instruction runs its item, whose lanes compute the value stated; RAND steps its lanes' draws. -/
theorem movesComplete : Obligations.MovesComplete := by
  unfold Obligations.MovesComplete
  refine ⟨?mov, ?movi, ?movl, ?sel, ?plop, ?pget, ?pput, ?rand, ?getid⟩
  case mov => exact fun h ty d a => computesPure_of fun _ => rfl
  case movi => exact fun h d imm => computesPure_of fun _ => rfl
  case movl => exact fun h d imm => computesPure_of fun _ => rfl
  case sel => exact fun h ps d a b => computes_of fun _ => rfl
  case plop => exact fun h op pd pa pb => computesPred_of fun _ => rfl
  case pget => exact fun h d => computes_of fun _ => rfl
  case pput => exact fun h msk a => takes_done fun _ => rfl
  case rand => exact fun h ty d => takes_done fun _ => rfl
  case getid => exact fun h sel d => takes_done fun _ => rfl

end Sys2Proof.Machine
end

section
/-! PROOF. CrossLane.lean: shuffles, broadcasts, votes, matches, compaction, scans and reductions over the executing
lanes (R167 to R174). -/

namespace Sys2Proof.Machine

/-! ## SCAN and SRED (R173, R174) -/

/-- A scan or reduction takes effect in all its executing lanes, and consumes its stream sources. -/
theorem scanBody_eq_done (it : Item) (sred : Bool) (op : COp) (ty : Ty) (rnd : Rnd) (excl : Bool)
    (seg : Option (Fin 11)) (d a b : Opnd) (i : Issue) (ex : Mask) (s : State) :
    ∃ e, scanBody it sred op ty rnd excl seg d a b i ex s = .done e (consumeAll s i.gid it) ∧ e.ran = none := by
  unfold scanBody
  exact ⟨_, rfl, rfl⟩

/-- An instruction that runs an item with the body of a scan takes the effect that the body gives. -/
theorem exec_eq_of_scanBody {ins : Instr} {it : Item} {sred : Bool} {op : COp} {ty : Ty} {rnd : Rnd} {excl : Bool}
    {seg : Option (Fin 11)} {d a b : Opnd} {s : State} {i : Issue} {ex : Mask}
    (hx : exec ins s = runItem it (scanBody it sred op ty rnd excl seg d a b) s) (h : Issues it s i ex) :
    ∃ e, scanBody it sred op ty rnd excl seg d a b i ex s = .done e (consumeAll s i.gid it) ∧
      exec ins s = .next (finishIssue (consumeAll s i.gid it) i it ex e) := by
  obtain ⟨e, hdone, hran⟩ := scanBody_eq_done it sred op ty rnd excl seg d a b i ex s
  refine ⟨e, hdone, ?_⟩
  rw [hx, runItem_done h hdone, hran]
  rfl

/-! ## The statement -/

/-- Settles O10: each instruction reads its sources across the executing lanes, as the function named combines them. -/
theorem crossLaneCompletes : Obligations.CrossLaneCompletes := by
  unfold Obligations.CrossLaneCompletes
  refine ⟨?shfl, ?shfli, ?bcast, ?ballot, ?executing, ?live, ?vote, ?matchK, ?compact, ?scan, ?sred⟩
  case shfl => exact fun h wid mode seg d a b => crosses_of fun _ => rfl
  case shfli => exact fun h wid mode seg d a imm => crosses_of fun _ => rfl
  case bcast => exact fun h wid first d a b => crosses_of fun _ => rfl
  case ballot => exact fun h ps d => crosses_of fun _ => rfl
  case executing => exact fun h d => crosses_of fun _ => rfl
  case live => exact fun h d => crosses_of fun _ => rfl
  case vote => exact fun h op pd ps a => takes_done fun _ => rfl
  case matchK => exact fun h w32 d a => ⟨crosses_of fun _ => rfl, crosses_of fun _ => rfl⟩
  case compact => exact fun h ps d a => crosses_of fun _ => rfl
  case scan => exact fun h op ty rnd excl seg d a b i ex s hi => exec_eq_of_scanBody rfl hi
  case sred => exact fun h op ty rnd seg d a b i ex s hi => exec_eq_of_scanBody rfl hi

end Sys2Proof.Machine
end

section
/-! PROOF. Permutes.lean: PCFG, PERM and the arrival at REGROUP (R177 to R179). -/

namespace Sys2Proof.Machine

/-! ## PCFG (R177) -/

section Pcfg
variable {it : Item} {wid : Fin 4} {pcn : Fin 8} {a : Opnd} {i : Issue} {ex : Mask} {s : State}

/-- A scratchpad operand that is aligned, inside the scratchpad and not poisoned passes its checks. -/
theorem lowOffset_eq_ok {gid n : Nat} (aligned : (scalarOf s gid ex a).toNat % 8 = 0)
    (inside : scratchHas (launchOf s gid) (scalarOf s gid ex a).toNat n = true)
    (clean : scratchBad s (grpAt s gid).team (scalarOf s gid ex a).toNat n = false) :
    lowOffset s gid ex a n = .ok (scalarOf s gid ex a).toNat := by
  simp [lowOffset, aligned, inside, clean]

/-- PCFG whose set passes its checks, and is not locked, reads it through the banks. -/
theorem pcfgBody_eq_done {n off : Nat} (hn : benesBytes (log2 ((grpAt s i.gid).width * 2 ^ wid.val)) = n)
    (hoff : lowOffset s i.gid ex a n = .ok off)
    (unlocked : scratchBlocked s i.gid n false [((lanes i ex s).headD 0, off)] = false) :
    let bank := blockAccess (consumeAll s i.gid it) i.gid ((n + 255) / 256) off
    pcfgBody it wid pcn a i ex s = .done
      { kind := .pcfg pcn.val wid.val (BitVec.ofNat 4352 (scratchRead s (grpAt s i.gid).team off n))
        least := bank.2 } bank.1 := by
  have unlocked : scratchBlocked s i.gid n false [(lowLane (grpAt s i.gid) ex, off)] = false := unlocked
  simp only [pcfgBody, hn, hoff, unlocked, Bool.false_eq_true, if_false]

end Pcfg

/-! ## PERM (R178) -/

/-- With no PCFG to it in flight, PERM uses pcN as it stands. -/
theorem permCfg_of_none_in_flight {s : State} {gid n : Nat} (h : pcfgInFlight (grpAt s gid) n = []) :
    permCfg s gid n = (mapGet default (grpAt s gid).pcfg n, s) := by
  rw [permCfg, h, List.foldl_nil]

/-! ## REGROUP (R179) -/

theorem issueOf_eq_of_issues {it : Item} {s : State} {i : Issue} {ex : Mask} (h : Issues it s i ex) :
    issueOf s = i := by
  obtain ⟨⟨hissuing, -⟩, -⟩ := h
  rw [issueOf, hissuing, Option.getD_some]

/-- An item that may end threads takes its effect, and then what follows the end of threads. -/
theorem thenExits_runItem_done {it : Item} {body : Issue → Mask → State → Body} {s t : State} {i : Issue}
    {ex : Mask} {e : Effect} (h : Issues it s i ex) (hb : body i ex s = .done e t) :
    thenExits (issueOf s).gid (runItem it body s) =
      .next (groupExits (finishIssue t i it (e.ran.getD ex) e) i.gid) := by
  rw [issueOf_eq_of_issues h, runItem_done h hb, thenExits]

theorem exec_regroup (h : Hdr) (k : Fin 7) (d : Opnd) (s : State) :
    exec (.regroup h k d) s = thenExits (issueOf s).gid (runItem
      { hdr := h, cls := .other, dsts := [d], dstVs := true, txBad := true, specHold := true, guardExit := true }
      (regroupBody (k.val + 2) d) s) := rfl

/-- The group that arrives at a REGROUP is in a set: in one that has begun, or in the one that it begins. -/
def inRegroupSet (k : Nat) (i : Issue) (s : State) : State :=
  if (regroupSet (teamAt s (grpAt s i.gid).team) (grpAt s i.gid).gidx).isSome then s
  else modTeam s (grpAt s i.gid).team fun t =>
    { t with regroups := mapPut t.regroups (grpAt s i.gid).gidx (newSet t (grpAt s i.gid).gidx k) }

@[simp] theorem grpAt_inRegroupSet (k : Nat) (i : Issue) (s : State) (n : Nat) :
    grpAt (inRegroupSet k i s) n = grpAt s n := by
  unfold inRegroupSet
  split <;> rfl

theorem regroupBody_eq_done (k : Nat) (d : Opnd) (i : Issue) (ex : Mask) (s : State) :
    regroupBody k d i ex s = .done { kind := .regroup } (modGrp (inRegroupSet k i s) i.gid fun g =>
      g.modLanes ex fun _ t => { t with wait := .regroup k d }) := by
  cases hset : regroupSet (teamAt s (grpAt s i.gid).team) (grpAt s i.gid).gidx with
  | some set => simp only [regroupBody, inRegroupSet, hset, Option.isSome_some, if_true]
  | none => simp only [regroupBody, inRegroupSet, hset, Option.isSome_none, Bool.false_eq_true, if_false]

/-- Each executing thread of a group waits at its REGROUP. -/
theorem wait_of_arrived {k : Nat} {d : Opnd} {i : Issue} {ex : Mask} {s : State} {l : Nat}
    (hl : l < (grpAt s i.gid).threads.length) (hex : hasBit ex l = true) :
    ((grpAt (modGrp (inRegroupSet k i s) i.gid fun g =>
      g.modLanes ex fun _ t => { t with wait := .regroup k d }) i.gid).thread l).wait = .regroup k d := by
  rw [grpAt_modGrp_same, grpAt_inRegroupSet, thread_modLanes, if_pos ⟨hl, hex⟩]

/-! ## The statement -/

/-- Settles O11: PCFG reads its set once its checks have passed, PERM permutes through its configuration, and REGROUP
leaves its executing threads waiting. -/
theorem permutesAndRegroupComplete : Obligations.PermutesAndRegroupComplete := by
  unfold Obligations.PermutesAndRegroupComplete
  refine ⟨?pcfg, ?perm, fun s gid n => permCfg_of_none_in_flight, ?regroup⟩
  case pcfg =>
    intro h wid pcn a it off n bank
    exact takes_of (fun _ => rfl) fun s i ex _ ⟨aligned, inside, clean, unlocked⟩ =>
      pcfgBody_eq_done rfl (lowOffset_eq_ok aligned inside clean) unlocked
  case perm => exact fun h pcn d a => takes_done fun _ => rfl
  case regroup =>
    intro h k d s i ex it hi
    have hbody := regroupBody_eq_done (k.val + 2) d i ex s
    exact ⟨_, hbody, fun l => wait_of_arrived, (exec_regroup ..).trans (thenExits_runItem_done hi hbody)⟩

end Sys2Proof.Machine
end

section
/-! PROOF. TeamsAndSwitches.lean: dealing, placing, stealing, ending and regrouping teams, and switching and restoring
cores (R179, R346 to R350, R362 to R364, R408). -/

namespace Sys2Proof.Machine

/-! ## Dealing (R346) -/

/-- The next team of a running launch goes to the queue of the core whose turn it is, where that has room. -/
theorem dealTeam_of_room {s : State} {lid : Nat} {l : Launch} (hl : mapFind s.launches lid = some l)
    (hst : l.st = .running) (hshadow : l.shadow = none) (hmore : l.nextDeal < l.nteams)
    (hcores : dealCores s l ≠ []) :
    let cs := dealCores s l
    let core := cs.getD (l.nextCore % cs.length) 0
    (queuedTeams s core l.prio).length < Config.teamQueue →
    dealTeam s lid =
      let t := (freshId s).2
      let t := { t with teams := mapPut t.teams (freshId s).1 (newTeam lid l.nextDeal core l.isPair none) }
      some (pushTeam (modLaunch t lid fun l => { l with
        nextDeal := l.nextDeal + 1, nextCore := (l.nextCore + 1) % cs.length, teams := l.teams ++ [(freshId s).1] })
        core l.prio (freshId s).1) := by
  intro cs core hroom
  have may_deal : (!decide (l.st = .running) || l.shadow.isSome || decide (l.nteams ≤ l.nextDeal) ||
      (dealCores s l).isEmpty) = false := by
    simp [hst, hshadow, hmore, hcores]
  simp only [dealTeam, hl, may_deal, Nat.not_le.mpr hroom, Bool.false_eq_true, if_false, cs, core]

/-! ## Placing and stealing (R347 to R349) -/

section Place
variable {s : State} {core prio team : Nat} {rest : List Nat} {p : Placing}

/-- The head of a core's highest queue is placed, once no switch, no saved context and no earlier team keeps it. -/
theorem placeHead_of_findPlacing (hq : topQueue s core = some (prio, team :: rest))
    (hsw : (coreAt s core).switching = 0) (hpair : (coreAt s (core + 1)).switching = 0)
    (hsaved : savedFirst s core prio = false) (hdet : detWaits s team = false)
    (hp : findPlacing s (launchAt s (teamAt s team).lid) core = some p) :
    placeHead s core = some (placeTeam (unqueue s core team) team core p 200) := by
  simp [placeHead, hq, hsw, hpair, hsaved, hdet, hp]

/-- The teams whose placement is complete start together. -/
theorem startPlaced_of_placedAt (h : ∃ e ∈ s.teams, placedAt s core e.2 = true) :
    startPlaced s core = some { s with
      teams := s.teams.map fun e => (e.1, if placedAt s core e.2 then { e.2 with st := .running } else e.2) } :=
  if_pos (List.any_eq_true.mpr h)

/-- A core with empty queues takes the team of the first core that has one to steal. -/
theorem stealTeam_of_stealable {thief v : Nat} {vs : List Nat} (hq : topQueue s thief = none)
    (hon : coreEnabled s thief = true) (hsw : (coreAt s thief).switching = 0) (hv : victims thief = v :: vs)
    (h : stealable s thief v = some (team, p)) :
    stealTeam s thief = some (placeTeam (unqueue s v team) team thief p
      (200 + if clusterOf v = clusterOf thief then 40 else 120)) := by
  simp [stealTeam, hq, hon, hsw, hv, h]

end Place

/-! ## The end of a team (R350) -/

section End
variable {s : State} {team : Nat} {t : Team}

theorem teamAt_of_mapFind (h : mapFind s.teams team = some t) : teamAt s team = t := by
  rw [teamAt, mapGet, h, Option.getD_some]

/-- A team that runs or ends, of a launch that has not ended, takes the next step of R350. -/
theorem endTeam_eq_endStepOf (h : mapFind s.teams team = some t) (hst : t.st = .running ∨ t.st = .ending)
    (hlaunch : (launchAt s t.lid).st ≠ .ending) : endTeam s team = endStepOf s team := by
  rcases hst with hst | hst <;> simp [endTeam, h, hst, hlaunch]

theorem endStepOf_zero (h0 : (teamAt s team).endStep = 0) (hover : teamOver s team = true) :
    endStepOf s team = some (setEndStep s team 1 none) := by
  simp only [endStepOf, h0, hover, if_true]

theorem endStepOf_one (h1 : (teamAt s team).endStep = 1) (hquiet : teamQuiet s team = true) :
    endStepOf s team = some (setEndStep s team 2 none) := by
  simp only [endStepOf, h1, hquiet, if_true]

theorem endStepOf_two (h2 : (teamAt s team).endStep = 2) (happlied : teamApplied s team = true) :
    endStepOf s team = some (setEndStep (releaseCore s team (teamAt s team).core).1 team 3
      (releaseCore s team (teamAt s team).core).2) := by
  simp only [endStepOf, h2, happlied, if_true]

/-- A team of one core whose release is done has none to make on a second core. -/
theorem endStepOf_three (h3 : (teamAt s team).endStep = 3) (hrel : (teamAt s team).endRel = none)
    (hpair : (teamAt s team).pair = false) : endStepOf s team = some (setEndStep s team 4 none) := by
  simp [endStepOf, h3, hrel, hpair]

/-- A team of a launch that is not assayed is not sampled. -/
theorem sampleTeam_of_not_eligible (h : assayEligible s (launchAt s (teamAt s team).lid) = false) :
    sampleTeam s team = some s := by
  simp [sampleTeam, h]

theorem endStepOf_four (h4 : (teamAt s team).endStep = 4) (hrel : (teamAt s team).endRel = none)
    (hrerun : (teamAt s team).rerunOf = none)
    (hassay : assayEligible s (launchAt s (teamAt s team).lid) = false) :
    endStepOf s team = some (settleLaunch (setBit (freeTeam s team) (teamAt s team).lid (teamAt s team).index)
      (teamAt s team).lid) := by
  simp [endStepOf, h4, hrel, hrerun, sampleTeam_of_not_eligible hassay]

end End

/-! ## Dealing a regroup set (R179) -/

/-- A set of which every member is ready is dealt, in the order of its members. -/
theorem regroupDeal_of_ready {s : State} {team set gid : Nat} {members ms : List Nat} {ts : List (Thread × Opnd)}
    (hset : mapFind (teamAt s team).regroups set = some members) (hms : regroupMembers s team members = gid :: ms)
    (hready : ∀ m ∈ gid :: ms, regroupReady s m = true) (hts : survivors s (gid :: ms) = ts) :
    regroupDeal s team set =
      let width := (launchAt s (teamAt s team).lid).width
      let moved := (ts.map fun t => 8 * liveOf s gid t.1).foldl (· + ·) 0
      some (((gid :: ms).zipIdx).foldl (fun s e =>
        dealTo s e.1 ts.length ((ts.drop (e.2 * width)).take width))
        (enterBanks (modTeam s team fun t => { t with regroups := mapErase t.regroups set }) gid
          ((moved + 255) / 256 * 2) 0).1) := by
  have all_ready : (gid :: ms).all (regroupReady s) = true := List.all_eq_true.mpr hready
  simp only [regroupDeal, hset, hms, all_ready, hts, Bool.not_true, Bool.false_eq_true, if_false, List.headD_cons]

theorem execRegroupDeal_of_regroupDeal {s t : State} {team set : Nat} (h : regroupDeal s team set = some t) :
    execRegroupDeal team set s = .next ((teamAt t team).groups.foldl groupExits t) := by
  rw [execRegroupDeal, h]

/-! ## Switching and restoring cores (R362 to R364, R408) -/

section Switch
variable {s : State} {core : Nat} {cores : List Nat} {rest : List (List Nat)}

/-- A core that is not draining begins a switch of its first unit, for a higher priority or for the host. -/
theorem switchCore_begins (hdrain : draining s core = false) (hunits : switchUnits s core = cores :: rest)
    (hcan : switchable s cores = true) (hwhy : higherWaits s cores = true ∨ (coreAt s core).switchAsked = true) :
    switchCore s core = some (beginSwitch s cores) := by
  simp [switchCore, hdrain, hunits, hcan, hwhy]

theorem switchCore_saves (hdrain : draining s core = true) (hdone : unitDrained s (switchingUnit s core) = true) :
    switchCore s core = some (saveCores s (switchingUnit s core)) := by
  simp only [switchCore, hdrain, hdone, if_true]

theorem quantumExpiry_begins (hunits : switchUnits s core = cores :: rest) (hcan : switchable s cores = true)
    (hout : quantumOut s core = true) (hwait : equalWaits s cores = true) :
    quantumExpiry s core = some (beginSwitch s cores) := by
  simp [quantumExpiry, hunits, hcan, hout, hwait]

theorem quantumExpiry_of_time_left (h : quantumOut s core = false) : quantumExpiry s core = none := by
  simp [quantumExpiry, h]

theorem restoreCore_of_nextContext {x : Saved} (h : nextContext s core = some x) :
    restoreCore s core = some (restoreContext s core x) := by
  simp only [restoreCore, h]

end Switch

/-! ## The statement -/

/-- Settles O40: each event finds what it needs, and does what R346 to R350 and R362 to R364 say of it. -/
theorem teamsAndSwitchesComplete : Obligations.TeamsAndSwitchesComplete := by
  unfold Obligations.TeamsAndSwitchesComplete
  refine ⟨?deal, ?place, ?start, ?steal, ?ending, ?regroup, ?begins, ?save, ?quantum, ?timeLeft, ?restore⟩
  case deal =>
    intro s lid l hl hst hshadow hmore hcores cs core hroom
    exact next_getD_of_eq_some (dealTeam_of_room hl hst hshadow hmore hcores hroom)
  case place =>
    intro s core prio team rest p hq hsw hpair hsaved hdet hp hnone
    refine next_getD_of_eq_some ?_
    rw [hnone]
    exact placeHead_of_findPlacing hq hsw hpair hsaved hdet hp
  case start =>
    intro s core h
    refine next_getD_of_eq_some ?_
    rw [startPlaced_of_placedAt h]
    rfl
  case steal =>
    intro s thief v rest team p hq hon hsw hv h
    exact next_getD_of_eq_some (stealTeam_of_stealable hq hon hsw hv h)
  case ending =>
    intro s team t ht hst hlaunch
    have steps {u : State} (h : endStepOf s team = some u) : exec (.teamEnd team) s = .next u :=
      next_getD_of_eq_some ((endTeam_eq_endStepOf ht hst hlaunch).trans h)
    obtain rfl := teamAt_of_mapFind ht
    exact ⟨fun h0 h => steps (endStepOf_zero h0 h), fun h1 h => steps (endStepOf_one h1 h),
      fun h2 h => steps (endStepOf_two h2 h), fun h3 hrel hpair => steps (endStepOf_three h3 hrel hpair),
      fun h4 hrel hrerun hassay => steps (endStepOf_four h4 hrel hrerun hassay)⟩
  case regroup =>
    intro s team set members gid ms ts hset hms hready hts
    exact execRegroupDeal_of_regroupDeal (regroupDeal_of_ready hset hms hready hts)
  case begins =>
    exact fun s core cores rest hdrain hunits hcan hwhy =>
      next_getD_of_eq_some (switchCore_begins hdrain hunits hcan hwhy)
  case save => exact fun s core hdrain hdone => next_getD_of_eq_some (switchCore_saves hdrain hdone)
  case quantum =>
    exact fun s core cores rest hunits hcan hout hwait =>
      next_getD_of_eq_some (quantumExpiry_begins hunits hcan hout hwait)
  case timeLeft => exact fun s core h => next_getD_of_eq_none (quantumExpiry_of_time_left h)
  case restore => exact fun s core x h => next_getD_of_eq_some (restoreCore_of_nextContext h)

end Sys2Proof.Machine
end

section
/-! PROOF. ExactSums.lean: what an exact addition leaves in the value and in the status (R201), and that two additions
to an exact accumulator commute (R238). -/

namespace Sys2Proof.Machine

/-! ## Addition in an exact format (R201) -/

/-- The signed reading of the value bits differs from the value bits by a multiple of their range. -/
theorem ExactFmt.toInt_emod (x : ExactFmt) (v : Nat) :
    x.toInt v % (2 ^ x.vbits : Nat) = (v : Int) % (2 ^ x.vbits : Nat) := by
  unfold ExactFmt.toInt
  split
  · rfl
  · exact Int.sub_emod_right _ _

theorem ExactFmt.range_pos (x : ExactFmt) : (0 : Int) < (2 ^ x.vbits : Nat) :=
  Int.natCast_pos.mpr (Nat.two_pow_pos _)

/-- The value wraps modulo 2^(value bits). -/
theorem ExactFmt.add_fst (x : ExactFmt) (v st : Nat) (t : Int) :
    ((x.add v st t).1 : Int) = (v + t) % (2 ^ x.vbits : Nat) :=
  calc ((x.add v st t).1 : Int)
      = (x.toInt v + t) % (2 ^ x.vbits : Nat) := Int.toNat_of_nonneg (Int.emod_nonneg _ (Int.ne_of_gt x.range_pos))
    _ = (v + t) % (2 ^ x.vbits : Nat) := by rw [← Int.emod_add_emod, x.toInt_emod, Int.emod_add_emod]

theorem ExactFmt.add_fst_lt {x : ExactFmt} {n : Nat} (hn : x.vbits = n) (v st : Nat) (t : Int) :
    (x.add v st t).1 < 2 ^ n := by
  subst hn
  exact Int.ofNat_lt.mp (x.add_fst v st t ▸ Int.emod_lt_of_pos _ x.range_pos)

/-- An addition touches no status bit but GOVF, which is bit 3. -/
theorem ExactFmt.add_snd_mod_eight (x : ExactFmt) (v st : Nat) (t : Int) : (x.add v st t).2 % 8 = st % 8 := by
  simp only [ExactFmt.add]
  split
  · calc (st ||| 8) % 8
        = st % 8 ||| 8 % 8 := Nat.or_mod_two_pow (n := 3)
      _ = st % 8 := Nat.or_zero _
  · rfl

/-! ## The fields of an accumulator's image (R200) -/

theorem toNat_xaMake {v : Nat} (st : Nat) (hv : v < 2 ^ 4280) : (xaMake v st).toNat = v + st % 16 * 2 ^ 4280 := by
  have hwidth : 2 ^ 8 * 2 ^ 4280 = 2 ^ 4288 := by rw [← Nat.pow_add]
  have hst : st % 16 * 2 ^ 4280 ≤ 15 * 2 ^ 4280 := Nat.mul_le_mul_right _ (by omega)
  have hlt : v + st % 16 * 2 ^ 4280 < 2 ^ 8 * 2 ^ 4280 := by
    generalize 2 ^ 4280 = range at hv hst ⊢
    omega
  rw [xaMake, BitVec.toNat_ofNat, Nat.mod_eq_of_lt (Nat.lt_of_lt_of_eq hlt hwidth)]

theorem xaValue_xaMake {v : Nat} (st : Nat) (hv : v < 2 ^ 4280) : xaValue (xaMake v st) = v := by
  rw [xaValue, toNat_xaMake st hv, Nat.add_mul_mod_self_right, Nat.mod_eq_of_lt hv]

theorem xaStatus_xaMake {v : Nat} (st : Nat) (hv : v < 2 ^ 4280) : xaStatus (xaMake v st) = st % 16 := by
  have hpos : 0 < 2 ^ 4280 := Nat.two_pow_pos 4280
  rw [xaStatus, toNat_xaMake st hv, Nat.add_mul_div_right _ _ hpos, Nat.div_eq_of_lt hv, Nat.zero_add, Nat.mod_mod]

/-! ## Addition to an accumulator (R238) -/

theorem exactXa_add_fst_lt (v st : Nat) (t : Int) : (exactXa.add v st t).1 < 2 ^ 4280 :=
  ExactFmt.add_fst_lt (n := 4280) rfl v st t

/-- The value that an addition leaves depends on the terms' sum alone. -/
theorem xaValue_xaAdd (x : BitVec 4288) (t : Terms) :
    (xaValue (xaAdd x t) : Int) = (xaValue x + t.sum) % (2 ^ exactXa.vbits : Nat) := by
  rw [xaAdd, xaValue_xaMake _ (exactXa_add_fst_lt ..)]
  exact exactXa.add_fst ..

/-- NAN, PINF and NINF are sticky: the terms' bits are ORed in, and nothing else changes them. -/
theorem xaStatus_xaAdd_mod_eight (x : BitVec 4288) (t : Terms) :
    xaStatus (xaAdd x t) % 8 = xaStatus x % 8 ||| t.st % 8 := by
  rw [xaAdd, xaStatus_xaMake _ (exactXa_add_fst_lt ..), Nat.mod_mod_of_dvd _ (by decide : 8 ∣ 16),
    ExactFmt.add_snd_mod_eight]
  exact Nat.or_mod_two_pow (n := 3)

theorem xaValue_xaAdd_xaAdd (x : BitVec 4288) (t u : Terms) :
    (xaValue (xaAdd (xaAdd x t) u) : Int) = (xaValue x + (t.sum + u.sum)) % (2 ^ exactXa.vbits : Nat) := by
  rw [xaValue_xaAdd, xaValue_xaAdd, Int.emod_add_emod, Int.add_assoc]

theorem xaStatus_xaAdd_xaAdd_mod_eight (x : BitVec 4288) (t u : Terms) :
    xaStatus (xaAdd (xaAdd x t) u) % 8 = xaStatus x % 8 ||| (t.st % 8 ||| u.st % 8) := by
  rw [xaStatus_xaAdd_mod_eight, xaStatus_xaAdd_mod_eight, Nat.or_assoc]

/-! ## The statement -/

/-- Settles O9: both orders leave the value plus the two sums, wrapped, and the union of the status bits. -/
theorem exactSumsCommute : Obligations.ExactSumsCommute := by
  unfold Obligations.ExactSumsCommute
  intro x t u _ _
  constructor
  · have h : (xaValue (xaAdd (xaAdd x t) u) : Int) = xaValue (xaAdd (xaAdd x u) t) := by
      rw [xaValue_xaAdd_xaAdd, xaValue_xaAdd_xaAdd, Int.add_comm t.sum]
    exact Int.ofNat_inj.mp h
  · rw [xaStatus_xaAdd_xaAdd_mod_eight, xaStatus_xaAdd_xaAdd_mod_eight, Nat.or_comm (t.st % 8)]

end Sys2Proof.Machine
end

section
/-! PROOF. IntegerValues.lean: integer values as bit vectors (R161, R192), and the integer instructions of class 0x040
(R208 to R213). -/

namespace Sys2Proof.Machine

/-! ## The low bits of a register as a bit vector -/

theorem bits_zero_eq_toNat (w : Nat) (x : Word) : bits x.toNat 0 w = (x.setWidth w).toNat := by
  rw [bits, Nat.shiftRight_zero, BitVec.toNat_setWidth]

theorem intOf_unsigned (w n : Nat) : intOf false w n = n := rfl

/-- The signed reading of `w` bits is that of two's complement (R192). -/
theorem intOf_signed {w : Nat} (hw : 0 < w) (x : BitVec w) : intOf true w x.toNat = x.toInt := by
  have hpow : 2 ^ w = 2 * 2 ^ (w - 1) := by rw [← Nat.pow_succ', Nat.succ_eq_add_one, Nat.sub_add_cancel hw]
  have hhalf : 2 ^ (w - 1) ≤ x.toNat ↔ ¬2 * x.toNat < 2 ^ w := by omega
  rw [intOf, BitVec.toInt_eq_toNat_cond]
  by_cases h : 2 * x.toNat < 2 ^ w <;> simp [h, hhalf]

theorem readInt_signed {ty : Ty} {w : Nat} (hs : ty.signed = true) (hw : ty.w = w) (h0 : 0 < w) (x : Word) :
    readInt ty x = (x.setWidth w).toInt := by
  rw [readInt, hs, hw, bits_zero_eq_toNat, intOf_signed h0]

theorem readInt_unsigned {ty : Ty} {w : Nat} (hs : ty.signed = false) (hw : ty.w = w) (x : Word) :
    readInt ty x = (x.setWidth w).toNat := by
  rw [readInt, hs, hw, bits_zero_eq_toNat, intOf_unsigned]

/-! ## Results (R161) -/

/-- Without SAT, an exact integer wraps. -/
theorem ofNat_narrow_wrap (signed : Bool) (w : Nat) (t : Int) :
    BitVec.ofNat w (narrow signed false w t) = BitVec.ofInt w t := by
  have hpos : (0 : Int) < (2 ^ w : Nat) := Int.natCast_pos.mpr (Nat.two_pow_pos w)
  have hlt : (t % (2 ^ w : Nat)).toNat < 2 ^ w := by
    have := Int.emod_lt_of_pos t hpos
    have := Int.emod_nonneg t (Int.ne_of_gt hpos)
    omega
  apply BitVec.eq_of_toNat_eq
  rw [BitVec.toNat_ofNat, BitVec.toNat_ofInt]
  exact Nat.mod_eq_of_lt hlt

theorem extend_signed {ty : Ty} {w : Nat} (hs : ty.signed = true) (hw : ty.w = w) (hle : w ≤ 64) (n : Nat) :
    extend ty n = (BitVec.ofNat w n).signExtend 64 := by
  rw [extend, if_pos hs, sextW, hw, BitVec.setWidth_ofNat_of_le hle]

theorem extend_unsigned {ty : Ty} {w : Nat} (hs : ty.signed = false) (hw : ty.w = w) (hle : w ≤ 64) (n : Nat) :
    extend ty n = (BitVec.ofNat w n).setWidth 64 := by
  rw [extend, if_neg (ne_true_of_eq_false hs), zextW, hw, BitVec.setWidth_ofNat_of_le hle]

theorem intResult_signed {ty : Ty} {w : Nat} (hs : ty.signed = true) (hw : ty.w = w) (hle : w ≤ 64) (t : Int) :
    intResult ty false t = (BitVec.ofInt w t).signExtend 64 := by
  rw [intResult, extend_signed hs hw hle, hw, ofNat_narrow_wrap]

theorem intResult_unsigned {ty : Ty} {w : Nat} (hs : ty.signed = false) (hw : ty.w = w) (hle : w ≤ 64) (t : Int) :
    intResult ty false t = (BitVec.ofInt w t).setWidth 64 := by
  rw [intResult, extend_unsigned hs hw hle, hw, ofNat_narrow_wrap]

/-- SAT clamps the exact integer to the type, and what is left cannot wrap. -/
theorem intResult_sat (ty : Ty) (t : Int) :
    intResult ty true t = intResult ty false (min (max t (lowest ty.signed ty.w)) (highest ty.signed ty.w)) := rfl

theorem signExtend_ofInt {w : Nat} {t : Int} (hw : 0 < w) (hle : w ≤ 64) (hlo : -2 ^ (w - 1) ≤ t)
    (hhi : t < 2 ^ (w - 1)) : (BitVec.ofInt w t).signExtend 64 = BitVec.ofInt 64 t := by
  apply BitVec.eq_of_toInt_eq
  rw [BitVec.toInt_signExtend_of_le hle, BitVec.toInt_ofInt_eq_self hw hlo hhi]
  have hmono : (2 : Int) ^ (w - 1) ≤ 2 ^ (64 - 1) := by
    exact_mod_cast Nat.pow_le_pow_right (by decide : 0 < 2) (Nat.sub_le_sub_right hle 1)
  exact (BitVec.toInt_ofInt_eq_self (by decide) (by omega) (by omega)).symm

theorem setWidth_ofInt_of_lt {w : Nat} {t : Int} (hle : w ≤ 64) (h0 : 0 ≤ t) (hlt : t < (2 ^ w : Nat)) :
    (BitVec.ofInt w t).setWidth 64 = BitVec.ofInt 64 t := by
  obtain ⟨n, rfl⟩ := Int.eq_ofNat_of_zero_le h0
  exact BitVec.setWidth_ofNat_of_le_of_lt hle (Int.ofNat_lt.mp hlt)

/-! ## Saturated results of 32 and 64 bits (R208) -/

/-- Clamped to a signed type's range, the exact integer is the same read in 64 bits. -/
theorem intResult_signed_sat {ty : Ty} {w : Nat} (hs : ty.signed = true) (hw : ty.w = w) (h0 : 0 < w) (hle : w ≤ 64)
    {lo hi : Int} (hlo : lowest ty.signed ty.w = lo) (hhi : highest ty.signed ty.w = hi) (t : Int) :
    intResult ty true t = BitVec.ofInt 64 (min (max t lo) hi) := by
  have hlow : -(2 ^ (w - 1) : Int) = lo := by rw [← hlo, hs, hw]; simp [lowest]
  have hhigh : (2 ^ (w - 1) : Int) - 1 = hi := by rw [← hhi, hs, hw]; simp [highest]
  have hpos : (0 : Int) < 2 ^ (w - 1) := Int.pow_pos (by decide)
  rw [intResult_sat, intResult_signed hs hw hle, hlo, hhi]
  exact signExtend_ofInt h0 hle (by omega) (by omega)

/-- Clamped to an unsigned type's range, the exact integer is the same read in 64 bits. -/
theorem intResult_unsigned_sat {ty : Ty} {w : Nat} (hs : ty.signed = false) (hw : ty.w = w) (hle : w ≤ 64) {hi : Int}
    (hhi : highest ty.signed ty.w = hi) (t : Int) :
    intResult ty true t = BitVec.ofInt 64 (min (max t 0) hi) := by
  have hlow : lowest ty.signed ty.w = 0 := by rw [hs]; rfl
  have hhigh : ((2 ^ w : Nat) : Int) - 1 = hi := by rw [← hhi, hs, hw]; simp [highest]
  have hpos : 0 < 2 ^ w := Nat.two_pow_pos w
  rw [intResult_sat, intResult_unsigned hs hw hle, hlow, hhi]
  exact setWidth_ofInt_of_lt hle (by omega) (by omega)

/-! ## Division (R210) -/

theorem fst_idivOp (ty : Ty) (a b : Word) :
    (idivOp ty a b).1 = if readInt ty b = 0 then intResult ty false (-1)
      else intResult ty false ((readInt ty a).tdiv (readInt ty b)) := by
  simp only [idivOp, apply_ite Prod.fst]

theorem snd_idivOp (ty : Ty) (a b : Word) : (idivOp ty a b).2 = if readInt ty b = 0 then ffIDZ else 0 := by
  simp only [idivOp, apply_ite Prod.snd]

theorem fst_iremOp (ty : Ty) (a b : Word) :
    (iremOp ty a b).1 = if readInt ty b = 0 then intResult ty false (readInt ty a)
      else intResult ty false ((readInt ty a).tmod (readInt ty b)) := by
  simp only [iremOp, apply_ite Prod.fst]

theorem snd_iremOp (ty : Ty) (a b : Word) : (iremOp ty a b).2 = if readInt ty b = 0 then ffIDZ else 0 := by
  simp only [iremOp, apply_ite Prod.snd]

/-- The L form of LEA does not shift (R213). -/
theorem leaOp_zero (a b : Word) : leaOp 0 a b = a + b := by rw [leaOp, BitVec.shiftLeft_zero]

/-! ## The statements -/

/-- Settles O1: each instruction runs its item, whose lanes compute the value stated. -/
theorem integerArithmeticCompletes : Obligations.IntegerArithmeticCompletes := by
  unfold Obligations.IntegerArithmeticCompletes
  refine ⟨?iaddS, ?iaddL, ?isubS, ?isubL, ?imulS, ?imulL, ?imulh, ?imad, ?idiv, ?irem, ?reads, ?wraps, ?clamps⟩
  case iaddS => exact fun h ty sat d a b => computesPure_of fun _ => rfl
  case iaddL => exact fun h ty sat d a imm => computesPure_of fun _ => rfl
  case isubS => exact fun h ty sat d a b => computesPure_of fun _ => rfl
  case isubL => exact fun h ty sat d a imm => computesPure_of fun _ => rfl
  case imulS => exact fun h ty sat d a b => computesPure_of fun _ => rfl
  case imulL => exact fun h ty sat d a imm => computesPure_of fun _ => rfl
  case imulh => exact fun h ty d a b => computesPure_of fun _ => rfl
  case imad => exact fun h ty d a b c => computesPure_of fun _ => rfl
  case idiv =>
    exact fun h ty d a b =>
      computes_div (fn := fun _ xs => idivOp ty (src xs 0) (src xs 1)) (fun _ => rfl) (fun _ _ _ => fst_idivOp ..)
        (fun _ _ _ => snd_idivOp ..)
  case irem =>
    exact fun h ty d a b =>
      computes_div (fn := fun _ xs => iremOp ty (src xs 0) (src xs 1)) (fun _ => rfl) (fun _ _ _ => fst_iremOp ..)
        (fun _ _ _ => snd_iremOp ..)
  case reads =>
    intro x
    refine ⟨?_, ?_, readInt_signed rfl rfl (by decide) x, readInt_unsigned rfl rfl x⟩
    · rw [readInt_signed (ty := .i64) (w := 64) rfl rfl (by decide), BitVec.setWidth_eq]
    · rw [readInt_unsigned (ty := .n64) (w := 64) rfl rfl, BitVec.setWidth_eq]
  case wraps =>
    intro t
    refine ⟨?_, ?_, intResult_signed rfl rfl (by decide) t, intResult_unsigned rfl rfl (by decide) t⟩
    · rw [intResult_signed (ty := .i64) (w := 64) rfl rfl (by decide), BitVec.signExtend_eq]
    · rw [intResult_unsigned (ty := .n64) (w := 64) rfl rfl (by decide), BitVec.setWidth_eq]
  case clamps =>
    exact fun t => ⟨intResult_signed_sat rfl (w := 64) rfl (by decide) (by decide) rfl rfl t,
      intResult_unsigned_sat rfl (w := 64) rfl (by decide) rfl t,
      intResult_signed_sat rfl (w := 32) rfl (by decide) (by decide) rfl rfl t,
      intResult_unsigned_sat rfl (w := 32) rfl (by decide) rfl t⟩

/-- Settles O2: each instruction runs its item, whose lanes compute the value or the condition stated. -/
theorem integerComparisonCompletes : Obligations.IntegerComparisonCompletes := by
  unfold Obligations.IntegerComparisonCompletes
  refine ⟨?iminS, ?iminL, ?imaxS, ?imaxL, ?iabs, ?ineg, ?icmpS, ?icmpL, ?leaS, ?leaL⟩
  case iminS => exact fun h ty d a b => computesPure_of fun _ => rfl
  case iminL => exact fun h ty d a imm => computesPure_of fun _ => rfl
  case imaxS => exact fun h ty d a b => computesPure_of fun _ => rfl
  case imaxL => exact fun h ty d a imm => computesPure_of fun _ => rfl
  case iabs => exact fun h ty sat d a => computesPure_of fun _ => rfl
  case ineg => exact fun h ty sat d a => computesPure_of fun _ => rfl
  case icmpS =>
    exact fun h ty pd a b => ⟨computesPred_of fun _ => rfl, computesPred_of fun _ => rfl, computesPred_of fun _ => rfl,
      computesPred_of fun _ => rfl, computesPred_of fun _ => rfl, computesPred_of fun _ => rfl⟩
  case icmpL => exact fun h ty cond pd a imm => computesPred_of fun _ => rfl
  case leaS => exact fun h ty sh d a b => computesPure_of fun _ => rfl
  case leaL => exact fun h ty d a imm => computesPure_of fun _ => by simp only [← leaOp_zero]; rfl

end Sys2Proof.Machine
end

section
/-! PROOF. BitInstructions.lean: the bit instructions of class 0x080 as operations on bit vectors (R215 to R218). -/

namespace Sys2Proof.Machine

/-! ## Shifts (R215) -/

/-- A count of `w` or more shifts in copies of the sign, as a count of `w` does. -/
theorem sshiftRight_min {w : Nat} (x : BitVec w) (q : Nat) : x.sshiftRight (min q w) = x.sshiftRight q := by
  rcases Nat.le_total q w with h | h
  · rw [Nat.min_eq_left h]
  · rw [Nat.min_eq_right h]
    ext i hi
    rw [BitVec.getElem_sshiftRight, BitVec.getElem_sshiftRight, dif_neg (by omega), dif_neg (by omega)]

theorem ofNat_narrow_sshiftRight {w : Nat} (h0 : 0 < w) (x : BitVec w) (q : Nat) :
    BitVec.ofNat w (narrow true false w (intOf true w x.toNat / (2 ^ min q w : Nat))) = x.sshiftRight q := by
  rw [ofNat_narrow_wrap, intOf_signed h0, ← Int.shiftRight_eq_div_pow, ← BitVec.sshiftRight_eq, sshiftRight_min]

theorem ofNat_shiftLeft {w : Nat} (x : BitVec w) (q : Nat) :
    BitVec.ofNat w (if q < w then x.toNat <<< q % 2 ^ w else 0) = x <<< q := by
  split
  · exact BitVec.eq_of_toNat_eq (by rw [BitVec.toNat_ofNat, Nat.mod_mod, BitVec.toNat_shiftLeft])
  · exact (BitVec.shiftLeft_eq_zero (by omega)).symm

theorem ofNat_shiftRight {w : Nat} (x : BitVec w) (q : Nat) :
    BitVec.ofNat w (if q < w then x.toNat >>> q else 0) = x >>> q := by
  split
  · apply BitVec.eq_of_toNat_eq
    rw [BitVec.toNat_ofNat, ← BitVec.toNat_ushiftRight, Nat.mod_eq_of_lt (x >>> q).isLt]
  · exact (BitVec.ushiftRight_eq_zero (by omega)).symm

/-- The bits that leave at the bottom come in at the top, where the shifted value has none. -/
theorem ofNat_rotateRight {w : Nat} (x : BitVec w) (q : Nat) :
    BitVec.ofNat w ((x.toNat >>> (q % w) + x.toNat <<< (w - q % w)) % 2 ^ w) = x.rotateRight q := by
  have hlow : x.toNat >>> (q % w) < 2 ^ (w - q % w) := by
    rcases Nat.eq_zero_or_pos w with rfl | hw
    · simp [BitVec.of_length_zero]
    · have hsplit : 2 ^ (q % w) * 2 ^ (w - q % w) = 2 ^ w := by
        rw [← Nat.pow_add, Nat.add_sub_cancel' (Nat.le_of_lt (Nat.mod_lt q hw))]
      rw [Nat.shiftRight_eq_div_pow, Nat.div_lt_iff_lt_mul (Nat.two_pow_pos _), Nat.mul_comm, hsplit]
      exact x.isLt
  have hle : x.toNat >>> (q % w) < 2 ^ w :=
    Nat.lt_of_lt_of_le hlow (Nat.pow_le_pow_right (by decide) (Nat.sub_le ..))
  apply BitVec.eq_of_toNat_eq
  rw [BitVec.toNat_ofNat, Nat.mod_mod, BitVec.toNat_rotateRight, Nat.add_comm,
    Nat.shiftLeft_add_eq_or_of_lt hlow, Nat.or_mod_two_pow, Nat.mod_eq_of_lt hle, Nat.or_comm]

section Shift
variable {ty : Ty} {w : Nat} (hw : ty.w = w) (hle : w ≤ 64) (a q : Word)
include hw hle

theorem shiftOp_shl (hs : ty.signed = false) :
    shiftOp .shl ty a q = (a.setWidth w <<< q).setWidth 64 := by
  simp only [shiftOp, hw, bits_zero_eq_toNat, extend_unsigned hs hw hle, ofNat_shiftLeft]
  rfl

theorem shiftOp_shr (hs : ty.signed = false) :
    shiftOp .shr ty a q = (a.setWidth w >>> q).setWidth 64 := by
  simp only [shiftOp, hw, bits_zero_eq_toNat, extend_unsigned hs hw hle, ofNat_shiftRight]
  rfl

theorem shiftOp_sar (hs : ty.signed = true) (h0 : 0 < w) :
    shiftOp .sar ty a q = ((a.setWidth w).sshiftRight q.toNat).signExtend 64 := by
  simp only [shiftOp, hw, bits_zero_eq_toNat, extend_signed hs hw hle, ofNat_narrow_sshiftRight h0]

theorem shiftOp_rot (hs : ty.signed = false) :
    shiftOp .rot ty a q = ((a.setWidth w).rotateRight q.toNat).setWidth 64 := by
  simp only [shiftOp, hw, bits_zero_eq_toNat, extend_unsigned hs hw hle, ofNat_rotateRight]

end Shift

theorem shiftOp_shl_n64 (a q : Word) : shiftOp .shl .n64 a q = a <<< q := by
  rw [shiftOp_shl (w := 64) rfl (by decide) a q rfl, BitVec.setWidth_eq, BitVec.setWidth_eq]

theorem shiftOp_shr_n64 (a q : Word) : shiftOp .shr .n64 a q = a >>> q := by
  rw [shiftOp_shr (w := 64) rfl (by decide) a q rfl, BitVec.setWidth_eq, BitVec.setWidth_eq]

theorem shiftOp_sar_i64 (a q : Word) : shiftOp .sar .i64 a q = a.sshiftRight q.toNat := by
  rw [shiftOp_sar (w := 64) rfl (by decide) a q rfl (by decide), BitVec.setWidth_eq, BitVec.signExtend_eq]

theorem shiftOp_rot_n64 (a q : Word) : shiftOp .rot .n64 a q = a.rotateRight q.toNat := by
  rw [shiftOp_rot (w := 64) rfl (by decide) a q rfl, BitVec.setWidth_eq, BitVec.setWidth_eq]

/-! ## The instructions -/

/-- A lane's result may be stated in other words. -/
theorem computesPure_congr {ins : Instr} {it : Item} {d : Opnd} {f f' : List Word → Word}
    (h : ComputesPure ins it d f) (hf : ∀ xs, f xs = f' xs) : ComputesPure ins it d f' :=
  funext hf ▸ h

section Instructions
variable (h : Hdr) (ty : Ty) (d a b : Opnd) (imm : Word)

theorem computesPure_shlS : ComputesPure (.shlS h ty d a b) (aItem h [a, b] d) d
    fun xs => shiftOp .shl ty (src xs 0) (src xs 1) := computesPure_of fun _ => rfl
theorem computesPure_shlL : ComputesPure (.shlL h ty d a imm) (aItem h [a] d) d
    fun xs => shiftOp .shl ty (src xs 0) imm := computesPure_of fun _ => rfl
theorem computesPure_shrS : ComputesPure (.shrS h ty d a b) (aItem h [a, b] d) d
    fun xs => shiftOp .shr ty (src xs 0) (src xs 1) := computesPure_of fun _ => rfl
theorem computesPure_shrL : ComputesPure (.shrL h ty d a imm) (aItem h [a] d) d
    fun xs => shiftOp .shr ty (src xs 0) imm := computesPure_of fun _ => rfl
theorem computesPure_sarS : ComputesPure (.sarS h ty d a b) (aItem h [a, b] d) d
    fun xs => shiftOp .sar ty (src xs 0) (src xs 1) := computesPure_of fun _ => rfl
theorem computesPure_sarL : ComputesPure (.sarL h ty d a imm) (aItem h [a] d) d
    fun xs => shiftOp .sar ty (src xs 0) imm := computesPure_of fun _ => rfl
theorem computesPure_rotS : ComputesPure (.rotS h ty d a b) (aItem h [a, b] d) d
    fun xs => shiftOp .rot ty (src xs 0) (src xs 1) := computesPure_of fun _ => rfl
theorem computesPure_rotL : ComputesPure (.rotL h ty d a imm) (aItem h [a] d) d
    fun xs => shiftOp .rot ty (src xs 0) imm := computesPure_of fun _ => rfl

end Instructions

/-! ## The statement -/

/-- Settles O3: each instruction runs its item, whose lanes shift as bit vectors do. -/
theorem bitwiseAndShiftsComplete : Obligations.BitwiseAndShiftsComplete := by
  unfold Obligations.BitwiseAndShiftsComplete
  refine ⟨?bitwiseS, ?bitwiseL, ?shlS64, ?shlL64, ?shrS64, ?shrL64, ?sarS64, ?sarL64, ?rotS64, ?rotL64,
    ?shlS32, ?shlL32, ?shrS32, ?shrL32, ?sarS32, ?sarL32, ?rotS32, ?rotL32⟩
  case bitwiseS =>
    exact fun h ty d a b => ⟨computesPure_of fun _ => rfl, computesPure_of fun _ => rfl, computesPure_of fun _ => rfl,
      computesPure_of fun _ => rfl⟩
  case bitwiseL =>
    exact fun h ty d a imm => ⟨computesPure_of fun _ => rfl, computesPure_of fun _ => rfl, computesPure_of fun _ => rfl,
      computesPure_of fun _ => rfl⟩
  case shlS64 => exact fun h d a b => computesPure_congr (computesPure_shlS h .n64 d a b) fun _ => shiftOp_shl_n64 ..
  case shlL64 =>
    exact fun h d a imm => computesPure_congr (computesPure_shlL h .n64 d a imm) fun _ => shiftOp_shl_n64 ..
  case shrS64 => exact fun h d a b => computesPure_congr (computesPure_shrS h .n64 d a b) fun _ => shiftOp_shr_n64 ..
  case shrL64 =>
    exact fun h d a imm => computesPure_congr (computesPure_shrL h .n64 d a imm) fun _ => shiftOp_shr_n64 ..
  case sarS64 => exact fun h d a b => computesPure_congr (computesPure_sarS h .i64 d a b) fun _ => shiftOp_sar_i64 ..
  case sarL64 =>
    exact fun h d a imm => computesPure_congr (computesPure_sarL h .i64 d a imm) fun _ => shiftOp_sar_i64 ..
  case rotS64 => exact fun h d a b => computesPure_congr (computesPure_rotS h .n64 d a b) fun _ => shiftOp_rot_n64 ..
  case rotL64 =>
    exact fun h d a imm => computesPure_congr (computesPure_rotL h .n64 d a imm) fun _ => shiftOp_rot_n64 ..
  case shlS32 =>
    exact fun h d a b => computesPure_congr (computesPure_shlS h .n32 d a b) fun _ =>
      shiftOp_shl (w := 32) rfl (by decide) _ _ rfl
  case shlL32 =>
    exact fun h d a imm => computesPure_congr (computesPure_shlL h .n32 d a imm) fun _ =>
      shiftOp_shl (w := 32) rfl (by decide) _ _ rfl
  case shrS32 =>
    exact fun h d a b => computesPure_congr (computesPure_shrS h .n32 d a b) fun _ =>
      shiftOp_shr (w := 32) rfl (by decide) _ _ rfl
  case shrL32 =>
    exact fun h d a imm => computesPure_congr (computesPure_shrL h .n32 d a imm) fun _ =>
      shiftOp_shr (w := 32) rfl (by decide) _ _ rfl
  case sarS32 =>
    exact fun h d a b => computesPure_congr (computesPure_sarS h .i32 d a b) fun _ =>
      shiftOp_sar (w := 32) rfl (by decide) _ _ rfl (by decide)
  case sarL32 =>
    exact fun h d a imm => computesPure_congr (computesPure_sarL h .i32 d a imm) fun _ =>
      shiftOp_sar (w := 32) rfl (by decide) _ _ rfl (by decide)
  case rotS32 =>
    exact fun h d a b => computesPure_congr (computesPure_rotS h .n32 d a b) fun _ =>
      shiftOp_rot (w := 32) rfl (by decide) _ _ rfl
  case rotL32 =>
    exact fun h d a imm => computesPure_congr (computesPure_rotL h .n32 d a imm) fun _ =>
      shiftOp_rot (w := 32) rfl (by decide) _ _ rfl

end Sys2Proof.Machine
end

section
/-! PROOF. BitFields.lean: the double-width shift, bit fields, and counts of class 0x080 as operations on bit vectors
(R216 to R218). -/

namespace Sys2Proof.Machine

/-! ## The double-width shift (R216) -/

theorem toNat_append_eq {w : Nat} (x y : BitVec w) : x.toNat * 2 ^ w + y.toNat = (x ++ y).toNat := by
  rw [BitVec.toNat_append, ← Nat.shiftLeft_add_eq_or_of_lt y.isLt, Nat.shiftLeft_eq]

section Shf
variable {ty : Ty} {w : Nat} (hw : ty.w = w) (a b c : Word)
include hw

theorem shfOp_right : shfOp ty false a b c =
    (((a.setWidth w ++ b.setWidth w) >>> (c.toNat % w)).setWidth w).setWidth 64 := by
  apply BitVec.eq_of_toNat_eq
  simp only [shfOp, hw, bits_zero_eq_toNat, toNat_append_eq, Bool.false_eq_true, if_false]
  simp only [bits, Nat.shiftRight_zero, BitVec.toNat_ofNat, BitVec.toNat_setWidth, BitVec.toNat_ushiftRight]

theorem shfOp_left : shfOp ty true a b c =
    (((a.setWidth w ++ b.setWidth w) <<< (c.toNat % w)).extractLsb' w w).setWidth 64 := by
  apply BitVec.eq_of_toNat_eq
  simp only [shfOp, hw, bits_zero_eq_toNat, toNat_append_eq, if_true]
  simp only [bits, BitVec.toNat_ofNat, BitVec.toNat_setWidth, BitVec.toNat_shiftLeft, BitVec.extractLsb'_toNat,
    Nat.shiftRight_eq_div_pow, Nat.pow_add, Nat.mod_mul_right_div_self, Nat.mod_mod]

end Shf

/-! ## Bit fields (R217) -/

theorem fieldPos_fst (c : Word) : (fieldPos c).1 = c.toNat % 256 := rfl

theorem fieldPos_snd (c : Word) : (fieldPos c).2 =
    if 64 ≤ c.toNat % 256 then 0 else min (c.toNat / 256 % 256) (64 - c.toNat % 256) := by
  simp only [fieldPos, bits, Nat.shiftRight_zero, Nat.shiftRight_eq_div_pow _ 8, Nat.reducePow]

theorem fieldPos_snd_le (c : Word) : (fieldPos c).2 ≤ 64 := by
  rw [fieldPos_snd]
  split <;> omega

/-- The field of a register that a control operand names, as a bit vector of its width. -/
def fieldOf (a c : Word) : BitVec (fieldPos c).2 := (a >>> (fieldPos c).1).setWidth (fieldPos c).2

theorem toNat_fieldOf (a c : Word) : (fieldOf a c).toNat = bits a.toNat (fieldPos c).1 (fieldPos c).2 := by
  rw [fieldOf, bits, BitVec.toNat_setWidth, BitVec.toNat_ushiftRight]

/-- A field of no bits is 0, however it is extended. -/
theorem extend_of_width_zero {w : Nat} (x : BitVec w) (h : w = 0) : x.setWidth 64 = 0 ∧ x.signExtend 64 = 0 := by
  subst h
  simp [BitVec.of_length_zero]

theorem bfxOp_unsigned {ty : Ty} (hs : ty.signed = false) (a c : Word) :
    bfxOp ty a c = (fieldOf a c).setWidth 64 := by
  simp only [bfxOp, hs, Bool.false_eq_true, if_false, ← toNat_fieldOf]
  split
  case isTrue h => exact (extend_of_width_zero _ h).1.symm
  case isFalse => exact BitVec.ofNat_toNat ..

theorem bfxOp_signed {ty : Ty} (hs : ty.signed = true) (a c : Word) :
    bfxOp ty a c = (fieldOf a c).signExtend 64 := by
  simp only [bfxOp, hs, if_true, sextW, ← toNat_fieldOf]
  split
  case isTrue h => exact (extend_of_width_zero _ h).2.symm
  case isFalse => rw [BitVec.setWidth_ofNat_of_le (fieldPos_snd_le c), BitVec.ofNat_toNat, BitVec.setWidth_eq]

/-- The bits of a register that a control operand names. -/
def fieldMask (c : Word) : Word := (BitVec.allOnes (fieldPos c).2).setWidth 64 <<< (fieldPos c).1

theorem fieldMask_eq_ofNat (c : Word) :
    fieldMask c = BitVec.ofNat 64 ((2 ^ (fieldPos c).2 - 1) <<< (fieldPos c).1) := by
  apply BitVec.eq_of_toNat_eq
  rw [fieldMask, BitVec.toNat_shiftLeft, BitVec.toNat_setWidth_of_le (fieldPos_snd_le c), BitVec.toNat_allOnes,
    BitVec.toNat_ofNat]

theorem bfiOp_eq (a b c : Word) :
    bfiOp a b c = (a &&& ~~~fieldMask c) ||| ((b <<< (fieldPos c).1) &&& fieldMask c) := by
  simp only [bfiOp, ← fieldMask_eq_ofNat]
  split
  case isTrue h =>
    have hmask : fieldMask c = 0#64 := by rw [fieldMask_eq_ofNat, h, Nat.pow_zero, Nat.sub_self, Nat.zero_shiftLeft]
    rw [hmask, BitVec.and_zero, BitVec.or_zero]
    exact (and_not_zero a).symm
  case isFalse => rfl

/-! ## Counts (R218) -/

theorem bits_one_eq_toNat {w : Nat} (x : BitVec w) (i : Nat) : bits x.toNat i 1 = (x.getLsbD i).toNat := by
  rw [bits, Nat.shiftRight_eq_div_pow, BitVec.getLsbD, Nat.toNat_testBit, Nat.pow_one]

theorem bits_eq_one_iff {w : Nat} (x : BitVec w) (i : Nat) : bits x.toNat i 1 = 1 ↔ x.getLsbD i = true := by
  rw [bits_one_eq_toNat, Bool.toNat_eq_one]

theorem length_filter_bits {w : Nat} (x : BitVec w) (n acc : Nat) :
    ((List.range n).filter fun i => bits x.toNat i 1 = 1).length + acc = x.cpopNatRec n acc := by
  induction n generalizing acc with
  | zero => simp
  | succ n ih =>
    rw [BitVec.cpopNatRec_succ, ← ih, List.range_succ, List.filter_append, List.length_append]
    have hone : ([n].filter fun i => bits x.toNat i 1 = 1).length = (x.getLsbD n).toNat := by
      cases h : x.getLsbD n <;> simp [bits_eq_one_iff, h]
    rw [hone]
    omega

theorem popCount_eq {w : Nat} (x : BitVec w) : popCount w x.toNat = x.cpop.toNat := by
  rw [BitVec.toNat_cpop, ← length_filter_bits, popCount, Nat.add_zero]

theorem toNat_clz_zero (w : Nat) : (BitVec.clz 0#w).toNat = w := by
  rw [BitVec.clz_eq_iff_eq_zero.mpr rfl]
  exact Nat.mod_eq_of_lt w.lt_two_pow_self

/-- The highest 1 bit is the one below the leading zeros. -/
theorem leadingZeros_eq {w : Nat} (x : BitVec w) : leadingZeros w x.toNat = x.clz.toNat := by
  rw [leadingZeros]
  split
  case isTrue h =>
    obtain rfl : x = 0#w := BitVec.eq_of_toNat_eq (by simpa using h)
    exact (toNat_clz_zero w).symm
  case isFalse h =>
    have hx : x ≠ 0#w := fun h0 => h (by simp [h0])
    have hupper : x.toNat < 2 ^ (w - x.clz.toNat) := BitVec.toNat_lt_two_pow_sub_clz
    have hclz : x.clz.toNat < w := by
      refine Nat.lt_of_not_le fun hle => h ?_
      rw [Nat.sub_eq_zero_of_le hle] at hupper
      omega
    have hlower := BitVec.two_pow_sub_clz_le_toNat_of_ne_zero (by omega) hx
    have hlog : log2 x.toNat = w - 1 - x.clz.toNat := by
      refine (Nat.log2_eq_iff h).mpr ⟨hlower, ?_⟩
      rwa [show w - 1 - x.clz.toNat + 1 = w - x.clz.toNat by omega]
    omega

theorem trailingZeros_eq {w : Nat} (x : BitVec w) : trailingZeros w x.toNat = x.ctz.toNat := by
  rw [trailingZeros]
  split
  case isTrue h =>
    obtain rfl : x = 0#w := BitVec.eq_of_toNat_eq (by simpa using h)
    rw [BitVec.ctz_eq_reverse_clz, BitVec.reverse_eq_zero_iff.mpr rfl, toNat_clz_zero]
  case isFalse h =>
    have hx : x ≠ 0#w := fun h0 => h (by simp [h0])
    have hone := BitVec.getLsbD_true_ctz_of_ne_zero hx
    have hfind : ((List.range w).find? fun i => bits x.toNat i 1 = 1) = some x.ctz.toNat := by
      refine List.find?_range_eq_some.mpr ⟨by simpa [bits_eq_one_iff] using hone,
        List.mem_range.mpr (BitVec.lt_of_getLsbD hone), fun j hj => ?_⟩
      simp [bits_eq_one_iff, BitVec.getLsbD_false_of_lt_ctz hj]
    rw [hfind]
    rfl

/-! ## Unions of bits -/

/-- A bit of a union is a bit of some part. -/
theorem testBit_foldl_lor (xs : List Nat) (n j : Nat) :
    (xs.foldl Nat.lor n).testBit j = (n.testBit j || xs.any (·.testBit j)) := by
  induction xs generalizing n with
  | nil => simp
  | cons x xs ih =>
    have hor : (n.lor x).testBit j = (n.testBit j || x.testBit j) := Nat.testBit_or ..
    rw [List.foldl_cons, ih, hor, List.any_cons, Bool.or_assoc]

theorem reverseBits_eq {w : Nat} (x : BitVec w) : reverseBits w x.toNat = x.reverse.toNat := by
  refine Nat.eq_of_testBit_eq fun j => Bool.eq_iff_iff.mpr ?_
  have hreverse : x.reverse.toNat.testBit j = true ↔ j < w ∧ x.getLsbD (w - 1 - j) = true := by
    rw [BitVec.testBit_toNat, BitVec.getLsbD_reverse, BitVec.getMsbD, Bool.and_eq_true, decide_eq_true_eq]
  have hpart (i : Nat) : (bits x.toNat i 1 <<< (w - 1 - i)).testBit j = true ↔ j = w - 1 - i ∧ x.getLsbD i = true := by
    rw [bits_one_eq_toNat]
    cases x.getLsbD i <;> simp [Nat.one_shiftLeft, Nat.testBit_two_pow, eq_comm]
  rw [hreverse, reverseBits, testBit_foldl_lor, Nat.zero_testBit, Bool.false_or, List.any_eq_true]
  simp only [List.mem_map, List.mem_range]
  constructor
  · rintro ⟨_, ⟨i, hi, rfl⟩, hbit⟩
    obtain ⟨rfl, hx⟩ := (hpart i).mp hbit
    exact ⟨by omega, by rwa [show w - 1 - (w - 1 - i) = i by omega]⟩
  · rintro ⟨hj, hx⟩
    exact ⟨_, ⟨w - 1 - j, by omega, rfl⟩, (hpart _).mpr ⟨by omega, hx⟩⟩

/-! ## The instructions -/

theorem countOp_eq {f : Nat → Nat → Nat} {g : {w : Nat} → BitVec w → BitVec w}
    (hf : ∀ {w : Nat} (x : BitVec w), f w x.toNat = (g x).toNat) {ty : Ty} {w : Nat} (hw : ty.w = w) (a : Word) :
    countOp f ty a = (g (a.setWidth w)).setWidth 64 := by
  rw [countOp, hw, bits_zero_eq_toNat, hf, BitVec.ofNat_toNat]

theorem countOp_n64_eq {f : Nat → Nat → Nat} {g : {w : Nat} → BitVec w → BitVec w}
    (hf : ∀ {w : Nat} (x : BitVec w), f w x.toNat = (g x).toNat) (a : Word) : countOp f .n64 a = g a := by
  rw [countOp_eq hf (w := 64) rfl, BitVec.setWidth_eq, BitVec.setWidth_eq]

section Instructions
variable (h : Hdr) (ty : Ty) (d a b c : Opnd)

theorem computesPure_shf (left : Bool) : ComputesPure (.shf h ty left d a b c) (aItem h [a, b, c] d) d
    fun xs => shfOp ty left (src xs 0) (src xs 1) (src xs 2) := computesPure_of fun _ => rfl
theorem computesPure_bfx : ComputesPure (.bfx h ty d a b) (aItem h [a, b] d) d
    fun xs => bfxOp ty (src xs 0) (src xs 1) := computesPure_of fun _ => rfl
theorem computesPure_bfi : ComputesPure (.bfi h ty d a b c) (aItem h [a, b, c] d) d
    fun xs => bfiOp (src xs 0) (src xs 1) (src xs 2) := computesPure_of fun _ => rfl
theorem computesPure_popc : ComputesPure (.popc h ty d a) (aItem h [a] d) d
    fun xs => countOp popCount ty (src xs 0) := computesPure_of fun _ => rfl
theorem computesPure_clz : ComputesPure (.clz h ty d a) (aItem h [a] d) d
    fun xs => countOp leadingZeros ty (src xs 0) := computesPure_of fun _ => rfl
theorem computesPure_ctz : ComputesPure (.ctz h ty d a) (aItem h [a] d) d
    fun xs => countOp trailingZeros ty (src xs 0) := computesPure_of fun _ => rfl
theorem computesPure_brev : ComputesPure (.brev h ty d a) (aItem h [a] d) d
    fun xs => countOp reverseBits ty (src xs 0) := computesPure_of fun _ => rfl

end Instructions

/-! ## The statement -/

/-- Settles O4: each instruction runs its item, whose lanes compute what the operation on bit vectors does. -/
theorem bitFieldsComplete : Obligations.BitFieldsComplete := by
  unfold Obligations.BitFieldsComplete
  refine ⟨?shf, ?bfx, ?bfi, ?fields, ?counts⟩
  case shf =>
    intro h d a b c
    refine ⟨?_, ?_, ?_, ?_⟩
    · refine computesPure_congr (computesPure_shf h .n64 d a b c false) fun xs => ?_
      simp only [shfOp_right (ty := .n64) (w := 64) rfl, BitVec.setWidth_eq]
    · refine computesPure_congr (computesPure_shf h .n64 d a b c true) fun xs => ?_
      simp only [shfOp_left (ty := .n64) (w := 64) rfl, BitVec.setWidth_eq]
    · exact computesPure_congr (computesPure_shf h .n32 d a b c false) fun _ => shfOp_right (w := 32) rfl ..
    · exact computesPure_congr (computesPure_shf h .n32 d a b c true) fun _ => shfOp_left (w := 32) rfl ..
  case bfx =>
    exact fun h d a b => ⟨computesPure_congr (computesPure_bfx h .n64 d a b) fun _ => bfxOp_unsigned rfl ..,
      computesPure_congr (computesPure_bfx h .i64 d a b) fun _ => bfxOp_signed rfl ..⟩
  case bfi => exact fun h ty d a b c => computesPure_congr (computesPure_bfi h ty d a b c) fun _ => bfiOp_eq ..
  case fields => exact fun c => ⟨fieldPos_fst c, fieldPos_snd c⟩
  case counts =>
    exact fun h d a => ⟨computesPure_congr (computesPure_popc h .n64 d a) fun _ => countOp_n64_eq popCount_eq _,
      computesPure_congr (computesPure_clz h .n64 d a) fun _ => countOp_n64_eq leadingZeros_eq _,
      computesPure_congr (computesPure_ctz h .n64 d a) fun _ => countOp_n64_eq trailingZeros_eq _,
      computesPure_congr (computesPure_brev h .n64 d a) fun _ => countOp_n64_eq reverseBits_eq _,
      computesPure_congr (computesPure_popc h .n32 d a) fun _ => countOp_eq popCount_eq rfl _,
      computesPure_congr (computesPure_clz h .n32 d a) fun _ => countOp_eq leadingZeros_eq rfl _,
      computesPure_congr (computesPure_ctz h .n32 d a) fun _ => countOp_eq trailingZeros_eq rfl _,
      computesPure_congr (computesPure_brev h .n32 d a) fun _ => countOp_eq reverseBits_eq rfl _⟩

end Sys2Proof.Machine
end

section
/-! PROOF. PackedIntegers.lean: the elements of a packed result, and the packed integer instructions and dot products of
class 0x080 (R219, R220). -/

namespace Sys2Proof.Machine

/-! ## The elements of a packed register -/

theorem testBit_elemOf (w : Nat) (x : Word) (i b : Nat) :
    (elemOf w x i).testBit b = (decide (b < w) && x.toNat.testBit (w * i + b)) := by
  rw [elemOf, bits, Nat.testBit_mod_two_pow, Nat.testBit_shiftRight]

/-- The bit `b` of element `i` lies in no other element. -/
theorem testBit_shifted_elem {w n i i' b : Nat} (hb : b < w) :
    ((n % 2 ^ w) <<< (w * i')).testBit (w * i + b) = true ↔ i' = i ∧ n.testBit b = true := by
  simp only [Nat.testBit_shiftLeft, Nat.testBit_mod_two_pow, Bool.and_eq_true, decide_eq_true_eq]
  constructor
  · rintro ⟨hlo, hhi, hbit⟩
    have hhere : (w * i + b) / w = i := by
      rw [Nat.mul_add_div (by omega), Nat.div_eq_of_lt hb, Nat.add_zero]
    have hthere : (w * i + b) / w = i' :=
      Nat.div_eq_of_lt_le (by rwa [Nat.mul_comm]) (by rw [Nat.succ_mul, Nat.mul_comm i']; omega)
    obtain rfl : i' = i := hthere.symm.trans hhere
    exact ⟨rfl, by rwa [Nat.add_sub_cancel_left] at hbit⟩
  · rintro ⟨rfl, hbit⟩
    rw [Nat.add_sub_cancel_left]
    exact ⟨Nat.le_add_right .., hb, hbit⟩

/-- Elements that fit in a register side by side are read back as they were packed. -/
theorem elemOf_packElems {w k : Nat} (hfit : w * k ≤ 64) (f : Nat → Nat × FF) {i : Nat} (hi : i < k) :
    elemOf w (packElems w k f).1 i = (f i).1 % 2 ^ w := by
  refine Nat.eq_of_testBit_eq fun b => Bool.eq_iff_iff.mpr ?_
  rw [testBit_elemOf, Nat.testBit_mod_two_pow, Bool.and_eq_true, Bool.and_eq_true, decide_eq_true_eq]
  refine and_congr_right fun hb => ?_
  have hlt : w * i + b < 64 :=
    calc w * i + b < w * (i + 1) := by rw [Nat.mul_succ]; omega
      _ ≤ w * k := Nat.mul_le_mul_left w hi
      _ ≤ 64 := hfit
  rw [packElems, BitVec.testBit_toNat, BitVec.getLsbD_ofNat, testBit_foldl_lor]
  simp only [hlt, decide_true, Bool.true_and, Nat.zero_testBit, Bool.false_or, List.any_eq_true, List.map_map,
    List.mem_map, List.mem_range, Function.comp_apply]
  constructor
  · rintro ⟨_, ⟨i', hi', rfl⟩, hbit⟩
    obtain ⟨rfl, hx⟩ := (testBit_shifted_elem hb).mp hbit
    exact hx
  · exact fun hx => ⟨_, ⟨i, hi, rfl⟩, (testBit_shifted_elem hb).mpr ⟨rfl, hx⟩⟩

/-! ## The operations (R219, R220) -/

theorem narrow_lt (signed sat : Bool) (w : Nat) (t : Int) : narrow signed sat w t < 2 ^ w := by
  have hpos : (0 : Int) < (2 ^ w : Nat) := Int.natCast_pos.mpr (Nat.two_pow_pos w)
  rw [narrow]
  generalize (if sat = true then min (max t (lowest signed w)) (highest signed w) else t) = c
  have hnonneg := Int.emod_nonneg c (Int.ne_of_gt hpos)
  have hlt := Int.emod_lt_of_pos c hpos
  omega

/-- An element of a packed result is the exact result on the elements of the sources, brought into its width. -/
theorem elemOf_packedOp (f : Int → Int → Int) {ty : Ty} (sat : Bool) (a b : Word) (hfit : ty.w * ty.k ≤ 64) {i : Nat}
    (hi : i < ty.k) : elemOf ty.w (packedOp f ty sat a b) i =
      narrow ty.signed sat ty.w
        (f (intOf ty.signed ty.w (elemOf ty.w a i)) (intOf ty.signed ty.w (elemOf ty.w b i))) := by
  rw [packedOp, elemOf_packElems hfit _ hi, Nat.mod_eq_of_lt (narrow_lt ..)]

theorem packed_fits {ty : Ty} (h : ty ∈ [Ty.i8x8, .i16x4, .i32x2, .n8x8, .n16x4, .n32x2]) : ty.w * ty.k ≤ 64 := by
  revert ty
  decide

theorem foldl_add_eq_add_sum (xs : List Int) (t : Int) : xs.foldl (· + ·) t = t + xs.sum := by
  induction xs generalizing t with
  | nil => simp
  | cons x xs ih => rw [List.foldl_cons, ih, List.sum_cons, Int.add_assoc]

theorem elemOf_idotOp (w n : Nat) (ua ub sat : Bool) (a b c : Word) {j : Nat} (hj : j < 2) :
    elemOf 32 (idotOp w n ua ub sat a b c) j = narrow true sat 32 (intOf true 32 (elemOf 32 c j) +
      ((List.range n).map fun i =>
        intOf (!ua) w (elemOf w a (n * j + i)) * intOf (!ub) w (elemOf w b (n * j + i))).sum) := by
  simp only [idotOp, elemOf_packElems (by decide : 32 * 2 ≤ 64) _ hj, foldl_add_eq_add_sum,
    Nat.mod_eq_of_lt (narrow_lt ..)]

/-! ## The statement -/

/-- Settles O5: each instruction runs its item, and the elements of its result are those stated. -/
theorem packedIntegersComplete : Obligations.PackedIntegersComplete := by
  unfold Obligations.PackedIntegersComplete
  refine ⟨?packed, ?elements, ?dots, ?sums⟩
  case packed =>
    exact fun h ty sat d a b => ⟨computesPure_of fun _ => rfl, computesPure_of fun _ => rfl,
      computesPure_of fun _ => rfl, computesPure_of fun _ => rfl, computesPure_of fun _ => rfl⟩
  case elements => exact fun f ty sat a b i hty hi => elemOf_packedOp f sat a b (packed_fits hty) hi
  case dots => exact fun h ua ub sat d a b c => ⟨computesPure_of fun _ => rfl, computesPure_of fun _ => rfl⟩
  case sums => exact fun w n ua ub sat a b c j hj => elemOf_idotOp w n ua ub sat a b c hj

end Sys2Proof.Machine
end

section
/-! PROOF. Floats.lean: the floating-point instructions of class 0x0C0, the special functions and conversions of class
0x100 (R221 to R235), and the one bit that FCLASS gives (R227). -/

namespace Sys2Proof.Machine

/-! ## Elementwise instructions and special functions (R222, R230) -/

/-- A special function of the D unit. -/
theorem computesFloat_special {ins : Instr} {h : Hdr} {ty : Ty} {rnd : Rnd} {srcs : List Opnd} {d : Opnd} {fn : ElemFn}
    (hx : ∀ s, exec ins s = runSpecial h ty rnd srcs d fn s) :
    ComputesFloat ins { laneItem h (dUnit ty.w) none srcs d with least := if ty.w = 64 then 44 else 18 } .div ty rnd d
      fn :=
  computes_div (fn := fun g xs => floatElems ty (modeOf g rnd) fn xs) hx (fun _ _ _ => rfl) fun _ _ _ => rfl

/-- An elementwise instruction of unit F or F64. -/
theorem computesFloat_of {ins : Instr} {it : Item} {ty : Ty} {rnd : Rnd} {d : Opnd} {fn : ElemFn}
    (hx : ∀ s, exec ins s = runFloat it ty rnd d fn s) : ComputesFloat ins it .ready ty rnd d fn :=
  computes_of hx

/-! ## The statements about values -/

/-- Settles O6: each instruction runs its item, whose lanes apply the function named to their elements. -/
theorem floatAndSpecialFunctionsComplete : Obligations.FloatAndSpecialFunctionsComplete := by
  unfold Obligations.FloatAndSpecialFunctionsComplete
  refine ⟨?arith, ?ffma, ?minmax, ?fcmp, ?fdot2, ?fclass, ?special⟩
  case arith =>
    exact fun h ty rnd d a b => ⟨computesFloat_of fun _ => rfl, computesFloat_of fun _ => rfl,
      computesFloat_of fun _ => rfl, computesFloat_of fun _ => rfl, computesFloat_of fun _ => rfl⟩
  case ffma => exact fun h ty rnd d a b c => computesFloat_of fun _ => rfl
  case minmax => exact fun h ty d a b => ⟨computesFloat_of fun _ => rfl, computesFloat_of fun _ => rfl⟩
  case fcmp => exact fun h ty cond pd a b => computesPred_of fun _ => rfl
  case fdot2 => exact fun h sty rnd d a b c => computes_of fun _ => rfl
  case fclass => exact fun h ty d a => computesPure_of fun _ => rfl
  case special =>
    exact fun h ty rnd d a b => ⟨computesFloat_special fun _ => rfl, computesFloat_special fun _ => rfl,
      computesFloat_special fun _ => rfl, computesFloat_special fun _ => rfl, computesFloat_special fun _ => rfl,
      computesFloat_special fun _ => rfl, computesFloat_special fun _ => rfl, computesFloat_special fun _ => rfl,
      computesFloat_special fun _ => rfl⟩

/-- Settles O7: each instruction runs its item, whose lanes convert as the function named does. -/
theorem conversionsComplete : Obligations.ConversionsComplete := by
  unfold Obligations.ConversionsComplete
  refine ⟨?fcvt, ?f2i, ?i2f, ?fpack, ?funpk⟩
  case fcvt => exact fun h ty sty rnd nsat d a => computes_of fun _ => rfl
  case f2i => exact fun h ty sty rnd d a => computes_of fun _ => rfl
  case i2f => exact fun h ty sty rnd d a => computes_of fun _ => rfl
  case fpack => exact fun h ty sty rnd nsat d a b pos => computes_of fun _ => rfl
  case funpk => exact fun h ty sty rnd d a b pos => computes_of fun _ => rfl

/-! ## The class of an encoding (R227) -/

/-- The bit of the class mask that stands for a value, in a format of `m` fraction bits. -/
def classBit (mbits : Nat) : FVal → Nat
  | .nan s => if s then 8 else 9
  | .inf neg => if neg then 0 else 7
  | .fin neg m _ =>
    if m = 0 then if neg then 3 else 4
    else if m < 2 ^ mbits then if neg then 2 else 5
    else if neg then 1 else 6

theorem fclassOp_eq (f : Fmt) (x : Nat) : fclassOp f x = 2 ^ classBit f.mbits (f.value x) := by
  cases h : f.value x with
  | nan s => simp only [fclassOp, classBit, h, apply_ite (2 ^ ·)]
  | inf neg => simp only [fclassOp, classBit, h, apply_ite (2 ^ ·)]
  | fin neg m e => simp only [fclassOp, classBit, h, apply_ite (2 ^ ·)]

theorem classBit_lt (mbits : Nat) (v : FVal) : classBit mbits v < 10 := by
  unfold classBit
  (repeat' split) <;> decide

/-- A power of two among ten bits has its one bit set. -/
theorem filter_testBit_two_pow : ∀ j < 10, ((List.range 10).filter fun k => (2 ^ j).testBit k) = [j] := by decide

/-- The bits of the class mask that are set. -/
def classBits (f : Fmt) (x : Nat) : List Nat := (List.range 10).filter fun k => (fclassOp f x).testBit k

theorem classBits_eq (f : Fmt) (x : Nat) : classBits f x = [classBit f.mbits (f.value x)] := by
  rw [classBits, fclassOp_eq, filter_testBit_two_pow _ (classBit_lt ..)]

theorem classBits_eq_iff (f : Fmt) (x j : Nat) : classBits f x = [j] ↔ classBit f.mbits (f.value x) = j := by
  rw [classBits_eq, List.cons.injEq, eq_self, and_true]

/-- Each class of R227 has its own bit. -/
theorem classBit_eq_iff (mbits : Nat) (v : FVal) :
    (classBit mbits v = 0 ↔ v = .inf true) ∧
    (classBit mbits v = 1 ↔ ∃ m e, v = .fin true m e ∧ 2 ^ mbits ≤ m) ∧
    (classBit mbits v = 2 ↔ ∃ m e, v = .fin true m e ∧ 0 < m ∧ m < 2 ^ mbits) ∧
    (classBit mbits v = 3 ↔ ∃ e, v = .fin true 0 e) ∧
    (classBit mbits v = 4 ↔ ∃ e, v = .fin false 0 e) ∧
    (classBit mbits v = 5 ↔ ∃ m e, v = .fin false m e ∧ 0 < m ∧ m < 2 ^ mbits) ∧
    (classBit mbits v = 6 ↔ ∃ m e, v = .fin false m e ∧ 2 ^ mbits ≤ m) ∧
    (classBit mbits v = 7 ↔ v = .inf false) ∧
    (classBit mbits v = 8 ↔ v = .nan true) ∧
    (classBit mbits v = 9 ↔ v = .nan false) := by
  cases v with
  | nan s => cases s <;> simp [classBit]
  | inf neg => cases neg <;> simp [classBit]
  | fin neg m e =>
    have hnormal : 0 < 2 ^ mbits := Nat.two_pow_pos mbits
    by_cases hzero : m = 0
    · subst hzero
      cases neg <;> simp [classBit]
    · by_cases hsub : m < 2 ^ mbits
      · cases neg <;> simp [classBit, hzero, hsub, Nat.pos_of_ne_zero hzero]
      · cases neg <;> simp [classBit, hzero, hsub, Nat.le_of_not_lt hsub]

/-! ## The statement about FCLASS -/

/-- Settles O52: the mask is a power of two, whose exponent tells the class. -/
theorem fclassGivesOneBit : Obligations.FclassGivesOneBit := by
  unfold Obligations.FclassGivesOneBit
  refine ⟨fun h ty d a => computes_of fun _ => rfl, fun ty x _ => ?_⟩
  have hmask : fclassOp (fmtOf ty) x < 2 ^ 10 := by
    rw [fclassOp_eq]
    exact Nat.pow_lt_pow_right (by decide) (classBit_lt ..)
  have hone : (classBits (fmtOf ty) x).length = 1 := by rw [classBits_eq, List.length_singleton]
  refine ⟨hmask, hone, ?_⟩
  have hclass := classBit_eq_iff (fmtOf ty).mbits ((fmtOf ty).value x)
  simp only [← classBits_eq_iff] at hclass
  exact hclass

end Sys2Proof.Machine
end

section
/-! PROOF. ExactAccumulators.lean: the exact accumulators of class 0x140 (R237 to R241). -/

namespace Sys2Proof.Machine

section Transfer
variable {xa : Fin 8} {a : Opnd} {i : Issue} {ex : Mask} {s : State} (it : Item)

/-- An operand that is aligned, inside the scratchpad and, where it is read, not poisoned passes its checks. -/
theorem xOffset_eq_ok {gid : Nat} {wr : Bool} (aligned : (scalarOf s gid ex a).toNat % 8 = 0)
    (inside : scratchHas (launchOf s gid) (scalarOf s gid ex a).toNat 536 = true)
    (clean : wr = true ∨ scratchBad s (grpAt s gid).team (scalarOf s gid ex a).toNat 536 = false) :
    xOffset s gid ex a wr = .ok (scalarOf s gid ex a).toNat := by
  have clean : (!wr && scratchBad s (grpAt s gid).team (scalarOf s gid ex a).toNat 536) = false := by
    rcases clean with rfl | clean
    · rfl
    · rw [clean, Bool.and_false]
  simp [xOffset, aligned, inside, clean]

/-- XSAVE whose operand passes its checks, and is not locked, writes the image through the banks. -/
theorem xsaveBody_eq_done {off : Nat} (hoff : xOffset s i.gid ex a true = .ok off)
    (unlocked : scratchBlocked s i.gid 536 true [((lanes i ex s).headD 0, off)] = false) :
    let bank := blockAccess (consumeAll s i.gid it) i.gid 3 off
    xsaveBody it xa a i ex s = .done { xEffect 4 with least := bank.2 }
      (scratchWrite bank.1 (grpAt s i.gid).team off 536 (xaImage ((grpAt s i.gid).acc xa.val))) := by
  have unlocked : scratchBlocked s i.gid 536 true [(lowLane (grpAt s i.gid) ex, off)] = false := unlocked
  simp only [xsaveBody, hoff, unlocked, Bool.false_eq_true, if_false]

/-- XLOAD whose operand passes its checks, and is not locked, reads the image through the banks. -/
theorem xloadBody_eq_done {off : Nat} (hoff : xOffset s i.gid ex a false = .ok off)
    (unlocked : scratchBlocked s i.gid 536 false [((lanes i ex s).headD 0, off)] = false) :
    let bank := blockAccess (consumeAll s i.gid it) i.gid 3 off
    let x := scratchRead s (grpAt s i.gid).team off 536
    xloadBody it xa a i ex s = .done { xEffect 4 with least := bank.2 }
      (setAcc bank.1 i.gid xa.val (xaMake (x % 2 ^ 4280) (x / 2 ^ 4280))) := by
  have unlocked : scratchBlocked s i.gid 536 false [(lowLane (grpAt s i.gid) ex, off)] = false := unlocked
  simp only [xloadBody, hoff, unlocked, Bool.false_eq_true, if_false]

end Transfer

/-- Settles O8: each instruction runs its item, whose body takes the effect stated. -/
theorem exactAccumulatorsComplete : Obligations.ExactAccumulatorsComplete := by
  unfold Obligations.ExactAccumulatorsComplete
  refine ⟨?xclr, ?xadd, ?xmac, ?xrnd, ?xmrg, ?xsave, ?xload⟩
  case xclr => exact fun h xa => takes_done fun _ => rfl
  case xadd => exact fun h ty xa a => takes_done fun _ => rfl
  case xmac => exact fun h ty xa a b => takes_done fun _ => rfl
  case xrnd => exact fun h ty rnd clr xa d => takes_done fun _ => rfl
  case xmrg => exact fun h xa xb => takes_done fun _ => rfl
  case xsave =>
    exact fun h xa a => takes_of (fun _ => rfl) fun s i ex _ ⟨aligned, inside, unlocked⟩ =>
      xsaveBody_eq_done _ (xOffset_eq_ok aligned inside (.inl rfl)) unlocked
  case xload =>
    exact fun h xa a => takes_of (fun _ => rfl) fun s i ex _ ⟨aligned, inside, clean, unlocked⟩ =>
      xloadBody_eq_done _ (xOffset_eq_ok aligned inside (.inr clean)) unlocked

end Sys2Proof.Machine
end

section
/-! PROOF. MatrixClass.lean: the instructions of class 0x2C0: declarations and signatures of convergence sets, moves of
tiles, drains and reservations (R246 to R249, R255 to R261, R264, R266, R267). -/

namespace Sys2Proof.Machine

/-! ## What the instructions run -/

/-- An item that issues, and whose body takes an effect in all its executing lanes, records its issue in them. -/
theorem runItem_done_all {it : Item} {body : Issue → Mask → State → Body} {s t : State} {i : Issue} {ex : Mask}
    {e : Effect} (hi : Issues it s i ex) (hb : body i ex s = .done e t) (hall : e.ran = none) :
    runItem it body s = .next (finishIssue t i it ex e) := by
  rw [runItem_done hi hb, hall, Option.getD_none]

theorem exec_mdecl (h : Hdr) (cv : Fin 8) (a : Opnd) (s : State) : exec (.mdecl h cv a) s = execMdecl h cv a s := rfl
theorem exec_mdeclRel (h : Hdr) (cv : Fin 8) (s : State) : exec (.mdeclRel h cv) s = execMdeclRel h cv s := rfl
theorem exec_mma (h : Hdr) (ty : Ty) (cv : Fin 8) (kbm1 : Fin 16) (a : Opnd) (bs : Option Opnd) (c : Opnd) (s : State) :
    exec (.mma h ty cv kbm1 a bs c) s = execMma h ty cv kbm1 a bs c s := rfl
theorem exec_mldb (h : Hdr) (sp : Bool) (a b c : Opnd) (s : State) :
    exec (.mldb h sp a b c) s = execMldb h sp a b c s := rfl
theorem exec_mzero (h : Hdr) (a : Opnd) (s : State) : exec (.mzero h a) s = execMzero h a s := rfl
theorem exec_mdrn (h : Hdr) (ty : Ty) (rnd : Rnd) (dp : Fin 4) (tile : Fin 16) (p64 : Bool) (s : State) :
    exec (.mdrn h ty rnd dp tile p64) s = execMdrn h ty rnd dp tile p64 s := rfl

/-! ## Declarations (R246 to R248) -/

/-- An offset that is aligned, inside the scratchpad and not poisoned passes MDECL's checks. -/
theorem declFault_eq_none {s : State} {gid : Nat} {off : Word} (lane : Nat) (aligned : off.toNat % 8 = 0)
    (inside : scratchHas (launchOf s gid) off.toNat 40 = true)
    (clean : scratchBad s (grpAt s gid).team off.toNat 40 = false) : declFault s gid lane off = none := by
  simp [declFault, aligned, inside, clean]

/-- MDECL whose checks have passed reads the declaration through the banks, and declares its members at completion. -/
theorem exec_mdecl_of_members {h : Hdr} {cv : Fin 8} {a : Opnd} {s : State} {i : Issue} {ex : Mask}
    {ms : List (Nat × Mask)}
    (hi : Issues { matItem h [a] with access := true, scratch := true, track := .load } s i ex)
    (hpend : mdeclPending s (grpAt s i.gid).quart cv.val = false)
    (hfault : declFault s i.gid ((lanes i ex s).headD 0) (scalarOf s i.gid ex a) = none)
    (unlocked : scratchBlocked s i.gid 40 false [((lanes i ex s).headD 0, (scalarOf s i.gid ex a).toNat)] = false)
    (hstate : declState (cvAt (quartAt s (grpAt s i.gid).quart) cv.val) (grpAt s i.gid).team = false)
    (hms : declMembers s i.gid (scratchRead s (grpAt s i.gid).team (scalarOf s i.gid ex a).toNat 40) = some ms) :
    let bank := bankAccess s i.gid (bankLoad 40) [((lanes i ex s).headD 0, (scalarOf s i.gid ex a).toNat)]
    exec (.mdecl h cv a) s = .next (finishIssue bank.1 i
      { matItem h [a] with access := true, scratch := true, track := .load } ex
      { kind := .mdecl cv.val false ms, least := bank.2 }) := by
  unfold lanes at hfault unlocked
  rw [exec_mdecl, execMdecl]
  refine runItem_done_all hi ?_ rfl
  simp only [hpend, hfault, unlocked, hstate, hms, Bool.false_eq_true, if_false, lanes]

/-! ## Signatures (R249, R251) -/

theorem lanes_ne_nil_of_issues {it : Item} {s : State} {i : Issue} {ex : Mask} (h : Issues it s i ex) :
    lanes i ex s ≠ [] := by
  obtain ⟨-, -, rfl, hne, -⟩ := h
  intro hnil
  have hmask : maskOf 64 (lanes i (execLanes (grpAt s i.gid) i.act it.hdr) s) =
      execLanes (grpAt s i.gid) i.act it.hdr := maskOf_lanesOf_maskWhere ..
  rw [hnil] at hmask
  exact hne hmask.symm

section Signers
variable {r : CvReg} {gid : Nat} {ls : List Nat}

theorem all_signersOf_contains (h : ∀ l ∈ ls, (gid, l) ∈ signersOf r.members) :
    (ls.map fun l => (gid, l)).all (signersOf r.members).contains = true := by
  simpa using h

theorem any_signed_eq_false (h : ∀ l ∈ ls, signatureOf r (gid, l) = none) :
    (ls.map fun l => (gid, l)).any (fun x => (signatureOf r x).isSome) = false := by
  simpa using h

theorem all_signed_eq_false (hne : ls ≠ []) (h : ∀ l ∈ ls, signatureOf r (gid, l) = none) :
    (ls.map fun l => (gid, l)).all (fun x => (signatureOf r x).isSome) = false := by
  obtain ⟨l, hl⟩ := List.exists_mem_of_ne_nil ls hne
  exact List.all_eq_false.mpr ⟨(gid, l), List.mem_map_of_mem hl, by simp [h l hl]⟩

/-- Where the control word of the lead, if it signs now, passes its checks, no signature raises a cause of it. -/
theorem leadFault_eq_none {lead : Option (Nat × Nat)} {fault : Nat → Option Cause}
    (h : ∀ l ∈ ls, lead = some (gid, l) → fault l = none) :
    (((ls.map fun l => (gid, l)).find? fun x => decide (lead = some x)).bind fun x => fault x.2) = none := by
  refine Option.bind_eq_none_iff.mpr fun x hx => ?_
  obtain ⟨l, hl, rfl⟩ := List.mem_map.mp (List.mem_of_find?_eq_some hx)
  exact h l hl (of_decide_eq_true (List.find?_some hx :))

end Signers

/-- A set that is being signed for the operation named, or is not being signed, has no MISMATCH. -/
theorem roundDiffers_eq_false {r : CvReg} {ty : Ty} {kb : Nat} {bs : Bool}
    (h : r.st = .signing → r.ty = ty ∧ r.kb = kb ∧ r.bs = bs) :
    (decide (r.st = .signing) && !(decide (r.ty = ty) && decide (r.kb = kb) && decide (r.bs = bs))) = false := by
  by_cases hst : r.st = .signing
  · obtain ⟨hty, hkb, hbs⟩ := h hst
    simp [hty, hkb, hbs]
  · simp [hst]

/-- The signature that completes a round does not wait where the round's lead is checked, the queue has room and no
other round is complete. -/
theorem roundWaits_eq_false {s : State} {q : Quarter} {cv : Nat} {r : CvReg}
    (h : allSigned s r = true → q.ops.length < Config.matrixQueue ∧
      (∀ e ∈ q.cvs, e.1 ≠ cv → e.2.st = .signing → allSigned s e.2 = false) ∧
      ∀ x y, leadOf s r = some x → signatureOf r x = some y → y.checked = true) :
    (allSigned s r && ((((leadOf s r).bind (signatureOf r)).any fun y => !y.checked) ||
      (q.cvs.any fun e => decide (e.1 ≠ cv) && decide (e.2.st = .signing) && allSigned s e.2) ||
      decide (Config.matrixQueue ≤ q.ops.length))) = false := by
  cases hfull : allSigned s r with
  | false => rfl
  | true =>
    obtain ⟨room, none_before, lead_checked⟩ := h hfull
    have checked : (((leadOf s r).bind (signatureOf r)).any fun y => !y.checked) = false :=
      Option.any_eq_false _ _ |>.mpr fun y hy => by
        obtain ⟨x, hx, hxy⟩ := Option.bind_eq_some_iff.mp hy
        simp [lead_checked x y hx hxy]
    have before : (q.cvs.any fun e => decide (e.1 ≠ cv) && decide (e.2.st = .signing) && allSigned s e.2) = false :=
      List.any_eq_false.mpr fun e he => by simpa using none_before e he
    rw [checked, before, Bool.false_or, Bool.false_or, Bool.and_eq_false_imp]
    exact fun _ => decide_eq_false (Nat.not_le.mpr room)

section Mma
variable {ty : Ty} {cv kb : Nat} {a : Opnd} {bs : Option Opnd} {c : Opnd} {i : Issue} {ex : Mask} {s : State}

/-- The registers that hold the data words of one signature. -/
abbrev signedWords (ty : Ty) (kb : Nat) (r : CvReg) : Nat := rowsPer r.members * rowWords ty kb
/-- The registers that hold the scale words of one signature; none of an operation without scales. -/
abbrev signedScales (kb : Nat) (bs : Option Opnd) (r : CvReg) : Nat :=
  if bs.isSome then rowsPer r.members * scaleWords kb else 0

/-- A convergence register once the executing lanes have signed its round. -/
def signedBy (ty : Ty) (kb : Nat) (a : Opnd) (bs : Option Opnd) (c : Opnd) (i : Issue) (ex : Mask) (s : State)
    (r : CvReg) : CvReg :=
  { r with
    st := CvState.signing, ty := ty, kb := kb, bs := bs.isSome
    signed := r.signed ++ signatures s i.gid (grpAt s i.gid).nextOp (lanes i ex s) ty kb (rowsPer r.members) a bs c
      fun x => leadOf s r = some x }

/-- What MMA asks of the lanes that sign the set in register `r` of quarter `n`, in the order of its checks; the last
signature of a round asks for the lead's check, for room in the queue, and that no other round is complete. -/
structure MaySign (ty : Ty) (cv kb : Nat) (a : Opnd) (bs : Option Opnd) (c : Opnd) (i : Issue) (ex : Mask) (s : State)
    (n : Nat) (r : CvReg) : Prop where
  settled : mdeclPending s n cv = false
  declared : r.st ≠ .free
  team : r.team = (grpAt s i.gid).team
  unsigned : ∀ l ∈ lanes i ex s, (i.gid, l) ∈ signersOf r.members ∧ signatureOf r (i.gid, l) = none
  same : r.st = .signing → r.ty = ty ∧ r.kb = kb ∧ r.bs = bs.isSome
  words : regNo a + signedWords ty kb r ≤ (launchOf s i.gid).regs
  scales : bs.isSome = true → regNo (bs.getD .zero) + signedScales kb bs r ≤ (launchOf s i.gid).regs
  lead : ∀ l ∈ lanes i ex s, leadOf s r = some (i.gid, l) →
    ctlFault s n (grpAt s i.gid).team ty kb bs.isSome (readOpnd s i.gid l c) = none
  clean : signPoison (grpAt s i.gid) (lanes i ex s) (regNo a) (signedWords ty kb r) (regNo (bs.getD .zero))
    (signedScales kb bs r) = none
  staged : r.st = .declared → stagedNow (quartAt s n) + stagingOf ty kb bs.isSome ≤ Config.stagingBytes
  complete : allSigned s (signedBy ty kb a bs c i ex s r) = true →
    (quartAt s n).ops.length < Config.matrixQueue ∧
    (∀ e ∈ (quartAt s n).cvs, e.1 ≠ cv → e.2.st = .signing → allSigned s e.2 = false) ∧
    ∀ x y, leadOf s (signedBy ty kb a bs c i ex s r) = some x →
      signatureOf (signedBy ty kb a bs c i ex s r) x = some y → y.checked = true

/-- MMA whose checks have passed signs; the signature that completes the round enters it in the queue. -/
theorem mmaBody_eq_done {n : Nat} {r : CvReg} (hn : (grpAt s i.gid).quart = n) (hr : cvAt (quartAt s n) cv = r)
    (hne : lanes i ex s ≠ []) (h : MaySign ty cv kb a bs c i ex s n r) :
    let r' := signedBy ty kb a bs c i ex s r
    let s1 := modQuart s n fun q => modCv q cv fun _ => r'
    mmaBody ty cv kb a bs c i ex s = .done
      { kind := .signature cv, extra := (signedWords ty kb r + signedScales kb bs r + 7) / 8 - 1
        setsFlags := allSigned s r' }
      (if allSigned s r' then enterRound s1 n cv else s1) := by
  obtain ⟨hpend, hst, hteam, hsign, hsame, hregs, hscales, hlead, hclean, hstaged, hfull⟩ := h
  have mine_signers := all_signersOf_contains fun l hl => (hsign l hl).1
  have none_signed := any_signed_eq_false fun l hl => (hsign l hl).2
  have not_all_signed := all_signed_eq_false hne fun l hl => (hsign l hl).2
  have same := roundDiffers_eq_false hsame
  have lead_ok := leadFault_eq_none hlead
  have in_regs : (decide ((launchOf s i.gid).regs < regNo a + signedWords ty kb r) || (bs.isSome &&
      decide ((launchOf s i.gid).regs < regNo (bs.getD .zero) + signedScales kb bs r))) = false := by
    simpa [Nat.not_lt.mpr hregs] using hscales
  have staged : (decide (r.st = .declared) &&
      decide (Config.stagingBytes < stagedNow (quartAt s n) + stagingOf ty kb bs.isSome)) = false := by
    simpa using hstaged
  have no_wait := roundWaits_eq_false hfull
  have owner : (decide (r.st = .free) || decide (r.team ≠ (grpAt s i.gid).team)) = false := by simp [hst, hteam]
  simp only [signedBy, lanes] at mine_signers none_signed not_all_signed lead_ok hclean no_wait
  simp only [mmaBody, hn, hr, hpend, owner, mine_signers, none_signed, not_all_signed, same, in_regs, lead_ok, hclean,
    staged, no_wait, Bool.false_eq_true, if_false, Bool.not_true, Bool.or_self]
  rfl

end Mma

/-! ## Tiles (R255, R259 to R261) -/

/-- The body of MLDC and MSTA whose tile and addresses pass their checks enters the operation. -/
theorem tileBody_eq_done {ty : Ty} {tile al : Nat} {kind : Word → Word → MatKind} {a b : Opnd} {i : Issue} {ex : Mask}
    {s : State} {ts : List Nat} {w : Sweep}
    (htiles : physTiles s (grpAt s i.gid).quart (grpAt s i.gid).team tile (ty = .f64) = some ts)
    (hsweep : sweepOf (kind (scalarOf s i.gid ex a) (scalarOf s i.gid ex b)) = some w)
    (hfault : sweepFault s i.gid ((lanes i ex s).headD 0) w al = none) (hroom : queueFull s i.gid = false) :
    let r := enqueue s i ts (kind (scalarOf s i.gid ex a) (scalarOf s i.gid ex b))
    tileBody ty tile al kind a b i ex s = .done { kind := .matrix [r.2] } r.1 := by
  unfold lanes at hfault
  simp only [tileBody, htiles, hsweep, Option.bind_some, hfault, hroom, Bool.false_eq_true, if_false]

/-- MLDB whose control word and addresses pass their checks enters its transfer, which is not of the queue. -/
theorem exec_mldb_of_checks {h : Hdr} {sp : Bool} {a b c : Opnd} {s : State} {i : Issue} {ex : Mask} {x y z : Word}
    {row nw : Nat} (hi : Issues { matItem h [a, b, c] with access := true, writesMem := true } s i ex)
    (hx : scalarOf s i.gid ex a = x) (hy : scalarOf s i.gid ex b = y) (hz : scalarOf s i.gid ex c = z)
    (hrow : bits z.toNat 0 10 = row) (hcount : bits z.toNat 10 11 = nw) (hzero : bits z.toNat 21 43 = 0)
    (hnw : nw ≠ 0) (hrows : row + nw ≤ (launchOf s i.gid).brows)
    (hfault : sweepFault s i.gid ((lanes i ex s).headD 0) ⟨sp, x.toNat, y.toNat, nw, 8, 8, false⟩ 8 = none) :
    let g := grpAt s i.gid
    let n := (quartAt s g.quart).nextOp
    let o : MatOp :=
      { id := n, team := g.team, gid := i.gid, op := g.nextOp, tiles := [], kind := .mldb sp x y row nw
        running := false, start := 0, prog := 0, off := 0, req := none, pubs := [], stopped := none, fflags := 0 }
    exec (.mldb h sp a b c) s = .next (finishIssue
      (modQuart s g.quart fun q => { q with loads := q.loads ++ [o], nextOp := n + 1 }) i
      { matItem h [a, b, c] with access := true, writesMem := true } ex { kind := .matrix [n] }) := by
  have ctl_ok : (decide (bits z.toNat 21 43 ≠ 0) || decide (nw = 0) ||
      decide ((launchOf s i.gid).brows < row + nw)) = false := by simp [hzero, hnw, hrows]
  unfold lanes at hfault
  rw [exec_mldb, execMldb]
  refine runItem_done_all hi ?_ rfl
  simp only [hx, hy, hz, hrow, hcount, ctl_ok, sweepOf, Option.bind_some, hfault, Bool.false_eq_true, if_false]

/-- MZERO that names tiles of its team enters one operation for each, where the queue is not full. -/
theorem exec_mzero_of_checks {h : Hdr} {a : Opnd} {s : State} {i : Issue} {ex : Mask} {ts : List Nat}
    (hi : Issues (matItem h [a]) s i ex) (hm : (scalarOf s i.gid ex a).toNat < 2 ^ 16)
    (hts : (List.range 16).filter (fun t => bits (scalarOf s i.gid ex a).toNat t 1 = 1) = ts)
    (hall : ∀ t ∈ ts, (physTile s (grpAt s i.gid).quart (grpAt s i.gid).team t).isSome = true)
    (hroom : ts = [] ∨ queueFull s i.gid = false) :
    let r := (ts.filterMap (physTile s (grpAt s i.gid).quart (grpAt s i.gid).team)).foldl (fun acc t =>
      ((enqueue acc.1 i [t] .mzero).1, acc.2 ++ [(enqueue acc.1 i [t] .mzero).2])) (s, ([] : List Nat))
    exec (.mzero h a) s = .next (finishIssue r.1 i (matItem h [a]) ex { kind := .matrix r.2 }) := by
  have no_fault : (decide (2 ^ 16 ≤ (scalarOf s i.gid ex a).toNat) ||
      decide ((ts.filterMap (physTile s (grpAt s i.gid).quart (grpAt s i.gid).team)).length ≠ ts.length)) = false :=
    Bool.or_eq_false_iff.mpr ⟨decide_eq_false (Nat.not_le.mpr hm),
      decide_eq_false (not_not_intro (List.filterMap_length_eq_length.mpr hall))⟩
  have no_wait : (!ts.isEmpty && queueFull s i.gid) = false := by
    rcases hroom with rfl | hroom
    · rfl
    · rw [hroom, Bool.and_false]
  rw [exec_mzero, execMzero]
  refine runItem_done_all hi ?_ rfl
  simp only [hts, no_fault, no_wait, Bool.false_eq_true, if_false]

/-! ## Drains (R264) -/

/-- MDRN whose port is idle, whose width fits and whose tile is its team's enters the drain and arms the port. -/
theorem exec_mdrn_of_checks {h : Hdr} {ty : Ty} {rnd : Rnd} {dp : Fin 4} {tile : Fin 16} {p64 : Bool} {s : State}
    {i : Issue} {ex : Mask} {ts : List Nat} (hi : Issues { matItem h [] with lat := some 1 } s i ex)
    (hactive : ((grpAt s i.gid).drain dp.val).active = false) (hwidth : drainWidth ty = (grpAt s i.gid).width)
    (htiles : physTiles s (grpAt s i.gid).quart (grpAt s i.gid).team tile.val p64 = some ts)
    (hroom : queueFull s i.gid = false) :
    exec (.mdrn h ty rnd dp tile p64) s = .next (finishIssue
      (modGrp (enqueue s i ts (.mdrn dp.val)).1 i.gid fun g => g.modDrain dp.val fun _ =>
        { active := true, ty := ty, rnd := modeOf (issuingGroup s) rnd, p64 := p64, moved := 0, taken := 0
          rows := [] }) i { matItem h [] with lat := some 1 } ex {}) := by
  have fits : ¬ drainWidth ty ≠ (grpAt s i.gid).width := not_not_intro hwidth
  rw [exec_mdrn, execMdrn]
  refine runItem_done_all hi ?_ rfl
  simp only [hactive, fits, htiles, hroom, Bool.false_eq_true, if_false]

/-! ## Reservations (R266) -/

theorem claimant_foldl_zeroTile (q : Quarter) (ts : List Nat) : (ts.foldl zeroTile q).claimant = q.claimant := by
  induction ts generalizing q with
  | nil => rfl
  | cons t ts ih => exact ih (zeroTile q t)

/-- MACQ succeeds where the team may have the tiles, no reservation stands, the pool holds them, and no other team is
the claimant. -/
theorem acquireTiles_eq_true {s : State} {n team k : Nat} (hk : k ≤ 16)
    (hfits : (launchAt s (teamAt s team).lid).atiles + k ≤ 16) (hfree : (quartAt s n).reserved = none)
    (hpool : k ≤ poolOf s n) (hclaim : ∀ t g, (quartAt s n).claimant = some (t, g) → t = team) :
    acquireTiles s n team k = (true,
      { ((List.range k).map (16 + ·)).foldl zeroTile (quartAt s n) with
        reserved := some (team, k), claimant := none }) := by
  have hk : ¬ 16 < k := Nat.not_lt.mpr hk
  have hfits : ¬ 16 < (launchAt s (teamAt s team).lid).atiles + k := Nat.not_lt.mpr hfits
  have hpool : ¬ poolOf s n < k := Nat.not_lt.mpr hpool
  cases hc : (quartAt s n).claimant with
  | none => simp [acquireTiles, hk, hfits, hfree, hpool, hc, claimant_foldl_zeroTile]
  | some c =>
    obtain ⟨t, g⟩ := c
    obtain rfl := hclaim t g hc
    simp [acquireTiles, hk, hfits, hfree, hpool, hc, claimant_foldl_zeroTile]

/-! ## The statements -/

/-- Settles O22: each declaration and signature passes its checks one after the other, and takes the effect stated. -/
theorem matrixRoundsComplete : Obligations.MatrixRoundsComplete := by
  unfold Obligations.MatrixRoundsComplete
  refine ⟨?mdecl, ?mdeclRel, ?mma⟩
  case mdecl =>
    intro h cv a s i ex ms it g off at_ bank hi hpend aligned inside clean unlocked hstate hms
    exact exec_mdecl_of_members hi hpend (declFault_eq_none _ aligned inside clean) unlocked hstate hms
  case mdeclRel =>
    intro h cv
    refine takes_of (exec_mdeclRel h cv) fun s i ex _ ⟨hpend, hstate⟩ => ?_
    simp only [hpend, hstate, Bool.false_eq_true, if_false]
    rfl
  case mma =>
    intro h ty cv kbm1 a bs c s i ex it g q r kb ls words scales lead r' hi hpend hst hteam hsign hsame hregs hscales
      hlead hclean hstaged hfull
    rw [exec_mma, execMma]
    exact runItem_done_all hi (mmaBody_eq_done rfl rfl (lanes_ne_nil_of_issues hi)
      ⟨hpend, hst, hteam, hsign, hsame, hregs, hscales, hlead, hclean, hstaged, hfull⟩) rfl

/-- Settles O23: each instruction's operands pass their checks, and the operation that it names enters. -/
theorem tileMovesComplete : Obligations.TileMovesComplete := by
  unfold Obligations.TileMovesComplete
  refine ⟨?mldb, ?mzero, ?moves, ?mdrn⟩
  case mldb =>
    intro h sp a b c s i ex it g x row nw from_ by_ hi hzero hnw hrows hfault
    exact exec_mldb_of_checks hi rfl rfl rfl rfl rfl hzero hnw hrows hfault
  case mzero =>
    intro h a s i ex it g m ts phys hi hm hall hroom
    exact exec_mzero_of_checks hi hm rfl hall hroom
  case moves =>
    intro moves
    have of_body {ins it ty tile al sweep kind a b}
        (hx : ∀ s, exec ins s = runItem it (tileBody ty tile al (kind s) a b) s)
        (hsweep : ∀ s x y, sweepOf (kind s x y) = some (sweep x y)) : moves ins it ty tile al sweep kind a b := by
      intro s i ex ts hi htiles hfault hroom
      exact (hx s).trans (runItem_done_all hi (tileBody_eq_done htiles (hsweep ..) hfault hroom) rfl)
    clear_value moves
    exact ⟨fun h ty tile sp a b => of_body (fun _ => rfl) fun _ _ _ => rfl, fun h ty rnd tile sp a b =>
      ⟨of_body (fun _ => rfl) fun _ _ _ => rfl, of_body (fun _ => rfl) fun _ _ _ => rfl,
        of_body (fun _ => rfl) fun _ _ _ => rfl⟩⟩
  case mdrn =>
    intro h ty rnd dp tile p64 s i ex ts it g hi hactive hwidth htiles hroom
    exact exec_mdrn_of_checks hi hactive hwidth htiles hroom

/-- Settles O24: MACQ and MREL take their effect in any state, and MACQ succeeds where nothing stands in its way. -/
theorem reservationsComplete : Obligations.ReservationsComplete := by
  unfold Obligations.ReservationsComplete
  refine ⟨fun h pd a => takes_done fun _ => rfl, fun h => takes_done fun _ => rfl, ?acquire⟩
  case acquire =>
    exact fun s n team k hk hfits hfree hpool hclaim => acquireTiles_eq_true hk hfits hfree hpool hclaim

end Sys2Proof.Machine
end

section
/-! PROOF. MatrixEvents.lean: the events of the matrix units: rounds that enter the queue, MMAs, transfers, drains, and
the ends of reservations and claims (R249, R251 to R256, R259 to R261, R264, R266, R267). -/

namespace Sys2Proof.Machine

/-! ## Rounds (R249) -/

/-- A complete, checked round whose turn it is enters, unless it is not void and the queue is full. -/
theorem cvNote_enters {s : State} {n cv k : Nat} {c : CvReg} {y : Signature} (hc : cvAt (quartAt s n) cv = c)
    (hst : c.st = .signing) (hlead : (leadOf s c).bind (signatureOf c) = some y) (hchecked : y.checked = true)
    (hall : allSigned s c = true) (hk : c.complete = some k)
    (hfirst : ∀ e ∈ (quartAt s n).cvs, ∀ j, e.2.complete = some j → k ≤ j)
    (hroom : c.void = true ∨ (quartAt s n).ops.length < Config.matrixQueue) :
    cvNote s n cv = some (enterRound s n cv) := by
  have may_enter : (c.void || decide ((quartAt s n).ops.length < Config.matrixQueue)) = true := by simpa using hroom
  simp only [cvNote, hc, hst, hlead, hchecked, hall, hk, ne_eq, not_true_eq_false, Bool.not_true, Bool.false_eq_true,
    if_false]
  refine if_pos (Bool.and_eq_true_iff.mpr ⟨List.all_eq_true.mpr fun e he => ?_, may_enter⟩)
  cases hj : e.2.complete with
  | none => rfl
  | some j => simpa using hfirst e he j hj

/-! ## Products (R251 to R255) -/

theorem mmaStart_of_nextMma {s : State} {n : Nat} {o : MatOp} (ho : nextMma s (quartAt s n) = some o)
    (hclean : mmaPoisoned s n (quartAt s n) o = false) :
    mmaStart s n = some (modQuart s n fun q => modMatOp q o.id fun x =>
      let old := (mmaWindow s n o).map fun k => (k, ([] : List Word))
      { x with running := true, start := s.cycle, kind := match x.kind with
        | .mma ty kb bs ctl signed members _ => .mma ty kb bs ctl signed members old
        | k => k }) := by
  rw [mmaStart, ho, Option.map_some]
  exact congrArg some (if_neg (ne_true_of_eq_false hclean))

/-- A running MMA whose last product is 24 core cycles old writes its tile, gives its flags and leaves. -/
theorem mmaComplete_of_done {s t : State} {n id : Nat} {o : MatOp} {ty : Ty} {kb : Nat} {bs : Bool} {ctl : Word}
    {signed : List Signature} {members : List (Nat × Mask)} {old : NMap (List Word)} {words : NMap Word}
    (ho : (quartAt s n).ops.find? (fun o => o.id = id && o.running && o.off = 0) = some o)
    (hkind : o.kind = .mma ty kb bs ctl signed members old)
    (hdone : o.start + mmaCycles ty (kb - o.prog) + 24 ≤ s.cycle)
    (hwords : windowWords s (quartAt s n) old = (t, words)) :
    let es := mmaResult (quartAt s n) o ((teamAt t o.team).rowBase n) kb words
    let ff := ffAll (es.map fun e => e.2.2.2) ||| o.fflags
    mmaComplete s n id = some (members.foldl (fun s m => modGrpIf s m.1 fun g => { g with fflags := g.fflags ||| ff })
      (modQuart t n fun q => dropMatOp (es.foldl (fun q e => setElem q o.tiles e.1 e.2.1 e.2.2.1) q) id)) := by
  simp only [mmaComplete, ho, hkind, Nat.not_lt.mpr hdone, hwords, if_false]

/-! ## Zeroing and transfers (R256, R259 to R261) -/

/-- An MZERO whose turn it is starts, and zeros its tile when four core cycles have passed. -/
theorem matrixEnd_mzero {s : State} {n id : Nat} {o : MatOp} (ho : matOpAt (quartAt s n) id = some o)
    (hkind : o.kind = .mzero) (hready : matReady s (quartAt s n) o = true) :
    (matrixEnd s n id).getD s =
      if o.running = false then modQuart s n fun q => modMatOp q id fun o =>
        { o with running := true, start := s.cycle }
      else if s.cycle < o.start + 4 then s
      else endMatrix (modQuart s n fun q => o.tiles.foldl zeroTile q) n o := by
  cases hrun : o.running with
  | false => simp [matrixEnd, ho, hkind, hready, hrun]
  | true => by_cases hwait : s.cycle < o.start + 4 <;> simp [matrixEnd, ho, hkind, hready, hrun, hwait]

/-- A transfer ends after its last row or column, or, at the scratchpad, goes on with its present one. -/
theorem matrixEnd_of_sweep {s : State} {n id : Nat} {o : MatOp} {w : Sweep} (ho : matOpAt (quartAt s n) id = some o)
    (hw : sweepOf o.kind = some w) :
    matrixEnd s n id =
      if w.sp then
        if 64 ≤ o.prog then some (endMatrix s n o)
        else if !matReady s (quartAt s n) o then none
        else spService s n o w
      else if o.prog < 64 || o.req.isSome || !allApplied s o.pubs then none
      else some (endMatrix s n o) := by
  unfold matrixEnd
  simp only [ho]
  cases hkind : o.kind with
  | mma | mzero | mdrn => simp [hkind, sweepOf] at hw
  | mldb | mldc | msta =>
    rw [hkind] at hw
    simp only [hw]

/-- One service of a scratchpad transfer moves a free number of elements, where no poison and no lock is in the way. -/
theorem spService_moves {s : State} {n : Nat} {o : MatOp} {w : Sweep}
    (hclean : rowPoisoned s (quartAt s n) o w = false) :
    let left := w.count - o.off / w.step
    let k := left - Config.freeChoice s.free % left
    let t := { s with free := s.free + 1 }
    spBlocked t o w k = false →
    spService s n o w = some (modQuart (spPart t n o w k) n fun q =>
      modMatOp q o.id fun o => o.passed w (w.step * k)) := by
  intro left k t hlock
  have hlock : spBlocked s o w k = false := hlock
  simp only [spService, hclean, Bool.and_false, Bool.false_eq_true, if_false, freeChoice]
  simp only [left, k] at hlock
  simp only [hlock, Bool.false_eq_true, if_false]
  rfl

/-! ## Drains (R264) -/

theorem drainMove_of_ready {s : State} {gid dp : Nat} {o : MatOp}
    (ho : (quartAt s (grpAt s gid).quart).ops.find? (fun o => o.gid = gid && o.kind = .mdrn dp) = some o)
    (hswitch : switchingFor s o = false) (hready : matReady s (quartAt s (grpAt s gid).quart) o = true)
    (hroom : ((grpAt s gid).drain dp).rows.length < 2) (hdue : o.running = true → o.start + 2 ≤ s.cycle) :
    let g := grpAt s gid
    let q := quartAt s g.quart
    let d := g.drain dp
    drainMove s gid dp = some (modQuart (modGrp s gid fun x => x.modDrain dp fun y =>
        { y with moved := y.moved + 1, rows := y.rows ++ [drainRow q o.tiles d g.width d.moved] }) g.quart fun q =>
      if d.moved + 1 = 64 then dropMatOp q o.id
      else modMatOp q o.id fun o => { o with running := true, start := s.cycle }) := by
  have waits : (switchingFor s o || !matReady s (quartAt s (grpAt s gid).quart) o ||
      decide (2 ≤ ((grpAt s gid).drain dp).rows.length) || (o.running && decide (s.cycle < o.start + 2))) = false := by
    simpa [hswitch, hready, hroom] using hdue
  simp only [drainMove, ho, waits, Bool.false_eq_true, if_false, modGrp_cycle]

/-! ## The ends of reservations and claims (R266, R267, R271) -/

section Ends
variable {s : State} {n team : Nat}

/-- The groups of a team on a quarter. -/
abbrev teamGroups (s : State) (n team : Nat) : List Group :=
  (s.groups.filter fun e => e.2.team = team && e.2.quart = n).map (·.2)

theorem mem_teamGroups {g : Group} :
    g ∈ teamGroups s n team ↔ ∃ e ∈ s.groups, e.2.team = team ∧ e.2.quart = n ∧ e.2 = g := by
  simp only [teamGroups, List.mem_map, List.mem_filter, Bool.and_eq_true, decide_eq_true_eq, and_assoc]

/-- A reservation whose team has executed MREL ends once no queued operation names a reserved tile. -/
theorem released_of_mrel (hmrel : ∃ e ∈ s.groups, e.2.team = team ∧ e.2.quart = n ∧ ∃ o ∈ e.2.ops, o.kind = .mrel)
    (htiles : ∀ o ∈ (quartAt s n).ops, ∀ t ∈ o.tiles, t < 16) :
    ((teamGroups s n team).any fun g => g.ops.any fun o => o.kind = .mrel) = true ∧
      ((quartAt s n).ops.any fun o => o.tiles.any fun t => 16 ≤ t) = false := by
  obtain ⟨e, he, hteam, hquart, o, ho, hkind⟩ := hmrel
  constructor
  · exact List.any_eq_true.mpr ⟨e.2, mem_teamGroups.mpr ⟨e, he, hteam, hquart, rfl⟩,
      List.any_eq_true.mpr ⟨o, ho, decide_eq_true hkind⟩⟩
  · simpa using htiles

/-- It ends as well once its team has neither a thread on the quarter nor an operation queued there. -/
theorem released_of_past (hpast : ∀ e ∈ s.groups, e.2.team = team → e.2.quart = n → e.2.live = 0)
    (hqueued : ∀ o ∈ (quartAt s n).ops ++ (quartAt s n).loads, o.team ≠ team) :
    ((teamGroups s n team).all fun g => g.live = 0) = true ∧
      (((quartAt s n).ops ++ (quartAt s n).loads).any fun o => o.team = team) = false := by
  constructor
  · refine List.all_eq_true.mpr fun g hg => decide_eq_true ?_
    obtain ⟨e, he, hteam, hquart, rfl⟩ := mem_teamGroups.mp hg
    exact hpast e he hteam hquart
  · exact List.any_eq_false.mpr fun o ho => by simpa using hqueued o ho

theorem releaseTiles_of_released {k : Nat} (hres : (quartAt s n).reserved = some (team, k))
    (h : (∃ e ∈ s.groups, e.2.team = team ∧ e.2.quart = n ∧ ∃ o ∈ e.2.ops, o.kind = .mrel) ∧
        (∀ o ∈ (quartAt s n).ops, ∀ t ∈ o.tiles, t < 16) ∨
      (∀ e ∈ s.groups, e.2.team = team → e.2.quart = n → e.2.live = 0) ∧
        ∀ o ∈ (quartAt s n).ops ++ (quartAt s n).loads, o.team ≠ team) :
    releaseTiles s n = some (modQuart s n fun q =>
      { q with reserved := none, cells := q.cells.filter fun e => e.1 < 4096 * 16
               cellPoison := q.cellPoison.filter fun k => k < 4096 * 16 }) := by
  rcases h with ⟨hmrel, htiles⟩ | ⟨hpast, hqueued⟩
  · obtain ⟨asked, unnamed⟩ := released_of_mrel hmrel htiles
    simp only [releaseTiles, hres, asked, unnamed, Bool.not_false, Bool.and_self, Bool.not_true, Bool.false_and,
      Bool.false_eq_true, if_false]
  · obtain ⟨past, unqueued⟩ := released_of_past hpast hqueued
    simp only [releaseTiles, hres, past, unqueued, Bool.not_false, Bool.and_self, Bool.not_true, Bool.and_false,
      Bool.false_eq_true, if_false]

theorem expireClaim_of_past {gt : Nat} (hclaim : (quartAt s n).claimant = some (team, gt))
    (h : gt + 1024 ≤ gtOf s ∨ ∀ e ∈ s.groups, e.2.team = team → e.2.live = 0) :
    expireClaim s n = some (modQuart s n fun q => { q with claimant := none }) := by
  simp only [expireClaim, hclaim]
  refine if_pos (Bool.or_eq_true_iff.mpr ?_)
  rcases h with hticks | hpast
  · exact .inr (decide_eq_true hticks)
  · exact .inl (List.all_eq_true.mpr fun e he => by simpa [Decidable.imp_iff_not_or] using hpast e he)

end Ends

/-! ## The statement -/

/-- Settles O36: each event finds what it needs, and does what the matrix units do then. -/
theorem matrixEventsComplete : Obligations.MatrixEventsComplete := by
  unfold Obligations.MatrixEventsComplete
  refine ⟨?enter, ?start, ?complete, ?mzero, ?memory, ?scratch, ?drain, ?release, ?expiry⟩
  case enter =>
    intro s core qn cv n q c y k hst hlead hchecked hall hk hfirst hroom
    exact next_getD_of_eq_some (cvNote_enters rfl hst hlead hchecked hall hk hfirst hroom)
  case start =>
    intro s core qn o n ho hclean
    exact next_getD_of_eq_some (mmaStart_of_nextMma ho hclean)
  case complete =>
    intro s core qn id o ty kb bs ctl signed members old t words n ho hkind hdone hwords
    exact next_getD_of_eq_some (mmaComplete_of_done ho hkind hdone hwords)
  case mzero =>
    intro s core qn id o n ho hkind hready
    exact congrArg Host.Outcome.next (matrixEnd_mzero ho hkind hready)
  case memory =>
    intro s core qn id o w n ho hw hsp hlast hreq happlied
    have ended : matrixEnd s n id = some (endMatrix s n o) := by
      simp [matrixEnd_of_sweep ho hw, hsp, Nat.not_lt.mpr hlast, hreq, happlied]
    exact next_getD_of_eq_some ended
  case scratch =>
    intro s core qn id o w n ho hw hsp
    refine ⟨fun hlast => ?_, fun hrows hready hclean => ?_⟩
    · have ended : matrixEnd s n id = some (endMatrix s n o) := by
        simp only [matrixEnd_of_sweep ho hw, hsp, hlast, if_true]
      exact next_getD_of_eq_some ended
    · intro left k t hlock
      have served : matrixEnd s n id = spService s n o w := by
        simp [matrixEnd_of_sweep ho hw, hsp, Nat.not_le.mpr hrows, hready]
      exact next_getD_of_eq_some (served.trans (spService_moves hclean hlock))
  case drain =>
    intro s gid dp o g q d ho hswitch hready hroom hdue
    exact next_getD_of_eq_some (drainMove_of_ready ho hswitch hready hroom hdue)
  case release =>
    intro s core qn team k n hres h
    exact next_getD_of_eq_some (releaseTiles_of_released hres h)
  case expiry =>
    intro s core qn team gt n hclaim h
    exact next_getD_of_eq_some (expireClaim_of_past hclaim h)

end Sys2Proof.Machine
end

section
/-! PROOF. FencesAndRunner.lean: FENCE, and the instructions of the runner network: GRED and GRES (R288, R311 to R314,
R393). -/

namespace Sys2Proof.Machine

/-! ## What each instruction runs -/

theorem exec_gred (h : Hdr) (xa : Fin 8) (a : Opnd) (s : State) : exec (.gred h xa a) s = execGred h xa a s := rfl

theorem exec_gres_typed (h : Hdr) (ty : Ty) (rnd : Rnd) (d a : Opnd) (s : State) :
    exec (.gres h (.typed ty rnd d) a) s =
      runItem { runItemNet h [a] [d] with setsFlags := true } (gresBody ty rnd d none a) s := rfl

theorem exec_gres_whole (h : Hdr) (x : Fin 8) (a : Opnd) (s : State) :
    exec (.gres h (.whole x) a) s =
      runItem { runItemNet h [a] [.zero] with xas := [x.val], xaFresh := true }
        (gresBody .none .rne .zero (some x.val) a) s := rfl

/-! ## Rounds count mod 2^16 (R311) -/

theorem roundAfter_ne_self (r : BitVec 16) : roundAfter r.toNat ≠ r.toNat := by
  have := r.isLt
  unfold roundAfter
  omega

theorem roundAfter_roundAfter_ne_self (r : BitVec 16) : roundAfter (roundAfter r.toNat) ≠ r.toNat := by
  have := r.isLt
  unfold roundAfter
  omega

/-! ## GRED (R313, R393) -/

section Gred
variable {h : Hdr} {xa : Fin 8} {a : Opnd} {s : State} {i : Issue} {ex : Mask} {w : Word} {n : Nat}

/-- GRED to the present round contributes its accumulator, where its count agrees and nothing that waits comes first. -/
theorem exec_gred_of_present (hi : Issues { runItemNet h [a] [] with xas := [xa.val] } s i ex)
    (hw : scalarOf s i.gid ex a = w) (hn : objNo (lidOf s i.gid) (hObj w) = n) (hfault : runnerFault s n w = none)
    (hround : hRound w = (objAt s n).round.toNat) (hcount : countBad (objAt s n) (hCount w) = false)
    (hmay : mayContribute s n (hCount w) 1 = true) :
    exec (.gred h xa a) s = .next (finishIssue (modObj (noteNet s i.gid w) n fun o => contribute o (hCount w) 1
      (BitVec.ofNat 4280 (xaValue ((grpAt s i.gid).acc xa.val)))
      (BitVec.ofNat 8 (xaStatus ((grpAt s i.gid).acc xa.val))))
      i { runItemNet h [a] [] with xas := [xa.val] } ex {}) := by
  rw [exec_gred, execGred]
  refine runItem_done_all hi ?_ rfl
  simp only [hw, hn, hfault, hround, hcount, hmay, if_true, Bool.not_true, Bool.false_eq_true, if_false]

/-- GRED to the next round keeps its contribution, and waits. -/
theorem exec_gred_of_next (hi : Issues { runItemNet h [a] [] with xas := [xa.val] } s i ex)
    (hw : scalarOf s i.gid ex a = w) (hn : objNo (lidOf s i.gid) (hObj w) = n) (hfault : runnerFault s n w = none)
    (hround : hRound w = roundAfter (objAt s n).round.toNat) :
    exec (.gred h xa a) s = .next (finishIssue (noteNet s i.gid w) i { runItemNet h [a] [] with xas := [xa.val] } ex
      { kind := .gred n (hRound w) (hCount w) (BitVec.ofNat 4280 (xaValue ((grpAt s i.gid).acc xa.val)))
          (BitVec.ofNat 8 (xaStatus ((grpAt s i.gid).acc xa.val))) }) := by
  rw [exec_gred, execGred]
  refine runItem_done_all hi ?_ rfl
  simp only [hw, hn, hfault, hround, roundAfter_ne_self, if_true, if_false]

end Gred

/-! ## GRES (R314) -/

section Gres
variable {ty : Ty} {rnd : Rnd} {d a : Opnd} {xa : Option Nat} {s : State} {i : Issue} {ex : Mask} {w : Word} {n : Nat}

/-- A typed GRES writes the sum, rounded, in each lane. -/
theorem gresEffect_typed (m : Rnd) (r : BitVec 4280 × BitVec 8) :
    gresEffect s i.gid ex ty m d none r =
      (s, destWrites d ((lanesOf 64 ex).map fun l =>
        (l, (BitVec.ofNat 64 (xrndOp ty m (xaMake r.1.toNat r.2.toNat)).1 : Word))),
        (xrndOp ty m (xaMake r.1.toNat r.2.toNat)).2) := rfl

/-- GRES of a whole sum replaces the accumulator, and writes nothing else. -/
theorem gresEffect_whole (x : Nat) (m : Rnd) (r : BitVec 4280 × BitVec 8) :
    gresEffect s i.gid ex ty m d (some x) r = (setAcc s i.gid x (xaMake r.1.toNat r.2.toNat), [], 0) := rfl

/-- GRES of the round before the present one takes its result, where the object has it. -/
theorem gresBody_of_result {r : BitVec 4280 × BitVec 8} {t : State} {ws : List RegWrite} {ff : FF}
    (hw : scalarOf s i.gid ex a = w) (hn : objNo (lidOf s i.gid) (hObj w) = n) (hfault : runnerFault s n w = none)
    (hround : roundAfter (hRound w) = (objAt s n).round.toNat) (hresult : (objAt s n).result = some r)
    (heffect : gresEffect s i.gid ex ty (modeOf (grpAt s i.gid) rnd) d xa r = (t, ws, ff)) :
    gresBody ty rnd d xa a i ex s = .done { writes := ws, fflags := ff } t := by
  simp only [gresBody, hw, hn, hfault, hround, hresult, heffect, if_true]

/-- GRES of the present round or of the next waits for its result. -/
theorem gresBody_of_waits (hw : scalarOf s i.gid ex a = w) (hn : objNo (lidOf s i.gid) (hObj w) = n)
    (hfault : runnerFault s n w = none)
    (hround : hRound w = (objAt s n).round.toNat ∨ hRound w = roundAfter (objAt s n).round.toNat) :
    gresBody ty rnd d xa a i ex s =
      .done { kind := .gres n (hRound w) ty (modeOf (grpAt s i.gid) rnd) d xa } s := by
  have not_complete : roundAfter (hRound w) ≠ (objAt s n).round.toNat := by
    rcases hround with hround | hround <;> rw [hround]
    · exact roundAfter_ne_self _
    · exact roundAfter_roundAfter_ne_self _
  have waits : (decide (hRound w = (objAt s n).round.toNat) ||
      decide (hRound w = roundAfter (objAt s n).round.toNat)) = true := by simpa using hround
  simp only [gresBody, hw, hn, hfault, not_complete, waits, if_true, if_false]

end Gres

/-! ## The statement -/

/-- Settles O26: each instruction runs its item; the round that GRED and GRES name, among those of the object, tells
whether it takes its effect or waits. -/
theorem fencesAndRunnerComplete : Obligations.FencesAndRunnerComplete := by
  unfold Obligations.FencesAndRunnerComplete
  refine ⟨?fence, ?gred, ?gresTyped, ?gresWhole⟩
  case fence => exact fun h kind sc => takes_done fun _ => rfl
  case gred =>
    intro h xa a s i ex it w n o x hi hfault
    exact ⟨exec_gred_of_present hi rfl rfl hfault, exec_gred_of_next hi rfl rfl hfault⟩
  case gresTyped =>
    intro h ty rnd d a s i ex it w n o m hi hfault
    constructor
    · intro r hround hresult
      exact (exec_gres_typed ..).trans (runItem_done_all hi
        (gresBody_of_result rfl rfl hfault hround hresult (gresEffect_typed ..)) rfl)
    · intro hround
      exact (exec_gres_typed ..).trans (runItem_done_all hi (gresBody_of_waits rfl rfl hfault hround) rfl)
  case gresWhole =>
    intro h x a s i ex it w n hi hfault r hround hresult
    exact (exec_gres_whole ..).trans (runItem_done_all hi
      (gresBody_of_result rfl rfl hfault hround hresult (gresEffect_whole ..)) rfl)

end Sys2Proof.Machine
end

section
/-! PROOF. CanonicalMemories.lean: a change that keeps every byte memory canonical, said of each kind of answer that
holds a state, and the rules of the updates that touch the four memories. -/

namespace Sys2Proof.Machine

/-! ## What an answer that holds states must meet -/

/-- The first component of a pair meets a predicate. -/
def FstWf {α β : Type} (P : α → Prop) (x : α × β) : Prop := P x.1
/-- The second component of a pair meets a predicate. -/
def SndWf {α β : Type} (P : β → Prop) (x : α × β) : Prop := P x.2
/-- What an option holds, if anything, meets a predicate. -/
def SomeWf {α : Type} (P : α → Prop) (o : Option α) : Prop := ∀ x, o = some x → P x
/-- A next state has canonical memories. -/
def OutWf (o : Out) : Prop := ∀ t, o = .next t → MemoriesWf t
/-- The state that a body answers has canonical memories. -/
def BodyWf (b : Body) : Prop :=
  match b with
  | .begun s | .laneFault _ s | .done _ s => MemoriesWf s
  | .wait | .fault _ | .trap _ => True

section
variable {α β γ : Type} {P : α → Prop} {Q : β → Prop}

theorem FstWf.mk {a : α} {b : β} (h : P a) : FstWf P (a, b) := h
theorem FstWf.fst {x : α × β} (h : FstWf P x) : P x.1 := h
theorem FstWf.of_eq {x : α × β} {a : α} {b : β} (h : FstWf P x) (e : x = (a, b)) : P a := by subst e; exact h
theorem SndWf.mk {a : α} {b : β} (h : Q b) : SndWf Q (a, b) := h
theorem SndWf.snd {x : α × β} (h : SndWf Q x) : Q x.2 := h
theorem SndWf.of_eq {x : α × β} {a : α} {b : β} (h : SndWf Q x) (e : x = (a, b)) : Q b := by subst e; exact h

theorem SomeWf.none : SomeWf P none := fun _ h => nomatch h
theorem SomeWf.some {a : α} (h : P a) : SomeWf P (some a) := fun _ e => Option.some.inj e ▸ h
theorem SomeWf.of_eq {o : Option α} {a : α} (h : SomeWf P o) (e : o = .some a) : P a := h a e
theorem SomeWf.map {o : Option β} {f : β → α} (h : ∀ b, o = .some b → P (f b)) : SomeWf P (o.map f) := fun x e => by
  obtain ⟨b, hb, rfl⟩ := Option.map_eq_some_iff.1 e
  exact h b hb
theorem SomeWf.bind {o : Option β} {f : β → Option α} (h : ∀ b, o = .some b → SomeWf P (f b)) :
    SomeWf P (o.bind f) := fun x e => by
  obtain ⟨b, hb, hf⟩ := Option.bind_eq_some_iff.1 e
  exact h b hb x hf
theorem SomeWf.orElse {o p : Option α} (ho : SomeWf P o) (hp : SomeWf P p) : SomeWf P (o <|> p) := by
  cases o with
  | none => exact hp
  | some a => exact ho
theorem SomeWf.getD {o : Option α} {a : α} (ho : SomeWf P o) (ha : P a) : P (o.getD a) := by
  cases o with
  | none => exact ha
  | some b => exact ho b rfl
theorem SomeWf.findSome {f : β → Option α} {xs : List β} (h : ∀ b, SomeWf P (f b)) :
    SomeWf P (xs.findSome? f) := fun x e => by
  obtain ⟨b, _, hb⟩ := List.exists_of_findSome?_eq_some e
  exact h b x hb

theorem keeps_ite {c : Prop} [Decidable c] {a b : α} (ha : P a) (hb : P b) : P (if c then a else b) := by
  split
  · exact ha
  · exact hb
theorem keeps_dite {c : Prop} [Decidable c] {a : c → α} {b : ¬c → α} (ha : ∀ h, P (a h)) (hb : ∀ h, P (b h)) :
    P (if h : c then a h else b h) := by
  split
  · exact ha _
  · exact hb _

theorem keeps_foldl {f : α → β → α} {xs : List β} {a : α} (hf : ∀ a x, P a → P (f a x)) (ha : P a) :
    P (xs.foldl f a) := by
  induction xs generalizing a with
  | nil => exact ha
  | cons x xs ih => exact ih (hf a x ha)
theorem keeps_foldr {f : β → α → α} {xs : List β} {a : α} (hf : ∀ x a, P a → P (f x a)) (ha : P a) :
    P (xs.foldr f a) := by
  induction xs with
  | nil => exact ha
  | cons x xs ih => exact hf x _ ih
end

/-- The left of a sum meets a predicate. -/
def LeftWf {α β : Type} (P : α → Prop) (x : α ⊕ β) : Prop := ∀ a, x = .inl a → P a
/-- An error meets a predicate. -/
def ErrorWf {α β : Type} (P : α → Prop) (x : Except α β) : Prop := ∀ a, x = .error a → P a
/-- The state that reading a descriptor gives has canonical memories. -/
def DescReadWf (d : DescRead) : Prop :=
  match d with
  | .begins s | .fails _ s | .has _ s => MemoriesWf s
  | .waits => True
/-- The state that making a line ready gives has canonical memories. -/
def ReadyWf (r : Ready) : Prop :=
  match r with
  | .go s => MemoriesWf s
  | .yes | .no => True
/-- The state that a record's check gives has canonical memories. -/
def VerdictWf (v : Verdict) : Prop :=
  match v with
  | .go s => MemoriesWf s
  | .pass | .fail | .wait => True
/-- The state that pinning pages gives has canonical memories. -/
def SetupWf (x : Setup) : Prop :=
  match x with
  | .ready s | .waits s | .fails s _ => MemoriesWf s

section
variable {α β : Type} {P : α → Prop} {s : State}
theorem LeftWf.inl {a : α} (h : P a) : LeftWf P (.inl a : α ⊕ β) := fun _ e => Sum.inl.inj e ▸ h
theorem LeftWf.inr {b : β} : LeftWf P (.inr b) := fun _ e => nomatch e
theorem LeftWf.of_inl {x : α ⊕ β} {a : α} (h : LeftWf P x) (e : x = .inl a) : P a := h a e
theorem ErrorWf.error {a : α} (h : P a) : ErrorWf P (.error a : Except α β) := fun _ e => Except.error.inj e ▸ h
theorem ErrorWf.ok {b : β} : ErrorWf P (.ok b) := fun _ e => nomatch e
theorem ErrorWf.of_error {x : Except α β} {a : α} (h : ErrorWf P x) (e : x = .error a) : P a := h a e
theorem DescReadWf.of_begins {d : DescRead} (h : DescReadWf d) (e : d = .begins s) : MemoriesWf s := by
  subst e; exact h
theorem DescReadWf.of_fails {d : DescRead} {c : Cause} (h : DescReadWf d) (e : d = .fails c s) : MemoriesWf s := by
  subst e; exact h
theorem DescReadWf.of_has {d : DescRead} {x : BitVec 512} (h : DescReadWf d) (e : d = .has x s) : MemoriesWf s := by
  subst e; exact h
theorem ReadyWf.go (h : MemoriesWf s) : ReadyWf (.go s) := h
theorem ReadyWf.of_go {r : Ready} (h : ReadyWf r) (e : r = .go s) : MemoriesWf s := by subst e; exact h
theorem VerdictWf.of_go {v : Verdict} (h : VerdictWf v) (e : v = .go s) : MemoriesWf s := by subst e; exact h
theorem SetupWf.of_ready {x : Setup} (h : SetupWf x) (e : x = .ready s) : MemoriesWf s := by subst e; exact h
theorem SetupWf.of_waits {x : Setup} (h : SetupWf x) (e : x = .waits s) : MemoriesWf s := by subst e; exact h
theorem SetupWf.of_fails {x : Setup} {r : Nat} (h : SetupWf x) (e : x = .fails s r) : MemoriesWf s := by
  subst e; exact h
theorem OutWf.of_next {o : Out} (h : OutWf o) (e : o = .next s) : MemoriesWf s := h s e
theorem BodyWf.of_begun {b : Body} (h : BodyWf b) (e : b = .begun s) : MemoriesWf s := by subst e; exact h
theorem BodyWf.of_laneFault {b : Body} {c : Cause} (h : BodyWf b) (e : b = .laneFault c s) : MemoriesWf s := by
  subst e; exact h
theorem BodyWf.of_done {b : Body} {f : Effect} (h : BodyWf b) (e : b = .done f s) : MemoriesWf s := by
  subst e; exact h
end

theorem OutWf.next {s : State} (h : MemoriesWf s) : OutWf (.next s) := fun _ e => Host.Outcome.next.inj e ▸ h
theorem OutWf.fault {f : Fault} : OutWf (.fault f) := fun _ e => nomatch e
theorem OutWf.refused {r : Refusal} : OutWf (.refused r) := fun _ e => nomatch e
theorem BodyWf.wait : BodyWf .wait := trivial
theorem BodyWf.fault {c : Cause} : BodyWf (.fault c) := trivial
theorem BodyWf.trap {c : Cause} : BodyWf (.trap c) := trivial
theorem BodyWf.begun {s : State} (h : MemoriesWf s) : BodyWf (.begun s) := h
theorem BodyWf.laneFault {c : Cause} {s : State} (h : MemoriesWf s) : BodyWf (.laneFault c s) := h
theorem BodyWf.done {e : Effect} {s : State} (h : MemoriesWf s) : BodyWf (.done e s) := h

/-- A change of other fields keeps the memories. -/
theorem memoriesWf_update {s : State} (h : MemoriesWf s) {variant : Variant} {flash : Flash} {power : Power}
    {ready : Bool} {modules cycle free nextId cecnt uecnt assaymis : Nat} {recoveryImage : Option (List Byte)}
    {agenda : List Action} {issuing : Option Issue} {launches : NMap Launch} {groups : NMap Group} {cores : NMap
    Core} {quarters : NMap Quarter} {slices : NMap Slice} {blocks : NMap TlbBlock} {requests : NMap Request} {pubs :
    NMap Pub} {releases : NMap Release} {probes : NMap Probe} {phasers : NMap Phaser} {objects : NMap RunObj}
    {fences : NMap Nat} {hbmPoison hbmCorrectable : List Nat} {hostOps : List HostOp} {hostBefore : List (HostOp ×
    List Nat)} {sysOps : List SysOp} {biDir : List (Nat × Nat × Bool)} {biWait : List (Nat × Bool)} {localReq
    remoteReq hostReq : NMap Word} {ingot : Ingot} {toHost : List HostMsg} :
    MemoriesWf (State.mk variant flash power ready modules recoveryImage cycle free agenda issuing nextId s.parts
      launches s.teams groups cores quarters slices blocks requests pubs releases probes phasers objects fences s.hbm
      hbmPoison hbmCorrectable s.hostMem hostOps hostBefore sysOps biDir biWait localReq remoteReq hostReq cecnt uecnt
      assaymis ingot toHost) := h


/-! ## Maps -/

theorem forall_mem_mapPut {α : Type} {P : α → Prop} {m : NMap α} {k : Nat} {x : α} (hm : ∀ e ∈ m, P e.2) (hx : P x) :
    ∀ e ∈ mapPut m k x, P e.2 := by
  induction m with
  | nil => simpa [mapPut] using hx
  | cons e m ih =>
    obtain ⟨j, y⟩ := e
    obtain ⟨hy, hm⟩ := List.forall_mem_cons.1 hm
    unfold mapPut
    split
    · exact List.forall_mem_cons.2 ⟨hx, List.forall_mem_cons.2 ⟨hy, hm⟩⟩
    · split
      · exact List.forall_mem_cons.2 ⟨hx, hm⟩
      · exact List.forall_mem_cons.2 ⟨hy, ih hm⟩

theorem forall_mem_mapErase {α : Type} {P : α → Prop} {m : NMap α} {k : Nat} (hm : ∀ e ∈ m, P e.2) :
    ∀ e ∈ mapErase m k, P e.2 := by
  induction m with
  | nil => exact hm
  | cons e m ih =>
    obtain ⟨j, y⟩ := e
    obtain ⟨hy, hm⟩ := List.forall_mem_cons.1 hm
    unfold mapErase
    split
    · exact hm
    · exact List.forall_mem_cons.2 ⟨hy, ih hm⟩

theorem mapGet_of_forall {α : Type} {P : α → Prop} {d : α} {m : NMap α} (hm : ∀ e ∈ m, P e.2) (hd : P d) (k : Nat) :
    P (mapGet d m k) := by
  induction m with
  | nil => exact hd
  | cons e m ih =>
    obtain ⟨j, y⟩ := e
    obtain ⟨hy, hm⟩ := List.forall_mem_cons.1 hm
    unfold mapGet mapFind
    split
    · exact hy
    · exact ih hm

/-! ## The four memories -/

section
variable {s : State}

theorem scratch_wf (hs : MemoriesWf s) (n : Nat) : Memory.wf (teamAt s n).scratch = true :=
  mapGet_of_forall (P := fun t : Team => Memory.wf t.scratch = true) hs.2.2.2 empty_wf n

theorem carved_wf (hs : MemoriesWf s) (n : Nat) : Memory.wf (partAt s n).carved = true :=
  mapGet_of_forall (P := fun p : Partition => Memory.wf p.carved = true) hs.2.2.1 empty_wf n

/-- A change of one team that keeps its scratchpad canonical. -/
theorem memoriesWf_modTeam {n : Nat} {f : Team → Team}
    (hs : MemoriesWf s)
    (hf : ∀ t, Memory.wf t.scratch = true → Memory.wf (f t).scratch = true := by exact fun _ h => h) :
    MemoriesWf (modTeam s n f) := by
  obtain ⟨hbm, host, parts, teams⟩ := hs
  exact ⟨hbm, host, parts, forall_mem_mapPut (P := fun t : Team => Memory.wf t.scratch = true) teams
    (hf _ (scratch_wf ⟨hbm, host, parts, teams⟩ n))⟩

/-- Bytes written to the host's memory. -/
theorem memoriesWf_writeHost (hs : MemoriesWf s) {a n x : Nat} :
    MemoriesWf { s with hostMem := memWriteLE s.hostMem a n x } := by
  obtain ⟨hbm, host, parts, teams⟩ := hs
  exact ⟨hbm, memWriteLE_wf a n x host, parts, teams⟩

/-- A change of one partition that keeps its carved storage canonical. -/
theorem memoriesWf_modPart {n : Nat} {f : Partition → Partition}
    (hs : MemoriesWf s)
    (hf : ∀ p, Memory.wf p.carved = true → Memory.wf (f p).carved = true := by exact fun _ h => h) :
    MemoriesWf (modPart s n f) := by
  obtain ⟨hbm, host, parts, teams⟩ := hs
  exact ⟨hbm, host, forall_mem_mapPut (P := fun p : Partition => Memory.wf p.carved = true) parts
    (hf _ (carved_wf ⟨hbm, host, parts, teams⟩ n)), teams⟩
end

end Sys2Proof.Machine
end

section
/-! PROOF. MemoriesInItems.lean: what the issue and completion of items leave canonical: the shared operations, then the
instructions of classes 0x000 to 0x2C0, each by the operations that it is made of.
The lemmas are elaborated one after another: all at once they need more threads than the memory limit allows. -/

namespace Sys2Proof.Machine

set_option Elab.async false

/-! ## Objects of the state, by number -/

theorem memoriesWf_putGrp {s : State} (hm : MemoriesWf s) {g : Nat} {x : Group} : MemoriesWf (putGrp s g x) :=
  hm

theorem memoriesWf_modGrp {s : State} (hm : MemoriesWf s) {g : Nat} {f : Group → Group} :
    MemoriesWf (modGrp s g f) :=
  memoriesWf_putGrp hm

theorem memoriesWf_modLaunch {s : State} (hm : MemoriesWf s) {l : Nat} {f : Launch → Launch} :
    MemoriesWf (modLaunch s l f) :=
  hm

theorem memoriesWf_modCore {s : State} (hm : MemoriesWf s) {c : Nat} {f : Core → Core} :
    MemoriesWf (modCore s c f) :=
  hm

theorem memoriesWf_modQuart {s : State} (hm : MemoriesWf s) {n : Nat} {f : Quarter → Quarter} :
    MemoriesWf (modQuart s n f) :=
  hm

theorem memoriesWf_modSlice {s : State} (hm : MemoriesWf s) {n : Nat} {f : Slice → Slice} :
    MemoriesWf (modSlice s n f) :=
  hm

theorem memoriesWf_modBlock {s : State} (hm : MemoriesWf s) {n : Nat} {f : TlbBlock → TlbBlock} :
    MemoriesWf (modBlock s n f) :=
  hm

theorem memoriesWf_modPhaser {s : State} (hm : MemoriesWf s) {n : Nat} {f : Phaser → Phaser} :
    MemoriesWf (modPhaser s n f) :=
  hm

theorem memoriesWf_freshId {s : State} (hm : MemoriesWf s) : SndWf MemoriesWf (freshId s) :=
  SndWf.mk hm

theorem memoriesWf_freeChoice {s : State} (hm : MemoriesWf s) {n : Nat} : SndWf MemoriesWf (freeChoice s n) :=
  SndWf.mk hm

theorem memoriesWf_freeWord {s : State} (hm : MemoriesWf s) : SndWf MemoriesWf (freeWord s) :=
  SndWf.mk hm

theorem memoriesWf_modThread {s : State} (hm : MemoriesWf s) {g l : Nat} {f : Thread → Thread} :
    MemoriesWf (modThread s g l f) :=
  memoriesWf_modGrp hm

/-! ## Bytes at their homes -/

theorem memoriesWf_homeWrite {s : State} (hm : MemoriesWf s) {part : Nat} {b : Byte} {h : Home} :
    MemoriesWf (homeWrite s part b h) := by
  cases h with
  | hbm a =>
    obtain ⟨hbm, host, parts, teams⟩ := hm
    exact ⟨memWrite_wf a b hbm, host, parts, teams⟩
  | carved o => exact memoriesWf_modPart hm fun _ h => memWrite_wf _ _ h
  | host a =>
    obtain ⟨hbm, host, parts, teams⟩ := hm
    exact ⟨hbm, memWrite_wf a b host, parts, teams⟩

theorem memoriesWf_homeWriteLE {s : State} (hm : MemoriesWf s) {part : Nat} {h : Home} {n x : Nat} :
    MemoriesWf (homeWriteLE s part h n x) := by
  induction n generalizing s h x with
  | zero => exact hm
  | succ n ih => exact ih (memoriesWf_homeWrite hm)

theorem memoriesWf_homeWriteMask {s : State} (hm : MemoriesWf s) {part : Nat} {h : Home} {x m i n : Nat} :
    MemoriesWf (homeWriteMask s part h x m i n) := by
  induction n generalizing s i with
  | zero => exact hm
  | succ n ih => exact ih (keeps_ite (memoriesWf_homeWrite hm) hm)

theorem memoriesWf_pinPage {s : State} (hm : MemoriesWf s) {lid page : Nat} : MemoriesWf (pinPage s lid page) :=
  keeps_ite hm (memoriesWf_modLaunch hm)

/-! ## Shared operations -/

theorem memoriesWf_scratchWrite {s : State} (hm : MemoriesWf s) {team off n x : Nat} :
    MemoriesWf (scratchWrite s team off n x) :=
  memoriesWf_modTeam hm (fun _ ht => memWriteLE_wf _ _ _ ht)

theorem memoriesWf_scratchWriteMask {s : State} (hm : MemoriesWf s) {team off : Nat} {data : BitVec 256}
    {mask : BitVec 32} : MemoriesWf (scratchWriteMask s team off data mask) :=
  keeps_foldl (fun _ _ ht => keeps_ite (memoriesWf_scratchWrite ht) ht) hm

theorem memoriesWf_sendFetch {s : State} (hm : MemoriesWf s) {core lid asid line : Nat}
    {who : Option (Nat × Word × Nat)} : MemoriesWf (sendFetch s core lid asid line who) :=
  keeps_ite hm (memoriesWf_update hm)

theorem memoriesWf_fillInstr {s : State} (hm : MemoriesWf s) {core lid va : Nat} {who : Option (Nat × Word × Nat)} :
    MemoriesWf (fillInstr s core lid va who) := by
  unfold fillInstr
  refine keeps_ite hm ?_
  split
  · exact keeps_ite (memoriesWf_pinPage (memoriesWf_modCore (memoriesWf_sendFetch hm))) (memoriesWf_modCore
        (memoriesWf_sendFetch hm))
  · exact hm

theorem memoriesWf_fetchFor {s : State} (hm : MemoriesWf s) {g : Nat} {pc : Word} {l va : Nat} :
    MemoriesWf (fetchFor s g pc l va) :=
  memoriesWf_fillInstr (memoriesWf_fillInstr hm)

theorem memoriesWf_fetchLines {s : State} (hm : MemoriesWf s) {g va : Nat} : MemoriesWf (fetchLines s g va) :=
  memoriesWf_fetchFor hm

theorem memoriesWf_postEscalation {s : State} (hm : MemoriesWf s) {core : Nat} {r : MboxRec} {w : Waiter} :
    MemoriesWf (postEscalation s core r w) := by
  unfold postEscalation
  dsimp only
  split
  · split
    · exact memoriesWf_modGrp (memoriesWf_modCore hm)
    · exact memoriesWf_modGrp (memoriesWf_modCore hm)
    · exact memoriesWf_modCore hm
  · split
    · exact memoriesWf_modGrp (memoriesWf_modCore hm)
    · exact memoriesWf_modGrp (memoriesWf_modCore hm)
    · exact memoriesWf_modCore hm

theorem memoriesWf_countCause {s : State} (hm : MemoriesWf s) {lid : Nat} {c : CauseCode} :
    MemoriesWf (countCause s lid c) :=
  memoriesWf_modLaunch hm

theorem memoriesWf_escalate {s : State} (hm : MemoriesWf s) {gid : Nat} {pc : Word} {c : Cause} {orig : Nat} :
    MemoriesWf (escalate s gid pc c orig) :=
  memoriesWf_postEscalation (memoriesWf_countCause (keeps_ite (memoriesWf_update (memoriesWf_modGrp hm))
      (memoriesWf_modGrp hm)))

theorem memoriesWf_escalateFree {s : State} (hm : MemoriesWf s) {core kind cause asid : Nat} {w2 : Word}
    {w : Waiter} : MemoriesWf (escalateFree s core kind cause asid w2 w) :=
  memoriesWf_postEscalation hm

theorem memoriesWf_postBadWalk {s : State} (hm : MemoriesWf s) {core lid asid va : Nat} :
    MemoriesWf (postBadWalk s core lid asid va) :=
  keeps_ite (memoriesWf_escalateFree hm) hm

theorem memoriesWf_dropHint {s : State} (hm : MemoriesWf s) {core lid asid va lanes : Nat} :
    MemoriesWf (dropHint s core lid asid va lanes) := by
  unfold dropHint
  refine keeps_ite (keeps_ite (memoriesWf_modCore hm) ?_) (memoriesWf_modCore hm)
  split
  · exact memoriesWf_modCore hm
  · exact memoriesWf_modCore (memoriesWf_modCore hm)

theorem memoriesWf_prefetchInstr {s : State} (hm : MemoriesWf s) {core lid va n : Nat} :
    MemoriesWf (prefetchInstr s core lid va n) := by
  induction n generalizing s va with
  | zero => exact hm
  | succ n ih =>
    unfold prefetchInstr
    dsimp only
    split
    · exact ih (memoriesWf_fillInstr hm)
    · exact memoriesWf_dropHint (memoriesWf_postBadWalk hm)
    · exact memoriesWf_dropHint hm

theorem memoriesWf_enterLane {s : State} (hm : MemoriesWf s) {g l n : Nat} : MemoriesWf (enterLane s g l n) := by
  induction n generalizing s with
  | zero => exact hm
  | succ n ih =>
    unfold enterLane
    refine keeps_ite (keeps_ite (memoriesWf_fetchLines hm) ?_) hm
    split
    · exact memoriesWf_fetchLines hm
    · exact ih (memoriesWf_prefetchInstr (memoriesWf_modThread (keeps_ite (memoriesWf_fetchLines hm)
        (memoriesWf_fetchFor (memoriesWf_fetchLines hm)))))

theorem memoriesWf_enterBlocks {s : State} (hm : MemoriesWf s) {g : Nat} : MemoriesWf (enterBlocks s g) :=
  memoriesWf_modGrp (keeps_foldl (fun _ _ ht => memoriesWf_enterLane ht) hm)

theorem memoriesWf_abortLane {s : State} (hm : MemoriesWf s) {g l cause code : Nat} :
    MemoriesWf (abortLane s g l cause code) :=
  memoriesWf_modThread hm

theorem memoriesWf_abortLanes {s : State} (hm : MemoriesWf s) {g : Nat} {m : Mask} {cause code : Nat} :
    MemoriesWf (abortLanes s g m cause code) :=
  keeps_foldl (fun _ _ ht => memoriesWf_abortLane ht) hm

theorem memoriesWf_enterTrap {s : State} (hm : MemoriesWf s) {i : Issue} {xpc : Word} {c : Cause} :
    MemoriesWf (enterTrap s i xpc c) :=
  keeps_ite (memoriesWf_enterBlocks (memoriesWf_fetchLines (memoriesWf_modGrp (memoriesWf_modGrp
      (memoriesWf_countCause hm))))) (memoriesWf_escalate (memoriesWf_fetchLines (memoriesWf_modGrp (memoriesWf_modGrp
      (memoriesWf_countCause hm)))))

theorem memoriesWf_stallSpec {s : State} (hm : MemoriesWf s) {gid : Nat} : MemoriesWf (stallSpec s gid) :=
  memoriesWf_modGrp hm

theorem memoriesWf_deliver {s : State} (hm : MemoriesWf s) {i : Issue} {xpc : Word} {c : Cause} :
    MemoriesWf (deliver s i xpc c) :=
  keeps_ite (memoriesWf_escalate hm) (keeps_ite (memoriesWf_stallSpec hm) (keeps_ite (memoriesWf_escalate hm)
      (memoriesWf_enterTrap hm)))

theorem memoriesWf_raiseFault {s : State} (hm : MemoriesWf s) {i : Issue} {c : Cause} :
    MemoriesWf (raiseFault s i c) :=
  keeps_ite (memoriesWf_deliver hm) (keeps_ite (memoriesWf_abortLanes hm) (memoriesWf_deliver
      (memoriesWf_abortLanes hm)))

theorem memoriesWf_raiseLanes {s : State} (hm : MemoriesWf s) {i : Issue} {ex : Mask} {c : Cause} :
    MemoriesWf (raiseLanes s i ex c) :=
  keeps_ite (memoriesWf_deliver hm) (keeps_ite (memoriesWf_abortLanes hm) (memoriesWf_deliver
      (memoriesWf_abortLanes hm)))

theorem memoriesWf_raiseTrap {s : State} (hm : MemoriesWf s) {i : Issue} {ex : Mask} {c : Cause} :
    MemoriesWf (raiseTrap s i ex c) :=
  keeps_ite (memoriesWf_deliver (memoriesWf_abortLanes hm)) (keeps_ite (memoriesWf_deliver (memoriesWf_modGrp
      (memoriesWf_abortLanes hm))) (memoriesWf_modGrp (memoriesWf_abortLanes hm)))

theorem memoriesWf_returnFromTrap {s : State} (hm : MemoriesWf s) {gid : Nat} :
    MemoriesWf (returnFromTrap s gid) :=
  memoriesWf_enterBlocks (memoriesWf_modGrp (memoriesWf_fetchLines hm))

/-! ## Operands, and the issue of an item -/

theorem memoriesWf_consume {s : State} (hm : MemoriesWf s) {gid : Nat} {o : Opnd} : MemoriesWf (consume s gid o) := by
  unfold consume
  split
  · exact memoriesWf_modGrp hm
  · exact memoriesWf_modGrp hm
  · exact hm

theorem memoriesWf_consumeAll {s : State} (hm : MemoriesWf s) {gid : Nat} {it : Item} :
    MemoriesWf (consumeAll s gid it) :=
  keeps_foldl (fun _ _ ht => memoriesWf_consume ht) hm

theorem memoriesWf_pushEntry {s : State} (hm : MemoriesWf s) {gid n : Nat} {ex : Mask} {vals : List (Nat × Word)} :
    MemoriesWf (pushEntry s gid n ex vals) :=
  memoriesWf_modGrp (keeps_foldl (fun _ _ ht => memoriesWf_scratchWrite ht) hm)

theorem memoriesWf_writeUndo {s : State} (hm : MemoriesWf s) {gid l i r : Nat} :
    MemoriesWf (writeUndo s gid l i r) := by
  unfold writeUndo
  split
  · exact memoriesWf_modTeam hm (fun _ ht => memWriteLE_wf _ _ _ (memWriteLE_wf _ _ _ ht))
  · exact hm

theorem memoriesWf_saveTxUndo {s : State} (hm : MemoriesWf s) {gid : Nat} {regs ls : List Nat} :
    FstWf MemoriesWf (saveTxUndo s gid regs ls) := by
  induction ls generalizing s with
  | nil => exact FstWf.mk hm
  | cons l ls ih =>
    unfold saveTxUndo
    exact keeps_ite (FstWf.mk (FstWf.fst (ih hm))) (keeps_ite (ih (memoriesWf_abortLane hm))
      (FstWf.mk (FstWf.fst (ih (memoriesWf_modThread (keeps_foldl (fun _ _ h => memoriesWf_writeUndo h) hm))))))

theorem memoriesWf_saveSpecUndo {s : State} (hm : MemoriesWf s) {gid : Nat} {regs lanes : List Nat} :
    MemoriesWf (saveSpecUndo s gid regs lanes) :=
  keeps_foldl (fun _ _ ht => memoriesWf_modGrp (keeps_foldl (fun _ _ hu => memoriesWf_writeUndo hu) ht)) hm

theorem memoriesWf_takeBanks {s : State} (hm : MemoriesWf s) {core c : Nat} :
    FstWf MemoriesWf (takeBanks s core c) :=
  keeps_ite (FstWf.mk hm) (FstWf.mk (memoriesWf_modCore hm))

theorem memoriesWf_enterBanks {s : State} (hm : MemoriesWf s) {gid near far : Nat} :
    FstWf MemoriesWf (enterBanks s gid near far) :=
  FstWf.mk (FstWf.fst (memoriesWf_takeBanks (FstWf.fst (memoriesWf_takeBanks hm))))

theorem memoriesWf_bankAccess {s : State} (hm : MemoriesWf s) {gid : Nat} {load : List Nat → Nat}
    {nats : List (Nat × Nat)} : FstWf MemoriesWf (bankAccess s gid load nats) :=
  FstWf.mk (FstWf.fst (memoriesWf_enterBanks hm))

theorem memoriesWf_blockAccess {s : State} (hm : MemoriesWf s) {gid c off : Nat} :
    FstWf MemoriesWf (blockAccess s gid c off) :=
  memoriesWf_bankAccess hm

theorem memoriesWf_notIssued {s : State} (hm : MemoriesWf s) : OutWf (notIssued s) :=
  OutWf.next hm

theorem memoriesWf_abortLimit {s : State} (hm : MemoriesWf s) {gid : Nat} {m : Mask} :
    MemoriesWf (abortLimit s gid m) :=
  memoriesWf_abortLanes hm

theorem memoriesWf_notePick {s : State} (hm : MemoriesWf s) {i : Issue} {it : Item} :
    MemoriesWf (notePick s i it) :=
  memoriesWf_modQuart hm

theorem memoriesWf_finishIssue {s : State} (hm : MemoriesWf s) {i : Issue} {it : Item} {ex : Mask} {e : Effect} :
    MemoriesWf (finishIssue s i it ex e) :=
  memoriesWf_enterBlocks (memoriesWf_abortLimit (memoriesWf_notePick (memoriesWf_modQuart (memoriesWf_modGrp
      hm))))

theorem memoriesWf_raiseItem {s : State} (hm : MemoriesWf s) {i : Issue} {it : Item} {c : Cause} :
    MemoriesWf (raiseItem s i it c) :=
  memoriesWf_raiseFault (memoriesWf_notePick hm)

theorem memoriesWf_raiseExec {s : State} (hm : MemoriesWf s) {i : Issue} {it : Item} {ex : Mask} {c : Cause} :
    MemoriesWf (raiseExec s i it ex c) :=
  memoriesWf_raiseLanes (memoriesWf_notePick hm)

theorem memoriesWf_runItem {it : Item} {body : Issue → Mask → State → Body}
    (hbody : ∀ i ex t, MemoriesWf t → BodyWf (body i ex t)) {s : State} (hm : MemoriesWf s) :
    OutWf (runItem it body s) := by
  unfold runItem
  split
  · exact OutWf.refused
  refine keeps_ite (memoriesWf_notIssued hm) ?_
  split
  · split
    · exact OutWf.next (memoriesWf_raiseItem hm)
    · exact OutWf.next (memoriesWf_raiseItem (memoriesWf_modGrp hm))
  refine keeps_ite (memoriesWf_notIssued hm) ?_
  split
  · exact OutWf.next (memoriesWf_raiseItem hm)
  extract_lets all bad s1 ex uses regs
  have h1 : MemoriesWf s1 := memoriesWf_abortLanes hm
  refine keeps_ite (OutWf.next (memoriesWf_stallSpec hm)) (keeps_ite (memoriesWf_notIssued hm) ?_)
  split
  · exact OutWf.next (memoriesWf_raiseExec h1)
  refine keeps_ite (memoriesWf_notIssued hm) ?_
  split
  next u ok saved =>
  have hu : MemoriesWf u := FstWf.of_eq (memoriesWf_saveTxUndo h1) saved
  extract_lets ex' s2
  have h2 : MemoriesWf s2 := keeps_ite (memoriesWf_saveSpecUndo hu) hu
  refine keeps_ite (OutWf.next (memoriesWf_finishIssue h2)) ?_
  split
  · exact OutWf.next (memoriesWf_raiseExec h1)
  have ran {i : Issue} {b : Body} (hb : body i ex' s2 = b) : BodyWf b := hb ▸ hbody i ex' s2 h2
  split
  case h_1 => exact memoriesWf_notIssued hm
  case h_2 hb => exact OutWf.next (ran hb)
  case h_3 => exact OutWf.next (memoriesWf_raiseExec h1)
  case h_4 hb => exact OutWf.next (memoriesWf_deliver (memoriesWf_notePick (ran hb)))
  case h_5 => exact OutWf.next (memoriesWf_raiseTrap (memoriesWf_notePick h1))
  case h_6 hb => exact OutWf.next (memoriesWf_finishIssue (ran hb))

theorem memoriesWf_splitFails {s : State} (hm : MemoriesWf s) {gid : Nat} {fs : List Fail} :
    FstWf MemoriesWf (splitFails s gid fs) :=
  FstWf.mk (keeps_foldl (fun _ _ ht => memoriesWf_abortLane ht) hm)

theorem memoriesWf_checked {i : Issue} {ex : Mask} {s : State} (hm : MemoriesWf s) {fs : List Fail}
    {pick : List Fail → Option Cause} {k : Mask → State → Body}
    (hk : ∀ ex t, MemoriesWf t → BodyWf (k ex t)) : BodyWf (checked i ex s fs pick k) := by
  unfold checked
  split
  · split
    · exact BodyWf.laneFault (FstWf.of_eq (memoriesWf_splitFails hm) ‹_›)
    · refine keeps_ite (BodyWf.done (FstWf.of_eq (memoriesWf_splitFails hm) ‹_›)) ?_
      split
      · exact BodyWf.done (BodyWf.of_done (hk _ _ (FstWf.of_eq (memoriesWf_splitFails hm) ‹_›)) ‹_›)
      · exact hk _ _ (FstWf.of_eq (memoriesWf_splitFails hm) ‹_›)

theorem memoriesWf_pushDest {s : State} (hm : MemoriesWf s) {gid : Nat} {ex : Mask} {d : Opnd}
    {vals : List (Nat × Word)} : MemoriesWf (pushDest s gid ex d vals) := by
  unfold pushDest
  split
  · exact memoriesWf_pushEntry hm
  · exact hm

theorem memoriesWf_laneBody {it : Item} {d : Opnd} {k : Nat} {f : Group → Nat → List Word → Word × FF} {i : Issue}
    {ex : Mask} {s : State} (hm : MemoriesWf s) : BodyWf (laneBody it d k f i ex s) :=
  BodyWf.done (memoriesWf_pushDest (memoriesWf_consumeAll hm))

theorem memoriesWf_predBody {it : Item} {pd : Fin 8} {f : Group → Nat → List Word → Bool × FF} {i : Issue}
    {ex : Mask} {s : State} (hm : MemoriesWf s) : BodyWf (predBody it pd f i ex s) :=
  BodyWf.done (memoriesWf_consumeAll hm)

/-! ## Completion -/

theorem memoriesWf_tickCycle {s : State} (hm : MemoriesWf s) : MemoriesWf (tickCycle s) :=
  hm

/-! ## Items that compute by lane -/

theorem memoriesWf_runLanes {it : Item} {d : Opnd} {k : Nat} {f : Group → List Word → Word × FF} {s : State}
    (hm : MemoriesWf s) : OutWf (runLanes it d k f s) :=
  memoriesWf_runItem (fun _ _ _ ht => memoriesWf_laneBody ht) hm

theorem memoriesWf_runPure {it : Item} {d : Opnd} {f : List Word → Word} {s : State} (hm : MemoriesWf s) :
    OutWf (runPure it d f s) :=
  memoriesWf_runLanes hm

theorem memoriesWf_runPred {it : Item} {pd : Fin 8} {f : Group → List Word → Bool × FF} {s : State}
    (hm : MemoriesWf s) : OutWf (runPred it pd f s) :=
  memoriesWf_runItem (fun _ _ _ ht => memoriesWf_predBody ht) hm

theorem memoriesWf_runDiv {it : Item} {d : Opnd} {k : Nat} {f : Group → List Word → Word × FF} {s : State}
    (hm : MemoriesWf s) : OutWf (runDiv it d k f s) :=
  memoriesWf_runItem (fun _ _ _ ht => BodyWf.done (memoriesWf_pushDest (memoriesWf_consumeAll ht))) hm

/-! ## Floating-point items -/

theorem memoriesWf_runFloat {it : Item} {ty : Ty} {rnd : Rnd} {d : Opnd} {f : ElemFn} {s : State}
    (hm : MemoriesWf s) : OutWf (runFloat it ty rnd d f s) :=
  memoriesWf_runLanes hm

/-! ## Cross-lane items -/

theorem memoriesWf_runCross {it : Item} {d : Opnd} {f : Group → Mask → (Nat → Word) → (Nat → Word) → Nat → Word}
    {s : State} (hm : MemoriesWf s) : OutWf (runCross it d f s) :=
  memoriesWf_runItem (fun _ _ _ ht => BodyWf.done (memoriesWf_consumeAll ht)) hm

theorem memoriesWf_scanBody {it : Item} {sred : Bool} {op : COp} {ty : Ty} {rnd : Rnd} {excl : Bool}
    {seg : Option (Fin 11)} {d a b : Opnd} {i : Issue} {ex : Mask} {s : State} (hm : MemoriesWf s) :
    BodyWf (scanBody it sred op ty rnd excl seg d a b i ex s) :=
  BodyWf.done (memoriesWf_consumeAll hm)

theorem memoriesWf_pcfgBody {it : Item} {wid : Fin 4} {pcn : Fin 8} {a : Opnd} {i : Issue} {ex : Mask} {s : State}
    (hm : MemoriesWf s) : BodyWf (pcfgBody it wid pcn a i ex s) := by
  unfold pcfgBody
  dsimp only
  split
  · exact BodyWf.fault
  · exact keeps_ite BodyWf.wait (BodyWf.done (FstWf.fst (memoriesWf_blockAccess (memoriesWf_consumeAll hm))))

theorem memoriesWf_mixPerm {a b : PermCfg} {s : State} (hm : MemoriesWf s) : SndWf MemoriesWf (mixPerm a b s) :=
  SndWf.mk hm

theorem memoriesWf_permCfg {s : State} (hm : MemoriesWf s) {gid pcn : Nat} :
    SndWf MemoriesWf (permCfg s gid pcn) :=
  keeps_foldl (fun _ _ ht => memoriesWf_mixPerm (SndWf.snd ht)) (SndWf.mk hm)

theorem memoriesWf_execPerm {h : Hdr} {pcn : Fin 8} {d a : Opnd} {s : State} (hm : MemoriesWf s) :
    OutWf (execPerm h pcn d a s) := by
  unfold execPerm
  exact memoriesWf_runItem (fun _ _ _ ht => BodyWf.done (FstWf.fst (memoriesWf_enterBanks (memoriesWf_consumeAll
      (SndWf.snd (memoriesWf_permCfg ht)))))) hm

theorem memoriesWf_regroupBody {k : Nat} {d : Opnd} {i : Issue} {ex : Mask} {s : State} (hm : MemoriesWf s) :
    BodyWf (regroupBody k d i ex s) := by
  unfold regroupBody
  refine BodyWf.done (memoriesWf_modGrp ?_)
  split
  · exact hm
  · exact memoriesWf_modTeam hm

theorem memoriesWf_dealTo {s : State} (hm : MemoriesWf s) {gid count : Nat} {ts : List (Thread × Opnd)} :
    MemoriesWf (dealTo s gid count ts) :=
  memoriesWf_enterBlocks (memoriesWf_modGrp hm)

theorem memoriesWf_regroupDeal {s : State} (hm : MemoriesWf s) {team set : Nat} :
    SomeWf MemoriesWf (regroupDeal s team set) := by
  unfold regroupDeal
  split
  · exact SomeWf.none
  · exact keeps_ite SomeWf.none (SomeWf.some (keeps_foldl (fun _ _ ht => memoriesWf_dealTo ht) (FstWf.fst
        (memoriesWf_enterBanks (memoriesWf_modTeam hm)))))

/-! ## Transfers, SLEEP and YIELD -/

theorem memoriesWf_nopBody {i : Issue} {ex : Mask} {s : State} (hm : MemoriesWf s) : BodyWf (nopBody i ex s) :=
  BodyWf.done hm

theorem memoriesWf_transferBody {link : Option Opnd} {target : Issue → Nat → State → Word} {i : Issue} {ex : Mask}
    {s : State} (hm : MemoriesWf s) : BodyWf (transferBody link target i ex s) := by
  unfold transferBody
  refine memoriesWf_checked hm (fun _ _ ht => BodyWf.done (keeps_foldl (fun _ _ hu => memoriesWf_fetchFor hu) ?_))
  split
  · exact memoriesWf_modGrp ht
  · exact ht

theorem memoriesWf_exitBody {i : Issue} {ex : Mask} {s : State} (hm : MemoriesWf s) : BodyWf (exitBody i ex s) := by
  unfold exitBody
  split
  · exact BodyWf.laneFault (memoriesWf_putGrp hm)
  · exact BodyWf.done (memoriesWf_modGrp hm)

theorem memoriesWf_yieldBody {i : Issue} {ex : Mask} {s : State} (hm : MemoriesWf s) : BodyWf (yieldBody i ex s) :=
  BodyWf.done (memoriesWf_modGrp hm)

theorem memoriesWf_sleepBody {ticks : BitVec 18} {i : Issue} {ex : Mask} {s : State} (hm : MemoriesWf s) :
    BodyWf (sleepBody ticks i ex s) :=
  keeps_ite (BodyWf.done hm) (BodyWf.done (memoriesWf_modGrp hm))

theorem memoriesWf_tfenceBody {i : Issue} {ex : Mask} {s : State} (hm : MemoriesWf s) :
    BodyWf (tfenceBody i ex s) :=
  keeps_ite BodyWf.trap (BodyWf.done hm)

/-! ## The L1, publications and releases -/

theorem memoriesWf_modL1 {s : State} (hm : MemoriesWf s) {core asid line : Nat} {f : L1Line → L1Line} :
    MemoriesWf (modL1 s core asid line f) :=
  memoriesWf_modCore hm

theorem memoriesWf_dropL1 {s : State} (hm : MemoriesWf s) {core asid line : Nat} :
    MemoriesWf (dropL1 s core asid line) :=
  memoriesWf_modCore hm

theorem memoriesWf_addRequest {s : State} (hm : MemoriesWf s) {r : Request} : FstWf MemoriesWf (addRequest s r) :=
  FstWf.mk (memoriesWf_update hm)

theorem memoriesWf_modGrpIf {s : State} (hm : MemoriesWf s) {g : Nat} {f : Group → Group} :
    MemoriesWf (modGrpIf s g f) :=
  keeps_ite (memoriesWf_modGrp hm) hm

theorem memoriesWf_noteLink {s : State} (hm : MemoriesWf s) {p : Pub} : MemoriesWf (noteLink s p) := by
  unfold noteLink
  refine keeps_ite hm ?_
  split
  · exact memoriesWf_modGrpIf hm
  · exact hm

theorem memoriesWf_addPub {s : State} (hm : MemoriesWf s) {p : Pub} : FstWf MemoriesWf (addPub s p) :=
  FstWf.mk (keeps_ite (memoriesWf_noteLink (memoriesWf_update hm)) (memoriesWf_update hm))

theorem memoriesWf_publishBytes {s : State} (hm : MemoriesWf s) {core : Nat} {x : L1Line} {m : BitVec 128}
    {snd : Sender} : FstWf MemoriesWf (publishBytes s core x m snd) :=
  keeps_foldl (fun _ _ ht => keeps_ite ht (FstWf.mk (keeps_ite (memoriesWf_noteLink (memoriesWf_update
      (memoriesWf_update (FstWf.fst ht)))) (memoriesWf_update (memoriesWf_update (FstWf.fst ht)))))) (FstWf.mk hm)

theorem memoriesWf_takeBytes {s : State} (hm : MemoriesWf s) {core : Nat} {x : L1Line} {m : BitVec 128}
    {snd : Sender} : FstWf MemoriesWf (takeBytes s core x m snd) :=
  memoriesWf_publishBytes (memoriesWf_modL1 hm)

theorem memoriesWf_evictL1 {s : State} (hm : MemoriesWf s) {core gid : Nat} {x : L1Line} :
    MemoriesWf (evictL1 s core gid x) :=
  memoriesWf_dropL1 (FstWf.fst (memoriesWf_takeBytes hm))

theorem memoriesWf_flushL1 {s : State} (hm : MemoriesWf s) {core gid : Nat} : MemoriesWf (flushL1 s core gid) :=
  keeps_foldl (fun _ _ ht => memoriesWf_evictL1 ht) hm

theorem memoriesWf_makeRoom {s : State} (hm : MemoriesWf s) {core gid asid line : Nat} :
    SomeWf MemoriesWf (makeRoom s core gid asid line) :=
  keeps_ite (SomeWf.some hm) (keeps_ite SomeWf.none (SomeWf.some (memoriesWf_evictL1 (memoriesWf_update hm))))

theorem memoriesWf_storeL1 {s : State} (hm : MemoriesWf s) {core gid lid va n x : Nat} {strm : Bool} :
    SomeWf MemoriesWf (storeL1 s core gid lid va n x strm) := by
  unfold storeL1
  refine SomeWf.map fun t e => ?_
  have ht : MemoriesWf t := SomeWf.of_eq (memoriesWf_makeRoom hm) e
  refine memoriesWf_modL1 (keeps_ite ?_ (memoriesWf_modCore ?_))
  all_goals
    split
    · exact keeps_ite (FstWf.fst (memoriesWf_takeBytes ht)) ht
    · exact ht

theorem memoriesWf_markFirst {s : State} (hm : MemoriesWf s) {core asid line : Nat} :
    MemoriesWf (markFirst s core asid line) :=
  memoriesWf_modL1 hm

theorem memoriesWf_takeDirty {s : State} (hm : MemoriesWf s) {core gid rel : Nat} {gs : Option (List (Nat × Nat))} :
    FstWf MemoriesWf (takeDirty s core gid rel gs) := by
  unfold takeDirty
  dsimp only
  exact keeps_foldl (fun _ _ ht => keeps_ite ht (FstWf.mk (FstWf.fst (memoriesWf_takeBytes (FstWf.fst ht)))))
      (FstWf.mk hm)

theorem memoriesWf_startRelease {s : State} (hm : MemoriesWf s) {core gid : Nat} {lanes : Mask} {publishes : Bool}
    {gs : Option (List (Nat × Nat))} {cont : RelCont} {but : List Nat} :
    FstWf MemoriesWf (startRelease s core gid lanes publishes gs cont but) :=
  FstWf.mk (memoriesWf_update hm)

theorem memoriesWf_sendUpdate {s : State} (hm : MemoriesWf s) {id : Nat} : MemoriesWf (sendUpdate s id) := by
  unfold sendUpdate
  split
  · exact hm
  · refine keeps_ite (memoriesWf_update (memoriesWf_update (keeps_ite hm (keeps_foldl (fun _ _ ht => ?_) hm))))
        (memoriesWf_noteLink (memoriesWf_update (memoriesWf_update (keeps_ite hm (keeps_foldl (fun _ _ ht => ?_)
        hm)))))
    · split
      · exact FstWf.fst (memoriesWf_takeBytes ht)
      · exact ht
    · split
      · exact FstWf.fst (memoriesWf_takeBytes ht)
      · exact ht

theorem memoriesWf_storeOwn {s : State} (hm : MemoriesWf s) {core gid lid : Nat} {first : Bool}
    {ds : List (Nat × Word × Nat)} : SomeWf MemoriesWf (storeOwn s core gid lid first ds) := by
  induction ds generalizing s with
  | nil => exact SomeWf.some hm
  | cons d ds ih =>
    obtain ⟨va, x, n⟩ := d
    unfold storeOwn
    split
    · exact ih (SomeWf.of_eq (memoriesWf_storeL1 hm) ‹_›)
    · exact SomeWf.none

theorem memoriesWf_publishOwn {s : State} (hm : MemoriesWf s) {core gid rel lid : Nat}
    {data : List (Nat × Word × Nat)} : FstWf MemoriesWf (publishOwn s core gid rel lid data) := by
  unfold publishOwn
  refine FstWf.mk (FstWf.fst (keeps_foldl (fun _ _ ht => ?_) (FstWf.mk hm)))
  dsimp only
  split
  · exact FstWf.mk (FstWf.fst (memoriesWf_takeBytes (FstWf.fst ht)))
  · exact ht

theorem memoriesWf_setRelease {s : State} (hm : MemoriesWf s) {id : Nat} {r : Release} :
    MemoriesWf (setRelease s id r) :=
  hm

theorem memoriesWf_endRelease {s : State} (hm : MemoriesWf s) {id : Nat} : MemoriesWf (endRelease s id) :=
  hm

theorem memoriesWf_afterRelease {s : State} (hm : MemoriesWf s) {id : Nat} {r : Release} :
    MemoriesWf (afterRelease s id r) := by
  unfold afterRelease
  split
  · exact memoriesWf_endRelease hm
  · exact keeps_foldl (fun _ _ ht => memoriesWf_sendUpdate ht) (memoriesWf_endRelease hm)
  · refine memoriesWf_setRelease (FstWf.fst (keeps_foldl (fun _ _ ht => ?_) (FstWf.mk hm)))
    dsimp only
    split
    · exact FstWf.mk (FstWf.fst (memoriesWf_takeBytes (FstWf.fst ht)))
    · exact ht

theorem memoriesWf_advanceRelease {s : State} (hm : MemoriesWf s) {id : Nat} :
    SomeWf MemoriesWf (advanceRelease s id) := by
  unfold advanceRelease
  split
  · exact SomeWf.none
  · refine keeps_ite SomeWf.none ?_
    split
    · refine keeps_ite (SomeWf.some (memoriesWf_afterRelease hm)) (keeps_ite SomeWf.none ?_)
      dsimp only
      split
      · exact SomeWf.map (fun _ et => memoriesWf_modGrpIf (SomeWf.of_eq (memoriesWf_storeOwn (memoriesWf_setRelease
            (memoriesWf_modGrpIf (FstWf.fst (memoriesWf_takeDirty hm))))) et))
      · exact SomeWf.some (memoriesWf_setRelease (memoriesWf_modGrpIf (FstWf.fst (memoriesWf_takeDirty hm))))
    · exact keeps_ite (SomeWf.some (memoriesWf_afterRelease hm)) SomeWf.none
    · exact SomeWf.some (memoriesWf_endRelease hm)

theorem memoriesWf_runRelease {s : State} (hm : MemoriesWf s) {id : Nat} : MemoriesWf (runRelease s id) :=
  keeps_foldl (fun _ _ ht => SomeWf.getD (memoriesWf_advanceRelease ht) ht) hm

theorem memoriesWf_beginRelease {s : State} (hm : MemoriesWf s) {core gid : Nat} {lanes : Mask} {publishes : Bool}
    {gs : Option (List (Nat × Nat))} {cont : RelCont} {but : List Nat} :
    FstWf MemoriesWf (beginRelease s core gid lanes publishes gs cont but) :=
  FstWf.mk (memoriesWf_runRelease (memoriesWf_update hm))

/-! ## The end of a launch -/

theorem memoriesWf_dropLocks {s : State} (hm : MemoriesWf s) {gid : Nat} {own : Lock → Bool} :
    MemoriesWf (dropLocks s gid own) := by
  obtain ⟨hbm, host, parts, teams⟩ := hm
  exact ⟨hbm, host, parts, List.forall_mem_map.2 teams⟩

theorem memoriesWf_dropToken {s : State} (hm : MemoriesWf s) {gid : Nat} {lane : Nat → Bool} :
    MemoriesWf (dropToken s gid lane) := by
  obtain ⟨hbm, host, parts, teams⟩ := hm
  refine ⟨hbm, host, List.forall_mem_map.2 fun e he => ?_, teams⟩
  split
  · split <;> exact parts e he
  · exact parts e he

theorem memoriesWf_stopGroup {s : State} (hm : MemoriesWf s) {gid : Nat} : MemoriesWf (stopGroup s gid) :=
  memoriesWf_modGrp (memoriesWf_dropToken (memoriesWf_dropLocks hm))

theorem memoriesWf_stopTeams {s : State} (hm : MemoriesWf s) {lid : Nat} : MemoriesWf (stopTeams s lid) := by
  have stopped : MemoriesWf ((launchGroups (modLaunch s lid fun l => { l with st := .ending }) lid).foldl stopGroup
      (modLaunch s lid fun l => { l with st := .ending })) :=
    keeps_foldl (fun _ _ h => memoriesWf_stopGroup h) (memoriesWf_modLaunch hm)
  obtain ⟨hbm, host, parts, teams⟩ := stopped
  refine ⟨hbm, host, parts, List.forall_mem_map.2 fun e he => ?_⟩
  split <;> exact teams e he

theorem memoriesWf_endLaunch {s : State} (hm : MemoriesWf s) {lid status detail cause aux : Nat} :
    MemoriesWf (endLaunch s lid status detail cause aux) :=
  keeps_ite hm (memoriesWf_stopTeams (keeps_foldl (fun _ _ ht => memoriesWf_stopTeams ht) (memoriesWf_modLaunch
      hm)))

theorem memoriesWf_lateFault {s : State} (hm : MemoriesWf s) {lid : Nat} {c : CauseCode} :
    MemoriesWf (lateFault s lid c) :=
  memoriesWf_endLaunch (keeps_ite (memoriesWf_update hm) hm)

theorem memoriesWf_deferPoison {s : State} (hm : MemoriesWf s) {gid op family lane va : Nat} :
    MemoriesWf (deferPoison s gid op family lane va) :=
  keeps_ite (memoriesWf_lateFault hm) (memoriesWf_modGrpIf hm)

theorem memoriesWf_markUnreplayable {s : State} (hm : MemoriesWf s) {lid : Nat} :
    MemoriesWf (markUnreplayable s lid) :=
  memoriesWf_modLaunch hm

/-! ## Special functions -/

theorem memoriesWf_runSpecial {h : Hdr} {ty : Ty} {rnd : Rnd} {srcs : List Opnd} {d : Opnd} {f : ElemFn} {s : State}
    (hm : MemoriesWf s) : OutWf (runSpecial h ty rnd srcs d f s) :=
  memoriesWf_runDiv hm

/-! ## Assay -/

theorem memoriesWf_sign {s : State} (hm : MemoriesWf s) {team a : Nat} {x : Word} {k : Nat} :
    MemoriesWf (sign s team a x k) :=
  keeps_ite (memoriesWf_modTeam hm) hm

theorem memoriesWf_signAll {s : State} (hm : MemoriesWf s) {team k : Nat} {xs : List (Nat × Word)} :
    MemoriesWf (signAll s team k xs) :=
  keeps_foldl (fun _ _ ht => memoriesWf_sign ht) hm

theorem memoriesWf_signStores {s : State} (hm : MemoriesWf s) {team : Nat} {xs : List (Word × Word)} :
    MemoriesWf (signStores s team xs) :=
  memoriesWf_signAll hm

theorem memoriesWf_signCopy {team stop n a x : Nat} {unit : Word} {s : State} (hm : MemoriesWf s) :
    FstWf MemoriesWf (signCopy team stop n a x unit s) := by
  induction n generalizing s a x unit with
  | zero => exact FstWf.mk hm
  | succ n ih =>
    unfold signCopy
    exact keeps_ite (ih (memoriesWf_sign hm)) (ih hm)

/-! ## Loads, stores and prefetches -/

theorem memoriesWf_sendProbes {s : State} (hm : MemoriesWf s) {i : Issue} {pages : List Nat} :
    MemoriesWf (sendProbes s i pages) :=
  keeps_foldl (fun _ _ ht => keeps_ite ht (memoriesWf_update ht)) hm

theorem memoriesWf_clearProbes {s : State} (hm : MemoriesWf s) {i : Issue} : MemoriesWf (clearProbes s i) :=
  hm

theorem memoriesWf_probed {i : Issue} {ex : Mask} {s : State} (hm : MemoriesWf s) {pages : List (Nat × Word × Nat)}
    {wr : Bool} {fs : List Fail} {k : Mask → State → Body}
    (hk : ∀ ex t, MemoriesWf t → BodyWf (k ex t)) : BodyWf (probed i ex s pages wr fs k) :=
  keeps_ite (BodyWf.begun (memoriesWf_sendProbes hm)) (keeps_ite BodyWf.wait (memoriesWf_checked
      (memoriesWf_clearProbes hm) (fun _ _ ht => hk _ _ ht)))

theorem memoriesWf_addReadRec {s : State} (hm : MemoriesWf s) {gid l : Nat} {r : ReadRec} :
    MemoriesWf (addReadRec s gid l r) :=
  keeps_ite (memoriesWf_modGrp hm) (memoriesWf_modThread hm)

theorem memoriesWf_fillRequest {s : State} (hm : MemoriesWf s) {h : LoadHow} {gid lane line : Nat} :
    FstWf MemoriesWf (fillRequest s h gid lane line) := by
  unfold fillRequest
  dsimp only
  split
  · exact FstWf.mk hm
  · exact memoriesWf_addRequest hm

theorem memoriesWf_sliceRequest {s : State} (hm : MemoriesWf s) {h : LoadHow} {gid lane line : Nat} :
    FstWf MemoriesWf (sliceRequest s h gid lane line) := by
  unfold sliceRequest
  dsimp only
  split
  · exact FstWf.mk hm
  · exact memoriesWf_addRequest hm

theorem memoriesWf_newRecord {s : State} (hm : MemoriesWf s) {gid l asid va : Nat} {covered irrev : Bool}
    {core : Nat} : FstWf MemoriesWf (newRecord s gid l asid va covered irrev core) := by
  unfold newRecord
  refine keeps_ite (FstWf.mk hm) (keeps_ite (FstWf.mk (memoriesWf_addReadRec hm)) ?_)
  split
  · split
    · exact FstWf.mk (memoriesWf_addReadRec hm)
    · exact keeps_ite (FstWf.mk (memoriesWf_addReadRec hm)) (FstWf.mk (memoriesWf_addReadRec hm))

theorem memoriesWf_loadLane {h : LoadHow} {gid : Nat} {ty : Ty} {s : State} (hm : MemoriesWf s) {l va : Nat} :
    FstWf MemoriesWf (loadLane h gid ty s l va) := by
  unfold loadLane
  dsimp only
  exact keeps_ite (FstWf.mk (FstWf.fst (memoriesWf_newRecord hm))) (keeps_ite (FstWf.mk (FstWf.fst
      (memoriesWf_addRequest (FstWf.fst (memoriesWf_newRecord hm))))) (FstWf.mk (FstWf.fst (keeps_ite
      (memoriesWf_sliceRequest (FstWf.fst (memoriesWf_newRecord hm))) (memoriesWf_fillRequest (FstWf.fst
      (memoriesWf_newRecord hm)))))))

theorem memoriesWf_loadLanes {h : LoadHow} {gid : Nat} {ty : Ty} {s : State} (hm : MemoriesWf s)
    {ls : List (Nat × Nat)} : FstWf MemoriesWf (loadLanes h gid ty s ls) := by
  induction ls generalizing s with
  | nil => exact FstWf.mk hm
  | cons l ls ih => exact FstWf.mk (FstWf.fst (ih (FstWf.fst (memoriesWf_loadLane hm))))

theorem memoriesWf_abortCapacity {s : State} (hm : MemoriesWf s) {gid : Nat} {ls : List Nat} {ex : Mask} :
    FstWf MemoriesWf (abortCapacity s gid ls ex) :=
  FstWf.mk (keeps_foldl (fun _ _ ht => memoriesWf_abortLane ht) hm)

theorem memoriesWf_pinLoads {s : State} (hm : MemoriesWf s) {lid n : Nat} {as : List (Nat × Nat)} :
    MemoriesWf (pinLoads s lid n as) :=
  keeps_foldl (fun _ _ ht => keeps_foldl (fun _ _ hu => memoriesWf_pinPage hu) ht) hm

theorem memoriesWf_ldBody {it : Item} {ty : Ty} {acq : Option Sys2Proof.Scope} {ch : CHint} {d : Opnd}
    {addr : State → Nat → Nat → Word} {i : Issue} {ex : Mask} {s : State} (hm : MemoriesWf s) :
    BodyWf (ldBody it ty acq ch d addr i ex s) :=
  keeps_ite BodyWf.wait (memoriesWf_checked hm (fun _ _ ht => keeps_ite BodyWf.wait (BodyWf.done (FstWf.fst
      (memoriesWf_loadLanes (memoriesWf_pinLoads (keeps_foldl (fun _ _ hu => memoriesWf_abortLane hu)
      (memoriesWf_consumeAll ht))))))))

theorem memoriesWf_lockSector {s : State} (hm : MemoriesWf s) {gid l lid sector : Nat} {wr : Bool} :
    SomeWf MemoriesWf (lockSector s gid l lid sector wr) :=
  keeps_ite SomeWf.none (keeps_ite (SomeWf.some hm) (SomeWf.some (memoriesWf_modSlice hm)))

theorem memoriesWf_storeLane {lid core gid : Nat} {strm : Bool} {s : State} (hm : MemoriesWf s) {l va n : Nat}
    {x : Word} : SomeWf MemoriesWf (storeLane lid core gid strm s l va n x) :=
  keeps_ite (SomeWf.map (fun _ et => memoriesWf_modThread (SomeWf.of_eq (keeps_ite (memoriesWf_lockSector hm)
      (SomeWf.some hm)) et))) (keeps_ite (SomeWf.some (memoriesWf_modGrp hm)) (SomeWf.map (fun _ et => keeps_ite
      (memoriesWf_markFirst (memoriesWf_signStores (SomeWf.of_eq (memoriesWf_storeL1 hm) et))) (memoriesWf_signStores
      (SomeWf.of_eq (memoriesWf_storeL1 hm) et)))))

theorem memoriesWf_storeLanes {lid core gid n : Nat} {strm : Bool} {s : State} (hm : MemoriesWf s)
    {ls : List (Nat × Nat × Word)} : SomeWf MemoriesWf (storeLanes lid core gid n strm s ls) := by
  induction ls generalizing s with
  | nil => exact SomeWf.some hm
  | cons l ls ih => exact SomeWf.bind fun _ e => ih (SomeWf.of_eq (memoriesWf_storeLane hm) e)

theorem memoriesWf_storeRelease {i : Issue} {ex : Mask} {s : State} (hm : MemoriesWf s) {lid n : Nat} {strm : Bool}
    {xs : List (Nat × Nat × Word)} : BodyWf (storeRelease i ex s lid n strm xs) :=
  BodyWf.done (memoriesWf_runRelease (memoriesWf_update (memoriesWf_update (memoriesWf_signAll hm))))

theorem memoriesWf_stBody {it : Item} {ty : Ty} {rel : Option Sys2Proof.Scope} {ch : CHint} {d : Opnd}
    {addr : State → Nat → Nat → Word} {i : Issue} {ex : Mask} {s : State} (hm : MemoriesWf s) :
    BodyWf (stBody it ty rel ch d addr i ex s) := by
  unfold stBody
  refine keeps_ite BodyWf.wait (memoriesWf_probed hm (fun _ _ ht => keeps_ite BodyWf.wait (keeps_ite
      (memoriesWf_storeRelease (keeps_foldl (fun _ _ hu => memoriesWf_abortLane hu) (memoriesWf_consumeAll ht))) ?_)))
  split
  · exact BodyWf.done (SomeWf.of_eq (memoriesWf_storeLanes (keeps_foldl (fun _ _ hu => memoriesWf_abortLane hu)
        (memoriesWf_consumeAll ht))) ‹_›)
  · exact BodyWf.wait

theorem memoriesWf_lockScratch {s : State} (hm : MemoriesWf s) {gid l sector : Nat} {wr : Bool} :
    MemoriesWf (lockScratch s gid l sector wr) :=
  memoriesWf_modTeam hm fun _ h => keeps_ite (P := fun t : Team => Memory.wf t.scratch = true) h h

theorem memoriesWf_ldsLane {gid n : Nat} {s : State} (hm : MemoriesWf s) {l a : Nat} :
    FstWf MemoriesWf (ldsLane gid n s l a) :=
  keeps_ite (FstWf.mk (keeps_ite hm (keeps_ite (memoriesWf_lockScratch (memoriesWf_addReadRec hm))
      (memoriesWf_addReadRec hm)))) (FstWf.mk hm)

theorem memoriesWf_ldsLanes {gid n : Nat} {s : State} (hm : MemoriesWf s) {ls : List (Nat × Nat)} :
    FstWf MemoriesWf (ldsLanes gid n s ls) := by
  induction ls generalizing s with
  | nil => exact FstWf.mk hm
  | cons l ls ih => exact FstWf.mk (FstWf.fst (ih (FstWf.fst (memoriesWf_ldsLane hm))))

theorem memoriesWf_ldsBody {it : Item} {ty : Ty} {d : Opnd} {addr : State → Nat → Nat → Word} {i : Issue}
    {ex : Mask} {s : State} (hm : MemoriesWf s) : BodyWf (ldsBody it ty d addr i ex s) := by
  unfold ldsBody
  exact memoriesWf_checked hm (fun _ _ ht => keeps_ite BodyWf.wait (BodyWf.done (FstWf.fst (memoriesWf_bankAccess
      (FstWf.fst (memoriesWf_ldsLanes (keeps_foldl (fun _ _ hu => memoriesWf_abortLane hu) (memoriesWf_consumeAll
      ht))))))))

theorem memoriesWf_stsLane {gid n : Nat} {s : State} (hm : MemoriesWf s) {l a : Nat} {x : Word} :
    MemoriesWf (stsLane gid n s l a x) :=
  keeps_ite (memoriesWf_modThread (keeps_ite (memoriesWf_lockScratch hm) hm)) (memoriesWf_scratchWrite hm)

theorem memoriesWf_stsBody {it : Item} {ty : Ty} {d : Opnd} {addr : State → Nat → Nat → Word} {i : Issue}
    {ex : Mask} {s : State} (hm : MemoriesWf s) : BodyWf (stsBody it ty d addr i ex s) := by
  unfold stsBody
  exact memoriesWf_checked hm (fun _ _ ht => keeps_ite BodyWf.wait (BodyWf.done (keeps_foldl (fun _ _ hu =>
      memoriesWf_stsLane hu) (FstWf.fst (memoriesWf_bankAccess (keeps_foldl (fun _ _ hu => memoriesWf_abortLane hu)
      (memoriesWf_consumeAll ht)))))))

theorem memoriesWf_sendItems {s : State} (hm : MemoriesWf s) {i : Issue} {op : Nat}
    {kinds : List (Nat × Nat × SliceKind)} : FstWf MemoriesWf (sendItems s i op kinds) :=
  keeps_foldl (fun _ _ ht => FstWf.mk (keeps_ite (memoriesWf_noteLink (memoriesWf_update (memoriesWf_update
      (FstWf.fst ht)))) (memoriesWf_update (memoriesWf_update (FstWf.fst ht))))) (FstWf.mk hm)

theorem memoriesWf_carvedBody {it : Item} {ty : Ty} {d : Opnd} {store : Bool} {addr : State → Nat → Nat → Word}
    {i : Issue} {ex : Mask} {s : State} (hm : MemoriesWf s) : BodyWf (carvedBody it ty d store addr i ex s) :=
  keeps_ite BodyWf.wait (memoriesWf_checked hm (fun _ _ ht => BodyWf.done (FstWf.fst (keeps_foldl (fun _ _ hu =>
      FstWf.mk (keeps_ite (memoriesWf_noteLink (memoriesWf_update (memoriesWf_update (FstWf.fst hu))))
      (memoriesWf_update (memoriesWf_update (FstWf.fst hu))))) (FstWf.mk (memoriesWf_consumeAll ht))))))

theorem memoriesWf_dropBadHint {s : State} (hm : MemoriesWf s) {core lid : Nat} {a : Word} :
    MemoriesWf (dropBadHint s core lid a) :=
  memoriesWf_dropHint (keeps_ite (memoriesWf_postBadWalk hm) hm)

theorem memoriesWf_noteHint {s : State} (hm : MemoriesWf s) {core asid line : Nat} {reader : Reader} {hints : Nat} :
    MemoriesWf (noteHint s core asid line reader hints) :=
  hm

theorem memoriesWf_prefetchLine {s : State} (hm : MemoriesWf s) {core lid va lc : Nat} {l2 : Bool} {hints : Nat} :
    MemoriesWf (prefetchLine s core lid va lc l2 hints) :=
  keeps_ite hm (keeps_ite (memoriesWf_noteHint hm) (FstWf.fst (memoriesWf_addRequest hm)))

theorem memoriesWf_walkLine {s : State} (hm : MemoriesWf s) {core lid va hints : Nat} :
    MemoriesWf (walkLine s core lid va hints) :=
  keeps_ite (memoriesWf_noteHint hm) (FstWf.fst (memoriesWf_addRequest hm))

theorem memoriesWf_prefBody {it : Item} {l2 res : Bool} {lc : Nat} {addr : State → Nat → Nat → Word} {i : Issue}
    {ex : Mask} {s : State} (hm : MemoriesWf s) : BodyWf (prefBody it l2 res lc addr i ex s) :=
  keeps_ite BodyWf.wait (BodyWf.done (keeps_foldl (fun _ _ ht => keeps_ite (memoriesWf_dropBadHint ht)
      (keeps_ite (memoriesWf_walkLine ht) (memoriesWf_prefetchLine ht))) (memoriesWf_consumeAll hm)))

theorem memoriesWf_linvLine {core gid : Nat} {pub : Bool} {acc : State × List Nat} (hm : FstWf MemoriesWf acc)
    {x : L1Line} : FstWf MemoriesWf (linvLine core gid pub acc x) := by
  unfold linvLine
  dsimp only
  exact keeps_ite (FstWf.mk (memoriesWf_dropL1 (FstWf.fst (memoriesWf_takeBytes (FstWf.fst hm))))) (keeps_ite
      (FstWf.mk (memoriesWf_dropL1 (FstWf.fst hm))) (FstWf.mk (memoriesWf_modL1 (FstWf.fst hm))))

theorem memoriesWf_execLinv {h : Hdr} {pub : Bool} {rng : Option (Opnd × Opnd)} {s : State} (hm : MemoriesWf s) :
    OutWf (execLinv h pub rng s) := by
  unfold execLinv
  exact memoriesWf_runItem (fun _ _ _ ht => BodyWf.done (FstWf.fst (keeps_foldl (fun _ _ hu => memoriesWf_linvLine hu)
      (FstWf.mk (memoriesWf_consumeAll ht))))) hm

/-! ## Streams and copies -/

theorem memoriesWf_beginDesc {s : State} (hm : MemoriesWf s) {i : Issue} {lane a : Nat} :
    MemoriesWf (beginDesc s i lane a) := by
  unfold beginDesc
  dsimp only
  exact memoriesWf_modGrp (FstWf.fst (memoriesWf_loadLanes (memoriesWf_pinLoads hm)))

theorem memoriesWf_readDesc {s : State} (hm : MemoriesWf s) {i : Issue} {sp : Bool} {lane : Nat} {a : Word} :
    DescReadWf (readDesc s i sp lane a) := by
  unfold readDesc
  refine keeps_ite ?_ ?_
  · split
    · exact hm
    · exact keeps_ite trivial hm
  · split
    · split
      · exact keeps_ite trivial (keeps_ite (memoriesWf_putGrp hm) (memoriesWf_putGrp hm))
      · exact trivial
    · split
      · exact hm
      · exact keeps_ite trivial (memoriesWf_beginDesc hm)

theorem memoriesWf_execSqcfg {h : Hdr} {qn : Fin 16} {sp : Bool} {a b : Opnd} {s : State} (hm : MemoriesWf s) :
    OutWf (execSqcfg h qn sp a b s) := by
  unfold execSqcfg
  refine memoriesWf_runItem (fun _ _ _ ht => ?_) hm
  dsimp only
  split
  · exact BodyWf.wait
  · exact BodyWf.begun (DescReadWf.of_begins (memoriesWf_readDesc ht) ‹_›)
  · exact BodyWf.laneFault (DescReadWf.of_fails (memoriesWf_readDesc ht) ‹_›)
  · split
    · exact BodyWf.laneFault (DescReadWf.of_has (memoriesWf_readDesc ht) ‹_›)
    · exact BodyWf.done (memoriesWf_modGrp (DescReadWf.of_has (memoriesWf_readDesc ht) ‹_›))
    · exact BodyWf.laneFault (DescReadWf.of_has (memoriesWf_readDesc ht) ‹_›)

theorem memoriesWf_execSqgo {h : Hdr} {qn : Fin 16} {s : State} (hm : MemoriesWf s) : OutWf (execSqgo h qn s) :=
  memoriesWf_runItem (fun _ _ _ ht => keeps_ite BodyWf.fault (BodyWf.done (memoriesWf_modGrp ht))) hm

theorem memoriesWf_execSqstop {h : Hdr} {qn : Fin 16} {disc : Bool} {s : State} (hm : MemoriesWf s) :
    OutWf (execSqstop h qn disc s) := by
  unfold execSqstop
  refine memoriesWf_runItem (fun _ _ _ ht => keeps_ite (BodyWf.done ht) ?_) hm
  split
  · exact BodyWf.fault
  · exact BodyWf.done (memoriesWf_modGrp ht)

theorem memoriesWf_execSqstat {h : Hdr} {qn : Fin 16} {clr : Bool} {d : Opnd} {s : State} (hm : MemoriesWf s) :
    OutWf (execSqstat h qn clr d s) :=
  memoriesWf_runItem (fun _ _ _ ht => BodyWf.done (keeps_ite (memoriesWf_modGrp ht) ht)) hm

theorem memoriesWf_execCpy {h : Hdr} {ssp dsp : Bool} {hint : CpyHint} {a b c : Opnd} {s : State}
    (hm : MemoriesWf s) : OutWf (execCpy h ssp dsp hint a b c s) := by
  unfold execCpy
  refine memoriesWf_runItem (fun _ _ _ ht => ?_) hm
  dsimp only
  split
  · exact BodyWf.fault
  · exact keeps_ite BodyWf.wait (BodyWf.done (keeps_foldl (fun _ _ hu => memoriesWf_modCore (SndWf.snd
        (memoriesWf_freshId hu))) ht))

theorem memoriesWf_execCseal {h : Hdr} {d : Opnd} {s : State} (hm : MemoriesWf s) : OutWf (execCseal h d s) := by
  unfold execCseal
  refine memoriesWf_runItem (fun _ _ _ ht => keeps_ite BodyWf.wait ?_) hm
  split
  · exact BodyWf.fault
  · exact BodyWf.done (memoriesWf_modGrp ht)

theorem memoriesWf_execCwait {h : Hdr} {n : Fin 16} {rel : Bool} {s : State} (hm : MemoriesWf s) :
    OutWf (execCwait h n rel s) := by
  unfold execCwait
  refine memoriesWf_runItem (fun _ _ _ ht => ?_) hm
  dsimp only
  split
  · exact BodyWf.fault
  · exact BodyWf.done ht

/-! ## Memory-side updates -/

theorem memoriesWf_finishItem {s : State} (hm : MemoriesWf s) {id : Nat} {p : Pub} {lane : Nat} {res : Option Word}
    {ff : FF} : MemoriesWf (finishItem s id p lane res ff) := by
  unfold finishItem
  dsimp only
  split
  · exact memoriesWf_modGrpIf (memoriesWf_update hm)
  · exact memoriesWf_update hm

theorem memoriesWf_clearBackoff {s : State} (hm : MemoriesWf s) {gid lane : Nat} :
    MemoriesWf (clearBackoff s gid lane) :=
  memoriesWf_modGrpIf hm

theorem memoriesWf_spApply {s : State} (hm : MemoriesWf s) {gid a : Nat} {k : SliceKind} :
    FstWf MemoriesWf (spApply s gid a k) := by
  unfold spApply
  dsimp only
  split
  · split
    · exact FstWf.mk (memoriesWf_clearBackoff (memoriesWf_scratchWrite hm))
    · exact FstWf.mk hm
  · exact FstWf.mk (memoriesWf_scratchWrite hm)
  · exact FstWf.mk (memoriesWf_scratchWrite hm)
  · exact FstWf.mk hm
  · exact FstWf.mk hm

theorem memoriesWf_spApplyAll {gid : Nat} {d : Opnd} {lowest : Nat} {s : State} (hm : MemoriesWf s)
    {ks : List (Nat × Nat × SliceKind)} : FstWf MemoriesWf (spApplyAll gid d lowest s ks) := by
  induction ks generalizing s with
  | nil => exact FstWf.mk hm
  | cons k ks ih =>
    obtain ⟨l, a, k⟩ := k
    have rest := FstWf.fst (ih (FstWf.fst (memoriesWf_spApply hm (gid := gid) (a := a) (k := k))))
    show FstWf MemoriesWf (match (spApply s gid a k).2 with
      | some (l, x, f) => _
      | none => _)
    split <;> exact FstWf.mk rest

theorem memoriesWf_joinCells {s : State} (hm : MemoriesWf s) {acc ks : List (Nat × Nat × SliceKind)} :
    FstWf MemoriesWf (joinCells s acc ks) := by
  induction ks generalizing s acc with
  | nil => exact FstWf.mk hm
  | cons k ks ih =>
    obtain ⟨l, a, k⟩ := k
    cases k with
    | xred c r vs =>
      unfold joinCells
      extract_lets same
      have hc := SndWf.snd (memoriesWf_freeChoice hm (n := same.length + 1))
      exact keeps_ite (ih hm) (keeps_ite (ih hc) (ih hc))
    | _ => exact ih hm

theorem memoriesWf_signUpdate {sp : Bool} {lid team : Nat} {s : State} (hm : MemoriesWf s)
    {e : Nat × Nat × SliceKind} : MemoriesWf (signUpdate sp lid team s e) := by
  unfold signUpdate
  split
  · exact keeps_ite hm (memoriesWf_sign hm)
  · exact keeps_ite hm (keeps_foldl (fun _ _ ht => memoriesWf_sign ht) hm)
  · exact memoriesWf_modLaunch hm
  · exact hm

theorem memoriesWf_issueUpdates {s : State} (hm : MemoriesWf s) {i : Issue} {ex : Mask} {u : UpdateHow}
    {ks : List (Nat × Nat × SliceKind)} : FstWf MemoriesWf (issueUpdates s i ex u ks) := by
  unfold issueUpdates
  dsimp only
  split
  · exact FstWf.mk (FstWf.fst (memoriesWf_beginRelease (FstWf.fst (keeps_foldl (fun _ _ ht => FstWf.mk (FstWf.fst
        (memoriesWf_addPub (FstWf.fst ht)))) (FstWf.mk hm)))))
  · exact FstWf.mk (keeps_foldl (fun _ _ ht => memoriesWf_sendUpdate ht) (FstWf.fst (keeps_foldl (fun _ _ ht =>
        FstWf.mk (FstWf.fst (memoriesWf_addPub (FstWf.fst ht)))) (FstWf.mk hm))))

theorem memoriesWf_updateBody {it : Item} {u : UpdateHow} {addr : Opnd} {kind : State → Nat → Nat → SliceKind}
    {i : Issue} {ex : Mask} {s : State} (hm : MemoriesWf s) : BodyWf (updateBody it u addr kind i ex s) := by
  unfold updateBody
  extract_lets g lid l ls as ks go fs sectors ok
  have hgo : ∀ ex t, MemoriesWf t → BodyWf (go ex t) := fun ex t ht => by
    have hj := FstWf.fst (memoriesWf_joinCells (memoriesWf_consumeAll ht (gid := i.gid) (it := it)) (acc := [])
      (ks := ks.filter fun e => hasBit ex e.1))
    have signed {sp : Bool} := keeps_foldl (P := MemoriesWf) (f := signUpdate sp lid g.team)
      (xs := (joinCells (consumeAll t i.gid it) [] (ks.filter fun e => hasBit ex e.1)).2)
      (fun _ _ hu => memoriesWf_signUpdate hu) hj
    exact keeps_ite BodyWf.wait (keeps_ite (keeps_ite BodyWf.wait (BodyWf.done (FstWf.fst (memoriesWf_bankAccess
      (FstWf.fst (memoriesWf_spApplyAll signed)))))) (BodyWf.done (FstWf.fst (memoriesWf_issueUpdates signed))))
  exact keeps_ite (memoriesWf_checked hm hgo) (keeps_ite BodyWf.wait (memoriesWf_probed hm hgo))

/-! ## The matrix unit -/

theorem memoriesWf_execMdecl {h : Hdr} {cv : Fin 8} {a : Opnd} {s : State} (hm : MemoriesWf s) :
    OutWf (execMdecl h cv a s) := by
  unfold execMdecl
  refine memoriesWf_runItem (fun _ _ _ ht => keeps_ite BodyWf.wait ?_) hm
  split
  · exact BodyWf.fault
  · refine keeps_ite BodyWf.wait (keeps_ite BodyWf.fault ?_)
    split
    · exact BodyWf.fault
    · exact BodyWf.done (FstWf.fst (memoriesWf_bankAccess ht))

theorem memoriesWf_execMdeclRel {h : Hdr} {cv : Fin 8} {s : State} (hm : MemoriesWf s) :
    OutWf (execMdeclRel h cv s) :=
  memoriesWf_runItem (fun _ _ _ ht => keeps_ite BodyWf.wait (keeps_ite BodyWf.fault (BodyWf.done ht))) hm

theorem memoriesWf_finishMdecl {s : State} (hm : MemoriesWf s) {gid cv : Nat} {rel : Bool} {ms : List (Nat × Mask)} :
    MemoriesWf (finishMdecl s gid cv rel ms) :=
  memoriesWf_modQuart hm

theorem memoriesWf_enterRound {s : State} (hm : MemoriesWf s) {n cv : Nat} : MemoriesWf (enterRound s n cv) := by
  unfold enterRound
  dsimp only
  split
  · exact memoriesWf_modQuart hm
  · split
    · exact memoriesWf_modQuart hm
    · exact keeps_ite (memoriesWf_modQuart hm) (keeps_foldl (fun _ _ ht => memoriesWf_modGrpIf ht)
          (memoriesWf_modQuart hm))

theorem memoriesWf_mmaBody {ty : Ty} {cv kb : Nat} {a : Opnd} {bs : Option Opnd} {c : Opnd} {i : Issue} {ex : Mask}
    {s : State} (hm : MemoriesWf s) : BodyWf (mmaBody ty cv kb a bs c i ex s) := by
  unfold mmaBody
  refine keeps_ite BodyWf.wait (keeps_ite BodyWf.fault (keeps_ite BodyWf.fault (keeps_ite BodyWf.wait (keeps_ite
      BodyWf.fault (keeps_ite BodyWf.fault (keeps_ite BodyWf.fault ?_))))))
  dsimp only
  split
  · exact BodyWf.fault
  · exact BodyWf.fault
  · exact keeps_ite BodyWf.wait (BodyWf.done (keeps_ite (memoriesWf_enterRound (memoriesWf_modQuart hm))
        (memoriesWf_modQuart hm)))

theorem memoriesWf_cvNote {s : State} (hm : MemoriesWf s) {n cv : Nat} : SomeWf MemoriesWf (cvNote s n cv) := by
  unfold cvNote
  refine keeps_ite SomeWf.none ?_
  split
  · exact SomeWf.none
  · refine keeps_ite ?_ (keeps_ite SomeWf.none ?_)
    · dsimp only
      split
      · exact SomeWf.some (memoriesWf_modQuart hm)
      · exact SomeWf.some (memoriesWf_modGrpIf (memoriesWf_modQuart (memoriesWf_modQuart hm)))
    · split
      · exact SomeWf.some (memoriesWf_modQuart (memoriesWf_update hm))
      · exact keeps_ite (SomeWf.some (memoriesWf_enterRound hm)) SomeWf.none

theorem memoriesWf_stopMatrix {s : State} (hm : MemoriesWf s) {n : Nat} {o : MatOp} {c : Cause} :
    MemoriesWf (stopMatrix s n o c) :=
  keeps_ite (memoriesWf_lateFault (memoriesWf_modQuart hm)) (memoriesWf_modGrp (memoriesWf_modQuart hm))

theorem memoriesWf_mmaStart {s : State} (hm : MemoriesWf s) {n : Nat} : SomeWf MemoriesWf (mmaStart s n) :=
  SomeWf.map (fun _ _ => keeps_ite (memoriesWf_stopMatrix hm) (memoriesWf_modQuart hm))

theorem memoriesWf_windowWords {s : State} (hm : MemoriesWf s) {q : Quarter} {ks : NMap (List Word)} :
    FstWf MemoriesWf (windowWords s q ks) := by
  induction ks generalizing s with
  | nil => exact FstWf.mk hm
  | cons k ks ih =>
    obtain ⟨k, old⟩ := k
    have drawn : SndWf MemoriesWf (if old.isEmpty then ((mapGet 0 q.bplane k :: old).headD 0, s)
        else ((mapGet 0 q.bplane k :: old).getD (freeChoice s (mapGet 0 q.bplane k :: old).length).1 0,
          (freeChoice s (mapGet 0 q.bplane k :: old).length).2)) :=
      keeps_ite (SndWf.mk hm) (SndWf.mk (SndWf.snd (memoriesWf_freeChoice hm)))
    exact FstWf.mk (FstWf.fst (ih (SndWf.snd drawn)))

theorem memoriesWf_mmaComplete {s : State} (hm : MemoriesWf s) {n id : Nat} :
    SomeWf MemoriesWf (mmaComplete s n id) := by
  unfold mmaComplete
  dsimp only
  split
  · exact SomeWf.none
  · split
    · exact keeps_ite SomeWf.none (SomeWf.some (keeps_foldl (fun _ _ ht => memoriesWf_modGrpIf ht)
          (memoriesWf_modQuart (FstWf.fst (memoriesWf_windowWords hm)))))
    · exact SomeWf.none

theorem memoriesWf_mmaStop {s : State} (hm : MemoriesWf s) {n : Nat} {o : MatOp} :
    SomeWf MemoriesWf (mmaStop s n o) := by
  unfold mmaStop
  split
  · exact keeps_ite SomeWf.none (SomeWf.some (memoriesWf_modQuart (FstWf.fst (memoriesWf_windowWords hm))))
  · exact SomeWf.none

theorem memoriesWf_enqueue {s : State} (hm : MemoriesWf s) {i : Issue} {tiles : List Nat} {kind : MatKind} :
    FstWf MemoriesWf (enqueue s i tiles kind) :=
  FstWf.mk (memoriesWf_modQuart hm)

theorem memoriesWf_execMldb {h : Hdr} {sp : Bool} {a b c : Opnd} {s : State} (hm : MemoriesWf s) :
    OutWf (execMldb h sp a b c s) := by
  unfold execMldb
  refine memoriesWf_runItem (fun _ _ _ ht => keeps_ite BodyWf.fault ?_) hm
  split
  · exact BodyWf.fault
  · exact BodyWf.done (memoriesWf_modQuart ht)

theorem memoriesWf_execMzero {h : Hdr} {a : Opnd} {s : State} (hm : MemoriesWf s) : OutWf (execMzero h a s) :=
  memoriesWf_runItem (fun _ _ _ ht => keeps_ite BodyWf.fault (keeps_ite BodyWf.wait (BodyWf.done (FstWf.fst
      (keeps_foldl (fun _ _ hu => FstWf.mk (memoriesWf_modQuart (FstWf.fst hu))) (FstWf.mk ht)))))) hm

theorem memoriesWf_tileBody {ty : Ty} {tile al : Nat} {kind : Word → Word → MatKind} {a b : Opnd} {i : Issue}
    {ex : Mask} {s : State} (hm : MemoriesWf s) : BodyWf (tileBody ty tile al kind a b i ex s) := by
  unfold tileBody
  dsimp only
  split
  · exact BodyWf.fault
  · split
    · exact BodyWf.fault
    · exact keeps_ite BodyWf.wait (BodyWf.done (FstWf.fst (memoriesWf_enqueue hm)))

theorem memoriesWf_spPart {s : State} (hm : MemoriesWf s) {n : Nat} {o : MatOp} {w : Sweep} {k : Nat} :
    MemoriesWf (spPart s n o w k) := by
  unfold spPart
  dsimp only
  split
  · exact memoriesWf_modQuart (memoriesWf_scratchWrite hm)
  · exact keeps_foldl (fun _ _ ht => memoriesWf_scratchWrite ht) hm
  · exact keeps_foldl (fun _ _ ht => memoriesWf_scratchWrite ht) hm
  · exact memoriesWf_modQuart hm

theorem memoriesWf_spService {s : State} (hm : MemoriesWf s) {n : Nat} {o : MatOp} {w : Sweep} :
    SomeWf MemoriesWf (spService s n o w) :=
  keeps_ite (SomeWf.some (memoriesWf_stopMatrix hm)) (keeps_ite SomeWf.none (SomeWf.some (memoriesWf_modQuart
      (memoriesWf_spPart (memoriesWf_update hm)))))

theorem memoriesWf_sendMatrix {s : State} (hm : MemoriesWf s) {n : Nat} {o : MatOp} {va : Nat} {k : SliceKind} :
    MemoriesWf (sendMatrix s n o va k) :=
  memoriesWf_sendUpdate (memoriesWf_modQuart (keeps_ite (memoriesWf_noteLink (memoriesWf_update hm))
      (memoriesWf_update hm)))

theorem memoriesWf_serveMatrix {s : State} (hm : MemoriesWf s) {n id : Nat} :
    SomeWf MemoriesWf (serveMatrix s n id) := by
  unfold serveMatrix
  dsimp only
  split
  · exact SomeWf.none
  · split
    · exact SomeWf.none
    · refine keeps_ite SomeWf.none (keeps_ite SomeWf.none (keeps_ite (keeps_ite (SomeWf.some (memoriesWf_stopMatrix
          hm)) SomeWf.none) ?_))
      split
      · exact keeps_ite (SomeWf.some (memoriesWf_stopMatrix hm)) SomeWf.none
      · exact keeps_ite (SomeWf.some (memoriesWf_modQuart (FstWf.fst (memoriesWf_addRequest (keeps_foldl (fun _ _ ht
            => memoriesWf_pinPage ht) hm))))) (SomeWf.some (memoriesWf_modQuart (memoriesWf_sendMatrix
            (memoriesWf_signAll (keeps_foldl (fun _ _ ht => memoriesWf_pinPage ht) hm)))))

theorem memoriesWf_matrixReturn {s : State} (hm : MemoriesWf s) {n id : Nat} {data : Line} :
    MemoriesWf (matrixReturn s n id data) :=
  memoriesWf_modQuart hm

theorem memoriesWf_endMatrix {s : State} (hm : MemoriesWf s) {n : Nat} {o : MatOp} :
    MemoriesWf (endMatrix s n o) :=
  memoriesWf_modGrpIf (memoriesWf_modQuart hm)

theorem memoriesWf_matrixEnd {s : State} (hm : MemoriesWf s) {n id : Nat} : SomeWf MemoriesWf (matrixEnd s n id) := by
  unfold matrixEnd
  dsimp only
  split
  · exact SomeWf.none
  · split
    · exact SomeWf.none
    · exact SomeWf.none
    · exact keeps_ite SomeWf.none (keeps_ite (SomeWf.some (memoriesWf_modQuart hm)) (keeps_ite SomeWf.none
          (SomeWf.some (memoriesWf_endMatrix (memoriesWf_modQuart hm)))))
    · split
      · exact SomeWf.none
      · exact keeps_ite (keeps_ite (SomeWf.some (memoriesWf_endMatrix hm)) (keeps_ite SomeWf.none
            (memoriesWf_spService hm))) (keeps_ite SomeWf.none (SomeWf.some (memoriesWf_endMatrix hm)))

theorem memoriesWf_execMdrn {h : Hdr} {ty : Ty} {rnd : Rnd} {dp : Fin 4} {tile : Fin 16} {p64 : Bool} {s : State}
    (hm : MemoriesWf s) : OutWf (execMdrn h ty rnd dp tile p64 s) := by
  unfold execMdrn
  refine memoriesWf_runItem (fun _ _ _ ht => keeps_ite BodyWf.fault (keeps_ite BodyWf.fault ?_)) hm
  split
  · exact BodyWf.fault
  · exact keeps_ite BodyWf.wait (BodyWf.done (memoriesWf_modGrp (memoriesWf_modQuart ht)))

theorem memoriesWf_drainMove {s : State} (hm : MemoriesWf s) {gid dp : Nat} :
    SomeWf MemoriesWf (drainMove s gid dp) := by
  unfold drainMove
  dsimp only
  split
  · exact SomeWf.none
  · exact keeps_ite SomeWf.none (SomeWf.some (memoriesWf_modQuart (memoriesWf_modGrp hm)))

theorem memoriesWf_releaseTiles {s : State} (hm : MemoriesWf s) {n : Nat} : SomeWf MemoriesWf (releaseTiles s n) := by
  unfold releaseTiles
  dsimp only
  split
  · exact SomeWf.none
  · exact keeps_ite SomeWf.none (SomeWf.some (memoriesWf_modQuart hm))

theorem memoriesWf_expireClaim {s : State} (hm : MemoriesWf s) {n : Nat} : SomeWf MemoriesWf (expireClaim s n) := by
  unfold expireClaim
  dsimp only
  split
  · exact SomeWf.none
  · exact keeps_ite (SomeWf.some (memoriesWf_modQuart hm)) SomeWf.none

end Sys2Proof.Machine
end

section
/-! PROOF. MemoriesInDevices.lean: the slices, the host link and the line port keep the memories canonical.
The lemmas are elaborated one after another: all at once they need more threads than the memory limit allows. -/

namespace Sys2Proof.Machine

set_option Elab.async false

/-! ## Slices: translation and fills -/

theorem memoriesWf_countAccess {s : State} (hm : MemoriesWf s) {part die pa : Nat} :
    MemoriesWf (countAccess s part die pa) := by
  unfold countAccess
  split
  · exact keeps_ite hm hm
  · exact hm

theorem memoriesWf_countHost {s : State} (hm : MemoriesWf s) {a : Nat} : MemoriesWf (countHost s a) :=
  hm

theorem memoriesWf_modLine {s : State} (hm : MemoriesWf s) {k asid line : Nat} {f : L2Line → L2Line} :
    MemoriesWf (modLine s k asid line f) :=
  memoriesWf_modSlice hm

theorem memoriesWf_dropLine {s : State} (hm : MemoriesWf s) {k asid line : Nat} :
    MemoriesWf (dropLine s k asid line) :=
  memoriesWf_modSlice hm

theorem memoriesWf_modMiss {s : State} (hm : MemoriesWf s) {k asid line : Nat} {f : Miss → Miss} :
    MemoriesWf (modMiss s k asid line f) :=
  memoriesWf_modSlice hm

theorem memoriesWf_dropMiss {s : State} (hm : MemoriesWf s) {k asid line : Nat} :
    MemoriesWf (dropMiss s k asid line) :=
  memoriesWf_modSlice hm

theorem memoriesWf_forgetEntries {s : State} (hm : MemoriesWf s) {a n : Nat} : MemoriesWf (forgetEntries s a n) :=
  hm

theorem memoriesWf_storeBytes {s : State} (hm : MemoriesWf s) {part pa : Nat} {bs : List Byte} :
    MemoriesWf (storeBytes s part pa bs) := by
  induction bs generalizing s pa with
  | nil => exact hm
  | cons b bs ih =>
    unfold storeBytes
    refine ih ?_
    split
    · exact memoriesWf_homeWrite (memoriesWf_forgetEntries hm)
    · exact memoriesWf_homeWrite hm
    · exact hm

theorem memoriesWf_putPoison {s : State} (hm : MemoriesWf s) {a : Nat} {sectors poison : BitVec 4} :
    MemoriesWf (putPoison s a sectors poison) :=
  hm

theorem memoriesWf_putCarvedPoison {s : State} (hm : MemoriesWf s) {part o : Nat} {sectors poison : BitVec 4} :
    MemoriesWf (putCarvedPoison s part o sectors poison) :=
  memoriesWf_modPart hm

theorem memoriesWf_correctLine {s : State} (hm : MemoriesWf s) {a : Nat} : MemoriesWf (correctLine s a) :=
  hm

theorem memoriesWf_dropHints {s : State} (hm : MemoriesWf s) {k asid line : Nat} :
    MemoriesWf (dropHints s k asid line) := by
  unfold dropHints
  refine keeps_foldl (fun _ _ ht => ?_) hm
  split
  · exact memoriesWf_dropHint (memoriesWf_modSlice (memoriesWf_update ht))
  · exact ht

theorem memoriesWf_failMiss {s : State} (hm : MemoriesWf s) {k asid line : Nat} {code : CauseCode} :
    MemoriesWf (failMiss s k asid line code) := by
  unfold failMiss
  dsimp only
  split
  · exact keeps_ite (keeps_ite (memoriesWf_escalateFree (memoriesWf_dropMiss (memoriesWf_dropHints hm)))
        (memoriesWf_dropMiss (memoriesWf_dropHints hm))) (memoriesWf_escalateFree (memoriesWf_modMiss
        (memoriesWf_dropHints hm)))
  · split
    · exact memoriesWf_postEscalation (memoriesWf_countCause (memoriesWf_modMiss (memoriesWf_dropHints hm)))
    · exact memoriesWf_escalateFree (memoriesWf_modMiss (memoriesWf_dropHints hm))

theorem memoriesWf_resolveMiss {s : State} (hm : MemoriesWf s) {k asid line : Nat} {t : TlbEntry} :
    MemoriesWf (resolveMiss s k asid line t) := by
  unfold resolveMiss
  dsimp only
  split
  · exact hm
  · exact keeps_ite (memoriesWf_failMiss hm) (keeps_ite (memoriesWf_dropMiss hm) (keeps_ite (memoriesWf_dropMiss
        (memoriesWf_modLine hm)) (memoriesWf_modMiss hm)))

theorem memoriesWf_startWalk {s : State} (hm : MemoriesWf s) {k lid asid line : Nat}
    {write nofill first walkOnly : Bool} : MemoriesWf (startWalk s k lid asid line write nofill first walkOnly) := by
  unfold startWalk
  extract_lets miss t
  have ht : MemoriesWf t := by
    show MemoriesWf (match findMiss (sliceAt s k) asid line with
      | some _ => _
      | none => _)
    split
    · exact memoriesWf_modMiss hm
    · exact memoriesWf_modSlice hm
  split
  · exact keeps_ite (memoriesWf_resolveMiss ht) ht
  · exact ht

theorem memoriesWf_startMiss {s : State} (hm : MemoriesWf s) {k lid asid line : Nat} {write nofill first : Bool} :
    MemoriesWf (startMiss s k lid asid line write nofill first) :=
  memoriesWf_startWalk hm

theorem memoriesWf_addBounded {α : Type} {s : State} (hm : MemoriesWf s) {n : Nat} {xs : List α} {x : α} :
    FstWf MemoriesWf (addBounded s n xs x) :=
  keeps_ite (FstWf.mk hm) (FstWf.mk hm)

theorem memoriesWf_addTlb {s : State} (hm : MemoriesWf s) {k : Nat} {t : TlbEntry} : MemoriesWf (addTlb s k t) := by
  unfold addTlb
  dsimp only
  exact memoriesWf_modBlock (FstWf.fst (memoriesWf_addBounded hm))

theorem memoriesWf_addWalks {s : State} (hm : MemoriesWf s) {k asid line : Nat} {ps : List (Nat × Nat × Nat)} :
    MemoriesWf (addWalks s k asid line ps) := by
  induction ps generalizing s with
  | nil => exact hm
  | cons p ps ih => exact ih (keeps_ite hm (memoriesWf_modBlock (FstWf.fst (memoriesWf_addBounded hm))))

theorem memoriesWf_walkReads {s : State} (hm : MemoriesWf s) {k asid line : Nat} :
    MemoriesWf (walkReads s k asid line) :=
  memoriesWf_addWalks (keeps_foldl (fun _ _ ht => memoriesWf_countAccess ht) hm)

theorem memoriesWf_useLeaf {s : State} (hm : MemoriesWf s) {k asid line e epa : Nat} {large write : Bool} :
    MemoriesWf (useLeaf s k asid line e epa large write) :=
  keeps_ite (memoriesWf_failMiss hm) (keeps_ite (memoriesWf_resolveMiss (memoriesWf_addTlb hm))
      (memoriesWf_modBlock hm))

theorem memoriesWf_tlbWalk {s : State} (hm : MemoriesWf s) {k asid line : Nat} :
    SomeWf MemoriesWf (tlbWalk s k asid line) := by
  unfold tlbWalk
  split
  · exact SomeWf.none
  · refine keeps_ite SomeWf.none ?_
    split
    · exact SomeWf.some (memoriesWf_resolveMiss hm)
    · dsimp only
      split
      · exact SomeWf.some (memoriesWf_failMiss (memoriesWf_walkReads hm))
      · exact SomeWf.some (memoriesWf_failMiss (memoriesWf_walkReads hm))
      · exact SomeWf.some (memoriesWf_useLeaf (memoriesWf_walkReads hm))

theorem memoriesWf_adSwap {s : State} (hm : MemoriesWf s) {k asid line : Nat} :
    SomeWf MemoriesWf (adSwap s k asid line) := by
  unfold adSwap
  extract_lets b
  split
  · exact SomeWf.none
  · refine keeps_ite SomeWf.none ?_
    extract_lets drop t now put done v bad u
    have ht : MemoriesWf t := memoriesWf_countAccess hm
    have hdrop : ∀ {u}, MemoriesWf u → MemoriesWf (drop u) := fun hu => memoriesWf_modBlock hu
    have hput : ∀ {u} e, MemoriesWf u → MemoriesWf (put u e) := by
      intro u e hu
      unfold put
      split
      · exact memoriesWf_homeWriteLE hu
      · exact hu
    have hdone : ∀ e, MemoriesWf (done e) := fun e =>
      keeps_ite (hdrop (hput e ht)) (memoriesWf_resolveMiss (memoriesWf_addTlb (hdrop (hput e ht))))
    refine keeps_ite (SomeWf.some (hdone _)) (keeps_ite (SomeWf.some (hdone _)) ?_)
    have hv : MemoriesWf (drop v) := hdrop (memoriesWf_countAccess ht)
    exact keeps_ite (SomeWf.some (memoriesWf_failMiss hv))
      (keeps_ite (keeps_ite (SomeWf.some hv) (SomeWf.some (memoriesWf_failMiss hv)))
        (keeps_ite (SomeWf.some (memoriesWf_failMiss hv))
          (keeps_ite (SomeWf.some (memoriesWf_failMiss hv))
            (SomeWf.some (memoriesWf_modBlock (memoriesWf_countAccess ht))))))

theorem memoriesWf_copyFrame {s : State} (hm : MemoriesWf s) {part src dst : Nat} :
    MemoriesWf (copyFrame s part src dst) := by
  unfold copyFrame
  exact keeps_ite (memoriesWf_storeBytes hm) (memoriesWf_update (memoriesWf_storeBytes hm))

theorem memoriesWf_snapshot {s : State} (hm : MemoriesWf s) {lid pa : Nat} :
    SomeWf MemoriesWf (snapshot s lid pa) := by
  unfold snapshot
  refine keeps_ite (SomeWf.some hm) ?_
  split
  · exact SomeWf.some (memoriesWf_modLaunch (memoriesWf_modPart (memoriesWf_copyFrame hm)))
  · exact keeps_ite (SomeWf.some hm) SomeWf.none

theorem memoriesWf_snapshots {pa : Nat} {s : State} (hm : MemoriesWf s) {ls : List Nat} :
    FstWf MemoriesWf (snapshots pa s ls) := by
  induction ls generalizing s with
  | nil => exact FstWf.mk hm
  | cons l ls ih =>
    unfold snapshots
    split
    · exact ih (SomeWf.of_eq (memoriesWf_snapshot hm) ‹_›)
    · exact FstWf.mk hm

theorem memoriesWf_writeTarget {s : State} (hm : MemoriesWf s) {k : Nat} {x : L2Line} :
    SomeWf (LeftWf MemoriesWf) (writeTarget s k x) := by
  unfold writeTarget
  split
  · exact keeps_ite (SomeWf.some LeftWf.inr) (SomeWf.some (LeftWf.inl (memoriesWf_startMiss hm)))
  · exact SomeWf.some (LeftWf.inl (memoriesWf_startMiss hm))
  · exact SomeWf.none

theorem memoriesWf_forgetSectors {s : State} (hm : MemoriesWf s) {a : Nat} {dirty : BitVec 4} :
    MemoriesWf (forgetSectors s a dirty) :=
  keeps_foldl (fun _ _ ht => keeps_ite (memoriesWf_forgetEntries ht) ht) hm

theorem memoriesWf_evictDirtyHalf {s : State} (hm : MemoriesWf s) {part h i : Nat} {x : L2Line} :
    MemoriesWf (evictDirtyHalf s part h i x) :=
  memoriesWf_homeWriteLE (memoriesWf_update hm)

theorem memoriesWf_writeBack {s : State} (hm : MemoriesWf s) {k : Nat} {x : L2Line} :
    SomeWf (FstWf MemoriesWf) (writeBack s k x) := by
  unfold writeBack
  refine keeps_ite (SomeWf.some (FstWf.mk hm)) ?_
  split
  · exact SomeWf.none
  · rename_i e
    exact SomeWf.some (FstWf.mk (LeftWf.of_inl (SomeWf.of_eq (memoriesWf_writeTarget hm) e) rfl))
  · dsimp only
    split
    · split
      · rename_i e
        exact keeps_ite SomeWf.none (SomeWf.some (FstWf.mk (memoriesWf_modLaunch
          (FstWf.of_eq (memoriesWf_snapshots hm) e))))
      · rename_i e
        exact SomeWf.some (FstWf.mk (memoriesWf_modLine (memoriesWf_putPoison (memoriesWf_homeWriteMask
          (memoriesWf_forgetSectors (memoriesWf_countAccess (FstWf.of_eq (memoriesWf_snapshots hm) e)))))))
    · exact SomeWf.some (FstWf.mk (memoriesWf_modLine (memoriesWf_putCarvedPoison (memoriesWf_modPart
        (memoriesWf_homeWriteMask hm)))))
    · exact SomeWf.some (FstWf.mk (memoriesWf_modLine
        (keeps_foldl (fun _ _ h => keeps_ite (memoriesWf_evictDirtyHalf h) h) hm)))
    · exact SomeWf.some (FstWf.mk (memoriesWf_modLine (memoriesWf_update hm)))

theorem memoriesWf_cleanEvicts {s : State} (hm : MemoriesWf s) {x : L2Line} : MemoriesWf (cleanEvicts s x) :=
  keeps_ite hm (keeps_foldl (fun _ _ ht => keeps_ite ht ht) hm)

theorem memoriesWf_keepLease {s : State} (hm : MemoriesWf s) {k : Nat} {x : L2Line} :
    MemoriesWf (keepLease s k x) :=
  keeps_ite hm (memoriesWf_modSlice hm)

theorem memoriesWf_evictLine {s : State} (hm : MemoriesWf s) {k : Nat} {x : L2Line} :
    SomeWf (FstWf MemoriesWf) (evictLine s k x) := by
  unfold evictLine
  split
  next t e =>
    have ht : MemoriesWf t := FstWf.of_eq (SomeWf.of_eq (memoriesWf_writeBack hm) e) rfl
    have hd : MemoriesWf (dropLine (cleanEvicts t x) k x.asid x.line) := memoriesWf_dropLine (memoriesWf_cleanEvicts
      ht)
    exact SomeWf.some (FstWf.mk (memoriesWf_keepLease hd))
  · exact memoriesWf_writeBack hm

theorem memoriesWf_writebackLine {s : State} (hm : MemoriesWf s) {k asid line : Nat} :
    SomeWf MemoriesWf (writebackLine s k asid line) := by
  unfold writebackLine
  split
  · exact SomeWf.none
  · exact keeps_ite (SomeWf.map (fun _ et => FstWf.fst (SomeWf.of_eq (memoriesWf_evictLine hm) et))) SomeWf.none

theorem memoriesWf_discardLease {s : State} (hm : MemoriesWf s) {k asid line : Nat} :
    SomeWf MemoriesWf (discardLease s k asid line) :=
  keeps_ite (SomeWf.some (memoriesWf_modSlice hm)) SomeWf.none

theorem memoriesWf_execSnapshotPoolRefill {part : Nat} {frames : List Nat} {s : State} (hm : MemoriesWf s) :
    OutWf (execSnapshotPoolRefill part frames s) :=
  OutWf.next (memoriesWf_update (memoriesWf_modPart hm))

theorem memoriesWf_evictVictim {s : State} (hm : MemoriesWf s) {k asid line : Nat} :
    SomeWf MemoriesWf (evictVictim s k asid line) :=
  keeps_ite SomeWf.none (SomeWf.map (fun _ et => FstWf.fst (SomeWf.of_eq (memoriesWf_evictLine
      (memoriesWf_update hm)) et)))

theorem memoriesWf_evictHalf {s : State} (hm : MemoriesWf s) {k : Nat} {x : L2Line} {i : Nat} :
    SomeWf MemoriesWf (evictHalf s k x i) := by
  unfold evictHalf
  refine keeps_ite (SomeWf.some (memoriesWf_modLine (memoriesWf_update hm))) ?_
  split
  · exact SomeWf.none
  · rename_i e
    exact SomeWf.some (LeftWf.of_inl (SomeWf.of_eq (memoriesWf_writeTarget hm) e) rfl)
  · exact SomeWf.some (memoriesWf_modLine (memoriesWf_evictDirtyHalf hm))

theorem memoriesWf_evictFilter {s : State} (hm : MemoriesWf s) {k half : Nat} :
    SomeWf MemoriesWf (evictFilter s k half) :=
  keeps_ite SomeWf.none (memoriesWf_evictHalf (memoriesWf_update hm))

theorem memoriesWf_askHalf {s : State} (hm : MemoriesWf s) {k : Nat} {x : L2Line} {i : Nat} {own : Bool} :
    SomeWf MemoriesWf (askHalf s k x i own) :=
  keeps_ite SomeWf.none (keeps_ite (memoriesWf_evictFilter hm) (SomeWf.some (memoriesWf_update
      (memoriesWf_modLine hm))))

theorem memoriesWf_backInvalidate {s : State} (hm : MemoriesWf s) {es : List (Nat × Nat × Bool)} {inv : Bool} :
    SomeWf MemoriesWf (backInvalidate s es inv) :=
  keeps_ite SomeWf.none (SomeWf.some hm)

theorem memoriesWf_installLine {s : State} (hm : MemoriesWf s) {k way : Nat} {m : Miss} {pa : Nat}
    {valid poison : BitVec 4} {data : Line} : MemoriesWf (installLine s k way m pa valid poison data) :=
  memoriesWf_modSlice hm

theorem memoriesWf_memoryFill {s : State} (hm : MemoriesWf s) {k asid line : Nat} :
    SomeWf MemoriesWf (memoryFill s k asid line) := by
  unfold memoryFill
  dsimp only
  split
  · exact SomeWf.none
  · split
    · exact SomeWf.none
    · refine keeps_ite (memoriesWf_backInvalidate hm) ?_
      split
      · exact memoriesWf_evictVictim hm
      · refine keeps_ite (SomeWf.some (memoriesWf_installLine hm)) ?_
        split
        · exact SomeWf.some (memoriesWf_installLine (memoriesWf_correctLine (memoriesWf_countAccess hm)))
        · exact SomeWf.some (memoriesWf_installLine (memoriesWf_countAccess hm))
        · exact SomeWf.some (memoriesWf_update (memoriesWf_installLine (memoriesWf_countAccess hm)))
      · refine keeps_ite (SomeWf.some (memoriesWf_dropMiss hm)) (SomeWf.some (memoriesWf_dropMiss (memoriesWf_modLine
            ?_)))
        split
        · exact memoriesWf_correctLine (memoriesWf_countAccess hm)
        · exact memoriesWf_countAccess hm
        · exact memoriesWf_update (memoriesWf_countAccess hm)

theorem memoriesWf_lineReady {s : State} (hm : MemoriesWf s) {k : Nat} {x : L2Line} {lid : Nat} {first : Bool} :
    SndWf (SomeWf MemoriesWf) (lineReady s k x lid first) := by
  unfold lineReady
  refine keeps_ite (SndWf.mk (SomeWf.findSome (fun _ => memoriesWf_askHalf hm))) (keeps_ite (SndWf.mk SomeWf.none) ?_)
  split
  · exact SndWf.mk SomeWf.none
  · exact SndWf.mk (SomeWf.some (memoriesWf_startMiss hm))

theorem memoriesWf_answerRead {s : State} (hm : MemoriesWf s) {k id : Nat} {r : Request} {x : L2Line} :
    MemoriesWf (answerRead s k id r x) := by
  unfold answerRead
  dsimp only
  split <;> exact memoriesWf_update (keeps_ite (memoriesWf_modLine (memoriesWf_modSlice hm)) (memoriesWf_modSlice hm))

theorem memoriesWf_holdRead {s : State} (hm : MemoriesWf s) {k : Nat} {r : Request} :
    SomeWf MemoriesWf (holdRead s k r) := by
  unfold holdRead
  split
  · exact keeps_ite SomeWf.none (keeps_ite (SomeWf.some hm) (SomeWf.some (memoriesWf_modSlice hm)))
  · exact SomeWf.some hm

theorem memoriesWf_serveWalk {s : State} (hm : MemoriesWf s) {k id : Nat} {r : Request} :
    SomeWf MemoriesWf (serveWalk s k id r) := by
  unfold serveWalk
  split
  · exact SomeWf.none
  · exact SomeWf.some (memoriesWf_update (memoriesWf_modSlice hm))
  · exact SomeWf.some (memoriesWf_startWalk hm)

theorem memoriesWf_serveHere {s : State} (hm : MemoriesWf s) {k id : Nat} {r : Request} :
    SomeWf MemoriesWf (serveHere s k id r) := by
  unfold serveHere
  dsimp only
  split
  · split
    · exact keeps_ite (SomeWf.some (memoriesWf_startMiss hm)) SomeWf.none
    · exact SomeWf.some (memoriesWf_startMiss hm)
  · split
    · exact keeps_ite SomeWf.none (SomeWf.map (fun _ et => memoriesWf_answerRead (SomeWf.of_eq (memoriesWf_holdRead
          hm) et)))
    · exact SndWf.of_eq (memoriesWf_lineReady hm) ‹_›

theorem memoriesWf_serveRead {s : State} (hm : MemoriesWf s) {id : Nat} : SomeWf MemoriesWf (serveRead s id) := by
  unfold serveRead
  split
  · exact SomeWf.none
  · exact keeps_ite SomeWf.none (keeps_ite (SomeWf.some (SomeWf.getD (keeps_ite (memoriesWf_serveWalk (keeps_ite
        (memoriesWf_modSlice (memoriesWf_update hm)) hm)) (memoriesWf_serveHere (keeps_ite (memoriesWf_modSlice
        (memoriesWf_update hm)) hm))) (keeps_ite (memoriesWf_modSlice (memoriesWf_update hm)) hm))) (keeps_ite
        (memoriesWf_serveWalk (keeps_ite (memoriesWf_modSlice (memoriesWf_update hm)) hm)) (memoriesWf_serveHere
        (keeps_ite (memoriesWf_modSlice (memoriesWf_update hm)) hm))))

/-! ## Slices: operations -/

theorem memoriesWf_hostReady {s : State} (hm : MemoriesWf s) {k : Nat} {x : L2Line} {t : Touch} :
    ReadyWf (hostReady s k x t) := by
  unfold hostReady
  dsimp only
  split
  · exact trivial
  · split
    · rename_i e
      exact ReadyWf.go (SomeWf.of_eq (SomeWf.findSome fun _ => memoriesWf_askHalf hm) e)
    · exact trivial

theorem memoriesWf_hostCleared {s : State} (hm : MemoriesWf s) {k : Nat} {x : L2Line} {t : Touch} :
    ReadyWf (hostCleared s k x t) := by
  unfold hostCleared
  split
  · dsimp only
    split
    · exact trivial
    · split
      · rename_i e
        exact ReadyWf.go (SomeWf.of_eq (memoriesWf_backInvalidate hm) e)
      · exact trivial
  · exact trivial

theorem memoriesWf_readyLine {s : State} (hm : MemoriesWf s) {k : Nat} {t : Touch} {mine : Lock → Bool} :
    ReadyWf (readyLine s k t mine) := by
  unfold readyLine
  dsimp only
  split
  · exact memoriesWf_startMiss hm
  · exact keeps_ite (memoriesWf_startMiss hm) trivial
  · refine keeps_ite (keeps_ite (memoriesWf_startMiss hm) trivial) (keeps_ite (keeps_ite (memoriesWf_startMiss hm)
        trivial) ?_)
    split
    · exact keeps_ite trivial (keeps_ite (memoriesWf_hostCleared hm) trivial)
    · exact keeps_ite (memoriesWf_hostReady hm) trivial

theorem memoriesWf_readyLines {s : State} (hm : MemoriesWf s) {k : Nat} {mine : Lock → Bool} {ts : List Touch} :
    ReadyWf (readyLines s k mine ts) := by
  induction ts with
  | nil => exact trivial
  | cons t ts ih =>
    unfold readyLines
    split
    · exact ih
    · exact ReadyWf.of_go (memoriesWf_readyLine hm) ‹_›
    · split
      · exact ReadyWf.of_go ih ‹_›
      · exact trivial

theorem memoriesWf_noteApplied {s : State} (hm : MemoriesWf s) {lid va place : Nat} :
    MemoriesWf (noteApplied s lid va place) :=
  keeps_ite hm (memoriesWf_markUnreplayable hm)

theorem memoriesWf_writeLine {s : State} (hm : MemoriesWf s) {k lid asid line : Nat} {data : Line}
    {mask : BitVec 128} {stamp : Nat} : MemoriesWf (writeLine s k lid asid line data mask stamp) := by
  unfold writeLine
  dsimp only
  split
  · exact memoriesWf_modLine hm
  · exact keeps_ite (keeps_foldl (fun _ _ ht => keeps_ite (SomeWf.getD (memoriesWf_askHalf ht) ht) ht)
        (memoriesWf_noteApplied (memoriesWf_modLine hm))) (memoriesWf_noteApplied (memoriesWf_modLine hm))

theorem memoriesWf_sliceWrite {s : State} (hm : MemoriesWf s) {k lid asid va n x stamp : Nat} :
    MemoriesWf (sliceWrite s k lid asid va n x stamp) :=
  keeps_foldl (fun _ _ ht => memoriesWf_writeLine ht) hm

theorem memoriesWf_crucible {s : State} (hm : MemoriesWf s) {k : Nat} {p : Pub} :
    FstWf MemoriesWf (crucible s k p) := by
  unfold crucible
  dsimp only
  split
  · exact FstWf.mk (memoriesWf_writeLine hm)
  · split
    · refine FstWf.mk ?_
      split
      · exact memoriesWf_clearBackoff (memoriesWf_sliceWrite hm)
      · exact memoriesWf_sliceWrite hm
    · exact FstWf.mk hm
  · exact FstWf.mk (memoriesWf_sliceWrite hm)
  · exact FstWf.mk (memoriesWf_sliceWrite hm)
  · exact FstWf.mk hm
  · exact FstWf.mk (memoriesWf_sliceWrite hm)
  · exact FstWf.mk hm

theorem memoriesWf_consumePoison {s : State} (hm : MemoriesWf s) {p : Pub} : MemoriesWf (consumePoison s p) := by
  unfold consumePoison
  split
  · exact memoriesWf_deferPoison hm
  · exact memoriesWf_deferPoison hm
  · exact hm

theorem memoriesWf_carryPoison {s : State} (hm : MemoriesWf s) {k asid line : Nat} {sectors : BitVec 4} :
    MemoriesWf (carryPoison s k asid line sectors) :=
  keeps_ite hm (memoriesWf_modLine hm)

theorem memoriesWf_bumpFence {s : State} (hm : MemoriesWf s) {p : Pub} {f : Nat → Nat} :
    MemoriesWf (bumpFence s p f) := by
  unfold bumpFence
  split <;> exact hm

theorem memoriesWf_leavePub {s : State} (hm : MemoriesWf s) {k id : Nat} {p : Pub} {r : Option (Nat × Word × FF)} :
    MemoriesWf (leavePub s k id p r) := by
  unfold leavePub
  dsimp only
  split <;> exact memoriesWf_finishItem (memoriesWf_modSlice (memoriesWf_bumpFence hm))

theorem memoriesWf_useCrucible {s : State} (hm : MemoriesWf s) {k cycles : Nat} :
    MemoriesWf (useCrucible s k cycles) :=
  memoriesWf_modSlice hm

theorem memoriesWf_applyPub {s : State} (hm : MemoriesWf s) {k id : Nat} : SomeWf MemoriesWf (applyPub s k id) := by
  unfold applyPub
  split
  · exact SomeWf.none
  refine keeps_ite SomeWf.none ?_
  split
  · exact SomeWf.none
  · exact SomeWf.some (ReadyWf.of_go (memoriesWf_readyLines hm) ‹_›)
  next p _ _ _ =>
    extract_lets t u
    have hu : MemoriesWf u := memoriesWf_useCrucible (keeps_ite (memoriesWf_consumePoison hm) hm)
    have hc := FstWf.fst (memoriesWf_crucible hu (k := k) (p := p))
    exact SomeWf.some (memoriesWf_leavePub (keeps_ite hu (keeps_ite hc (memoriesWf_carryPoison hc))))

theorem memoriesWf_applyKind {s : State} (hm : MemoriesWf s) {k id : Nat} {ok : SliceKind → Bool} :
    OutWf (applyKind s k id ok) := by
  unfold applyKind
  split
  · exact keeps_ite (OutWf.next (SomeWf.getD (memoriesWf_applyPub hm) hm)) (OutWf.next hm)
  · exact OutWf.next hm

theorem memoriesWf_carvedApply {s : State} (hm : MemoriesWf s) {k id : Nat} {p : Pub} :
    MemoriesWf (carvedApply s k id p) := by
  unfold carvedApply
  dsimp only
  split
  · exact keeps_ite (memoriesWf_leavePub (memoriesWf_update hm)) (memoriesWf_leavePub (keeps_ite
        (memoriesWf_consumePoison hm) hm))
  · exact keeps_ite (memoriesWf_leavePub (memoriesWf_update hm)) (memoriesWf_leavePub (memoriesWf_markUnreplayable
        (memoriesWf_modPart hm (fun _ ht => memWriteLE_wf _ _ _ ht))))
  · exact hm

theorem memoriesWf_bankApply {s : State} (hm : MemoriesWf s) {id gid : Nat} {p : Pub} :
    SomeWf MemoriesWf (bankApply s id gid p) := by
  unfold bankApply
  extract_lets n lane far core t u
  have ht : MemoriesWf t := FstWf.fst (memoriesWf_takeBanks hm)
  have hu : MemoriesWf u := keeps_ite (memoriesWf_consumePoison ht) ht
  have ha := FstWf.fst (memoriesWf_spApply hu (gid := gid) (a := p.va) (k := p.kind))
  refine keeps_ite SomeWf.none (SomeWf.some ?_)
  split <;> exact memoriesWf_finishItem ha

theorem memoriesWf_arrivePub {s : State} (hm : MemoriesWf s) {id : Nat} : SomeWf MemoriesWf (arrivePub s id) := by
  unfold arrivePub
  split
  · exact SomeWf.none
  · exact keeps_ite SomeWf.none (keeps_ite (memoriesWf_bankApply hm) (keeps_ite SomeWf.none (keeps_ite (SomeWf.some
        (memoriesWf_carvedApply (memoriesWf_bumpFence hm))) (SomeWf.some (memoriesWf_modSlice (memoriesWf_update
        (keeps_ite (keeps_foldl (fun _ _ ht => memoriesWf_modL1 ht) (memoriesWf_bumpFence hm)) (memoriesWf_bumpFence
        hm))))))))

theorem memoriesWf_answerMarker {s : State} (hm : MemoriesWf s) {rel die : Nat} :
    SomeWf MemoriesWf (answerMarker s rel die) := by
  unfold answerMarker
  split
  · exact SomeWf.none
  · exact keeps_ite SomeWf.none (SomeWf.some (memoriesWf_setRelease hm))

theorem memoriesWf_answerProbe {s : State} (hm : MemoriesWf s) {id : Nat} : SomeWf MemoriesWf (answerProbe s id) := by
  unfold answerProbe
  split
  · exact SomeWf.none
  · exact keeps_ite SomeWf.none (SomeWf.some (memoriesWf_update (keeps_ite (memoriesWf_pinPage (keeps_ite hm
        (memoriesWf_walkReads hm))) (keeps_ite hm (memoriesWf_walkReads hm)))))

theorem memoriesWf_fillL1 {s : State} (hm : MemoriesWf s) {gid : Nat} {r : Request} {d : Line} {stop lc : Nat}
    {vers : List (BitVec 48)} {poison : BitVec 4} {first : Bool} :
    SomeWf MemoriesWf (fillL1 s gid r d stop lc vers poison first) :=
  SomeWf.map (fun _ et => memoriesWf_modL1 (keeps_ite (SomeWf.of_eq (memoriesWf_makeRoom hm) et)
      (memoriesWf_modCore (SomeWf.of_eq (memoriesWf_makeRoom hm) et))))

theorem memoriesWf_fixRecord {s : State} (hm : MemoriesWf s) {gid : Nat} {a : LaneAcc} {d : Line}
    {vers : List (BitVec 48)} : MemoriesWf (fixRecord s gid a d vers) := by
  unfold fixRecord
  split
  · exact hm
  · exact keeps_ite (memoriesWf_modGrp hm) (memoriesWf_modThread hm)

theorem memoriesWf_serveAcc {s : State} (hm : MemoriesWf s) {gid op : Nat} {d : Opnd} {data : Line}
    {vers : List (BitVec 48)} {poison : BitVec 4} {a : LaneAcc} :
    MemoriesWf (serveAcc s gid op d data vers poison a) :=
  memoriesWf_modGrp (keeps_ite (memoriesWf_deferPoison (memoriesWf_fixRecord hm)) (memoriesWf_fixRecord hm))

theorem memoriesWf_serveAll {s : State} (hm : MemoriesWf s) {id : Nat} {d : Line} {vers : List (BitVec 48)}
    {poison : BitVec 4} : MemoriesWf (serveAll s id d vers poison) :=
  keeps_foldl (fun _ _ ht => memoriesWf_serveAcc ht) hm

theorem memoriesWf_fillReturn {s : State} (hm : MemoriesWf s) {id : Nat} : SomeWf MemoriesWf (fillReturn s id) := by
  unfold fillReturn
  split
  · exact SomeWf.none
  · split
    · refine keeps_ite SomeWf.none ?_
      dsimp only
      split
      · exact SomeWf.map (fun _ et => memoriesWf_update (memoriesWf_serveAll (SomeWf.of_eq (memoriesWf_fillL1 hm)
            et)))
      · exact SomeWf.map (fun _ et => memoriesWf_update (memoriesWf_serveAll (SomeWf.of_eq (memoriesWf_fillL1 hm)
            et)))
      · exact SomeWf.some (memoriesWf_update (memoriesWf_serveAll hm))
      · exact SomeWf.some (memoriesWf_update (memoriesWf_serveAll hm))
      · exact SomeWf.some (memoriesWf_update (memoriesWf_serveAll hm))
      · exact SomeWf.none
    · exact SomeWf.none

/-! ## The host -/

theorem memoriesWf_say {s : State} (hm : MemoriesWf s) {m : HostMsg} : MemoriesWf (say s m) :=
  hm

theorem memoriesWf_answerSnoop {s : State} (hm : MemoriesWf s) {hpa : Nat} {hs : List (Nat × L2Line × Nat)}
    {plain forwarded : String} {keep : Bool} : MemoriesWf (answerSnoop s hpa hs plain forwarded keep) := by
  unfold answerSnoop
  split
  · exact keeps_ite (memoriesWf_say hm) (memoriesWf_writeHost (memoriesWf_say hm))
  · exact memoriesWf_say hm

theorem memoriesWf_setHolders {s : State} (hm : MemoriesWf s) {hs : List (Nat × L2Line × Nat)}
    {f : Nat → L2Line → L2Line} : MemoriesWf (setHolders s hs f) :=
  keeps_foldl (fun _ _ h => memoriesWf_modLine h) hm

theorem memoriesWf_trySnpInv {s : State} (hm : MemoriesWf s) {hpa : Nat} : SomeWf MemoriesWf (trySnpInv s hpa) :=
  keeps_ite SomeWf.none (SomeWf.some (memoriesWf_setHolders (memoriesWf_answerSnoop hm)))

theorem memoriesWf_trySnpData {s : State} (hm : MemoriesWf s) {hpa : Nat} : SomeWf MemoriesWf (trySnpData s hpa) :=
  keeps_ite SomeWf.none (SomeWf.some (memoriesWf_setHolders (memoriesWf_answerSnoop hm)))

theorem memoriesWf_trySnpCur {s : State} (hm : MemoriesWf s) {hpa : Nat} : SomeWf MemoriesWf (trySnpCur s hpa) :=
  keeps_ite SomeWf.none (SomeWf.some (memoriesWf_answerSnoop hm))

theorem memoriesWf_cleanCopies {s : State} (hm : MemoriesWf s) {a : Nat} :
    SomeWf (SomeWf MemoriesWf) (cleanCopies s a) := by
  unfold cleanCopies
  refine keeps_ite (SomeWf.some SomeWf.none) (keeps_ite SomeWf.none ?_)
  split
  · split
    · exact SomeWf.some (SomeWf.map (fun _ et => FstWf.fst (SomeWf.of_eq (memoriesWf_writeBack (SndWf.of_eq
          (memoriesWf_freeChoice hm) ‹_›)) et)))
    · exact SomeWf.some SomeWf.none

theorem memoriesWf_enterDir {s : State} (hm : MemoriesWf s) {a hpa : Nat} {owned : Bool} :
    MemoriesWf (enterDir s a hpa owned) :=
  hm

theorem memoriesWf_dirFull {s : State} (hm : MemoriesWf s) {a : Nat} : SomeWf (SomeWf MemoriesWf) (dirFull s a) :=
  keeps_ite SomeWf.none (SomeWf.some (memoriesWf_backInvalidate hm))

theorem memoriesWf_tryRead {s : State} (hm : MemoriesWf s) {hpa n : Nat} : SomeWf MemoriesWf (tryRead s hpa n) := by
  unfold tryRead
  split
  · exact SomeWf.none
  · split
    · exact SomeWf.of_eq (memoriesWf_cleanCopies hm) ‹_›
    · split
      · exact SomeWf.of_eq (memoriesWf_dirFull hm) ‹_›
      · exact SomeWf.some (memoriesWf_say (memoriesWf_enterDir (memoriesWf_countHost (memoriesWf_correctLine hm))))

theorem memoriesWf_tryOwn {s : State} (hm : MemoriesWf s) {hpa : Nat} {o : HostOp}
    {done : Nat → Nat → State → State}
    (hk : ∀ a b t, MemoriesWf t → MemoriesWf (done a b t)) :
    SomeWf MemoriesWf (tryOwn s hpa o done) := by
  unfold tryOwn
  split
  · exact SomeWf.none
  · split
    · exact SomeWf.of_eq (memoriesWf_cleanCopies hm) ‹_›
    · split
      · exact SomeWf.of_eq (memoriesWf_dirFull hm) ‹_›
      · exact keeps_ite SomeWf.none (SomeWf.some (hk _ _ _ (memoriesWf_enterDir (memoriesWf_countHost (keeps_foldl
            (fun _ _ ht => memoriesWf_dropLine ht) hm)))))

theorem memoriesWf_putHostBytes {hpa : Nat} {bytes : List Byte} {part a : Nat} {s : State} (hm : MemoriesWf s) :
    MemoriesWf (putHostBytes hpa bytes part a s) :=
  memoriesWf_say (memoriesWf_putPoison (keeps_foldl (fun _ _ ht => memoriesWf_homeWrite ht)
      (memoriesWf_forgetEntries hm)))

theorem memoriesWf_tryWrite {s : State} (hm : MemoriesWf s) {hpa : Nat} {bytes : List Byte} :
    SomeWf MemoriesWf (tryWrite s hpa bytes) :=
  memoriesWf_tryOwn hm (fun _ _ _ ht => memoriesWf_putHostBytes ht)

theorem memoriesWf_tryOwnership {s : State} (hm : MemoriesWf s) {hpa : Nat} :
    SomeWf MemoriesWf (tryOwnership s hpa) :=
  memoriesWf_tryOwn hm (fun _ _ _ ht => memoriesWf_say (memoriesWf_correctLine ht))

theorem memoriesWf_tryHost {s : State} (hm : MemoriesWf s) {o : HostOp} : SomeWf MemoriesWf (tryHost s o) := by
  unfold tryHost
  split
  · exact memoriesWf_trySnpInv hm
  · exact memoriesWf_trySnpData hm
  · exact memoriesWf_trySnpCur hm
  · exact memoriesWf_tryRead hm
  · exact memoriesWf_tryWrite hm
  · exact memoriesWf_tryOwnership hm

theorem memoriesWf_hostStepFrom {s : State} (hm : MemoriesWf s) {before os : List HostOp} :
    SomeWf MemoriesWf (hostStepFrom s before os) := by
  induction os generalizing before with
  | nil => exact SomeWf.none
  | cons o os ih =>
    have tried : SomeWf MemoriesWf (if before.any fun b => b.half = o.half then none else tryHost s o) :=
      keeps_ite SomeWf.none (memoriesWf_tryHost hm)
    unfold hostStepFrom
    dsimp only
    split
    · have ht := SomeWf.of_eq tried ‹_›
      exact SomeWf.some (keeps_ite (memoriesWf_update ht) ht)
    · exact ih

theorem memoriesWf_hostStep {s : State} (hm : MemoriesWf s) : SomeWf MemoriesWf (hostStep s) :=
  memoriesWf_hostStepFrom hm

theorem memoriesWf_arriveHost {s : State} (hm : MemoriesWf s) {ops : List HostOp} :
    MemoriesWf (arriveHost s ops) :=
  SomeWf.getD (memoriesWf_hostStep hm) hm

theorem memoriesWf_execHostMemRead {hpa n : Nat} {s : State} (hm : MemoriesWf s) :
    OutWf (execHostMemRead hpa n s) :=
  keeps_ite OutWf.fault (OutWf.next (memoriesWf_arriveHost hm))

theorem memoriesWf_execHostMemWrite {hpa : Nat} {bytes : List Byte} {s : State} (hm : MemoriesWf s) :
    OutWf (execHostMemWrite hpa bytes s) :=
  keeps_ite OutWf.fault (OutWf.next (memoriesWf_arriveHost hm))

theorem memoriesWf_execBiResponse {pa : Nat} {s : State} (hm : MemoriesWf s) : OutWf (execBiResponse pa s) := by
  unfold execBiResponse
  split
  · exact OutWf.next hm
  · exact OutWf.next (memoriesWf_update hm)

theorem memoriesWf_cxlAnswer {s : State} (hm : MemoriesWf s) {k hpa : Nat} {d : BitVec 512} {own : Bool} :
    SomeWf MemoriesWf (cxlAnswer s k hpa d own) :=
  SomeWf.map fun _ _ => memoriesWf_modLine (memoriesWf_writeHost hm)

theorem memoriesWf_finishCarve {s : State} (hm : MemoriesWf s) {part w : Nat} {who : Option (Nat × Nat)} :
    MemoriesWf (finishCarve s part w who) := by
  unfold finishCarve
  extract_lets old new t p u
  have ht : MemoriesWf t := memoriesWf_modPart hm fun _ h => canonFrom_filter _ h
  have hu : MemoriesWf u := keeps_foldl (fun _ _ h => keeps_ite (memoriesWf_modCore h) h) ht
  split
  · exact hu
  · exact memoriesWf_modGrpIf hu

theorem memoriesWf_carveStep {s : State} (hm : MemoriesWf s) {part : Nat} : SomeWf MemoriesWf (carveStep s part) := by
  unfold carveStep
  dsimp only
  split
  · exact SomeWf.none
  · refine keeps_ite (SomeWf.some (memoriesWf_finishCarve hm)) (keeps_ite (SomeWf.some (memoriesWf_modPart hm)) ?_)
    split
    · exact SomeWf.some (memoriesWf_finishCarve hm)
    · exact SomeWf.findSome (fun _ => keeps_ite SomeWf.none (SomeWf.map (fun _ eu => memoriesWf_modSlice (FstWf.fst
          (SomeWf.of_eq (memoriesWf_evictLine hm) eu)))))

theorem memoriesWf_execCarvewWrite {part : Nat} {val : Word} {s : State} (hm : MemoriesWf s) :
    OutWf (execCarvewWrite part val s) :=
  keeps_ite (OutWf.next hm) (OutWf.next (memoriesWf_modPart hm))

theorem memoriesWf_execRequestCounterWrite {part die chan which : Nat} {val : Word} {s : State} (hm : MemoriesWf s) :
    OutWf (execRequestCounterWrite part die chan which val s) := by
  unfold execRequestCounterWrite
  refine keeps_ite (OutWf.next hm) ?_
  split <;> exact OutWf.next hm

/-! ## The line port -/

theorem memoriesWf_faultQueue {s : State} (hm : MemoriesWf s) {gid qn k : Nat} {c : Cause} :
    MemoriesWf (faultQueue s gid qn k c) := by
  unfold faultQueue
  refine keeps_ite (memoriesWf_lateFault ?_) ?_
  · split
    · exact memoriesWf_modGrp (memoriesWf_modGrp hm)
    · exact memoriesWf_modGrp hm
  · split
    · exact memoriesWf_modGrp (memoriesWf_modGrp hm)
    · exact memoriesWf_modGrp hm

theorem memoriesWf_streamHint {s : State} (hm : MemoriesWf s) {gid qn : Nat} {a : Word} :
    MemoriesWf (streamHint s gid qn a) :=
  keeps_ite hm (keeps_ite (memoriesWf_modGrp hm) (memoriesWf_dropBadHint (memoriesWf_modGrp hm)))

theorem memoriesWf_sendStreamRead {s : State} (hm : MemoriesWf s) {gid qn : Nat} {out : Bool} {p : Pend} :
    MemoriesWf (sendStreamRead s gid qn out p) :=
  keeps_ite (memoriesWf_prefetchLine (keeps_ite (memoriesWf_update (memoriesWf_update (memoriesWf_modGrp
      (keeps_foldl (fun _ _ ht => memoriesWf_pinPage ht) hm)))) (memoriesWf_streamHint (memoriesWf_update
      (memoriesWf_update (memoriesWf_modGrp (keeps_foldl (fun _ _ ht => memoriesWf_pinPage ht) hm))))))) (keeps_ite
      (memoriesWf_update (memoriesWf_update (memoriesWf_modGrp (keeps_foldl (fun _ _ ht => memoriesWf_pinPage ht)
      hm)))) (memoriesWf_streamHint (memoriesWf_update (memoriesWf_update (memoriesWf_modGrp (keeps_foldl (fun _ _ ht
      => memoriesWf_pinPage ht) hm))))))

theorem memoriesWf_sendStreamWrite {s : State} (hm : MemoriesWf s) {gid qn : Nat} {p : Pend} :
    MemoriesWf (sendStreamWrite s gid qn p) :=
  memoriesWf_streamHint (memoriesWf_modGrp (keeps_ite (memoriesWf_noteLink (memoriesWf_update (memoriesWf_update
      (memoriesWf_signAll (keeps_foldl (fun _ _ ht => memoriesWf_pinPage ht) hm))))) (memoriesWf_update
      (memoriesWf_update (memoriesWf_signAll (keeps_foldl (fun _ _ ht => memoriesWf_pinPage ht) hm))))))

theorem memoriesWf_reserve {s : State} (hm : MemoriesWf s) {gid qn : Nat} : SomeWf MemoriesWf (reserve s gid qn) :=
  keeps_ite SomeWf.none (SomeWf.map (fun _ _ => memoriesWf_modGrp hm))

theorem memoriesWf_takeOut {s : State} (hm : MemoriesWf s) {gid qn : Nat} : SomeWf MemoriesWf (takeOut s gid qn) :=
  keeps_ite SomeWf.none (SomeWf.map (fun _ _ => memoriesWf_modGrp hm))

theorem memoriesWf_serveStream {s : State} (hm : MemoriesWf s) {gid qn : Nat} :
    SomeWf MemoriesWf (serveStream s gid qn) := by
  unfold serveStream
  refine keeps_ite SomeWf.none ?_
  split
  · dsimp only
    split
    · exact SomeWf.some (memoriesWf_faultQueue hm)
    · exact SomeWf.some (keeps_ite (memoriesWf_sendStreamWrite hm) (memoriesWf_sendStreamRead hm))
  · refine keeps_ite SomeWf.none ?_
    split
    · split
      · exact SomeWf.some (memoriesWf_faultQueue hm)
      · exact SomeWf.some (memoriesWf_sendStreamRead hm)
    · exact SomeWf.none

theorem memoriesWf_deliver1 {s : State} (hm : MemoriesWf s) {gid qn : Nat} :
    SomeWf MemoriesWf (deliver1 s gid qn) := by
  unfold deliver1
  dsimp only
  split
  · exact keeps_ite SomeWf.none (SomeWf.some (memoriesWf_modGrp hm))
  · exact SomeWf.none

theorem memoriesWf_writtenHead {s : State} (hm : MemoriesWf s) {gid qn : Nat} :
    SomeWf MemoriesWf (writtenHead s gid qn) := by
  unfold writtenHead
  dsimp only
  split
  · exact keeps_ite SomeWf.none (SomeWf.some (memoriesWf_modGrp hm))
  · exact SomeWf.none

theorem memoriesWf_advanceOnce {s : State} (hm : MemoriesWf s) {gid qn : Nat} :
    SomeWf MemoriesWf (advanceOnce s gid qn) :=
  keeps_ite SomeWf.none (SomeWf.orElse (memoriesWf_deliver1 hm) (SomeWf.orElse (keeps_ite
      (memoriesWf_writtenHead hm) SomeWf.none) (SomeWf.orElse (memoriesWf_reserve hm) (SomeWf.orElse
      (memoriesWf_takeOut hm) (keeps_ite (SomeWf.some (memoriesWf_modGrp hm)) SomeWf.none)))))

theorem memoriesWf_advanceStream {gid qn n : Nat} {s : State} (hm : MemoriesWf s) :
    MemoriesWf (advanceStream gid qn n s) := by
  induction n generalizing s with
  | zero => exact hm
  | succ n ih =>
    unfold advanceStream
    split
    · exact ih (SomeWf.of_eq (memoriesWf_advanceOnce hm) ‹_›)
    · exact hm

theorem memoriesWf_execStreamWriteApplied {core ctx : Nat} {s : State} (hm : MemoriesWf s) :
    OutWf (execStreamWriteApplied core ctx s) :=
  OutWf.next (SomeWf.getD (SomeWf.bind (fun _ _ => memoriesWf_writtenHead hm)) hm)

theorem memoriesWf_stopStream {s : State} (hm : MemoriesWf s) {gid qn : Nat} :
    SomeWf MemoriesWf (stopStream s gid qn) := by
  unfold stopStream
  split
  · exact SomeWf.none
  · exact keeps_ite (SomeWf.some (memoriesWf_modGrp hm)) SomeWf.none

theorem memoriesWf_fillEntry {s : State} (hm : MemoriesWf s) {gid qn : Nat} {out : Bool} {line : Nat} {data : Line}
    {e : QEntry} : FstWf MemoriesWf (fillEntry s gid qn out line data e) :=
  FstWf.mk (keeps_foldl (fun _ _ ht => memoriesWf_scratchWrite ht) (memoriesWf_modGrp hm))

theorem memoriesWf_fillEntries {gid qn : Nat} {out : Bool} {line : Nat} {data : Line} {s : State}
    (hm : MemoriesWf s) {es : List QEntry} : FstWf MemoriesWf (fillEntries gid qn out line data s es) := by
  induction es generalizing s with
  | nil => exact FstWf.mk hm
  | cons e es ih => exact FstWf.mk (FstWf.fst (ih (FstWf.fst (memoriesWf_fillEntry hm))))

theorem memoriesWf_streamArrives {s : State} (hm : MemoriesWf s) {gid qn line : Nat} {data : Line}
    {poison : BitVec 4} : MemoriesWf (streamArrives s gid qn line data poison) := by
  unfold streamArrives
  split
  · exact memoriesWf_faultQueue hm
  · exact memoriesWf_advanceStream (memoriesWf_modGrp (FstWf.fst (memoriesWf_fillEntries (FstWf.fst
        (memoriesWf_fillEntries hm)))))

theorem memoriesWf_modCopy {s : State} (hm : MemoriesWf s) {core id : Nat} {f : Copy → Copy} :
    MemoriesWf (modCopy s core id f) :=
  memoriesWf_modCore hm

theorem memoriesWf_stopCopy {s : State} (hm : MemoriesWf s) {core : Nat} {c : Copy} {x : Cause} :
    MemoriesWf (stopCopy s core c x) :=
  keeps_ite (memoriesWf_modCopy hm) (memoriesWf_lateFault (memoriesWf_modCopy hm))

theorem memoriesWf_keepHint {s : State} (hm : MemoriesWf s) {core lid : Nat} {sp : Bool} {a : Nat}
    {page : Option Nat} : MemoriesWf (keepHint s core lid sp a page) :=
  keeps_ite hm (keeps_ite hm (memoriesWf_dropBadHint hm))

theorem memoriesWf_copyWrite {s : State} (hm : MemoriesWf s) {core : Nat} {c : Copy} {n x : Nat} :
    MemoriesWf (copyWrite s core c n x) :=
  keeps_ite (memoriesWf_modCopy (keeps_foldl (fun _ _ ht => memoriesWf_scratchWrite ht) hm)) (memoriesWf_modCopy
      (keeps_ite (memoriesWf_noteLink (memoriesWf_update (memoriesWf_update (memoriesWf_modCopy (FstWf.fst
      (memoriesWf_signCopy hm)))))) (memoriesWf_update (memoriesWf_update (memoriesWf_modCopy (FstWf.fst
      (memoriesWf_signCopy hm)))))))

theorem memoriesWf_serveCopy {s : State} (hm : MemoriesWf s) {core : Nat} {c : Copy} :
    SomeWf MemoriesWf (serveCopy s core c) := by
  unfold serveCopy
  refine keeps_ite SomeWf.none (keeps_ite (SomeWf.some (memoriesWf_copyWrite hm)) (keeps_ite SomeWf.none ?_))
  dsimp only
  split
  · exact SomeWf.some (memoriesWf_stopCopy (memoriesWf_modCopy hm))
  · exact SomeWf.some (memoriesWf_stopCopy (memoriesWf_modCopy hm))
  · exact keeps_ite SomeWf.none (keeps_ite (SomeWf.some (memoriesWf_stopCopy (keeps_foldl (fun _ _ ht =>
        memoriesWf_pinPage ht) (keeps_ite (memoriesWf_modCopy (memoriesWf_keepHint (memoriesWf_keepHint
        (memoriesWf_modCopy hm)))) (memoriesWf_modCopy hm))))) (keeps_ite (SomeWf.some (memoriesWf_copyWrite
        (keeps_foldl (fun _ _ ht => memoriesWf_pinPage ht) (keeps_ite (memoriesWf_modCopy (memoriesWf_keepHint
        (memoriesWf_keepHint (memoriesWf_modCopy hm)))) (memoriesWf_modCopy hm))))) (SomeWf.some (memoriesWf_modCopy
        (FstWf.fst (memoriesWf_addRequest (keeps_foldl (fun _ _ ht => memoriesWf_pinPage ht) (keeps_ite
        (memoriesWf_modCopy (memoriesWf_keepHint (memoriesWf_keepHint (memoriesWf_modCopy hm)))) (memoriesWf_modCopy
        hm)))))))))

theorem memoriesWf_copyArrives {s : State} (hm : MemoriesWf s) {core id : Nat} {data : Line} {poison : BitVec 4} :
    MemoriesWf (copyArrives s core id data poison) := by
  unfold copyArrives
  split
  · exact hm
  · exact keeps_ite (memoriesWf_stopCopy hm) (keeps_ite (memoriesWf_copyWrite hm) (memoriesWf_modCopy hm))

theorem memoriesWf_endCopy {s : State} (hm : MemoriesWf s) {core id : Nat} :
    SomeWf MemoriesWf (endCopy s core id) := by
  unfold endCopy
  split
  · exact SomeWf.none
  · exact keeps_ite (SomeWf.some (memoriesWf_modCore hm)) SomeWf.none

theorem memoriesWf_portReturn {s : State} (hm : MemoriesWf s) {id : Nat} : SomeWf MemoriesWf (portReturn s id) := by
  unfold portReturn
  split
  · exact SomeWf.none
  · split
    · exact keeps_ite SomeWf.none (SomeWf.some (memoriesWf_streamArrives (memoriesWf_update hm)))
    · exact keeps_ite SomeWf.none (SomeWf.some (memoriesWf_copyArrives (memoriesWf_update hm)))
    · dsimp only
      split
      · exact SomeWf.some (memoriesWf_stopMatrix (memoriesWf_update hm))
      · exact SomeWf.some (memoriesWf_matrixReturn (memoriesWf_update hm))
    · exact SomeWf.none

theorem memoriesWf_serveClient {s : State} (hm : MemoriesWf s) {core : Nat} {who : Client} :
    SomeWf MemoriesWf (serveClient s core who) := by
  unfold serveClient
  split
  · exact memoriesWf_serveStream hm
  · exact memoriesWf_serveCopy hm
  · exact memoriesWf_serveMatrix hm

theorem memoriesWf_advanceContexts {s : State} (hm : MemoriesWf s) {core : Nat} :
    SomeWf MemoriesWf (advanceContexts s core) :=
  keeps_ite (SomeWf.some (keeps_foldl (fun _ _ ht => memoriesWf_advanceStream ht) hm)) SomeWf.none

theorem memoriesWf_portRequest {s : State} (hm : MemoriesWf s) {core : Nat} :
    SomeWf MemoriesWf (portRequest s core) :=
  keeps_ite SomeWf.none (SomeWf.findSome (fun _ => SomeWf.map (fun _ eu => memoriesWf_modCore (SomeWf.of_eq
      (memoriesWf_serveClient hm) eu))))

theorem memoriesWf_portStep {s : State} (hm : MemoriesWf s) {core : Nat} : SomeWf MemoriesWf (portStep s core) := by
  unfold portStep
  split
  · exact SomeWf.some (SomeWf.getD (memoriesWf_portRequest (SomeWf.of_eq (memoriesWf_advanceContexts hm) ‹_›))
        (SomeWf.of_eq (memoriesWf_advanceContexts hm) ‹_›))
  · exact memoriesWf_portRequest hm

end Sys2Proof.Machine
end

section
/-! PROOF. MemoriesInGroups.lean: exact accumulators, phases, transactions, exits and instructions in flight keep the
memories canonical.
The lemmas are elaborated one after another: all at once they need more threads than the memory limit allows. -/

namespace Sys2Proof.Machine

set_option Elab.async false

/-! ## Exact accumulators -/

theorem memoriesWf_setAcc {s : State} (hm : MemoriesWf s) {gid n : Nat} {x : BitVec 4288} :
    MemoriesWf (setAcc s gid n x) :=
  memoriesWf_modGrp hm

theorem memoriesWf_xaddBody {it : Item} {ty : Ty} {xa : Fin 8} {i : Issue} {ex : Mask} {s : State}
    (hm : MemoriesWf s) : BodyWf (xaddBody it ty xa i ex s) :=
  BodyWf.done (memoriesWf_setAcc (memoriesWf_consumeAll hm))

theorem memoriesWf_xrndBody {ty : Ty} {rnd : Rnd} {clr : Bool} {xa : Fin 8} {d : Opnd} {i : Issue} {ex : Mask}
    {s : State} (hm : MemoriesWf s) : BodyWf (xrndBody ty rnd clr xa d i ex s) :=
  BodyWf.done (keeps_ite (memoriesWf_setAcc hm) hm)

theorem memoriesWf_xsaveBody {it : Item} {xa : Fin 8} {a : Opnd} {i : Issue} {ex : Mask} {s : State}
    (hm : MemoriesWf s) : BodyWf (xsaveBody it xa a i ex s) := by
  unfold xsaveBody
  split
  · exact BodyWf.fault
  · exact keeps_ite BodyWf.wait (BodyWf.done (memoriesWf_scratchWrite (FstWf.fst (memoriesWf_blockAccess
        (memoriesWf_consumeAll hm)))))

theorem memoriesWf_xloadBody {it : Item} {xa : Fin 8} {a : Opnd} {i : Issue} {ex : Mask} {s : State}
    (hm : MemoriesWf s) : BodyWf (xloadBody it xa a i ex s) := by
  unfold xloadBody
  split
  · exact BodyWf.fault
  · exact keeps_ite BodyWf.wait (BodyWf.done (memoriesWf_setAcc (FstWf.fst (memoriesWf_blockAccess
        (memoriesWf_consumeAll hm)))))

/-! ## Phasers, fences and the runner network -/

theorem memoriesWf_onPhaser {a : Opnd} {needs : Option (PhMode → Bool)} {k : Issue → Mask → State → Nat → Body}
    (hk : ∀ i ex t, MemoriesWf t → ∀ n, BodyWf (k i ex t n)) {i : Issue} {ex : Mask} {s : State}
    (hm : MemoriesWf s) : BodyWf (onPhaser a needs k i ex s) := by
  unfold onPhaser
  split
  · exact BodyWf.fault
  · exact BodyWf.wait
  · exact hk _ _ _ hm _

theorem memoriesWf_askMember {mode : PhMode} {i : Issue} {ex : Mask} {s : State} (hm : MemoriesWf s) {n : Nat} :
    BodyWf (askMember mode i ex s n) :=
  BodyWf.done (memoriesWf_modPhaser hm)

theorem memoriesWf_execPhreg {h : Hdr} {mode : PhMode} {a : Opnd} {s : State} (hm : MemoriesWf s) :
    OutWf (execPhreg h mode a s) :=
  memoriesWf_runItem (fun _ _ _ ht => memoriesWf_onPhaser (fun _ _ _ hu _ => memoriesWf_askMember hu) ht) hm

theorem memoriesWf_execPhdrop {h : Hdr} {a : Opnd} {s : State} (hm : MemoriesWf s) : OutWf (execPhdrop h a s) :=
  memoriesWf_runItem (fun _ _ _ ht => memoriesWf_onPhaser (fun _ _ _ hu _ => memoriesWf_askMember hu) ht) hm

theorem memoriesWf_execPhstat {h : Hdr} {d a : Opnd} {s : State} (hm : MemoriesWf s) :
    OutWf (execPhstat h d a s) :=
  memoriesWf_runItem (fun _ _ _ ht => memoriesWf_onPhaser (fun _ _ _ hu _ => BodyWf.done hu) ht) hm

theorem memoriesWf_signalPhase {i : Issue} {ex : Mask} {s : State} (hm : MemoriesWf s) {n : Nat} :
    FstWf MemoriesWf (signalPhase i ex s n) :=
  FstWf.mk (memoriesWf_modPhaser (memoriesWf_runRelease (memoriesWf_update (memoriesWf_update (memoriesWf_modGrp
      hm)))))

theorem memoriesWf_execPhsig {h : Hdr} {a : Opnd} {s : State} (hm : MemoriesWf s) : OutWf (execPhsig h a s) :=
  memoriesWf_runItem (fun _ _ _ ht => memoriesWf_onPhaser (fun _ _ _ hu _ => keeps_ite BodyWf.wait (BodyWf.done
      (memoriesWf_modPhaser (memoriesWf_runRelease (memoriesWf_update (memoriesWf_update (memoriesWf_modGrp hu)))))))
      ht) hm

theorem memoriesWf_execPhwait {h : Hdr} {a : Opnd} {s : State} (hm : MemoriesWf s) : OutWf (execPhwait h a s) :=
  memoriesWf_runItem (fun _ _ _ ht => memoriesWf_onPhaser (fun _ _ _ hu _ => BodyWf.done hu) ht) hm

theorem memoriesWf_phnxtBody {spec : Bool} {i : Issue} {ex : Mask} {s : State} (hm : MemoriesWf s) {n : Nat} :
    BodyWf (phnxtBody spec i ex s n) :=
  keeps_ite BodyWf.wait (BodyWf.done (keeps_ite (memoriesWf_modGrp (memoriesWf_modPhaser (memoriesWf_runRelease
      (memoriesWf_update (memoriesWf_update (memoriesWf_modGrp hm)))))) (memoriesWf_modPhaser (memoriesWf_runRelease
      (memoriesWf_update (memoriesWf_update (memoriesWf_modGrp hm)))))))

theorem memoriesWf_execPhnxt {h : Hdr} {a : Opnd} {s : State} (hm : MemoriesWf s) : OutWf (execPhnxt h a s) :=
  memoriesWf_runItem (fun _ _ _ ht => memoriesWf_onPhaser (fun _ _ _ hu _ => memoriesWf_phnxtBody hu) ht) hm

theorem memoriesWf_execPhnxtSpec {h : Hdr} {a : Opnd} {s : State} (hm : MemoriesWf s) :
    OutWf (execPhnxtSpec h a s) :=
  memoriesWf_runItem (fun _ _ _ ht => memoriesWf_onPhaser (fun _ _ _ hu _ => memoriesWf_phnxtBody hu) ht) hm

theorem memoriesWf_fenceStep {s : State} (hm : MemoriesWf s) {gid : Nat} {o : Op} {kind : FenceKind}
    {sc : Sys2Proof.Scope} {rel : Option Nat} {earlier : List Nat} :
    SomeWf (FstWf MemoriesWf) (fenceStep s gid o kind sc rel earlier) := by
  unfold fenceStep
  dsimp only
  split
  · exact keeps_ite (SomeWf.some (FstWf.mk hm)) SomeWf.none
  · exact keeps_ite SomeWf.none (keeps_ite (SomeWf.some (FstWf.mk hm)) (SomeWf.some (FstWf.mk (memoriesWf_modGrp
        (FstWf.fst (memoriesWf_beginRelease hm))))))

theorem memoriesWf_modObj {s : State} (hm : MemoriesWf s) {n : Nat} {f : RunObj → RunObj} :
    MemoriesWf (modObj s n f) :=
  hm

theorem memoriesWf_noteNet {s : State} (hm : MemoriesWf s) {gid : Nat} {h : Word} : MemoriesWf (noteNet s gid h) :=
  keeps_ite (memoriesWf_markUnreplayable hm) hm

theorem memoriesWf_execGred {h : Hdr} {xa : Fin 8} {a : Opnd} {s : State} (hm : MemoriesWf s) :
    OutWf (execGred h xa a s) := by
  unfold execGred
  refine memoriesWf_runItem (fun _ _ _ ht => ?_) hm
  dsimp only
  split
  · exact BodyWf.fault
  · exact keeps_ite (keeps_ite BodyWf.fault (keeps_ite BodyWf.wait (BodyWf.done (memoriesWf_modObj (memoriesWf_noteNet
        ht))))) (keeps_ite (BodyWf.done (memoriesWf_noteNet ht)) BodyWf.fault)

theorem memoriesWf_gredLate {s : State} (hm : MemoriesWf s) {gid op : Nat} :
    SomeWf MemoriesWf (gredLate s gid op) := by
  unfold gredLate
  split
  · exact SomeWf.none
  · split
    · exact keeps_ite SomeWf.none (keeps_ite (SomeWf.some (memoriesWf_modObj (memoriesWf_modGrp hm))) (keeps_ite
          (SomeWf.some (memoriesWf_lateFault (memoriesWf_modGrp hm))) (SomeWf.some (memoriesWf_modGrp
          (memoriesWf_modGrp hm)))))
    · exact SomeWf.none

theorem memoriesWf_gresEffect {s : State} (hm : MemoriesWf s) {gid : Nat} {lanes : Mask} {ty : Ty} {m : Rnd}
    {d : Opnd} {xa : Option Nat} {r : BitVec 4280 × BitVec 8} :
    FstWf MemoriesWf (gresEffect s gid lanes ty m d xa r) := by
  unfold gresEffect
  dsimp only
  split
  · exact FstWf.mk (memoriesWf_setAcc hm)
  · exact FstWf.mk hm

theorem memoriesWf_gresBody {ty : Ty} {rnd : Rnd} {d : Opnd} {xa : Option Nat} {a : Opnd} {i : Issue} {ex : Mask}
    {s : State} (hm : MemoriesWf s) : BodyWf (gresBody ty rnd d xa a i ex s) := by
  unfold gresBody
  dsimp only
  split
  · exact BodyWf.fault
  · refine keeps_ite ?_ (keeps_ite (BodyWf.done hm) BodyWf.fault)
    split
    · exact BodyWf.done (FstWf.fst (memoriesWf_gresEffect hm))
    · exact BodyWf.fault

theorem memoriesWf_execGres {h : Hdr} {form : GresForm} {a : Opnd} {s : State} (hm : MemoriesWf s) :
    OutWf (execGres h form a s) := by
  unfold execGres
  split <;> exact memoriesWf_runItem (fun _ _ _ ht => memoriesWf_gresBody ht) hm

theorem memoriesWf_gresTake {s : State} (hm : MemoriesWf s) {gid op : Nat} :
    SomeWf MemoriesWf (gresTake s gid op) := by
  unfold gresTake
  split
  · exact SomeWf.none
  · split
    · dsimp only
      split
      · exact keeps_ite (SomeWf.some (memoriesWf_modGrp (FstWf.fst (memoriesWf_gresEffect hm)))) (keeps_ite
            SomeWf.none (SomeWf.some (memoriesWf_modGrp hm)))
      · exact SomeWf.none
    · exact SomeWf.none

theorem memoriesWf_execRunnerRemoteContribution {lid obj : Nat} {val : BitVec 4280} {st : BitVec 8}
    {count : BitVec 32} {round : BitVec 16} {s : State} (hm : MemoriesWf s) :
    OutWf (execRunnerRemoteContribution lid obj val st count round s) :=
  keeps_ite (OutWf.next hm) (OutWf.next (memoriesWf_modObj hm))

/-! ## Phases and speculation -/

theorem memoriesWf_judge {s : State} (hm : MemoriesWf s) {core lid : Nat} {r : ReadRec} {clean : Bool} :
    VerdictWf (judge s core lid r clean) := by
  unfold judge
  dsimp only
  split
  · refine keeps_ite (keeps_ite (keeps_ite trivial trivial) (keeps_ite trivial (keeps_ite trivial trivial))) ?_
    split
    · exact ReadyWf.of_go (memoriesWf_readyLine hm) ‹_›
    · exact trivial
  · split
    · exact ReadyWf.of_go (memoriesWf_readyLine hm) ‹_›
    · exact trivial

theorem memoriesWf_storeRecords {s : State} (hm : MemoriesWf s) {core gid lid : Nat} {ws : List WriteRec} :
    SomeWf MemoriesWf (storeRecords s core gid lid ws) := by
  induction ws generalizing s with
  | nil => exact SomeWf.some hm
  | cons w ws ih =>
    unfold storeRecords
    refine SomeWf.bind fun t e => ih (SomeWf.of_eq (keeps_foldl (fun o i h => ?_) (SomeWf.some hm)) e)
    exact SomeWf.bind fun u eu =>
      keeps_ite (memoriesWf_storeL1 (SomeWf.of_eq h eu)) (SomeWf.some (SomeWf.of_eq h eu))

theorem memoriesWf_checkSpec {s : State} (hm : MemoriesWf s) {gid : Nat} : SomeWf MemoriesWf (checkSpec s gid) := by
  unfold checkSpec
  dsimp only
  split
  · exact SomeWf.none
  · refine keeps_ite SomeWf.none ?_
    split
    · exact SomeWf.some (VerdictWf.of_go (memoriesWf_judge hm) ‹_›)
    · exact SomeWf.none
    · exact SomeWf.some (memoriesWf_useCrucible (memoriesWf_modGrp hm))
    · exact SomeWf.some (memoriesWf_useCrucible (memoriesWf_modGrp hm))

theorem memoriesWf_validateAll {s : State} (hm : MemoriesWf s) {gs : List Nat} :
    ErrorWf (SomeWf MemoriesWf) (validateAll s gs) := by
  induction gs with
  | nil => exact ErrorWf.ok
  | cons g gs ih =>
    unfold validateAll
    refine keeps_ite (ErrorWf.error (SomeWf.map fun _ _ => memoriesWf_putGrp hm))
      (keeps_ite (ErrorWf.error (memoriesWf_checkSpec hm)) ?_)
    cases h : validateAll s gs with
    | error o => exact ErrorWf.error (ErrorWf.of_error ih h)
    | ok rs => exact ErrorWf.ok

theorem memoriesWf_resolveSpec {s : State} (hm : MemoriesWf s) {rs : List (Nat × Bool)} :
    SomeWf MemoriesWf (resolveSpec s rs) := by
  induction rs generalizing s with
  | nil => exact SomeWf.some hm
  | cons r rs ih =>
    exact keeps_ite
      (SomeWf.bind fun _ e => ih (memoriesWf_signStores (memoriesWf_modGrp (SomeWf.of_eq (memoriesWf_storeRecords hm)
      e))))
      (ih (memoriesWf_modGrp hm))

theorem memoriesWf_rollbackSpec {s : State} (hm : MemoriesWf s) {gid : Nat} :
    SomeWf MemoriesWf (rollbackSpec s gid) := by
  unfold rollbackSpec
  split
  · exact SomeWf.none
  · exact keeps_ite SomeWf.none (SomeWf.some (memoriesWf_putGrp hm))

theorem memoriesWf_applyPend {p : Phaser} {s : State} (hm : MemoriesWf s) {m : Member} :
    MemoriesWf (applyPend p s m) := by
  unfold applyPend
  split
  · exact keeps_ite hm (memoriesWf_modGrpIf hm)
  · exact hm

theorem memoriesWf_endPhase {s : State} (hm : MemoriesWf s) {n : Nat} : SomeWf MemoriesWf (endPhase s n) := by
  unfold endPhase
  split
  · exact SomeWf.none
  · refine keeps_ite SomeWf.none (keeps_ite (keeps_ite SomeWf.none (SomeWf.some hm)) ?_)
    split
    · exact ErrorWf.of_error (memoriesWf_validateAll hm) ‹_›
    · exact memoriesWf_resolveSpec (keeps_foldl (fun _ _ ht => memoriesWf_applyPend ht) (memoriesWf_update hm))

/-! ## The system class -/

theorem memoriesWf_finishCsrw {s : State} (hm : MemoriesWf s) {gid : Nat} {o : Op} {n : Nat} {op : CsrOp} {v : Word}
    {d : Opnd} : MemoriesWf (finishCsrw s gid o n op v d) :=
  memoriesWf_modGrp hm

theorem memoriesWf_execMbox {h : Hdr} {d a b : Opnd} {s : State} (hm : MemoriesWf s) :
    OutWf (execMbox h d a b s) := by
  unfold execMbox
  refine memoriesWf_runItem (fun _ _ _ ht => ?_) hm
  dsimp only
  split
  · exact BodyWf.wait
  · exact BodyWf.done (keeps_ite (memoriesWf_markUnreplayable (memoriesWf_modCore ht)) (memoriesWf_modCore ht))

theorem memoriesWf_dropInstr {s : State} (hm : MemoriesWf s) {core asid : Nat} {rs : List (Nat × Nat)} :
    MemoriesWf (dropInstr s core asid rs) :=
  memoriesWf_modCore (memoriesWf_update hm)

theorem memoriesWf_execHalt {h : Hdr} {code : BitVec 8} {s : State} (hm : MemoriesWf s) :
    OutWf (execHalt h code s) :=
  memoriesWf_runItem (fun _ _ _ ht => BodyWf.done (memoriesWf_endLaunch (memoriesWf_markUnreplayable ht))) hm

theorem memoriesWf_resumeCopies {s : State} (hm : MemoriesWf s) {gid : Nat} : MemoriesWf (resumeCopies s gid) :=
  memoriesWf_modCore hm

theorem memoriesWf_resumeMatrix {s : State} (hm : MemoriesWf s) {gid idx : Nat} {c : Cause} :
    MemoriesWf (resumeMatrix s gid idx c) :=
  memoriesWf_modQuart hm

theorem memoriesWf_handIndex {s : State} (hm : MemoriesWf s) {gid : Nat} : MemoriesWf (handIndex s gid) := by
  unfold handIndex
  dsimp only
  split
  · exact hm
  · exact keeps_ite (memoriesWf_modGrp hm) (keeps_ite (memoriesWf_resumeCopies hm) (keeps_ite (memoriesWf_resumeMatrix
        hm) hm))

theorem memoriesWf_execEret {h : Hdr} {s : State} (hm : MemoriesWf s) : OutWf (execEret h s) :=
  memoriesWf_runItem (fun _ _ _ ht => keeps_ite BodyWf.wait (keeps_ite BodyWf.fault (BodyWf.done
      (memoriesWf_returnFromTrap (memoriesWf_handIndex ht))))) hm

/-! ## Transactions -/

theorem memoriesWf_txbLane {i : Issue} {ord : Option (Nat → Word)} {s : State} (hm : MemoriesWf s) {l : Nat} :
    FstWf MemoriesWf (txbLane i ord s l) := by
  unfold txbLane
  dsimp only
  split <;> exact FstWf.mk (memoriesWf_modThread hm)

theorem memoriesWf_txbLanes {i : Issue} {ord : Option (Nat → Word)} {s : State} (hm : MemoriesWf s)
    {ls : List Nat} : FstWf MemoriesWf (txbLanes i ord s ls) := by
  induction ls generalizing s with
  | nil => exact FstWf.mk hm
  | cons l ls ih => exact FstWf.mk (FstWf.fst (ih (FstWf.fst (memoriesWf_txbLane hm))))

theorem memoriesWf_txbBody {d : Opnd} {a : Option Opnd} {i : Issue} {ex : Mask} {s : State} (hm : MemoriesWf s) :
    BodyWf (txbBody d a i ex s) :=
  BodyWf.done (FstWf.fst (memoriesWf_saveTxUndo (FstWf.fst (memoriesWf_txbLanes hm))))

theorem memoriesWf_txeBody {last : Bool} {i : Issue} {ex : Mask} {s : State} (hm : MemoriesWf s) :
    BodyWf (txeBody last i ex s) :=
  BodyWf.done (memoriesWf_modGrp hm)

theorem memoriesWf_setRound {s : State} (hm : MemoriesWf s) {gid : Nat} {f : Round → Round} :
    MemoriesWf (setRound s gid f) :=
  memoriesWf_modGrp hm

theorem memoriesWf_beginRound {s : State} (hm : MemoriesWf s) {gid : Nat} {ordered : Bool} {lanes losers : List Nat} :
    MemoriesWf (beginRound s gid ordered lanes losers) :=
  memoriesWf_setRound (memoriesWf_runRelease (memoriesWf_update (memoriesWf_update (keeps_foldl (fun _ _ ht =>
      memoriesWf_abortLane ht) hm))))

theorem memoriesWf_formRound {s : State} (hm : MemoriesWf s) {gid : Nat} : SomeWf MemoriesWf (formRound s gid) := by
  unfold formRound
  split
  · exact SomeWf.none
  · refine keeps_ite SomeWf.none (keeps_ite (SomeWf.some (memoriesWf_beginRound hm)) (keeps_ite SomeWf.none ?_))
    split
    · exact SomeWf.none
    · exact SomeWf.some (memoriesWf_beginRound hm)

theorem memoriesWf_commitUses {s : State} (hm : MemoriesWf s) {gid : Nat} {scr : Bool} {sector : Nat} :
    MemoriesWf (commitUses s gid scr sector) :=
  keeps_ite hm (memoriesWf_useCrucible hm)

theorem memoriesWf_putLock {s : State} (hm : MemoriesWf s) {gid : Nat} {scr : Bool} {sector : Nat} {write : Bool} :
    MemoriesWf (putLock s gid scr sector write) :=
  keeps_ite (memoriesWf_modTeam hm) (memoriesWf_modSlice hm)

theorem memoriesWf_unlockRound {s : State} (hm : MemoriesWf s) {gid : Nat} : MemoriesWf (unlockRound s gid) :=
  memoriesWf_setRound (memoriesWf_dropLocks hm)

theorem memoriesWf_abandonRound {s : State} (hm : MemoriesWf s) {gid : Nat} : MemoriesWf (abandonRound s gid) :=
  memoriesWf_unlockRound (keeps_foldl (fun _ _ ht => memoriesWf_abortLane ht) hm)

theorem memoriesWf_commitLine {s : State} (hm : MemoriesWf s) {gid : Nat} {scr : Bool} {sector : Nat}
    {write nofill : Bool} : ReadyWf (commitLine s gid scr sector write nofill) :=
  keeps_ite trivial (keeps_ite trivial (memoriesWf_startMiss hm))

theorem memoriesWf_lockSector1 {s : State} (hm : MemoriesWf s) {gid : Nat} {scr : Bool} {sector : Nat}
    {rest : List (Bool × Nat)} : SomeWf MemoriesWf (lockSector1 s gid scr sector rest) := by
  unfold lockSector1
  refine keeps_ite (SomeWf.some (memoriesWf_abandonRound hm)) (keeps_ite SomeWf.none ?_)
  split
  · exact SomeWf.none
  · exact SomeWf.some (ReadyWf.of_go (memoriesWf_commitLine hm) ‹_›)
  · exact SomeWf.some (memoriesWf_setRound (memoriesWf_putLock (memoriesWf_commitUses hm)))

theorem memoriesWf_lockNext {s : State} (hm : MemoriesWf s) {gid : Nat} : SomeWf MemoriesWf (lockNext s gid) := by
  unfold lockNext
  split
  · exact SomeWf.none
  · split
    · exact keeps_ite (SomeWf.some (memoriesWf_setRound hm)) SomeWf.none
    · split
      · exact keeps_ite SomeWf.none (SomeWf.some (memoriesWf_setRound hm))
      · exact memoriesWf_lockSector1 hm
    · exact SomeWf.none

theorem memoriesWf_checkRecord {s : State} (hm : MemoriesWf s) {gid : Nat} {r : ReadRec} :
    SomeWf VerdictWf (checkRecord s gid r) :=
  keeps_ite SomeWf.none (keeps_ite (SomeWf.some trivial) (keeps_ite (SomeWf.some (keeps_ite trivial trivial))
      (SomeWf.some (memoriesWf_judge hm))))

theorem memoriesWf_noteCheck {s : State} (hm : MemoriesWf s) {gid lane : Nat} {r : ReadRec} {pass : Bool} :
    MemoriesWf (noteCheck s gid lane r pass) :=
  memoriesWf_setRound (keeps_ite (memoriesWf_putLock hm) hm)

theorem memoriesWf_poisonCommit {s : State} (hm : MemoriesWf s) {gid lane va : Nat} :
    MemoriesWf (poisonCommit s gid lane va) := by
  unfold poisonCommit
  split
  · exact memoriesWf_deferPoison hm
  · exact hm

theorem memoriesWf_poisonRecord {s : State} (hm : MemoriesWf s) {gid l : Nat} {r : ReadRec} :
    MemoriesWf (checkNext.poisonRecord s gid l r) :=
  keeps_ite (memoriesWf_poisonCommit hm) hm

theorem memoriesWf_checkNext {s : State} (hm : MemoriesWf s) {gid : Nat} {cs : List (Nat × ReadRec)} :
    SomeWf MemoriesWf (checkNext s gid cs) := by
  induction cs with
  | nil => exact SomeWf.none
  | cons c cs ih =>
    obtain ⟨l, r⟩ := c
    have judged : ∀ pass, SomeWf MemoriesWf (some (noteCheck (commitUses (checkNext.poisonRecord s gid l r) gid r.scr
        r.sector) gid l r pass)) := fun _ =>
      SomeWf.some (memoriesWf_noteCheck (memoriesWf_commitUses (memoriesWf_poisonRecord hm)))
    have checked : SomeWf VerdictWf (if commitFree s gid r.scr r.sector then checkRecord s gid r else some .wait) :=
      keeps_ite (memoriesWf_checkRecord hm) (SomeWf.some trivial)
    unfold checkNext
    dsimp only
    split
    · exact SomeWf.some (memoriesWf_abandonRound hm)
    · exact judged true
    · exact judged false
    · exact SomeWf.some (VerdictWf.of_go (SomeWf.of_eq checked ‹_›) rfl)
    · exact ih

theorem memoriesWf_decideRound {s : State} (hm : MemoriesWf s) {gid : Nat} : MemoriesWf (decideRound s gid) :=
  keeps_ite (memoriesWf_unlockRound (keeps_foldl (fun _ _ ht => keeps_ite (memoriesWf_abortLane ht)
      (memoriesWf_abortLane ht)) hm)) (memoriesWf_setRound (keeps_foldl (fun _ _ ht => keeps_ite
      (memoriesWf_poisonCommit ht) ht) (keeps_foldl (fun _ _ ht => memoriesWf_scratchWriteMask ht) (keeps_foldl (fun _
      _ ht => keeps_ite (memoriesWf_abortLane ht) (memoriesWf_abortLane ht)) hm))))

theorem memoriesWf_applySector {s : State} (hm : MemoriesWf s) {gid sector : Nat} :
    SomeWf MemoriesWf (applySector s gid sector) := by
  unfold applySector
  refine keeps_ite SomeWf.none ?_
  split
  · exact SomeWf.none
  · exact SomeWf.some (ReadyWf.of_go (memoriesWf_readyLine hm) ‹_›)
  · exact SomeWf.some (memoriesWf_setRound (keeps_ite (memoriesWf_useCrucible hm) (memoriesWf_carryPoison
        (memoriesWf_writeLine (memoriesWf_useCrucible hm)))))

theorem memoriesWf_commitApply {s : State} (hm : MemoriesWf s) {gid : Nat} :
    SomeWf MemoriesWf (commitApply s gid) := by
  unfold commitApply
  split
  · exact SomeWf.none
  · split
    · exact keeps_ite (SomeWf.some (memoriesWf_decideRound hm)) (memoriesWf_checkNext hm)
    · exact SomeWf.findSome (fun _ => memoriesWf_applySector hm)
    · exact SomeWf.none

theorem memoriesWf_passIndex {s : State} (hm : MemoriesWf s) {lid next : Nat} :
    MemoriesWf (passIndex s lid next) :=
  keeps_foldl (fun _ _ ht => keeps_foldl (fun _ _ hu => keeps_ite (memoriesWf_abortLane hu) hu) ht) hm

theorem memoriesWf_commitUnlock {s : State} (hm : MemoriesWf s) {gid : Nat} :
    SomeWf MemoriesWf (commitUnlock s gid) := by
  unfold commitUnlock
  split
  · exact SomeWf.none
  · exact keeps_ite SomeWf.none (SomeWf.some (memoriesWf_enterBlocks (keeps_ite (memoriesWf_passIndex
        (memoriesWf_modLaunch (memoriesWf_modGrp (keeps_foldl (fun _ _ ht => memoriesWf_signStores ht)
        (memoriesWf_dropToken (memoriesWf_dropLocks (memoriesWf_unlockRound hm))))))) (memoriesWf_modLaunch
        (memoriesWf_modGrp (keeps_foldl (fun _ _ ht => memoriesWf_signStores ht) (memoriesWf_dropToken
        (memoriesWf_dropLocks (memoriesWf_unlockRound hm)))))))))

theorem memoriesWf_txAbort {s : State} (hm : MemoriesWf s) {gid l : Nat} : SomeWf MemoriesWf (txAbort s gid l) := by
  unfold txAbort
  split
  · exact SomeWf.none
  · exact keeps_ite SomeWf.none (SomeWf.some (memoriesWf_modGrp (memoriesWf_dropToken (memoriesWf_dropLocks hm))))

theorem memoriesWf_txLimit {s : State} (hm : MemoriesWf s) {gid l : Nat} : SomeWf MemoriesWf (txLimit s gid l) := by
  unfold txLimit
  split
  · exact SomeWf.none
  · exact keeps_ite (SomeWf.some (memoriesWf_abortLane hm)) SomeWf.none

theorem memoriesWf_passToken {s : State} (hm : MemoriesWf s) {lid : Nat} : SomeWf MemoriesWf (passToken s lid) := by
  unfold passToken
  split
  · exact SomeWf.none
  · exact keeps_ite (SomeWf.some (memoriesWf_modLaunch hm)) (keeps_ite SomeWf.none (SomeWf.map (fun _ _ =>
        memoriesWf_modLaunch hm)))

theorem memoriesWf_openIrrevocable {s : State} (hm : MemoriesWf s) {gid l op : Nat} :
    MemoriesWf (openIrrevocable s gid l op) := by
  unfold openIrrevocable
  dsimp only
  exact keeps_ite (memoriesWf_modGrp (FstWf.fst (memoriesWf_saveTxUndo (memoriesWf_modThread hm)))) (FstWf.fst
      (memoriesWf_saveTxUndo (memoriesWf_modThread hm)))

theorem memoriesWf_grantToken {s : State} (hm : MemoriesWf s) {gid l : Nat} :
    SomeWf MemoriesWf (grantToken s gid l) := by
  unfold grantToken
  split
  · exact SomeWf.none
  · dsimp only
    split
    · exact keeps_ite SomeWf.none (SomeWf.some (memoriesWf_modThread (FstWf.fst (memoriesWf_beginRelease
          (memoriesWf_modPart hm)))))
    · exact keeps_ite (SomeWf.some (memoriesWf_openIrrevocable hm)) SomeWf.none
    · exact SomeWf.none

/-! ## Exits -/

theorem memoriesWf_emptyDrains {s : State} (hm : MemoriesWf s) {gid : Nat} : MemoriesWf (emptyDrains s gid) :=
  memoriesWf_modGrp (memoriesWf_modQuart hm)

theorem memoriesWf_freeCvs {s : State} (hm : MemoriesWf s) {team : Nat} : MemoriesWf (freeCvs s team) :=
  keeps_foldl (fun _ _ ht => memoriesWf_modQuart ht) hm

theorem memoriesWf_groupExits {s : State} (hm : MemoriesWf s) {gid : Nat} : MemoriesWf (groupExits s gid) := by
  unfold groupExits
  extract_lets g orphan t u
  have ht : MemoriesWf t := by
    show MemoriesWf (match orphan.bind (·.stopped) with
      | some x => lateFault s (lidOf s gid) x.code
      | none => s)
    split
    · exact memoriesWf_lateFault hm
    · exact hm
  have hu : MemoriesWf u := memoriesWf_emptyDrains (memoriesWf_modGrp ht)
  exact keeps_ite ht (keeps_ite hu (memoriesWf_freeCvs hu))

theorem memoriesWf_thenExits {gid : Nat} {o : Out} (ho : OutWf o) : OutWf (thenExits gid o) := by
  cases o with
  | next s => exact OutWf.next (memoriesWf_groupExits (OutWf.of_next ho rfl))
  | fault f => exact OutWf.fault
  | refused r => exact OutWf.refused

theorem memoriesWf_execExit {h : Hdr} {s : State} (hm : MemoriesWf s) : OutWf (execExit h s) :=
  memoriesWf_thenExits (memoriesWf_runItem (fun _ _ _ ht => memoriesWf_exitBody ht) hm)

theorem memoriesWf_execRegroup {h : Hdr} {k : Fin 7} {d : Opnd} {s : State} (hm : MemoriesWf s) :
    OutWf (execRegroup h k d s) :=
  memoriesWf_thenExits (memoriesWf_runItem (fun _ _ _ ht => memoriesWf_regroupBody ht) hm)

theorem memoriesWf_execRegroupDeal {team set : Nat} {s : State} (hm : MemoriesWf s) :
    OutWf (execRegroupDeal team set s) := by
  unfold execRegroupDeal
  split
  · exact OutWf.next hm
  · exact OutWf.next (keeps_foldl (fun _ _ ht => memoriesWf_groupExits ht) (SomeWf.of_eq (memoriesWf_regroupDeal hm)
        ‹_›))

/-! ## Instructions in flight -/

theorem memoriesWf_speculateNow {s : State} (hm : MemoriesWf s) {gid n : Nat} {waits : List (Nat × Option Nat)} :
    SomeWf MemoriesWf (speculateNow s gid n waits) :=
  keeps_ite SomeWf.none (SomeWf.some (memoriesWf_putGrp hm))

theorem memoriesWf_completeNow {s : State} (hm : MemoriesWf s) {gid op : Nat} {lanes : Mask} :
    SomeWf MemoriesWf (completeNow s gid op lanes) := by
  unfold completeNow
  split
  · refine keeps_ite SomeWf.none ?_
    split
    · exact SomeWf.map (fun _ et => keeps_ite (memoriesWf_modGrp (FstWf.fst (SomeWf.of_eq (memoriesWf_fenceStep hm)
          et))) (FstWf.fst (SomeWf.of_eq (memoriesWf_fenceStep hm) et)))
    · exact SomeWf.some (memoriesWf_finishCsrw hm)
    · exact SomeWf.some (memoriesWf_modGrp (memoriesWf_finishMdecl hm))
    · exact keeps_ite (SomeWf.some (memoriesWf_putGrp hm)) (keeps_ite (memoriesWf_speculateNow hm) SomeWf.none)
    · exact keeps_ite SomeWf.none (SomeWf.some (memoriesWf_putGrp hm))
  · exact SomeWf.none

theorem memoriesWf_promotePc {s : State} (hm : MemoriesWf s) {gid : Nat} {pc : Word} :
    SomeWf MemoriesWf (promotePc s gid pc) := by
  unfold promotePc
  split
  · exact SomeWf.none
  · exact keeps_ite SomeWf.none (SomeWf.some (memoriesWf_putGrp hm))

theorem memoriesWf_ageGroup {s : State} (hm : MemoriesWf s) {gid : Nat} : SomeWf MemoriesWf (ageGroup s gid) := by
  unfold ageGroup
  split
  · exact SomeWf.none
  · exact keeps_ite (SomeWf.some (memoriesWf_putGrp hm)) SomeWf.none

theorem memoriesWf_endDemotion {s : State} (hm : MemoriesWf s) {gid : Nat} {pc : Word} :
    SomeWf MemoriesWf (endDemotion s gid pc) := by
  unfold endDemotion
  split
  · exact SomeWf.none
  · exact keeps_ite (SomeWf.some (memoriesWf_putGrp hm)) SomeWf.none

theorem memoriesWf_wakeThread {s : State} (hm : MemoriesWf s) {gid lane : Nat} :
    SomeWf MemoriesWf (wakeThread s gid lane) := by
  unfold wakeThread
  split
  · exact keeps_ite (SomeWf.some (memoriesWf_modThread hm)) SomeWf.none
  · exact SomeWf.none

theorem memoriesWf_unparkThread {s : State} (hm : MemoriesWf s) {gid lane : Nat} :
    SomeWf MemoriesWf (unparkThread s gid lane) := by
  unfold unparkThread
  split
  · exact keeps_ite (SomeWf.some (memoriesWf_modThread hm)) SomeWf.none
  · exact SomeWf.none

end Sys2Proof.Machine
end

section
/-! PROOF. MemoriesInManagement.lean: launches, teams, switches, registers, power and sealed checkpoints keep the
memories canonical.
The lemmas are elaborated one after another: all at once they need more threads than the memory limit allows. -/

namespace Sys2Proof.Machine

set_option Elab.async false

/-! ## Queues and launches -/

theorem memoriesWf_cleanSectors {s : State} (hm : MemoriesWf s) {part pa n : Nat} :
    MemoriesWf (cleanSectors s part pa n) :=
  keeps_ite hm hm

theorem memoriesWf_sysApply {s : State} (hm : MemoriesWf s) {part pa : Nat} {bs : List Byte} :
    MemoriesWf (sysApply s part pa bs) :=
  keeps_foldl (fun _ _ ht => keeps_foldl (fun _ _ hu => memoriesWf_modLine hu) ht) (memoriesWf_cleanSectors
      (memoriesWf_storeBytes hm))

theorem memoriesWf_modFunc {s : State} (hm : MemoriesWf s) {vf : Nat} {f : Func → Func} :
    MemoriesWf (modFunc s vf f) :=
  memoriesWf_modPart hm

theorem memoriesWf_modQueue {s : State} (hm : MemoriesWf s) {vf q : Nat} {f : CmdQueue → CmdQueue} :
    MemoriesWf (modQueue s vf q f) :=
  memoriesWf_modFunc hm

theorem memoriesWf_modRing {s : State} (hm : MemoriesWf s) {vf r : Nat} {f : Machine.Ring → Machine.Ring} :
    MemoriesWf (modRing s vf r f) :=
  memoriesWf_modFunc hm

theorem memoriesWf_putRecord {s : State} (hm : MemoriesWf s) {vf ring : Nat} {rec : BitVec 256} :
    MemoriesWf (putRecord s vf ring rec) := by
  unfold putRecord
  exact memoriesWf_modRing (memoriesWf_sysApply hm)

theorem memoriesWf_askRecheck {s : State} (hm : MemoriesWf s) {part : Nat} : MemoriesWf (askRecheck s part) :=
  memoriesWf_modPart hm

theorem memoriesWf_dropCode {s : State} (hm : MemoriesWf s) {lid : Nat} : MemoriesWf (dropCode s lid) :=
  keeps_foldl (fun _ _ ht => memoriesWf_dropInstr ht) hm

/-- Teams that go leave the others' scratchpads as they were. -/
theorem memoriesWf_filterTeams {s : State} (hm : MemoriesWf s) {f : Nat × Team → Bool} :
    MemoriesWf { s with teams := s.teams.filter f } := by
  obtain ⟨hbm, host, parts, teams⟩ := hm
  exact ⟨hbm, host, parts, fun e he => teams e (List.mem_filter.1 he).1⟩

theorem memoriesWf_freeLaunch {s : State} (hm : MemoriesWf s) {lid : Nat} : MemoriesWf (freeLaunch s lid) := by
  unfold freeLaunch
  extract_lets t l u v
  have hv : MemoriesWf v := memoriesWf_modLaunch (memoriesWf_modPart (memoriesWf_dropCode hm))
  exact memoriesWf_update (memoriesWf_filterTeams hv)

theorem memoriesWf_sysMake {s : State} (hm : MemoriesWf s) {o : SysOp} : MemoriesWf (sysMake s o) := by
  unfold sysMake
  split
  · exact keeps_ite (memoriesWf_askRecheck (memoriesWf_sysApply hm)) (memoriesWf_sysApply hm)
  · exact memoriesWf_sysApply hm
  · dsimp only
    split
    · exact memoriesWf_freeLaunch (memoriesWf_askRecheck (memoriesWf_putRecord hm))
    · exact memoriesWf_askRecheck (memoriesWf_putRecord hm)
  · exact memoriesWf_say hm

theorem memoriesWf_sysStep {s : State} (hm : MemoriesWf s) : SomeWf MemoriesWf (sysStep s) :=
  SomeWf.map (fun _ _ => memoriesWf_update (memoriesWf_sysMake (memoriesWf_update hm)))

theorem memoriesWf_sysRun {n : Nat} {s : State} (hm : MemoriesWf s) : MemoriesWf (sysRun n s) := by
  induction n generalizing s with
  | zero => exact hm
  | succ n ih =>
    unfold sysRun
    split
    · exact ih (SomeWf.of_eq (memoriesWf_sysStep hm) ‹_›)
    · exact hm

theorem memoriesWf_sysPost {s : State} (hm : MemoriesWf s) {agent : SysAgent} {part pa n : Nat} {job : SysJob} :
    MemoriesWf (sysPost s agent part pa n job) :=
  memoriesWf_sysRun hm

theorem memoriesWf_sysWrite {s : State} (hm : MemoriesWf s) {part pa : Nat} {bs : List Byte} :
    MemoriesWf (sysWrite s part pa bs) :=
  memoriesWf_sysPost hm

theorem memoriesWf_putDoneWord {s : State} (hm : MemoriesWf s) {l : Launch} : MemoriesWf (putDoneWord s l) :=
  keeps_ite hm (memoriesWf_sysPost hm)

theorem memoriesWf_writeRecord {s : State} (hm : MemoriesWf s) {vf ring : Nat} {rec : BitVec 256} {of : Option Nat} :
    MemoriesWf (writeRecord s vf ring rec of) := by
  unfold writeRecord
  refine memoriesWf_sysPost ?_
  split
  · exact memoriesWf_modLaunch (memoriesWf_putDoneWord hm)
  · exact hm

theorem memoriesWf_postRecord {s : State} (hm : MemoriesWf s) {vf ring : Nat} {rec : BitVec 256} {of : Option Nat} :
    MemoriesWf (postRecord s vf ring rec of) := by
  unfold postRecord
  refine keeps_ite (memoriesWf_writeRecord hm) (memoriesWf_modRing ?_)
  split
  · exact memoriesWf_modLaunch hm
  · exact hm

theorem memoriesWf_dropSnapLines {s : State} (hm : MemoriesWf s) {l : Launch} : MemoriesWf (dropSnapLines s l) :=
  keeps_foldl (fun _ _ ht => keeps_foldl (fun _ _ hu => memoriesWf_keepLease (memoriesWf_dropLine hu)) ht) hm

theorem memoriesWf_finishRollback {s : State} (hm : MemoriesWf s) {lid : Nat} :
    MemoriesWf (finishRollback s lid) := by
  unfold finishRollback
  extract_lets l t u v w x
  have hv : MemoriesWf v := memoriesWf_modPart
    (keeps_foldl (fun _ _ h => memoriesWf_copyFrame h) (memoriesWf_dropSnapLines hm))
  have hx : MemoriesWf x := memoriesWf_modLaunch (keeps_ite hv (memoriesWf_sysWrite hv))
  exact memoriesWf_update (memoriesWf_filterTeams hx)

theorem memoriesWf_concludeLaunch {s : State} (hm : MemoriesWf s) {lid : Nat} :
    MemoriesWf (concludeLaunch s lid) :=
  keeps_ite (memoriesWf_postRecord hm) (keeps_ite (memoriesWf_postRecord (memoriesWf_modLaunch hm)) (keeps_ite
      (memoriesWf_postRecord hm) (memoriesWf_finishRollback hm)))

theorem memoriesWf_settleLaunch {s : State} (hm : MemoriesWf s) {lid : Nat} : MemoriesWf (settleLaunch s lid) :=
  keeps_ite (memoriesWf_concludeLaunch hm) hm

theorem memoriesWf_endAndSettle {s : State} (hm : MemoriesWf s) {lid status detail aux : Nat} :
    MemoriesWf (endAndSettle s lid status detail aux) :=
  memoriesWf_settleLaunch (memoriesWf_endLaunch hm)

theorem memoriesWf_writeHeld {s : State} (hm : MemoriesWf s) {vf ring : Nat} :
    SomeWf MemoriesWf (writeHeld s vf ring) := by
  unfold writeHeld
  dsimp only
  split
  · exact keeps_ite SomeWf.none (SomeWf.some (memoriesWf_writeRecord (memoriesWf_modRing hm)))
  · exact SomeWf.none

theorem memoriesWf_rollbackOrEnd {s : State} (hm : MemoriesWf s) {lid orElse : Nat} :
    MemoriesWf (rollbackOrEnd s lid orElse) :=
  keeps_ite hm (keeps_ite (memoriesWf_endAndSettle hm) (keeps_ite (memoriesWf_endAndSettle hm)
      (memoriesWf_settleLaunch (memoriesWf_modLaunch (memoriesWf_endLaunch hm)))))

theorem memoriesWf_execRheadWrite {vf ring : Nat} {val : BitVec 17} {s : State} (hm : MemoriesWf s) :
    OutWf (execRheadWrite vf ring val s) :=
  keeps_ite (OutWf.next (memoriesWf_modRing hm)) (OutWf.next hm)

theorem memoriesWf_ringInterrupt {s : State} (hm : MemoriesWf s) {vf ring : Nat} :
    SomeWf MemoriesWf (ringInterrupt s vf ring) :=
  keeps_ite (SomeWf.some (memoriesWf_modRing (memoriesWf_say hm))) SomeWf.none

theorem memoriesWf_acceptLaunch {s : State} (hm : MemoriesWf s) {vf q : Nat} {desc : BitVec 2048} {maxprio : Nat} :
    MemoriesWf (acceptLaunch s vf q desc maxprio) :=
  keeps_ite (memoriesWf_endAndSettle (memoriesWf_update (memoriesWf_modPart (memoriesWf_update hm))))
      (memoriesWf_askRecheck (memoriesWf_update (memoriesWf_modPart (memoriesWf_update hm))))

theorem memoriesWf_takeEntry {s : State} (hm : MemoriesWf s) {vf q : Nat} : MemoriesWf (takeEntry s vf q) :=
  memoriesWf_modQueue (memoriesWf_modPart hm)

theorem memoriesWf_acceptAt {s : State} (hm : MemoriesWf s) {vf q pa : Nat} : MemoriesWf (acceptAt s vf q pa) :=
  memoriesWf_acceptLaunch hm

theorem memoriesWf_launchEntry {s : State} (hm : MemoriesWf s) {vf q : Nat} :
    SomeWf MemoriesWf (launchEntry s vf q) := by
  unfold launchEntry
  split
  · exact keeps_ite SomeWf.none (SomeWf.some (memoriesWf_acceptAt (memoriesWf_modQueue hm)))
  · split
    · exact keeps_ite (SomeWf.some (memoriesWf_modQueue (memoriesWf_update (memoriesWf_takeEntry hm)))) (SomeWf.some
          (memoriesWf_acceptAt (memoriesWf_takeEntry hm)))
    · exact SomeWf.none

theorem memoriesWf_nopEntry {s : State} (hm : MemoriesWf s) {vf q : Nat} : SomeWf MemoriesWf (nopEntry s vf q) := by
  unfold nopEntry
  split
  · exact SomeWf.some (memoriesWf_takeEntry hm)
  · exact SomeWf.none

theorem memoriesWf_endEntry {s : State} (hm : MemoriesWf s) {vf q : Nat} : SomeWf MemoriesWf (endEntry s vf q) := by
  unfold endEntry
  split
  · exact SomeWf.some (keeps_foldl (fun _ _ ht => memoriesWf_endAndSettle ht) (memoriesWf_takeEntry hm))
  · exact SomeWf.none

theorem memoriesWf_switchEntry {s : State} (hm : MemoriesWf s) {vf q : Nat} :
    SomeWf MemoriesWf (switchEntry s vf q) := by
  unfold switchEntry
  split
  · exact SomeWf.some (keeps_foldl (fun _ _ ht => memoriesWf_modCore ht) (memoriesWf_takeEntry hm))
  · exact SomeWf.none

theorem memoriesWf_malformedEntry {s : State} (hm : MemoriesWf s) {vf q : Nat} :
    SomeWf MemoriesWf (malformedEntry s vf q) := by
  unfold malformedEntry
  split
  · exact SomeWf.some (memoriesWf_postRecord (memoriesWf_takeEntry hm))
  · exact SomeWf.none

theorem memoriesWf_execQtailWrite {vf q : Nat} {val : BitVec 16} {s : State} (hm : MemoriesWf s) :
    OutWf (execQtailWrite vf q val s) :=
  keeps_ite (OutWf.next hm) (OutWf.next (memoriesWf_askRecheck (memoriesWf_modQueue hm)))

theorem memoriesWf_checkDependences {s : State} (hm : MemoriesWf s) {part : Nat} :
    SomeWf MemoriesWf (checkDependences s part) :=
  keeps_ite SomeWf.none (SomeWf.some (memoriesWf_update (memoriesWf_modPart hm)))

theorem memoriesWf_askPage {s : State} (hm : MemoriesWf s) {lid range page : Nat} :
    SetupWf (askPage s lid range page) :=
  keeps_ite hm (keeps_ite (memoriesWf_update hm) (memoriesWf_modLaunch (memoriesWf_update hm)))

theorem memoriesWf_pinPages {lid : Nat} {s : State} (hm : MemoriesWf s) {ps : List (Nat × Nat)} :
    SetupWf (pinPages lid s ps) := by
  induction ps generalizing s with
  | nil => exact hm
  | cons p ps ih =>
    unfold pinPages
    refine keeps_ite (ih hm) ?_
    split
    · exact keeps_ite (ih (memoriesWf_pinPage hm)) hm
    · exact memoriesWf_askPage hm
    · exact memoriesWf_escalateFree hm

theorem memoriesWf_addPhasers {s : State} (hm : MemoriesWf s) {ps : List Phaser} : MemoriesWf (addPhasers s ps) :=
  keeps_foldl (fun _ _ ht => memoriesWf_update ht) hm

theorem memoriesWf_reserveLaunch {s : State} (hm : MemoriesWf s) {lid : Nat} :
    SomeWf MemoriesWf (reserveLaunch s lid) :=
  keeps_ite (SomeWf.some (memoriesWf_modLaunch (memoriesWf_addPhasers (memoriesWf_dropCode hm)))) SomeWf.none

theorem memoriesWf_startLaunch {s : State} (hm : MemoriesWf s) {lid : Nat} :
    SomeWf MemoriesWf (startLaunch s lid) := by
  unfold startLaunch
  split
  · exact SomeWf.none
  · split
    · refine keeps_ite SomeWf.none ?_
      split
      · exact SomeWf.some (memoriesWf_endAndSettle hm)
      · exact SomeWf.some hm
    · split
      · exact SomeWf.some (memoriesWf_endAndSettle (SetupWf.of_fails (memoriesWf_pinPages hm) ‹_›))
      · exact keeps_ite SomeWf.none (SomeWf.some (SetupWf.of_waits (memoriesWf_pinPages hm) ‹_›))
      · refine keeps_ite ?_ (memoriesWf_reserveLaunch (SetupWf.of_ready (memoriesWf_pinPages hm) ‹_›))
        split
        · exact SomeWf.bind (fun _ et => keeps_ite (SomeWf.some (SomeWf.of_eq (SomeWf.some (memoriesWf_modLaunch
              (SetupWf.of_ready (memoriesWf_pinPages hm) ‹_›))) et)) (memoriesWf_reserveLaunch (SomeWf.of_eq
              (SomeWf.some (memoriesWf_modLaunch (SetupWf.of_ready (memoriesWf_pinPages hm) ‹_›))) et)))
        · exact SomeWf.findSome (fun _ => SomeWf.map (fun _ eu => FstWf.fst (SomeWf.of_eq (memoriesWf_writeBack
              (SetupWf.of_ready (memoriesWf_pinPages hm) ‹_›)) eu)))
    · exact SomeWf.none

/-! ## Teams -/

theorem memoriesWf_setTeamQueue {s : State} (hm : MemoriesWf s) {core prio : Nat} {ts : List Nat} :
    MemoriesWf (setTeamQueue s core prio ts) :=
  memoriesWf_modCore hm

theorem memoriesWf_pushTeam {s : State} (hm : MemoriesWf s) {core prio team : Nat} :
    MemoriesWf (pushTeam s core prio team) :=
  memoriesWf_setTeamQueue hm

theorem memoriesWf_unqueue {s : State} (hm : MemoriesWf s) {core team : Nat} : MemoriesWf (unqueue s core team) :=
  memoriesWf_modCore hm

/-- A team that is entered with its scratchpad canonical. -/
theorem memoriesWf_putTeam {s : State} (hm : MemoriesWf s) {n : Nat} {t : Team} (ht : Memory.wf t.scratch = true) :
    MemoriesWf { s with teams := mapPut s.teams n t } :=
  memoriesWf_modTeam hm fun _ _ => ht

theorem memoriesWf_dealTeam {s : State} (hm : MemoriesWf s) {lid : Nat} : SomeWf MemoriesWf (dealTeam s lid) := by
  unfold dealTeam
  split
  · exact SomeWf.none
  · exact keeps_ite SomeWf.none (keeps_ite SomeWf.none (SomeWf.some (memoriesWf_pushTeam (memoriesWf_modLaunch
      (memoriesWf_putTeam (SndWf.snd (memoriesWf_freshId hm)) empty_wf)))))

theorem memoriesWf_shrinkL1 {s : State} (hm : MemoriesWf s) {core gid : Nat} : MemoriesWf (shrinkL1 s core gid) :=
  keeps_foldl (fun _ _ ht => keeps_ite ht (memoriesWf_evictL1 (memoriesWf_update ht))) hm

theorem memoriesWf_setLogWays {s : State} (hm : MemoriesWf s) {core gid : Nat} :
    MemoriesWf (setLogWays s core gid) :=
  memoriesWf_shrinkL1 (memoriesWf_modCore hm)

theorem memoriesWf_setPool {s : State} (hm : MemoriesWf s) {core gid pool : Nat} :
    MemoriesWf (setPool s core gid pool) :=
  keeps_ite hm (memoriesWf_modCore (memoriesWf_flushL1 hm))

theorem memoriesWf_setQuantum {s : State} (hm : MemoriesWf s) {core : Nat} {fresh : Bool} :
    MemoriesWf (setQuantum s core fresh) :=
  memoriesWf_modCore hm

theorem memoriesWf_sendArgs {s : State} (hm : MemoriesWf s) {lid core : Nat} : MemoriesWf (sendArgs s lid core) :=
  keeps_foldl (fun _ _ ht => memoriesWf_sendFetch ht) hm

theorem memoriesWf_addGroups {team : Nat} {s : State} (hm : MemoriesWf s)
    {gs : List (Nat × Nat × Nat × Nat × Nat)} : FstWf MemoriesWf (addGroups team s gs) := by
  induction gs generalizing s with
  | nil => exact FstWf.mk hm
  | cons g gs ih =>
    exact FstWf.mk (FstWf.fst (ih (memoriesWf_sendArgs (memoriesWf_update (SndWf.snd (memoriesWf_freshId hm))))))

theorem memoriesWf_joinPhasers {s : State} (hm : MemoriesWf s) {gid : Nat} : MemoriesWf (joinPhasers s gid) :=
  keeps_foldl (fun _ _ ht => memoriesWf_modGrp (memoriesWf_modPhaser ht)) hm

theorem memoriesWf_bindSlices {s : State} (hm : MemoriesWf s) {gid : Nat} : MemoriesWf (bindSlices s gid) := by
  unfold bindSlices
  refine keeps_foldl (fun _ _ ht => ?_) hm
  split
  · exact memoriesWf_modGrp ht
  · exact ht

theorem memoriesWf_clearMatrix {s : State} (hm : MemoriesWf s) {n tile0 atiles row0 brows : Nat} :
    MemoriesWf (clearMatrix s n tile0 atiles row0 brows) :=
  memoriesWf_modQuart hm

theorem memoriesWf_placeTeam {s : State} (hm : MemoriesWf s) {team core : Nat} {p : Placing} {delay : Nat} :
    MemoriesWf (placeTeam s team core p delay) :=
  keeps_foldl (fun _ _ ht => memoriesWf_setQuantum (memoriesWf_setLogWays (memoriesWf_modCore ht))) (keeps_foldl
      (fun _ _ ht => memoriesWf_modGrp ht) (keeps_foldl (fun _ _ ht => memoriesWf_bindSlices ht) (keeps_foldl (fun _ _
      ht => memoriesWf_joinPhasers ht) (memoriesWf_modTeam (FstWf.fst (memoriesWf_addGroups (memoriesWf_addPhasers
      (keeps_foldl (fun _ _ ht => memoriesWf_clearMatrix ht) (memoriesWf_modTeam (keeps_foldl (fun _ _ ht => keeps_ite
      (memoriesWf_setPool ht) ht) hm) (fun _ _ => empty_wf))))))))))

theorem memoriesWf_startPlaced {s : State} (hm : MemoriesWf s) {core : Nat} :
    SomeWf MemoriesWf (startPlaced s core) := by
  obtain ⟨hbm, host, parts, teams⟩ := hm
  refine keeps_ite (SomeWf.some ⟨hbm, host, parts, List.forall_mem_map.2 fun e he => ?_⟩) SomeWf.none
  exact keeps_ite (P := fun t : Team => Memory.wf t.scratch = true) (teams e he) (teams e he)

theorem memoriesWf_endSwitch {s : State} (hm : MemoriesWf s) {cores : List Nat} : MemoriesWf (endSwitch s cores) :=
  keeps_foldl (fun _ _ ht => memoriesWf_modCore ht) hm

theorem memoriesWf_placeHead {s : State} (hm : MemoriesWf s) {core : Nat} : SomeWf MemoriesWf (placeHead s core) := by
  unfold placeHead
  split
  · exact keeps_ite SomeWf.none (SomeWf.map (fun _ _ => memoriesWf_placeTeam (keeps_ite (memoriesWf_endSwitch
        (memoriesWf_unqueue hm)) (memoriesWf_unqueue hm))))
  · exact SomeWf.none

theorem memoriesWf_execTeamPlace {core : Nat} {s : State} (hm : MemoriesWf s) : OutWf (execTeamPlace core s) :=
  OutWf.next (SomeWf.getD (SomeWf.orElse (memoriesWf_startPlaced hm) (memoriesWf_placeHead hm)) hm)

theorem memoriesWf_stealTeam {s : State} (hm : MemoriesWf s) {thief : Nat} :
    SomeWf MemoriesWf (stealTeam s thief) :=
  keeps_ite SomeWf.none (SomeWf.findSome (fun _ => SomeWf.map (fun _ _ => memoriesWf_placeTeam
      (memoriesWf_unqueue hm))))

theorem memoriesWf_dropReaders {s : State} (hm : MemoriesWf s) {gids copies : List Nat}
    {mats : List (Nat × Nat × Nat)} : MemoriesWf (dropReaders s gids copies mats) :=
  hm

theorem memoriesWf_freeTeam {s : State} (hm : MemoriesWf s) {team : Nat} : MemoriesWf (freeTeam s team) :=
  keeps_foldl (fun _ _ ht => memoriesWf_setQuantum (memoriesWf_setLogWays ht)) (memoriesWf_modTeam
      (memoriesWf_update (keeps_foldl (fun _ _ ht => memoriesWf_modQuart ht) (keeps_foldl (fun _ _ ht =>
      memoriesWf_modCore ht) (memoriesWf_dropReaders hm)))) (fun _ _ => empty_wf))

theorem memoriesWf_setBit {s : State} (hm : MemoriesWf s) {lid index : Nat} : MemoriesWf (setBit s lid index) :=
  keeps_ite (memoriesWf_modLaunch hm) (memoriesWf_sysPost (memoriesWf_modLaunch hm))

theorem memoriesWf_addRerun {s : State} (hm : MemoriesWf s) {team core : Nat} :
    MemoriesWf (addRerun s team core) := by
  have fresh : MemoriesWf (freshId (freshId s).2).2 := SndWf.snd (memoriesWf_freshId (SndWf.snd (memoriesWf_freshId
    hm)))
  exact memoriesWf_pushTeam (memoriesWf_update (memoriesWf_putTeam fresh empty_wf))

theorem memoriesWf_sampleTeam {s : State} (hm : MemoriesWf s) {team : Nat} :
    SomeWf MemoriesWf (sampleTeam s team) := by
  unfold sampleTeam
  refine keeps_ite (SomeWf.some hm) (keeps_ite ?_ (SomeWf.some (memoriesWf_modPart hm)))
  split
  · exact SomeWf.none
  · exact SomeWf.some (memoriesWf_addRerun (memoriesWf_modLaunch (memoriesWf_modTeam (memoriesWf_update
        (memoriesWf_modPart hm)))))

theorem memoriesWf_releaseCore {s : State} (hm : MemoriesWf s) {team core : Nat} :
    FstWf MemoriesWf (releaseCore s team core) := by
  unfold releaseCore
  split
  · exact FstWf.mk hm
  · exact FstWf.mk (memoriesWf_runRelease (memoriesWf_update (memoriesWf_update (memoriesWf_modGrp hm))))

theorem memoriesWf_setEndStep {s : State} (hm : MemoriesWf s) {team n : Nat} {rel : Option Nat} :
    MemoriesWf (setEndStep s team n rel) :=
  memoriesWf_modTeam hm

theorem memoriesWf_endStepOf {s : State} (hm : MemoriesWf s) {team : Nat} : SomeWf MemoriesWf (endStepOf s team) := by
  unfold endStepOf
  dsimp only
  split
  · exact keeps_ite (SomeWf.some (memoriesWf_setEndStep hm)) SomeWf.none
  · exact keeps_ite (SomeWf.some (memoriesWf_setEndStep hm)) SomeWf.none
  · exact keeps_ite (SomeWf.some (memoriesWf_setEndStep (FstWf.fst (memoriesWf_releaseCore hm)))) SomeWf.none
  · exact keeps_ite (keeps_ite (SomeWf.some (memoriesWf_setEndStep (FstWf.fst (memoriesWf_releaseCore hm))))
        (SomeWf.some (memoriesWf_setEndStep hm))) SomeWf.none
  · exact keeps_ite SomeWf.none (SomeWf.map (fun _ et => memoriesWf_settleLaunch (keeps_ite (memoriesWf_freeTeam
        (SomeWf.of_eq (memoriesWf_sampleTeam hm) et)) (memoriesWf_setBit (memoriesWf_freeTeam (SomeWf.of_eq
        (memoriesWf_sampleTeam hm) et))))))

theorem memoriesWf_unsave {s : State} (hm : MemoriesWf s) {team : Nat} : MemoriesWf (unsave s team) :=
  hm

theorem memoriesWf_clearDirty {s : State} (hm : MemoriesWf s) {team core : Nat} :
    MemoriesWf (clearDirty s team core) :=
  keeps_ite (keeps_foldl (fun _ _ ht => memoriesWf_dropL1 ht) hm) (keeps_foldl (fun _ _ ht => FstWf.fst
      (memoriesWf_takeBytes ht)) hm)

theorem memoriesWf_endStopped {s : State} (hm : MemoriesWf s) {team : Nat} :
    SomeWf MemoriesWf (endStopped s team) :=
  keeps_ite SomeWf.none (SomeWf.some (memoriesWf_settleLaunch (memoriesWf_unsave (memoriesWf_freeTeam
      (keeps_foldl (fun _ _ ht => memoriesWf_clearDirty ht) hm)))))

theorem memoriesWf_endTeam {s : State} (hm : MemoriesWf s) {team : Nat} : SomeWf MemoriesWf (endTeam s team) := by
  unfold endTeam
  split
  · exact SomeWf.none
  · exact keeps_ite (memoriesWf_endStopped hm) (keeps_ite (memoriesWf_endStepOf hm) SomeWf.none)

/-! ## Context switches -/

theorem memoriesWf_without {s : State} (hm : MemoriesWf s) {teams : List Nat} : MemoriesWf (without s teams) := by
  obtain ⟨hbm, host, parts, scratches⟩ := hm
  refine ⟨hbm, host, parts, List.forall_mem_map.2 fun e he => ?_⟩
  split <;> exact scratches e he

theorem memoriesWf_discardReads {s : State} (hm : MemoriesWf s) {gid : Nat} : MemoriesWf (discardReads s gid) :=
  keeps_ite (memoriesWf_modGrp hm) (memoriesWf_update (memoriesWf_modGrp hm))

theorem memoriesWf_preemptGroup {s : State} (hm : MemoriesWf s) {gid : Nat} : MemoriesWf (preemptGroup s gid) :=
  memoriesWf_modGrp (keeps_foldl (fun _ _ ht => memoriesWf_abortLane ht) (memoriesWf_modGrp hm))

theorem memoriesWf_preempt {s : State} (hm : MemoriesWf s) {cores : List Nat} : MemoriesWf (preempt s cores) :=
  keeps_foldl (fun _ _ ht => memoriesWf_modQuart ht) (keeps_foldl (fun _ _ ht => memoriesWf_preemptGroup
      (memoriesWf_discardReads ht)) hm)

theorem memoriesWf_saveCores {s : State} (hm : MemoriesWf s) {cores : List Nat} : MemoriesWf (saveCores s cores) :=
  keeps_foldl (fun _ _ ht => memoriesWf_setQuantum (memoriesWf_modCore ht)) (keeps_ite (keeps_foldl (fun _ _ ht
      => memoriesWf_modQuart ht) (keeps_foldl (fun _ _ ht => memoriesWf_modTeam ht) (keeps_foldl (fun _ _ ht =>
      memoriesWf_modGrp ht) (keeps_foldl (fun _ _ ht => memoriesWf_flushL1 ht) hm)))) (memoriesWf_modCore (keeps_foldl
      (fun _ _ ht => memoriesWf_modQuart ht) (keeps_foldl (fun _ _ ht => memoriesWf_modTeam ht) (keeps_foldl (fun _ _
      ht => memoriesWf_modGrp ht) (keeps_foldl (fun _ _ ht => memoriesWf_flushL1 ht) hm))))))

theorem memoriesWf_beginSwitch {s : State} (hm : MemoriesWf s) {cores : List Nat} :
    MemoriesWf (beginSwitch s cores) :=
  memoriesWf_preempt (keeps_foldl (fun _ _ ht => memoriesWf_modCore ht) hm)

theorem memoriesWf_drainStep {s : State} (hm : MemoriesWf s) {cores : List Nat} :
    SomeWf MemoriesWf (drainStep s cores) := by
  unfold drainStep
  split
  · exact SomeWf.some (SomeWf.of_eq (SomeWf.findSome (fun _ => SomeWf.findSome (fun _ => memoriesWf_mmaStop hm))) ‹_›)
  · exact keeps_ite SomeWf.none (SomeWf.some (memoriesWf_preempt hm))

theorem memoriesWf_switchCore {s : State} (hm : MemoriesWf s) {core : Nat} :
    SomeWf MemoriesWf (switchCore s core) :=
  keeps_ite (keeps_ite (SomeWf.some (memoriesWf_saveCores hm)) (memoriesWf_drainStep hm)) (SomeWf.map (fun _ _
      => memoriesWf_beginSwitch hm))

theorem memoriesWf_quantumExpiry {s : State} (hm : MemoriesWf s) {core : Nat} :
    SomeWf MemoriesWf (quantumExpiry s core) :=
  SomeWf.map (fun _ _ => memoriesWf_beginSwitch hm)

theorem memoriesWf_restoreContext {s : State} (hm : MemoriesWf s) {core : Nat} {x : Saved} :
    MemoriesWf (restoreContext s core x) :=
  keeps_foldl (fun _ _ ht => memoriesWf_setQuantum (memoriesWf_modCore ht)) (memoriesWf_endSwitch
      (memoriesWf_update (keeps_foldl (fun _ _ ht => memoriesWf_modTeam ht) (keeps_foldl (fun _ _ ht =>
      memoriesWf_modQuart ht) (keeps_foldl (fun _ _ ht => memoriesWf_shrinkL1 (memoriesWf_modCore (memoriesWf_setPool
      ht))) (memoriesWf_modCore hm))))))

theorem memoriesWf_restoreCore {s : State} (hm : MemoriesWf s) {core : Nat} :
    SomeWf MemoriesWf (restoreCore s core) := by
  unfold restoreCore
  split
  · exact SomeWf.some (memoriesWf_restoreContext hm)
  · exact keeps_ite (SomeWf.some (memoriesWf_endSwitch hm)) SomeWf.none

/-! ## Partitions and reliability -/

theorem memoriesWf_dealAgain {s : State} (hm : MemoriesWf s) {core team : Nat} :
    MemoriesWf (dealAgain s core team) := by
  unfold dealAgain
  dsimp only
  split
  · exact hm
  · exact memoriesWf_pushTeam (memoriesWf_modLaunch (memoriesWf_modTeam (memoriesWf_unqueue hm)))

theorem memoriesWf_mapOutCore {s : State} (hm : MemoriesWf s) {core : Nat} : MemoriesWf (mapOutCore s core) :=
  keeps_ite hm (keeps_foldl (fun _ _ ht => keeps_ite (memoriesWf_endLaunch ht) (memoriesWf_rollbackOrEnd ht))
      (keeps_foldl (fun _ _ ht => memoriesWf_dealAgain ht) (memoriesWf_say (memoriesWf_say (memoriesWf_modCore
      (memoriesWf_update hm))))))

theorem memoriesWf_assayEvent {s : State} (hm : MemoriesWf s) {part : Nat} : MemoriesWf (assayEvent s part) :=
  memoriesWf_escalateFree hm

theorem memoriesWf_takeVerdict {s : State} (hm : MemoriesWf s) {team v : Nat} :
    MemoriesWf (takeVerdict s team v) :=
  memoriesWf_settleLaunch (keeps_ite (memoriesWf_mapOutCore (memoriesWf_rollbackOrEnd (memoriesWf_modLaunch
      (memoriesWf_modTeam hm)))) (keeps_ite (memoriesWf_mapOutCore (memoriesWf_modLaunch (memoriesWf_modTeam hm)))
      (memoriesWf_modLaunch (memoriesWf_modTeam hm))))

theorem memoriesWf_eraseRerun {s : State} (hm : MemoriesWf s) {team : Nat} : MemoriesWf (eraseRerun s team) := by
  obtain ⟨hbm, host, parts, teams⟩ := hm
  exact ⟨hbm, host, parts, forall_mem_mapErase (P := fun t : Team => Memory.wf t.scratch = true) teams⟩

theorem memoriesWf_assayRun {s : State} (hm : MemoriesWf s) {team : Nat} : SomeWf MemoriesWf (assayRun s team) := by
  unfold assayRun
  split
  · exact SomeWf.none
  · dsimp only
    split
    · exact SomeWf.none
    · refine keeps_ite SomeWf.none (keeps_ite (SomeWf.some (memoriesWf_eraseRerun hm)) ?_)
      split
      · refine keeps_ite (SomeWf.some (memoriesWf_takeVerdict (memoriesWf_modTeam (memoriesWf_eraseRerun hm)))) ?_
        split
        · exact SomeWf.none
        · exact SomeWf.some (memoriesWf_addRerun (SndWf.snd (memoriesWf_freeChoice (memoriesWf_assayEvent
              (memoriesWf_update (memoriesWf_modTeam (memoriesWf_eraseRerun hm)))))))
      · exact SomeWf.some (memoriesWf_takeVerdict (memoriesWf_modTeam (memoriesWf_eraseRerun hm)))
      · exact SomeWf.none

theorem memoriesWf_execAssaycfgWrite {part : Nat} {val : Word} {s : State} (hm : MemoriesWf s) :
    OutWf (execAssaycfgWrite part val s) :=
  keeps_ite (OutWf.next hm) (OutWf.next (memoriesWf_modPart hm))

theorem memoriesWf_countError {s : State} (hm : MemoriesWf s) : MemoriesWf (countError s) :=
  hm

theorem memoriesWf_softL1 {s : State} (hm : MemoriesWf s) {core asid line word : Nat} :
    MemoriesWf (softL1 s core asid line word) := by
  unfold softL1
  split
  · exact hm
  · exact keeps_ite (memoriesWf_countError (memoriesWf_modL1 hm)) (memoriesWf_modL1 hm)

theorem memoriesWf_softSlice {s : State} (hm : MemoriesWf s) {k asid line sector : Nat} :
    MemoriesWf (softSlice s k asid line sector) := by
  unfold softSlice
  split
  · exact hm
  · exact keeps_ite hm (keeps_ite (memoriesWf_modLine hm) (keeps_ite hm (memoriesWf_countError (memoriesWf_modLine
        hm))))

theorem memoriesWf_softErrorAt {α : Type} {m : NMap α} {k : Nat} {s t : State} (hs : MemoriesWf s)
    (ht : MemoriesWf t) : MemoriesWf (softError.at' s m k t) :=
  keeps_ite ht hs

theorem memoriesWf_softError {s : State} (hm : MemoriesWf s) {e : SoftError} : MemoriesWf (softError s e) := by
  cases e with
  | corrected => exact memoriesWf_countError hm
  | vector | uniform | accumulator | log => exact memoriesWf_modGrpIf hm
  | cell | bplane | staging => exact memoriesWf_softErrorAt hm (memoriesWf_modQuart hm)
  | scratch team off =>
    rw [softError]
    split
    · exact memoriesWf_softErrorAt hm (memoriesWf_modTeam hm)
    · exact hm
  | l1 => exact memoriesWf_softL1 hm
  | instr => exact memoriesWf_softErrorAt hm (memoriesWf_countError (memoriesWf_modCore hm))
  | buffer p =>
    rw [softError]
    split
    · exact memoriesWf_update hm
    · exact hm
  | slice => exact memoriesWf_softSlice hm
  | carved => exact memoriesWf_softErrorAt hm (memoriesWf_modPart hm)
  | hbm n correctable => cases correctable <;> exact memoriesWf_update hm

theorem memoriesWf_execHealthClear {val : Word} {s : State} (hm : MemoriesWf s) : OutWf (execHealthClear val s) :=
  OutWf.next hm

theorem memoriesWf_execPartitionCreate {first logn : Nat} {s : State} (hm : MemoriesWf s) :
    OutWf (execPartitionCreate first logn s) :=
  keeps_ite (OutWf.next (memoriesWf_update
    (memoriesWf_modPart (n := first) (f := fun _ => newPartition first logn) hm fun _ _ => empty_wf))) (OutWf.next hm)

theorem memoriesWf_tearLaunches {s : State} (hm : MemoriesWf s) {part : Nat} : MemoriesWf (tearLaunches s part) :=
  keeps_foldl (fun _ _ ht => memoriesWf_endAndSettle ht) hm

theorem memoriesWf_releaseHost {s : State} (hm : MemoriesWf s) {k : Nat} {x : L2Line} :
    MemoriesWf (releaseHost s k x) :=
  memoriesWf_dropLine (keeps_foldl (fun _ _ ht => keeps_ite (memoriesWf_writeHost (memoriesWf_say ht))
    (keeps_ite ht (memoriesWf_say ht))) hm)

theorem memoriesWf_resetClusters {s : State} (hm : MemoriesWf s) {part : Nat} :
    MemoriesWf (resetClusters s part) := by
  obtain ⟨hbm, host, parts, teams⟩ := hm
  exact ⟨canonFrom_filter _ hbm, host,
    forall_mem_mapErase (P := fun p : Partition => Memory.wf p.carved = true) parts,
    fun e he => teams e (List.mem_filter.1 he).1⟩

theorem memoriesWf_tearDown {s : State} (hm : MemoriesWf s) {part : Nat} : SomeWf MemoriesWf (tearDown s part) := by
  unfold tearDown
  split
  · exact SomeWf.none
  · exact keeps_ite (keeps_ite SomeWf.none (SomeWf.some (memoriesWf_modPart hm))) (keeps_ite (SomeWf.some
        (memoriesWf_tearLaunches (memoriesWf_modPart hm))) (keeps_ite SomeWf.none (SomeWf.some (keeps_ite
        (memoriesWf_update (memoriesWf_resetClusters (keeps_foldl (fun _ _ ht => memoriesWf_releaseHost ht) hm)))
        (memoriesWf_resetClusters (keeps_foldl (fun _ _ ht => memoriesWf_releaseHost ht) hm))))))

theorem memoriesWf_execRegisterWrite {part : Nat} {reg : RegName} {val : Word} {s : State} (hm : MemoriesWf s) :
    OutWf (execRegisterWrite part reg val s) := by
  refine OutWf.next ?_
  cases reg with
  | regbase | asidbase | hostRange | hdmRange => exact keeps_ite (memoriesWf_modPart hm) hm
  | maxprio | qbase | qctl => exact keeps_ite (memoriesWf_modQueue hm) hm
  | rbase | rctl => exact keeps_ite (memoriesWf_modRing hm) hm
  | ingotCtl | ingotArg => exact memoriesWf_update hm
  | readOnly => exact hm

/-! ## Mailboxes -/

theorem memoriesWf_postDeferred {s : State} (hm : MemoriesWf s) {core : Nat} :
    SomeWf MemoriesWf (postDeferred s core) := by
  unfold postDeferred
  dsimp only
  split
  · exact SomeWf.none
  · exact keeps_ite (SomeWf.some (memoriesWf_modCore hm)) (keeps_ite SomeWf.none (SomeWf.some
        (memoriesWf_postEscalation (memoriesWf_modCore hm))))

theorem memoriesWf_resumeGroup {s : State} (hm : MemoriesWf s) {gid : Nat} : MemoriesWf (resumeGroup s gid) := by
  unfold resumeGroup
  dsimp only
  split
  · exact keeps_ite (memoriesWf_modGrp (memoriesWf_modGrp hm)) (keeps_ite (memoriesWf_resumeCopies (memoriesWf_modGrp
        hm)) (keeps_ite (memoriesWf_resumeMatrix (memoriesWf_modGrp hm)) (memoriesWf_modGrp hm)))
  · exact memoriesWf_modGrp hm

theorem memoriesWf_retranslate {s : State} (hm : MemoriesWf s) {k asid page : Nat} :
    MemoriesWf (retranslate s k asid page) :=
  memoriesWf_modSlice hm

theorem memoriesWf_dropFailed {s : State} (hm : MemoriesWf s) {k asid page lid : Nat} :
    MemoriesWf (dropFailed s k asid page lid) :=
  memoriesWf_update (memoriesWf_modSlice (keeps_foldl (fun _ _ ht => memoriesWf_dropLine (memoriesWf_dropMiss
      ht)) hm))

theorem memoriesWf_replyGroup {s : State} (hm : MemoriesWf s) {gid cause : Nat} {val : Word} :
    MemoriesWf (replyGroup s gid cause val) :=
  keeps_ite (memoriesWf_endAndSettle hm) (keeps_ite (memoriesWf_resumeGroup hm) (keeps_ite (keeps_ite
      (memoriesWf_endAndSettle hm) (memoriesWf_rollbackOrEnd hm)) (memoriesWf_endAndSettle hm)))

theorem memoriesWf_replyRequest {s : State} (hm : MemoriesWf s) {core : Nat} {gid : Option Nat}
    {k asid page lid cause : Nat} {val : Word} : MemoriesWf (replyRequest s core gid k asid page lid cause val) := by
  unfold replyRequest
  refine keeps_ite ?_ (memoriesWf_settleLaunch (memoriesWf_dropFailed (memoriesWf_endLaunch hm)))
  dsimp only
  split
  · exact keeps_ite (memoriesWf_modGrp (memoriesWf_retranslate hm)) (memoriesWf_retranslate hm)
  · exact memoriesWf_retranslate hm

theorem memoriesWf_replyMbox {s : State} (hm : MemoriesWf s) {gid op kind : Nat} {arg val : Word} :
    MemoriesWf (replyMbox s gid op kind arg val) :=
  keeps_ite (memoriesWf_endAndSettle hm) (memoriesWf_modGrp (keeps_ite (memoriesWf_pinPage hm) hm))

theorem memoriesWf_execMailboxReply {core slot : Nat} {val : Word} {s : State} (hm : MemoriesWf s) :
    OutWf (execMailboxReply core slot val s) := by
  unfold execMailboxReply
  refine keeps_ite (OutWf.next hm) (OutWf.next ?_)
  split
  · exact keeps_ite (memoriesWf_replyGroup (memoriesWf_modCore hm)) (memoriesWf_modCore hm)
  · exact keeps_ite (memoriesWf_replyMbox (memoriesWf_modCore hm)) (memoriesWf_modCore hm)
  · exact memoriesWf_replyRequest (memoriesWf_modCore hm)
  · exact memoriesWf_modCore hm

theorem memoriesWf_execMailboxControlClear {core slot : Nat} {full replied : Bool} {s : State} (hm : MemoriesWf s) :
    OutWf (execMailboxControlClear core slot full replied s) :=
  OutWf.next (memoriesWf_modCore hm)

/-! ## Power -/

theorem memoriesWf_powerDown {s : State} (hm : MemoriesWf s) : MemoriesWf (powerDown s) := by
  obtain ⟨hbm, host, _, _⟩ := hm
  exact ⟨hbm, host, fun _ he => (List.not_mem_nil he).elim, fun _ he => (List.not_mem_nil he).elim⟩

theorem memoriesWf_answerWaiting {s : State} (hm : MemoriesWf s) : MemoriesWf (answerWaiting s) := by
  unfold answerWaiting
  refine keeps_foldl (fun _ _ ht => ?_) hm
  split
  · exact memoriesWf_say ht
  · exact memoriesWf_say ht
  · exact memoriesWf_say ht
  · exact ht

theorem memoriesWf_execDeviceReset {s : State} (hm : MemoriesWf s) : OutWf (execDeviceReset s) :=
  OutWf.next (memoriesWf_powerDown (memoriesWf_answerWaiting (keeps_foldl (fun _ _ ht => memoriesWf_releaseHost
      ht) hm)))

theorem memoriesWf_trainDies {s : State} (hm : MemoriesWf s) {dies : List Nat} : MemoriesWf (trainDies s dies) :=
  keeps_foldl (fun _ _ ht => memoriesWf_update (memoriesWf_update ht)) hm

theorem memoriesWf_driftedDies {s : State} (hm : MemoriesWf s) {ds : List Nat} :
    FstWf MemoriesWf (driftedDies s ds) := by
  induction ds generalizing s with
  | nil => exact FstWf.mk hm
  | cons d ds ih => exact FstWf.mk (FstWf.fst (ih (SndWf.snd (memoriesWf_freeChoice hm (n := 2)))))

theorem memoriesWf_startedUp {s : State} (hm : MemoriesWf s) {modules : Nat} : MemoriesWf (startedUp s modules) :=
  hm

theorem memoriesWf_coldStart {s : State} (hm : MemoriesWf s) {ok : Bool} {modules : Nat} :
    MemoriesWf (coldStart s ok modules) := by
  refine keeps_ite (memoriesWf_startedUp ?_) (memoriesWf_update hm)
  obtain ⟨_, host, parts, teams⟩ := memoriesWf_trainDies hm (dies := List.range s.variant.dies)
  exact ⟨empty_wf, host, parts, teams⟩

theorem memoriesWf_execColdStart {ok : Bool} {modules : Nat} {s : State} (hm : MemoriesWf s) :
    OutWf (execColdStart ok modules s) :=
  OutWf.next (keeps_ite (memoriesWf_coldStart hm) hm)

theorem memoriesWf_execWarmStart {ok : Bool} {modules : Nat} {s : State} (hm : MemoriesWf s) :
    OutWf (execWarmStart ok modules s) :=
  OutWf.next (keeps_ite hm (keeps_ite (memoriesWf_coldStart hm) (keeps_ite (memoriesWf_startedUp
      (memoriesWf_trainDies (FstWf.fst (memoriesWf_driftedDies hm)))) hm)))

theorem memoriesWf_execStartTimeout {s : State} (hm : MemoriesWf s) : OutWf (execStartTimeout s) :=
  OutWf.next (keeps_ite (memoriesWf_coldStart hm) hm)

theorem memoriesWf_execRecoveryMode {s : State} (hm : MemoriesWf s) : OutWf (execRecoveryMode s) :=
  keeps_ite (OutWf.next hm) (OutWf.next hm)

theorem memoriesWf_execRecoveryImageLoad {image : List Byte} {s : State} (hm : MemoriesWf s) :
    OutWf (execRecoveryImageLoad image s) :=
  keeps_ite (OutWf.next hm) (OutWf.next hm)

theorem memoriesWf_gateSlice {s : State} (hm : MemoriesWf s) {k : Nat} : SomeWf MemoriesWf (gateSlice s k) := by
  unfold gateSlice
  refine keeps_ite SomeWf.none ?_
  split
  · exact keeps_ite (SomeWf.some (memoriesWf_modSlice hm)) SomeWf.none
  · exact SomeWf.findSome (fun _ => keeps_ite (SomeWf.map (fun _ eu => FstWf.fst (SomeWf.of_eq (memoriesWf_evictLine
        hm) eu))) SomeWf.none)

theorem memoriesWf_execSlicePowerRestore {slice : Nat} {s : State} (hm : MemoriesWf s) :
    OutWf (execSlicePowerRestore slice s) :=
  keeps_ite (OutWf.next (memoriesWf_modSlice hm)) (OutWf.next hm)

theorem memoriesWf_execRemoteMemoryMove {part pa : Nat} {bytes : List Byte} {s : State} (hm : MemoriesWf s) :
    OutWf (execRemoteMemoryMove part pa bytes s) :=
  keeps_ite (OutWf.next (memoriesWf_sysPost hm)) (OutWf.next hm)

/-! ## Sealed checkpoints -/

theorem memoriesWf_putHost {s : State} (hm : MemoriesWf s) {hpa : Nat} {b : List Byte} :
    MemoriesWf (putHost s hpa b) := by
  obtain ⟨hbm, host, parts, teams⟩ := hm
  exact ⟨hbm, memWriteBytes_wf hpa b host, parts, teams⟩

theorem memoriesWf_randomBytes {s : State} (hm : MemoriesWf s) {n : Nat} : FstWf MemoriesWf (randomBytes s n) := by
  induction n generalizing s with
  | zero => exact FstWf.mk hm
  | succ n ih => exact FstWf.mk (FstWf.fst (ih (SndWf.snd (memoriesWf_freeWord hm))))

theorem memoriesWf_modIngot {s : State} (hm : MemoriesWf s) {f : Ingot → Ingot} : MemoriesWf (modIngot s f) :=
  hm

theorem memoriesWf_endOp {s : State} (hm : MemoriesWf s) {status written : Nat} :
    MemoriesWf (endOp s status written) :=
  memoriesWf_modIngot hm

theorem memoriesWf_ingotOp {op : Nat} {body : State → Option State}
    (hk : ∀ t, MemoriesWf t → SomeWf MemoriesWf (body t)) {s : State} (hm : MemoriesWf s) :
    OutWf (ingotOp op body s) :=
  keeps_ite (OutWf.next hm) (keeps_ite (OutWf.next (memoriesWf_endOp hm)) (keeps_ite (OutWf.next
      (memoriesWf_endOp hm)) (OutWf.next (SomeWf.getD (hk _ hm) hm))))

theorem memoriesWf_execNonce {s : State} (hm : MemoriesWf s) : OutWf (execNonce s) :=
  memoriesWf_ingotOp (fun _ ht => SomeWf.some (memoriesWf_endOp (memoriesWf_putHost (memoriesWf_modPart
      (memoriesWf_update (memoriesWf_update (memoriesWf_update ht))))))) hm

theorem memoriesWf_execReport {s : State} (hm : MemoriesWf s) : OutWf (execReport s) :=
  memoriesWf_ingotOp (fun _ ht => SomeWf.some (memoriesWf_endOp (memoriesWf_putHost (memoriesWf_update ht)))) hm

theorem memoriesWf_signStatement {s : State} (hm : MemoriesWf s) {x : Statement} :
    FstWf MemoriesWf (signStatement s x) :=
  FstWf.mk hm

theorem memoriesWf_requestFor {s : State} (hm : MemoriesWf s) {b : Bond} {kind n : Nat} :
    FstWf MemoriesWf (requestFor s b kind n) :=
  memoriesWf_signStatement (memoriesWf_update (memoriesWf_update (memoriesWf_update hm)))

theorem memoriesWf_requestsFor {b : Bond} {kind n : Nat} {s : State} (hm : MemoriesWf s) {count : Nat} :
    FstWf MemoriesWf (requestsFor b kind n s count) := by
  induction count generalizing s with
  | zero => exact FstWf.mk hm
  | succ count ih => exact FstWf.mk (FstWf.fst (ih (FstWf.fst (memoriesWf_requestFor hm (b := b) (kind := kind) (n :=
      n)))))

theorem memoriesWf_putLineage {s : State} (hm : MemoriesWf s) {e : Lineage} : MemoriesWf (putLineage s e) :=
  hm

theorem memoriesWf_execImextWrite {off : Nat} {bytes : List Byte} {s : State} (hm : MemoriesWf s) :
    OutWf (execImextWrite off bytes s) :=
  keeps_ite (OutWf.next (memoriesWf_modPart (memoriesWf_modIngot hm))) (OutWf.next (memoriesWf_modIngot hm))

theorem memoriesWf_keySlot {s : State} (hm : MemoriesWf s) {lead : List Byte} {key : BitVec 256}
    {t : BitVec 512 × BitVec 4096} : FstWf MemoriesWf (keySlot s lead key t) :=
  FstWf.mk hm

theorem memoriesWf_keySlots {lead : List Byte} {key : BitVec 256} {s : State} (hm : MemoriesWf s)
    {ts : List (BitVec 512 × BitVec 4096)} : FstWf MemoriesWf (keySlots lead key s ts) := by
  induction ts generalizing s with
  | nil => exact FstWf.mk hm
  | cons t ts ih => exact FstWf.mk (FstWf.fst (ih (FstWf.fst (memoriesWf_keySlot hm (lead := lead) (key := key) (t :=
      t)))))

theorem memoriesWf_acceptPending {s : State} (hm : MemoriesWf s) {part : Nat} :
    MemoriesWf (acceptPending s part) :=
  keeps_foldl (fun _ _ ht => memoriesWf_acceptLaunch ht) (memoriesWf_modPart hm)

theorem memoriesWf_resumePart {s : State} (hm : MemoriesWf s) {part : Nat} : MemoriesWf (resumePart s part) :=
  memoriesWf_acceptPending (memoriesWf_modPart hm)

theorem memoriesWf_abandonSeal {s : State} (hm : MemoriesWf s) : MemoriesWf (abandonSeal s) := by
  unfold abandonSeal
  split
  · exact memoriesWf_modIngot (memoriesWf_resumePart hm)
  · exact hm

theorem memoriesWf_beginSeal {s : State} (hm : MemoriesWf s) {b : Bond} {targets : List (BitVec 512 × BitVec 4096)} :
    MemoriesWf (beginSeal s b targets) :=
  memoriesWf_modIngot (keeps_ite (keeps_foldl (fun _ _ ht => memoriesWf_endAndSettle ht) (memoriesWf_update
      (memoriesWf_modPart (memoriesWf_putLineage hm)))) (memoriesWf_update (memoriesWf_modPart (memoriesWf_putLineage
      hm))))

theorem memoriesWf_publishAll {s : State} (hm : MemoriesWf s) {p : Machine.Partition} :
    MemoriesWf (publishAll s p) :=
  keeps_foldl (fun _ _ ht => keeps_foldl (fun _ _ hu => keeps_ite hu (FstWf.fst (memoriesWf_takeBytes hu))) ht)
      hm

theorem memoriesWf_flushStep {s : State} (hm : MemoriesWf s) {p : Machine.Partition} :
    SomeWf MemoriesWf (flushStep s p) := by
  unfold flushStep
  dsimp only
  split
  · exact SomeWf.some (SomeWf.of_eq (SomeWf.findSome (fun _ => keeps_ite (SomeWf.map (fun _ eu => FstWf.fst
        (SomeWf.of_eq (memoriesWf_evictLine hm) eu))) SomeWf.none)) ‹_›)
  · exact memoriesWf_backInvalidate hm

theorem memoriesWf_collectIngot {s : State} (hm : MemoriesWf s) {b : Bond} : MemoriesWf (collectIngot s b) := by
  unfold collectIngot
  exact keeps_ite (memoriesWf_endOp (memoriesWf_abandonSeal (FstWf.fst (memoriesWf_keySlots hm)))) (memoriesWf_endOp
      (memoriesWf_modIngot (memoriesWf_putHost (memoriesWf_putHost (FstWf.fst (memoriesWf_requestsFor (FstWf.fst
      (memoriesWf_keySlots hm))))))))

theorem memoriesWf_execSeal {s : State} (hm : MemoriesWf s) : OutWf (execSeal s) := by
  unfold execSeal
  refine memoriesWf_ingotOp (fun _ ht => ?_) hm
  split
  · exact keeps_ite SomeWf.none (SomeWf.some (memoriesWf_modIngot (memoriesWf_publishAll ht)))
  · exact keeps_ite (SomeWf.some (memoriesWf_collectIngot ht)) (memoriesWf_flushStep ht)
  · dsimp only
    split
    · exact SomeWf.some (memoriesWf_endOp (memoriesWf_abandonSeal ht))
    · exact SomeWf.some (memoriesWf_modIngot (memoriesWf_beginSeal (memoriesWf_abandonSeal ht)))

theorem memoriesWf_execSealfin {s : State} (hm : MemoriesWf s) : OutWf (execSealfin s) := by
  unfold execSealfin
  refine memoriesWf_ingotOp (fun _ ht => ?_) hm
  split
  · exact SomeWf.some (memoriesWf_endOp ht)
  · refine keeps_ite (SomeWf.some (memoriesWf_endOp ht)) ?_
    split
    · exact SomeWf.some (memoriesWf_endOp ht)
    · exact keeps_ite (SomeWf.some (memoriesWf_endOp ht)) (SomeWf.some (memoriesWf_endOp (keeps_ite
          (memoriesWf_modIngot (memoriesWf_putLineage (memoriesWf_putHost ht))) (memoriesWf_resumePart
          (memoriesWf_modIngot (memoriesWf_putLineage (memoriesWf_putHost ht)))))))

theorem memoriesWf_execWrap {s : State} (hm : MemoriesWf s) : OutWf (execWrap s) := by
  unfold execWrap
  refine memoriesWf_ingotOp (fun _ ht => keeps_ite (SomeWf.some (memoriesWf_endOp ht)) ?_) hm
  split
  · exact SomeWf.some (memoriesWf_endOp ht)
  · exact keeps_ite (SomeWf.some (memoriesWf_endOp ht)) (SomeWf.some (memoriesWf_endOp (memoriesWf_putHost
        (memoriesWf_update ht))))

theorem memoriesWf_zeroPart {s : State} (hm : MemoriesWf s) {part : Nat} : MemoriesWf (zeroPart s part) := by
  unfold zeroPart
  extract_lets p chans ours t u v w
  have ht : MemoriesWf t := memoriesWf_modPart hm fun _ _ => empty_wf
  have hu : MemoriesWf u := keeps_foldl (fun _ _ h => memoriesWf_modCore h) ht
  have hv : MemoriesWf v := keeps_foldl (fun _ _ h =>
    keeps_foldl (fun _ _ h => memoriesWf_keepLease (memoriesWf_dropLine h)) h) hu
  have hw : MemoriesWf w := keeps_foldl (fun _ _ h => memoriesWf_modSlice h) hv
  obtain ⟨hbm, host, parts, teams⟩ := hw
  exact ⟨canonFrom_filter _ hbm, host, parts, teams⟩

theorem memoriesWf_putFrame {s : State} (hm : MemoriesWf s) {part : Nat} {c : Chunk} :
    MemoriesWf (putFrame s part c) := by
  obtain ⟨hbm, host, parts, teams⟩ := hm
  refine keeps_ite ⟨hbm, host, parts, teams⟩ ⟨?_, host, parts, teams⟩
  exact keeps_foldl (P := fun m : Memory => Memory.wf m = true) (fun _ _ h => memWrite_wf _ _ h) hbm

theorem memoriesWf_loadIngot {s : State} (hm : MemoriesWf s) {part ways : Nat} {cs : List Chunk} :
    MemoriesWf (loadIngot s part ways cs) :=
  memoriesWf_modPart (keeps_foldl (fun _ _ h => memoriesWf_putFrame h) (memoriesWf_zeroPart hm)) fun _ _ =>
    keeps_foldl (P := fun m : Memory => Memory.wf m = true) (fun _ _ h => memWriteBytes_wf _ _ h) empty_wf

theorem memoriesWf_execRestore {s : State} (hm : MemoriesWf s) : OutWf (execRestore s) := by
  unfold execRestore
  refine memoriesWf_ingotOp (fun _ ht => keeps_ite (SomeWf.some (memoriesWf_endOp ht)) ?_) hm
  split
  · exact SomeWf.some (memoriesWf_endOp (memoriesWf_zeroPart ht))
  · exact SomeWf.some (memoriesWf_endOp (memoriesWf_putHost (memoriesWf_modIngot (FstWf.fst (memoriesWf_requestsFor
        (memoriesWf_loadIngot ht))))))

theorem memoriesWf_execRestorefin {s : State} (hm : MemoriesWf s) : OutWf (execRestorefin s) := by
  unfold execRestorefin
  refine memoriesWf_ingotOp (fun _ ht => ?_) hm
  split
  · exact SomeWf.some (memoriesWf_endOp ht)
  · refine keeps_ite (SomeWf.some (memoriesWf_endOp ht)) ?_
    split
    · exact keeps_ite (SomeWf.some (memoriesWf_endOp (memoriesWf_zeroPart (memoriesWf_modIngot ht)))) (SomeWf.some
          (memoriesWf_endOp (memoriesWf_resumePart (memoriesWf_putLineage (memoriesWf_modIngot ht)))))
    · exact SomeWf.some (memoriesWf_endOp (memoriesWf_putHost (FstWf.fst (memoriesWf_requestsFor (memoriesWf_zeroPart
          (memoriesWf_modIngot ht))))))

theorem memoriesWf_answerWitness {s : State} (hm : MemoriesWf s) {x : Statement} {entry : Option Lineage}
    {kind status : Nat} : MemoriesWf (answerWitness s x entry kind status) := by
  unfold answerWitness
  dsimp only
  split
  · exact keeps_ite (memoriesWf_endOp hm) (memoriesWf_endOp (memoriesWf_putHost (FstWf.fst (memoriesWf_signStatement
        (keeps_ite (memoriesWf_putLineage hm) hm)))))
  · exact memoriesWf_endOp (memoriesWf_putHost (FstWf.fst (memoriesWf_signStatement hm)))

theorem memoriesWf_witnessOp {mine : Nat → Bool} {s : State} (hm : MemoriesWf s) : OutWf (witnessOp mine s) := by
  unfold witnessOp
  refine memoriesWf_ingotOp (fun _ ht => keeps_ite SomeWf.none (SomeWf.some ?_)) hm
  split
  · exact memoriesWf_endOp ht
  · exact memoriesWf_answerWitness ht
  · exact memoriesWf_answerWitness ht

/-! ## Registers at their addresses -/

theorem memoriesWf_managerWrite {cluster a : Nat} {val : Word} {s : State} (hm : MemoriesWf s) :
    OutWf (managerWrite cluster a val s) := by
  unfold managerWrite
  split
  · exact memoriesWf_execHealthClear hm
  · split
    · exact memoriesWf_execRequestCounterWrite hm
    · exact OutWf.next hm
  · dsimp only
    split
    · exact memoriesWf_execMailboxReply hm
    · exact memoriesWf_execMailboxControlClear hm
    · exact OutWf.next hm
  · exact OutWf.next hm

theorem memoriesWf_funcWrite {vf off : Nat} {val : Word} {s : State} (hm : MemoriesWf s) :
    OutWf (funcWrite vf off val s) := by
  unfold funcWrite
  refine keeps_ite ?_ (keeps_ite ?_ (OutWf.next hm))
  · dsimp only
    split
    · exact memoriesWf_execRegisterWrite hm
    · exact memoriesWf_execRegisterWrite hm
    · exact memoriesWf_execQtailWrite hm
    · exact OutWf.next hm
  · dsimp only
    split
    · exact memoriesWf_execRegisterWrite hm
    · exact memoriesWf_execRegisterWrite hm
    · exact memoriesWf_execRheadWrite hm
    · exact OutWf.next hm

theorem memoriesWf_physicalWrite {off : Nat} {val : Word} {s : State} (hm : MemoriesWf s) :
    OutWf (physicalWrite off val s) :=
  keeps_ite (OutWf.next hm) (keeps_ite (memoriesWf_execRegisterWrite hm) (keeps_dite (fun _ =>
      memoriesWf_execRegisterWrite hm) (fun _ => keeps_ite (memoriesWf_execImextWrite hm) (OutWf.next hm))))

theorem memoriesWf_writeRegister {r : RegRef} {val : Word} {s : State} (hm : MemoriesWf s) :
    OutWf (writeRegister r val s) := by
  unfold writeRegister
  split
  · exact memoriesWf_managerWrite hm
  · exact memoriesWf_funcWrite hm
  · exact memoriesWf_physicalWrite hm
  · exact memoriesWf_execHealthClear hm
  · exact memoriesWf_execRegisterWrite hm
  · exact keeps_ite (memoriesWf_execCarvewWrite hm) (OutWf.next hm)
  · exact memoriesWf_execAssaycfgWrite hm

theorem memoriesWf_managerAccess {s : State} (hm : MemoriesWf s) {cluster pa n : Nat} {job : SysJob} :
    MemoriesWf (managerAccess s cluster pa n job) := by
  unfold managerAccess
  split
  · exact memoriesWf_sysPost hm
  · exact hm

theorem memoriesWf_joinObject {s : State} (hm : MemoriesWf s) {lid obj : Nat} :
    MemoriesWf (joinObject s lid obj) :=
  keeps_ite (memoriesWf_modObj hm) hm

theorem memoriesWf_refillInstr {s : State} (hm : MemoriesWf s) {core asid line : Nat} {parcels : BitVec 32} :
    MemoriesWf (refillInstr s core asid line parcels) := by
  unfold refillInstr
  split
  · dsimp only
    split
    · exact memoriesWf_modCore (memoriesWf_fillInstr (memoriesWf_modCore hm))
    · exact hm
  · exact hm

theorem memoriesWf_keepLine {s : State} (hm : MemoriesWf s) {gid line : Nat} : MemoriesWf (keepLine s gid line) := by
  unfold keepLine
  split
  · exact hm
  · split
    · exact memoriesWf_modGrp hm
    · exact hm

end Sys2Proof.Machine
end

section
/-! PROOF. MemoriesInSteps.lean: every instruction, every event and every step keep the memories canonical.
The lemmas are elaborated one after another: all at once they need more threads than the memory limit allows. -/

namespace Sys2Proof.Machine

set_option Elab.async false

/-! ## RAND -/

theorem memoriesWf_execRand {h : Hdr} {ty : Ty} {d : Opnd} {s : State} (hm : MemoriesWf s) :
    OutWf (execRand h ty d s) := by
  unfold execRand
  exact memoriesWf_runItem (fun _ _ _ ht => BodyWf.done (memoriesWf_pushDest (memoriesWf_modGrp ht))) hm

/-! ## The P word -/

theorem memoriesWf_pairEarly {s : State} (hm : MemoriesWf s) {i : Issue} {ex : Mask} {lat : Nat}
    {ws : List RegWrite} {ff : FF} : MemoriesWf (pairEarly s i ex lat ws ff) :=
  memoriesWf_modGrp hm

theorem memoriesWf_pairBody {op1 op2 : BitVec 7} {d1 a1 b1 d2 b2 : Opnd} {i : Issue} {ex : Mask} {s : State}
    (hm : MemoriesWf s) : BodyWf (pairBody op1 op2 d1 a1 b1 d2 b2 i ex s) := by
  unfold pairBody
  split
  · exact keeps_ite (BodyWf.done (memoriesWf_pairEarly hm)) (keeps_ite (BodyWf.done (memoriesWf_pairEarly hm))
        (BodyWf.done hm))
  · exact BodyWf.fault

/-! ## Every instruction and event -/

theorem memoriesWf_exec {i : Instr} {s : State} (hm : MemoriesWf s) : OutWf (exec i s) := by
  cases i with
  | nopC | nopS =>
    dsimp only [exec, execNopC, execNopS]
    exact memoriesWf_runItem (fun _ _ _ ht => memoriesWf_nopBody ht) hm
  | bra | brx | call | callx | ret =>
    dsimp only [exec, execBra, execBrx, execCall, execCallx, execRet]
    exact memoriesWf_runItem (fun _ _ _ ht => memoriesWf_transferBody ht) hm
  | exit => exact memoriesWf_execExit hm
  | yield => dsimp only [exec, execYield]; exact memoriesWf_runItem (fun _ _ _ ht => memoriesWf_yieldBody ht) hm
  | tfence => dsimp only [exec, execTfence]; exact memoriesWf_runItem (fun _ _ _ ht => memoriesWf_tfenceBody ht) hm
  | trap | brk => dsimp only [exec, execTrap, execBrk]; exact memoriesWf_runItem (fun _ _ _ _ => BodyWf.trap) hm
  | eret => exact memoriesWf_execEret hm
  | sleep => dsimp only [exec, execSleep]; exact memoriesWf_runItem (fun _ _ _ ht => memoriesWf_sleepBody ht) hm
  | iaddS | iaddL | isubS | isubL | imulS | imulL | imulh | imad | iminS | iminL | imaxS | imaxL | iabs | ineg
  | leaS | leaL | andS | andL | orS | orL | xorS | xorL | andnS | andnL | shlS | shlL | shrS | shrL | sarS | sarL
  | rotS | rotL | shf | bfx | bfi | popc | clz | ctz | brev | padd | psub | pmul | pmin | pmax | idot4 | idot2
  | fclass | mov | movi | movl =>
    dsimp only [exec]
    exact memoriesWf_runPure hm
  | idiv | irem => dsimp only [exec]; exact memoriesWf_runDiv hm
  | icmpS | icmpL | fcmp =>
    dsimp only [exec]
    exact memoriesWf_runPred hm
  | fadd | fsub | fmul | ffma | fmin | fmax | fscale | frnd =>
    dsimp only [exec]
    exact memoriesWf_runFloat hm
  | fdot2 | fcvt | f2i | i2f | fpack | funpk =>
    dsimp only [exec]
    exact memoriesWf_runLanes hm
  | frcp | frsq | fsqrt | fdiv | fexp2 | flog2 | fsin | fcos | ftanh =>
    dsimp only [exec]
    exact memoriesWf_runSpecial hm
  | xclr | xmrg =>
    dsimp only [exec, execXclr, execXmrg]
    exact memoriesWf_runItem (fun _ _ _ ht => BodyWf.done (memoriesWf_setAcc ht)) hm
  | xadd | xmac =>
    dsimp only [exec, execXadd, execXmac]
    exact memoriesWf_runItem (fun _ _ _ ht => memoriesWf_xaddBody ht) hm
  | xrnd => dsimp only [exec, execXrnd]; exact memoriesWf_runItem (fun _ _ _ ht => memoriesWf_xrndBody ht) hm
  | xsave => dsimp only [exec, execXsave]; exact memoriesWf_runItem (fun _ _ _ ht => memoriesWf_xsaveBody ht) hm
  | xload => dsimp only [exec, execXload]; exact memoriesWf_runItem (fun _ _ _ ht => memoriesWf_xloadBody ht) hm
  | shfl | shfli | bcast | ballot | matchK | compact | actmask =>
    dsimp only [exec]
    exact memoriesWf_runCross hm
  | vote | pput =>
    dsimp only [exec, execVote, execPput]
    exact memoriesWf_runItem (fun _ _ _ ht => BodyWf.done (memoriesWf_consumeAll ht)) hm
  | scan | sred =>
    dsimp only [exec, execScan, execSred]
    exact memoriesWf_runItem (fun _ _ _ ht => memoriesWf_scanBody ht) hm
  | pcfg => dsimp only [exec, execPcfg]; exact memoriesWf_runItem (fun _ _ _ ht => memoriesWf_pcfgBody ht) hm
  | perm => exact memoriesWf_execPerm hm
  | regroup => exact memoriesWf_execRegroup hm
  | regroupDeal => exact memoriesWf_execRegroupDeal hm
  | sel | pget | txs =>
    dsimp only [exec, execSel, execPget, execTxs]
    exact memoriesWf_runItem (fun _ _ _ ht => memoriesWf_laneBody ht) hm
  | plop => dsimp only [exec, execPlop]; exact memoriesWf_runItem (fun _ _ _ ht => memoriesWf_predBody ht) hm
  | rand => exact memoriesWf_execRand hm
  | getid =>
    dsimp only [exec, execGetid]
    exact memoriesWf_runItem (fun _ _ _ ht => BodyWf.done (memoriesWf_pushDest ht)) hm
  | ldS | ldL =>
    dsimp only [exec, execLdS, execLdL]
    exact memoriesWf_runItem (fun _ _ _ ht => memoriesWf_ldBody ht) hm
  | stS | stL =>
    dsimp only [exec, execStS, execStL]
    exact memoriesWf_runItem (fun _ _ _ ht => memoriesWf_stBody ht) hm
  | ldsS | ldsL =>
    dsimp only [exec, execLdsS, execLdsL]
    exact memoriesWf_runItem (fun _ _ _ ht => memoriesWf_ldsBody ht) hm
  | stsS | stsL =>
    dsimp only [exec, execStsS, execStsL]
    exact memoriesWf_runItem (fun _ _ _ ht => memoriesWf_stsBody ht) hm
  | ldxS | ldxL | stxS | stxL =>
    dsimp only [exec, execLdxS, execLdxL, execStxS, execStxL]
    exact memoriesWf_runItem (fun _ _ _ ht => memoriesWf_carvedBody ht) hm
  | prefS | prefL =>
    dsimp only [exec, execPrefS, execPrefL]
    exact memoriesWf_runItem (fun _ _ _ ht => memoriesWf_prefBody ht) hm
  | linv => exact memoriesWf_execLinv hm
  | cas | red | xred | xfin =>
    dsimp only [exec, execCas, execRed, execXred, execXfin]
    exact memoriesWf_runItem (fun _ _ _ ht => memoriesWf_updateBody ht) hm
  | boff =>
    dsimp only [exec, execBoff]
    exact memoriesWf_runItem (fun _ _ _ ht => BodyWf.done (memoriesWf_modGrp ht)) hm
  | sqcfg => exact memoriesWf_execSqcfg hm
  | sqgo => exact memoriesWf_execSqgo hm
  | sqstop => exact memoriesWf_execSqstop hm
  | sqstat => exact memoriesWf_execSqstat hm
  | cpy => exact memoriesWf_execCpy hm
  | cseal => exact memoriesWf_execCseal hm
  | cwait => exact memoriesWf_execCwait hm
  | cpoll | fence | csrr | csrw | gettime =>
    dsimp only [exec, execCpoll, execFence, execCsrr, execCsrw, execGettime]
    exact memoriesWf_runItem (fun _ _ _ ht => BodyWf.done ht) hm
  | mdecl => exact memoriesWf_execMdecl hm
  | mdeclRel => exact memoriesWf_execMdeclRel hm
  | mma => dsimp only [exec, execMma]; exact memoriesWf_runItem (fun _ _ _ ht => memoriesWf_mmaBody ht) hm
  | mldb => exact memoriesWf_execMldb hm
  | mzero => exact memoriesWf_execMzero hm
  | mdrn => exact memoriesWf_execMdrn hm
  | msta | mldc =>
    dsimp only [exec, execMsta, execMldc]
    exact memoriesWf_runItem (fun _ _ _ ht => memoriesWf_tileBody ht) hm
  | macq | mrel =>
    dsimp only [exec, execMacq, execMrel]
    exact memoriesWf_runItem (fun _ _ _ ht => BodyWf.done (memoriesWf_modQuart ht)) hm
  | phreg => exact memoriesWf_execPhreg hm
  | phdrop => exact memoriesWf_execPhdrop hm
  | phsig => exact memoriesWf_execPhsig hm
  | phwait => exact memoriesWf_execPhwait hm
  | phnxt => exact memoriesWf_execPhnxt hm
  | phnxtSpec => exact memoriesWf_execPhnxtSpec hm
  | phstat => exact memoriesWf_execPhstat hm
  | gred => exact memoriesWf_execGred hm
  | gres => exact memoriesWf_execGres hm
  | txb | txbOrd =>
    dsimp only [exec, execTxb, execTxbOrd]
    exact memoriesWf_runItem (fun _ _ _ ht => memoriesWf_txbBody ht) hm
  | txe => dsimp only [exec, execTxe]; exact memoriesWf_runItem (fun _ _ _ ht => memoriesWf_txeBody ht) hm
  | txa =>
    dsimp only [exec, execTxa]
    exact memoriesWf_runItem (fun _ _ _ ht => BodyWf.done (memoriesWf_abortLanes ht)) hm
  | icinv =>
    dsimp only [exec, execIcinv]
    exact memoriesWf_runItem (fun _ _ _ ht => BodyWf.done (memoriesWf_dropInstr ht)) hm
  | l2way | l2wayQ =>
    dsimp only [exec, execL2way, execL2wayQ]
    exact memoriesWf_runItem (fun _ _ _ ht => BodyWf.done (memoriesWf_modPart ht)) hm
  | mbox => exact memoriesWf_execMbox hm
  | halt => exact memoriesWf_execHalt hm
  | pairedWord =>
    dsimp only [exec, execPairedWord]
    exact memoriesWf_runItem (fun _ _ _ ht => memoriesWf_pairBody ht) hm
  | unassignedEncoding =>
    dsimp only [exec, execUnassignedEncoding]
    exact memoriesWf_runItem (fun _ _ _ _ => BodyWf.fault) hm
  | escalationPostDeferred => dsimp only [exec]; exact OutWf.next (SomeWf.getD (memoriesWf_postDeferred hm) hm)
  | mailboxReply => exact memoriesWf_execMailboxReply hm
  | mailboxControlClear => exact memoriesWf_execMailboxControlClear hm
  | pcPromote => dsimp only [exec]; exact OutWf.next (SomeWf.getD (memoriesWf_promotePc hm) hm)
  | agingPromote => dsimp only [exec]; exact OutWf.next (SomeWf.getD (memoriesWf_ageGroup hm) hm)
  | yieldDemotionEnd => dsimp only [exec]; exact OutWf.next (SomeWf.getD (memoriesWf_endDemotion hm) hm)
  | sleepExpiry => dsimp only [exec]; exact OutWf.next (SomeWf.getD (memoriesWf_wakeThread hm) hm)
  | parkExpiry => dsimp only [exec]; exact OutWf.next (SomeWf.getD (memoriesWf_unparkThread hm) hm)
  | instructionComplete => dsimp only [exec]; exact OutWf.next (SomeWf.getD (memoriesWf_completeNow hm) hm)
  | sliceFillRequest => dsimp only [exec]; exact OutWf.next (SomeWf.getD (memoriesWf_serveRead hm) hm)
  | evictionEntryDiscard => dsimp only [exec]; exact OutWf.next (SomeWf.getD (memoriesWf_discardLease hm) hm)
  | memoryFillReturn => dsimp only [exec]; exact OutWf.next (SomeWf.getD (memoriesWf_memoryFill hm) hm)
  | fillReturn => dsimp only [exec]; exact OutWf.next (SomeWf.getD (memoriesWf_fillReturn hm) hm)
  | tlbWalk => dsimp only [exec]; exact OutWf.next (SomeWf.getD (memoriesWf_tlbWalk hm) hm)
  | adCompareSwap => dsimp only [exec]; exact OutWf.next (SomeWf.getD (memoriesWf_adSwap hm) hm)
  | publicationArrive => dsimp only [exec]; exact OutWf.next (SomeWf.getD (memoriesWf_arrivePub hm) hm)
  | writeApply | crucibleCas | crucibleRed | crucibleXred | crucibleXfin | tileAddOnStore =>
    dsimp only [exec]
    exact memoriesWf_applyKind hm
  | writeback => dsimp only [exec]; exact OutWf.next (SomeWf.getD (memoriesWf_writebackLine hm) hm)
  | snapshotPoolRefill => exact memoriesWf_execSnapshotPoolRefill hm
  | releaseComplete => dsimp only [exec]; exact OutWf.next (SomeWf.getD (memoriesWf_advanceRelease hm) hm)
  | fenceMarker => dsimp only [exec]; exact OutWf.next (SomeWf.getD (memoriesWf_answerMarker hm) hm)
  | residencyProbe => dsimp only [exec]; exact OutWf.next (SomeWf.getD (memoriesWf_answerProbe hm) hm)
  | carvewWrite => exact memoriesWf_execCarvewWrite hm
  | carveChangeComplete => dsimp only [exec]; exact OutWf.next (SomeWf.getD (memoriesWf_carveStep hm) hm)
  | requestCounterWrite => exact memoriesWf_execRequestCounterWrite hm
  | snpInv | snpData | snpCur =>
    dsimp only [exec]
    exact OutWf.next (memoriesWf_arriveHost hm)
  | cxlReadResponse => dsimp only [exec]; exact OutWf.next (SomeWf.getD (memoriesWf_cxlAnswer hm) hm)
  | hostMemRead => exact memoriesWf_execHostMemRead hm
  | hostMemWrite => exact memoriesWf_execHostMemWrite hm
  | biResponse => exact memoriesWf_execBiResponse hm
  | streamElementRequest => dsimp only [exec]; exact OutWf.next (SomeWf.getD (memoriesWf_portStep hm) hm)
  | streamReadReturn => dsimp only [exec]; exact OutWf.next (SomeWf.getD (memoriesWf_portReturn hm) hm)
  | streamWriteApplied => exact memoriesWf_execStreamWriteApplied hm
  | streamStopComplete => dsimp only [exec]; exact OutWf.next (SomeWf.getD (memoriesWf_stopStream hm) hm)
  | copyComplete => dsimp only [exec]; exact OutWf.next (SomeWf.getD (memoriesWf_endCopy hm) hm)
  | matrixQueueEnter => dsimp only [exec]; exact OutWf.next (SomeWf.getD (memoriesWf_cvNote hm) hm)
  | mmaStart => dsimp only [exec]; exact OutWf.next (SomeWf.getD (memoriesWf_mmaStart hm) hm)
  | mmaComplete => dsimp only [exec]; exact OutWf.next (SomeWf.getD (memoriesWf_mmaComplete hm) hm)
  | matrixMemoryOpComplete => dsimp only [exec]; exact OutWf.next (SomeWf.getD (memoriesWf_matrixEnd hm) hm)
  | drainRowMove => dsimp only [exec]; exact OutWf.next (SomeWf.getD (memoriesWf_drainMove hm) hm)
  | reservationRelease => dsimp only [exec]; exact OutWf.next (SomeWf.getD (memoriesWf_releaseTiles hm) hm)
  | claimantExpiry => dsimp only [exec]; exact OutWf.next (SomeWf.getD (memoriesWf_expireClaim hm) hm)
  | phaseEnd => dsimp only [exec]; exact OutWf.next (SomeWf.getD (memoriesWf_endPhase hm) hm)
  | specRollback => dsimp only [exec]; exact OutWf.next (SomeWf.getD (memoriesWf_rollbackSpec hm) hm)
  | gredDeferredContribute => dsimp only [exec]; exact OutWf.next (SomeWf.getD (memoriesWf_gredLate hm) hm)
  | gresResult => dsimp only [exec]; exact OutWf.next (SomeWf.getD (memoriesWf_gresTake hm) hm)
  | commitRound => dsimp only [exec]; exact OutWf.next (SomeWf.getD (memoriesWf_formRound hm) hm)
  | commitLock => dsimp only [exec]; exact OutWf.next (SomeWf.getD (memoriesWf_lockNext hm) hm)
  | commitApply => dsimp only [exec]; exact OutWf.next (SomeWf.getD (memoriesWf_commitApply hm) hm)
  | commitUnlock => dsimp only [exec]; exact OutWf.next (SomeWf.getD (memoriesWf_commitUnlock hm) hm)
  | txAbort => dsimp only [exec]; exact OutWf.next (SomeWf.getD (memoriesWf_txAbort hm) hm)
  | txLimit => dsimp only [exec]; exact OutWf.next (SomeWf.getD (memoriesWf_txLimit hm) hm)
  | orderTokenPass => dsimp only [exec]; exact OutWf.next (SomeWf.getD (memoriesWf_passToken hm) hm)
  | irrevocableTokenGrant => dsimp only [exec]; exact OutWf.next (SomeWf.getD (memoriesWf_grantToken hm) hm)
  | nopCommand => dsimp only [exec]; exact OutWf.next (SomeWf.getD (memoriesWf_nopEntry hm) hm)
  | launchCommand => dsimp only [exec]; exact OutWf.next (SomeWf.getD (memoriesWf_launchEntry hm) hm)
  | endCommand => dsimp only [exec]; exact OutWf.next (SomeWf.getD (memoriesWf_endEntry hm) hm)
  | switchCommand => dsimp only [exec]; exact OutWf.next (SomeWf.getD (memoriesWf_switchEntry hm) hm)
  | malformedEntry => dsimp only [exec]; exact OutWf.next (SomeWf.getD (memoriesWf_malformedEntry hm) hm)
  | qtailWrite => exact memoriesWf_execQtailWrite hm
  | dependenceCheck => dsimp only [exec]; exact OutWf.next (SomeWf.getD (memoriesWf_checkDependences hm) hm)
  | launchStart => dsimp only [exec]; exact OutWf.next (SomeWf.getD (memoriesWf_startLaunch hm) hm)
  | teamDeal => dsimp only [exec]; exact OutWf.next (SomeWf.getD (memoriesWf_dealTeam hm) hm)
  | teamPlace => exact memoriesWf_execTeamPlace hm
  | teamSteal => dsimp only [exec]; exact OutWf.next (SomeWf.getD (memoriesWf_stealTeam hm) hm)
  | teamEnd => dsimp only [exec]; exact OutWf.next (SomeWf.getD (memoriesWf_endTeam hm) hm)
  | recordWriteDeferred => dsimp only [exec]; exact OutWf.next (SomeWf.getD (memoriesWf_writeHeld hm) hm)
  | rheadWrite => exact memoriesWf_execRheadWrite hm
  | ringInterrupt => dsimp only [exec]; exact OutWf.next (SomeWf.getD (memoriesWf_ringInterrupt hm) hm)
  | contextSwitch => dsimp only [exec]; exact OutWf.next (SomeWf.getD (memoriesWf_switchCore hm) hm)
  | contextRestore => dsimp only [exec]; exact OutWf.next (SomeWf.getD (memoriesWf_restoreCore hm) hm)
  | quantumExpiry => dsimp only [exec]; exact OutWf.next (SomeWf.getD (memoriesWf_quantumExpiry hm) hm)
  | patrolScrub | lineageErase => dsimp only [exec]; exact OutWf.next hm
  | assayRunComplete => dsimp only [exec]; exact OutWf.next (SomeWf.getD (memoriesWf_assayRun hm) hm)
  | assaycfgWrite => exact memoriesWf_execAssaycfgWrite hm
  | healthClear => exact memoriesWf_execHealthClear hm
  | partitionCreate => exact memoriesWf_execPartitionCreate hm
  | partitionTeardown => dsimp only [exec]; exact OutWf.next (SomeWf.getD (memoriesWf_tearDown hm) hm)
  | registerWrite => exact memoriesWf_execRegisterWrite hm
  | deviceReset => exact memoriesWf_execDeviceReset hm
  | slicePowerGate => dsimp only [exec]; exact OutWf.next (SomeWf.getD (memoriesWf_gateSlice hm) hm)
  | coldStart => exact memoriesWf_execColdStart hm
  | warmStart => exact memoriesWf_execWarmStart hm
  | startTimeout => exact memoriesWf_execStartTimeout hm
  | recoveryMode => exact memoriesWf_execRecoveryMode hm
  | recoveryImageLoad => exact memoriesWf_execRecoveryImageLoad hm
  | powerThrottle => dsimp only [exec]; exact OutWf.next (memoriesWf_modCore hm)
  | nonce => exact memoriesWf_execNonce hm
  | report => exact memoriesWf_execReport hm
  | sealfin => exact memoriesWf_execSealfin hm
  | wrap => exact memoriesWf_execWrap hm
  | restore => exact memoriesWf_execRestore hm
  | restorefin => exact memoriesWf_execRestorefin hm
  | witnessSeal | witnessClaim | witnessRelease | witnessQuery =>
    dsimp only [exec]
    exact memoriesWf_witnessOp hm
  | imextWrite => exact memoriesWf_execImextWrite hm
  | runnerRemoteContribution => exact memoriesWf_execRunnerRemoteContribution hm
  | remoteMemoryMove => exact memoriesWf_execRemoteMemoryMove hm
  | slicePowerRestore => exact memoriesWf_execSlicePowerRestore hm
  -- The constructor that is left is SEAL's, whose name is a keyword of Lean.
  | _ => exact memoriesWf_execSeal hm

/-! ## The issue stage -/

theorem memoriesWf_issueAt {s : State} (hm : MemoriesWf s) {gid : Nat} {pc : Word} {act : Mask} :
    SomeWf OutWf (issueAt s gid pc act) := by
  unfold issueAt
  refine keeps_ite SomeWf.none (keeps_ite SomeWf.none ?_)
  split
  · exact SomeWf.some (OutWf.next (keeps_ite (memoriesWf_deliver (memoriesWf_fetchLines hm)) (memoriesWf_raiseFault
        (memoriesWf_fetchLines hm))))
  · split
    · exact keeps_ite SomeWf.none (SomeWf.some (OutWf.next (OutWf.of_next (memoriesWf_exec (memoriesWf_update
          (memoriesWf_fetchLines hm))) ‹_›)))
    · exact SomeWf.some (memoriesWf_exec (memoriesWf_update (memoriesWf_fetchLines hm)))

theorem memoriesWf_candidates {s : State} (hm : MemoriesWf s) {gid : Nat} :
    ∀ c ∈ candidates s gid, OutWf c.2.2 := by
  intro c hc
  obtain ⟨pc, _, h⟩ := List.mem_filterMap.1 hc
  obtain ⟨o, ho, rfl⟩ := Option.map_eq_some_iff.1 h
  exact SomeWf.of_eq (memoriesWf_issueAt hm) ho

theorem memoriesWf_andThen {o : Out} (ho : OutWf o) {f : State → Option Out}
    (hf : ∀ t, MemoriesWf t → SomeWf OutWf (f t)) : OutWf (andThen o f) := by
  cases o with
  | next t => exact SomeWf.getD (hf t (OutWf.of_next ho rfl)) ho
  | fault r => exact ho
  | refused r => exact ho

theorem memoriesWf_issueGroup {s : State} (hm : MemoriesWf s) {gid : Nat} : SomeWf OutWf (issueGroup s gid) := by
  have all := memoriesWf_candidates hm (gid := gid)
  unfold issueGroup
  split
  · exact SomeWf.none
  · rename_i pc act o e
    exact SomeWf.some (all _ (e ▸ List.mem_cons_self))
  · rename_i pc1 act1 o1 pc2 act2 o2 rest e
    have h1 : OutWf o1 := all (pc1, act1, o1) (e ▸ List.mem_cons_self)
    have h2 : OutWf o2 := all (pc2, act2, o2) (e ▸ List.mem_cons_of_mem _ List.mem_cons_self)
    split
    · rename_i t1 t2
      refine keeps_ite (SomeWf.some h1) ?_
      have follow : ∀ pc act t, MemoriesWf t → SomeWf OutWf (issueAt t gid pc act) :=
        fun _ _ _ ht => memoriesWf_issueAt ht
      split
      · dsimp only
        split
        · rename_i ho
          exact SomeWf.some (SomeWf.of_eq (keeps_ite (follow _ _ _ (OutWf.of_next h2 rfl)) SomeWf.none) ho)
        · exact SomeWf.some (memoriesWf_andThen h1 (follow _ _))
      · exact SomeWf.some (memoriesWf_andThen h1 (follow _ _))
      · exact SomeWf.some (memoriesWf_andThen h2 (follow _ _))
      · exact SomeWf.some h1
    · exact SomeWf.some h1

theorem memoriesWf_readyGroups {s : State} (hm : MemoriesWf s) {n : Nat} : ∀ e ∈ readyGroups s n, OutWf e.2 := by
  intro e he
  obtain ⟨gid, _, h⟩ := List.mem_filterMap.1 he
  obtain ⟨o, ho, rfl⟩ := Option.map_eq_some_iff.1 h
  exact SomeWf.of_eq (memoriesWf_issueGroup hm) ho

theorem mem_of_chosen {s : State} {rs : List (Nat × Out)} {e : Nat × Out} (h : chosen s rs = some e) : e ∈ rs := by
  unfold chosen at h
  split at h
  · rename_i hf
    exact Option.some.inj h ▸ List.mem_of_find?_eq_some hf
  · exact List.mem_of_head? h

theorem memoriesWf_noteWaiting {n gid : Nat} {ready : List Nat} {s : State} (hm : MemoriesWf s) :
    MemoriesWf (noteWaiting n gid ready s) :=
  hm

theorem memoriesWf_beforePick {s : State} (hm : MemoriesWf s) {n : Nat} : MemoriesWf (beforePick s n) :=
  keeps_foldl (fun _ _ ht => keeps_ite (memoriesWf_enterBlocks ht) ht) hm

theorem memoriesWf_noteIdle {s : State} (hm : MemoriesWf s) {n : Nat} : MemoriesWf (noteIdle s n) :=
  keeps_ite hm hm

theorem memoriesWf_passCycle {s : State} (hm : MemoriesWf s) : MemoriesWf (passCycle s) :=
  memoriesWf_sysRun (memoriesWf_tickCycle (keeps_foldl (fun _ _ ht => memoriesWf_noteIdle ht) hm))

theorem memoriesWf_pickQuarter {s : State} (hm : MemoriesWf s) {n : Nat} : SomeWf OutWf (pickQuarter s n) := by
  unfold pickQuarter
  refine keeps_ite SomeWf.none (SomeWf.map fun e he => ?_)
  have picked : OutWf e.2 := memoriesWf_readyGroups (memoriesWf_beforePick hm) e (mem_of_chosen he)
  extract_lets g o other
  have ho : OutWf o := by
    unfold o
    split
    · exact OutWf.next (memoriesWf_noteWaiting (OutWf.of_next picked ‹_›))
    · exact picked
  clear_value other
  split
  · exact ho
  · exact memoriesWf_andThen ho fun _ ht => memoriesWf_issueGroup ht

/-! ## What is due -/

theorem memoriesWf_firstDue {α : Type} {xs : List α} {f : α → Option State}
    (hm : ∀ (a : α), SomeWf MemoriesWf (f a)) : SomeWf MemoriesWf (firstDue xs f) :=
  SomeWf.findSome (fun _ => hm _)

theorem memoriesWf_dueLane {s : State} (hm : MemoriesWf s) {gid l : Nat} : SomeWf MemoriesWf (dueLane s gid l) :=
  SomeWf.orElse (memoriesWf_wakeThread hm) (SomeWf.orElse (memoriesWf_unparkThread hm) (SomeWf.orElse
      (memoriesWf_txAbort hm) (SomeWf.orElse (memoriesWf_txLimit hm) (memoriesWf_grantToken hm))))

theorem memoriesWf_dueOp {s : State} (hm : MemoriesWf s) {gid op : Nat} : SomeWf MemoriesWf (dueOp s gid op) :=
  SomeWf.orElse (memoriesWf_gredLate hm) (SomeWf.orElse (memoriesWf_gresTake hm) (memoriesWf_completeNow hm))

theorem memoriesWf_dueQueue {s : State} (hm : MemoriesWf s) {gid qn : Nat} :
    SomeWf MemoriesWf (dueQueue s gid qn) :=
  SomeWf.orElse (memoriesWf_writtenHead hm) (memoriesWf_stopStream hm)

theorem memoriesWf_dueGroup {s : State} (hm : MemoriesWf s) {e : Nat × Group} : SomeWf MemoriesWf (dueGroup s e) :=
  SomeWf.orElse (memoriesWf_rollbackSpec hm) (SomeWf.orElse (memoriesWf_lockNext hm) (SomeWf.orElse
      (memoriesWf_commitApply hm) (SomeWf.orElse (memoriesWf_commitUnlock hm) (SomeWf.orElse (memoriesWf_firstDue (fun
      _ => memoriesWf_dueOp hm)) (SomeWf.orElse (memoriesWf_firstDue (fun _ => memoriesWf_dueLane hm)) (SomeWf.orElse
      (keeps_ite (memoriesWf_firstDue (fun _ => memoriesWf_dueQueue hm)) SomeWf.none) (SomeWf.orElse
      (memoriesWf_firstDue (fun _ => memoriesWf_drainMove hm)) (SomeWf.orElse (memoriesWf_formRound hm) (SomeWf.orElse
      (memoriesWf_firstDue (fun _ => memoriesWf_promotePc hm)) (SomeWf.orElse (memoriesWf_firstDue (fun _ =>
      memoriesWf_endDemotion hm)) (memoriesWf_ageGroup hm)))))))))))

theorem memoriesWf_dueSlice {s : State} (hm : MemoriesWf s) {e : Nat × Slice} : SomeWf MemoriesWf (dueSlice s e) :=
  SomeWf.orElse (memoriesWf_firstDue (fun _ => SomeWf.orElse (memoriesWf_tlbWalk hm) (SomeWf.orElse
      (memoriesWf_adSwap hm) (memoriesWf_memoryFill hm)))) (SomeWf.orElse (memoriesWf_firstDue (fun _ =>
      memoriesWf_applyPub hm)) (memoriesWf_firstDue (fun _ => memoriesWf_discardLease hm)))

theorem memoriesWf_dueAnswer {s : State} (hm : MemoriesWf s) {e : Nat × Slice} :
    SomeWf MemoriesWf (dueAnswer s e) :=
  memoriesWf_firstDue (fun _ => memoriesWf_firstDue (fun _ => SomeWf.bind (fun _ _ => memoriesWf_cxlAnswer hm)))

theorem memoriesWf_dueRecall {s : State} (hm : MemoriesWf s) : SomeWf MemoriesWf (dueRecall s) := by
  unfold dueRecall
  refine SomeWf.bind (fun _ _ => ?_)
  split
  · exact SomeWf.some (OutWf.of_next (memoriesWf_execBiResponse hm) ‹_›)
  · exact SomeWf.none

theorem memoriesWf_dueFlight {s : State} (hm : MemoriesWf s) : SomeWf MemoriesWf (dueFlight s) :=
  SomeWf.orElse (memoriesWf_firstDue (fun _ => SomeWf.orElse (memoriesWf_portReturn hm) (SomeWf.orElse
      (memoriesWf_fillReturn hm) (memoriesWf_serveRead hm)))) (SomeWf.orElse (memoriesWf_firstDue (fun _ =>
      memoriesWf_arrivePub hm)) (SomeWf.orElse (memoriesWf_firstDue (fun _ => SomeWf.orElse (memoriesWf_advanceRelease
      hm) (memoriesWf_firstDue (fun _ => memoriesWf_answerMarker hm)))) (memoriesWf_firstDue (fun _ =>
      memoriesWf_answerProbe hm))))

theorem memoriesWf_dueFunc {s : State} (hm : MemoriesWf s) {vf : Nat} {f : Func} :
    SomeWf MemoriesWf (dueFunc s vf f) :=
  SomeWf.orElse (memoriesWf_firstDue (fun _ => SomeWf.orElse (memoriesWf_writeHeld hm) (memoriesWf_ringInterrupt
      hm))) (memoriesWf_firstDue (fun _ => SomeWf.orElse (memoriesWf_nopEntry hm) (SomeWf.orElse
      (memoriesWf_launchEntry hm) (SomeWf.orElse (memoriesWf_endEntry hm) (SomeWf.orElse (memoriesWf_switchEntry hm)
      (memoriesWf_malformedEntry hm))))))

theorem memoriesWf_duePart {s : State} (hm : MemoriesWf s) {e : Nat × Machine.Partition} :
    SomeWf MemoriesWf (duePart s e) :=
  SomeWf.orElse (memoriesWf_carveStep hm) (SomeWf.orElse (memoriesWf_checkDependences hm) (SomeWf.orElse
      (keeps_ite (memoriesWf_tearDown hm) SomeWf.none) (memoriesWf_firstDue (fun _ => memoriesWf_dueFunc hm))))

theorem memoriesWf_dueLaunch {s : State} (hm : MemoriesWf s) {e : Nat × Launch} :
    SomeWf MemoriesWf (dueLaunch s e) :=
  SomeWf.orElse (memoriesWf_passToken hm) (SomeWf.orElse (memoriesWf_startLaunch hm) (memoriesWf_dealTeam hm))

theorem memoriesWf_dueTeam {s : State} (hm : MemoriesWf s) {e : Nat × Team} : SomeWf MemoriesWf (dueTeam s e) :=
  SomeWf.orElse (memoriesWf_endTeam hm) (SomeWf.orElse (memoriesWf_assayRun hm) (memoriesWf_firstDue (fun _ =>
      memoriesWf_regroupDeal hm)))

theorem memoriesWf_dueSlot {s : State} (hm : MemoriesWf s) {core n : Nat} {x : Slot} :
    SomeWf MemoriesWf (dueSlot s core n x) := by
  have out : SomeWf OutWf (if !x.full then none
      else if x.replied then some (execMailboxControlClear core n true true s)
      else (firmwareReply s x).map fun v => execMailboxReply core n v s) :=
    keeps_ite SomeWf.none (keeps_ite (SomeWf.some (memoriesWf_execMailboxControlClear hm))
      (SomeWf.map fun _ _ => memoriesWf_execMailboxReply hm))
  refine SomeWf.bind fun o ho => ?_
  have next := SomeWf.of_eq out ho
  split
  · exact SomeWf.some (OutWf.of_next next rfl)
  · exact SomeWf.none

theorem memoriesWf_dueCore {s : State} (hm : MemoriesWf s) {e : Nat × Core} : SomeWf MemoriesWf (dueCore s e) :=
  SomeWf.orElse (memoriesWf_postDeferred hm) (SomeWf.orElse (memoriesWf_firstDue (fun _ => memoriesWf_dueSlot
      hm)) (SomeWf.orElse (memoriesWf_firstDue (fun _ => memoriesWf_endCopy hm)) (SomeWf.orElse (memoriesWf_switchCore
      hm) (SomeWf.orElse (memoriesWf_quantumExpiry hm) (SomeWf.orElse (memoriesWf_restoreCore hm) (memoriesWf_portStep
      hm))))))

theorem memoriesWf_dueQuarter {s : State} (hm : MemoriesWf s) {e : Nat × Quarter} :
    SomeWf MemoriesWf (dueQuarter s e) :=
  SomeWf.orElse (memoriesWf_firstDue (fun _ => memoriesWf_cvNote hm)) (SomeWf.orElse (memoriesWf_mmaStart hm)
      (SomeWf.orElse (memoriesWf_firstDue (fun _ => SomeWf.orElse (memoriesWf_mmaComplete hm) (memoriesWf_matrixEnd
      hm))) (SomeWf.orElse (memoriesWf_releaseTiles hm) (memoriesWf_expireClaim hm))))

theorem memoriesWf_duePlace {s : State} (hm : MemoriesWf s) : SomeWf MemoriesWf (duePlace s) :=
  SomeWf.orElse (memoriesWf_firstDue (fun _ => memoriesWf_startPlaced hm)) (SomeWf.orElse (memoriesWf_firstDue
      (fun _ => memoriesWf_placeHead hm)) (keeps_ite SomeWf.none (memoriesWf_firstDue (fun _ => memoriesWf_stealTeam
      hm))))

theorem memoriesWf_dueIngot {s : State} (hm : MemoriesWf s) : SomeWf OutWf (dueIngot s) := by
  unfold dueIngot
  refine keeps_ite SomeWf.none ?_
  split
  · exact SomeWf.some (memoriesWf_execNonce hm)
  · exact SomeWf.some (memoriesWf_execReport hm)
  · exact keeps_ite SomeWf.none (SomeWf.some (memoriesWf_execSeal hm))
  · exact SomeWf.some (memoriesWf_execSealfin hm)
  · exact SomeWf.some (memoriesWf_execWrap hm)
  · exact SomeWf.some (memoriesWf_execRestore hm)
  · exact SomeWf.some (memoriesWf_execRestorefin hm)
  · exact SomeWf.some (memoriesWf_witnessOp hm)
  · exact SomeWf.none

theorem memoriesWf_dueEvent {s : State} (hm : MemoriesWf s) : SomeWf OutWf (dueEvent s) := by
  unfold dueEvent
  dsimp only
  split
  · exact SomeWf.some (OutWf.next (SomeWf.of_eq (SomeWf.orElse (memoriesWf_firstDue (fun _ => memoriesWf_dueGroup hm))
        (SomeWf.orElse (memoriesWf_dueFlight hm) (SomeWf.orElse (memoriesWf_firstDue (fun _ => memoriesWf_dueSlice
        hm)) (SomeWf.orElse (memoriesWf_firstDue (fun _ => memoriesWf_dueQuarter hm)) (SomeWf.orElse
        (memoriesWf_firstDue (fun _ => memoriesWf_dueCore hm)) (SomeWf.orElse (memoriesWf_firstDue (fun _ =>
        memoriesWf_endPhase hm)) (SomeWf.orElse (memoriesWf_firstDue (fun _ => memoriesWf_dueTeam hm)) (SomeWf.orElse
        (memoriesWf_firstDue (fun _ => memoriesWf_dueLaunch hm)) (SomeWf.orElse (memoriesWf_duePlace hm)
        (SomeWf.orElse (memoriesWf_firstDue (fun _ => memoriesWf_duePart hm)) (SomeWf.orElse (memoriesWf_hostStep hm)
        (SomeWf.orElse (memoriesWf_firstDue (fun _ => memoriesWf_dueAnswer hm)) (memoriesWf_dueRecall hm)))))))))))))
        ‹_›))
  · exact memoriesWf_dueIngot hm

theorem memoriesWf_runAction {a : Machine.Action} {s : State} (hm : MemoriesWf s) : OutWf (runAction a s) := by
  unfold runAction
  split
  · exact OutWf.next (memoriesWf_passCycle hm)
  · exact SomeWf.getD (memoriesWf_pickQuarter hm) (OutWf.next hm)
  · exact memoriesWf_exec hm
  · exact OutWf.next (memoriesWf_softError hm)
  · exact OutWf.next (memoriesWf_say hm)
  · exact memoriesWf_writeRegister hm
  · exact OutWf.next (memoriesWf_managerAccess hm)
  · exact OutWf.next (memoriesWf_managerAccess hm)
  · exact keeps_ite OutWf.fault (OutWf.next (memoriesWf_arriveHost hm))
  · exact OutWf.next (memoriesWf_joinObject hm)
  · exact OutWf.next (memoriesWf_modCore hm)
  · exact OutWf.next (memoriesWf_refillInstr hm)
  · exact OutWf.next (memoriesWf_keepLine hm)
  · exact OutWf.next (memoriesWf_modGrpIf hm)

theorem memoriesWf_firstPick {s : State} (hm : MemoriesWf s) {ns : List Nat} : SomeWf OutWf (firstPick s ns) := by
  induction ns with
  | nil => exact SomeWf.none
  | cons n ns ih =>
    unfold firstPick
    split
    · rename_i e
      exact SomeWf.some (SomeWf.of_eq (memoriesWf_pickQuarter hm) e)
    · exact ih

theorem memoriesWf_ownStep {s : State} (hm : MemoriesWf s) : OutWf (ownStep s) := by
  unfold ownStep
  refine keeps_ite (OutWf.next (memoriesWf_coldStart hm)) (keeps_ite (memoriesWf_execRecoveryMode hm) ?_)
  split
  · exact SomeWf.of_eq (memoriesWf_dueEvent hm) ‹_›
  · split
    · exact SomeWf.of_eq (memoriesWf_firstPick hm) ‹_›
    · exact OutWf.next (memoriesWf_passCycle hm)

/-! ## The step -/

theorem memoriesWf_step {s : State} (hm : MemoriesWf s) : OutWf (step s) := by
  unfold step
  split
  · exact memoriesWf_runAction hm
  · exact memoriesWf_ownStep hm

/-- Settles O50, by the lemmas of the functions that a step is made of. -/
theorem stepKeepsMemories : Obligations.StepKeepsMemories := by
  unfold Obligations.StepKeepsMemories
  intro s t hm e
  exact OutWf.of_next (memoriesWf_step hm) e

end Sys2Proof.Machine
end

section
/-! PROOF. ControlClass.lean: the instructions of class 0x000: transfers, EXIT, YIELD, SLEEP, TRAP, BRK, TFENCE and ERET
(R360, R361, R365, R368, R379 to R381), and what a trap entry banks (R366, R368 to R370). -/

namespace Sys2Proof.Machine

/-! ## Transfers (R360) -/

/-- A target that is a multiple of 4 and holds a header that can be fetched fails no check. -/
theorem targetFail_none {s : State} {gid lane v n : Nat} {pc target : Word} (ha : target.toNat % 4 = 0)
    (hf : fetchItem (fetchFor s gid pc lane target.toNat) gid target.toNat = .ok (v, n)) (hv : v % 4 = 3) :
    targetFail s gid pc lane target = none := by
  simp [targetFail, ha, hf, hv]

/-- An instruction whose body transfers its lanes. -/
theorem transfers_of {ins : Instr} {it : Item} {link : Option Opnd} {target : Issue → Nat → State → Word}
    (hx : ∀ s, exec ins s = runItem it (transferBody link target) s) : Transfers ins it link target :=
  takes_of hx fun s i ex hi hok => by
    have hne : ex ≠ 0 := hi.2.2.2.1
    have hfs : (((lanesOf (grpAt s i.gid).width ex).map fun l => (l, target i l s)).filterMap fun t =>
        (targetFail s i.gid i.pc t.1 t.2).map fun f => (t.1, f)) = [] := by
      refine List.filterMap_eq_nil_iff.2 fun t ht => ?_
      obtain ⟨l, hl, rfl⟩ := List.mem_map.1 ht
      obtain ⟨ha, v, n, hf, hv⟩ := hok l hl
      rw [targetFail_none ha hf hv, Option.map_none]
    simp only [transferBody, hfs, checked_nil firstTarget_nil hne,
      filter_lanes _ _ (fun l => (l, target i l s)) (fun t => t.1) fun _ => rfl]
    cases link <;> simp [lanes, List.map_map, Function.comp_def]

/-- Settles O13: the body of a transfer passes its checks, and the body of NOP does nothing. -/
theorem transfersComplete : Obligations.TransfersComplete := by
  unfold Obligations.TransfersComplete
  exact ⟨fun _ => takes_done fun _ => rfl, fun _ => takes_done fun _ => rfl,
    fun _ off => transfers_of (target := relTarget off) fun _ => rfl, fun _ _ => transfers_of fun _ => rfl,
    fun _ _ off => transfers_of (target := relTarget off) fun _ => rfl, fun _ _ _ => transfers_of fun _ => rfl,
    fun _ _ => transfers_of fun _ => rfl⟩

/-! ## EXIT, YIELD and SLEEP (R361) -/

/-- The item of EXIT. -/
def exitItem (h : Hdr) : Item := { ctrlItem h with txBad := true, specHold := true }

theorem exec_exit {h : Hdr} {s : State} {i : Issue} (hi : s.issuing = some i) :
    exec (.exit h) s = thenExits i.gid (runItem (exitItem h) exitBody s) := by
  show thenExits (issueOf s).gid _ = _
  rw [issueOf, hi]
  rfl

/-- EXIT raises no fault where a thread of the group goes on, or where no fault is kept for the group. -/
theorem exitFault_none {g : Group} {ex : Mask}
    (h : g.live &&& ~~~ex ≠ 0 ∨ g.deferred = [] ∧
      ∀ e ∈ g.queues, e.2.isLoad = true ∨ e.2.st ≠ .faulted ∨ e.2.fault = none) : exitFault g ex = none := by
  unfold exitFault
  split
  · rfl
  next hlast =>
    obtain ⟨hdef, hq⟩ := h.resolve_left hlast
    rw [hdef, Option.map_eq_none_iff]
    refine List.findSome?_eq_none_iff.2 fun e he => ?_
    rcases hq e he with hload | hst | hfault
    · simp [hload]
    · simp [hst]
    · simp [hfault]

theorem exit_of_issues {h : Hdr} {s : State} {i : Issue} {ex : Mask} (hi : Issues (exitItem h) s i ex)
    (hf : exitFault (grpAt s i.gid) ex = none) :
    exec (.exit h) s = .next (groupExits (finishIssue
      (modGrp s i.gid fun g => g.modLanes ex fun _ t => endThread t) i (exitItem h) ex {}) i.gid) := by
  have hb : exitBody i ex s = .done {} (modGrp s i.gid fun g => g.modLanes ex fun _ t => endThread t) := by
    rw [exitBody, hf]
  rw [exec_exit hi.1.1, runItem_done_all hi hb rfl]
  rfl

/-- Settles O14: each instruction takes the effect that its body gives. -/
theorem threadControlCompletes : Obligations.ThreadControlCompletes := by
  unfold Obligations.ThreadControlCompletes
  refine ⟨fun h s i ex hi hex => exit_of_issues hi (exitFault_none hex), fun _ => takes_done fun _ => rfl,
    fun h ticks hne => takes_of (body := sleepBody ticks) (fun _ => rfl) fun s i ex _ _ => ?_,
    fun h => takes_of (body := sleepBody 0) (fun _ => rfl) fun _ _ _ _ _ => rfl⟩
  rw [sleepBody, if_neg hne]

/-! ## TRAP, BRK, TFENCE and ERET (R379 to R381) -/

/-- An instruction whose body answers a trap. -/
theorem traps_of {ins : Instr} {it : Item} {c : Issue → State → Cause}
    (hx : ∀ s, exec ins s = runItem it (fun i _ s => .trap (c i s)) s) : Traps ins it always c :=
  fun s i ex hi _ => by rw [hx, runItem_issues hi]

/-- The item of TFENCE. -/
def tfenceItem (h : Hdr) (s : State) : Item := { ctrlItem h with hold := (issuingGroup s).ops.any (·.setsFlags) }

theorem exec_tfence (h : Hdr) (s : State) : exec (.tfence h) s = runItem (tfenceItem h s) tfenceBody s := rfl

theorem tfence_of_issues {h : Hdr} {s : State} {i : Issue} {ex : Mask} (hi : Issues (tfenceItem h s) s i ex) :
    exec (.tfence h) s =
      if (grpAt s i.gid).fflags &&& (grpAt s i.gid).ftrapen ≠ 0 then
        .next (raiseTrap (notePick s i (tfenceItem h s)) i ex
          { code := .arith, sub := ((grpAt s i.gid).fflags &&& (grpAt s i.gid).ftrapen).toNat })
      else .next (finishIssue s i (tfenceItem h s) ex {}) := by
  rw [exec_tfence, runItem_issues hi, tfenceBody]
  by_cases hcommon : (grpAt s i.gid).fflags &&& (grpAt s i.gid).ftrapen ≠ 0
  · simp only [if_pos hcommon]
  · simp only [if_neg hcommon, Option.getD_none]

/-- The item of ERET. -/
def eretItem (h : Hdr) : Item := { hdr := h, cls := .ctrl, privileged := true, txBad := true }

/-- Whether a CSRW of the group is in flight. -/
def csrwPending (g : Group) : Bool :=
  g.ops.any fun o =>
    match o.kind with
    | .csrw .. => true
    | _ => false

/-- The body of ERET. -/
def eretBody (i : Issue) (ex : Mask) (s : State) : Body :=
  if csrwPending (grpAt s i.gid) then .wait
  else if (grpAt s i.gid).xpc.toNat % 4 ≠ 0 then .fault { code := .misalign, addr := (grpAt s i.gid).xpc }
  else .done { stay := true, ran := some ex } (returnFromTrap (handIndex s i.gid) i.gid)

theorem exec_eret (h : Hdr) (s : State) : exec (.eret h) s = runItem (eretItem h) eretBody s := rfl

theorem csrwPending_false {g : Group} (h : ∀ o ∈ g.ops, ∀ n op v d, o.kind ≠ .csrw n op v d) :
    csrwPending g = false := by
  refine List.any_eq_false.2 fun o ho => ?_
  split
  next hk => exact absurd hk (h o ho _ _ _ _)
  · exact Bool.false_ne_true

/-- Settles O15, by the bodies of the four instructions. -/
theorem trapsAndReturnComplete : Obligations.TrapsAndReturnComplete := by
  unfold Obligations.TrapsAndReturnComplete
  refine ⟨fun _ _ => traps_of fun _ => rfl, fun _ _ => traps_of fun _ => rfl,
    fun h s i ex hi => tfence_of_issues hi, fun h => takes_of (exec_eret h) fun s i ex _ ⟨halign, hcsrw⟩ => ?_⟩
  simp [eretBody, csrwPending_false hcsrw, halign]

/-! ## What a trap entry banks (R366, R368 to R370) -/

/-- The handler population of every group is the same. -/
def SameHandlers (s t : State) : Prop := ∀ g, (grpAt s g).handler = (grpAt t g).handler

theorem SameHandlers.trans {s t u : State} (h : SameHandlers s t) (k : SameHandlers t u) : SameHandlers s u :=
  fun g => (h g).trans (k g)

theorem SameHandlers.of_groups {s t : State} (h : t.groups = s.groups) : SameHandlers s t := fun g => by
  simp only [grpAt, h]

theorem sameHandlers_modGrp {s : State} {n : Nat} {f : Group → Group}
    (h : (f (grpAt s n)).handler = (grpAt s n).handler) : SameHandlers s (modGrp s n f) := fun g => by
  by_cases hg : g = n
  · subst hg
    rw [grpAt_modGrp_same, h]
  · rw [grpAt_modGrp_ne s _ f _ hg]

theorem sameHandlers_fetchLines (s : State) (g va : Nat) : SameHandlers s (fetchLines s g va) :=
  .of_groups (fetchOnly_fetchLines s g va).1

theorem sameHandlers_enterLane (s : State) (g l n : Nat) : SameHandlers s (enterLane s g l n) := by
  induction n generalizing s with
  | zero => exact fun _ => rfl
  | succ n ih =>
    have hf := sameHandlers_fetchLines s g ((grpAt s g).thread l).pc.toNat
    unfold enterLane
    split
    · dsimp only
      split
      · exact hf
      · split
        · exact hf
        · refine hf.trans (SameHandlers.trans (SameHandlers.trans (SameHandlers.trans ?_ (sameHandlers_modGrp rfl))
            (.of_groups (fetchOnly_prefetchInstr ..).1)) (ih _))
          split
          · exact fun _ => rfl
          · exact .of_groups (fetchOnly_fetchFor ..).1
    · exact fun _ => rfl

theorem sameHandlers_enterBlocks (s : State) (g : Nat) : SameHandlers s (enterBlocks s g) := by
  have folded : ∀ (ls : List Nat) (t : State), SameHandlers t (ls.foldl (fun t l => enterLane t g l headerRun) t) := by
    intro ls
    induction ls with
    | nil => exact fun _ _ => rfl
    | cons l ls ih => exact fun t => (sameHandlers_enterLane t g l headerRun).trans (ih _)
  unfold enterBlocks
  exact (folded _ s).trans (sameHandlers_modGrp rfl)

theorem sameHandlers_postEscalation (s : State) (core : Nat) (r : MboxRec) (w : Waiter) :
    SameHandlers s (postEscalation s core r w) := by
  have posted {t : State} {g : Nat} {x : Held} (h : t.groups = s.groups) :
      SameHandlers s (modGrp t g fun y => { y with held := x }) :=
    (SameHandlers.of_groups h).trans (sameHandlers_modGrp rfl)
  unfold postEscalation
  dsimp only
  split
  · split
    · exact posted rfl
    · exact posted rfl
    · exact .of_groups rfl
  · split
    · exact posted rfl
    · exact posted rfl
    · exact .of_groups rfl

theorem sameHandlers_escalate (s : State) (gid : Nat) (pc : Word) (c : Cause) (orig : Nat) :
    SameHandlers s (escalate s gid pc c orig) := by
  have marked : SameHandlers s (modGrp s gid fun g => { g with heldCause := some c }) := sameHandlers_modGrp rfl
  unfold escalate
  dsimp only
  refine SameHandlers.trans (SameHandlers.trans ?_ (.of_groups rfl)) (sameHandlers_postEscalation _ _ _ _)
  split
  · exact marked.trans (.of_groups rfl)
  · exact marked

/-- What the group banks when it takes a cause. -/
def bankCause (s : State) (i : Issue) (xpc : Word) (c : Cause) (g : Group) : Group :=
  { g with
    xfirst := i.pc
    xpc := xpc
    xaddr := c.addr
    xcause := BitVec.ofNat 8 c.code.num
    xstat := c.xstat
    progidx := BitVec.ofNat 32 c.idx
    priv := true
    notBefore := s.cycle + trapCycles
    handler := i.act
    xblocks := (lanesOf g.width i.act).map fun l => (l, (xpc, (g.thread l).block))
    resumes := if c.sq || c.cp || c.mx then some c else none }

/-- The state in which the handler population stands at XVEC, before it enters a block. -/
def atHandler (s : State) (i : Issue) (xpc : Word) (c : Cause) : State :=
  let banked := modGrp (countCause s (lidOf s i.gid) c.code) i.gid (bankCause s i xpc c)
  fetchLines (modGrp banked i.gid fun g => g.modLanes i.act fun _ t => jumpTo t g.xvec) i.gid
    (grpAt s i.gid).xvec.toNat

theorem grpAt_atHandler (s : State) (i : Issue) (xpc : Word) (c : Cause) :
    grpAt (atHandler s i xpc c) i.gid =
      (bankCause s i xpc c (grpAt s i.gid)).modLanes i.act fun _ t => jumpTo t (grpAt s i.gid).xvec := by
  unfold atHandler
  rw [(fetchOnly_fetchLines ..).grpAt, grpAt_modGrp_same, grpAt_modGrp_same]
  rfl

theorem enterTrap_eq (s : State) (i : Issue) (xpc : Word) (c : Cause) :
    enterTrap s i xpc c =
      if handlerOk (atHandler s i xpc c) i.gid (grpAt s i.gid).xvec then enterBlocks (atHandler s i xpc c) i.gid
      else escalate (atHandler s i xpc c) i.gid i.pc { code := .double } c.code.num := by
  have hx : (grpAt (modGrp (modGrp (countCause s (lidOf s i.gid) c.code) i.gid (bankCause s i xpc c)) i.gid
      fun g => g.modLanes i.act fun _ t => jumpTo t g.xvec) i.gid).xvec = (grpAt s i.gid).xvec := by
    rw [grpAt_modGrp_same, grpAt_modGrp_same]
    rfl
  unfold atHandler
  rw [← hx]
  rfl

/-- Entering a block, or escalating from the handler, keeps what was banked. -/
theorem still_enterTrap (s : State) (i : Issue) (xpc : Word) (c : Cause) :
    Still (atHandler s i xpc c) (enterTrap s i xpc c) := by
  rw [enterTrap_eq]
  split
  · exact still_enterBlocks ..
  · exact still_escalate ..

theorem sameHandlers_enterTrap (s : State) (i : Issue) (xpc : Word) (c : Cause) :
    SameHandlers (atHandler s i xpc c) (enterTrap s i xpc c) := by
  rw [enterTrap_eq]
  split
  · exact sameHandlers_enterBlocks _ _
  · exact sameHandlers_escalate _ _ _ _ _

/-- What a group that has taken a cause holds. -/
theorem enterTrap_banks (s : State) (i : Issue) (xpc : Word) (c : Cause) :
    let x := grpAt (enterTrap s i xpc c) i.gid
    x.xcause = BitVec.ofNat 8 c.code.num ∧ x.xaddr = c.addr ∧ x.xstat = c.xstat ∧ x.xfirst = i.pc ∧ x.xpc = xpc ∧
      x.priv = true ∧ x.handler = i.act := by
  have hg := grpAt_atHandler s i xpc c
  have hh := sameHandlers_enterTrap s i xpc c i.gid
  obtain ⟨_, _, _, htrap⟩ := still_enterTrap s i xpc c
  obtain ⟨hpc, hfirst, haddr, hcause, hstat, _, hpriv⟩ := htrap i.gid
  rw [hg] at hpc hfirst haddr hcause hstat hpriv hh
  exact ⟨hcause.symm, haddr.symm, hstat.symm, hfirst.symm, hpc.symm, hpriv.symm, hh.symm⟩

/-- Refutes O54: of UNCORR XSTAT holds the lane alone (R366), so a cause of UNCORR with a SUB gives XSTAT.SUB 0. -/
theorem not_trapEntryBanksTheCause : ¬ Obligations.TrapEntryBanksTheCause := by
  unfold Obligations.TrapEntryBanksTheCause
  rintro ⟨_, hstat, _⟩
  obtain ⟨hsub, _⟩ := hstat { code := .uncorr, sub := 1 } (by decide) (by decide) (by decide)
  exact absurd hsub (by decide)

/-! ## TRAP and BRK (R380) -/

theorem grpAt_notePick (s : State) (i : Issue) (it : Item) (n : Nat) : grpAt (notePick s i it) n = grpAt s n := rfl

/-- The group after its threads have moved past an item that trapped. -/
def pastTrap (i : Issue) (g : Group) : Group :=
  g.modLanes i.act fun _ t => advance (countItem t) (i.pc + BitVec.ofNat 64 i.len) none

/-- The trap of an item whose group has no transaction. -/
theorem raiseTrap_of_noTx {s : State} {i : Issue} {ex : Mask} {c : Cause} (htx : (grpAt s i.gid).txLanes = 0)
    (hne : ex ≠ 0) :
    raiseTrap s i ex c =
      if (grpAt s i.gid).priv || (grpAt s i.gid).speculative then deliver s i (i.pc + BitVec.ofNat 64 i.len) c
      else deliver (modGrp s i.gid (pastTrap i)) i (i.pc + BitVec.ofNat 64 i.len) c := by
  have hz : ex &&& (0 : Mask) = 0 := BitVec.and_zero
  simp only [raiseTrap, htx, hz, abortLanes_zero, and_not_zero, hne, ne_eq, not_false_eq_true, decide_true,
    Bool.true_and, if_true]
  rfl

theorem deliver_user {s : State} {i : Issue} {xpc : Word} {c : Cause} (hc : c.code.escalated = false)
    (hspec : (grpAt s i.gid).speculative = false) (hpriv : (grpAt s i.gid).priv = false) :
    deliver s i xpc c = enterTrap s i xpc c := by
  simp [deliver, hc, hspec, hpriv]

theorem deliver_privileged {s : State} {i : Issue} {xpc : Word} {c : Cause} (hc : c.code.escalated = false)
    (hspec : (grpAt s i.gid).speculative = false) (hpriv : (grpAt s i.gid).priv = true) :
    deliver s i xpc c = escalate s i.gid i.pc { code := .double } c.code.num := by
  simp [deliver, hc, hspec, hpriv]

/-- A group that may issue, and does not speculate, is not past a PHNXT.SPEC. -/
theorem not_speculative_of_free {s : State} {g : Group} (hf : groupFree s g = true) (hs : g.spec.st ≠ .speculating) :
    g.speculative = false := by
  simp only [groupFree, Bool.and_eq_true, decide_eq_true_eq] at hf
  simp_all [Group.speculative]

/-- What an instruction that traps with a cause of its own takes, in user mode and in privileged mode. -/
theorem trap_of_issues {ins : Instr} {it : Item} {c : Cause} (ht : Traps ins it always fun _ _ => c)
    (hbad : it.txBad = true) (hc : c.code.escalated = false) {s : State} {i : Issue} {ex : Mask}
    (hi : Issues it s i ex) :
    ((grpAt s i.gid).priv = false → ∃ t, exec ins s = .next t ∧
      let g := grpAt t i.gid
      g.xcause = BitVec.ofNat 8 c.code.num ∧ g.xaddr = c.addr ∧ g.xstat = c.xstat ∧ g.xfirst = i.pc ∧
        g.xpc = i.pc + BitVec.ofNat 64 i.len ∧ g.priv = true ∧ g.handler = i.act) ∧
    ((grpAt s i.gid).priv = true →
      exec ins s = .next (escalate (notePick s i it) i.gid i.pc { code := .double } c.code.num)) := by
  have hx := ht s i ex hi trivial
  obtain ⟨⟨_, hfree, _⟩, _, _, hne, htx, hspec, _⟩ := hi
  have hlanes := txLanes_none (htx (.inl hbad))
  have hs := not_speculative_of_free hfree hspec
  rw [raiseTrap_of_noTx (s := notePick s i it) hlanes hne, grpAt_notePick, hs, Bool.or_false] at hx
  constructor
  · intro hpriv
    have hg : grpAt (modGrp (notePick s i it) i.gid (pastTrap i)) i.gid = pastTrap i (grpAt s i.gid) :=
      grpAt_modGrp_same ..
    rw [hpriv, if_neg Bool.false_ne_true, deliver_user hc (hg ▸ hs) (hg ▸ hpriv)] at hx
    exact ⟨_, hx, enterTrap_banks ..⟩
  · intro hpriv
    rw [hpriv, if_pos rfl, deliver_privileged (s := notePick s i it) hc hs hpriv] at hx
    exact hx

/-- A cause that is not escalated reports all that it holds. -/
theorem reported_of_not_escalated {c : Cause} (hc : c.code.escalated = false) : c.reported = c := by
  unfold Cause.reported
  split
  next h => rw [h] at hc; cases hc
  next h => rw [h] at hc; cases hc
  next h => rw [h] at hc; cases hc
  · rfl

/-- A cause that reports its address alone leaves XSTAT 0. -/
theorem xstat_of_addr {c : CauseCode} {a : Word} (hc : c.escalated = false) :
    Cause.xstat { code := c, addr := a } = 0 := by
  unfold Cause.xstat
  rw [reported_of_not_escalated hc]
  simp

/-- Settles O53: TRAP and BRK trap, and a trap banks its cause or escalates as DOUBLE. -/
theorem trapAndBreakTakeTheirCodes : Obligations.TrapAndBreakTakeTheirCodes := by
  unfold Obligations.TrapAndBreakTakeTheirCodes
  obtain ⟨htrap, hbrk, _⟩ := trapsAndReturnComplete
  refine ⟨fun h code s i ex hi => ?_, fun h code s i ex hi => ?_⟩
  · have ht := trap_of_issues (htrap h code) rfl rfl hi
    rwa [xstat_of_addr rfl] at ht
  · have ht := trap_of_issues (hbrk h code) rfl rfl hi
    rwa [xstat_of_addr rfl] at ht

end Sys2Proof.Machine
end

section
/-! PROOF. StepOrder.lean: what a step runs: the agenda's first action, or what is due; and what a quarter with one group
of one population issues (R351 to R353; log entries 4, 16 and 21). -/

namespace Sys2Proof.Machine

/-! ## The agenda -/

theorem step_of_agenda {s : State} {a : Action} {rest : List Action} (h : s.agenda = a :: rest) :
    step s = runAction a { s with agenda := rest } := by
  rw [step, h]

theorem step_of_empty {s : State} (h : s.agenda = []) : step s = ownStep s := by
  rw [step, h]

theorem ownStep_of_running {s : State} (h : s.power = .running) :
    ownStep s = (dueEvent s).getD ((firstPick s (busyQuarters s)).getD (.next (passCycle s))) := by
  unfold ownStep
  rw [h, if_neg (by simp), if_neg (by simp)]
  cases dueEvent s with
  | some o => rfl
  | none => cases firstPick s (busyQuarters s) <;> rfl

theorem busyQuarters_nil {s : State} (h : ∀ e ∈ s.groups, e.2.resident = false) : busyQuarters s = [] := by
  have hnone : (s.groups.filter fun e => e.2.resident) = [] :=
    List.filter_eq_nil_iff.2 fun e he => by simp [h e he]
  rw [busyQuarters, hnone]
  rfl

theorem passCycle_of_idle {s : State} (hsys : s.sysOps = []) (hidle : busyQuarters s = []) :
    passCycle s = tickCycle s := by
  have hops : (tickCycle s).sysOps = [] := hsys
  simp only [passCycle, hidle, List.foldl_nil, hops, List.length_nil, sysRun]

/-! ## The item at an address (R41, R351) -/

/-- A population inside its block finds the instruction that the bytes at its address decode to. -/
theorem itemAt_of_decode {s : State} {gid v n : Nat} {pc : Word} {act : Mask} {i : Instr}
    (hblock : ∀ l ∈ lanesOf (grpAt s gid).width act, ∃ b, ((grpAt s gid).thread l).block = some b ∧
      (b.isOpen = true ∨ pc.toNat + 4 * n ≤ b.stop.toNat))
    (hf : fetchItem s gid pc.toNat = .ok (v, n)) (hv : v % 4 ≠ 3)
    (hd : decode (Raw.ofBits (BitVec.ofNat 128 v)) = .ok i) : itemAt s gid pc act = .ok (i, 4 * n) := by
  have hin : ((lanesOf (grpAt s gid).width act).any fun l => ((grpAt s gid).thread l).block.isNone) = false := by
    refine List.any_eq_false.2 fun l hl => ?_
    obtain ⟨b, hb, _⟩ := hblock l hl
    simp [hb]
  have hpast : ((lanesOf (grpAt s gid).width act).any fun l =>
      match ((grpAt s gid).thread l).block with
      | some b => !b.isOpen && b.stop.toNat < pc.toNat + 4 * n
      | none => false) = false := by
    refine List.any_eq_false.2 fun l hl => ?_
    obtain ⟨b, hb, hstop⟩ := hblock l hl
    rw [hb]
    rcases hstop with hopen | hstop
    · simp [hopen]
    · simp [hstop]
  unfold itemAt
  simp only [hin, Bool.false_eq_true, if_false, hf]
  rw [if_neg (by simp only [hv, decide_false, Bool.or_false]; exact Bool.eq_false_iff.1 hpast)]
  simp only [hd]

/-- A free group's population that does not stand before a block issues the item that it finds. -/
theorem issueAt_of_item {s t : State} {gid len : Nat} {pc : Word} {act : Mask} {i : Instr} (hact : act ≠ 0)
    (hfree : groupFree s (grpAt s gid) = true)
    (henter : entersBlock (fetchLines s gid pc.toNat) gid pc
      (lanesOf (grpAt (fetchLines s gid pc.toNat) gid).width act) = false)
    (hitem : itemAt (fetchLines s gid pc.toNat) gid pc act = .ok (i, len))
    (hexec : exec i { fetchLines s gid pc.toNat with issuing := some ⟨gid, pc, len, act⟩ } = .next t)
    (hissued : t.issuing.isSome = true) : issueAt s gid pc act = some (.next t) := by
  have hnone : t.issuing.isNone = false := by rw [← Option.not_isSome, hissued, Bool.not_true]
  simpa [issueAt, hfree, henter, hitem, hexec, hnone] using hact

/-! ## A quarter with one group of one population (R352, R353) -/

theorem issueGroup_of_one {s : State} {gid : Nat} {pc : Word} {o : Out} (hpcs : rankedPcs (grpAt s gid) = [pc])
    (hissue : issueAt s gid pc ((grpAt s gid).activeAt pc) = some o) : issueGroup s gid = some o := by
  have hc : candidates s gid = [(pc, (grpAt s gid).activeAt pc, o)] := by
    simp [candidates, hpcs, hissue]
  rw [issueGroup, hc]

theorem beforePick_of_one {s : State} {n gid : Nat} (hgroups : quarterGroups s n = [gid])
    (hfree : groupFree s (grpAt s gid) = true) : beforePick s n = enterBlocks s gid := by
  simp [beforePick, hgroups, hfree]

theorem readyGroups_of_one {s : State} {n gid : Nat} {o : Out} (hgroups : quarterGroups s n = [gid])
    (hissue : issueGroup s gid = some o) : readyGroups s n = [(gid, o)] := by
  simp [readyGroups, hgroups, hissue]

/-- A lone ready group is picked, whether or not its last item had YLD. -/
theorem chosen_of_one (s : State) (e : Nat × Out) : chosen s [e] = some e := by
  cases h : (grpAt s e.1).yld <;> simp [chosen, h]

theorem pickQuarter_of_one {s t : State} {n gid : Nat} {pc : Word} (hpick : (quartAt s n).pickCycle ≠ some s.cycle)
    (hcore : (coreAt s (n / 4)).switching = 0) (hfree : groupFree s (grpAt s gid) = true)
    (hbefore : quarterGroups s n = [gid]) (hafter : quarterGroups (enterBlocks s gid) n = [gid])
    (hpcs : rankedPcs (grpAt (enterBlocks s gid) gid) = [pc])
    (hissue : issueAt (enterBlocks s gid) gid pc ((grpAt (enterBlocks s gid) gid).activeAt pc) = some (.next t)) :
    pickQuarter s n = some (.next (noteWaiting n gid [gid] t)) := by
  simp [pickQuarter, hpick, hcore, beforePick_of_one hbefore hfree,
    readyGroups_of_one hafter (issueGroup_of_one hpcs hissue), chosen_of_one]

/-- Settles O47, by the lemmas of this part. -/
theorem stepRunsTheItem : Obligations.StepRunsTheItem := by
  unfold Obligations.StepRunsTheItem
  refine ⟨fun _ _ h => step_of_agenda h, fun _ => passCycle_of_idle, fun _ => rfl, fun _ _ _ h => step_of_agenda h,
    fun _ _ _ _ _ _ _ => itemAt_of_decode, fun _ _ _ _ _ _ _ => issueAt_of_item,
    fun s core q rest gid pc t hagenda hpick hcore hfree hbefore hafter hpcs hissue => ?_,
    fun s o hagenda hrun hdue => ?_, fun s hagenda hrun hdue hgroups => ?_⟩
  · rw [step_of_agenda hagenda]
    show (pickQuarter { s with agenda := rest } _).getD _ = _
    rw [pickQuarter_of_one (s := { s with agenda := rest }) hpick hcore hfree hbefore hafter hpcs hissue]
    rfl
  · rw [step_of_empty hagenda, ownStep_of_running hrun, hdue]
    rfl
  · rw [step_of_empty hagenda, ownStep_of_running hrun, hdue, busyQuarters_nil hgroups]
    rfl

end Sys2Proof.Machine
end

section
/-! PROOF. PhaserInstructions.lean: PHREG, PHDROP, PHSIG, PHWAIT, PHNXT, PHNXT.SPEC and PHSTAT on the phaser that their
handle names (R295, R297, R299, R301 to R303). -/

namespace Sys2Proof.Machine

/-! ## What each instruction runs -/

theorem exec_phreg (h : Hdr) (mode : PhMode) (a : Opnd) (s : State) : exec (.phreg h mode a) s = execPhreg h mode a s :=
  rfl

theorem exec_phdrop (h : Hdr) (a : Opnd) (s : State) : exec (.phdrop h a) s = execPhdrop h a s := rfl

theorem exec_phsig (h : Hdr) (a : Opnd) (s : State) : exec (.phsig h a) s = execPhsig h a s := rfl

theorem exec_phwait (h : Hdr) (a : Opnd) (s : State) : exec (.phwait h a) s = execPhwait h a s := rfl

theorem exec_phnxt (h : Hdr) (a : Opnd) (s : State) : exec (.phnxt h a) s = execPhnxt h a s := rfl

theorem exec_phnxtSpec (h : Hdr) (a : Opnd) (s : State) : exec (.phnxtSpec h a) s = execPhnxtSpec h a s := rfl

theorem exec_phstat (h : Hdr) (d a : Opnd) (s : State) : exec (.phstat h d a) s = execPhstat h d a s := rfl

/-- A phaser instruction that finds its phaser takes the effect that it has there. -/
theorem runItem_onPhaser {it : Item} {a : Opnd} {needs : Option (PhMode → Bool)}
    {k : Issue → Mask → State → Nat → Body} {s t : State} {i : Issue} {ex : Mask} {n : Nat} {e : Effect}
    (hi : Issues it s i ex) (hf : findPhaser s i.gid (scalarOf s i.gid ex a) needs = .found n)
    (hk : k i ex s n = .done e t) (hran : e.ran = none) :
    runItem it (onPhaser a needs k) s = .next (finishIssue t i it ex e) :=
  runItem_done_all hi (by rw [onPhaser, hf]; exact hk) hran

/-! ## Signals and waits (R295, R301, R303) -/

/-- The group after the lanes of PHNXT.SPEC stop until their group has arrived. -/
def specArrival (s : State) (i : Issue) (ex : Mask) (n : Nat) (g : Group) : Group :=
  let g1 := g.modLanes ex fun _ t => { t with wait := .spec (grpAt s i.gid).nextOp }
  if g1.spec.st = .none then { g1 with spec := { g1.spec with st := .arriving, inst := n } } else g1

/-- A group that does not speculate signals and waits, whatever the form of its PHNXT. -/
theorem phnxtBody_of_waits {spec : Bool} {i : Issue} {ex : Mask} {s : State} {n : Nat}
    (hfar : farAhead i ex s n = false) (hspec : (spec && maySpeculate s i.gid) = false) :
    phnxtBody spec i ex s n = .done
      { kind := .phaser n false [(signalPhase i ex s n).2] (waitsOf i ex (signalPhase i ex s n).1 n), holds := .all }
      (signalPhase i ex s n).1 := by
  simp only [phnxtBody, hfar, hspec, Bool.false_eq_true, if_false]

/-- A group that may speculate also stops its threads until it has arrived. -/
theorem phnxtBody_of_speculates {i : Issue} {ex : Mask} {s : State} {n : Nat} (hfar : farAhead i ex s n = false)
    (hspec : maySpeculate s i.gid = true) :
    let t := modGrp (signalPhase i ex s n).1 i.gid (specArrival s i ex n)
    phnxtBody true i ex s n =
      .done { kind := .phaser n true [(signalPhase i ex s n).2] (waitsOf i ex t n), holds := .all } t := by
  simp only [phnxtBody, hfar, hspec, Bool.false_eq_true, if_false, Bool.and_true, if_true]
  rfl

/-- Settles O25: each instruction takes the effect that it has on the phaser that it finds. -/
theorem phasersComplete : Obligations.PhasersComplete := by
  unfold Obligations.PhasersComplete
  refine ⟨fun h mode a s i ex n hi hf => ?_, fun h a s i ex n hi hf => ?_, fun h a s i ex n hi hf hfar => ?_,
    fun h a s i ex n hi hf => ?_, fun h a s i ex n hi hf hfar => ?_, fun h d a s i ex n hi hf => ?_⟩
  · exact (exec_phreg ..).trans (runItem_onPhaser hi hf rfl rfl)
  · exact (exec_phdrop ..).trans (runItem_onPhaser hi hf rfl rfl)
  · exact (exec_phsig ..).trans (runItem_onPhaser hi hf (by rw [hfar, if_neg Bool.false_ne_true]) rfl)
  · exact (exec_phwait ..).trans (runItem_onPhaser hi hf rfl rfl)
  · have waits {spec : Bool} (hspec : (spec && maySpeculate s i.gid) = false) :=
      runItem_onPhaser hi hf (phnxtBody_of_waits hfar hspec) rfl
    refine ⟨(exec_phnxt ..).trans (waits rfl), ?_⟩
    split
    next hnot =>
      exact (exec_phnxtSpec ..).trans ((waits (spec := true) hnot).trans ((exec_phnxt ..).trans (waits (spec := false) rfl)).symm)
    next hmay =>
      have hmay := Bool.not_eq_false _ ▸ hmay
      exact (exec_phnxtSpec ..).trans (runItem_onPhaser hi hf (phnxtBody_of_speculates hfar hmay) rfl)
  · exact (exec_phstat ..).trans (runItem_onPhaser hi hf rfl rfl)

end Sys2Proof.Machine
end

section
/-! PROOF. TransactionInstructions.lean: TXB, TXB.ORD, TXE, TXA and TXS (R337, R340 to R343). -/

namespace Sys2Proof.Machine

/-! ## TXB and TXB.ORD (R337, R340) -/

/-- The item of TXB and TXB.ORD, with the operand that gives the index, where one is read. -/
def txbItem (h : Hdr) (d : Opnd) (index : Option Opnd) : Item :=
  { txItem h index.toList [d] with txBad := true, specHold := true }

theorem exec_txb (h : Hdr) (d : Opnd) (s : State) : exec (.txb h d) s = runItem (txbItem h d none) (txbBody d none) s :=
  rfl

/-- TXB.ORD reads its index, except in a DETERMINISTIC launch. -/
theorem exec_txbOrd {h : Hdr} {d a : Opnd} {s : State} {i : Issue} (hi : s.issuing = some i) :
    exec (.txbOrd h d a) s =
      runItem (txbItem h d (txbIndex s i.gid (some a))) (txbBody d (txbIndex s i.gid (some a))) s := by
  show runItem (txbItem h d (s.issuing.bind fun i => txbIndex s i.gid (some a)))
    (txbBody d (s.issuing.bind fun i => txbIndex s i.gid (some a))) s = _
  rw [hi, Option.bind_some]

/-- TXB.ORD runs as the item that its launch's determinism gives. -/
theorem txbOrd_of_issues {h : Hdr} {d a : Opnd} {index : Option Opnd} {s t : State} {i : Issue} {ex : Mask} {e : Effect}
    (hi : Issues (txbItem h d index) s i ex) (hindex : txbIndex s i.gid (some a) = index)
    (hb : txbBody d index i ex s = .done e t) :
    exec (.txbOrd h d a) s = .next (finishIssue t i (txbItem h d index) (e.ran.getD ex) e) := by
  rw [exec_txbOrd hi.1.1, hindex, runItem_done hi hb]

/-- Settles O27: each instruction takes the effect of its body, and the ways of TXB are its table's rows. -/
theorem transactionsComplete : Obligations.TransactionsComplete := by
  unfold Obligations.TransactionsComplete
  refine ⟨fun h d a => ⟨takes_of (exec_txb h d) fun _ _ _ _ _ => rfl, fun s i ex hi hdet => ?_, fun s i ex hi hdet => ?_⟩,
    fun _ _ => takes_done fun _ => rfl, fun _ _ => takes_done fun _ => rfl,
    fun _ _ => computes_of (f := fun g l _ => txstat (g.thread l)) (ff := fun _ _ _ => 0) fun _ => rfl,
    fun l t a hretry hdet => ?_, fun l t ord hretry => if_pos hretry⟩
  · exact txbOrd_of_issues hi (by rw [txbIndex, hdet, if_neg Bool.false_ne_true]) rfl
  · exact txbOrd_of_issues hi (by rw [txbIndex, hdet, if_pos rfl]) rfl
  · simp [txbWay, hretry, hdet]

end Sys2Proof.Machine
end

section
/-! PROOF. PhaseEvents.lean: ends of phases, rollbacks, and contributions to the runner network (R296 to R298, R307 to
R309, R311 to R315). -/

namespace Sys2Proof.Machine

/-! ## The end of a phase (R296, R297) -/

/-- The groups that still arrive at a phaser stop arriving when its phase ends. -/
def endArrivals (s : State) (n : Nat) : State :=
  { s with groups := s.groups.map fun e =>
      if e.2.spec.inst = n && e.2.spec.st = .arriving then (e.1, endSpec e.2) else e }

/-- A phase that is over ends at its time; where no group speculates, nothing but its changes follows. -/
theorem endPhase_of_over {s : State} {n due : Nat} {p : Phaser} (hp : mapFind s.phasers n = some p)
    (hdue : p.due = some due) (htime : due ≤ s.cycle) (hover : phaseOver s p = true) (hnone : speculators s n = []) :
    endPhase s n = some (p.members.foldl (applyPend (nextPhase (endArrivals s n) p))
      { endArrivals s n with
        phasers := mapPut (endArrivals s n).phasers n (nextPhase (endArrivals s n) p) }) := by
  have hnot : ¬ s.cycle < due := Nat.not_lt.2 htime
  simp only [endPhase, hp, hdue, Option.getD_some, hover, Bool.not_true, Bool.false_eq_true, if_false, hnot, hnone,
    validateAll, resolveSpec]
  rfl

theorem endPhase_of_not_over {s : State} {n : Nat} {p : Phaser} (hp : mapFind s.phasers n = some p)
    (hover : phaseOver s p = false) : endPhase s n = none := by
  simp [endPhase, hp, hover]

/-! ## Rollback (R308, R309) -/

theorem grpAt_of_mapFind {s : State} {gid : Nat} {g : Group} (h : mapFind s.groups gid = some g) : grpAt s gid = g := by
  rw [grpAt, mapGet, h, Option.getD_some]

/-- A group whose speculation's instructions have completed, restored. -/
def restored (s : State) (gid : Nat) (g : Group) : Group :=
  endSpec { g.modLanes g.spec.arrived (undoThread s gid g.spec) with s := g.spec.savedS, obuf := [], obufPrev := [] }

/-- The group after its rollback: past the barrier, or waiting at it again. -/
def rolledBack (s : State) (gid : Nat) (g : Group) : Group :=
  if g.spec.st = .validating then restored s gid g else waitAgain s g.spec (restored s gid g)

theorem rollbackSpec_of_done {s : State} {gid : Nat} {g : Group} (hg : mapFind s.groups gid = some g)
    (hroll : g.spec.rollback = true) (hdone : ∀ o ∈ g.ops, o.id < g.spec.firstOp) :
    rollbackSpec s gid = some (putGrp s gid (rolledBack s gid g)) := by
  have hops : (g.ops.any fun o => decide (g.spec.firstOp ≤ o.id)) = false :=
    List.any_eq_false.2 fun o ho => by simpa using hdone o ho
  simp only [rollbackSpec, hg, hroll, hops, Bool.not_true, Bool.or_self, Bool.false_eq_true, if_false]
  rfl

theorem rolledBack_s (s : State) (gid : Nat) (g : Group) : (rolledBack s gid g).s = g.spec.savedS := by
  unfold rolledBack
  split
  · rfl
  · rfl

theorem rolledBack_spec (s : State) (gid : Nat) (g : Group) : (rolledBack s gid g).spec = default := by
  unfold rolledBack
  split
  · rfl
  · rfl

/-- The thread of a lane that had arrived, after the rollback. -/
theorem rolledBack_thread {s : State} {gid l : Nat} {g : Group} (hl : l < g.threads.length)
    (harrived : hasBit g.spec.arrived l = true) :
    (rolledBack s gid g).thread l =
      if g.spec.st = .validating then undoThread s gid g.spec l (g.thread l)
      else { undoThread s gid g.spec l (g.thread l) with wait := .spec g.nextOp } := by
  have hrestored : (restored s gid g).thread l = undoThread s gid g.spec l (g.thread l) := by
    show (g.modLanes g.spec.arrived (undoThread s gid g.spec)).thread l = _
    rw [thread_modLanes, if_pos ⟨hl, harrived⟩]
  have hlen : l < (restored s gid g).threads.length := by
    show l < (g.modLanes g.spec.arrived (undoThread s gid g.spec)).threads.length
    simpa [Group.modLanes] using hl
  unfold rolledBack
  split
  · exact hrestored
  · show ((restored s gid g).modLanes g.spec.arrived fun _ t => { t with wait := .spec g.nextOp }).thread l = _
    rw [thread_modLanes, if_pos ⟨hlen, harrived⟩, hrestored]

/-! ## Contributions and results (R311, R313, R314) -/

theorem gredLate_of_turn {s : State} {gid op n round count : Nat} {g : Group} {x : Op} {val : BitVec 4280}
    {st : BitVec 8} (hg : mapFind s.groups gid = some g) (hx : opOf g op = some x)
    (hkind : x.kind = .gred n round count val st) (hround : (objAt s n).round.toNat = round)
    (hcount : countBad (objAt s n) count = false) (hlast : (objAt s n).got + 1 = count → gresPending s n = false) :
    gredLate s gid op = some (modObj (modGrp s gid fun g => modOp g op fun x => { x with kind := .ready }) n fun o =>
      contribute o count 1 val st) := by
  have hnow : (decide ((objAt s n).round.toNat ≠ round) ||
      (decide ((objAt s n).got + 1 = count) && gresPending s n)) = false := by
    by_cases hfull : (objAt s n).got + 1 = count
    · simp [hround, hlast hfull]
    · simp [hround, hfull]
  simp only [gredLate, hg, Option.bind_some, hx, hkind, hcount, Bool.not_false, if_true]
  rw [if_neg (by rw [hnow]; exact Bool.false_ne_true)]

theorem gresTake_of_result {s : State} {gid op n round : Nat} {g : Group} {x : Op} {ty : Ty} {m : Rnd} {d : Opnd}
    {r : BitVec 4280 × BitVec 8} (hg : mapFind s.groups gid = some g) (hx : opOf g op = some x)
    (hres : g.resident = true) (hkind : x.kind = .gres n round ty m d none) (hr : (objAt s n).result = some r)
    (hround : (round + 1) % 2 ^ 16 = (objAt s n).round.toNat) :
    gresTake s gid op = some (modGrp s gid fun g => modOp g op fun y =>
      { y with
        kind := .ready
        writes := destWrites d ((lanesOf 64 x.lanes).map fun l =>
          (l, (BitVec.ofNat 64 (xrndOp ty m (xaMake r.1.toNat r.2.toNat)).1 : Word)))
        fflags := (xrndOp ty m (xaMake r.1.toNat r.2.toNat)).2 }) := by
  have hafter : roundAfter round = (objAt s n).round.toNat := hround
  simp only [gresTake, hg, Option.bind_some, hres, if_true, hx, hkind, hr, hafter, gresEffect]

/-- Settles O37, by what each event does in the state that its clause describes. -/
theorem phaseAndRunnerEventsComplete : Obligations.PhaseAndRunnerEventsComplete := by
  unfold Obligations.PhaseAndRunnerEventsComplete
  refine ⟨fun s n p due hp hdue htime hover hnone => ?_, fun s n p hp hover => ?_, fun _ _ => rfl,
    fun s gid g hg hroll hdone => ?_, fun s gid op g x n round count val st hg hx hkind hround hcount hlast => ?_,
    fun s gid op g x n round ty m d r hg hx hres hkind hr hround => ?_,
    fun s lid obj val st count round hscale hjoined hround hcount hmay => ?_, fun s lid obj val st count round hscale => ?_⟩
  · exact next_getD_of_eq_some (endPhase_of_over hp hdue htime hover hnone)
  · exact next_getD_of_eq_none (endPhase_of_not_over hp hover)
  · refine ⟨_, next_getD_of_eq_some (rollbackSpec_of_done hg hroll hdone), ?_⟩
    rw [grpAt_putGrp_same]
    refine ⟨rolledBack_s .., rolledBack_spec .., fun l hl harrived => ?_⟩
    rw [rolledBack_thread hl harrived]
    split
    · exact ⟨rfl, rfl, rfl, rfl, rfl⟩
    · exact ⟨rfl, rfl, rfl, rfl, rfl⟩
  · exact next_getD_of_eq_some (gredLate_of_turn hg hx hkind hround hcount hlast)
  · exact next_getD_of_eq_some (gresTake_of_result hg hx hres hkind hr hround)
  · show execRunnerRemoteContribution lid obj val st count round s = _
    simp [execRunnerRemoteContribution, hscale, hjoined, hround, hcount, hmay]
  · show execRunnerRemoteContribution lid obj val st count round s = _
    simp [execRunnerRemoteContribution, hscale]

end Sys2Proof.Machine
end

section
/-! PROOF. TransactionEvents.lean: commit rounds, aborts, the limit of a transaction's items, and the tokens (R319, R323 to
R336). -/

namespace Sys2Proof.Machine

/-! ## A round forms and locks (R324 to R326, R336) -/

/-- A group whose open lanes all stand at TXE, none of them ordered, begins a round of its riddle's survivors. -/
theorem formRound_of_free {s : State} {gid : Nat} {g : Group} (hg : mapFind s.groups gid = some g)
    (hidle : g.round.stage = .idle) (hres : g.resident = true) (hcore : (coreAt s g.core).switching = 0)
    (hne : lanesOf g.width g.txLanes ≠ [])
    (hat : ∀ l ∈ lanesOf g.width g.txLanes, atTxe (g.thread l) = true ∧ (g.thread l).tx.ord = false) :
    formRound s gid =
      let ls := lanesOf g.width g.txLanes
      let r := riddle g [] ((ls.filter fun l => (g.thread l).tx.irrev) ++ ls.filter fun l => !(g.thread l).tx.irrev)
      some (beginRound s gid false r.1 r.2) := by
  have hall : ((lanesOf g.width g.txLanes).all fun l => atTxe (g.thread l)) = true :=
    List.all_eq_true.2 fun l hl => (hat l hl).1
  have hfree : ((lanesOf g.width g.txLanes).filter fun l => !(g.thread l).tx.ord) = lanesOf g.width g.txLanes :=
    List.filter_eq_self.2 fun l hl => by rw [(hat l hl).2, Bool.not_false]
  have hsome : (lanesOf g.width g.txLanes).isEmpty = false := by rwa [List.isEmpty_eq_false_iff]
  simp only [formRound, hg, hidle, hres, hcore, hsome, hall, hfree]
  rfl

theorem lockNext_of_released {s : State} {gid : Nat} {g : Group} (hg : mapFind s.groups gid = some g)
    (hstage : g.round.stage = .releasing) (hrel : released s g.round.rel = true) :
    lockNext s gid = some (setRound s gid fun r => { r with stage := .locking, todo := writeSectors s gid r.lanes }) := by
  simp only [lockNext, hg, hstage, hrel, if_true]

/-- A round that locks goes to the next of its sectors. -/
theorem lockNext_of_sector {s : State} {gid sector : Nat} {g : Group} {scr : Bool} {rest : List (Bool × Nat)}
    (hg : mapFind s.groups gid = some g) (hstage : g.round.stage = .locking)
    (htodo : g.round.todo = (scr, sector) :: rest) : lockNext s gid = lockSector1 s gid scr sector rest := by
  simp only [lockNext, hg, hstage, htodo]

theorem lockSector1_of_free {s : State} {gid sector : Nat} {scr : Bool} {rest : List (Bool × Nat)}
    (hnone : othersLocks s gid scr sector = []) (hfree : commitFree s gid scr sector = true)
    (hline : commitLine s gid scr sector true
      ((recordOf (grpAt s gid) (grpAt s gid).round.lanes scr sector).mask = BitVec.allOnes 32) = .yes) :
    lockSector1 s gid scr sector rest = some (setRound (putLock (commitUses s gid scr sector) gid scr sector true) gid
      fun r => { r with todo := rest }) := by
  simp only [lockSector1, hnone, hfree, hline, List.any_nil, List.isEmpty_nil, Bool.not_true, Bool.or_self,
    Bool.false_eq_true, if_false]

theorem lockSector1_of_irrevocable {s : State} {gid sector : Nat} {scr : Bool} {rest : List (Bool × Nat)}
    (h : ∃ l ∈ othersLocks s gid scr sector, l.irrev = true) :
    lockSector1 s gid scr sector rest = some (abandonRound s gid) := by
  rw [lockSector1, if_pos (List.any_eq_true.2 h)]

/-! ## A round is decided and unlocked (R327 to R332) -/

theorem commitApply_of_checked {s : State} {gid : Nat} {g : Group} (hg : mapFind s.groups gid = some g)
    (hstage : g.round.stage = .validating) (hchecks : g.round.checks = []) :
    commitApply s gid = some (decideRound s gid) := by
  simp only [commitApply, hg, hstage, hchecks, List.isEmpty_nil, if_true]

/-- The state after the lanes of an unordered round have committed. -/
def committed (s : State) (gid : Nat) (g : Group) : State :=
  let t := dropToken (dropLocks (unlockRound s gid) gid fun k => g.round.lanes.contains k.lane) gid fun k =>
    g.round.lanes.contains k
  let t := g.round.lanes.foldl (fun s l => signStores s g.team (g.thread l).tx.sts) t
  modGrp t gid fun x => x.modLanes (maskOf 64 g.round.lanes) fun _ t => commitLane t

theorem commitUnlock_of_applied {s : State} {gid l : Nat} {g : Group} (hg : mapFind s.groups gid = some g)
    (hstage : g.round.stage = .applying) (htodo : g.round.todo = []) (hlast : g.round.lanes.getLast? = some l)
    (hord : g.round.ordered = false) :
    commitUnlock s gid = some (enterBlocks (modLaunch (committed s gid g) (lidOf (committed s gid g) gid) fun la =>
      { la with next := (launchOf s gid).next }) gid) := by
  simp only [commitUnlock, hg, hstage, htodo, hlast, hord]
  rfl

/-! ## Aborts (R319, R323, R333, R334) -/

/-- The thread of an aborting lane, restored to its TXB. -/
def abortedThread (s : State) (gid l : Nat) (g : Group) : Thread :=
  let x := (g.thread l).tx
  let fails := retryFails g.txcfg x.cause x.code
  let t := countAbort ((undoEntries s gid l x.undo).foldl (fun t e =>
    writeV { t with poison := t.poison.filter (· ≠ e.1) } e.1 e.2) (g.thread l)) x.cause x.code
  let t := closeTx { t with
    pc := x.ckPc, block := x.ckBlock, p := x.ckP, draw := x.ckDraw, batch := x.ckBatch, recon := x.ckRecon
    wait := .none, tx := { t.tx with retry := if fails then .fails else .again } }
  if !fails && !x.ord && (x.cause = 1 || x.cause = 2) && !hasBit g.txcfg 0 then backoff s.cycle t else t

/-- The group of an aborting lane: its thread restored, and nothing of it left in the operand buffers. -/
def abortedGroup (l : Nat) (t : Thread) (g : Group) : Group :=
  { g.modThread l fun _ => t with
    obuf := g.obuf.map (fun b => (b.1, b.2 &&& ~~~(bitMask 64 l)))
    obufPrev := g.obufPrev.map fun b => (b.1, b.2 &&& ~~~(bitMask 64 l)) }

theorem txAbort_of_quiet {s : State} {gid l : Nat} {g : Group} (hg : mapFind s.groups gid = some g)
    (hrun : (g.thread l).status = .running) (hwait : (g.thread l).wait = .aborting)
    (hops : ∀ o ∈ g.ops, o.id < (g.thread l).tx.firstOp ∨ hasBit o.left l = false) :
    txAbort s gid l = some (modGrp (dropToken (dropLocks s gid fun k => k.lane = l) gid fun k => k = l) gid
      (abortedGroup l (abortedThread s gid l g))) := by
  have hquiet : (g.ops.any fun o => decide ((g.thread l).tx.firstOp ≤ o.id) && hasBit o.left l) = false :=
    List.any_eq_false.2 fun o ho => by
      rcases hops o ho with hold | hleft
      · simp [hold]
      · simp [hleft]
  simp only [txAbort, hg, hrun, hwait, hquiet, ne_eq, not_true_eq_false, decide_false, Bool.or_self, Bool.false_eq_true,
    if_false]
  rfl

/-- Undoing registers leaves a thread's transaction as it was. -/
theorem tx_foldl_undo (es : List (Nat × Word)) (t : Thread) :
    (es.foldl (fun t e => writeV { t with poison := t.poison.filter (· ≠ e.1) } e.1 e.2) t).tx = t.tx := by
  induction es generalizing t with
  | nil => rfl
  | cons e es ih => exact ih _

/-- A thread that aborts stands at its TXB with what its checkpoint holds, whether or not it parks. -/
theorem abortedThread_restores (s : State) (gid l : Nat) (g : Group) :
    let x := (g.thread l).tx
    let y := abortedThread s gid l g
    y.pc = x.ckPc ∧ y.block = x.ckBlock ∧ y.p = x.ckP ∧ y.draw = x.ckDraw ∧ y.batch = x.ckBatch ∧
      y.recon = x.ckRecon ∧ y.tx.active = false ∧ y.tx.cause = x.cause ∧ y.tx.aborts = min (x.aborts + 1) 255 := by
  have hcount : ∀ t : Thread, t.tx = (g.thread l).tx →
      (countAbort t (g.thread l).tx.cause (g.thread l).tx.code).tx.aborts = min ((g.thread l).tx.aborts + 1) 255 :=
    fun t ht => by rw [← ht]; rfl
  have haborts := hcount _ (tx_foldl_undo (undoEntries s gid l (g.thread l).tx.undo) (g.thread l))
  unfold abortedThread
  dsimp only
  split
  · exact ⟨rfl, rfl, rfl, rfl, rfl, rfl, rfl, rfl, haborts⟩
  · exact ⟨rfl, rfl, rfl, rfl, rfl, rfl, rfl, rfl, haborts⟩

theorem txLimit_of_open {s : State} {gid l : Nat} {g : Group} (hg : mapFind s.groups gid = some g)
    (hrun : (g.thread l).status = .running) (hopen : (g.thread l).tx.active = true)
    (hwait : (g.thread l).wait ≠ .aborting) (hround : l ∉ g.round.lanes) :
    (txLimit s gid l).getD s = if 65536 ≤ (g.thread l).tx.items then abortLane s gid l 5 0 else s := by
  by_cases hmax : 65536 ≤ (g.thread l).tx.items
  · simp [txLimit, hg, hrun, hopen, hwait, hround, hmax]
  · simp [txLimit, hg, hmax]

/-! ## Tokens (R330, R336) -/

theorem passToken_of_holder {s : State} {lid gid : Nat} {la : Launch} (hla : mapFind s.launches lid = some la)
    (hdet : la.det = false) (htoken : la.token = none)
    (hfind : (launchGroups s lid).find? (holdsNext s) = some gid) :
    passToken s lid = some (modLaunch s lid fun l => { l with token := some gid }) := by
  simp [passToken, hla, hdet, htoken, hfind]

theorem grantToken_of_free {s : State} {gid l op : Nat} {g : Group} (hg : mapFind s.groups gid = some g)
    (hwait : (g.thread l).wait = .txb op) (hwants : (g.thread l).tx.wants = some none) (hres : g.resident = true)
    (hfree : (partAt s (launchOf s gid).part).irrevToken = none) :
    grantToken s gid l =
      let t := modPart s (launchOf s gid).part fun p => { p with irrevToken := some (gid, l) }
      let r := beginRelease t g.core gid (bitMask 64 l) true none .nothing []
      some (modThread r.1 gid l fun t => { t with tx := { t.tx with wants := some (some r.2) } }) := by
  simp only [grantToken, hg, hwait, hwants, hfree, hres, Option.isSome_none, Bool.not_true, Bool.or_self,
    Bool.false_eq_true, if_false]

theorem grantToken_of_released {s : State} {gid l op rel : Nat} {g : Group} (hg : mapFind s.groups gid = some g)
    (hwait : (g.thread l).wait = .txb op) (hwants : (g.thread l).tx.wants = some (some rel))
    (hrel : released s rel = true) : grantToken s gid l = some (openIrrevocable s gid l op) := by
  simp only [grantToken, hg, hwait, hwants, hrel, if_true]

/-- Settles O38, by what each event does in the state that its clause describes. -/
theorem transactionEventsComplete : Obligations.TransactionEventsComplete := by
  unfold Obligations.TransactionEventsComplete
  refine ⟨fun s gid g hg hidle hres hcore hne hat => next_getD_of_eq_some (formRound_of_free hg hidle hres hcore hne hat),
    fun s gid g hg hstage hrel => next_getD_of_eq_some (lockNext_of_released hg hstage hrel),
    fun s gid g scr sector rest hg hstage htodo => ⟨fun hnone hfree hline => ?_, fun hirrev => ?_⟩,
    fun s gid g hg hstage hchecks => next_getD_of_eq_some (commitApply_of_checked hg hstage hchecks),
    fun s gid g l r hg hstage htodo hlast hr hord => ?_,
    fun s gid l g hg hrun hwait hops hl => ⟨_, next_getD_of_eq_some (txAbort_of_quiet hg hrun hwait hops), ?_⟩,
    fun s gid l g hg hrun hopen hwait hround => congrArg Host.Outcome.next (txLimit_of_open hg hrun hopen hwait hround),
    fun s lid la gid hla hdet htoken hfind => next_getD_of_eq_some (passToken_of_holder hla hdet htoken hfind),
    fun s gid l g op hg hwait hwants hres hfree => next_getD_of_eq_some (grantToken_of_free hg hwait hwants hres hfree),
    fun s gid l g op rel hg hwait hwants hrel => next_getD_of_eq_some (grantToken_of_released hg hwait hwants hrel)⟩
  · have hga : grpAt s gid = g := grpAt_of_mapFind hg
    exact next_getD_of_eq_some ((lockNext_of_sector hg hstage htodo).trans
      (lockSector1_of_free hnone hfree (by rwa [hga])))
  · exact next_getD_of_eq_some ((lockNext_of_sector hg hstage htodo).trans (lockSector1_of_irrevocable hirrev))
  · subst hr
    exact next_getD_of_eq_some (commitUnlock_of_applied hg hstage htodo hlast hord)
  · have hga : grpAt s gid = g := grpAt_of_mapFind hg
    have hthread : (grpAt (modGrp (dropToken (dropLocks s gid fun k => k.lane = l) gid fun k => k = l) gid
        (abortedGroup l (abortedThread s gid l g))) gid).thread l = abortedThread s gid l g := by
      rw [grpAt_modGrp_same]
      show ((grpAt s gid).modThread l fun _ => abortedThread s gid l g).thread l = _
      rw [thread_modThread, hga, if_pos ⟨rfl, hl⟩]
    rw [hthread]
    exact abortedThread_restores s gid l g

end Sys2Proof.Machine
end

section
/-! PROOF. Reliability.lean: patrol, HEALTH, ASSAYCFG, and the verdicts on repeated runs (R390, R397, R399, R401). -/

namespace Sys2Proof.Machine

/-! ## Patrol, HEALTH and ASSAYCFG -/

theorem exec_patrolScrub (die chan : Nat) (s : State) : exec (.patrolScrub die chan) s = execPatrolScrub die chan s := rfl

theorem exec_healthClear (val : Word) (s : State) : exec (.healthClear val) s = execHealthClear val s := rfl

theorem exec_assaycfgWrite (part : Nat) (val : Word) (s : State) :
    exec (.assaycfgWrite part val) s = execAssaycfgWrite part val s := rfl

/-- The bits of a word from a place on, as the bit vector of that width. -/
theorem ofNat_bits (x : Word) (lo w : Nat) : BitVec.ofNat w (bits x.toNat lo w) = x.extractLsb' lo w := by
  apply BitVec.eq_of_toNat_eq
  simp [bits]

/-! ## Repeated runs (R399) -/

/-- The original team, with the runs that it has had. -/
def noteRun (s : State) (team orig : Nat) (runs : List (Nat × Word)) : State :=
  modTeam (eraseRerun s team) orig fun t => { t with runs := runs }

/-- A repeated run is over, nothing of it is on its way, and its original still runs. -/
structure RunOver (s : State) (team orig : Nat) (r : Team) : Prop where
  found : mapFind s.teams team = some r
  done : r.st = .done
  rerun : r.rerunOf = some orig
  quiet : ∀ e ∈ s.pubs, e.2.lid ≠ r.lid
  original : (mapFind s.teams orig).isSome = true
  running : (launchAt s (teamAt s orig).lid).st = .running

section
variable {s : State} {team orig : Nat} {r : Team}

theorem RunOver.quiet_any (h : RunOver s team orig r) : (s.pubs.any fun e => e.2.lid = r.lid) = false :=
  List.any_eq_false.2 fun e he => by simpa using h.quiet e he

/-- A second run that agrees with the first passes. -/
theorem assayRun_of_agrees {a : Nat × Word} (h : RunOver s team orig r) (hruns : (teamAt s orig).runs = [a])
    (hsig : a.2 = r.sig) :
    assayRun s team = some (takeVerdict (noteRun s team orig [a, (r.core, r.sig)]) orig 1) := by
  have horig : (mapFind s.teams orig).isNone = false := by rw [← Option.not_isSome, h.original, Bool.not_true]
  simp only [assayRun, h.found, h.done, h.rerun, h.quiet_any, h.running, horig, hruns, hsig, decide_true, Bool.not_true,
    Bool.not_false, Bool.or_self, Bool.false_eq_true, if_false, List.cons_append, List.nil_append, List.map_cons,
    List.map_nil, if_true]
  rfl

/-- A third run decides. -/
theorem assayRun_of_third {a b : Nat × Word} (h : RunOver s team orig r) (hruns : (teamAt s orig).runs = [a, b]) :
    assayRun s team = some (takeVerdict (noteRun s team orig [a, b, (r.core, r.sig)]) orig
      (verdictOf a.2 b.2 r.sig)) := by
  have horig : (mapFind s.teams orig).isNone = false := by rw [← Option.not_isSome, h.original, Bool.not_true]
  simp only [assayRun, h.found, h.done, h.rerun, h.quiet_any, h.running, horig, hruns, decide_true, Bool.not_true,
    Bool.not_false, Bool.or_self, Bool.false_eq_true, if_false, List.cons_append, List.nil_append, List.map_cons,
    List.map_nil]
  rfl
end

/-- Settles O41, by the bodies of the writes and the verdicts on runs that are over. -/
theorem reliabilityComplete : Obligations.ReliabilityComplete := by
  unfold Obligations.ReliabilityComplete
  refine ⟨fun _ _ _ => exec_patrolScrub .., fun _ _ => exec_healthClear .., fun s part val hvar hpart hrate => ?_,
    fun s team r orig a hr hdone hrerun hquiet horig hrun hruns hsig =>
      next_getD_of_eq_some (assayRun_of_agrees ⟨hr, hdone, hrerun, hquiet, horig, hrun⟩ hruns hsig),
    fun s team r orig a b hr hdone hrerun hquiet horig hrun hruns =>
      next_getD_of_eq_some (assayRun_of_third ⟨hr, hdone, hrerun, hquiet, horig, hrun⟩ hruns)⟩
  rw [exec_assaycfgWrite]
  simp [execAssaycfgWrite, hvar, hpart, Nat.not_lt.2 hrate, ofNat_bits]

end Sys2Proof.Machine
end

section
/-! PROOF. Ingots.lean: the operations of the ingot interface, the rows of a witness's table, IMEXT and the lineage region
(R422 to R440). -/

namespace Sys2Proof.Machine

/-! ## An operation that runs (R423, R424) -/

/-- An operation of the interface runs on a partition that exists, and the lineage region has not been rolled back. -/
def OpRuns (s : State) (op : Nat) : Prop :=
  s.ingot.busy = true ∧ s.ingot.runOp = op ∧ s.flash.rolledBack = false ∧ partExists s s.ingot.runPart = true

theorem ingotOp_of_some {op : Nat} {body : State → Option State} {s t : State} (h : OpRuns s op)
    (hb : body s = some t) : ingotOp op body s = .next t := by
  obtain ⟨hbusy, hop, hback, hpart⟩ := h
  simp [ingotOp, hbusy, hop, hback, hpart, hb]

/-! ## NONCE and REPORT (R437) -/

theorem nonce_of_runs {s : State} (h : OpRuns s 1) :
    exec .nonce s =
      let r := randomBytes s 4
      let t := modPart r.1 r.1.ingot.runPart fun p => { p with nonce := BitVec.ofNat 256 (bytesNat r.2) }
      .next (endOp (putHost t (argOf t 1) r.2) 0 32) := by
  show execNonce s = _
  exact ingotOp_of_some h rfl

theorem report_of_runs {s : State} (h : OpRuns s 2) :
    exec .report s =
      let body := reportBody s s.ingot.runPart (hostBytes s (argOf s 0) 32)
      let b := body ++ signature s body ++ Config.certificate
      .next (endOp (putHost { s with free := s.free + 1 } (argOf s 1) b) 0 b.length) := by
  show execReport s = _
  exact ingotOp_of_some h rfl

/-! ## SEAL and SEALFIN (R425 to R428) -/

theorem seal_of_terms {s : State} {b : Bond} {ts : List (BitVec 512 × BitVec 4096)} (h : OpRuns s 3)
    (hstage : s.ingot.stage = 0) (hterms : sealTerms (abandonSeal s) = .ok (b, ts)) :
    exec .seal s = .next (modIngot (beginSeal (abandonSeal s) b ts) fun g =>
      { g with dest := argOf (abandonSeal s) 1, capacity := argOf (abandonSeal s) 2 }) := by
  show execSeal s = _
  exact ingotOp_of_some h (by simp only [hstage, hterms])

theorem seal_of_bad_terms {s : State} {e : Nat} (h : OpRuns s 3) (hstage : s.ingot.stage = 0)
    (hterms : sealTerms (abandonSeal s) = .error e) : exec .seal s = .next (endOp (abandonSeal s) e 0) := by
  show execSeal s = _
  exact ingotOp_of_some h (by simp only [hstage, hterms])

/-- Once the launches of the partition have ended, its cores publish what they hold. -/
theorem seal_publishes {s : State} {b : Bond} (h : OpRuns s 3) (hstage : s.ingot.stage = 1)
    (hb : s.ingot.sealing = some b) (hended : ∀ e ∈ s.launches, e.2.part = b.part → e.2.st = .finished) :
    exec .seal s = .next (modIngot (publishAll s (partAt s b.part)) fun g => { g with stage := 2 }) := by
  have hnone : (s.launches.any fun e => e.2.part = b.part && e.2.st ≠ LaunchState.finished) = false :=
    List.any_eq_false.2 fun e he => by simpa using hended e he
  show execSeal s = _
  exact ingotOp_of_some h (by simp only [hstage, hb, hnone, Bool.false_eq_true, if_false])

theorem seal_collects {s : State} {b : Bond} (h : OpRuns s 3) (hstage : s.ingot.stage = 2)
    (hb : s.ingot.sealing = some b) (hflushed : flushed s (partAt s b.part) b.part = true) :
    exec .seal s = .next (collectIngot s b) := by
  show execSeal s = _
  exact ingotOp_of_some h (by simp only [hstage, hb, hflushed, if_true])

/-- The certificates of the witnesses close an ingot that its destination can hold. -/
theorem sealfin_of_statements {s : State} {b : Bond} {xs : List Statement} (h : OpRuns s 4)
    (hb : s.ingot.sealing = some b) (hpart : b.part = s.ingot.runPart)
    (hxs : checkStatements b (statementsAt s (argOf s 0) b.k) 0x81 b.n (some myDevid) = .ok xs)
    (hfits : s.ingot.pos + (448 + 832 * b.k) ≤ s.ingot.capacity) (hstop : s.ingot.stop = true) :
    exec .sealfin s =
      let ms := b.members.flatMap digestBytes
      let t := putHost s (s.ingot.dest + s.ingot.pos)
        (ms ++ zeros (448 - ms.length) ++ (statementsAt s (argOf s 0) b.k).flatten)
      let t := putLineage t
        { l := b.l, r := b.n, st := .sealed, digest := b.digest, holder := myDevid
          prior := ((lineageAt t b.l).map (·.prior)).getD 0, setHash := setHashOf b.members }
      .next (endOp (modIngot t fun g => { g with sealing := none, targets := [] }) 0 (448 + 832 * b.k)) := by
  have hroom : ¬ s.ingot.capacity < s.ingot.pos + (448 + 832 * b.k) := Nat.not_lt.2 hfits
  show execSealfin s = _
  refine ingotOp_of_some h ?_
  simp only [hb, hpart, hxs, hroom, ne_eq, not_true_eq_false, if_false, modIngot, putHost, putLineage, hstop, if_true]

theorem sealfin_of_none {s : State} (h : OpRuns s 4) (hnone : s.ingot.sealing = none) :
    exec .sealfin s = .next (endOp s 13 0) := by
  show execSealfin s = _
  exact ingotOp_of_some h (by simp only [hnone])

/-! ## WRAP (R429) -/

/-- The image key of a sealed ingot is wrapped for the device that the report at ARG1 names. -/
theorem wrap_of_report {s : State} {r : Report} {h : List Byte} {l : BitVec 128}
    (hh : h = hostBytes s (argOf s 0) 320) (hl : l = BitVec.ofNat 128 (numAt h 8 16)) (hrun : OpRuns s 5)
    (hown : ∃ e, lineageAt s l = some e ∧ e.r = numAt h 24 8 ∧ e.st = .sealed ∧ e.holder = myDevid)
    (hr : (reportAt s (argOf s 1)).1 = some r) (hnonce : r.nonce = (partAt s s.ingot.runPart).nonce.toNat)
    (hmeas : r.pmeas = digestAt h 32) :
    exec .wrap s =
      let x := keySlot s (sub h 0 32) (imageKey (digestAt h 32) l (numAt h 24 8)) (r.devid, r.wk)
      .next (endOp (putHost x.1 (argOf x.1 1) x.2) 0 x.2.length) := by
  subst hl
  subst hh
  obtain ⟨e, he, hn, hst, hholder⟩ := hown
  show execWrap s = _
  refine ingotOp_of_some hrun ?_
  simp only [he, hn, hst, hholder, hr, hnonce, hmeas, Option.any_some, decide_true, Bool.and_self, Bool.not_true,
    Bool.false_eq_true, ne_eq, not_true_eq_false, decide_false, Bool.or_self, if_false]

/-! ## RESTORE and RESTOREFIN (R439, R440) -/

theorem restore_of_bad_terms {s : State} {e : Nat} (h : OpRuns s 6) (hfree : restorable s s.ingot.runPart = true)
    (hterms : restoreTerms s = .error e) : exec .restore s = .next (endOp (zeroPart s s.ingot.runPart) e 0) := by
  show execRestore s = _
  exact ingotOp_of_some h (by simp only [hfree, hterms, Bool.not_true, Bool.false_eq_true, if_false])

theorem restore_of_terms {s : State} {b : Bond} {ways : Nat} {cs : List Chunk} (h : OpRuns s 6)
    (hfree : restorable s s.ingot.runPart = true) (hterms : restoreTerms s = .ok (b, ways, cs)) :
    exec .restore s =
      let r := requestsFor b 2 (b.n + 1) (loadIngot s s.ingot.runPart ways cs) b.members.length
      let t := modIngot r.1 fun g => { g with claim := some b }
      .next (endOp (putHost t (argOf t 1) r.2) 3 r.2.length) := by
  show execRestore s = _
  refine ingotOp_of_some h ?_
  simp only [hfree, hterms, Bool.not_true, Bool.false_eq_true, if_false]
  rfl

/-- The claims that a majority has granted open the partition, as an entry of this device. -/
theorem restorefin_of_statements {s : State} {b : Bond} {xs : List Statement} (h : OpRuns s 7)
    (hb : s.ingot.claim = some b) (hpart : b.part = s.ingot.runPart)
    (hxs : checkStatements b (statementsAt s (argOf s 0) b.k) 0x82 (b.n + 1) (some myDevid) = .ok xs)
    (hnew : lineageAt s b.l = none) (hroom : s.flash.lineage.length < Config.lineageEntries) :
    exec .restorefin s =
      let t := putLineage (modIngot s fun g => { g with claim := none })
        { l := b.l, r := b.n + 1, st := .claimed, digest := b.digest, holder := myDevid, prior := 0
          setHash := setHashOf b.members }
      .next (endOp (resumePart t b.part) 0 0) := by
  have hfree : lineageRoom s b.l = true := by simp [lineageRoom, hroom]
  show execRestorefin s = _
  refine ingotOp_of_some h ?_
  simp only [hb, hpart, hxs, hnew, hfree, ne_eq, not_true_eq_false, if_false, Bool.not_true, Bool.false_eq_true,
    Option.map_none, Option.getD_none]

theorem restorefin_of_none {s : State} (h : OpRuns s 7) (hnone : s.ingot.claim = none) :
    exec .restorefin s = .next (endOp s 13 0) := by
  show execRestorefin s = _
  exact ingotOp_of_some h (by simp only [hnone])

/-! ## Witnesses (R435) -/

/-- The state after a witness's answer to what it has found. -/
def witnessAnswer (s : State) (x : Statement) (w : Witnessed) : State :=
  match w with
  | .bad e => endOp s e 0
  | .refused => answerWitness s x (lineageAt s x.l) 0x84 12
  | .row e k => answerWitness s x e k 0

theorem witnessOp_of_mine {mine : Nat → Bool} {s : State} {x : Statement} {w : Witnessed}
    (hbusy : s.ingot.busy = true) (hop : s.ingot.runOp = 0x10) (hback : s.flash.rolledBack = false)
    (hw : witnessed s = (x, w)) (hmine : mine x.kind = true) : witnessOp mine s = .next (witnessAnswer s x w) := by
  simp only [witnessOp, ingotOp, hbusy, hop, hback, hw, hmine, Bool.not_true, ne_eq, not_true_eq_false, decide_false,
    Bool.or_self, Bool.false_eq_true, if_false, Bool.false_and, Option.getD_some]
  rfl

/-- The answers of an instruction that answers requests of some kinds. -/
theorem witness_answers {ins : Instr} {mine : Nat → Bool} (hx : ∀ s, exec ins s = witnessOp mine s) {s : State}
    {x : Statement} {w : Witnessed} (hbusy : s.ingot.busy = true) (hop : s.ingot.runOp = 0x10)
    (hback : s.flash.rolledBack = false) (hw : witnessed s = (x, w)) (hmine : mine x.kind = true) :
    (∀ e, w = .bad e → exec ins s = .next (endOp s e 0)) ∧
    (w = .refused → exec ins s = .next (answerWitness s x (lineageAt s x.l) 0x84 12)) ∧
    (∀ e k, w = .row e k → exec ins s = .next (answerWitness s x e k 0)) := by
  have hans : exec ins s = .next (witnessAnswer s x w) := (hx s).trans (witnessOp_of_mine hbusy hop hback hw hmine)
  refine ⟨fun e he => ?_, fun he => ?_, fun e k he => ?_⟩
  · subst he
    exact hans
  · subst he
    exact hans
  · subst he
    exact hans

/-- Settles O44, clause by clause. -/
theorem ingotsComplete : Obligations.IngotsComplete := by
  unfold Obligations.IngotsComplete
  refine ⟨⟨fun s h => nonce_of_runs h, fun s h => report_of_runs h,
      fun s b ts h hstage hterms => seal_of_terms h hstage hterms,
      fun s e h hstage hterms => seal_of_bad_terms h hstage hterms,
      fun s b h hstage hb hended => seal_publishes h hstage hb hended,
      fun s b h hstage hb hflushed => seal_collects h hstage hb hflushed,
      fun s b xs h hb hpart hxs hfits hstop => sealfin_of_statements h hb hpart hxs hfits hstop,
      fun s h hnone => sealfin_of_none h hnone,
      fun s r h hown hr hnonce hmeas => wrap_of_report rfl rfl h hown hr hnonce hmeas,
      fun s h hfree => ⟨fun e hterms => restore_of_bad_terms h hfree hterms,
        fun b ways cs hterms => restore_of_terms h hfree hterms⟩,
      fun s b xs h hb hpart hxs hnew hroom => restorefin_of_statements h hb hpart hxs hnew hroom,
      fun s h hnone => restorefin_of_none h hnone⟩,
    ⟨fun s x w hbusy hop hback hw hk => witness_answers (mine := (· = 1)) (fun _ => rfl) hbusy hop hback hw
        (decide_eq_true hk),
      fun s x w hbusy hop hback hw hk => witness_answers (mine := (· = 2)) (fun _ => rfl) hbusy hop hback hw
        (decide_eq_true hk),
      fun s x w hbusy hop hback hw hk => witness_answers (mine := (· = 3)) (fun _ => rfl) hbusy hop hback hw
        (decide_eq_true hk),
      fun s x w hbusy hop hback hw hk => witness_answers (mine := fun k => k = 0 || 4 ≤ k) (fun _ => rfl) hbusy hop hback
        hw (by simp [hk])⟩,
    fun x e => ⟨fun hk hn => ?_, fun hk hr hh => ?_, fun hk hr hst hd => ?_, fun hk hr hst hh => ?_, fun hk => ?_,
      fun hk => ?_⟩, fun _ _ _ => rfl, fun _ => rfl⟩
  · simp [witnessRow, hk, hn]
  · simp [witnessRow, hk, hr, hh]
  · simp [witnessRow, hk, hr, hst, hd]
  · simp [witnessRow, hk, hr, hst, hh]
  · simp [witnessRow, hk]
  · simp [witnessRow, hk]

end Sys2Proof.Machine
end

section
/-! PROOF. PairedWords.lean: the P word, and encodings that R40 rejects (R36 to R38, R40). -/

namespace Sys2Proof.Machine

theorem exec_pairedWord (h : Hdr) (op1 op2 : BitVec 7) (d1 a1 b1 d2 b2 : Opnd) (s : State) :
    exec (.pairedWord h op1 op2 d1 a1 b1 d2 b2) s =
      runItem (pairItem h op1 op2 d1 a1 b1 d2 b2) (pairBody op1 op2 d1 a1 b1 d2 b2) s := rfl

theorem exec_unassignedEncoding (why : Reject) (s : State) :
    exec (.unassignedEncoding why) s = runItem (illegalItem s) (fun _ _ _ => .fault { code := .illegalOpc }) s := rfl

/-- The values of one operation of a P word in the executing lanes. -/
def pairVals (p : PairOp) (a b : Opnd) (i : Issue) (ex : Mask) (s : State) : List (Nat × Word) :=
  (lanes i ex s).map fun l => (l, (p.f (readOpnd s i.gid l a) (readOpnd s i.gid l b)).1)

/-- The flags that one operation of a P word raises in the executing lanes. -/
def pairFlags (p : PairOp) (a b : Opnd) (i : Issue) (ex : Mask) (s : State) : FF :=
  ffAll ((lanes i ex s).map fun l => (p.f (readOpnd s i.gid l a) (readOpnd s i.gid l b)).2)

theorem pairResults_eq (p : PairOp) (a b : Opnd) (i : Issue) (ex : Mask) (s : State) :
    pairResults s i.gid (lanesOf (grpAt s i.gid).width ex) p a b = (pairVals p a b i ex s, pairFlags p a b i ex s) := by
  simp only [pairResults, pairVals, pairFlags, lanes, List.map_map, Function.comp_def]

/-- What a P word answers whose operations are in the table, by the order of their latencies (R37). -/
theorem pairBody_of_entries {op1 op2 : BitVec 7} {d1 a1 b1 d2 b2 : Opnd} {p q : PairOp} (i : Issue) (ex : Mask)
    (s : State) (hp : pairEntry op1 = some p) (hq : pairEntry op2 = some q) :
    let w1 := destWrites d1 (pairVals p a1 b1 i ex s)
    let w2 := destWrites d2 (pairVals q a1 b2 i ex s)
    let f1 := pairFlags p a1 b1 i ex s
    let f2 := pairFlags q a1 b2 i ex s
    let extra := retainedMiss s (grpAt s i.gid) i.act ex (pairReads a1 b1 b2)
    pairBody op1 op2 d1 a1 b1 d2 b2 i ex s =
      if p.lat < q.lat then .done { writes := w2, fflags := f2, extra := extra } (pairEarly s i ex p.lat w1 f1)
      else if q.lat < p.lat then .done { writes := w1, fflags := f1, extra := extra } (pairEarly s i ex q.lat w2 f2)
      else .done { writes := w1 ++ w2, fflags := f1 ||| f2, extra := extra } s := by
  simp only [pairBody, hp, hq, pairResults_eq]

/-- Settles O29, by the order of the two latencies; an encoding that R40 rejects raises its cause at decode. -/
theorem pairedAndUnassignedComplete : Obligations.PairedAndUnassignedComplete := by
  unfold Obligations.PairedAndUnassignedComplete
  refine ⟨?_, fun why s i hi => ?_⟩
  · intro h op1 op2 d1 a1 b1 d2 b2 s i ex p q it hi hp hq
    have hbody := pairBody_of_entries (d1 := d1) (a1 := a1) (b1 := b1) (d2 := d2) (b2 := b2) i ex s hp hq
    intro vals flags w1 w2 extra
    dsimp only at hbody
    rw [exec_pairedWord]
    obtain hlt | heq | hgt := Nat.lt_trichotomy p.lat q.lat
    · rw [if_pos hlt] at hbody
      rw [runItem_done_all hi hbody rfl, if_neg hlt.ne, if_pos hlt]
      rfl
    · rw [if_neg heq.not_lt, if_neg heq.not_gt] at hbody
      rw [runItem_done_all hi hbody rfl, if_pos heq]
      rfl
    · rw [if_neg hgt.not_gt, if_pos hgt] at hbody
      rw [runItem_done_all hi hbody rfl, if_neg hgt.ne', if_neg hgt.not_gt]
      rfl
  · rw [exec_unassignedEncoding]
    exact runItem_cause hi rfl

end Sys2Proof.Machine
end

section
/-! PROOF. PrivilegedItems.lean: privileged instructions in user mode (R41, R371, R377). -/

namespace Sys2Proof.Machine

/-- A privileged item of user mode whose operands are good raises PRIV at decode (R41, R371). -/
theorem decodeCause_of_privileged {s : State} {gid : Nat} {it : Item} (hlegal : it.illegal = false)
    (hxf64 : it.needsXf64 = false) (hpair : it.badPair = false) (hopnd : it.badOpnd = false)
    (hpriv : it.privileged = true) (hsrcs : it.srcs.any (badSource (launchOf s gid).regs it.noStream) = false)
    (hdsts : it.dsts.any (badDest (launchOf s gid).regs it.dstVs) = false) (huser : (grpAt s gid).priv = false) :
    decodeCause s gid it false = some { code := .priv } := by
  simp [decodeCause, hlegal, hxf64, hpair, hopnd, hpriv, hsrcs, hdsts, huser]

/-- An item that is no P word has no registers in one bank (R36 rule 5). -/
theorem pairBanksBad_of_no_pairRegs {g : Group} {act : Mask} {it : Item} (h : it.pairRegs = []) :
    pairBanksBad g act it = false := by
  simp [pairBanksBad, h]

/-- A privileged item of user mode raises PRIV, whatever its body (R371). -/
theorem runItem_privileged {it : Item} {body : Issue → Mask → State → Body} {s : State} {i : Issue}
    (hlegal : it.illegal = false) (hxf64 : it.needsXf64 = false) (hpair : it.badPair = false)
    (hregs : it.pairRegs = []) (hopnd : it.badOpnd = false) (hpriv : it.privileged = true) (hi : MayIssue it s i)
    (huser : (grpAt s i.gid).priv = false)
    (hsrcs : it.srcs.any (badSource (launchOf s i.gid).regs it.noStream) = false)
    (hdsts : it.dsts.any (badDest (launchOf s i.gid).regs it.dstVs) = false) :
    runItem it body s = .next (raiseItem s i it { code := .priv }) := by
  refine runItem_cause hi ?_
  rw [pairBanksBad_of_no_pairRegs hregs]
  exact decodeCause_of_privileged hlegal hxf64 hpair hopnd hpriv hsrcs hdsts huser

theorem exec_halt (h : Hdr) (code : BitVec 8) (s : State) : exec (.halt h code) s = execHalt h code s := rfl

theorem exec_l2way (h : Hdr) (d a : Opnd) (s : State) : exec (.l2way h d a) s = execL2way h d a s := rfl

theorem exec_l2wayQ (h : Hdr) (d : Opnd) (s : State) : exec (.l2wayQ h d) s = execL2wayQ h d s := rfl

theorem exec_csrr (h : Hdr) (n : BitVec 8) (d : Opnd) (s : State) : exec (.csrr h n d) s = execCsrr h n d s := rfl

theorem exec_csrw (h : Hdr) (n : BitVec 8) (op : CsrOp) (d a : Opnd) (s : State) :
    exec (.csrw h n op d a) s = execCsrw h n op d a s := rfl

/-- Settles O55: each of these instructions runs a privileged item. -/
theorem privilegedItemsTrapInUserMode : Obligations.PrivilegedItemsTrapInUserMode := by
  unfold Obligations.PrivilegedItemsTrapInUserMode
  refine ⟨fun h s i hi hu hs hd => ?_, fun h code s i hi hu hs hd => ?_, fun h d a b s i hi hu hs hd => ?_,
    fun h d a s i hi hu hs hd => ?_, fun h d s i hi hu hs hd => ?_, fun h n d hn s i hi hu hs hd => ?_,
    fun h n op d a hn s i hi hu hs hd => ?_⟩
  · rw [exec_eret]
    exact runItem_privileged rfl rfl rfl rfl rfl rfl hi hu hs hd
  · rw [exec_halt, execHalt]
    exact runItem_privileged rfl rfl rfl rfl rfl rfl hi hu hs hd
  · rw [exec_mbox]
    exact runItem_privileged rfl rfl rfl rfl rfl rfl hi hu hs hd
  · rw [exec_l2way, execL2way]
    exact runItem_privileged rfl rfl rfl rfl rfl rfl hi hu hs hd
  · rw [exec_l2wayQ, execL2wayQ]
    exact runItem_privileged rfl rfl rfl rfl rfl rfl hi hu hs hd
  · rw [exec_csrr, execCsrr]
    exact runItem_privileged rfl rfl rfl rfl rfl hn hi hu hs hd
  · rw [exec_csrw, execCsrw]
    exact runItem_privileged rfl rfl rfl rfl rfl hn hi hu hs hd

end Sys2Proof.Machine
end

section
/-! PROOF. IssueFrames.lean: what an issue leaves alone, and an issue whose guard holds in no lane (R15, R16, R22, R358). -/

namespace Sys2Proof.Machine

/-! ## What an issue leaves alone (R15, R358) -/

theorem pushDest_of_not_sq {s : State} {gid : Nat} {ex : Mask} {d : Opnd} {vals : List (Nat × Word)}
    (h : ∀ n, d ≠ .sq n) : pushDest s gid ex d vals = s := by
  unfold pushDest
  split
  next n => exact absurd rfl (h n)
  · rfl

/-- An instruction whose effect leaves the state as it was leaves everything alone when it issues. -/
theorem still_of_takes {ins : Instr} {it : Item} {e : Issue → Mask → State → Effect}
    {post : Issue → Mask → State → State} (ht : Takes ins it always e post) {s : State} {i : Issue} {ex : Mask}
    (hi : Issues it s i ex) (hpost : post i ex s = s) : ∃ t, exec ins s = .next t ∧ Still s t := by
  refine ⟨_, ht s i ex hi trivial, ?_⟩
  rw [hpost]
  exact still_finishIssue ..

/-- Settles O57: an item that names no stream and no drain port takes its effect in the state that it finds. -/
theorem issueKeepsRegistersAndMemory : Obligations.IssueKeepsRegistersAndMemory := by
  unfold Obligations.IssueKeepsRegistersAndMemory
  refine ⟨still_finishIssue, fun ins it kind d k f ff s i ex ht hs hd hi => still_of_takes ht hi ?_,
    fun ins it pd f ff s i ex ht hs hi => still_of_takes ht hi (consumeAll_of_no_stream _ _ hs),
    fun ins it d f s i ex ht hs hi => still_of_takes ht hi (consumeAll_of_no_stream _ _ hs)⟩
  rw [consumeAll_of_no_stream _ _ hs, pushDest_of_not_sq hd]

/-! ## An item whose guard holds in no lane (R16, R22) -/

theorem streamBlocked_of_no_lanes (s : State) (gid : Nat) (it : Item) : streamBlocked s gid it 0 = false := by
  have free (wr : Bool) : scratchBlocked s gid 8 wr [] = false := by simp [scratchBlocked]
  simp only [streamBlocked, lanesOf_zero, List.map_nil, free, Bool.or_eq_false_iff, List.any_eq_false]
  refine ⟨fun o _ => ?_, fun o _ => ?_⟩
  · split <;> exact Bool.false_ne_true
  · split <;> exact Bool.false_ne_true

theorem heldAccess_of_no_lanes (g : Group) (it : Item) : heldAccess g it 0 = false := by
  simp [heldAccess]

/-- Of an item whose guard holds in no lane, and that is not REGROUP's, only the issue is recorded (R22). -/
theorem runItem_of_no_lanes {it : Item} {body : Issue → Mask → State → Body} {s : State} {i : Issue}
    (hexit : it.guardExit = false) (hi : MayIssue it s i) (hd : Decodes it s i)
    (hex : execLanes (grpAt s i.gid) i.act it.hdr = 0) (hspec : (grpAt s i.gid).spec.st ≠ .speculating) :
    runItem it body s = .next (finishIssue s i it 0 {}) := by
  obtain ⟨hissuing, hfree, hdescr, hdist, hdef, hhold, hacc, hwait, hsetf, hunit⟩ := hi
  unfold Decodes at hd
  have hand (m : Mask) : 0 &&& m = 0 := BitVec.zero_and
  have hmask : maskOf 64 [] = 0 := rfl
  unfold runItem
  simp only [hissuing, hfree, hdescr, hdist, hdef, hhold, hacc, hwait, hsetf, hunit, hd, hex, hexit, hand, hspec, hmask,
    heldAccess_of_no_lanes, streamBlocked_of_no_lanes, saveTxUndo, lanesOf_zero, abortLanes_zero, Bool.not_true,
    Bool.or_self, Bool.false_eq_true, if_false, if_true, ite_self, decide_false, Bool.false_and, List.any_nil,
    List.findSome?_nil]

theorem exec_iaddS (h : Hdr) (ty : Ty) (sat : Bool) (d a b : Opnd) (s : State) :
    exec (.iaddS h ty sat d a b) s = execIaddS h ty sat d a b s := rfl

theorem exec_ffma (h : Hdr) (ty : Ty) (rnd : Rnd) (d a b c : Opnd) (s : State) :
    exec (.ffma h ty rnd d a b c) s = execFfma h ty rnd d a b c s := rfl

theorem exec_ldS (h : Hdr) (ty : Ty) (sc : Fin 4) (acq : Option Scope) (ch : CHint) (d a b : Opnd) (s : State) :
    exec (.ldS h ty sc acq ch d a b) s = execLdS h ty sc acq ch d a b s := rfl

theorem exec_stS (h : Hdr) (ty : Ty) (sc : Fin 4) (rel : Option Scope) (ch : CHint) (d a b : Opnd) (s : State) :
    exec (.stS h ty sc rel ch d a b) s = execStS h ty sc rel ch d a b s := rfl

theorem exec_bra (h : Hdr) (off : BitVec 18) (s : State) : exec (.bra h off) s = execBra h off s := rfl

theorem exec_trap (h : Hdr) (code : BitVec 18) (s : State) : exec (.trap h code) s = execTrap h code s := rfl

theorem guardExit_f64Item (h : Hdr) (ty : Ty) (srcs : List Opnd) (d : Opnd) :
    (f64Item h ty srcs d).guardExit = false := by
  unfold f64Item
  split <;> rfl

/-- Settles O60: each of these instructions runs an item that ends no thread by its guard. -/
theorem guardedOffItemsOnlyIssue : Obligations.GuardedOffItemsOnlyIssue := by
  unfold Obligations.GuardedOffItemsOnlyIssue
  refine ⟨fun h ty sat d a b s i hi hd hex hspec => ?_, fun h ty rnd d a b c s i hi hd hex hspec => ?_,
    fun h ty sc acq ch d a b s i hi hd hex hspec => ?_, fun h ty sc rel ch d a b s i hi hd hex hspec => ?_,
    fun h off s i hi hd hex hspec => ?_, fun h code s i hi hd hex hspec => ?_⟩
  · rw [exec_iaddS, execIaddS, runPure, runLanes]
    exact runItem_of_no_lanes rfl hi hd hex hspec
  · rw [exec_ffma, execFfma, runFloat, runLanes]
    exact runItem_of_no_lanes (guardExit_f64Item ..) hi hd hex hspec
  · rw [exec_ldS, execLdS]
    exact runItem_of_no_lanes rfl hi hd hex hspec
  · rw [exec_stS, execStS]
    exact runItem_of_no_lanes rfl hi hd hex hspec
  · rw [exec_bra, execBra]
    exact runItem_of_no_lanes rfl hi hd hex hspec
  · rw [exec_trap, execTrap]
    exact runItem_of_no_lanes rfl hi hd hex hspec

end Sys2Proof.Machine
end

section
/-! PROOF. Registers.lean: hard-wired registers, and what is written to the others (R28, R162). -/

namespace Sys2Proof.Machine

/-- A vector register that is written reads what was written, in the canonical form that it keeps. -/
theorem readV_writeV_same {t : Thread} (n : Nat) (x : Word) (h : canonFrom 0 0 t.v = true) :
    readV (writeV t n x) n = x := mapGet_mapSet_same n x h

theorem readV_writeV_ne (t : Thread) {n m : Nat} (x : Word) (h : m ≠ n) : readV (writeV t n x) m = readV t m :=
  mapGet_mapSet_ne _ _ _ h

theorem readS_writeS_same {g : Group} (n : Nat) (x : Word) (h : canonFrom 0 0 g.s = true) :
    readS (writeS g n x) n = x := mapGet_mapSet_same n x h

theorem readS_writeS_ne (g : Group) {n m : Nat} (x : Word) (h : m ≠ n) : readS (writeS g n x) m = readS g m :=
  mapGet_mapSet_ne _ _ _ h

theorem readP_seven (t : Thread) : readP t 7 = true := if_pos rfl

theorem writeP_seven (t : Thread) (b : Bool) : writeP t 7 b = t := if_pos rfl

/-- A predicate other than p7 reads what was written to it. -/
theorem readP_writeP_same (t : Thread) {i : Nat} (b : Bool) (h : i < 7) : readP (writeP t i b) i = b := by
  have hbits := getLsbD_bitMask t.p i h i (by omega)
  have hne : i ≠ 7 := by omega
  cases b <;> simp [readP, writeP, hne, hasBit, hbits]

/-- Settles O51, by the laws of sparse stores and of the bits of a predicate register. -/
theorem registersReadAsWired : Obligations.RegistersReadAsWired := by
  unfold Obligations.RegistersReadAsWired
  exact ⟨readP_seven, writeP_seven, fun _ _ _ => ⟨rfl, rfl, rfl⟩, fun _ => rfl, fun _ _ => rfl, fun _ _ _ _ => rfl,
    fun t n x h => ⟨readV_writeV_same n x h, canonFrom_mapSet h (Nat.zero_le n), fun _ hm => readV_writeV_ne t x hm⟩,
    fun g n x h => ⟨readS_writeS_same n x h, canonFrom_mapSet h (Nat.zero_le n), fun _ hm => readS_writeS_ne g x hm⟩,
    fun t i b hi => ⟨readP_writeP_same t b hi, fun j hj hne => readP_writeP_ne t i j b hj hne⟩⟩

end Sys2Proof.Machine
end

section
/-! PROOF. Completion.lean: what the completion of an instruction writes, and which of two writes of one core cycle stays
(R15, R163, R198, R358). -/

namespace Sys2Proof.Machine

/-! ## What writes of registers leave alone -/

/-- A group after some register writes: every other register, and every status, reads as before. -/
structure WritesOnly (ws : List RegWrite) (g x : Group) : Prop where
  uniform : ∀ n, (∀ w ∈ ws, w.dest ≠ .s n) → readS x n = readS g n
  vector : ∀ l n, (∀ w ∈ ws, w.dest ≠ .v l n) → readV (x.thread l) n = readV (g.thread l) n
  predicate : ∀ l p, p < 8 → (∀ w ∈ ws, w.dest ≠ .p l p) → readP (x.thread l) p = readP (g.thread l) p
  fflags : x.fflags = g.fflags
  status : x.ftrapen = g.ftrapen ∧ x.rmode = g.rmode ∧ x.xa = g.xa ∧ x.xpc = g.xpc ∧ x.xcause = g.xcause ∧
    x.xvec = g.xvec ∧ x.xscratch = g.xscratch ∧ x.txcfg = g.txcfg ∧ x.priv = g.priv

theorem WritesOnly.refl (ws : List RegWrite) (g : Group) : WritesOnly ws g g :=
  ⟨fun _ _ => rfl, fun _ _ _ => rfl, fun _ _ _ _ => rfl, rfl, rfl, rfl, rfl, rfl, rfl, rfl, rfl, rfl, rfl⟩

theorem writesOnly_applyWrite (g : Group) (w : RegWrite) : WritesOnly [w] g (applyWrite g w) := by
  obtain ⟨hs, hv, hp, hff, hstatus⟩ := applyWrite_frame g w
  exact ⟨fun n h => hs n (h w List.mem_cons_self), fun l n h => hv l n (h w List.mem_cons_self),
    fun l p hlt h => hp l p hlt (h w List.mem_cons_self), hff, hstatus⟩

/-- Writes in order: what neither part of them names stays. -/
theorem WritesOnly.cons {w : RegWrite} {ws : List RegWrite} {g x y : Group} (hx : WritesOnly [w] g x)
    (hy : WritesOnly ws x y) : WritesOnly (w :: ws) g y := by
  have head {d : Dest} (h : ∀ u ∈ w :: ws, u.dest ≠ d) : ∀ u ∈ [w], u.dest ≠ d := fun u hu =>
    h u (List.mem_singleton.1 hu ▸ List.mem_cons_self)
  have tail {d : Dest} (h : ∀ u ∈ w :: ws, u.dest ≠ d) : ∀ u ∈ ws, u.dest ≠ d := fun u hu =>
    h u (List.mem_cons_of_mem _ hu)
  obtain ⟨a1, a2, a3, a4, a5, a6, a7, a8, a9⟩ := hx.status
  obtain ⟨b1, b2, b3, b4, b5, b6, b7, b8, b9⟩ := hy.status
  exact ⟨fun n h => (hy.uniform n (tail h)).trans (hx.uniform n (head h)),
    fun l n h => (hy.vector l n (tail h)).trans (hx.vector l n (head h)),
    fun l p hp h => (hy.predicate l p hp (tail h)).trans (hx.predicate l p hp (head h)),
    hy.fflags.trans hx.fflags, b1.trans a1, b2.trans a2, b3.trans a3, b4.trans a4, b5.trans a5, b6.trans a6, b7.trans a7,
    b8.trans a8, b9.trans a9⟩

/-- What a rollback restores is all that changes where a write enters it (R304, R308). -/
theorem keepWrite_eq_spec (op : Nat) (w : RegWrite) (g : Group) : ∃ sp, keepWrite op w g = { g with spec := sp } := by
  unfold keepWrite
  split
  · exact ⟨g.spec, rfl⟩
  · split
    · exact ⟨g.spec, rfl⟩
    · exact ⟨_, rfl⟩
    · exact ⟨_, rfl⟩

/-- A write that lands has the registers of the write alone. -/
theorem landWrite_of_lands {op low : Nat} {g : Group} {w : RegWrite} (h : staysBefore g op low w.dest = false) :
    ∃ sp landed, landWrite op low g w = { applyWrite { g with spec := sp } w with landed := landed } := by
  obtain ⟨sp, hsp⟩ := keepWrite_eq_spec op w g
  refine ⟨sp, (w.dest, op, low) :: g.landed.filter fun e => e.1 ≠ w.dest, ?_⟩
  rw [landWrite, h, if_neg Bool.false_ne_true, hsp]

theorem landWrite_of_stays {op low : Nat} {g : Group} {w : RegWrite} (h : staysBefore g op low w.dest = true) :
    landWrite op low g w = g := if_pos h

theorem writesOnly_landWrite (op low : Nat) (g : Group) (w : RegWrite) : WritesOnly [w] g (landWrite op low g w) := by
  cases h : staysBefore g op low w.dest with
  | true =>
    rw [landWrite_of_stays h]
    exact .refl ..
  | false =>
    obtain ⟨sp, landed, hland⟩ := landWrite_of_lands h
    rw [hland]
    obtain ⟨hs, hv, hp, hff, hstatus⟩ := writesOnly_applyWrite { g with spec := sp } w
    exact ⟨hs, hv, hp, hff, hstatus⟩

theorem writesOnly_landWrites (op low : Nat) (ws : List RegWrite) (g : Group) :
    WritesOnly ws g (ws.foldl (landWrite op low) g) := by
  induction ws generalizing g with
  | nil => exact .refl ..
  | cons w ws ih => exact (writesOnly_landWrite op low g w).cons (ih _)

theorem dropFlag_eq_flags (g : Group) (f : Option (Fin 12)) : ∃ fs, dropFlag g f = { g with flags := fs } := by
  cases f with
  | none => exact ⟨g.flags, rfl⟩
  | some f => exact ⟨_, rfl⟩

/-- A completion makes its writes for the lanes; beside them it changes FFLAGS and what is in flight alone. -/
theorem completeOp_eq (g : Group) (o : Op) (m : Mask) :
    ∃ fs ops, completeOp g o m =
      { (writesFor o m).foldl (landWrite o.id ((lanesOf 64 o.lanes).headD 0)) g with
        fflags := if o.left &&& ~~~m = 0 then g.fflags ||| o.fflags else g.fflags, flags := fs, ops := ops } := by
  have hff := (writesOnly_landWrites o.id ((lanesOf 64 o.lanes).headD 0) (writesFor o m) g).fflags
  unfold completeOp
  dsimp only
  split
  · obtain ⟨fs, hfs⟩ := dropFlag_eq_flags
      { (writesFor o m).foldl (landWrite o.id ((lanesOf 64 o.lanes).headD 0)) g with
        fflags := ((writesFor o m).foldl (landWrite o.id ((lanesOf 64 o.lanes).headD 0)) g).fflags ||| o.fflags
        ops := ((writesFor o m).foldl (landWrite o.id ((lanesOf 64 o.lanes).headD 0)) g).ops.filter (·.id ≠ o.id) } o.setf
    exact ⟨fs, _, by rw [hfs, hff]⟩
  · exact ⟨_, _, by rw [modOp, ← hff]⟩

/-- A write of an instruction in the lanes of a mask is not to a register that it writes in other lanes alone. -/
theorem dest_ne_of_other_lanes {o : Op} {m : Mask} {d : Dest} (h : ∀ w ∈ o.writes, w.dest = d → hasBit m w.lane = false) :
    ∀ w ∈ writesFor o m, w.dest ≠ d := fun w hw hd => by
  obtain ⟨hmem, hbit⟩ := List.mem_filter.1 hw
  rw [h w hmem hd] at hbit
  exact Bool.false_ne_true hbit

/-! ## What a write leaves in its register -/

theorem readV_applyWrite {g : Group} {l : Nat} (n : Nat) (x : Word) (hl : l < g.threads.length)
    (hc : canonFrom 0 0 (g.thread l).v = true) : readV ((applyWrite g ⟨l, .v l n, x⟩).thread l) n = x := by
  show readV ((g.modThread l fun t => writeV { t with poison := t.poison.filter (· ≠ n) } n x).thread l) n = x
  rw [thread_modThread, if_pos ⟨rfl, hl⟩]
  exact readV_writeV_same n x hc

theorem readS_applyWrite {g : Group} (l n : Nat) (x : Word) (hc : canonFrom 0 0 g.s = true) :
    readS (applyWrite g ⟨l, .s n, x⟩) n = x :=
  readS_writeS_same (g := { g with sPoison := g.sPoison.filter (· ≠ n) }) n x hc

theorem hasBit_flagWord (b : Bool) : hasBit (if b then 1 else 0 : Word) 0 = b := by
  cases b <;> decide

theorem readP_applyWrite {g : Group} {l p : Nat} (b : Bool) (hl : l < g.threads.length) (hp : p < 7) :
    readP ((applyWrite g ⟨l, .p l p, if b then 1 else 0⟩).thread l) p = b := by
  show readP ((g.modThread l fun t => writeP t p (hasBit (if b then 1 else 0 : Word) 0)).thread l) p = b
  rw [thread_modThread, if_pos ⟨rfl, hl⟩, hasBit_flagWord]
  exact readP_writeP_same _ b hp

/-! ## Which of two writes stays (R163, R358) -/

theorem staysBefore_iff (g : Group) (op low : Nat) (d : Dest) :
    staysBefore g op low d = true ↔ ∃ e ∈ g.landed, e.1 = d ∧
      match d with
      | .s _ => if e.2.2 = low then op < e.2.1 else e.2.2 < low
      | _ => op < e.2.1 := by
  rw [staysBefore, List.any_eq_true]
  refine exists_congr fun e => and_congr_right fun _ => ?_
  cases d with
  | s n =>
    rw [Bool.and_eq_true, decide_eq_true_iff]
    refine and_congr_right fun _ => ?_
    dsimp only
    split <;> exact decide_eq_true_iff
  | v l n => simp
  | p l i => simp

/-- Settles O58: a completion is its writes, and each of them lands or gives way to one that stays. -/
theorem completionWritesOnlyItsResult : Obligations.CompletionWritesOnlyItsResult := by
  unfold Obligations.CompletionWritesOnlyItsResult
  refine ⟨?frame, fun _ _ _ _ => landWrite_of_stays, fun op low g l n x hl hc h => ?_, fun op low g l n x hc h => ?_,
    fun op low g l p b hl hp h => ?_, staysBefore_iff, fun _ _ n x hl hc => readV_applyWrite n x hl hc,
    fun _ l n x hc => readS_applyWrite l n x hc, fun _ _ _ b hl hp => readP_applyWrite b hl hp⟩
  case frame =>
    intro g o m x
    obtain ⟨fs, ops, hx⟩ := completeOp_eq g o m
    obtain ⟨hs, hv, hp, _, hstatus⟩ :=
      writesOnly_landWrites o.id ((lanesOf 64 o.lanes).headD 0) (writesFor o m) g
    have hx : x = _ := hx
    rw [hx]
    exact ⟨fun n h => hs n (dest_ne_of_other_lanes h), fun l n h => hv l n (dest_ne_of_other_lanes h),
      fun l p hlt h => hp l p hlt (dest_ne_of_other_lanes h), rfl, hstatus⟩
  · obtain ⟨sp, landed, hland⟩ := landWrite_of_lands (w := ⟨l, .v l n, x⟩) h
    rw [hland]
    exact readV_applyWrite (g := { g with spec := sp }) n x hl hc
  · obtain ⟨sp, landed, hland⟩ := landWrite_of_lands (w := ⟨l, .s n, x⟩) h
    rw [hland]
    exact readS_applyWrite (g := { g with spec := sp }) l n x hc
  · obtain ⟨sp, landed, hland⟩ := landWrite_of_lands (w := ⟨l, .p l p, if b then 1 else 0⟩) h
    rw [hland]
    exact readP_applyWrite (g := { g with spec := sp }) b hl hp

end Sys2Proof.Machine
end

section
/-! PROOF. GroupEvents.lean: completion of instructions in flight, promotion and demotion, sleep and parking (R15, R158,
R248, R352, R356, R358, R361, R382), and the management core's side of the mailboxes (R374, R375). -/

namespace Sys2Proof.Machine

/-! ## Completion (R15, R358) -/

/-- The instruction of a number is in flight in a group. -/
structure InFlight (s : State) (gid op : Nat) (g : Group) (o : Op) : Prop where
  group : mapFind s.groups gid = some g
  found : opOf g op = some o

/-- It has a variable latency, which has passed, and its group is resident. -/
structure MayComplete (s : State) (gid op : Nat) (g : Group) (o : Op) : Prop extends InFlight s gid op g o where
  latency : o.fixed = false
  resident : g.resident = true
  due : o.due ≤ s.cycle

section
variable {s : State} {gid op : Nat} {g : Group} {o : Op} {m : Mask}

theorem exec_instructionComplete (s : State) (gid op : Nat) (m : Mask) :
    exec (.instructionComplete gid op m) s = .next ((completeNow s gid op m).getD s) := rfl

theorem InFlight.completeNow_of_early (h : InFlight s gid op g o) (hearly : s.cycle < o.due) :
    completeNow s gid op m = none := by
  simp only [completeNow, h.group, Option.bind_some, h.found, hearly, decide_true, Bool.or_true, if_true]

theorem MayComplete.not_held (h : MayComplete s gid op g o) :
    (o.fixed || !g.resident || decide (s.cycle < o.due)) = false := by
  simp [h.latency, h.resident, h.due]

theorem MayComplete.csrw {n : Nat} {cop : CsrOp} {v : Word} {d : Opnd} (h : MayComplete s gid op g o)
    (hkind : o.kind = .csrw n cop v d) : completeNow s gid op m = some (finishCsrw s gid o n cop v d) := by
  simp only [completeNow, h.group, Option.bind_some, h.found, h.not_held, Bool.false_eq_true, if_false, hkind]

theorem MayComplete.mdecl {cv : Nat} {rel : Bool} {ms : List (Nat × Mask)} (h : MayComplete s gid op g o)
    (hkind : o.kind = .mdecl cv rel ms) :
    completeNow s gid op m = some (modGrp (finishMdecl s gid cv rel ms) gid fun x => completeAll x o) := by
  simp only [completeNow, h.group, Option.bind_some, h.found, h.not_held, Bool.false_eq_true, if_false, hkind]

/-- The kinds of instruction whose part of the result is there in every lane. -/
def AllPartsThere (k : OpKind) : Prop :=
  k = .ready ∨ k = .exact ∨ (∃ d, k = .load d []) ∨ ∃ d, k = .applied d []

theorem readyLanes_of_all_parts (hk : AllPartsThere o.kind) : readyLanes s gid o = o.left := by
  obtain hk | hk | ⟨d, hk⟩ | ⟨d, hk⟩ := hk
  · simp only [readyLanes, hk]
  · simp only [readyLanes, hk]
  · simp only [readyLanes, hk, List.map_nil, maskOf, and_not_zero]
  · simp only [readyLanes, hk, List.isEmpty_nil, if_true]

theorem completeEffect_of_all_parts (hk : AllPartsThere o.kind) : completeEffect s g o m = g := by
  obtain hk | hk | ⟨d, hk⟩ | ⟨d, hk⟩ := hk <;> simp only [completeEffect, hk]

theorem MayComplete.of_all_parts (h : MayComplete s gid op g o) (hk : AllPartsThere o.kind) (hm : o.left &&& m ≠ 0) :
    completeNow s gid op m = some (putGrp s gid (completeOp g o (o.left &&& m))) := by
  have hall : completeNow s gid op m =
      if readyLanes s gid o &&& m = 0 then none
      else some (putGrp s gid (completeOp (completeEffect s g o (readyLanes s gid o &&& m)) o (readyLanes s gid o &&& m))) := by
    obtain hkind | hkind | ⟨d, hkind⟩ | ⟨d, hkind⟩ := hk <;>
      simp only [completeNow, h.group, Option.bind_some, h.found, h.not_held, Bool.false_eq_true, if_false, hkind]
  rw [hall, readyLanes_of_all_parts hk, if_neg hm, completeEffect_of_all_parts hk]
end

/-! ## Promotion and demotion (R352, R356, R361) -/

section
variable {s : State} {gid : Nat} {g : Group}

theorem ageGroup_of_waiting (hg : mapFind s.groups gid = some g) (hw : g.waiting = 32) :
    ageGroup s gid = some (putGrp s gid { g with waiting := 33 }) := by
  simp only [ageGroup, hg, hw, if_true]

/-- The group after the threads that wait to reconverge at a PC resume. -/
def promoted (g : Group) (pc : Word) : Group :=
  { g with
    promoted := g.promoted ++ [pc]
    threads := g.threads.map fun t =>
      match t.wait with
      | .recon _ => if t.pc = pc then { t with wait := .none } else t
      | _ => t }

theorem promotePc_of_count {pc : Word} (hg : mapFind s.groups gid = some g) (hcount : 64 ≤ mapGet 0 g.counts pc.toNat)
    (hnew : pc ∉ g.promoted) : promotePc s gid pc = some (putGrp s gid (promoted g pc)) := by
  have hnot : (decide (mapGet 0 g.counts pc.toNat < promoteAfter) || g.promoted.contains pc) = false := by
    simp [promoteAfter, hcount, hnew]
  simp only [promotePc, hg, hnot, Bool.false_eq_true, if_false]
  rfl

theorem endDemotion_of_past {pc : Word} (hg : mapFind s.groups gid = some g)
    (hpast : ∃ e ∈ g.lowPcs, e.1 &&& g.activeAt pc ≠ 0 ∧ 64 ≤ e.2) :
    endDemotion s gid pc = some (putGrp s gid { g with
      lowPcs := g.lowPcs.filter fun e => !(decide (e.1 &&& g.activeAt pc ≠ 0) && decide (64 ≤ e.2)) }) := by
  have hany : (g.lowPcs.any fun e => decide (e.1 &&& g.activeAt pc ≠ 0) && decide (promoteAfter ≤ e.2)) = true := by
    obtain ⟨e, hmem, hact, hcount⟩ := hpast
    exact List.any_eq_true.2 ⟨e, hmem, by rw [decide_eq_true hact, decide_eq_true hcount]; rfl⟩
  simp only [endDemotion, hg, hany, if_true]

/-! ## Sleep and parking (R158, R361) -/

theorem exec_sleepExpiry (s : State) (gid lane : Nat) :
    exec (.sleepExpiry gid lane) s = .next ((wakeThread s gid lane).getD s) := rfl

theorem exec_parkExpiry (s : State) (gid lane : Nat) :
    exec (.parkExpiry gid lane) s = .next ((unparkThread s gid lane).getD s) := rfl

theorem wakeThread_of_sleep {lane gt : Nat} (hg : mapFind s.groups gid = some g) (hw : (g.thread lane).wait = .sleep gt) :
    wakeThread s gid lane =
      if gt ≤ gtOf s then some (modThread s gid lane fun t => { t with wait := .none }) else none := by
  simp only [wakeThread, hg, Option.map_some, hw]

theorem unparkThread_of_park {lane c : Nat} (hg : mapFind s.groups gid = some g) (hw : (g.thread lane).wait = .park c) :
    unparkThread s gid lane =
      if c ≤ s.cycle then some (modThread s gid lane fun t => { t with wait := .none }) else none := by
  simp only [unparkThread, hg, Option.map_some, hw]
end

/-- The state after a step that may not be due. -/
theorem getD_ite {p : Prop} [Decidable p] (s t : State) :
    (Host.Outcome.next ((if p then some t else none).getD s) : Out) = .next (if p then t else s) := by
  split <;> rfl

/-! ## Mailboxes (R374, R375) -/

theorem postDeferred_of_free {s : State} {core n : Nat} {r : MboxRec} {w : Waiter} {rest : List (MboxRec × Waiter)}
    (hun : (coreAt s core).unposted = (r, w) :: rest)
    (hwaits : stillWaits (modCore s core fun c => { c with unposted := rest }) w = true)
    (hslot : freeSlot (coreAt s core) [0, 1] = some n) :
    postDeferred s core = some (postEscalation (modCore s core fun c => { c with unposted := rest }) core r w) := by
  simp only [postDeferred, hun, hwaits, hslot, Bool.not_true, Bool.false_eq_true, if_false, Option.isNone_some]

theorem mailboxReply_of_discarded {s : State} {core slot : Nat} {val : Word}
    (h : (slotAt (coreAt s core) slot).full = false ∨ (slotAt (coreAt s core) slot).replied = true) :
    exec (.mailboxReply core slot val) s = .next s := by
  have hdrop : (!(slotAt (coreAt s core) slot).full || (slotAt (coreAt s core) slot).replied) = true := by
    obtain h | h := h <;> simp [h]
  show execMailboxReply core slot val s = _
  rw [execMailboxReply, if_pos hdrop]

/-- A slot whose record has been answered. -/
def answered (x : Slot) (val : Word) : Slot := { x with reply := val, replied := true, waiter := .nobody }

/-- RESUME of a cause that may be resumed lets the group that waits at the slot go on. -/
theorem mailboxReply_resumes {s : State} {core slot g : Nat} (hfull : (slotAt (coreAt s core) slot).full = true)
    (hreplied : (slotAt (coreAt s core) slot).replied = false) (hw : (slotAt (coreAt s core) slot).waiter = .group g)
    (hcause : (slotAt (coreAt s core) slot).record.cause ≠ CauseCode.lease.num) :
    let t := modCore s core fun c => { c with slots := mapPut c.slots slot (answered (slotAt (coreAt s core) slot) 0) }
    heldAt t g slot = true → exec (.mailboxReply core slot 0) s = .next (resumeGroup t g) := by
  intro t hheld
  have htake : (!(slotAt (coreAt s core) slot).full || (slotAt (coreAt s core) slot).replied) = false := by
    rw [hfull, hreplied, Bool.not_true, Bool.or_self]
  show execMailboxReply core slot 0 s = _
  rw [execMailboxReply, htake, if_neg Bool.false_ne_true]
  simp only [hw]
  exact congrArg Host.Outcome.next ((if_pos hheld).trans ((if_neg hcause).trans (if_pos rfl)))

/-- Settles O30, by what each event does where it is due. -/
theorem completionSchedulerAndMailboxEventsComplete : Obligations.CompletionSchedulerAndMailboxEventsComplete := by
  unfold Obligations.CompletionSchedulerAndMailboxEventsComplete
  refine ⟨fun s gid op m g o d hg ho hfixed hres hdue hkind hm => ?_,
    fun s gid op m g o n cop v d hg ho hfixed hres hdue hkind => ?_,
    fun s gid op m g o cv ms hg ho hfixed hres hdue hkind => ?_, fun s gid op m g o hg ho hearly => ?_,
    fun s gid pc g hg hcount hnew => next_getD_of_eq_some (promotePc_of_count hg hcount hnew),
    fun s gid g hg hw => next_getD_of_eq_some (ageGroup_of_waiting hg hw),
    fun s gid pc g hg hpast => next_getD_of_eq_some (endDemotion_of_past hg hpast),
    fun s gid lane g gt hg hw => ?_, fun s gid lane g c hg hw => ?_,
    fun s core r w rest n hun hwaits hslot => next_getD_of_eq_some (postDeferred_of_free hun hwaits hslot),
    fun s core slot val => mailboxReply_of_discarded,
    fun s core slot g hfull hreplied hw hcause hheld => mailboxReply_resumes hfull hreplied hw hcause hheld,
    fun _ _ _ _ _ => rfl⟩
  · have hk : AllPartsThere o.kind := hkind.imp_right fun h => h.imp_right fun h => h.imp (⟨d, ·⟩) (⟨d, ·⟩)
    have h : MayComplete s gid op g o := ⟨⟨hg, ho⟩, hfixed, hres, hdue⟩
    exact next_getD_of_eq_some (h.of_all_parts hk hm)
  · have h : MayComplete s gid op g o := ⟨⟨hg, ho⟩, hfixed, hres, hdue⟩
    exact next_getD_of_eq_some (h.csrw hkind)
  · have h : MayComplete s gid op g o := ⟨⟨hg, ho⟩, hfixed, hres, hdue⟩
    exact next_getD_of_eq_some (h.mdecl hkind)
  · have h : InFlight s gid op g o := ⟨hg, ho⟩
    exact next_getD_of_eq_none (h.completeNow_of_early hearly)
  · rw [exec_sleepExpiry, wakeThread_of_sleep hg hw, getD_ite]
  · rw [exec_parkExpiry, unparkThread_of_park hg hw, getD_ite]

end Sys2Proof.Machine
end

section
/-! PROOF. WorkedEncodings.lean: words that the specification writes out (01_instruction_word.md). -/

namespace Sys2Proof.Machine

/-- Settles O45: the decoder is evaluated on each word. -/
theorem decodedWords : Obligations.DecodedWords := by
  unfold Obligations.DecodedWords
  decide +kernel

end Sys2Proof.Machine
end

section
/-! PROOF. FieldCodes.lean: the codes of field values are read back, and a field of a sum of shifted fields is the
field itself (R15, R22 to R27). -/

namespace Sys2Proof

/-! ## Codes -/

@[simp] theorem Ty.ofCode_code (ty : Ty) : Ty.ofCode ty.code = some ty := by cases ty <;> rfl
@[simp] theorem Rnd.ofCode_code (m : Rnd) : Rnd.ofCode m.code = some m := by cases m <;> rfl
@[simp] theorem Scope.ofCode_code (sc : Scope) : Scope.ofCode sc.code = sc := by cases sc <;> rfl
@[simp] theorem COp.ofCode_code (op : COp) : COp.ofCode op.code = some op := by cases op <;> rfl
@[simp] theorem ShMode.ofCode_code (m : ShMode) : ShMode.ofCode m.code = m := by cases m <;> rfl
@[simp] theorem VoteOp.ofCode_code (op : VoteOp) : VoteOp.ofCode op.code = op := by cases op <;> rfl
@[simp] theorem PlOp.ofCode_code (op : PlOp) : PlOp.ofCode op.code = some op := by cases op <;> rfl
@[simp] theorem CHint.ofCode_code (ch : CHint) : CHint.ofCode ch.code = some ch := by
  cases ch <;> rfl
@[simp] theorem CasOrd.ofCode_code (o : CasOrd) : CasOrd.ofCode o.code = o := by cases o <;> rfl
@[simp] theorem CpyHint.ofCode_code (c : CpyHint) : CpyHint.ofCode c.code = some c := by
  cases c <;> rfl
@[simp] theorem StaMode.ofCode_code (m : StaMode) : StaMode.ofCode m.code = some m := by
  cases m <;> rfl
@[simp] theorem PhMode.ofCode_code (m : PhMode) : PhMode.ofCode m.code = m := by cases m <;> rfl
@[simp] theorem FenceKind.ofCode_code (k : FenceKind) : FenceKind.ofCode k.code = some k := by
  cases k <;> rfl
@[simp] theorem CsrOp.ofCode_code (op : CsrOp) : CsrOp.ofCode op.code = some op := by
  cases op <;> rfl
@[simp] theorem IdSel.ofCode_code (sel : IdSel) : IdSel.ofCode sel.code = some sel := by
  cases sel <;> rfl
@[simp] theorem fin?_val {n : Nat} (x : Fin n) : fin? n x.val = some x := by rw [fin?, dif_pos x.isLt]

/-! ## Bounds of codes -/

section
variable {n : Nat}

@[simp] theorem Ty.code_lt (ty : Ty) (h : 64 ≤ n) : ty.code < n := by
  cases ty <;> exact Nat.lt_of_lt_of_le (by decide) h
@[simp] theorem Rnd.code_lt (m : Rnd) (h : 8 ≤ n) : m.code < n := by
  cases m <;> exact Nat.lt_of_lt_of_le (by decide) h
@[simp] theorem Scope.code_lt (sc : Scope) (h : 8 ≤ n) : sc.code < n := by
  cases sc <;> exact Nat.lt_of_lt_of_le (by decide) h
@[simp] theorem Cond.code_lt (c : Cond) (h : 8 ≤ n) : c.code < n := by
  cases c <;> exact Nat.lt_of_lt_of_le (by decide) h
@[simp] theorem COp.code_lt (op : COp) (h : 8 ≤ n) : op.code < n := by
  cases op <;> exact Nat.lt_of_lt_of_le (by decide) h
@[simp] theorem ShMode.code_lt (m : ShMode) (h : 4 ≤ n) : m.code < n := by
  cases m <;> exact Nat.lt_of_lt_of_le (by decide) h
@[simp] theorem VoteOp.code_lt (op : VoteOp) (h : 4 ≤ n) : op.code < n := by
  cases op <;> exact Nat.lt_of_lt_of_le (by decide) h
@[simp] theorem PlOp.code_lt (op : PlOp) (h : 4 ≤ n) : op.code < n := by
  cases op <;> exact Nat.lt_of_lt_of_le (by decide) h
@[simp] theorem CHint.code_lt (ch : CHint) (h : 4 ≤ n) : ch.code < n := by
  cases ch <;> exact Nat.lt_of_lt_of_le (by decide) h
@[simp] theorem CasOrd.code_lt (o : CasOrd) (h : 4 ≤ n) : o.code < n := by
  cases o <;> exact Nat.lt_of_lt_of_le (by decide) h
@[simp] theorem CpyHint.code_lt (c : CpyHint) (h : 4 ≤ n) : c.code < n := by
  cases c <;> exact Nat.lt_of_lt_of_le (by decide) h
@[simp] theorem StaMode.code_lt (m : StaMode) (h : 4 ≤ n) : m.code < n := by
  cases m <;> exact Nat.lt_of_lt_of_le (by decide) h
@[simp] theorem PhMode.code_lt (m : PhMode) (h : 4 ≤ n) : m.code < n := by
  cases m <;> exact Nat.lt_of_lt_of_le (by decide) h
@[simp] theorem FenceKind.code_lt (k : FenceKind) (h : 4 ≤ n) : k.code < n := by
  cases k <;> exact Nat.lt_of_lt_of_le (by decide) h
@[simp] theorem CsrOp.code_lt (op : CsrOp) (h : 4 ≤ n) : op.code < n := by
  cases op <;> exact Nat.lt_of_lt_of_le (by decide) h
@[simp] theorem IdSel.code_lt (sel : IdSel) (h : 16 ≤ n) : sel.code < n := by
  cases sel <;> exact Nat.lt_of_lt_of_le (by decide) h
@[simp] theorem Bool.toNat_lt_of_le (b : Bool) (h : 2 ≤ n) : b.toNat < n := Nat.lt_of_lt_of_le b.toNat_lt h
@[simp] theorem Fin.val_lt_of_bound {m : Nat} (x : Fin m) (h : m ≤ n) : x.val < n := Nat.lt_of_lt_of_le x.isLt h
end

/-! ## Fields of a sum -/

/-- The fields below the highest one of a sum. -/
@[simp] theorem fld_add_mul_low {x y k lo w : Nat} (h : k % 2 ^ (lo + w) = 0) :
    fld (x + y * k) lo w = fld x lo w := by
  obtain ⟨j, rfl⟩ := Nat.dvd_of_mod_eq_zero h
  have hsum : x + y * (2 ^ (lo + w) * j) = x + 2 ^ lo * (2 ^ w * (y * j)) := by rw [Nat.pow_add]; ring
  rw [fld, hsum, Nat.add_mul_div_left _ _ (Nat.two_pow_pos lo), Nat.add_mul_mod_self_left, fld]

/-- The highest field of a sum. -/
@[simp] theorem fld_add_mul_high {x y k lo w : Nat} (hk : 2 ^ lo = k) (hx : x < k) :
    fld (x + y * k) lo w = fld y 0 w := by
  subst hk
  rw [fld, Nat.add_mul_div_right _ _ (Nat.two_pow_pos lo), Nat.div_eq_of_lt hx, Nat.zero_add, fld, Nat.pow_zero,
    Nat.div_one]

/-- The fields of a sum with a single bit above them. -/
theorem fld_add_low {x k lo w : Nat} (h : k % 2 ^ (lo + w) = 0) : fld (x + k) lo w = fld x lo w := by
  have := fld_add_mul_low (x := x) (y := 1) h
  rwa [Nat.one_mul] at this

/-- The single bit of such a sum. -/
theorem fld_add_high {x k lo : Nat} (hk : 2 ^ lo = k) (hx : x < k) : fld (x + k) lo 1 = 1 := by
  have := fld_add_mul_high (y := 1) (w := 1) hk hx
  rwa [Nat.one_mul] at this

@[simp] theorem fld_mul {y k lo w : Nat} (hk : 2 ^ lo = k) : fld (y * k) lo w = fld y 0 w := by
  have := fld_add_mul_high (x := 0) (y := y) (w := w) hk (hk ▸ Nat.two_pow_pos lo)
  rwa [Nat.zero_add] at this

@[simp] theorem fld_mul_low {y k lo w : Nat} (h : k % 2 ^ (lo + w) = 0) : fld (y * k) lo w = 0 := by
  rw [← Nat.zero_add (y * k), fld_add_mul_low h, fld, Nat.zero_div, Nat.zero_mod]

/-- A number that fits in a field is what the field holds. -/
@[simp] theorem fld_zero_of_lt {x w : Nat} (h : x < 2 ^ w) : fld x 0 w = x := by
  rw [fld, Nat.pow_zero, Nat.div_one, Nat.mod_eq_of_lt h]

@[simp] theorem fld_toNat (b : Bool) : fld b.toNat 0 1 = b.toNat := by cases b <;> rfl

/-- A field above a number is 0. -/
@[simp] theorem fld_of_lt {x lo w : Nat} (h : x < 2 ^ lo) : fld x lo w = 0 := by
  rw [fld, Nat.div_eq_of_lt h, Nat.zero_mod]

@[simp] theorem add_mul_lt {x y k n : Nat} (hx : x < k) (hn : n % k = 0) (hy : y < n / k) : x + y * k < n := by
  obtain ⟨j, rfl⟩ := Nat.dvd_of_mod_eq_zero hn
  rw [Nat.mul_div_cancel_left _ (by omega)] at hy
  calc x + y * k < k + y * k := Nat.add_lt_add_right hx _
    _ = (y + 1) * k := by ring
    _ ≤ j * k := Nat.mul_le_mul_right _ hy
    _ = k * j := Nat.mul_comm ..

@[simp] theorem mul_lt_of_lt_div {y k n : Nat} (hn : n % k = 0) (hy : y < n / k) : y * k < n := by
  have hk : 0 < k := Nat.pos_of_ne_zero fun hk => by simp [hk] at hy
  rwa [Nat.lt_div_iff_mul_lt_of_dvd hk.ne' (Nat.dvd_of_mod_eq_zero hn)] at hy

theorem fld_mod {n lo w k : Nat} (h : lo + w ≤ k) : fld (n % 2 ^ k) lo w = fld n lo w := by
  obtain ⟨j, rfl⟩ := Nat.exists_eq_add_of_le h
  rw [fld, fld, Nat.add_assoc, Nat.pow_add, Nat.mod_mul_right_div_self, Nat.pow_add, Nat.mod_mul_right_mod]

@[simp] theorem BitVec.toNat_lt_of_bound {m n : Nat} (x : BitVec m) (h : 2 ^ m ≤ n) : x.toNat < n :=
  Nat.lt_of_lt_of_le x.isLt h

/-! ## Fields with a code of their own -/

theorem condField_pd (pd : Fin 8) (c : Cond) : Fin.ofNat 8 (condField pd c).toNat = pd := by
  cases c <;> revert pd <;> decide

theorem condField_cond (pd : Fin 8) (c : Cond) : Cond.ofCode ((condField pd c).toNat / 8 % 8) = c := by
  cases c <;> revert pd <;> decide

/-- The four bits of an ordering and its SCOPE (R141, R153). -/
def ordCode : Option Scope → Nat
  | some sc => 1 + sc.code * 2
  | none => 0

/-- The ordering of four bits. -/
def ordOf (n : Nat) : Option Scope := if n % 2 = 1 then some (Scope.ofCode (n / 2)) else none

@[simp] theorem ordMod_eq (s : Option Scope) (i : Nat) : ordMod s i = ordCode s * 2 ^ i := by
  cases s with
  | none => simp [ordMod, ordCode]
  | some sc => simp only [ordMod, ordCode]; ring

@[simp] theorem ordCode_lt {n : Nat} (s : Option Scope) (h : 16 ≤ n) : ordCode s < n := by
  cases s with
  | none => exact Nat.lt_of_lt_of_le (by decide) h
  | some sc => cases sc <;> exact Nat.lt_of_lt_of_le (by decide) h

@[simp] theorem ordOf_ordCode (s : Option Scope) : ordOf (ordCode s) = s := by
  cases s with
  | none => rfl
  | some sc => cases sc <;> rfl

@[simp] theorem SFields.ord?_eq (f : SFields) (i : Nat) : f.ord? i = ordOf (f.m i 4) := by
  have hbit : f.m i 1 = f.m i 4 % 2 := by simp only [SFields.m, fld]; omega
  have hscope : f.m (i + 1) 3 = f.m i 4 / 2 := by
    simp only [SFields.m, fld, Nat.pow_succ, ← Nat.div_div_eq_div_mul]; omega
  rw [SFields.ord?, hbit, hscope, ordOf]
  simp

/-- The segment of a code. -/
def segOf (n : Nat) : Option (Option (Fin 11)) := if n = 15 then some none else (fin? 11 n).map some

@[simp] theorem segCode_lt {n : Nat} (s : Option (Fin 11)) (h : 16 ≤ n) : segCode s < n := by
  cases s with
  | none => exact Nat.lt_of_lt_of_le (by decide) h
  | some x => exact Nat.lt_of_lt_of_le x.isLt (by omega)

@[simp] theorem segOf_segCode (s : Option (Fin 11)) : segOf (segCode s) = some s := by
  cases s with
  | none => rfl
  | some x => rw [segOf, segCode, if_neg (by omega), fin?_val, Option.map_some]

@[simp] theorem SFields.seg?_eq (f : SFields) : f.seg? = segOf (f.m 13 4) := by
  rw [SFields.seg?, segOf]; simp

end Sys2Proof
end

section
/-! PROOF. WordFields.lean: what the parsers read of a word's header and fields, and that a well-formed item's
operands are read back from their indices (R18, R27). -/

namespace Sys2Proof

/-! ## The header of a word -/

/-- The code of SETF: 15 where no flag is set (R15). -/
def setfCode : Option (Fin 12) → Nat
  | some f => f.val
  | none => 15

theorem setfCode_lt (f : Option (Fin 12)) : setfCode f < 16 := by
  cases f with
  | none => decide
  | some f => exact Nat.lt_trans f.isLt (by decide)

theorem Ctl.bits_toNat (c : Ctl) :
    c.bits.toNat = c.dist.toNat + c.wait.toNat * 8 + setfCode c.setf * 32768 + c.yld.toNat * 524288 := by
  have hdist := c.dist.isLt
  have hwait := c.wait.isLt
  have hyld := c.yld.toNat_lt
  have hsetf := setfCode_lt c.setf
  exact (BitVec.toNat_ofNat ..).trans (Nat.mod_eq_of_lt (by show _ + setfCode c.setf * 32768 + _ < 2 ^ 20; omega))

theorem Ctl.ofBits_bits (c : Ctl) : Ctl.ofBits c.bits = some c := by
  have hdist := c.dist.isLt
  have hwait := c.wait.isLt
  have hyld := c.yld.toNat_lt
  have hsetf := setfCode_lt c.setf
  have hn := c.bits_toNat
  have hd : c.bits.extractLsb' 0 3 = c.dist :=
    BitVec.eq_of_toNat_eq (by rw [BitVec.extractLsb'_toNat, hn, Nat.shiftRight_eq_div_pow]; omega)
  have hw : c.bits.extractLsb' 3 12 = c.wait :=
    BitVec.eq_of_toNat_eq (by rw [BitVec.extractLsb'_toNat, hn, Nat.shiftRight_eq_div_pow]; omega)
  have hf : c.bits.toNat / 32768 % 16 = setfCode c.setf := by omega
  have hy : (c.bits.toNat / 524288 == 1) = c.yld := by
    rw [show c.bits.toNat / 524288 = c.yld.toNat by omega]
    cases c.yld <;> rfl
  obtain ⟨dist, wait, setf, yld⟩ := c
  cases setf with
  | none => simp [Ctl.ofBits, hf, hd, hw, hy, setfCode]
  | some f => simp [Ctl.ofBits, hf, hd, hw, hy, setfCode]
theorem Guard.ofBits_bits (g : Guard) : Guard.ofBits g.bits = g := by
  obtain ⟨p, neg⟩ := g
  revert p neg; decide


theorem Retain.ofCode_toNat (r : Retain) : Retain.ofCode (BitVec.ofNat 2 r.code).toNat = r := by
  cases r <;> rfl

/-- The parser of the S words of a class (R39). -/
def classParser (n : Nat) (f : SFields) : Option Instr :=
  match n with
  | 0 => parseControl f
  | 1 => parseInteger f
  | 2 => parseBits f
  | 3 => parseFloat f
  | 4 => parseSpecial f
  | 5 => parseExact f
  | 6 => parseLanes f
  | 7 => parseMoves f
  | 8 => parseMemory f
  | 9 => parseUpdates f
  | 10 => parseStreams f
  | 11 => parseMatrix f
  | 12 => parseSync f
  | 13 => parseTx f
  | 14 => parseSystem f
  | _ => none

/-- The S word of an operation, with a header and the number that its MOD17 holds. -/
def sWord (opc mod : Nat) (h : Hdr) (d a b c : BitVec 10) : SWord :=
  ⟨h.ctl.bits, BitVec.ofNat 10 opc, h.guard.bits, BitVec.ofNat 2 h.ret.code, d, a, b, c, BitVec.ofNat 17 mod⟩

/-- What the parsers of S words read of it. -/
def sFields (opc mod : Nat) (h : Hdr) (d a b c : BitVec 10) : SFields :=
  ⟨h, Opnd.ofIdx d, Opnd.ofIdx a, Opnd.ofIdx b, Opnd.ofIdx c, sWord opc mod h d a b c⟩

theorem parse_sWord {opc mod : Nat} {h : Hdr} {d a b c : BitVec 10} {r : Raw}
    (he : some (.s (sWord opc mod h d a b c)) = some r) :
    parse r = classParser (opc % 1024 / 64) (sFields opc mod h d a b c) := by
  obtain rfl := Option.some.inj he
  have hopc : (BitVec.ofNat 10 opc).toNat = opc % 1024 := BitVec.toNat_ofNat ..
  rw [← hopc]
  simp only [parse, parseS, sWord, sFields, Ctl.ofBits_bits, Guard.ofBits_bits, Retain.ofCode_toNat, Option.bind_some]
  rfl

section
variable {opc mod : Nat} {h : Hdr} {d a b c : BitVec 10}
@[simp] theorem sFields_h : (sFields opc mod h d a b c).h = h := rfl
@[simp] theorem sFields_d : (sFields opc mod h d a b c).d = Opnd.ofIdx d := rfl
@[simp] theorem sFields_a : (sFields opc mod h d a b c).a = Opnd.ofIdx a := rfl
@[simp] theorem sFields_b : (sFields opc mod h d a b c).b = Opnd.ofIdx b := rfl
@[simp] theorem sFields_c : (sFields opc mod h d a b c).c = Opnd.ofIdx c := rfl
@[simp] theorem sFields_w_opc : (sFields opc mod h d a b c).w.opc = BitVec.ofNat 10 opc := rfl
@[simp] theorem sFields_w_c : (sFields opc mod h d a b c).w.c = c := rfl
@[simp] theorem sFields_pd (pd : Fin 8) (cond : Cond) : (sFields opc mod h (condField pd cond) a b c).pd = pd :=
  condField_pd pd cond
@[simp] theorem sFields_cond (pd : Fin 8) (cond : Cond) : (sFields opc mod h (condField pd cond) a b c).cond = cond :=
  condField_cond pd cond
@[simp] theorem sFields_m {lo w : Nat} (hw : lo + w ≤ 17) : (sFields opc mod h d a b c).m lo w = fld mod lo w := by
  rw [← fld_mod hw, SFields.m, sFields, sWord, BitVec.toNat_ofNat]
end

@[simp] theorem SFields.t_eq (f : SFields) : f.t = Ty.ofCode (f.m 0 6) := rfl
@[simp] theorem SFields.tr_eq (f : SFields) (k : Ty → Rnd → Instr) :
    f.tr k = f.t.bind fun ty => (Rnd.ofCode (f.m 6 3)).map fun rnd => k ty rnd := rfl
@[simp] theorem SFields.t2r_eq (f : SFields) (k : Ty → Ty → Rnd → Instr) :
    f.t2r k = f.t.bind fun ty => (Ty.ofCode (f.m 9 6)).bind fun sty =>
      (Rnd.ofCode (f.m 6 3)).map fun rnd => k ty sty rnd :=
  rfl
@[simp] theorem SFields.f8_eq (f : SFields) (lo : Nat) : f.f8 lo = Fin.ofNat 8 (f.m lo 3) := rfl
@[simp] theorem SFields.f16_eq (f : SFields) (lo : Nat) : f.f16 lo = Fin.ofNat 16 (f.m lo 4) := rfl
@[simp] theorem SFields.ps_eq (f : SFields) : f.ps = ⟨f.f8 0, f.m 3 1 == 1⟩ := rfl

/-! ## Operands of a well-formed item -/

section
variable {h : Hdr} {d a b c : Opnd}

theorem and_right {p q : Bool} (h : (p && q) = true) : q = true := (Bool.and_eq_true_iff.1 h).2

@[simp] theorem ofIdx_o0 : Opnd.ofIdx o0.idx = o0 := rfl

theorem Opnd.ofIdx_idx (h : a.ok = true) : Opnd.ofIdx a.idx = a := eq_of_beq h

theorem wfAB_ok (hw : wfAB h d a b = true) :
    Opnd.ofIdx d.idx = d ∧ Opnd.ofIdx a.idx = a ∧ Opnd.ofIdx b.idx = b := by
  simp only [wfAB, Bool.and_eq_true] at hw
  obtain ⟨⟨⟨hd, ha⟩, hb⟩, -⟩ := hw
  exact ⟨Opnd.ofIdx_idx hd, Opnd.ofIdx_idx ha, Opnd.ofIdx_idx hb⟩

theorem wfA_ok (hw : wfA h d a = true) : Opnd.ofIdx d.idx = d ∧ Opnd.ofIdx a.idx = a := by
  simp only [wfA, Bool.and_eq_true] at hw
  obtain ⟨⟨hd, ha⟩, -⟩ := hw
  exact ⟨Opnd.ofIdx_idx hd, Opnd.ofIdx_idx ha⟩

theorem wfABC_ok (hw : wfABC h d a b c = true) :
    Opnd.ofIdx d.idx = d ∧ Opnd.ofIdx a.idx = a ∧ Opnd.ofIdx b.idx = b ∧ Opnd.ofIdx c.idx = c := by
  simp only [wfABC, Bool.and_eq_true] at hw
  obtain ⟨⟨⟨⟨hd, ha⟩, hb⟩, hc⟩, -⟩ := hw
  exact ⟨Opnd.ofIdx_idx hd, Opnd.ofIdx_idx ha, Opnd.ofIdx_idx hb, Opnd.ofIdx_idx hc⟩

theorem noRet_iff : noRet h = true ↔ h.ret = .none := beq_iff_eq

theorem wfL_ok (hw : wfL h d a = true) : Opnd.ofIdx d.idx = d ∧ Opnd.ofIdx a.idx = a ∧ noRet h = true := by
  simp only [wfL, Bool.and_eq_true] at hw
  obtain ⟨⟨hd, ha⟩, hr⟩ := hw
  exact ⟨Opnd.ofIdx_idx hd, Opnd.ofIdx_idx ha, hr⟩

theorem wfD_ok (hw : wfD h d = true) : Opnd.ofIdx d.idx = d ∧ noRet h = true := by
  simp only [wfD, Bool.and_eq_true] at hw
  obtain ⟨hd, hr⟩ := hw
  exact ⟨Opnd.ofIdx_idx hd, hr⟩

theorem and_left {p q : Bool} (h : (p && q) = true) : p = true := (Bool.and_eq_true_iff.1 h).1

theorem unused_eq (hw : a.unused = true) : a = o0 := eq_of_beq hw

theorem vote_ok {op : VoteOp} {ps : PSrc}
    (hw : (if op == .eq then ps.unused && wfA h (.v 0) a else a.unused && noRet h) = true) :
    Opnd.ofIdx a.idx = a := by
  split at hw
  · exact (wfA_ok (and_right hw)).2
  · rw [unused_eq (and_left hw), ofIdx_o0]

theorem scan_ok {p q : Bool} (hw : (p && d.ok && a.ok && b.ok && q) = true) :
    Opnd.ofIdx d.idx = d ∧ Opnd.ofIdx a.idx = a ∧ Opnd.ofIdx b.idx = b := by
  simp only [Bool.and_eq_true] at hw
  obtain ⟨⟨⟨⟨-, hd⟩, ha⟩, hb⟩, -⟩ := hw
  exact ⟨Opnd.ofIdx_idx hd, Opnd.ofIdx_idx ha, Opnd.ofIdx_idx hb⟩

theorem mma_ok {ty : Ty} {bs : Option Opnd}
    (hw : (match ty.mmaBs, bs with
      | some (no, _), none => no && a.ok && c.ok && retOk h.ret (some a) none (some c)
      | some (_, yes), some b => yes && wfABC h (.v 0) a b c
      | none, _ => false) = true) :
    Opnd.ofIdx a.idx = a ∧ (∀ b, bs = some b → Opnd.ofIdx b.idx = b) ∧ Opnd.ofIdx c.idx = c := by
  split at hw
  · simp only [Bool.and_eq_true] at hw
    obtain ⟨⟨⟨-, ha⟩, hc⟩, -⟩ := hw
    exact ⟨Opnd.ofIdx_idx ha, fun _ hb => (nomatch hb), Opnd.ofIdx_idx hc⟩
  · obtain ⟨-, ha, hb, hc⟩ := wfABC_ok (and_right hw)
    exact ⟨ha, fun _ h => Option.some.inj h ▸ hb, hc⟩
  · exact absurd hw Bool.false_ne_true

end

end Sys2Proof
end

section
/-! PROOF. RoundTripArith.lean: the S words of the control, integer, bit and float classes are read back (R39). -/

namespace Sys2Proof

/-- Whether an S word's OPC lies in a range of classes. -/
def SWord.opcIn (w : SWord) (lo hi : Nat) : Bool := Nat.ble lo w.opc.toNat && Nat.blt w.opc.toNat hi

theorem opcIn_of {w : SWord} {lo hi : Nat} (hlo : lo ≤ w.opc.toNat) (hhi : w.opc.toNat < hi) :
    w.opcIn lo hi = true :=
  Bool.and_eq_true_iff.2 ⟨Nat.ble_eq_true_of_le hlo, Nat.ble_eq_true_of_le hhi⟩

/-- The S words of the control, integer, bit and float classes. -/
theorem parse_encode_arith {i : Instr} {w : SWord} (hw : i.wf = true) (he : encode i = some (.s w))
    (hc : w.opcIn 0x000 0x140 = true) : parse (.s w) = some i := by
  cases i with
  | nopS h =>
    rw [parse_sWord he]
    simp [classParser, parseControl]
  | brx h a =>
    have ha := Opnd.ofIdx_idx (and_left hw)
    rw [parse_sWord he]
    simp [classParser, parseControl, ha]
  | callx h d a =>
    have hd := Opnd.ofIdx_idx (and_left (and_left hw))
    have ha := Opnd.ofIdx_idx (and_right (and_left hw))
    rw [parse_sWord he]
    simp [classParser, parseControl, hd, ha]
  | imulh h ty d a b | idiv h ty d a b | irem h ty d a b | iminS h ty d a b | imaxS h ty d a b
  | andS h ty d a b | orS h ty d a b | xorS h ty d a b | andnS h ty d a b | shlS h ty d a b
  | shrS h ty d a b | sarS h ty d a b | rotS h ty d a b | bfx h ty d a b | pmin h ty d a b
  | pmax h ty d a b | fmin h ty d a b | fmax h ty d a b =>
    obtain ⟨hd, ha, hb⟩ := wfAB_ok (and_right hw)
    rw [parse_sWord he]
    simp [classParser, parseBits, parseFloat, parseInteger, hd, ha, hb]
  | iaddS h ty sat d a b | isubS h ty sat d a b | imulS h ty sat d a b | padd h ty sat d a b
  | psub h ty sat d a b | pmul h ty sat d a b =>
    obtain ⟨hd, ha, hb⟩ := wfAB_ok (and_right hw)
    rw [parse_sWord he]
    simp [classParser, parseBits, parseInteger, bitAt, hd, ha, hb]
  | imad h ty d a b c | bfi h ty d a b c =>
    obtain ⟨hd, ha, hb, hc⟩ := wfABC_ok (and_right hw)
    rw [parse_sWord he]
    simp [classParser, parseBits, parseInteger, hd, ha, hb, hc]
  | iabs h ty sat d a | ineg h ty sat d a =>
    obtain ⟨hd, ha⟩ := wfA_ok (and_right hw)
    rw [parse_sWord he]
    simp [classParser, parseInteger, bitAt, hd, ha]
  | icmpS h ty cond pd a b | fcmp h ty cond pd a b =>
    obtain ⟨-, ha, hb⟩ := wfAB_ok (and_right hw)
    rw [parse_sWord he]
    simp [classParser, parseFloat, parseInteger, ha, hb]
  | leaS h ty sh d a b =>
    obtain ⟨hd, ha, hb⟩ := wfAB_ok (and_right hw)
    rw [parse_sWord he]
    simp [classParser, parseInteger, hd, ha, hb]
  | shf h ty left d a b c =>
    obtain ⟨hd, ha, hb, hc⟩ := wfABC_ok (and_right hw)
    rw [parse_sWord he]
    simp [classParser, parseBits, bitAt, hd, ha, hb, hc]
  | popc h ty d a | clz h ty d a | ctz h ty d a | brev h ty d a | fclass h ty d a =>
    obtain ⟨hd, ha⟩ := wfA_ok (and_right hw)
    rw [parse_sWord he]
    simp [classParser, parseBits, parseFloat, hd, ha]
  | idot4 h ua ub sat d a b c | idot2 h ua ub sat d a b c =>
    obtain ⟨hd, ha, hb, hc⟩ := wfABC_ok hw
    have hty : Ty.i32x2.code < 64 := Ty.i32x2.code_lt le_rfl
    have hua := ua.toNat_lt
    have hub := ub.toNat_lt
    rw [parse_sWord he]
    simp (disch := omega) [classParser, parseBits, bitAt, hd, ha, hb, hc]
  | fadd h ty rnd d a b | fsub h ty rnd d a b | fmul h ty rnd d a b | fscale h ty rnd d a b
  | fdiv h ty rnd d a b =>
    obtain ⟨hd, ha, hb⟩ := wfAB_ok (and_right hw)
    rw [parse_sWord he]
    simp [classParser, parseFloat, parseSpecial, hd, ha, hb]
  | ffma h ty rnd d a b c =>
    obtain ⟨hd, ha, hb, hc⟩ := wfABC_ok (and_right hw)
    rw [parse_sWord he]
    simp [classParser, parseFloat, hd, ha, hb, hc]
  | fdot2 h sty rnd d a b c =>
    obtain ⟨hd, ha, hb, hc⟩ := wfABC_ok (and_right hw)
    have hty : Ty.f32x2.code < 64 := Ty.f32x2.code_lt le_rfl
    have hrnd : rnd.code < 8 := rnd.code_lt le_rfl
    have hsty : sty.code < 64 := sty.code_lt le_rfl
    rw [parse_sWord he]
    simp (disch := omega) [classParser, parseFloat, hd, ha, hb, hc]
  | frnd h ty rnd d a | frcp h ty rnd d a | frsq h ty rnd d a | fsqrt h ty rnd d a | fexp2 h ty rnd d a
  | flog2 h ty rnd d a | fsin h ty rnd d a | fcos h ty rnd d a | ftanh h ty rnd d a =>
    obtain ⟨hd, ha⟩ := wfA_ok (and_right hw)
    rw [parse_sWord he]
    simp [classParser, parseFloat, parseSpecial, hd, ha]
  | fcvt h ty sty rnd nsat d a =>
    obtain ⟨hd, ha⟩ := wfA_ok (and_right hw)
    have hty : ty.code < 64 := ty.code_lt le_rfl
    have hsty : sty.code < 64 := sty.code_lt le_rfl
    have hrnd : rnd.code < 8 := rnd.code_lt le_rfl
    rw [parse_sWord he]
    simp (disch := omega) [classParser, parseSpecial, bitAt, hd, ha]
  | f2i h ty sty rnd d a | i2f h ty sty rnd d a =>
    obtain ⟨hd, ha⟩ := wfA_ok (and_right hw)
    have hty : ty.code < 64 := ty.code_lt le_rfl
    have hsty : sty.code < 64 := sty.code_lt le_rfl
    have hrnd : rnd.code < 8 := rnd.code_lt le_rfl
    rw [parse_sWord he]
    simp (disch := omega) [classParser, parseSpecial, hd, ha]
  | fpack h ty sty rnd nsat d a b pos =>
    obtain ⟨hd, ha, hb⟩ := wfAB_ok (and_right hw)
    have hty : ty.code < 64 := ty.code_lt le_rfl
    have hsty : sty.code < 64 := sty.code_lt le_rfl
    have hrnd : rnd.code < 8 := rnd.code_lt le_rfl
    rw [parse_sWord he]
    simp (disch := omega) [classParser, parseSpecial, bitAt, hd, ha, hb]
  | funpk h ty sty rnd d a b pos =>
    obtain ⟨hd, ha, hb⟩ := wfAB_ok (and_right hw)
    have hty : ty.code < 64 := ty.code_lt le_rfl
    have hsty : sty.code < 64 := sty.code_lt le_rfl
    have hrnd : rnd.code < 8 := rnd.code_lt le_rfl
    rw [parse_sWord he]
    simp (disch := omega) [classParser, parseSpecial, hd, ha, hb]
  | linv _ _ sub => cases sub <;> cases he <;> exact absurd hc Bool.false_ne_true
  | gres _ sub _ => cases sub <;> cases he <;> exact absurd hc Bool.false_ne_true
  | icinv _ sub => cases sub <;> cases he <;> exact absurd hc Bool.false_ne_true
  | _ => cases he <;> exact absurd hc Bool.false_ne_true

end Sys2Proof
end

section
/-! PROOF. RoundTripLanes.lean: the S words of the exact, lane, move, memory and update classes are read back (R39). -/

namespace Sys2Proof

/-- The S words of the exact, lane, move, memory and update classes. -/
theorem parse_encode_lanes {i : Instr} {w : SWord} (hw : i.wf = true) (he : encode i = some (.s w))
    (hc : w.opcIn 0x140 0x280 = true) : parse (.s w) = some i := by
  cases i with
  | xclr h xa =>
    rw [parse_sWord he]
    simp [classParser, parseExact]
  | xadd h ty xa a =>
    obtain ⟨-, ha⟩ := wfA_ok (and_right hw)
    rw [parse_sWord he]
    simp [classParser, parseExact, ha]
  | xmac h ty xa a b =>
    obtain ⟨-, ha, hb⟩ := wfAB_ok (and_right hw)
    rw [parse_sWord he]
    simp [classParser, parseExact, ha, hb]
  | xrnd h ty rnd clr xa d =>
    obtain ⟨hd, -⟩ := wfD_ok (and_right hw)
    have hty : ty.code < 64 := ty.code_lt le_rfl
    have hrnd : rnd.code < 8 := rnd.code_lt le_rfl
    rw [parse_sWord he]
    simp (disch := omega) [classParser, parseExact, bitAt, hd]
  | xmrg h xa xb =>
    rw [parse_sWord he]
    simp [classParser, parseExact]
  | xsave h xa a | xload h xa a =>
    obtain ⟨-, ha⟩ := wfA_ok hw
    rw [parse_sWord he]
    simp [classParser, parseExact, ha]
  | shfl h wid mode seg d a b =>
    obtain ⟨hd, ha, hb⟩ := wfAB_ok hw
    have hmode : mode.code < 4 := mode.code_lt le_rfl
    rw [parse_sWord he]
    simp (disch := omega) [classParser, parseLanes, hd, ha, hb]
  | bcast h wid first d a b =>
    obtain ⟨hd, ha, hb⟩ := wfAB_ok hw
    rw [parse_sWord he]
    simp [classParser, parseLanes, bitAt, hd, ha, hb]
  | shfli h wid mode seg d a imm =>
    obtain ⟨hd, ha⟩ := wfA_ok hw
    have hmode : mode.code < 4 := mode.code_lt le_rfl
    rw [parse_sWord he]
    simp (disch := omega) [classParser, parseLanes, hd, ha]
  | ballot h ps d =>
    obtain ⟨hd, -⟩ := wfD_ok hw
    rw [parse_sWord he]
    simp [classParser, parseLanes, bitAt, psMod, hd]
  | vote h op pd ps a =>
    have ha : Opnd.ofIdx a.idx = a := vote_ok hw
    have hps_neg := ps.neg.toNat_lt
    have hop : op.code < 4 := op.code_lt le_rfl
    rw [parse_sWord he]
    simp (disch := omega) [classParser, parseLanes, bitAt, ha]
  | matchK h w32 rank d a =>
    obtain ⟨hd, ha⟩ := wfA_ok hw
    rw [parse_sWord he]
    simp [classParser, parseLanes, bitAt, hd, ha]
  | compact h ps d a =>
    obtain ⟨hd, ha⟩ := wfA_ok hw
    rw [parse_sWord he]
    simp [classParser, parseLanes, bitAt, psMod, hd, ha]
  | scan h op ty rnd excl seg d a b =>
    obtain ⟨hd, ha, hb⟩ := scan_ok hw
    have hty : ty.code < 64 := ty.code_lt le_rfl
    have hrnd : rnd.code < 8 := rnd.code_lt le_rfl
    have hop : op.code < 8 := op.code_lt le_rfl
    have hexcl := excl.toNat_lt
    have hseg : segCode seg < 16 := segCode_lt seg le_rfl
    rw [parse_sWord he]
    simp (disch := omega) [classParser, parseLanes, bitAt, hd, ha, hb]
  | sred h op ty rnd seg d a b =>
    obtain ⟨hd, ha, hb⟩ := scan_ok hw
    have hty : ty.code < 64 := ty.code_lt le_rfl
    have hrnd : rnd.code < 8 := rnd.code_lt le_rfl
    have hop : op.code < 8 := op.code_lt le_rfl
    have hseg : segCode seg < 16 := segCode_lt seg le_rfl
    rw [parse_sWord he]
    simp (disch := omega) [classParser, parseLanes, hd, ha, hb]
  | pcfg h wid pcn a =>
    obtain ⟨-, ha⟩ := wfA_ok hw
    rw [parse_sWord he]
    simp [classParser, parseLanes, ha]
  | perm h pcn d a =>
    obtain ⟨hd, ha⟩ := wfA_ok hw
    rw [parse_sWord he]
    simp [classParser, parseLanes, hd, ha]
  | regroup h k d =>
    obtain ⟨hd, -⟩ := wfD_ok hw
    rw [parse_sWord he]
    simp (disch := omega) [classParser, parseLanes, hd]
  | actmask h live d =>
    obtain ⟨hd, -⟩ := wfD_ok hw
    rw [parse_sWord he]
    simp [classParser, parseLanes, bitAt, hd]
  | mov h ty d a =>
    obtain ⟨hd, ha⟩ := wfA_ok (and_right hw)
    rw [parse_sWord he]
    simp [classParser, parseMoves, hd, ha]
  | sel h ps d a b =>
    obtain ⟨hd, ha, hb⟩ := wfAB_ok hw
    rw [parse_sWord he]
    simp [classParser, parseMoves, bitAt, psMod, hd, ha, hb]
  | plop h op pd pa pb =>
    have hop : op.code < 4 := op.code_lt le_rfl
    have hpa_neg := pa.neg.toNat_lt
    have hpb_neg := pb.neg.toNat_lt
    rw [parse_sWord he]
    simp (disch := omega) [classParser, parseMoves, bitAt]
  | pget h d =>
    obtain ⟨hd, -⟩ := wfD_ok hw
    rw [parse_sWord he]
    simp [classParser, parseMoves, hd]
  | pput h msk a =>
    obtain ⟨-, ha⟩ := wfA_ok hw
    rw [parse_sWord he]
    simp [classParser, parseMoves, ha]
  | rand h ty d =>
    obtain ⟨hd, -⟩ := wfD_ok (and_right hw)
    rw [parse_sWord he]
    simp [classParser, parseMoves, hd]
  | getid h sel d =>
    obtain ⟨hd, -⟩ := wfD_ok hw
    rw [parse_sWord he]
    simp [classParser, parseMoves, hd]
  | ldS h ty sc ord ch d a b | stS h ty sc ord ch d a b =>
    obtain ⟨hd, ha, hb⟩ := wfAB_ok (and_right hw)
    have hty : ty.code < 64 := ty.code_lt le_rfl
    have hch : ch.code < 4 := ch.code_lt le_rfl
    have hord : ordCode ord < 16 := ordCode_lt ord le_rfl
    rw [parse_sWord he]
    simp (disch := omega) [classParser, parseMemory, hd, ha, hb]
  | ldsS h ty sc d a b | stsS h ty sc d a b | ldxS h ty sc d a b | stxS h ty sc d a b =>
    obtain ⟨hd, ha, hb⟩ := wfAB_ok (and_right hw)
    rw [parse_sWord he]
    simp [classParser, parseMemory, hd, ha, hb]
  | prefS h l2 res lc sc a b =>
    obtain ⟨-, ha, hb⟩ := wfAB_ok (and_right hw)
    have hl2 := l2.toNat_lt
    have hres := res.toNat_lt
    rw [parse_sWord he]
    simp (disch := omega) [classParser, parseMemory, bitAt, ha, hb]
  | linv h pub rng =>
    cases rng with
    | none =>
      rw [parse_sWord he]
      cases pub <;> simp [classParser, parseMemory, bitAt, fld]
    | some rng =>
      obtain ⟨a, b⟩ := rng
      obtain ⟨-, ha, hb⟩ := wfAB_ok hw
      rw [parse_sWord he]
      simp [classParser, parseMemory, bitAt, ha, hb]
  | cas h ty sp ord sc d a b c =>
    obtain ⟨hd, ha, hb, hc⟩ := wfABC_ok (and_right hw)
    have hty : ty.code < 64 := ty.code_lt le_rfl
    have hsp := sp.toNat_lt
    have hord : ord.code < 4 := ord.code_lt le_rfl
    have hsc : sc.code < 8 := sc.code_lt le_rfl
    rw [parse_sWord he]
    simp (disch := omega) [classParser, parseUpdates, bitAt, hd, ha, hb, hc]
  | red h op ty sp rel d a b =>
    obtain ⟨hd, ha, hb⟩ := wfAB_ok (and_right hw)
    have hty : ty.code < 64 := ty.code_lt le_rfl
    have hsp := sp.toNat_lt
    have hop : op.code < 8 := op.code_lt le_rfl
    have hord : ordCode rel < 16 := ordCode_lt rel le_rfl
    rw [parse_sWord he]
    simp (disch := omega) [classParser, parseUpdates, bitAt, hd, ha, hb]
  | xred h cty sty sp a b =>
    obtain ⟨-, ha, hb⟩ := wfAB_ok (and_right hw)
    have hcty : cty.code < 64 := cty.code_lt le_rfl
    have hsty : sty.code < 64 := sty.code_lt le_rfl
    rw [parse_sWord he]
    simp (disch := omega) [classParser, parseUpdates, bitAt, ha, hb]
  | xfin h ty rnd sp acq d a =>
    obtain ⟨hd, ha⟩ := wfA_ok (and_right hw)
    have hty : ty.code < 64 := ty.code_lt le_rfl
    have hrnd : rnd.code < 8 := rnd.code_lt le_rfl
    have hsp := sp.toNat_lt
    have hord : ordCode acq < 16 := ordCode_lt acq le_rfl
    rw [parse_sWord he]
    simp (disch := omega) [classParser, parseUpdates, bitAt, hd, ha]
  | boff h clr =>
    rw [parse_sWord he]
    simp [classParser, parseUpdates, bitAt]
  | gres _ sub _ => cases sub <;> cases he <;> exact absurd hc Bool.false_ne_true
  | icinv _ sub => cases sub <;> cases he <;> exact absurd hc Bool.false_ne_true
  | _ => cases he <;> exact absurd hc Bool.false_ne_true

end Sys2Proof
end

section
/-! PROOF. RoundTripUnits.lean: the S words of the stream, matrix, synchronisation, transaction and system classes
are read back (R39). -/

namespace Sys2Proof

/-- The S words of the stream, matrix, synchronisation, transaction and system classes. -/
theorem parse_encode_units {i : Instr} {w : SWord} (hw : i.wf = true) (he : encode i = some (.s w))
    (hc : w.opcIn 0x280 0x400 = true) : parse (.s w) = some i := by
  cases i with
  | sqcfg h qn sp a b =>
    obtain ⟨-, ha, hb⟩ := wfAB_ok hw
    rw [parse_sWord he]
    simp [classParser, parseStreams, bitAt, ha, hb]
  | sqgo h qn =>
    rw [parse_sWord he]
    simp [classParser, parseStreams]
  | sqstop h qn flag | cwait h qn flag =>
    rw [parse_sWord he]
    simp [classParser, parseStreams, bitAt]
  | sqstat h qn flag d | cpoll h qn flag d =>
    obtain ⟨hd, -⟩ := wfD_ok hw
    rw [parse_sWord he]
    simp [classParser, parseStreams, bitAt, hd]
  | cpy h ssp dsp hint a b c =>
    obtain ⟨-, ha, hb, hc⟩ := wfABC_ok hw
    have hssp := ssp.toNat_lt
    have hdsp := dsp.toNat_lt
    have hhint : hint.code < 4 := hint.code_lt le_rfl
    rw [parse_sWord he]
    simp (disch := omega) [classParser, parseStreams, bitAt, ha, hb, hc]
  | cseal h d =>
    obtain ⟨hd, -⟩ := wfD_ok hw
    rw [parse_sWord he]
    simp [classParser, parseStreams, hd]
  | mdecl h n a | macq h n a =>
    obtain ⟨-, ha⟩ := wfA_ok hw
    rw [parse_sWord he]
    simp [classParser, parseMatrix, ha]
  | mdeclRel h cv =>
    rw [parse_sWord he]
    simp (disch := omega) [classParser, parseMatrix, fld_add_low, fld_add_high]
  | mma h ty cv kbm1 a bs c =>
    obtain ⟨ha, hb, hc⟩ := mma_ok hw
    have hty : ty.code < 64 := ty.code_lt le_rfl
    have hbs := bs.isSome.toNat_lt
    rw [parse_sWord he]
    cases bs with
    | none => simp (disch := omega) [classParser, parseMatrix, bitAt, ha, hc]
    | some b => simp (disch := omega) [classParser, parseMatrix, bitAt, ha, hb b rfl, hc, fld_add_low, fld_add_high]
  | mldb h sp a b c =>
    obtain ⟨-, ha, hb, hc⟩ := wfABC_ok hw
    rw [parse_sWord he]
    simp [classParser, parseMatrix, bitAt, ha, hb, hc]
  | mzero h a =>
    obtain ⟨-, ha⟩ := wfA_ok hw
    rw [parse_sWord he]
    simp [classParser, parseMatrix, ha]
  | mdrn h ty rnd dp tile p64 =>
    have hty : ty.code < 64 := ty.code_lt le_rfl
    have hrnd : rnd.code < 8 := rnd.code_lt le_rfl
    rw [parse_sWord he]
    simp (disch := omega) [classParser, parseMatrix, bitAt]
  | msta h ty rnd mode tile sp a b =>
    obtain ⟨-, ha, hb⟩ := wfAB_ok (and_right hw)
    have hty : ty.code < 64 := ty.code_lt le_rfl
    have hrnd : rnd.code < 8 := rnd.code_lt le_rfl
    have hmode : mode.code < 4 := mode.code_lt le_rfl
    rw [parse_sWord he]
    simp (disch := omega) [classParser, parseMatrix, bitAt, ha, hb]
  | mldc h ty tile sp a b =>
    obtain ⟨-, ha, hb⟩ := wfAB_ok (and_right hw)
    have hty : ty.code < 64 := ty.code_lt le_rfl
    rw [parse_sWord he]
    simp (disch := omega) [classParser, parseMatrix, bitAt, ha, hb]
  | mrel h =>
    rw [parse_sWord he]
    simp [classParser, parseMatrix]
  | phreg h mode a =>
    obtain ⟨-, ha⟩ := wfA_ok (and_right hw)
    rw [parse_sWord he]
    simp [classParser, parseSync, ha]
  | phdrop h a | phsig h a | phwait h a | phnxt h a | phnxtSpec h a =>
    obtain ⟨-, ha⟩ := wfA_ok hw
    rw [parse_sWord he]
    simp [classParser, parseSync, ha]
  | phstat h d a =>
    obtain ⟨hd, ha⟩ := wfA_ok hw
    rw [parse_sWord he]
    simp [classParser, parseSync, hd, ha]
  | fence h kind sc =>
    have hkind : kind.code < 4 := kind.code_lt le_rfl
    have hsc : sc.code < 8 := sc.code_lt le_rfl
    rw [parse_sWord he]
    simp (disch := omega) [classParser, parseSync]
  | gred h xa a =>
    obtain ⟨-, ha⟩ := wfA_ok hw
    rw [parse_sWord he]
    simp [classParser, parseSync, ha]
  | gres h form a =>
    cases form with
    | typed ty rnd d =>
      obtain ⟨hd, ha⟩ := wfA_ok (and_right hw)
      have hty : ty.code < 64 := ty.code_lt le_rfl
      have hrnd : rnd.code < 8 := rnd.code_lt le_rfl
      rw [parse_sWord he]
      simp (disch := omega) [classParser, parseSync, hd, ha]
    | whole xa =>
      obtain ⟨-, ha⟩ := wfA_ok hw
      rw [parse_sWord he]
      simp (disch := omega) [classParser, parseSync, ha, fld_add_low, fld_add_high]
  | txb h d | txs h d =>
    obtain ⟨hd, -⟩ := wfD_ok hw
    rw [parse_sWord he]
    simp [classParser, parseTx, hd]
  | txbOrd h d a =>
    obtain ⟨hd, ha⟩ := wfA_ok hw
    rw [parse_sWord he]
    simp [classParser, parseTx, hd, ha]
  | txe h last =>
    rw [parse_sWord he]
    simp [classParser, parseTx, bitAt]
  | csrr h n d =>
    obtain ⟨hd, -⟩ := wfD_ok (and_right hw)
    rw [parse_sWord he]
    simp [classParser, parseSystem, hd]
  | csrw h n op d a =>
    obtain ⟨hd, ha⟩ := wfA_ok (and_right hw)
    rw [parse_sWord he]
    simp [classParser, parseSystem, hd, ha]
  | icinv h rng =>
    cases rng with
    | none =>
      rw [parse_sWord he]
      simp [classParser, parseSystem]
    | some rng =>
      obtain ⟨a, b⟩ := rng
      obtain ⟨-, ha, hb⟩ := wfAB_ok hw
      rw [parse_sWord he]
      simp [classParser, parseSystem, ha, hb]
  | l2way h d a =>
    obtain ⟨hd, ha⟩ := wfA_ok hw
    rw [parse_sWord he]
    simp [classParser, parseSystem, hd, ha]
  | l2wayQ h d | gettime h d =>
    obtain ⟨hd, -⟩ := wfD_ok hw
    rw [parse_sWord he]
    simp [classParser, parseSystem, hd]
  | mbox h d a b =>
    obtain ⟨hd, ha, hb⟩ := wfAB_ok hw
    rw [parse_sWord he]
    simp [classParser, parseSystem, hd, ha, hb]
  | linv _ _ sub => cases sub <;> cases he <;> exact absurd hc Bool.false_ne_true
  | _ => cases he <;> exact absurd hc Bool.false_ne_true

end Sys2Proof
end

section
/-! PROOF. RoundTripShort.lean: the C, L and P words are read back (R17, R19, R20). -/

namespace Sys2Proof

/-- A header without RET is what a word without a RET field gives. -/
theorem hdr_eq {h : Hdr} (hr : noRet h = true) : (⟨h.ctl, h.guard, .none⟩ : Hdr) = h := by
  rw [← noRet_iff.1 hr]

theorem c_eq {w w' : CWord} (he : some (Raw.c w) = some (.c w')) : w' = w := by cases he; rfl
theorem l_eq {w w' : LWord} (he : some (Raw.l w) = some (.l w')) : w' = w := by cases he; rfl
theorem p_eq {w w' : PWord} (he : some (Raw.p w) = some (.p w')) : w' = w := by cases he; rfl

theorem fld_mod8 {n lo w : Nat} (h : lo + w ≤ 8) : fld (n % 256) lo w = fld n lo w := fld_mod h

@[simp] theorem extractLsb'_setWidth_byte (x : BitVec 8) : (x.setWidth 18).extractLsb' 0 8 = x := by
  apply BitVec.eq_of_toNat_eq
  rw [BitVec.extractLsb'_toNat, BitVec.toNat_setWidth, Nat.shiftRight_zero]
  omega

/-- The C words (R17). -/
theorem parse_encode_c {i : Instr} {w : CWord} (hw : i.wf = true) (he : encode i = some (.c w)) :
    parse (.c w) = some i := by
  cases i with
  | nopC h | exit h | yield h | tfence h | eret h | bra h x | trap h x | brk h x | sleep h x | txa h x | halt h x =>
    rw [c_eq he]
    simp [parse, parseC, Ctl.ofBits_bits, Guard.ofBits_bits, hdr_eq hw]
  | call h d x | ret h d | movi h d x =>
    obtain ⟨hd, hr⟩ := wfD_ok hw
    rw [c_eq he]
    simp [parse, parseC, Ctl.ofBits_bits, Guard.ofBits_bits, hdr_eq hr, hd]
  | linv _ _ sub | icinv _ sub | gres _ sub _ => cases sub <;> cases he
  | _ => cases he

/-- The L words, read from fields of the eight bits of MOD (R19). -/
theorem parse_encode_l {i : Instr} {w : LWord} (hw : i.wf = true) (he : encode i = some (.l w)) :
    parse (.l w) = some i := by
  cases i with
  | iaddL h ty sat d a imm | isubL h ty sat d a imm | imulL h ty sat d a imm =>
    obtain ⟨hd, ha, hr⟩ := wfL_ok (and_right hw)
    rw [l_eq he]
    simp [parse, parseL, Ctl.ofBits_bits, Guard.ofBits_bits, hdr_eq hr, fld_mod8, bitAt, hd, ha]
  | iminL h ty d a imm | imaxL h ty d a imm | leaL h ty d a imm | andL h ty d a imm | orL h ty d a imm
  | xorL h ty d a imm | andnL h ty d a imm | shlL h ty d a imm | shrL h ty d a imm | sarL h ty d a imm
  | rotL h ty d a imm | ldsL h ty d a imm | stsL h ty d a imm | ldxL h ty d a imm | stxL h ty d a imm =>
    obtain ⟨hd, ha, hr⟩ := wfL_ok (and_right hw)
    rw [l_eq he]
    simp [parse, parseL, Ctl.ofBits_bits, Guard.ofBits_bits, hdr_eq hr, fld_mod8, hd, ha]
  | icmpL h ty cond pd a imm =>
    obtain ⟨-, ha, hr⟩ := wfL_ok (and_right hw)
    rw [l_eq he]
    simpa [parse, parseL, Ctl.ofBits_bits, Guard.ofBits_bits, hdr_eq hr, fld_mod8, condField_cond, ha]
      using condField_pd pd cond
  | ldL h ty ch d a imm | stL h ty ch d a imm =>
    obtain ⟨hd, ha, hr⟩ := wfL_ok (and_right hw)
    rw [l_eq he]
    simp [parse, parseL, Ctl.ofBits_bits, Guard.ofBits_bits, hdr_eq hr, fld_mod8, hd, ha]
  | movl h d imm =>
    obtain ⟨hd, hr⟩ := wfD_ok hw
    rw [l_eq he]
    simp [parse, parseL, Ctl.ofBits_bits, Guard.ofBits_bits, hdr_eq hr, hd]
  | prefL h l2 res lc a imm =>
    obtain ⟨-, ha, hr⟩ := wfL_ok (and_right hw)
    have hl2 := l2.toNat_lt
    have hres := res.toNat_lt
    rw [l_eq he]
    simp (disch := omega) [parse, parseL, Ctl.ofBits_bits, Guard.ofBits_bits, hdr_eq hr, fld_mod8, bitAt, ha]
  | linv _ _ sub | icinv _ sub | gres _ sub _ => cases sub <;> cases he
  | _ => cases he

theorem pairedWord_ok {d1 a1 b1 d2 b2 : Opnd} {p : Bool}
    (hw : (d1.ok && a1.ok && b1.ok && d2.ok && b2.ok && p) = true) :
    Opnd.ofIdx d1.idx = d1 ∧ Opnd.ofIdx a1.idx = a1 ∧ Opnd.ofIdx b1.idx = b1 ∧ Opnd.ofIdx d2.idx = d2 ∧
      Opnd.ofIdx b2.idx = b2 := by
  simp only [Bool.and_eq_true] at hw
  obtain ⟨⟨⟨⟨⟨hd1, ha1⟩, hb1⟩, hd2⟩, hb2⟩, -⟩ := hw
  exact ⟨Opnd.ofIdx_idx hd1, Opnd.ofIdx_idx ha1, Opnd.ofIdx_idx hb1, Opnd.ofIdx_idx hd2, Opnd.ofIdx_idx hb2⟩

/-- The P words (R20). -/
theorem parse_encode_p {i : Instr} {w : PWord} (hw : i.wf = true) (he : encode i = some (.p w)) :
    parse (.p w) = some i := by
  cases i with
  | pairedWord h op1 op2 d1 a1 b1 d2 b2 =>
    obtain ⟨hd1, ha1, hb1, hd2, hb2⟩ := pairedWord_ok hw
    rw [p_eq he]
    simp only [parse, parseP, Option.map_some, Ctl.ofBits_bits, Guard.ofBits_bits, Retain.ofCode_toNat,
      hd1, ha1, hb1, hd2, hb2]
  | linv _ _ sub | icinv _ sub | gres _ sub _ => cases sub <;> cases he
  | _ => cases he

end Sys2Proof
end

section
/-! PROOF. ItemBits.lean: the bytes of an item give back its fields, and the bytes after it (R9, R12, R17 to R20). -/

namespace Sys2Proof

theorem toNat_append_eq_add {m n : Nat} (x : BitVec m) (y : BitVec n) :
    (x ++ y).toNat = x.toNat * 2 ^ n + y.toNat := by
  rw [BitVec.toNat_append, ← Nat.shiftLeft_add_eq_or_of_lt y.isLt, Nat.shiftLeft_eq]

theorem extractLsb'_eq {m lo w : Nat} {v : BitVec m} {x : BitVec w} (h : v.toNat / 2 ^ lo % 2 ^ w = x.toNat) :
    v.extractLsb' lo w = x :=
  BitVec.eq_of_toNat_eq (by rw [BitVec.extractLsb'_toNat, Nat.shiftRight_eq_div_pow, h])

theorem getLsbD_eq_decide {m lo : Nat} (v : BitVec m) : v.getLsbD lo = decide (v.toNat / 2 ^ lo % 2 = 1) := by
  rw [BitVec.getLsbD, Nat.testBit_eq_decide_div_mod_eq]

/-! ## The value of each format (R17 to R20) -/

theorem toBits_c (w : CWord) : (Raw.c w).toBits.toNat =
    w.ctl.toNat * 2 ^ 2 + w.opc.toNat * 2 ^ 22 + w.pred.toNat * 2 ^ 32 + w.d.toNat * 2 ^ 36 +
      w.imm.toNat * 2 ^ 46 := by
  simp only [Raw.toBits, BitVec.truncate_eq_setWidth, BitVec.toNat_setWidth, toNat_append_eq_add, BitVec.toNat_ofNat]
  omega

theorem toBits_s (w : SWord) : (Raw.s w).toBits.toNat =
    1 + w.ctl.toNat * 2 ^ 2 + w.opc.toNat * 2 ^ 23 + w.pred.toNat * 2 ^ 33 + w.ret.toNat * 2 ^ 37 +
      w.d.toNat * 2 ^ 39 + w.a.toNat * 2 ^ 49 + w.b.toNat * 2 ^ 59 + w.c.toNat * 2 ^ 69 +
      w.mod.toNat * 2 ^ 79 := by
  simp only [Raw.toBits, BitVec.truncate_eq_setWidth, BitVec.toNat_setWidth, toNat_append_eq_add, BitVec.toNat_ofNat]
  omega

theorem toBits_l (w : LWord) : (Raw.l w).toBits.toNat =
    2 + w.ctl.toNat * 2 ^ 2 + w.opc.toNat * 2 ^ 22 + w.pred.toNat * 2 ^ 32 + w.d.toNat * 2 ^ 36 +
      w.a.toNat * 2 ^ 46 + w.mod.toNat * 2 ^ 56 + w.imm.toNat * 2 ^ 64 := by
  simp only [Raw.toBits, toNat_append_eq_add, BitVec.toNat_ofNat]
  omega

theorem toBits_p (w : PWord) : (Raw.p w).toBits.toNat =
    1 + w.ctl.toNat * 2 ^ 2 + 2 ^ 22 + w.pred.toNat * 2 ^ 23 + w.ret.toNat * 2 ^ 27 + w.opc1.toNat * 2 ^ 29 +
      w.d1.toNat * 2 ^ 36 + w.a1.toNat * 2 ^ 46 + w.b1.toNat * 2 ^ 56 + w.opc2.toNat * 2 ^ 66 +
      w.d2.toNat * 2 ^ 73 + w.b2.toNat * 2 ^ 83 + w.top.toNat * 2 ^ 93 := by
  simp only [Raw.toBits, BitVec.truncate_eq_setWidth, BitVec.toNat_setWidth, toNat_append_eq_add, BitVec.toNat_ofNat]
  omega

/-! ## The fields of an item's value are its fields -/

theorem ofBits_toBits_c (w : CWord) : Raw.ofBits (Raw.c w).toBits = .c w := by
  have hv := toBits_c w
  generalize (Raw.c w).toBits = v at hv ⊢
  obtain ⟨ctl, opc, pred, d, imm⟩ := w
  dsimp only at hv
  rw [Raw.ofBits, if_pos (by omega), extractLsb'_eq (x := ctl) (by omega), extractLsb'_eq (x := opc) (by omega),
    extractLsb'_eq (x := pred) (by omega), extractLsb'_eq (x := d) (by omega), extractLsb'_eq (x := imm) (by omega)]

theorem ofBits_toBits_s (w : SWord) : Raw.ofBits (Raw.s w).toBits = .s w := by
  have hv := toBits_s w
  generalize (Raw.s w).toBits = v at hv ⊢
  obtain ⟨ctl, opc, pred, ret, d, a, b, c, mod⟩ := w
  dsimp only at hv
  rw [Raw.ofBits, if_neg (by omega), if_pos (by omega), getLsbD_eq_decide, if_neg (by rw [decide_eq_true_iff]; omega),
    extractLsb'_eq (x := ctl) (by omega), extractLsb'_eq (x := opc) (by omega),
    extractLsb'_eq (x := pred) (by omega), extractLsb'_eq (x := ret) (by omega), extractLsb'_eq (x := d) (by omega),
    extractLsb'_eq (x := a) (by omega), extractLsb'_eq (x := b) (by omega), extractLsb'_eq (x := c) (by omega),
    extractLsb'_eq (x := mod) (by omega)]

theorem ofBits_toBits_l (w : LWord) : Raw.ofBits (Raw.l w).toBits = .l w := by
  have hv := toBits_l w
  generalize (Raw.l w).toBits = v at hv ⊢
  obtain ⟨ctl, opc, pred, d, a, mod, imm⟩ := w
  dsimp only at hv
  rw [Raw.ofBits, if_neg (by omega), if_neg (by omega), if_pos (by omega), extractLsb'_eq (x := ctl) (by omega),
    extractLsb'_eq (x := opc) (by omega), extractLsb'_eq (x := pred) (by omega), extractLsb'_eq (x := d) (by omega),
    extractLsb'_eq (x := a) (by omega), extractLsb'_eq (x := mod) (by omega), extractLsb'_eq (x := imm) (by omega)]

theorem ofBits_toBits_p (w : PWord) : Raw.ofBits (Raw.p w).toBits = .p w := by
  have hv := toBits_p w
  generalize (Raw.p w).toBits = v at hv ⊢
  obtain ⟨ctl, pred, ret, opc1, d1, a1, b1, opc2, d2, b2, top⟩ := w
  dsimp only at hv
  rw [Raw.ofBits, if_neg (by omega), if_pos (by omega), getLsbD_eq_decide, if_pos (by rw [decide_eq_true_iff]; omega),
    extractLsb'_eq (x := ctl) (by omega), extractLsb'_eq (x := pred) (by omega), extractLsb'_eq (x := ret) (by omega),
    extractLsb'_eq (x := opc1) (by omega), extractLsb'_eq (x := d1) (by omega), extractLsb'_eq (x := a1) (by omega),
    extractLsb'_eq (x := b1) (by omega), extractLsb'_eq (x := opc2) (by omega), extractLsb'_eq (x := d2) (by omega),
    extractLsb'_eq (x := b2) (by omega), extractLsb'_eq (x := top) (by omega)]

/-! ## Bytes (R9) -/

theorem length_leBytes (n x : Nat) : (leBytes n x).length = n := by
  induction n generalizing x with
  | zero => rfl
  | succ n ih => rw [leBytes, List.length_cons, ih]

theorem leValue_leBytes (n x : Nat) : leValue (leBytes n x) = x % 256 ^ n := by
  induction n generalizing x with
  | zero => rw [leBytes, leValue, Nat.pow_zero, Nat.mod_one]
  | succ n ih =>
    have hbyte : (BitVec.ofNat 8 x).toNat = x % 256 := BitVec.toNat_ofNat ..
    rw [leBytes, leValue, ih, hbyte, Nat.pow_succ', Nat.mod_mul]

theorem take_leBytes {m n : Nat} (h : m ≤ n) (x : Nat) (rest : List Byte) :
    (leBytes n x ++ rest).take m = leBytes m x := by
  induction m generalizing n x with
  | zero => rfl
  | succ m ih =>
    obtain ⟨k, rfl⟩ := Nat.exists_eq_add_of_le' (Nat.lt_of_lt_of_le (Nat.succ_pos m) h)
    rw [leBytes, leBytes, List.cons_append, List.take_succ_cons, ih (by omega)]

/-! ## An item at the front of some bytes -/

/-- An item whose length its first two bits tell and whose fields its bits are; a block header is not one. -/
structure Raw.ItemBits (r : Raw) : Prop where
  parcels : r.parcels = parcelsOf (BitVec.ofNat 32 r.toBits.toNat)
  value : r.toBits.toNat < 256 ^ (4 * r.parcels)
  fields : Raw.ofBits r.toBits = r

theorem parcelsOf_ofNat (x : Nat) : parcelsOf (BitVec.ofNat 32 x) =
    if x % 4 = 0 then 2 else if x % 4 = 1 then 3 else if x % 4 = 2 then 4 else 2 := by
  rw [parcelsOf, BitVec.toNat_ofNat, Nat.mod_mod_of_dvd x (by decide : 4 ∣ 2 ^ 32)]

theorem itemBits_c (w : CWord) : (Raw.c w).ItemBits where
  parcels := by
    rw [parcelsOf_ofNat, toBits_c, if_pos (by omega), Raw.parcels]
  value := by
    show _ < 2 ^ 64
    rw [toBits_c]
    omega
  fields := ofBits_toBits_c w

theorem itemBits_s (w : SWord) : (Raw.s w).ItemBits where
  parcels := by
    rw [parcelsOf_ofNat, toBits_s, if_neg (by omega), if_pos (by omega), Raw.parcels]
  value := by
    show _ < 2 ^ 96
    rw [toBits_s]
    omega
  fields := ofBits_toBits_s w

theorem itemBits_l (w : LWord) : (Raw.l w).ItemBits where
  parcels := by
    rw [parcelsOf_ofNat, toBits_l, if_neg (by omega), if_neg (by omega), if_pos (by omega), Raw.parcels]
  value := by
    show _ < 2 ^ 128
    rw [toBits_l]
    omega
  fields := ofBits_toBits_l w

theorem itemBits_p (w : PWord) : (Raw.p w).ItemBits where
  parcels := by
    rw [parcelsOf_ofNat, toBits_p, if_neg (by omega), if_pos (by omega), Raw.parcels]
  value := by
    show _ < 2 ^ 96
    rw [toBits_p]
    omega
  fields := ofBits_toBits_p w

theorem Raw.one_le_parcels (r : Raw) : 1 ≤ r.parcels := by
  cases r <;> exact Nat.le_of_ble_eq_true rfl

/-- The decoder finds an item's bits at the front of some bytes, and the bytes after it. -/
theorem decodeBytes_leBytes {r : Raw} {i : Instr} (hr : r.ItemBits) (hd : decode r = .ok i) (rest : List Byte) :
    decodeBytes (leBytes (4 * r.parcels) r.toBits.toNat ++ rest) = .ok (i, rest) := by
  obtain ⟨hparcels, hvalue, hfields⟩ := hr
  have hlen := length_leBytes (4 * r.parcels) r.toBits.toNat
  have hn : parcelsOf (BitVec.ofNat 32
      (leValue ((leBytes (4 * r.parcels) r.toBits.toNat ++ rest).take 4))) = r.parcels := by
    rw [take_leBytes (by have := r.one_le_parcels; omega), leValue_leBytes, hparcels]
    congr 1
    exact BitVec.eq_of_toNat_eq (by simp)
  have hbits : Raw.ofBits (BitVec.ofNat 128
      (leValue ((leBytes (4 * r.parcels) r.toBits.toNat ++ rest).take (4 * r.parcels)))) = r := by
    rw [take_leBytes le_rfl, leValue_leBytes, Nat.mod_eq_of_lt hvalue, BitVec.ofNat_toNat, BitVec.setWidth_eq, hfields]
  rw [decodeBytes, hn, if_neg (by rw [List.length_append, hlen]; omega), hbits, hd, List.drop_left' hlen]

end Sys2Proof
end

section
/-! PROOF. RoundTrip.lean: decoding an encoding gives the item back, and only that decodes. -/

namespace Sys2Proof

theorem parse_encode_s {i : Instr} {w : SWord} (hw : i.wf = true) (he : encode i = some (.s w)) :
    parse (.s w) = some i := by
  have hopc := w.opc.isLt
  rcases Nat.lt_or_ge w.opc.toNat 0x140 with h1 | h1
  · exact parse_encode_arith hw he (opcIn_of (Nat.zero_le _) h1)
  rcases Nat.lt_or_ge w.opc.toNat 0x280 with h2 | h2
  · exact parse_encode_lanes hw he (opcIn_of h1 h2)
  · exact parse_encode_units hw he (opcIn_of h2 hopc)

/-- No item of code has a block header as its encoding. -/
theorem encode_ne_header {i : Instr} {b : BitVec 64} : encode i ≠ some (.h b) := by
  intro he
  cases i with
  | linv _ _ sub | icinv _ sub | gres _ sub _ => cases sub <;> cases he
  | _ => cases he

/-- What is read from the fields of a well-formed item's encoding is the item. -/
theorem parse_encode {i : Instr} {r : Raw} (hw : i.wf = true) (he : encode i = some r) : parse r = some i := by
  cases r with
  | c w => exact parse_encode_c hw he
  | s w => exact parse_encode_s hw he
  | l w => exact parse_encode_l hw he
  | p w => exact parse_encode_p hw he
  | h b => exact absurd he encode_ne_header

/-- An encoding is an item's bits, not a block header's. -/
theorem itemBits_of_encode {i : Instr} {r : Raw} (he : encode i = some r) : r.ItemBits := by
  cases r with
  | c w => exact itemBits_c w
  | s w => exact itemBits_s w
  | l w => exact itemBits_l w
  | p w => exact itemBits_p w
  | h b => exact absurd he encode_ne_header

theorem decode_encode {i : Instr} {r : Raw} (hw : i.wf = true) (he : encode i = some r) : decode r = .ok i := by
  rw [decode, parse_encode hw he]
  simp [hw, he]

theorem wf_and_encode_of_decode {i : Instr} {r : Raw} (hd : decode r = .ok i) : i.wf = true ∧ encode i = some r := by
  rw [decode] at hd
  split at hd
  · split at hd
    · next hok =>
      obtain rfl := Except.ok.inj hd
      rwa [Bool.and_eq_true, beq_iff_eq] at hok
    · cases hd
  · cases hd

namespace Machine

/-- Settles O46, from `parse_encode` (the parsers read an item back from its encoding's fields) and
`decodeBytes_leBytes` (an item's bytes give its fields back); the converse is what `decode` checks. -/
theorem decodingGivesTheItemBack : Obligations.DecodingGivesTheItemBack := by
  unfold Obligations.DecodingGivesTheItemBack
  exact ⟨fun _ _ rest hw he => decodeBytes_leBytes (itemBits_of_encode he) (decode_encode hw he) rest,
    fun _ _ hd => wf_and_encode_of_decode hd⟩

end Machine

end Sys2Proof
end
